-- ==== Sys2Proof/Word.lean ====
section
/-! DEFINITION. The word types of the model. -/
namespace Sys2Proof

/-- A byte of memory, of a record or of a message. -/
abbrev Byte := BitVec 8
/-- A 32-bit word: FP32 patterns, U32 fields, code words. -/
abbrev W32 := BitVec 32
/-- A 64-bit word: a scalar register (R204) or a CSR (R7). -/
abbrev W64 := BitVec 64

/-- Sparse data by number: pairs in strictly rising order of key, no entry holding the value an unlisted key reads as. -/
abbrev Tab (α : Type) := List (Nat × α)

end Sys2Proof
end

