-- ==== Sys2Proof/Syntax.lean ====
section
/-! DEFINITION. The commands of the block: one constructor for each row of the table of operations and events. -/
namespace Sys2Proof

/-- How a Finlen instruction issues (R207, R208): the physical core `26d + p` whose sequencer issues it from its running
reel, and the predicate fields PN and PR. -/
structure Issue where
  core : Nat
  pn : Bool
  pr : Nat
deriving DecidableEq, Repr

/-- What the tests of R356 see of an inbound packet: the port it came in on, the destination queue pair, its PSN, whether
its FCS holds, how MACsec judges it (0 unprotected, 1 protected and authentic, 2 not authentic), the AN and packet number of its SecTAG,
its IP addresses (16 bytes each, as RIP holds one), its UDP destination port, whether its ICRC holds, the DMA length of its RETH, and its
CE mark. -/
structure Pkt where
  port : Nat
  qp : Nat
  psn : Nat
  fcs : Bool
  macsec : Nat
  an : Nat := 0
  pn : Nat := 0
  dip : List Byte
  sip : List Byte
  udp : Nat := 4791
  icrc : Bool := true
  dma : Nat := 0
  ce : Bool := false
deriving DecidableEq, Repr

/-- What the board and the parts do during a cold start (R449 to R452): whether every PLL locks, which C-dies have no
working link, whether a hub die has lost both links, which memories (0-15 stacks, 16-79 packages) fail training, whether
a journal area can be erased, whether the bank charges, and which physical cores fail their test (R466). -/
structure BootFacts where
  pllLock : Bool
  hubLinks : Bool
  deadDies : List Nat
  deadMems : List Nat
  journalErase : Bool
  bankOk : Bool
  badCores : List Nat
deriving DecidableEq, Repr

/-- The commands. Comments name the rule the table gives for the row. -/
inductive Instr where
  -- Finlen, integer arithmetic, compares and branches (R210 to R216)
  | alu (i : Issue) (fn rd ra rb : Nat)
  | addi (i : Issue) (rd ra : Nat) (imm : BitVec 12)
  | andi (i : Issue) (rd ra : Nat) (imm : BitVec 12)
  | ori (i : Issue) (rd ra : Nat) (imm : BitVec 12)
  | xori (i : Issue) (rd ra : Nat) (imm : BitVec 12)
  | slli (i : Issue) (rd ra : Nat) (imm : BitVec 12)
  | srli (i : Issue) (rd ra : Nat) (imm : BitVec 12)
  | srai (i : Issue) (rd ra : Nat) (imm : BitVec 12)
  | cmp (i : Issue) (fn pd ra rb : Nat)
  | cmpi (i : Issue) (cond pd ra : Nat) (imm : BitVec 12)
  | plog (i : Issue) (fn pd pa pb : Nat)
  | br (i : Issue) (off : BitVec 19)
  | call (i : Issue) (off : BitVec 19)
  | ret (i : Issue)
  | loop (i : Issue) (rd ra body : Nat)
  | lbrk (i : Issue)
  -- Finlen, descriptors, barriers, memory (R218 to R223)
  | issue (i : Issue) (ra eng : Nat) (size : Bool) (off : Nat)
  | arrive (i : Issue) (ra mu ctr n : Nat) (rem : Bool)
  | wait (i : Issue) (mu ctr n : Nat)
  | ldw (i : Issue) (rd ra : Nat) (imm : BitVec 12)
  | stw (i : Issue) (rd ra : Nat) (imm : BitVec 12)
  -- Finlen, reels, cuts, end of take (R228 to R231)
  | rstart (i : Issue) (z : Nat) (off : BitVec 19)
  | yieldReel (i : Issue)
  | rexit (i : Issue)
  | cut (i : Issue) (k : Nat)
  | cutRecorded (stream : Nat)
  | tend (i : Issue)
  | fence (i : Issue) (fn : Nat)
  | fenceRelease (core reel : Nat)
  | trap (i : Issue) (code : BitVec 12)
  | nop (i : Issue)
  | xalu (i : Issue) (fn rd ra : Nat) (imm : W32)
  -- Finlen, counters, commits, CSRs (R224 to R227, R232, R235)
  | fetch (i : Issue) (rd ra rb : Nat) (dev : Bool) (num : Nat)
  | fetchAnswer (core reel rd : Nat)
  | counterResend (core reel rd : Nat)
  | tcmt (i : Issue) (rd ra rb : Nat) (dev : Bool) (num : Nat)
  | tcmtAnswer (core reel rd : Nat)
  | tcmtCopyDone (core reel rd : Nat)
  | csrr (i : Issue) (rd : Nat) (imm : W32)
  | csrw (i : Issue) (ra : Nat) (imm : W32)
  | trapReport (core : Nat)
  -- Barrier counters (R131)
  | barrierArrival (k : Nat)
  | barrierWaitSatisfy (core mu ctr : Nat)
  -- Engines (R66 to R117)
  | mxePassStart (core : Nat)
  | mxeRangeFail (core : Nat)
  | zpMiss (core : Nat)
  | mxePassEnd (core : Nat)
  | mxeDrainEnd (core : Nat)
  | descSkipRun (core eng sub : Nat)
  | vwalkStart (core : Nat)
  | vceBeatIssue (core : Nat)
  | vwalkEnd (core : Nat)
  | vprogApply (core : Nat)
  | vcache (core : Nat)
  | redReduce (core : Nat)
  | redResult (core : Nat)
  -- Address generators and transfers (R128, R266, R268)
  | agProgram (core mu : Nat)
  | requestReturn (core k : Nat)
  | xfrStart (core : Nat)
  | xfrSeal (core : Nat)
  | xfrComplete (core k : Nat)
  | versionReread (core k : Nat)
  -- Fabric (R139 to R157)
  | mcastTileSend (core : Nat)
  | steerApply (core stu : Nat)
  | stuPair (core stu : Nat)
  | stuDrainMarker (core stu : Nat)
  | steerStall (core stu : Nat)
  | reelSwitch (core unit : Nat)
  | reelGenSwitch (core unit reel : Nat)
  | circuitWord (slot circuit srcOff dstOff reel : Nat) (gen mark : Bool)
  | packetFlit (k : Nat)
  | timetableSwitch
  | staleNotice (core mu g : Nat)
  | wkcFetchAdd (core reel rd : Nat)
  | ledgerCommit (core reel rd : Nat)
  -- Memory controllers and background work (R173, R199)
  | ctrlAccess (write : Bool) (addr : Nat) (data : List Byte) (ecc : Nat) (stream : Nat)
  | logbookRebuildDone
  | refresh (ctl : Nat)
  | scrub (ctl addr ecc : Nat)
  | lpcFill (pkg : Nat)
  | telemetryRead (ctl temp : Nat)
  | calStep (ctl eye margin centre ecc : Nat)
  | serdesProbe (lane margin : Nat)
  | calSnapshot
  | selfRefreshEnter (ctl : Nat)
  | selfRefreshExit (ctl : Nat)
  | coreNap (core : Nat)
  | coreWake (core : Nat)
  | powerReading (watts : Nat) (temps : List Nat) (inputDv bankDv : Nat)
  -- Commands and takes (10, 11)
  | commandRecord (stream slot : Nat)
  | waitingRecordAccept (stream : Nat)
  | run (stream : Nat)
  | stepCmd (stream : Nat)
  | load (stream : Nat)
  | loadRetry (k : Nat)
  | unload (stream : Nat)
  | resume (stream : Nat)
  | mark (stream : Nat)
  | openStream (stream : Nat)
  | closeStream (stream : Nat)
  | give (stream : Nat)
  | takeBack (stream : Nat)
  | adopt (stream : Nat)
  | release (stream : Nat)
  | qpsetSet (stream : Nat)
  | qpsetReset (stream : Nat)
  | keyset (stream : Nat)
  | keyRevoke (stream : Nat)
  | epoch (stream : Nat)
  | sa (stream : Nat)
  | fwWrite (stream : Nat) (flashOk : Bool)
  | fwActivate (stream : Nat) (flashOk : Bool)
  | attest (stream : Nat) (flashOk : Bool)
  | idset (stream : Nat) (flashOk : Bool)
  | freezeThaw (stream : Nat)
  | freezeReset (stream : Nat)
  | takeStart (stream : Nat)
  | commit (stream : Nat)
  | deadlinePassed (stream : Nat)
  | placementClear (slot : Nat)
  | coreClearTimeout (core : Nat)
  | completionRewrite (stream : Nat)
  | poolReservationRetry (run shard : Nat)
  -- Network (12)
  | portUp (p : Nat)
  | portDown (p : Nat)
  | rxRdmaWrite (m : Pkt) (opcode rkey va : Nat) (data : List Byte)
  | rxRdmaReadRequest (m : Pkt) (rkey va len : Nat)
  | rxReadResponse (m : Pkt) (data : List Byte)
  | rxAck (m : Pkt)
  | rxNak (m : Pkt) (kind : Nat)
  | ackTimeout (qp : Nat)
  | rxCnp (m : Pkt)
  | alphaTimer (qp : Nat)
  | rateTimer (qp : Nat)
  | rateBytesSent (qp : Nat)
  | rxPfcPause (port prio : Nat)
  | rxControlOpen (m : Pkt) (rkey : Nat) (rec : List Byte)
  | rxControlSeal (m : Pkt) (rkey : Nat) (rec : List Byte)
  | rxControlAbort (m : Pkt) (rkey : Nat) (rec : List Byte)
  -- Votes and updates (13)
  | stepCloseTimer (run : Nat)
  | report (k : Nat)
  | verdict (k : Nat)
  | signs (k : Nat)
  | verdictTimeout (stream : Nat)
  | syncUpdate (run shard : Nat)
  | slowUpdate (run shard : Nat)
  | updateDone (run shard : Nat)
  -- Board, power-up and resets (10, 16)
  | pwrFail
  | coldResetAssert
  | flushDone
  | railRestore (cause : Nat)
  | thermalTrip (die : Nat)
  | railFault (part : Nat)
  | coldStart (facts : BootFacts)
  | coldReady
  | warmResetAssert
  | warmResetRelease
  | warmReady
  | pinFreeze
  | freezePinRelease
  | freezeHoldExpiry
  | freezeEnd
  | readoutEnd (badMus : List Nat)
  -- Faults and recovery (17)
  | coreArrayFault (core array : Nat)
  | fenceFail (core : Nat)
  | coreTestDone (core : Nat) (pass : Bool)
  | upuArrayFault (unit : Nat)
  | linkD2dFault (die side : Nat)
  | derlerWatchdog
  | hubFailure (hub : Nat)
  | journalFlashFail (area : Nat)
  | journalEraseRetry
  | reinitCore (index : Nat)
  | reinitPort (index : Nat)
  | reinitUpu (index : Nat)
  | reinitHbc (index : Nat)
  | reinitLpc (index : Nat)
  -- Registers, SMBus, observability (16, 17, 19, 20)
  | frzDailiesWrite (v : W64)
  | obsRingWrite (d : Nat) (v : W64)
  | csrWrite (addr : Nat) (v : W64)
  | setPtr (v : W32)
  | smbRead
  | clrAlert (v : W64)
  | alertResponse
  | obsSample (d : Nat)
  | keeperRailFall
  | journalAreaErased (area : Nat)
  | pfcPauseExpiry (port : Nat)
  | smbusClockLowTimeout
  | rxInvalidRequest (m : Pkt) (opcode : Nat)
  | napEntryDone (core : Nat)
deriving DecidableEq, Repr

end Sys2Proof
end

