-- ==== Sys2Proof/WellFormed.lean ====
section
/-! DEFINITION. Which commands are well formed: units that exist (R13 to R16, R516) and Finlen fields that the loader
admits (R207 to R232, R518). -/
namespace Sys2Proof

/-- Physical cores: 26 on each of 8 C-dies. -/
def coreOk (c : Nat) : Bool := c < 208
/-- Reels (R152). -/
def reelOk (r : Nat) : Bool := r < 8
/-- Scalar registers (R204). -/
def regOk (r : Nat) : Bool := r < 32
/-- Predicates (R204). -/
def predOk (p : Nat) : Bool := p < 8
/-- Memory units of a core. -/
def muOk (m : Nat) : Bool := m < 4
/-- Barrier counters of an MU (R130). -/
def ctrOk (n : Nat) : Bool := n < 64
/-- Steering units of a router (R142). -/
def stuOk (k : Nat) : Bool := k < 4
/-- Streams (R291). -/
def streamOk (n : Nat) : Bool := n < 256
/-- Slots of a window, and program slots. -/
def slotOk (n : Nat) : Bool := n < 256
/-- Memory controllers: stacks 0-15, packages 16-79. -/
def ctlOk (k : Nat) : Bool := k < 80
/-- Packages. -/
def pkgOk (k : Nat) : Bool := k < 64
/-- Dies: C-dies 0-7, H-dies 8 and 9. -/
def dieOk (d : Nat) : Bool := d < 10
/-- Ports (R349). -/
def portOk (p : Nat) : Bool := p < 20
/-- Queue pairs (R355). -/
def qpOk (q : Nat) : Bool := q < 4352

/-- The issue of a Finlen instruction: an existing core and a predicate. -/
def Issue.ok (i : Issue) : Bool := coreOk i.core && predOk i.pr

/-- The fields of an inbound packet name units that exist. -/
def Pkt.ok (m : Pkt) : Bool := portOk m.port && m.qp < 2 ^ 24 && m.psn < 2 ^ 24 && m.macsec ≤ 2 && m.an < 4 && m.pn < 2 ^ 64 &&
  m.dip.length = 16 && m.sip.length = 16 && m.udp < 65536 && m.dma < 2 ^ 32

/-- A shift amount of an I-format shift (R210). -/
def shiftOk (imm : BitVec 12) : Bool := imm.toNat < 64

/-- FN of FENCE: a non-zero combination of three bits (R228). -/
def fenceOk (fn : Nat) : Bool := 1 ≤ fn && fn ≤ 7

/-- Well-formed commands. -/
def Instr.wf : Instr → Bool
  | .alu i fn rd ra rb => i.ok && fn ≤ 0x12 && regOk rd && regOk ra && regOk rb && (fn < 0x11 || rb = 0)
  | .addi i rd ra _ | .andi i rd ra _ | .ori i rd ra _ | .xori i rd ra _ => i.ok && regOk rd && regOk ra
  | .slli i rd ra imm | .srli i rd ra imm | .srai i rd ra imm => i.ok && regOk rd && regOk ra && shiftOk imm
  | .cmp i fn pd ra rb => i.ok && fn ≤ 5 && predOk pd && regOk ra && regOk rb
  | .cmpi i cond pd ra _ => i.ok && cond ≤ 5 && predOk pd && regOk ra
  | .plog i fn pd pa pb => i.ok && fn ≤ 4 && predOk pd && predOk pa && predOk pb && (fn ≠ 4 || pb = 0)
  | .br i off | .call i off => i.ok && off ≠ 0
  | .ret i | .lbrk i | .yieldReel i | .rexit i | .tend i | .nop i => i.ok
  | .loop i rd ra body => i.ok && regOk rd && regOk ra && body < 4096
  | .issue i ra eng _ off => i.ok && regOk ra && eng ≤ 6 && off < 4096
  | .arrive i ra mu ctr n rem => i.ok && regOk ra && muOk mu && ctrOk ctr && 1 ≤ n && n ≤ 255 && (rem || ra = 0)
  | .wait i mu ctr n => i.ok && muOk mu && ctrOk ctr && 1 ≤ n && n ≤ 255
  | .ldw i rd ra _ | .stw i rd ra _ => i.ok && regOk rd && regOk ra
  | .rstart i z _ => i.ok && 1 ≤ z && z ≤ 7
  | .cut i k => i.ok && 1 ≤ k && k ≤ 255
  | .cutRecorded st => streamOk st
  | .fence i fn => i.ok && fenceOk fn
  | .fenceRelease c r => coreOk c && reelOk r
  | .trap i _ => i.ok
  | .xalu i fn rd ra _ => i.ok && fn ≤ 6 && regOk rd && regOk ra && (3 ≤ fn || ra = 0)
  | .fetch i rd ra rb _ num | .tcmt i rd ra rb _ num => i.ok && regOk rd && regOk ra && regOk rb && num < 512
  | .fetchAnswer c r rd | .counterResend c r rd | .tcmtAnswer c r rd | .tcmtCopyDone c r rd
  | .wkcFetchAdd c r rd | .ledgerCommit c r rd => coreOk c && reelOk r && regOk rd
  | .csrr i rd imm => i.ok && regOk rd && imm.toNat < 2 ^ 21 && imm.toNat % 8 = 0
  | .csrw i ra imm => i.ok && regOk ra && imm.toNat % 8 = 0 && 0x8080 ≤ imm.toNat && imm.toNat ≤ 0x80F8
  | .trapReport c | .mxePassStart c | .mxeRangeFail c | .zpMiss c | .mxePassEnd c | .mxeDrainEnd c | .vwalkStart c
  | .vceBeatIssue c | .vwalkEnd c | .vprogApply c | .vcache c | .redReduce c | .redResult c | .xfrStart c | .xfrSeal c
  | .mcastTileSend c | .coreNap c | .coreWake c | .coreClearTimeout c | .fenceFail c | .napEntryDone c => coreOk c
  | .barrierArrival _ | .logbookRebuildDone | .timetableSwitch | .packetFlit _ | .calSnapshot | .loadRetry _ => true
  | .barrierWaitSatisfy c m n => coreOk c && muOk m && ctrOk n
  | .descSkipRun c eng sub => coreOk c && eng ≤ 6 && (if eng = 3 ∨ eng = 6 then sub < 4 else sub = 0)
  | .agProgram c m => coreOk c && muOk m
  | .requestReturn c _ | .xfrComplete c _ | .versionReread c _ => coreOk c
  | .steerApply c k | .stuPair c k | .stuDrainMarker c k | .steerStall c k => coreOk c && stuOk k
  | .reelSwitch c u => coreOk c && u < 10
  | .reelGenSwitch c u r => coreOk c && u < 9 && reelOk r
  | .circuitWord sl _ _ _ r _ _ => slotOk sl && reelOk r
  | .staleNotice c m g => coreOk c && muOk m && g < 64
  | .ctrlAccess _ _ data ecc st => data.length ≤ 64 && ecc ≤ 2 && streamOk st
  | .refresh k | .selfRefreshEnter k | .selfRefreshExit k => ctlOk k
  | .scrub k _ ecc => ctlOk k && ecc ≤ 2
  | .lpcFill k => pkgOk k
  | .telemetryRead k t => ctlOk k && t < 256
  | .calStep k y m c e => ctlOk k && y < (if k < 16 then 320 else 12) && (y % 2 = 1 || y / 2 % (if k < 16 then 5 else 6) ≠ (if k < 16 then 4 else 5)) &&
      m < 64 && c < 64 && e ≤ 2
  | .serdesProbe l m => l < 136 && m < 64
  | .powerReading w temps a b => w < 65536 && temps.length = 10 && temps.all (· < 256) && a < 65536 && b < 65536
  | .commandRecord st sl => streamOk st && slotOk sl
  | .waitingRecordAccept st | .run st | .stepCmd st | .load st | .unload st | .resume st | .mark st | .openStream st
  | .closeStream st | .give st | .takeBack st | .adopt st | .release st | .qpsetSet st | .qpsetReset st | .keyset st
  | .keyRevoke st | .epoch st | .sa st | .freezeThaw st | .freezeReset st | .takeStart st | .commit st | .deadlinePassed st
  | .completionRewrite st | .verdictTimeout st => streamOk st
  | .fwWrite st _ | .fwActivate st _ | .attest st _ | .idset st _ => streamOk st
  | .placementClear sl => slotOk sl
  | .poolReservationRetry r _ | .syncUpdate r _ | .slowUpdate r _ | .updateDone r _ | .stepCloseTimer r => r < 16
  | .portUp p | .portDown p | .pfcPauseExpiry p => portOk p
  | .rxRdmaWrite m _ _ _ _ | .rxRdmaReadRequest m _ _ _ | .rxReadResponse m _ | .rxAck m | .rxNak m _ | .rxCnp m
  | .rxControlOpen m _ _ | .rxControlSeal m _ _ | .rxControlAbort m _ _ | .rxInvalidRequest m _ => m.ok
  | .ackTimeout q | .alphaTimer q | .rateTimer q | .rateBytesSent q => qpOk q
  | .rxPfcPause p prio => portOk p && prio < 8
  | .report _ | .verdict _ | .signs _ => true
  | .pwrFail | .coldResetAssert | .flushDone | .coldReady | .warmResetAssert | .warmResetRelease | .warmReady | .pinFreeze
  | .freezePinRelease | .freezeHoldExpiry | .freezeEnd | .derlerWatchdog | .journalEraseRetry | .alertResponse | .smbRead
  | .keeperRailFall | .smbusClockLowTimeout => true
  | .railRestore cause => cause ≤ 4
  | .thermalTrip d => dieOk d
  | .railFault _ => true
  | .coldStart f => f.deadDies.all (· < 8) && f.deadMems.all ctlOk && f.badCores.all coreOk
  | .readoutEnd bad => bad.all (· < 832)
  | .coreArrayFault c a => coreOk c && a ≤ 8
  | .coreTestDone c _ => coreOk c
  | .upuArrayFault u => u < 80
  | .linkD2dFault d side => d < 8 && side < 4
  | .hubFailure h => h < 2
  | .journalFlashFail a | .journalAreaErased a => a < 2
  | .reinitCore c => coreOk c
  | .reinitPort p => portOk p
  | .reinitUpu u => u < 80
  | .reinitHbc k => k < 16
  | .reinitLpc k => pkgOk k
  | .frzDailiesWrite _ | .csrWrite _ _ | .setPtr _ | .clrAlert _ => true
  | .obsRingWrite d _ | .obsSample d => dieOk d

end Sys2Proof
end

