-- ==== Sys2Proof/Decode.lean ====
section
/-! DEFINITION. The decoder of the table's words, and the Finlen encoding (R206, R207, R210 to R232, R518): words to
instruction and instruction to words. No row of the table has bits: a command of this block is an event or a record. -/
namespace Sys2Proof

/-- The command a word spells by the table's bits: none, since the table gives no row any. -/
def decodeTableWord (_nbits _w : Nat) : Option Instr := none

-- Fields of the first word (R207)

/-- Bits `hi:lo` of a code word. -/
def wf (w : W32) (hi lo : Nat) : Nat := w.toNat / 2 ^ lo % 2 ^ (hi + 1 - lo)

/-- Major opcode. -/
def fOp (w : W32) : Nat := wf w 31 26
/-- rd, or the first register field. -/
def fRd (w : W32) : Nat := wf w 25 21
/-- ra. -/
def fRa (w : W32) : Nat := wf w 20 16
/-- rb. -/
def fRb (w : W32) : Nat := wf w 15 11
/-- FN. -/
def fFn (w : W32) : Nat := wf w 10 4
/-- IMM12. -/
def fImm (w : W32) : BitVec 12 := BitVec.ofNat 12 (wf w 15 4)
/-- Z. -/
def fZ (w : W32) : Nat := wf w 25 23
/-- OFF19. -/
def fOff (w : W32) : BitVec 19 := BitVec.ofNat 19 (wf w 22 4)

/-- Whether a first word begins a 64-bit instruction (R206). -/
def isLong (w : W32) : Bool := 0x38 ≤ fOp w

/-- The instruction two words spell, before its fields are tested: none for a reserved opcode or a field that must be zero
and is not (R210, R518). -/
def finlenRaw (core : Nat) (w w2 : W32) : Option Instr :=
  let q : Issue := { core := core, pn := wf w 3 3 = 1, pr := wf w 2 0 }
  let rd := fRd w
  let ra := fRa w
  let rb := fRb w
  let fn := fFn w
  let imm := fImm w
  let pd := wf w 23 21
  let pdz := wf w 25 24 = 0
  let bz := wf w 25 4 = 0
  match fOp w with
  | 0x01 => some (.alu q fn rd ra rb)
  | 0x02 => some (.addi q rd ra imm)
  | 0x03 => some (.andi q rd ra imm)
  | 0x04 => some (.ori q rd ra imm)
  | 0x05 => some (.xori q rd ra imm)
  | 0x06 => some (.slli q rd ra imm)
  | 0x07 => some (.srli q rd ra imm)
  | 0x08 => some (.srai q rd ra imm)
  | 0x0A => if pdz then some (.cmp q fn pd ra rb) else none
  | 0x0B => if pdz ∧ wf w 20 19 = 0 ∧ wf w 15 14 = 0 then some (.plog q fn pd (wf w 18 16) (wf w 13 11)) else none
  | 0x0C => if pdz then some (.cmpi q 0 pd ra imm) else none
  | 0x0D => if pdz then some (.cmpi q 1 pd ra imm) else none
  | 0x0E => if pdz then some (.cmpi q 2 pd ra imm) else none
  | 0x0F => if pdz then some (.cmpi q 3 pd ra imm) else none
  | 0x10 => if pdz then some (.cmpi q 4 pd ra imm) else none
  | 0x11 => if pdz then some (.cmpi q 5 pd ra imm) else none
  | 0x12 => if fZ w = 0 then some (.br q (fOff w)) else none
  | 0x13 => if fZ w = 0 then some (.call q (fOff w)) else none
  | 0x14 => if bz then some (.ret q) else none
  | 0x15 => some (.loop q rd ra (wf w 15 4))
  | 0x16 => if bz then some (.lbrk q) else none
  | 0x17 => some (.issue q rd (wf w 20 17) (wf w 16 16 = 1) (wf w 15 4))
  | 0x18 => some (.arrive q rd (wf w 20 19) (wf w 18 13) (wf w 12 5) (wf w 4 4 = 1))
  | 0x19 => if rd = 0 ∧ wf w 4 4 = 0 then some (.wait q (wf w 20 19) (wf w 18 13) (wf w 12 5)) else none
  | 0x1A => some (.ldw q rd ra imm)
  | 0x1B => some (.stw q rd ra imm)
  | 0x1C => some (.rstart q (fZ w) (fOff w))
  | 0x1D => if bz then some (.yieldReel q) else none
  | 0x1E => if bz then some (.rexit q) else none
  | 0x1F => if rd = 0 ∧ ra = 0 then some (.cut q (wf w 15 4)) else none
  | 0x20 => if bz then some (.tend q) else none
  | 0x21 => if rd = 0 ∧ ra = 0 ∧ rb = 0 then some (.fence q fn) else none
  | 0x22 => if rd = 0 ∧ ra = 0 then some (.trap q imm) else none
  | 0x23 => if bz then some (.nop q) else none
  | 0x38 => if rb = 0 then some (.xalu q fn rd ra w2) else none
  | 0x3A => if fn = 0 ∧ wf w2 31 10 = 0 then some (.fetch q rd ra rb (wf w2 9 9 = 1) (wf w2 8 0)) else none
  | 0x3B => if fn = 0 ∧ wf w2 31 10 = 0 then some (.tcmt q rd ra rb (wf w2 9 9 = 1) (wf w2 8 0)) else none
  | 0x3C => if fn = 0 ∧ ra = 0 ∧ rb = 0 then some (.csrr q rd w2) else none
  | 0x3D => if fn = 0 ∧ rd = 0 ∧ rb = 0 then some (.csrw q ra w2) else none
  | _ => none

/-- The instruction two words spell on a core: none where the loader rejects the words (R209). -/
def finlenDecode (core : Nat) (w w2 : W32) : Option Instr := (finlenRaw core w w2).filter Instr.wf

-- The encoder

/-- PN and PR in bits 3:0. -/
def predBits (q : Issue) : Nat := (if q.pn then 8 else 0) + q.pr

/-- A first word from its opcode and fields `(value, lo)`. -/
def mkWord (op : Nat) (q : Issue) (fs : List (Nat × Nat)) : W32 :=
  BitVec.ofNat 32 (op * 2 ^ 26 + fs.foldl (fun a f => a + f.1 * 2 ^ f.2) 0 + predBits q)

/-- The S-format fields. -/
def fieldsS (rd ra rb fn : Nat) : List (Nat × Nat) := [(rd, 21), (ra, 16), (rb, 11), (fn, 4)]

/-- The I-format fields. -/
def fieldsI (rd ra imm : Nat) : List (Nat × Nat) := [(rd, 21), (ra, 16), (imm, 4)]

/-- Whether an instruction takes two words. -/
def Instr.long : Instr → Bool
  | .xalu .. | .fetch .. | .tcmt .. | .csrr .. | .csrw .. => true
  | _ => false

/-- The words of a Finlen instruction, the second zero for a 32-bit one; none for a command that is no instruction. -/
def finlenEncode : Instr → Option (W32 × W32)
  | .alu q fn rd ra rb => some (mkWord 0x01 q (fieldsS rd ra rb fn), 0)
  | .addi q rd ra imm => some (mkWord 0x02 q (fieldsI rd ra imm.toNat), 0)
  | .andi q rd ra imm => some (mkWord 0x03 q (fieldsI rd ra imm.toNat), 0)
  | .ori q rd ra imm => some (mkWord 0x04 q (fieldsI rd ra imm.toNat), 0)
  | .xori q rd ra imm => some (mkWord 0x05 q (fieldsI rd ra imm.toNat), 0)
  | .slli q rd ra imm => some (mkWord 0x06 q (fieldsI rd ra imm.toNat), 0)
  | .srli q rd ra imm => some (mkWord 0x07 q (fieldsI rd ra imm.toNat), 0)
  | .srai q rd ra imm => some (mkWord 0x08 q (fieldsI rd ra imm.toNat), 0)
  | .cmp q fn pd ra rb => some (mkWord 0x0A q (fieldsS pd ra rb fn), 0)
  | .plog q fn pd pa pb => some (mkWord 0x0B q (fieldsS pd pa pb fn), 0)
  | .cmpi q cond pd ra imm => some (mkWord (0x0C + cond) q (fieldsI pd ra imm.toNat), 0)
  | .br q off => some (mkWord 0x12 q [(off.toNat, 4)], 0)
  | .call q off => some (mkWord 0x13 q [(off.toNat, 4)], 0)
  | .ret q => some (mkWord 0x14 q [], 0)
  | .loop q rd ra body => some (mkWord 0x15 q (fieldsI rd ra body), 0)
  | .lbrk q => some (mkWord 0x16 q [], 0)
  | .issue q ra eng size off => some (mkWord 0x17 q [(ra, 21), (eng, 17), (if size then 1 else 0, 16), (off, 4)], 0)
  | .arrive q ra mu ctr n rem => some (mkWord 0x18 q [(ra, 21), (mu, 19), (ctr, 13), (n, 5), (if rem then 1 else 0, 4)], 0)
  | .wait q mu ctr n => some (mkWord 0x19 q [(mu, 19), (ctr, 13), (n, 5)], 0)
  | .ldw q rd ra imm => some (mkWord 0x1A q (fieldsI rd ra imm.toNat), 0)
  | .stw q rd ra imm => some (mkWord 0x1B q (fieldsI rd ra imm.toNat), 0)
  | .rstart q z off => some (mkWord 0x1C q [(z, 23), (off.toNat, 4)], 0)
  | .yieldReel q => some (mkWord 0x1D q [], 0)
  | .rexit q => some (mkWord 0x1E q [], 0)
  | .cut q k => some (mkWord 0x1F q [(k, 4)], 0)
  | .tend q => some (mkWord 0x20 q [], 0)
  | .fence q fn => some (mkWord 0x21 q [(fn, 4)], 0)
  | .trap q code => some (mkWord 0x22 q [(code.toNat, 4)], 0)
  | .nop q => some (mkWord 0x23 q [], 0)
  | .xalu q fn rd ra imm => some (mkWord 0x38 q (fieldsS rd ra 0 fn), imm)
  | .fetch q rd ra rb dev num => some (mkWord 0x3A q (fieldsS rd ra rb 0), BitVec.ofNat 32 ((if dev then 512 else 0) + num))
  | .tcmt q rd ra rb dev num => some (mkWord 0x3B q (fieldsS rd ra rb 0), BitVec.ofNat 32 ((if dev then 512 else 0) + num))
  | .csrr q rd imm => some (mkWord 0x3C q (fieldsS rd 0 0 0), imm)
  | .csrw q ra imm => some (mkWord 0x3D q (fieldsS 0 ra 0 0), imm)
  | _ => none

/-- The scalar registers an instruction reads or writes (R233); RSTART copies all of them (R229). -/
def Instr.uses : Instr → List Nat
  | .alu _ _ rd ra rb => [rd, ra, rb]
  | .addi _ rd ra _ | .andi _ rd ra _ | .ori _ rd ra _ | .xori _ rd ra _ | .slli _ rd ra _ | .srli _ rd ra _
  | .srai _ rd ra _ | .ldw _ rd ra _ | .stw _ rd ra _ | .loop _ rd ra _ | .xalu _ _ rd ra _ => [rd, ra]
  | .cmp _ _ _ ra rb => [ra, rb]
  | .cmpi _ _ _ ra _ | .issue _ ra _ _ _ | .arrive _ ra _ _ _ _ | .csrw _ ra _ => [ra]
  | .fetch _ rd ra rb _ _ | .tcmt _ rd ra rb _ _ => [rd, ra, rb]
  | .csrr _ rd _ => [rd]
  | .rstart _ _ _ | .cut _ _ => List.range 32
  | _ => []

end Sys2Proof
end

