-- ==== Sys2Proof/Config.lean ====
section
/-! DEFINITION. What the spec leaves open: constants without a body, so that nothing can be proved of their values. -/
namespace Sys2Proof.Config

/-- A fresh free value, by the state's counter (log 4). -/
opaque freeValue : Nat → W64

/-- What a counter of cycles or of chance, or the fill of a queue inside a router or controller, reads: by its address or point and by the
state's counter (log 3). -/
opaque timedCount : Nat → Nat → W64

/-- Which of the results that R91 allows a transcendental op of R90 gives, by op code and operand bits; a fixed function
(R92) whose table the spec does not give (log 11). -/
opaque approx : Nat → W32 → Nat

/-- SHAKE256 with an output of the given number of bytes (FIPS 202): a fixed function that the spec names and does not
define (log 12). -/
opaque shake256 : Nat → List Byte → List Byte

/-- Whether an XMSS signature verifies (RFC 8391): public key bytes, message, signature (log 12). -/
opaque xmssVerify : List Byte → List Byte → List Byte → Bool

/-- The signature the attestation key makes at a leaf over a message (R497, RFC 8391); the key never leaves the block, so
its signatures are open (log 12). -/
opaque xmssSign : Nat → List Byte → List Byte

/-- The worst-case bound of R288 in cc for an image at an origin, with the timetable in force (its length and who holds each slot), the
charge of each MXE tile under R84 (rectangle index, cc, cc more where it ends a run), the addresses of its buffers' versions, which say what
controllers and links its requests use (R201, R202), and the settings of the controllers' background work and of the table bounds (R199,
R202): the spec names what the bound covers and gives no formula for the rest of the path (log 13). -/
opaque loadBound : List Byte → Nat × Nat → Nat → List (Nat × Nat) → List (Nat × Nat × Nat) → List (Nat × Nat) → List W64 → Nat

/-- The bytes that a part of the dailies has for what it captures: the spec names what R479 captures and gives these parts no layout
(log 52). -/
opaque layout {α : Type} : Nat → α → List Byte

/-- What the weight-streaming converter of R55 makes of the records that a LOAD streams, by its descriptor, modulo 3: 0 BF16, 1 FP8 E4M3, 2 FP8
E5M2. No field of the spec selects it (log 75). -/
opaque converter : List Byte → Nat

end Sys2Proof.Config
end

