-- ==== Sys2Proof/Machine/State.lean ====
section
/-! DEFINITION. The state of the block as plain data, its reset, and the reasons a step can stop. -/
namespace Sys2Proof.Machine

/-- Why the model stops with a fault. -/
inductive Fault where
  /-- Raised by a Finlen meaning whose fields the loader never admits (R209, R518): such a word reaches no core. Safe. -/
  | reservedField
deriving DecidableEq, Repr

/-- Why a command has no meaning. -/
inductive Refusal where
  /-- Raised by an arm of `exec` whose command has no meaning yet. Safe: nothing is claimed. -/
  | notModelled (mnemonic : String)
deriving DecidableEq, Repr

/-- One entry of a reel's loop stack (R216, R482). -/
structure LoopEnt where
  count : Nat
  iter : Nat
  first : Nat
  last : Nat
  idx : Nat
deriving DecidableEq, Repr

/-- Why a started reel cannot issue (R223, R228, R230, R231). `limit` is the issue number at the fence: what was sent
before it has a lower number. -/
inductive Hold where
  | free
  | bar (mu ctr : Nat)
  | fence (mask limit : Nat)
  | cut (k limit : Nat)
  | tend (limit : Nat)
deriving DecidableEq, Repr

/-- A reel of the core sequencer (R204). Bit 0 of `preds` is not used: p0 reads 1. -/
structure Reel where
  started : Bool := false
  hold : Hold := .free
  regs : Tab W64 := []
  preds : BitVec 8 := 0
  pc : Nat := 0
  loops : List LoopEnt := []
  rets : List Nat := []
deriving DecidableEq, Repr

/-- A FETCH or TCMT that awaits its counter's or ledger's answer, or copies (R224 to R226). `ctr` is the bound counter:
`64 d + i` for a die counter, `512 + 256 h + i` for a device counter. -/
structure CtrReq where
  id : Nat
  reel : Nat
  pc : Nat
  rd : Nat
  tcmt : Bool
  ctr : Nat
  reqId : Nat
  arg : Nat
  ranges : List (Nat × Nat × Nat)
  resent : Bool
  answer : Option Nat
  copying : Bool
  copied : Bool
  /-- set once a kill or the end of its reel has discarded the answer: only what the request does elsewhere, and a copy that has
  begun, still happens (R229, R238) -/
  killed : Bool
deriving DecidableEq, Repr

/-- A descriptor in an issue queue (R220): its issue number within the core, the queued copy, the effective extents of R246, whether it is a skip entry
(R247), and whether its wait on START has been joined and satisfied. -/
structure QDesc where
  id : Nat
  bytes : List Byte
  ext : List Nat
  skip : Bool
  joined : Bool
  released : Bool
deriving DecidableEq, Repr

/-- Who waits on a barrier counter (R131). -/
inductive Who where
  | reel (r : Nat)
  | desc (q : Nat)
  | mxeCheck
deriving DecidableEq, Repr

/-- A waiter of a barrier counter. -/
structure Waiter where
  who : Who
  n : Nat
deriving DecidableEq, Repr

/-- A barrier counter (R130). `rest` is what is left of the arrivals of prefetches that are consumed already (R157). -/
structure Bar where
  count : Nat := 0
  waiters : List Waiter := []
  rest : Nat := 0
deriving DecidableEq, Repr

/-- The running pass of an MXE (R72, R74, R78). `sched` is the schedule fixed at its start, the predicted-zero blocks `8 group + band`;
`pre` the entries and special states that the set was filled with, row-major; with NONE both are empty. -/
structure MxePass where
  desc : QDesc
  set : Nat
  s : Int
  repeats : Nat
  zp : Bool
  checkOk : Bool
  sched : List Nat := []
  pre : List (Int × Nat) := []
deriving DecidableEq, Repr

/-- A set that drains or waits to drain (R73): one A48 value and one special state for each cell, row-major. `tb` is the tile buffer that an
EPILOGUE drain under way has taken, which `drop` frees at its end (R97, R247). -/
structure MxeDrain where
  desc : QDesc
  set : Nat
  s : Int
  acc : List Int
  spec : List Nat
  tb : Option Nat := none
  drop : Bool := false
deriving DecidableEq, Repr

/-- The matrix engine of a core. -/
structure Mxe where
  pass : Option MxePass := none
  drains : List MxeDrain := []
  sLast : Int := 0
  lastRepeats : Nat := 0
  activeSet : Nat := 0
deriving DecidableEq, Repr

/-- A running walk of a VCE (R99): its descriptor, its stage program, the next beat, the epilogue buffer it consumes, and the
buffers it holds as scratch. -/
structure Walk where
  desc : QDesc
  prog : List Byte
  beat : Nat
  tb : Option Nat
  scratch : List Nat
deriving DecidableEq, Repr

/-- A reel of the VCE or of an address generator: its configuration, its generation, the descriptor in its shadow
slot (R155, R262), whether the markers of its descriptor with ENDGEN have come, and the circuits that have brought items and markers
of the generation. -/
structure GenReel where
  conf : Option (List Byte) := none
  gen : Bool := false
  shadow : Option QDesc := none
  marked : Bool := false
  feeds : List Nat := []
  ended : List Nat := []
deriving DecidableEq, Repr

/-- The vector engine of a core (R94 to R99). Caches: key `8192 stage + word`; tile buffers: key `8192 tb + 64 row + column`. -/
structure Vce where
  caches : Tab W32 := []
  tiles : Tab W32 := []
  tbState : Tab Nat := []
  epi : List (Option Nat) := []
  walks : List Walk := []
  reels : Tab GenReel := []
deriving DecidableEq, Repr

/-- One element that takes part in a reduction: its lane, its output, its position and its value (R112, R116). -/
structure RedElem where
  lane : Nat
  out : Nat
  pos : Nat
  v : W32
deriving DecidableEq, Repr

/-- The running reduction (R113, R264): the descriptor of the tapped walk once it is paired, the tapped beats in walk order,
and whether every input has come. -/
structure RedRun where
  desc : QDesc
  walk : Option (List Byte)
  beats : List (List RedElem)
  closed : Bool
deriving DecidableEq, Repr

/-- The reduction engine of a core; `expo` holds the largest magnitude recorded for each exposure tag, by RED or by an
MXE store (R118, R414). -/
structure Red where
  run : Option RedRun := none
  kind : Nat := 0
  expo : Tab (Option W32) := []
deriving DecidableEq, Repr

/-- A running AG program (R266): its MU, its AG, how many reads each of its threads has posted, by read the data that have returned
and are not written to BUF yet or feed its stream, how many reads have been written to BUF, and whether its reads wait for the consumer
(R158). Of a program that writes, `out` holds by position in its stream the elements that its producer has given it and that are not
written yet, `done` counts the requests that have been made, and `closed` says that its producer has ended. -/
structure AgRun where
  desc : QDesc
  mu : Nat
  ag : Nat
  sent : List Nat
  got : Tab (List Byte)
  done : Nat
  deferred : Bool
  out : Tab (List Byte) := []
  closed : Bool := false
deriving DecidableEq, Repr

/-- A transfer that runs (R268): next row and offset to request, whether every byte is in place or acknowledged, whether its
arrival on the consume barrier has come and has been taken, the two readings of a version word (R159), and whether its read
waits for the consumer (R158). -/
structure XfrRun where
  desc : QDesc
  row : Nat
  off : Nat
  moved : Bool
  arrived : Bool
  consumed : Bool
  vers1 : Option W64
  vers2 : Option W64
  deferred : Bool
deriving DecidableEq, Repr

/-- An entry of the request table (R127): the transfer or AG program it serves and the piece it moves; for a program, `row` is the
row and `off` the first element. `no` is its own issue number (R228); `ctl` the memory controller it goes to (R202); `write` says that it
carries a write of a program. -/
structure Req where
  xfr : Bool
  id : Nat
  row : Nat
  off : Nat
  len : Nat
  no : Nat
  ctl : Option Nat := none
  write : Bool := false
deriving DecidableEq, Repr

/-- A prefetch-guard entry (R156) of a transfer, or of the read `read` of an AG program; one of length 0 takes no entry and only notes
the arrival of a deferred prefetch. `seen` are the ranges read so far, which the entry watches; `moved` says that its data are in SRAM
and its arrival has been sent; `dst` is the core address of the tile of a receiver that left its multicast group (R150). `home` is the MU
of this core that keeps the entry; `bar`, `mu` and `ctr` name its consume barrier: the physical core, the MU and the counter (R243). -/
structure Guard where
  desc : QDesc
  dst : Option Nat := none
  read : Nat := 0
  seen : List (Nat × Nat) := []
  moved : Bool := false
  lo : Nat
  len : Nat
  home : Nat
  bar : Nat
  mu : Nat
  ctr : Nat
  n : Nat
  arrived : Bool
  stale : Bool
deriving DecidableEq, Repr

/-- An arrival on its way to a barrier counter (R131, R133, R223): the physical core and the issue number that sent it, the
reel and PC when the CSQ did, and the core, counter and n it goes to. -/
structure Arrival where
  src : Nat
  id : Nat
  csq : Option (Nat × Nat)
  dst : Nat
  mu : Nat
  ctr : Nat
  n : Nat
deriving DecidableEq, Repr

/-- A data item of an STU or of a circuit (R143), or an arrival that travels on the circuit (R131, R244) behind the words `after` of its
sender's MU, numbered in 64 B (R133). -/
structure Item where
  data : List Byte
  reel : Nat
  gen : Bool
  mark : Bool
  arr : Option Arrival := none
  after : List Nat := []
deriving DecidableEq, Repr

/-- A steering unit (R142 to R147): its op, the descriptor that waits for its markers, its queues, how many items the head
token still takes, and whether its present stall has been reported. -/
structure Stu where
  desc : List Byte := []
  held : Bool := false
  next : Option QDesc := none
  cq : List W32 := []
  dq : Tab (List Item) := []
  left : Nat := 0
  gen : Bool := false
  stalled : Bool := false
  episode : Bool := false
deriving DecidableEq, Repr

/-- A running multicast descriptor (R148 to R150): next tile, by receiver index the held tiles, or the next tile a detached
receiver fetches, the detached receivers, and whether DONE has been sent. -/
structure Mcast where
  desc : QDesc
  tile : Nat
  held : Tab (List Nat)
  detached : List Nat
  done : Bool
deriving DecidableEq, Repr

/-- Where a core stands in a placement (CSQ_PLACE). -/
structure Place where
  slot : Nat
  rows : Nat
  cols : Nat
  row : Nat
  col : Nat
  lcore : Nat
  index : Nat
deriving DecidableEq, Repr

/-- The core's share of a take (R231, R334): none, running, ended by TEND, or killed and not yet clear. -/
inductive Share where
  | none
  | running
  | ended
  | clearing
deriving DecidableEq, Repr

/-- Core power states of R422, in code order. -/
inductive PowerState where
  | run
  | idle
  | nap
  | off
deriving DecidableEq, Repr

/-- A physical core. `took` and `placed` say that a take has started on it and that its placement has been given to it since the last
reset of the logic, which CSQ_TAKECYC and CSQ_PLACE show (R5); `agTurn` is the thread that an AG served last (R127), by `2 mu + ag`.
`issued` numbers what it sends (R228); `cfg` holds the expert settings its take started with (R12), by
CSR address. `unitReel`
is the running reel of unit 1 VCE or 2 + 2m + a, AG a of MU m (R152). Queue keys: 0 MXE, 1 VCE, 2 RED, 4 XFR, 5 multicast, 8 + m the AGs of MU m, 16 + k STU k. Barrier keys `64 mu + ctr`. -/
structure Core where
  reels : Tab Reel := []
  running : Nat := 0
  trapped : Bool := false
  issued : Nat := 0
  cfg : Tab W64 := []
  code : List W32 := []
  ctrReqs : List CtrReq := []
  place : Option Place := none
  take : Option (Nat × Nat) := none
  share : Share := .none
  queues : Tab (List QDesc) := []
  bars : Tab Bar := []
  mxe : Mxe := {}
  vce : Vce := {}
  red : Red := {}
  ags : List AgRun := []
  agReels : Tab GenReel := []
  reqs : List Req := []
  xfrs : List XfrRun := []
  guards : List Guard := []
  stus : Tab Stu := []
  unitReel : Tab Nat := []
  mcasts : List Mcast := []
  power : PowerState := .off
  waking : Bool := false
  napping : Bool := false
  fenced : Bool := false
  took : Bool := false
  placed : Bool := false
  agTurn : Tab Nat := []
deriving DecidableEq, Repr

/-- A flit of the packet lane (R140): the physical router it is at, the router it goes to, and the arrival it carries. -/
structure Flit where
  at_ : Nat
  dst : Nat
  arrival : Arrival
deriving DecidableEq, Repr

/-- The crossing fabric. A timetable entry is keyed `64 (5 router + port) + slot` and holds `1 + 4096 program slot +
circuit`; an unlisted slot is Management, Calibration or Packet under R137 and R286. `circ` holds by `4096 program slot +
circuit` the items and arrivals that have been put on a circuit, and `sent` by `65536 (4096 program slot + circuit) + word` what each word
of the sending MU held when the circuit carried it last. `setA` and `setB` say whether the loader has filled the bank. `deadLinks` holds die and side of both ends of links out of service, and `reroute` says that one has
failed since the images were routed (R469); `cycle` is the
count of R135 at the last stop of the clocks, which only a read-out shows. -/
structure Fabric where
  bankA : Tab Nat := []
  bankB : Tab Nat := []
  activeB : Bool := false
  pending : Bool := false
  setA : Bool := false
  setB : Bool := false
  lenA : Nat := 16
  lenB : Nat := 16
  cycle : Nat := 0
  deadLinks : List (Nat × Nat) := []
  reroute : Bool := false
  arrivals : List Arrival := []
  flits : List Flit := []
  circ : Tab (List Item) := []
  sent : Tab (List Byte) := []
deriving DecidableEq, Repr

/-- An entry of a counter's idempotence window (R162). -/
structure WkcWin where
  tag : Nat
  lcore : Nat
  reqId : Nat
  value : Nat
deriving DecidableEq, Repr

/-- A work counter with its window and ledger (R160 to R163); a ledger entry is a claim with the core that made it and
the status recorded for it. -/
structure Wkc where
  value : Nat := 0
  init : Nat := 0
  bound : Option Nat := none
  window : List WkcWin := []
  ledger : List (Nat × Nat) := []
deriving DecidableEq, Repr

/-- Memory states of HBC_STATUS.STATE and LPC_STATUS.STATE, in code order. -/
inductive MemState where
  | training
  | ready
  | selfRefresh
  | failed
deriving DecidableEq, Repr

/-- A memory controller: 0-15 HBM3E stacks, 16-79 LPDDR5X packages. `uncorr` holds pseudo-channel and PWR_KC of each
uncorrectable word found (R177). `exiting`: an exit from self-refresh has begun (R424, R427). `filled` counts regions filled in order; `filledOut` those filled out of order (R180). -/
structure MemCtl where
  state : MemState := .training
  exiting : Bool := false
  uncorr : List (Nat × Nat) := []
  filling : Bool := false
  filled : Nat := 0
  filledOut : List Nat := []
  refreshes : Nat := 0
  reserved : Nat := 0
  temp : Nat := 0
deriving DecidableEq, Repr

/-- Stream states of R308, in code order. -/
inductive StreamState where
  | closed
  | idle
  | running
  | waiting
  | halted
  | closing
deriving DecidableEq, Repr

/-- A stream (R308). `haltSeq` is H of R311. `journal` is NEXT as a restored journal gives it (R326). -/
structure Stream where
  state : StreamState := .closed
  next : Nat := 0
  qp : Nat := 0
  skey : Nat := 0
  ckey : Nat := 0
  haltSeq : Nat := 0
  journal : Option Nat := none
deriving DecidableEq, Repr

/-- Logbook entry states of R322, in code order. -/
inductive EntryState where
  | free
  | accepted
  | running
  | committed
  | ended
  | rejected
  | journaled
deriving DecidableEq, Repr

/-- The commit list of R302: published indices by buffer, and the roots of the commit by run, shard and root bytes. -/
structure CommitList where
  indices : List (Nat × Nat)
  step : Nat
  roots : List (Nat × List Byte)
deriving DecidableEq, Repr

/-- A live logbook entry (R322, R302) and its latest completion (R304): `body` is the record as written; `head`, `headKc` and `headNo` its
head moment (R337) and its place in their order; `bodyAt` and `clistAt` its granules in the record store (R322); `waitReason` and `waitFrom` what it waits for and since when in the order of waits (R339); `cut`, `cutHalf` and
`cutTag` its last recorded cut (R344); `raises` its chain raises (R67); `marks` the tags marked under R415; `starting` says that it has pre-empted a take and is to start next (R347). -/
structure Entry where
  stream : Nat
  seq : Nat
  order : Nat
  cls : Nat
  state : EntryState
  status : Nat
  body : List Byte
  take : Nat := 0
  tag : Nat := 0
  note : Nat := 0
  sealedAny : Bool := false
  boundVoid : Bool := false
  clist : Option CommitList := none
  comp : List Byte := []
  head : Bool := false
  headKc : Nat := 0
  headNo : Nat := 0
  bodyAt : Nat := 0
  clistAt : Nat := 0
  waitReason : Nat := 0
  waitFrom : Nat := 0
  busyTake : Bool := false
  cut : Nat := 0
  cutHalf : Nat := 0
  cutTag : Nat := 0
  raises : Tab Nat := []
  retakeCut : Bool := true
  marks : List Nat := []
  starting : Bool := false
deriving DecidableEq, Repr

/-- What a take latched of a tag: A of the last commit that formed a scale, with its MARGIN, or +0; and FIXED_EXP, which
serves under FIXED and while A is +0 (R416, R417). -/
structure ScaleSrc where
  a : W32 := 0
  margin : Nat := 0
  fixedExp : Int := 0
deriving DecidableEq, Repr

/-- A journal in module flash (R325): whether its header CRC holds, which is the newer, its stream table (state and NEXT of each stream),
and its records, as entries whose body is only the fields that the record keeps. -/
structure Journal where
  valid : Bool := false
  order : Nat := 0
  streams : List (StreamState × Nat) := []
  entries : List Entry := []
deriving DecidableEq, Repr

/-- The PEER and KEY that a landing number of a take is bound to (R364): the logical core that opened it, the remote address of its
first write, and whether a seal of it has been acknowledged. -/
structure Bound where
  landing : Nat
  peer : Nat
  key : Nat
  lcore : Nat := 0xFF
  addr : Nat := 0
  done : Bool := false
deriving DecidableEq, Repr

/-- The intake's view of a running take (R313, R344). `final` is a Final status that is pending (R159, R317 step 2); `roots`
are the shard roots of its STEP command's run that it latched, by shard; `latch` holds every root of every adopted run as it latched them, by
address (R22); `run` is the RUN_ID of its STEP command; `bound` its landing numbers. `voted` says that a vote landing has been opened
(R338); `expo` holds what cores that have left it since its end had recorded for exposure tags (R414). -/
structure Take where
  bound : List Bound := []
  stream : Nat
  seq : Nat
  slot : Nat
  tag : Nat
  no : Nat
  epoch : Nat := 0
  self : Nat := 0
  run : Nat := 0
  roots : List (Nat × List Byte) := []
  scales : Tab ScaleSrc := []
  ended : Bool := false
  killed : Bool := false
  endKc : Nat := 0
  final : Option (Nat × Nat × Nat × Nat) := none
  voted : Bool := false
  latch : List (Nat × List Byte) := []
  expo : Tab (Option W32) := []
deriving DecidableEq, Repr

/-- The intake and the logbook (10). A slot is numbered `256 stream + slot`: `touched` slots have been written and not yet
examined (R293), `waitingRec` slots hold a record that waits, `roomWait` those that wait for room (R298). `copyA` and `copyB`: package and whether in service; `rebuild`: the package being
rebuilt. Journal areas: 0 erased and ready, 1 holds a journal, 2 being erased, 3 failed; `turn` is the one whose turn is next. `ran`: the device has
been READY before (R327). -/
structure Intake where
  streams : Tab Stream := []
  windows : Tab (List Byte) := []
  touched : List Nat := []
  waitingRec : List Nat := []
  roomWait : List Nat := []
  log : List Entry := []
  takes : List Take := []
  lastTag : Nat := 0
  orders : Nat := 0
  reserved : Nat := 0
  copyA : Nat := 0
  copyAok : Bool := true
  copyB : Nat := 32
  copyBok : Bool := true
  rebuild : Option Nat := none
  areas : Tab Nat := []
  journals : Tab Journal := []
  turn : Nat := 0
  ran : Bool := false
deriving DecidableEq, Repr

/-- A placed buffer (R275, R519): its versions' addresses and its published index. -/
structure Buf where
  id : Nat
  kind : Nat
  tier : Nat
  size : Nat
  addr0 : Nat
  addr1 : Nat
  pub : Nat
deriving DecidableEq, Repr

/-- Program slot states of CIN_PROG.STATE, in code order. -/
inductive SlotState where
  | empty
  | loading
  | placed
  | running
  | moving
  | waiting
deriving DecidableEq, Repr

/-- A program slot (R281): generation, image, placement, buffers, bound counters and the cut area (R342). -/
structure Slot where
  gen : Nat := 0
  state : SlotState := .empty
  img : List Byte := []
  row : Nat := 0
  col : Nat := 0
  bufs : List Buf := []
  wkcs : List (Nat × Nat × Nat) := []
  cutBase : Nat := 0
  bound : Nat := 0
  plat : Nat := 0
  lastTake : Nat := 0
deriving DecidableEq, Repr

/-- What waits at the loader (R283, R284), oldest first: the LOAD of a command with the image it has read and the slot it keeps
(256 for none), or a Moving slot. -/
inductive LoadWait where
  | load (stream seq slot : Nat) (img : List Byte)
  | moving (slot : Nat)
deriving DecidableEq, Repr

/-- The loader: `waiting` in the order in which each began to wait, `due` what of it the last unload lets it try again (R283), `forLen` what
waits for a timetable length that can change only while no take runs (R287). -/
structure Loader where
  slots : Tab Slot := []
  waiting : List LoadWait := []
  due : List LoadWait := []
  forLen : List LoadWait := []
deriving DecidableEq, Repr

/-- Queue-pair states of R355, in code order. -/
inductive QpState where
  | reset
  | ready
  | migrating
  | error
deriving DecidableEq, Repr

/-- What a sent message is, so that its acknowledgement takes effect; `no` is the issue number of a remote write (R228). -/
inductive MsgKind where
  | completion (stream seq : Nat)
  | hostWrite
  | rwrite (core id no : Nat)
  | control (stream seq landing kind : Nat)
  | tallyMsg (run : Nat)
  | readReq (core id row off : Nat)
  | readResp
  | ack
  | nak (code : Nat)
  | cnp
deriving DecidableEq, Repr

/-- A message sent on a queue pair (R351) and not yet acknowledged, or, for answers, the last ones sent. -/
structure Msg where
  kind : MsgKind
  psn : Nat
  key : Nat
  va : Nat
  data : List Byte
deriving DecidableEq, Repr

/-- A queue pair (R355, R357, R366). `sendq` holds the unacknowledged messages, oldest first; `held` messages wait for
room or for Ready; `answers` are the answers sent last (acknowledgements, NAKs, read responses, CNPs), newest first. `rxKey`, `rxVa`, `rxLeft`
(bytes to come) and `rxSlots` (window slots written) belong to the write message that is coming in (key 0: none), `rxData` to the read
answer, `heldAns` are answers that wait for a pause to end (R367), `nakOut` says that a sequence error has been
reported and the expected packet has not come yet, and `again` that what is unacknowledged waits for a pause to end before it is sent
again (R367). -/
structure Qp where
  state : QpState := .reset
  conf : List Byte := []
  port : Nat := 0
  other : Nat := 255
  devId : Nat := 0
  sndPsn : Nat := 0
  rcvPsn : Nat := 0
  sendq : List Msg := []
  held : List Msg := []
  answers : List Msg := []
  tries : Nat := 0
  pathsTried : Nat := 0
  rate : Rat := 0
  target : Rat := 0
  alpha : Rat := 1
  stage : Nat := 0
  rxKey : Nat := 0
  rxVa : Nat := 0
  rxLeft : Nat := 0
  rxSlots : List Nat := []
  rxData : List Byte := []
  heldAns : List Msg := []
  nakOut : Bool := false
  again : Bool := false
  lastCnpKc : Option Nat := none
deriving DecidableEq, Repr

/-- A memory-key table entry (R359); KEY 0 is an empty entry. -/
structure KeyEnt where
  key : Nat := 0
  kind : Nat := 0
  rights : Nat := 0
  scope : Nat := 0
  base : Nat := 0
  len : Nat := 0
  half : Nat := 0
deriving DecidableEq, Repr

/-- A landing open at the sender (R364); `engine` marks a message of the collective engine (R390). -/
structure Landing where
  stream : Nat
  seq : Nat
  landing : Nat
  peer : Nat
  key : Nat
  tag : Nat
  epoch : Nat
  sealing : Bool
  engine : Bool
deriving DecidableEq, Repr

/-- A MACsec SA of a peer port (R368). -/
structure Sa where
  tx : Bool
  an : Nat
  ssci : Nat
  sci : Nat
  pn : Nat
  salt : List Byte
  sak : List Byte
deriving DecidableEq, Repr

/-- Port states of NET_PORT.STATE, in code order. -/
inductive PortState where
  | down
  | training
  | up
  | disabled
deriving DecidableEq, Repr

/-- An Ethernet port (R349, R367, R368); `reinit` is a re-initialisation that waits for moves to end (R483). -/
structure Port where
  state : PortState := .down
  enable : Bool := true
  sas : List Sa := []
  txAn : Option Nat := none
  paused : Bool := false
  reinit : Bool := false
deriving DecidableEq, Repr

/-- A manifest epoch (R371). -/
structure EpochSt where
  num : Nat
  self : Nat
  fromStep : Nat
  members : List Nat
deriving DecidableEq, Repr

/-- The network engine; `pastStep` is one more than the largest STEP number that has committed, 0 when none has (R371). -/
structure Net where
  pastStep : Nat := 0
  qps : Tab Qp := []
  keys : Tab KeyEnt := []
  landings : List Landing := []
  ports : Tab Port := []
  current : Option EpochSt := none
  staged : Option EpochSt := none
deriving DecidableEq, Repr

/-- An adopted run (R373, R374): its table, its last committed STEP, the next sign-ring generation, its UPDATE commits, newest
first, and by shard the last step whose slow-tier update has finished (R25, R400). -/
structure Run where
  runtab : Nat
  table : List Byte
  lastStep : Nat := 0
  nextGen : Nat := 0
  commits : List Nat := []
  done : Tab Nat := []
deriving DecidableEq, Repr

/-- A landing in a TALLY zone (R365, R385): its sender's peer entry and device, its identity, the address of the half it
writes, its writes so far, whether its votes are in the tallies, and whether it is sealed, counted or late (R387, R388). `run`, `step` and
`weight` are the RUN_ID, the step and the WEIGHT under which its votes were added. -/
structure Contrib where
  peer : Nat
  dev : Nat
  stream : Nat
  seq : Nat
  landing : Nat
  half : Nat
  writes : List (Nat × List Byte)
  added : Bool
  closed : Bool
  counted : Bool
  late : Bool
  run : Nat := 0
  step : Nat := 0
  weight : Nat := 0
deriving DecidableEq, Repr

/-- A late contribution that waits to be carried (R389): its RUN_ID, sender, step, WEIGHT and writes. -/
structure Carry where
  run : Nat
  sender : Nat
  step : Nat
  weight : Nat
  writes : List (Nat × List Byte)
deriving DecidableEq, Repr

/-- A notice of a dropped late contribution (R390). -/
structure Notice where
  run : Nat
  dev : Nat
  step : Nat
deriving DecidableEq, Repr

/-- The collective engine's state of one step of one run (R388 to R394). `run` is the RUN_ID; `members` holds `4096 device +
peer entry` of the others, ascending; `sect` is the step section from offset 192; `verdict` is 1 UPDATE, 2 SKIP. `windows`
keeps, under FULLGRAD, the counted contributions; `tallies` what a microprogram sees of the device's own tallies. -/
structure StepSt where
  run : Nat
  step : Nat
  epoch : Nat := 0
  self : Nat := 0
  members : List Nat := []
  sect : List Byte := []
  frozen : List Byte := []
  uprog : List Byte := []
  isOpen : Bool := false
  closed : Bool := false
  counted : List Nat := []
  lateFrom : List Nat := []
  windows : List (Nat × List Byte) := []
  carried : List Nat := []
  flag : Bool := false
  tallies : List W32 := []
  signs : List Byte := []
  reports : List (Nat × Bool) := []
  verdict : Nat := 0
  signsFrom : List Nat := []
  gen : Nat := 0
  timedOut : Bool := false
  stream : Nat := 0
  seq : Nat := 0
  sentVerdict : Bool := false
  sentSigns : Bool := false
deriving DecidableEq, Repr

/-- A tally message in hand, sealed or delivered within the device (R390). -/
structure InMsg where
  sender : Nat
  window : List Byte
deriving DecidableEq, Repr

/-- A tally message to another member that waits for its key (R382, R390). -/
structure OutMsg where
  run : Nat
  peer : Nat
  key : Nat
  stream : Nat
  seq : Nat
  landing : Nat
  epoch : Nat
  window : List Byte
deriving DecidableEq, Repr

/-- The collective engines. -/
structure Cen where
  runs : List Run := []
  steps : List StepSt := []
  contribs : List Contrib := []
  carries : List Carry := []
  notices : List Notice := []
  inbox : List InMsg := []
  outbox : List OutMsg := []
deriving DecidableEq, Repr

/-- States of an update (R401): waiting for room, running, written and pending. -/
inductive UpdState where
  | waiting
  | running
  | pending
  | dropped
deriving DecidableEq, Repr

/-- One shard's update for one step (R400, R401), `dropped` when its take was killed and its command goes on (R191): `run` is the RUN_ID; `base` and `root` are the root it starts from and the
root it forms; `fresh` lists the regions it has taken and `reserve` the room it reserved, by controller; `units` are the update units at the
controllers of its slice table and slices, which work on it (R399). -/
structure Update where
  run : Nat
  shard : Nat
  step : Nat
  stream : Nat
  seq : Nat
  state : UpdState
  base : List Byte
  root : List Byte
  fresh : List Nat
  reserve : Tab Nat
  units : List Nat := []
deriving DecidableEq, Repr

/-- The eighty update units: the updates under way or pending, the step each unit last worked on, and superseded regions that
wait until no root in use names them (R26, R191). -/
structure Upu where
  updates : List Update := []
  lastStep : Tab Nat := []
  old : List Nat := []
deriving DecidableEq, Repr

/-- An eye of a calibration group (R405): its setting, and its margin as measured last. -/
structure Eye where
  setting : Int := 0
  margin : Option Nat := none
deriving DecidableEq, Repr

/-- A calibration group: its read and write eyes, of which a command/address group has the write eye alone, and the steps of a running
retraining (R405 to R408). -/
structure CalGroup where
  read : Eye := {}
  write : Eye := {}
  retrain : Option Nat := none
deriving DecidableEq, Repr

/-- A calibration snapshot in module flash (R412): whether its CRC-32C is valid, the module serial and the ten die records that it carries,
and the settings that are not 0, by `2 (512 interface + group) + eye`, eye 1 the write eye. -/
structure Snap where
  valid : Bool := false
  identity : List Byte := []
  settings : List (Nat × Int) := []
deriving DecidableEq, Repr

/-- Calibration: groups by `512 * interface + group` (interface 0-15 stacks, 16-79 packages), lanes' low probes, tag
histories (newest first: value and mark), and the MARGIN that each tag's AUTO scale was formed with (R417). `snapshot` is the newest
snapshot of settings in module flash, in area `snapArea`, and `snapOld` what the other area holds (R412). At the first cold start the newest
is the one that final test wrote (R451): its settings are all 0, which is a DESIGN CHOICE (log 62), and `snapFactory` says that it is that
one, which carries the module's own identity. -/
structure Cal where
  groups : Tab CalGroup := []
  laneLow : Tab Nat := []
  hist : Tab (List (W32 × Bool)) := []
  margin : Tab Nat := []
  changed : Bool := false
  lastSnapKc : Nat := 0
  snapshot : Snap := { valid := true }
  snapFactory : Bool := true
  snapOld : Snap := {}
  snapArea : Nat := 0
deriving DecidableEq, Repr

/-- The power manager: issue levels by `3 die + class` and its runs of readings under and over the cap (R429, R430). -/
structure Pwr where
  levels : Tab Nat := []
  under : Nat := 0
  unmet : Nat := 0
  outOfRange : Nat := 0
deriving DecidableEq, Repr

/-- Physical core states of DRL_PCORE.STATE, in code order. -/
inductive PcState where
  | mapped
  | spare
  | fenced
  | testing
  | retired
deriving DecidableEq, Repr

/-- Derler's record of a physical core (DRL_PCORE). -/
structure PCore where
  state : PcState
  lcore : Nat
  fences : Nat
deriving DecidableEq, Repr

/-- Freeze states of DRL_FREEZE.STATE, in code order. -/
inductive FrzState where
  | running
  | stopping
  | frozen
  | reading
  | thawing
  | resetting
  | halted
deriving DecidableEq, Repr

/-- Boot phases of DRL_BOOT.PHASE, from 0x01. -/
inductive Phase where
  | rom
  | firmware
  | clocks
  | links
  | memory
  | logbook
  | ready
  | warm
  | flushing
  | flushed
  | bootFail
deriving DecidableEq, Repr

/-- Derler, the freeze logic, the pins and SMBus (16, 17). `started` says that a cold or warm reset has gone past its start.
`frzPin` and `frzHold` hold a freeze until FREEZE_N rises and until HOLD_US has passed, `frzCmd` is the ACTION of the FREEZE
command behind it, `frzRead` says that its read-out has ended, `frzBad` the MUs (`4 core + mu`) in which it found an uncorrectable
word. `freezeSpent` is a FREEZE_N still low after a freeze that ended in a reset (R476). `deadHub` is a failed hub (R470). `frzNaps` are the
napped cores that a read-out has woken (R432). `warmDue` says that a cause of the device's own came before READY and acts then (R467).
`smbPec` is the packet error code of the last READ (R444). -/
structure Drl where
  phase : Phase := .rom
  started : Bool := false
  rails : Bool := true
  frz : FrzState := .running
  frzCause : Nat := 0
  frzScope : Nat := 0
  frzPin : Bool := false
  frzCmd : Nat := 0
  frzHold : Bool := false
  frzRead : Bool := false
  frzBad : List Nat := []
  frzStopKc : Nat := 0
  freezeSpent : Bool := false
  deadHub : Option Nat := none
  warmCause : Nat := 0
  warmReason : Nat := 3
  bankOk : Bool := true
  standby : Bool := false
  pwrFailN : Bool := true
  coldResetN : Bool := true
  warmResetN : Bool := true
  freezeN : Bool := true
  thermTripN : Bool := true
  smbPtr : Nat := 0
  smbOut : List Byte := []
  smbPec : Nat := 0
  frzNaps : List Nat := []
  warmDue : Bool := false
  pcores : List PCore := []
  halted : Bool := false
deriving DecidableEq, Repr

/-- The security block (R484, R496). -/
structure Sec where
  key0Revoked : Bool := false
  svn : Nat := 0
  pkhash0 : List Byte := []
  pkhash1 : List Byte := []
  slot : Nat := 0
  leaf : Nat := 0
  blockEnd : Nat := 0
  exhausted : Bool := false
deriving DecidableEq, Repr

/-- Observability: `pendLost` counts samples dropped since the last written record and `staged` bounds the records that a die's staging
buffer still holds (R513); `pos` is the ring position of the next record. -/
structure Obs where
  pendLost : Tab Nat := []
  staged : Tab Nat := []
  pos : Tab Nat := []
deriving DecidableEq, Repr

/-- The block. `free` is the model's own counter for free values, `csrEnd` the status that the latest CSR_WRITE completed with (R7: 0, or
0x11 ADDR_UNMAPPED). -/
structure State where
  pending : List Instr := []
  free : Nat := 0
  kc : Nat := 0
  mem : List Host.Cell := []
  sram : List Host.Cell := []
  flash : List Host.Cell := []
  poison : List Nat := []
  csr : Tab W64 := []
  regions : Tab Nat := []
  cores : Tab Core := []
  fab : Fabric := {}
  wkc : Tab Wkc := []
  memctl : Tab MemCtl := []
  intake : Intake := {}
  loader : Loader := {}
  net : Net := {}
  cen : Cen := {}
  upu : Upu := {}
  cal : Cal := {}
  pwr : Pwr := {}
  drl : Drl := {}
  sec : Sec := {}
  obs : Obs := {}
  csrEnd : Nat := 0
deriving DecidableEq, Repr

/-- The manufactured mapping of R14: physical core `26 d + p` fills column p of row d for p below 24; two are spares.
Which two is per module: DESIGN CHOICE, cores 24 and 25 (log 6). -/
def resetPcores : List PCore :=
  (List.range 208).map fun i =>
    if i % 26 < 24 then { state := .mapped, lcore := 24 * (i / 26) + i % 26, fences := 0 }
    else { state := .spare, lcore := 255, fences := 0 }

/-- The machine right after power-up, before time 0 of a cold start (R449): the keeper domain is alive, nothing else has
happened. -/
def State.reset : State := { drl := { pcores := resetPcores } }

end Sys2Proof.Machine
end

