-- ==== Sys2Proof/Machine/Ops.lean ====
section
/-! DEFINITION. The named operations: sparse tables, byte fields, memory, addresses and access rules (R2, R3, R168 to
R173, R188), and the checks that every meaning shares. -/
namespace Sys2Proof.Machine

open Sys2Proof

-- Sparse tables

/-- The value at a key, or the default. -/
def tget {α : Type} (d : α) : Tab α → Nat → α
  | [], _ => d
  | (k', v) :: t, k => if k = k' then v else tget d t k

/-- Insert or replace in rising order of key. -/
def tput {α : Type} (k : Nat) (v : α) : Tab α → Tab α
  | [] => [(k, v)]
  | (k', v') :: t =>
    if k < k' then (k, v) :: (k', v') :: t
    else if k = k' then (k, v) :: t
    else (k', v') :: tput k v t

/-- Remove a key. -/
def tdel {α : Type} (k : Nat) (t : Tab α) : Tab α := t.filter fun e => e.1 ≠ k

/-- Write a key, keeping the canonical form: a default value is not listed. -/
def tset {α : Type} [DecidableEq α] (d : α) (t : Tab α) (k : Nat) (v : α) : Tab α :=
  if v = d then tdel k t else tput k v t

/-- Canonical form: keys strictly rising and no default listed. -/
def tabWf {α : Type} [DecidableEq α] (d : α) (t : Tab α) : Prop :=
  t.Pairwise (fun a b => a.1 < b.1) ∧ ∀ e ∈ t, e.2 ≠ d

/-- Change the list entries that satisfy a test. -/
def updWhere {α : Type} (p : α → Bool) (f : α → α) (l : List α) : List α :=
  l.map fun x => if p x then f x else x

/-- Change the first list entry that satisfies a test. -/
def updFirst {α : Type} (p : α → Bool) (f : α → α) : List α → List α
  | [] => []
  | x :: t => if p x then f x :: t else x :: updFirst p f t

/-- Remove the first list entry that satisfies a test. -/
def delFirst {α : Type} (p : α → Bool) : List α → List α
  | [] => []
  | x :: t => if p x then t else x :: delFirst p t

/-- Replace the entry at an index. -/
def setIdx {α : Type} (i : Nat) (v : α) (l : List α) : List α := l.set i v

-- Bytes and fields (R2, R3)

/-- The little-endian value of bytes (R3). -/
def leNat : List Byte → Nat
  | [] => 0
  | b :: t => b.toNat + 256 * leNat t

/-- The `n` little-endian bytes of a value. -/
def leBytes : Nat → Nat → List Byte
  | 0, _ => []
  | n + 1, v => BitVec.ofNat 8 v :: leBytes n (v / 256)

/-- `n` zero bytes. -/
def zeros (n : Nat) : List Byte := List.replicate n 0

/-- The `len` bytes of a block from an offset; bytes beyond its end read as zero. -/
def slice (b : List Byte) (off len : Nat) : List Byte :=
  let s := (b.drop off).take len
  s ++ zeros (len - s.length)

/-- A little-endian field of a block. -/
def fld (b : List Byte) (off len : Nat) : Nat := leNat (slice b off len)

/-- Bits `hi:lo` of a number (R2). -/
def bits (v hi lo : Nat) : Nat := v / 2 ^ lo % 2 ^ (hi + 1 - lo)

/-- Bit `i` of a number. -/
def bit (v i : Nat) : Bool := v / 2 ^ i % 2 = 1

/-- Bits `hi:lo` of a word. -/
def wbits (w : W64) (hi lo : Nat) : Nat := bits w.toNat hi lo

/-- A word with bits `hi:lo` replaced. -/
def wput (w : W64) (hi lo v : Nat) : W64 :=
  let m := (2 ^ (hi + 1 - lo) - 1) * 2 ^ lo
  (w &&& ~~~(BitVec.ofNat 64 m)) ||| BitVec.ofNat 64 (v % 2 ^ (hi + 1 - lo) * 2 ^ lo)

/-- The two's-complement value of an `n`-bit number. -/
def signed (n v : Nat) : Int := if v % 2 ^ n < 2 ^ (n - 1) then (v % 2 ^ n : Nat) else (v % 2 ^ n : Nat) - (2 ^ n : Nat)

/-- Write bytes into a block at an offset. -/
def putBytes (b : List Byte) (off : Nat) (d : List Byte) : List Byte :=
  slice b 0 off ++ d ++ b.drop (off + d.length)

/-- Whether every byte of a range of a block is zero. -/
def zeroAt (b : List Byte) (off len : Nat) : Bool := (slice b off len).all (· = 0)

/-- One step of CRC-32C over a bit (Castagnoli polynomial 0x1EDC_6F41, reflected). PRESUMED: reflected, with initial and
final inversion, as the standard names it (log 9). -/
def crcBit (c : W32) : W32 := if c.getLsbD 0 then (c >>> 1) ^^^ 0x82F63B78 else c >>> 1

/-- One byte of CRC-32C. -/
def crcByte (c : W32) (b : Byte) : W32 :=
  let c := c ^^^ b.setWidth 32
  crcBit (crcBit (crcBit (crcBit (crcBit (crcBit (crcBit (crcBit c)))))))

/-- CRC-32C of a byte string. -/
def crc32c (b : List Byte) : Nat := (~~~(b.foldl crcByte 0xFFFFFFFF)).toNat

/-- Whether the four bytes at `off` are the CRC-32C of the bytes below them. -/
def crcOk (b : List Byte) (off : Nat) : Bool := fld b off 4 = crc32c (slice b 0 off)

/-- A block with the CRC-32C of the bytes below `off` written at `off`. -/
def withCrc (b : List Byte) (off : Nat) : List Byte := slice b 0 off ++ leBytes 4 (crc32c (slice b 0 off)) ++ b.drop (off + 4)

/-- `ceil (a / b)`. -/
def cdiv (a b : Nat) : Nat := (a + b - 1) / b

-- The address map (R168)

/-- What a device address lies in. -/
inductive Where where
  | csr
  | window (stream off : Nat)
  | sram (lcore off : Nat)
  | hbm (stack off : Nat)
  | lpddr (pkg off : Nat)
  | reserved
deriving DecidableEq, Repr

/-- R168's decode of one byte address. -/
def decodeAddr (a : Nat) : Where :=
  if a < 0x10000000 then .csr
  else if a < 0x20000000 then .window ((a - 0x10000000) / 0x100000) ((a - 0x10000000) % 0x100000)
  else if a < 0x100000000 then .reserved
  else if a < 0x100000000 + 192 * 0x1000000 then .sram ((a - 0x100000000) / 0x1000000) ((a - 0x100000000) % 0x1000000)
  else if a < 0x10000000000 then .reserved
  else if a < 0x30000000000 then
    if (a - 0x10000000000) % 0x2000000000 < 0x1400000000 then
      .hbm ((a - 0x10000000000) / 0x2000000000) ((a - 0x10000000000) % 0x2000000000)
    else .reserved
  else if a < 0x80000000000 then .reserved
  else if a < 0x100000000000 then .lpddr ((a - 0x80000000000) / 0x2000000000) ((a - 0x80000000000) % 0x2000000000)
  else .reserved

/-- The base address of a stack or package by controller number (0-15, 16-79). -/
def ctlBase (c : Nat) : Nat := if c < 16 then 0x10000000000 + c * 0x2000000000 else 0x80000000000 + (c - 16) * 0x2000000000

/-- The bytes a controller owns. -/
def ctlSize (c : Nat) : Nat := if c < 16 then 0x1400000000 else 0x2000000000

/-- The controller of a device address in HBM3E or LPDDR5X. -/
def ctlOf (a : Nat) : Option Nat :=
  match decodeAddr a with
  | .hbm s _ => some s
  | .lpddr k _ => some (16 + k)
  | _ => none

/-- The logical core number of row r, column c (R14). -/
def lcoreOf (row col : Nat) : Nat := 24 * row + col

/-- Derler's record of a physical core. -/
def pcoreOf (s : State) (i : Nat) : PCore := s.drl.pcores.getD i { state := .retired, lcore := 255, fences := 0 }

/-- The physical core that fills a logical position, if any (R15, R170). -/
def physOf (s : State) (l : Nat) : Option Nat :=
  ((List.range 26).map (26 * (l / 24) + ·)).find? fun i => (pcoreOf s i).state = .mapped ∧ (pcoreOf s i).lcore = l

/-- Whether a byte address is mapped (R168): the window of an unavailable logical position is reserved. -/
def mapped (s : State) (a : Nat) : Bool :=
  match decodeAddr a with
  | .reserved => false
  | .sram l _ => (physOf s l).isSome
  | _ => true

/-- Whether a range lies wholly in one piece of the address map; two bytes suffice, since pieces are intervals. -/
def sameUnit (a b : Nat) : Bool :=
  match decodeAddr a, decodeAddr b with
  | .csr, .csr => true
  | .window i _, .window j _ => i = j
  | .sram i _, .sram j _ => i = j
  | .hbm i _, .hbm j _ => i = j
  | .lpddr i _, .lpddr j _ => i = j
  | _, _ => false

/-- Whether every byte of a range is mapped (R169). Pieces are at least 1 MiB long, so testing both ends and one byte
per MiB suffices. -/
def rangeMapped (s : State) (a len : Nat) : Bool :=
  mapped s a && mapped s (a + len - 1) && (List.range (len / 0x100000)).all fun k => mapped s (a + k * 0x100000)

-- Memory as canonical lists of cells

/-- One byte; an unlisted address reads as zero (R180; log 5). -/
def memRead (m : List Host.Cell) (a : Nat) : Byte := tget 0 m a

/-- Write one byte. -/
def memWrite (m : List Host.Cell) (a : Nat) (b : Byte) : List Host.Cell := tset 0 m a b

/-- The canonical form of a memory. -/
abbrev memWf (m : List Host.Cell) : Prop := tabWf (0 : Byte) m

/-- `n` bytes from an address. -/
def memReads (m : List Host.Cell) (a : Nat) : Nat → List Byte
  | 0 => []
  | n + 1 => memRead m a :: memReads m (a + 1) n

/-- Write bytes from an address upward. -/
def memWrites (m : List Host.Cell) (a : Nat) : List Byte → List Host.Cell
  | [] => m
  | b :: t => memWrites (memWrite m a b) (a + 1) t

/-- Drop every listed byte of a range, which then reads as zero. -/
def memClear (m : List Host.Cell) (a len : Nat) : List Host.Cell := m.filter fun e => ¬(a ≤ e.1 ∧ e.1 < a + len)

/-- One byte of module flash; unlisted is 0xFF, erased (DEDUCED from R496: programming turns bits to 0; log 5). -/
def flashRead (s : State) (a : Nat) : Byte := tget 0xFF s.flash a

/-- Bytes of module flash. -/
def flashReads (s : State) (a n : Nat) : List Byte := (List.range n).map fun i => flashRead s (a + i)

/-- Program bytes of module flash. -/
def flashProg (s : State) (a : Nat) (d : List Byte) : State :=
  { s with flash := (d.zipIdx).foldl (fun f e => tset 0xFF f (a + e.2) e.1) s.flash }

/-- Erase a range of module flash. -/
def flashErase (s : State) (a len : Nat) : State :=
  { s with flash := s.flash.filter fun e => ¬(a ≤ e.1 ∧ e.1 < a + len) }

/-- Key of a physical core's SRAM byte. -/
def sramKey (phys off : Nat) : Nat := phys * 0x1000000 + off

/-- Bytes of a physical core's SRAM (R122); beyond its 16 MiB there is nothing, which reads as zero (log 19). -/
def sramReads (s : State) (phys off n : Nat) : List Byte :=
  let m := min n (0x1000000 - off)
  memReads s.sram (sramKey phys off) m ++ zeros (n - m)

/-- Write bytes of a physical core's SRAM; beyond its 16 MiB nothing is written (log 19). -/
def sramWrites (s : State) (phys off : Nat) (d : List Byte) : State :=
  { s with sram := memWrites s.sram (sramKey phys off) (d.take (0x1000000 - off)) }

/-- The sparse memory key of a device address: `none` outside SRAM, HBM3E and LPDDR5X. The flag is set for SRAM. -/
def locate (s : State) (a : Nat) : Option (Bool × Nat) :=
  match decodeAddr a with
  | .sram l off => (physOf s l).map fun p => (true, sramKey p off)
  | .hbm _ _ => some (false, a)
  | .lpddr _ _ => some (false, a)
  | _ => none

/-- Read one byte at a device address, below every access rule. -/
def devByte (s : State) (a : Nat) : Byte :=
  match locate s a with
  | some (true, k) => memRead s.sram k
  | some (false, k) => memRead s.mem k
  | none => 0

/-- Read bytes at a device address, below every access rule. -/
def devReads (s : State) (a : Nat) : Nat → List Byte
  | 0 => []
  | n + 1 => devByte s a :: devReads s (a + 1) n

/-- Write one byte at a device address, below every access rule. -/
def devPut (s : State) (a : Nat) (b : Byte) : State :=
  match locate s a with
  | some (true, k) => { s with sram := memWrite s.sram k b }
  | some (false, k) => { s with mem := memWrite s.mem k b }
  | none => s

/-- Write bytes at a device address, below every access rule. -/
def devWrites (s : State) (a : Nat) : List Byte → State
  | [] => s
  | b :: t => devWrites (devPut s a b) (a + 1) t

-- Region states (R188, R189)

/-- Whether an offset of a package lies in the device region (R181). -/
def deviceRegion (pkg off : Nat) : Bool := (pkg = 0 ∨ pkg = 1 ∨ pkg = 32 ∨ pkg = 33) ∧ off < 0x4000000

/-- The state of a 64 KiB region after a cold start (R189, R478): 0 Open, 1 Pool, 2 Held, 3 Device. -/
def regionDefault (r : Nat) : Nat :=
  match decodeAddr (r * 0x10000) with
  | .lpddr k off =>
    if deviceRegion k off then 3
    else if 0x1F00000000 ≤ off then 1
    else if k = 63 ∧ 0x1E00000000 ≤ off then 2
    else 0
  | _ => 0

/-- The state of region `r` (address div 64 KiB): an unlisted region is in its default state. -/
def regionState (s : State) (r : Nat) : Nat := tget (regionDefault r) s.regions r

/-- Set the state of one region. -/
def setRegion (s : State) (r v : Nat) : State := { s with regions := tset (regionDefault r) s.regions r v }

/-- Set the state of several regions. -/
def setRegions (s : State) (rs : List Nat) (v : Nat) : State := rs.foldl (fun s r => setRegion s r v) s

/-- The regions of a range of bytes. -/
def regionsOf (a len : Nat) : List Nat :=
  if len = 0 then [] else (List.range ((a + len - 1) / 0x10000 - a / 0x10000 + 1)).map (a / 0x10000 + ·)

/-- Whether a range lies in HBM3E or LPDDR5X, unit by unit mapped. -/
def inDram (a len : Nat) : Bool := (ctlOf a).isSome && sameUnit a (a + len - 1)

/-- Whether every region of a range is in one state. -/
def regionsAre (s : State) (a len v : Nat) : Bool := inDram a len && (regionsOf a len).all fun r => regionState s r = v

/-- The memory controller of a number. -/
def ctl (s : State) (c : Nat) : MemCtl := tget {} s.memctl c

/-- Replace a memory controller. -/
def setCtl (s : State) (c : Nat) (m : MemCtl) : State := { s with memctl := tset {} s.memctl c m }

/-- A memory whose exit from self-refresh has ended (R427). -/
def readyCtl (s : State) (k : Nat) : State :=
  if (ctl s k).state = .selfRefresh then setCtl s k { ctl s k with state := .ready, exiting := false } else s

/-- An access that arrives in self-refresh waits for the exit (R427): in the model the exit and the access are one step. -/
def wakeAt (s : State) (a : Nat) : State := match ctlOf a with | some k => readyCtl s k | none => s

/-- Outcomes of an access (R169, R176, R177, R188). -/
inductive Access where
  | done
  | unmapped
  | keyDenied
  | dataLoss
deriving DecidableEq, Repr

/-- The order in which an LPC's fill reaches a region, and whether the region still holds no filled data (R180). -/
def unfilled (s : State) (a : Nat) : Bool :=
  match decodeAddr a with
  | .lpddr k off =>
    let m := ctl s (16 + k)
    m.filling && decide (m.filled ≤ off / 0x10000) && decide (off / 0x10000 ∉ m.filledOut)
  | _ => false

/-- Whether a byte range touches a poisoned 32 B word (R176). An access to a region not yet filled does not reach the package's old word
(R180). -/
def touchesPoison (s : State) (a len : Nat) : Bool := s.poison.any fun w => decide (a < w + 32 ∧ w < a + len) && !unfilled s w

/-- Whether any byte of a range lies in a failed stack or package (R177). -/
def inFailed (s : State) (a len : Nat) : Bool :=
  (match ctlOf a with | some c => (ctl s c).state = .failed | none => false) ||
  (match ctlOf (a + len - 1) with | some c => (ctl s c).state = .failed | none => false)

/-- The regions of a range of DRAM addresses that are in a state. -/
def anyRegion (s : State) (a len v : Nat) : Bool :=
  (ctlOf a).isSome && (regionsOf a len).any fun r => regionState s r = v

/-- The access test of a read by an engine, the host or a peer (R169, R176, R177, R188). In a failed memory every access ends with data
loss, whatever its region's state. -/
def readTest (s : State) (a len : Nat) : Access :=
  if ¬ rangeMapped s a len then .unmapped
  else match decodeAddr a with
    | .window _ _ => .keyDenied
    | .csr => .unmapped
    | _ =>
      if inFailed s a len then .dataLoss
      else if anyRegion s a len 3 then .keyDenied
      else if touchesPoison s a len then .dataLoss
      else .done

/-- The poisoned words that a write covers only in part (R176). -/
def partialPoison (s : State) (a len : Nat) : Bool :=
  s.poison.any fun w => decide ((a < w + 32 ∧ w < a + len) ∧ ¬(a ≤ w ∧ w + 32 ≤ a + len)) && !unfilled s w

/-- The access test of a write by an engine, the host or a peer: performed in Open regions only (R188). -/
def writeTest (s : State) (a len : Nat) : Access :=
  if ¬ rangeMapped s a len then .unmapped
  else match decodeAddr a with
    | .window _ _ => .keyDenied
    | .csr => .unmapped
    | .sram _ _ => .done
    | _ =>
      if inFailed s a len then .dataLoss
      else if (regionsOf a len).any fun r => regionState s r ≠ 0 then .keyDenied
      else if partialPoison s a len then .dataLoss
      else .done

/-- A write that covers whole poisoned words clears their poison (R176). -/
def clearPoison (s : State) (a len : Nat) : State :=
  { s with poison := s.poison.filter fun w => ¬(a ≤ w ∧ w + 32 ≤ a + len) }

/-- A region is filled: its words are written whole, and their poison is gone (R176, R180). -/
def cleanRegion (s : State) (r : Nat) : State := { s with poison := s.poison.filter fun w => w / 0x10000 ≠ r }

/-- Mark a region that a write reaches as filled first (R180). -/
def fillRegion (s : State) (a : Nat) : State :=
  match decodeAddr a with
  | .lpddr k off =>
    if unfilled s a then
      setCtl (cleanRegion s (a / 0x10000)) (16 + k)
        { ctl s (16 + k) with filledOut := (off / 0x10000) :: (ctl s (16 + k)).filledOut }
    else s
  | _ => s

/-- Every region of a write is filled first (R180). -/
def fillFirst (s : State) (a len : Nat) : State := (regionsOf a len).foldl (fun s r => fillRegion s (r * 0x10000)) s

/-- Perform a checked read. -/
def readMem (s : State) (a len : Nat) : Access × List Byte :=
  match readTest s a len with
  | .done => (.done, devReads s a len)
  | r => (r, [])

-- Units

/-- A physical core. -/
def core (s : State) (c : Nat) : Core := tget {} s.cores c

/-- Replace a physical core. -/
def setCore (s : State) (c : Nat) (x : Core) : State := { s with cores := tset {} s.cores c x }

/-- Change a physical core. -/
def modCore (s : State) (c : Nat) (f : Core → Core) : State := setCore s c (f (core s c))

/-- A stream of the intake. -/
def stream (s : State) (n : Nat) : Stream := tget {} s.intake.streams n

/-- Replace a stream. -/
def setStream (s : State) (n : Nat) (x : Stream) : State :=
  { s with intake := { s.intake with streams := tset {} s.intake.streams n x } }

/-- A queue pair. -/
def qp (s : State) (q : Nat) : Qp := tget {} s.net.qps q

/-- Replace a queue pair. -/
def setQp (s : State) (q : Nat) (x : Qp) : State := { s with net := { s.net with qps := tset {} s.net.qps q x } }

/-- A port. -/
def port (s : State) (p : Nat) : Port := tget {} s.net.ports p

/-- Replace a port. -/
def setPort (s : State) (p : Nat) (x : Port) : State := { s with net := { s.net with ports := tset {} s.net.ports p x } }

/-- A program slot. -/
def slotOf (s : State) (n : Nat) : Slot := tget {} s.loader.slots n

/-- Replace a program slot. -/
def setSlot (s : State) (n : Nat) (x : Slot) : State :=
  { s with loader := { s.loader with slots := tset {} s.loader.slots n x } }

/-- A work counter. -/
def wkcOf (s : State) (n : Nat) : Wkc := tget {} s.wkc n

/-- Replace a work counter. -/
def setWkc (s : State) (n : Nat) (x : Wkc) : State := { s with wkc := tset {} s.wkc n x }

/-- A barrier counter of a core. -/
def barOf (c : Core) (mu ctr : Nat) : Bar := tget {} c.bars (64 * mu + ctr)

/-- A core with a barrier counter replaced. -/
def withBar (c : Core) (mu ctr : Nat) (b : Bar) : Core := { c with bars := tset {} c.bars (64 * mu + ctr) b }

/-- A reel of a core. -/
def reelOf (c : Core) (r : Nat) : Reel := tget {} c.reels r

/-- A core with a reel replaced. -/
def withReel (c : Core) (r : Nat) (x : Reel) : Core := { c with reels := tset {} c.reels r x }

/-- An issue queue of a core. -/
def queueOf (c : Core) (q : Nat) : List QDesc := tget [] c.queues q

/-- A core with an issue queue replaced. -/
def withQueue (c : Core) (q : Nat) (l : List QDesc) : Core := { c with queues := tset [] c.queues q l }

-- Writes, and the prefetch guard's watches (R157)

/-- Whether a guard entry watches a byte of a range: one that its prefetch has read (R156). -/
def Guard.touched (g : Guard) (a len : Nat) : Bool := decide (g.len ≠ 0) && g.seen.any fun r => decide (a < r.1 + r.2 ∧ r.1 < a + len)

/-- The guard entries that a write's stale notices reach, with their cores (R157). -/
def staleHits (s : State) (a len : Nat) : List (Nat × Guard) :=
  s.cores.flatMap fun e => (e.2.guards.filter fun g => g.touched a len).map fun g => (e.1, g)

/-- The arrival of an entry's prefetch is taken back (R157): from its consume barrier when it has been counted there, else where it is
under way. -/
def takeBack (s : State) (h : Nat × Guard) : State :=
  let g := h.2
  let gone := fun (q : Arrival) => decide (q.csq = none ∧ q.src = h.1 ∧ q.id = g.desc.id ∧ q.dst = g.bar ∧ q.mu = g.mu ∧ q.ctr = g.ctr)
  let f := s.fab
  if g.arrived then
    modCore s g.bar fun x => withBar x g.mu g.ctr { barOf x g.mu g.ctr with count := (barOf x g.mu g.ctr).count - g.n }
  else if ¬ g.moved then s
  else if f.arrivals.any gone then { s with fab := { f with arrivals := delFirst gone f.arrivals } }
  else if f.flits.any (fun q => gone q.arrival) then { s with fab := { f with flits := delFirst (fun q => gone q.arrival) f.flits } }
  else { s with fab := { f with circ := f.circ.map fun e => (e.1, delFirst (fun q => match q.arr with | some a => gone a | none => false) e.2) } }

/-- A core's entries that watch a range are stale. -/
def staleCore (a len : Nat) (x : Core) : Core :=
  { x with guards := x.guards.map fun g => if g.touched a len then { g with stale := true, arrived := false, moved := false } else g }

/-- A write to memory completes only when its stale notices are delivered (R157): in the model, in the same step. -/
def notifyStale (s : State) (a len : Nat) : State :=
  if (s.cores.all fun e => e.2.guards.all fun g => !g.touched a len) then s
  else
    let s := (staleHits s a len).foldl takeBack s
    { s with cores := s.cores.map fun e => (e.1, staleCore a len e.2) }

/-- A write by an update unit, the logbook or Derler, outside the region rules (R188). -/
def ownWrite (s : State) (a : Nat) (d : List Byte) : State :=
  notifyStale (devWrites (clearPoison (fillFirst s a d.length) a d.length) a d) a d.length

/-- Perform a checked write: no effect unless the test passes. -/
def writeMem (s : State) (a : Nat) (d : List Byte) : Access × State :=
  match writeTest s a d.length with
  | .done => (.done, ownWrite s a d)
  | r => (r, s)

/-- Whether the fast clocks run: rails up, clocks released, no freeze, no flush, no halt (R420, R474). -/
def fast (s : State) : Bool :=
  s.drl.rails && s.drl.frz = .running && !s.drl.halted &&
    match s.drl.phase with
    | .links | .memory | .logbook | .ready => true
    | _ => false

/-- Whether memories run: with the fast clocks, and in a warm reset once its logic has left reset, as they leave self-refresh and are
confirmed (R453, R483). -/
def memRun (s : State) : Bool :=
  fast s || (s.drl.rails && s.drl.frz = .running && !s.drl.halted && s.drl.phase = .warm && s.drl.started)

/-- Whether the device is at READY and not frozen, flushing or halted: commands are accepted and executed (R450). -/
def ready (s : State) : Bool := fast s && s.drl.phase = .ready

/-- The outcomes of a meaning. -/
abbrev Out := Host.Outcome State Fault Refusal

/-- A command on an existing unit; one that names a unit that does not exist has no effect, as R463 says of an index out of
range (log 8). -/
def onUnit (ok : Bool) (s : State) (o : Out) : Out := if ok then o else .next s

/-- An event whose condition holds takes effect; one whose condition does not hold does not happen, and nothing
changes (log 10). -/
def when_ (ok : Bool) (s t : State) : Out := if ok then .next t else .next s

/-- An event of the fast domain on an existing unit, under its condition. -/
def event (unitOk cond : Bool) (s t : State) : Out := onUnit unitOk s (when_ cond s t)

/-- A fresh free value's number, and the state with the counter advanced. -/
def takeFree (s : State) : Nat × State := (s.free, { s with free := s.free + 1 })

end Sys2Proof.Machine
end

