-- ==== Sys2Proof/Machine/Flags.lean ====
section
/-! DEFINITION. Number formats and arithmetic (R27 to R56, R90, R91): exact values, one rounding function, the special
states and overflow rules, block scales, and the correctly rounded operations. -/
namespace Sys2Proof.Machine

open Sys2Proof

/-- An exact value: NaN, an infinity, or `num / den` with a sign that zeros keep (R32). -/
inductive Num where
  | nan
  | inf (neg : Bool)
  | fin (neg : Bool) (num den : Nat)
deriving DecidableEq, Repr

/-- A binary floating-point layout (R29): fraction bits, exponent bits, bias, largest finite code, infinity if any, NaN. -/
structure Fp where
  fbits : Nat
  ebits : Nat
  bias : Nat
  maxCode : Nat
  infCode : Option Nat
  nanCode : Nat
deriving DecidableEq, Repr

/-- binary32. -/
def fp32 : Fp := ⟨23, 8, 127, 0x7F7FFFFF, some 0x7F800000, 0x7FC00000⟩
/-- binary64, used by RED (R113). -/
def fp64 : Fp := ⟨52, 11, 1023, 0x7FEFFFFFFFFFFFFF, some 0x7FF0000000000000, 0x7FF8000000000000⟩
/-- BF16. -/
def bf16 : Fp := ⟨7, 8, 127, 0x7F7F, some 0x7F80, 0x7FC0⟩
/-- binary16. -/
def fp16 : Fp := ⟨10, 5, 15, 0x7BFF, some 0x7C00, 0x7E00⟩
/-- FP8 E4M3: no infinity. -/
def e4m3 : Fp := ⟨3, 4, 7, 0x7E, none, 0x7F⟩
/-- FP8 E5M2. -/
def e5m2 : Fp := ⟨2, 5, 15, 0x7B, some 0x7C, 0x7E⟩
/-- W24. -/
def w24 : Fp := ⟨15, 8, 127, 0x7F7FFF, some 0x7F8000, 0x7FC000⟩
/-- K4 (E2M1): neither infinity nor NaN. -/
def k4 : Fp := ⟨1, 2, 1, 7, none, 8⟩

/-- `m * 2^e` with a sign. -/
def dyadic (neg : Bool) (m : Nat) (e : Int) : Num :=
  if 0 ≤ e then .fin neg (m * 2 ^ e.toNat) 1 else .fin neg m (2 ^ (-e).toNat)

/-- The value of a code of a layout (R29). -/
def Fp.value (f : Fp) (code : Nat) : Num :=
  let neg := bit code (f.fbits + f.ebits)
  let mag := code % 2 ^ (f.fbits + f.ebits)
  let e := mag / 2 ^ f.fbits
  let m := mag % 2 ^ f.fbits
  if mag ≤ f.maxCode then
    if e = 0 then dyadic neg m (1 - (f.bias : Int) - f.fbits)
    else dyadic neg (m + 2 ^ f.fbits) ((e : Int) - f.bias - f.fbits)
  else if f.infCode = some mag then .inf neg
  else .nan

/-- `n / d` rounded to nearest, ties to even. -/
def rneDiv (n d : Nat) : Nat :=
  let q := n / d
  let r := n % d
  if 2 * r < d then q else if 2 * r > d then q + 1 else q + q % 2

/-- `floor (log2 (n / d))` of a positive ratio. -/
def ilog2 (n d : Nat) : Int :=
  let e : Int := (Nat.log2 n : Int) - Nat.log2 d
  if 0 ≤ e then (if d * 2 ^ e.toNat ≤ n then e else e - 1) else (if d ≤ n * 2 ^ (-e).toNat then e else e - 1)

/-- The magnitude code of a positive ratio under a rounding of the significand; a code above `maxCode` overflows. -/
def Fp.magWith (rnd : Nat → Nat → Nat) (f : Fp) (n d : Nat) : Nat :=
  if n = 0 then 0
  else
    let e : Int := max (ilog2 n d) (1 - (f.bias : Int))
    let q : Int := e - f.fbits
    let m := if 0 ≤ q then rnd n (d * 2 ^ q.toNat) else rnd (n * 2 ^ (-q).toNat) d
    ((e + f.bias - 1).toNat) * 2 ^ f.fbits + m

/-- Round to nearest, ties to even. -/
def Fp.mag (f : Fp) (n d : Nat) : Nat := f.magWith rneDiv n d

/-- The sign bit of a layout. -/
def Fp.sign (f : Fp) (neg : Bool) : Nat := if neg then 2 ^ (f.fbits + f.ebits) else 0

/-- The code of a value under R31 and R50: `sat` chooses the largest finite value instead of NaN or infinity in the FP8
formats; the wide formats overflow to infinity. -/
def Fp.encode (f : Fp) (sat : Bool) : Num → Nat
  | .nan => f.nanCode
  | .inf neg =>
    match f.infCode with
    | some c => if sat ∧ f.ebits + f.fbits = 7 then f.sign neg + f.maxCode else f.sign neg + c
    | none => if sat then f.sign neg + f.maxCode else f.nanCode
  | .fin neg n d =>
    let m := f.mag n d
    if m ≤ f.maxCode then f.sign neg + m
    else match f.infCode with
      | some c => if sat ∧ f.ebits + f.fbits = 7 then f.sign neg + f.maxCode else f.sign neg + c
      | none => if sat then f.sign neg + f.maxCode else f.nanCode

/-- The negative of a value. -/
def Num.neg : Num → Num
  | .nan => .nan
  | .inf s => .inf (!s)
  | .fin s n d => .fin (!s) n d

/-- The magnitude. -/
def Num.abs : Num → Num
  | .nan => .nan
  | .inf _ => .inf false
  | .fin _ n d => .fin false n d

/-- Exact product. -/
def Num.mul : Num → Num → Num
  | .nan, _ | _, .nan => .nan
  | .inf s, .inf t => .inf (s != t)
  | .inf s, .fin t n _ | .fin t n _, .inf s => if n = 0 then .nan else .inf (s != t)
  | .fin s a b, .fin t c d => .fin (s != t) (a * c) (b * d)

/-- Exact sum; an exact zero sum is +0 unless both are −0 (IEEE 754 under round to nearest). -/
def Num.add : Num → Num → Num
  | .nan, _ | _, .nan => .nan
  | .inf s, .inf t => if s = t then .inf s else .nan
  | .inf s, .fin _ _ _ => .inf s
  | .fin _ _ _, .inf s => .inf s
  | .fin s a b, .fin t c d =>
    if s = t then .fin s (a * d + c * b) (b * d)
    else if a * d = c * b then .fin false 0 1
    else if a * d > c * b then .fin s (a * d - c * b) (b * d)
    else .fin t (c * b - a * d) (b * d)

/-- Exact quotient. -/
def Num.div : Num → Num → Num
  | .nan, _ | _, .nan => .nan
  | .inf _, .inf _ => .nan
  | .inf s, .fin t _ _ => .inf (s != t)
  | .fin s _ _, .inf t => .fin (s != t) 0 1
  | .fin s a b, .fin t c d => if c = 0 then (if a = 0 then .nan else .inf (s != t)) else .fin (s != t) (a * d) (b * c)

/-- Whether a value is zero. -/
def Num.isZero : Num → Bool
  | .fin _ n _ => n = 0
  | _ => false

/-- `x < y` on values that are not NaN; zeros of both signs are equal. -/
def Num.lt : Num → Num → Bool
  | .nan, _ | _, .nan => false
  | .inf s, .inf t => s && !t
  | .inf s, .fin _ _ _ => s
  | .fin _ _ _, .inf t => !t
  | .fin s a b, .fin t c d =>
    match s, t with
    | true, false => a ≠ 0 ∨ c ≠ 0
    | false, true => false
    | false, false => a * d < c * b
    | true, true => c * b < a * d

/-- An exact integer as a value. -/
def Num.ofInt (i : Int) : Num := .fin (i < 0) i.natAbs 1

/-- The signed numerator of a finite value. -/
def Num.sgn (neg : Bool) (n : Nat) : Int := if neg then -(n : Int) else n

/-- Floor of a finite value; NaN and infinities give 0. -/
def Num.floor : Num → Int
  | .fin neg n d => Int.fdiv (Num.sgn neg n) d
  | _ => 0

/-- The value of an FP32 word. -/
def d32 (w : W32) : Num := fp32.value w.toNat

/-- The FP32 word nearest a value, ties to even. -/
def r32 (x : Num) : W32 := BitVec.ofNat 32 (fp32.encode false x)

/-- FP32 +0, −0, 1.0 and the infinities. -/
def f32Zero : W32 := 0
/-- −0. -/
def f32NegZero : W32 := 0x80000000
/-- 1.0. -/
def f32One : W32 := 0x3F800000
/-- −Inf. -/
def f32NegInf : W32 := 0xFF800000
/-- +Inf. -/
def f32Inf : W32 := 0x7F800000
/-- The canonical NaN (R31). -/
def f32Nan : W32 := 0x7FC00000

/-- Whether a word is a NaN. -/
def isNan (w : W32) : Bool := decide (d32 w = .nan)

/-- Correctly rounded FP32 operations (R91). -/
def fadd (a b : W32) : W32 := r32 ((d32 a).add (d32 b))
/-- Subtraction. -/
def fsub (a b : W32) : W32 := r32 ((d32 a).add (d32 b).neg)
/-- Multiplication. -/
def fmul (a b : W32) : W32 := r32 ((d32 a).mul (d32 b))
/-- Fused multiply-add, rounded once. -/
def ffma (a b c : W32) : W32 := r32 (((d32 a).mul (d32 b)).add (d32 c))

/-- maximum of IEEE 754-2019: NaN if either is NaN; −0 below +0 (R90). -/
def fmax (a b : W32) : W32 :=
  if isNan a ∨ isNan b then f32Nan
  else if (d32 a).lt (d32 b) then b
  else if (d32 b).lt (d32 a) then a
  else if a.msb then b else a

/-- minimum, as maximum. -/
def fmin (a b : W32) : W32 :=
  if isNan a ∨ isNan b then f32Nan
  else if (d32 a).lt (d32 b) then a
  else if (d32 b).lt (d32 a) then b
  else if a.msb then a else b

/-- A NaN result is canonical (R31); other words pass. -/
def canon (w : W32) : W32 := if isNan w then f32Nan else w

/-- |a|. -/
def fabs (a : W32) : W32 := canon (a &&& 0x7FFFFFFF)

/-- −a. -/
def fneg (a : W32) : W32 := canon (a ^^^ 0x80000000)

/-- `floor (sqrt n)` by bits, from bit `k` down. -/
def isqrtFrom : Nat → Nat → Nat → Nat
  | 0, _, r => r
  | k + 1, n, r => if (r + 2 ^ k) * (r + 2 ^ k) ≤ n then isqrtFrom k n (r + 2 ^ k) else isqrtFrom k n r

/-- `floor (sqrt n)` for `n` below 2^800. -/
def isqrt (n : Nat) : Nat := isqrtFrom 400 n 0

/-- A value just above `s / 2^150` unless exact, so that one rounding of it rounds the root correctly. -/
def stickyRoot (s : Nat) (exact : Bool) : Num :=
  if exact then .fin false s (2 ^ 150) else .fin false (2 * s + 1) (2 ^ 151)

/-- Square root, correctly rounded (R91). -/
def fsqrt (a : W32) : W32 :=
  match d32 a with
  | .nan => f32Nan
  | .inf neg => if neg then f32Nan else a
  | .fin neg n d =>
    if n = 0 then a
    else if neg then f32Nan
    else
      let t := n * 2 ^ 300 / d
      let s := isqrt t
      r32 (stickyRoot s (s * s * d = n * 2 ^ 300))

/-- A code between two bounds that the spec's error bound leaves open. -/
def between (op : Nat) (a : W32) (lo hi : Nat) : Nat := lo + Config.approx op a % (hi + 1 - lo)

-- Bounds on the transcendental ops of R91, in fixed point with 160 fraction bits: each value below is within 2^-130 of the true one

/-- One. -/
def q1 : Nat := 2 ^ 160

/-- What truncation and the ends of the series together stay below. -/
def qSlack : Nat := 2 ^ 30

/-- ln 2, the sum of 1 / (k 2^k). -/
def ln2Q : Nat := (List.range 180).foldl (fun a k => a + q1 / ((k + 1) * 2 ^ (k + 1))) 0

/-- The terms of e^x from term `j`, which is `t`. -/
def expFrom : Nat → Nat → Nat → Nat → Nat
  | 0, _, _, _ => 0
  | k + 1, j, t, x => t + expFrom k (j + 1) (t * x / (q1 * (j + 1))) x

/-- 2^f for f below 1. -/
def exp2Q (f : Nat) : Nat := expFrom 48 0 q1 (f * ln2Q / q1)

/-- The terms t^i / i of atanh t, for odd i. -/
def atanhFrom : Nat → Nat → Nat → Nat → Nat
  | 0, _, _, _ => 0
  | k + 1, i, p, t2 => p / i + atanhFrom k (i + 2) (p * t2 / q1) t2

/-- log2 m for m of 1 up to 2: ln m = 2 atanh ((m - 1) / (m + 1)). -/
def log2Q (m : Nat) : Nat :=
  let t := (m - q1) * q1 / (m + q1)
  2 * atanhFrom 60 1 t (t * t / q1) * q1 / ln2Q

/-- e^(-x) for x = n / d as `g / (2^160 2^k)`: `(g, k)`; from x = 512 on, where nothing representable is left, as at 512. -/
def expNeg (n d : Nat) : Nat × Nat :=
  let x := min (n * q1 / d) (512 * q1)
  let y := x * q1 / ln2Q
  if y % q1 = 0 then (q1, y / q1) else (exp2Q (q1 - y % q1), y / q1 + 1)

/-- A magnitude code that R91 allows for a value strictly between two ratios over `d`: one that lies within `k` units in the last place of it,
whose unit is that of the largest code below the upper ratio; overflow is infinity. Which of them is open (log 11). -/
def near (op : Nat) (a : W32) (neg : Bool) (k lo hi d : Nat) : W32 :=
  let unit := k * 2 ^ (max 1 ((fp32.magWith cdiv hi d - 1) / 2 ^ 23) - 1) * d
  let l := min (fp32.magWith cdiv (lo * 2 ^ 149 - unit) (d * 2 ^ 149)) 0x7F800000
  let h := min (fp32.magWith (fun x y => x / y) (hi * 2 ^ 149 + unit) (d * 2 ^ 149)) 0x7F800000
  BitVec.ofNat 32 (fp32.sign neg + between op a l h)

/-- An FP32 value that R91 allows within 1 unit in the last place of a magnitude: of `n / d` when `exact`, else of one above it and below
`(n + 1) / d`; a magnitude that is an FP32 value is itself the result. -/
def around (op : Nat) (a : W32) (neg : Bool) (n d : Nat) (exact : Bool) : W32 :=
  let c := fp32.magWith cdiv n d
  if exact && fp32.magWith (fun x y => x / y) n d = c then BitVec.ofNat 32 (fp32.sign neg + if c ≤ fp32.maxCode then c else 0x7F800000)
  else near op a neg 1 n (if exact then n else n + 1) d

/-- 1 ÷ a (ops 0x0D and 0x0E). -/
def frcp (op : Nat) (a : W32) : W32 :=
  match d32 a with
  | .nan => f32Nan
  | .inf neg => if neg then f32NegZero else f32Zero
  | .fin neg n d => if n = 0 then (if neg then f32NegInf else f32Inf) else around op a neg d n true

/-- 1 ÷ √a (op 0x0F). -/
def frsqrt (a : W32) : W32 :=
  match d32 a with
  | .nan => f32Nan
  | .inf neg => if neg then f32Nan else f32Zero
  | .fin neg n d =>
    if n = 0 then (if neg then f32NegInf else f32Inf)
    else if neg then f32Nan
    else
      let s := isqrt (d * 2 ^ 300 / n)
      around 0x0F a false s (2 ^ 150) (s * s * n = d * 2 ^ 300)

/-- `n * 2^k / d` with a numerator and a denominator. -/
def scale2 (n : Nat) (k : Int) (d : Nat) : Nat × Nat := if 0 ≤ k then (n * 2 ^ k.toNat, d) else (n, d * 2 ^ (-k).toNat)

/-- 2^a (op 0x0B): exact for an integer in range; otherwise an FP32 value next to the true one (R91). -/
def fexp2 (a : W32) : W32 :=
  match d32 a with
  | .nan => f32Nan
  | .inf neg => if neg then f32Zero else f32Inf
  | .fin neg n d =>
    let k := max (-200) (min 200 (Int.fdiv (Num.sgn neg n) d))
    if n % d = 0 ∧ -149 ≤ k then BitVec.ofNat 32 (min (fp32.encode false (dyadic false 1 k)) 0x7F800000)
    else
      let f := (Int.fmod (Num.sgn neg n) d).toNat * q1 / d
      let lo := scale2 (max q1 (exp2Q f - qSlack)) k q1
      let hi := scale2 (min (2 * q1) (exp2Q f + qSlack)) k q1
      near 0x0B a false 1 lo.1 hi.1 lo.2

/-- log2 a (op 0x0C): exact for a power of two; otherwise an FP32 value next to the true one (R91). -/
def flog2 (a : W32) : W32 :=
  match d32 a with
  | .nan => f32Nan
  | .inf neg => if neg then f32Nan else f32Inf
  | .fin neg n d =>
    if n = 0 then f32NegInf
    else if neg then f32Nan
    else
      let e := ilog2 n d
      let m := scale2 (n * q1) (-e) d
      if m.1 = m.2 * q1 then r32 (Num.ofInt e)
      else
        let g := log2Q (m.1 / m.2)
        let x := if 0 ≤ e then e.toNat * q1 + g else (-e).toNat * q1 - g
        near 0x0C a (e < 0) 1 (x - qSlack) (x + qSlack) q1

/-- tanh a (op 0x11), within 2 units in the last place (R91): below 2^-20 between a - a^3 / 3 and a, and otherwise
(1 - q) / (1 + q) with q = e^(-2a). -/
def ftanh (a : W32) : W32 :=
  match d32 a with
  | .nan => f32Nan
  | .inf neg => if neg then 0xBF800000 else f32One
  | .fin neg n d =>
    if n = 0 then a
    else if n * 2 ^ 20 < d then near 0x11 a neg 2 (n * (3 * d * d - n * n)) (n * (3 * d * d)) (3 * d * d * d)
    else
      let q := expNeg (2 * n) d
      let one := q1 * 2 ^ q.2
      let slack := qSlack * 2 ^ q.2
      near 0x11 a neg 2 (one - q.1 - slack) (min (one - q.1 + slack) (one + q.1)) (one + q.1)

/-- 1 ÷ (1 + e^(−a)) (op 0x12), within 2 units in the last place (R91). -/
def fsigm (a : W32) : W32 :=
  match d32 a with
  | .nan => f32Nan
  | .inf neg => if neg then f32Zero else f32One
  | .fin neg n d =>
    let q := expNeg n d
    let one := q1 * 2 ^ q.2
    if neg then near 0x12 a false 2 (q.1 - qSlack) (q.1 + qSlack) (one + q.1)
    else near 0x12 a false 2 (one - qSlack * 2 ^ q.2) (min (one + qSlack * 2 ^ q.2) (one + q.1)) (one + q.1)

-- Elements and scales (R27, R33 to R50)

/-- Bits of one element of a format (R27). -/
def elemBits (f : Nat) : Nat :=
  match f with
  | 0 | 10 | 11 | 12 => 32
  | 1 | 2 => 16
  | 3 | 4 | 5 | 8 => 8
  | 6 => 4
  | 7 => 24
  | 9 => 1
  | 13 => 64
  | _ => 0

/-- Whether a format may carry block scales (R27). -/
def mayScale (f : Nat) : Bool := 1 ≤ f && f ≤ 6

/-- The layout of a floating format code. -/
def fpOf (f : Nat) : Fp :=
  match f with
  | 0 => fp32
  | 1 => bf16
  | 2 => fp16
  | 3 => e4m3
  | 4 => e5m2
  | 6 => k4
  | _ => w24

/-- The decoded value q of an element before scaling (R29, R33, R35, R37). -/
def elemValue (f raw : Nat) : Num :=
  match f with
  | 5 => Num.ofInt (signed 8 raw)
  | 8 => (Num.ofInt (signed 8 raw)).mul (.fin false 1 128)
  | _ => (fpOf f).value raw

/-- 2^(e − 127) of a block scale code; 0xFF makes the block NaN (R45). -/
def blockScale (e : Nat) : Num := if e = 0xFF then .nan else dyadic false 1 ((e : Int) - 127)

/-- R48: the FP32 word an element enters its lane as; INT32 and U32 enter unchanged (R88). -/
def decodeElem (f raw : Nat) (c : W32) (e : Nat) : W32 :=
  match f with
  | 10 | 11 => BitVec.ofNat 32 raw
  | _ => r32 (((elemValue f raw).mul (blockScale e)).mul (d32 c))

/-- An integer rounded to nearest even from a ratio with sign. -/
def rneInt (neg : Bool) (n d : Nat) : Int := Num.sgn neg (rneDiv n d)

/-- R54: an M8 code. -/
def encodeM8 : Num → Nat
  | .nan => 0
  | .inf neg => if neg then 0x80 else 0x7F
  | .fin neg n d => (max (-128) (min 127 (rneInt neg (n * 128) d)) % 256).toNat

/-- R52: the 8-bit number of stochastic rounding. -/
def stochR (seed step slice pos : W32) : Nat :=
  let h := seed ^^^ (step * 0x9e3779b9) ^^^ (slice * 0x85ebca6b) ^^^ (pos * 0xc2b2ae35)
  let h := h ^^^ (h >>> 16)
  let h := h * 0x7feb352d
  let h := h ^^^ (h >>> 15)
  (h >>> 24).toNat

/-- R52: FP32 to W24 under stochastic rounding by r. -/
def stochW24 (x : W32) (r : Nat) : Nat :=
  match d32 x with
  | .fin neg _ _ =>
    let m := ((x.toNat % 2 ^ 31) + r) / 256
    w24.sign neg + if m ≥ 0x7F8000 then 0x7F8000 else m
  | v => w24.encode false v

/-- Whether a finite value fits a target at its scale, after rounding (R49). -/
def fits (f : Nat) : Num → Bool
  | .fin neg n d =>
    if f = 5 then decide (-128 ≤ rneInt neg n d ∧ rneInt neg n d ≤ 127) else decide ((fpOf f).mag n d ≤ (fpOf f).maxCode)
  | _ => true

/-- x ÷ (c × 2^(e − 127)). -/
def unscale (x : Num) (c : W32) (e : Nat) : Num := x.div ((d32 c).mul (blockScale e))

/-- R49: the block scale code for the valid FP32 values of a block. -/
def chooseScale (f : Nat) (sat : Bool) (c : W32) (xs : List W32) : Nat :=
  let vs := xs.map d32
  let fins := vs.filter fun v => match v with | .fin _ _ _ => true | _ => false
  let noNan := f = 5 ∨ f = 6
  if noNan ∧ Num.nan ∈ vs then 0xFF
  else if noNan ∧ ¬sat ∧ vs.any (fun v => match v with | .inf _ => true | _ => false) then 0xFF
  else if fins.all Num.isZero then 0x7F
  else match (List.range 255).find? fun e => fins.all fun v => fits f (unscale v c e) with
    | some e => e
    | none => if noNan ∧ ¬sat then 0xFF else 0xFE

/-- The raw bits of one element at a chosen scale (R49, R50); a NaN block holds zeros (R45). -/
def encodeElem (f : Nat) (sat scaled : Bool) (c : W32) (e : Nat) (x : W32) : Nat :=
  if e = 0xFF then 0
  else
    let v := unscale (d32 x) c e
    match f with
    | 10 | 11 => x.toNat
    | 8 => encodeM8 (d32 x)
    | 5 =>
      match v with
      | .nan => 0
      | .inf neg => if neg then 0x80 else 0x7F
      | .fin neg n d => (max (-128) (min 127 (rneInt neg n d)) % 256).toNat
    | 6 => k4.encode (sat || !scaled) v
    | _ => (fpOf f).encode sat v

-- Order of FP32 values in ranks (R116)

/-- The rank key of a value: NaN above +Inf, zeros of both signs equal. -/
def rankLt (a b : W32) : Bool :=
  match isNan a, isNan b with
  | _, true => !isNan a
  | true, false => false
  | false, false => (d32 a).lt (d32 b)

/-- Pairwise tree sum of R93: neighbours first; `add` is a rounded addition and an odd element passes up. -/
def pairUp {α : Type} (add : α → α → α) : List α → List α
  | a :: b :: t => add a b :: pairUp add t
  | l => l

/-- Six levels fold 64 lanes to one. -/
def tree64 {α : Type} (d : α) (add : α → α → α) (l : List α) : α :=
  (pairUp add (pairUp add (pairUp add (pairUp add (pairUp add (pairUp add l)))))).headD d

end Sys2Proof.Machine
end

