-- ==== Sys2Proof/Machine/Operands.lean ====
section
/-! DEFINITION. The fields of engine descriptors (R240 to R270): layouts, legality with the offset that DESC_RESERVED
reports, effective extents, addresses of elements and footprints. -/
namespace Sys2Proof.Machine

open Sys2Proof

-- Core addresses (R218) and barrier references (R243)

/-- Whether a 64-bit value is a core address: bits 63:24 zero. -/
def isCoreAddr (a : Nat) : Bool := a < 0x1000000

/-- Bytes of one MU. -/
def muBytes : Nat := 0x400000

/-- A barrier reference. -/
structure BRef where
  mu : Nat
  ctr : Nat
  n : Nat
  core : Nat
deriving DecidableEq, Repr

/-- The reference at an offset. -/
def bref (b : List Byte) (off : Nat) : BRef :=
  let x := fld b off 1
  { mu := x / 64, ctr := x % 64, n := fld b (off + 1) 1, core := fld b (off + 2) 1 }


-- Header fields (R241)

/-- ENG of a descriptor. -/
def dEng (b : List Byte) : Nat := bits (fld b 0 1) 3 0
/-- KIND. -/
def dKind (b : List Byte) : Nat := bits (fld b 0 1) 7 5
/-- SIZE bit. -/
def dSize (b : List Byte) : Bool := bit (fld b 0 1) 4
/-- Reel named. -/
def dReel (b : List Byte) : Nat := bits (fld b 1 1) 2 0
/-- ENDGEN. -/
def dEndGen (b : List Byte) : Bool := bit (fld b 1 1) 3
/-- START. -/
def dStart (b : List Byte) : BRef := bref b 4
/-- DONE. -/
def dDone (b : List Byte) : BRef := bref b 7
/-- AUXB. -/
def dAuxb (b : List Byte) : BRef := bref b 10

/-- Whether the kind exists for its engine with its size (R242). -/
def typeOk (b : List Byte) : Bool :=
  match dEng b, dKind b with
  | 0, 0 => dSize b
  | 1, 0 | 1, 1 => dSize b
  | 1, 2 => !dSize b
  | 2, 0 => dSize b
  | 3, 0 | 3, 1 | 3, 2 => dSize b
  | 4, 0 | 5, 0 | 6, 0 => !dSize b
  | _, _ => false

/-- Whether the descriptor uses REEL. -/
def usesReel (b : List Byte) : Bool := dEng b = 3 || (dEng b = 1 && dKind b < 2)

/-- A field test: offset and whether the field is legal. -/
abbrev Chk := Nat × Bool

/-- The lowest offset of a field that fails. -/
def firstBad (l : List Chk) : Option Nat :=
  l.foldl (fun a c => if c.2 then a else match a with | none => some c.1 | some o => some (min o c.1)) none

/-- Bytes of a range that must be zero, each its own field. -/
def zeroChk (b : List Byte) (off len : Nat) : List Chk := (List.range len).map fun i => (off + i, fld b (off + i) 1 = 0)

/-- A barrier reference (R243): one that names no barrier has every byte zero; otherwise `ok` tests the number of a core that is
not the issuing one. Its CORE is a field of its own (log 68). -/
def brefChk (ok : Nat → Bool) (b : List Byte) (off : Nat) : List Chk :=
  let r := bref b off
  [(off, r.n ≠ 0 || fld b off 3 = 0), (off + 2, r.n = 0 || r.core = 0xFF || ok r.core)]

/-- A core address in bits 23:0 of a 4-byte field. -/
def addrChk (b : List Byte) (off : Nat) : Chk := (off, isCoreAddr (fld b off 4))

/-- R245, R44: a scale word. -/
def scaleWordOk (w : Nat) : Bool :=
  if w < 2 ^ 31 then decide (0 < w / 2 ^ 23 ∧ w / 2 ^ 23 < 255) else bits w 30 12 = 0 && 0 < bits w 11 0

/-- Formats that carry no coarse scale take 1.0 (R245). -/
def noCoarse (f : Nat) : Bool := f = 10 || f = 11 || f = 9 || f = 7 || f = 8 || f = 12 || f = 13

/-- The exposure tag of a scale word, 0 for none. -/
def scaleTag (w : Nat) : Nat := if w < 2 ^ 31 then 0 else bits w 11 0

/-- A limit binding (R246). -/
structure Lim where
  en : Bool
  dim : Nat
  al : Nat
deriving DecidableEq, Repr

/-- A limit byte. -/
def lim (b : List Byte) (off : Nat) : Lim :=
  let x := fld b off 1
  { en := bit x 7, dim := bits x 6 4, al := bits x 3 0 }

/-- NDIM of a vector walk, an AG program or a reduction. -/
def dNdim (b : List Byte) : Nat :=
  match dEng b with
  | 1 => bits (fld b 16 1) 2 0
  | 2 => fld b 19 1
  | 3 => bits (fld b 17 1) 2 0
  | _ => 0

/-- Offset of EXT[0]. -/
def extOff (b : List Byte) : Nat := if dEng b = 3 then 28 else 20

/-- Declared extent d; 0 beyond NDIM. -/
def dExt (b : List Byte) (d : Nat) : Nat := fld b (extOff b + 4 * d) 4

/-- ORG0 and ORG1, and 0 beyond (R246). -/
def dOrg (b : List Byte) (d : Nat) : Nat :=
  let o := if dEng b = 3 then 96 else 44
  if d < 2 then fld b (o + 4 * d) 4 else 0

/-- How many DIM codes a binding may name (R246). -/
def limDims (b : List Byte) : Nat :=
  match dEng b, dKind b with
  | 0, _ => 3
  | 1, 0 => dNdim b
  | 2, _ => if bit (fld b 18 1) 1 then 0 else dNdim b
  | 3, _ => dNdim b
  | _, _ => 0

/-- A binding is zero or names a dimension. -/
def limOk (b : List Byte) (off : Nat) : Bool :=
  let l := lim b off
  if l.en then l.dim < limDims b else fld b off 1 = 0

/-- Header legality (R241 to R246). -/
def headerChk (self cores : Nat) (b : List Byte) : List Chk :=
  let auxWait := dEng b = 0
  let auxUsed := dEng b = 0 ∨ (dEng b = 1 ∧ dKind b = 0) ∨ dEng b = 3 ∨ dEng b = 4
  let waits := fun (c : Nat) => decide (c = self)
  let arrives := fun (c : Nat) => decide (c < cores)
  [ ((1, if usesReel b then fld b 1 1 < 16 else fld b 1 1 = 0) : Chk),
    (13, limOk b 13), (14, limOk b 14), (15, fld b 15 1 = 0) ] ++
  brefChk waits b 4 ++ brefChk arrives b 7 ++
  if ¬auxUsed then [((10, decide (fld b 10 3 = 0)) : Chk)] else brefChk (if auxWait then waits else arrives) b 10

-- Stream blocks (R258)

/-- A stream block. -/
structure Strm where
  agp : Bool
  ag : Nat
  thread : Nat
  addr : Nat
  saddr : Nat
  scale : Nat
  fmt : Nat
  scaled : Bool
  mom : Bool
  en : Bool
  sp1 : Nat
  p1 : Nat
deriving DecidableEq, Repr

/-- The stream block at an offset. -/
def strm (b : List Byte) (off : Nat) : Strm :=
  let a := fld b off 4
  let f := fld b (off + 12) 1
  { agp := bit a 31, ag := bits a 27 27, thread := bits a 26 24, addr := bits a 23 0, saddr := bits (fld b (off + 4) 4) 23 0,
    scale := fld b (off + 8) 4, fmt := bits f 3 0, scaled := bit f 4, mom := bit f 5, en := bit f 7,
    sp1 := fld b (off + 13) 1, p1 := fld b (off + 14) 2 }

/-- Bytes that `n` packed elements of a format occupy. -/
def packed (f n : Nat) : Nat := (n * elemBits f + 7) / 8

/-- The scale-row pitch in bytes: SP1 = 0 means the rounded-up row (R258). -/
def Strm.spitch (t : Strm) (e0 : Nat) : Nat := if t.sp1 = 0 then (e0 + 511) / 512 * 16 else t.sp1 * 16

/-- Whether a range stays in the MU of its first byte. -/
def inMu (addr len : Nat) : Bool := addr % muBytes + len ≤ muBytes

/-- Whether elements and block scales of a stream whose rows take `rowLen` bytes stay in their MUs (R258); V1 packs by linear
index. -/
def Strm.fitsMu (t : Strm) (e0 rows rowLen : Nat) : Bool :=
  let r := if t.p1 = 0 then 0 else rows - 1
  t.agp || ((if t.fmt = 9 then inMu t.addr ((e0 * rows + 7) / 8) else inMu t.addr (r * t.p1 * 64 + rowLen)) &&
    (!t.scaled || inMu t.saddr (r * t.spitch e0 + (e0 + 31) / 32)))

/-- Legality of a stream block whose formats are given and whose rows take `rowLen` bytes (R258, R27). -/
def strmChk (b : List Byte) (off : Nat) (fmts : List Nat) (e0 rows rowLen : Nat) : List Chk :=
  let t := strm b off
  let a := fld b off 4
  if !t.en then [(off, 4), (off + 4, 4), (off + 8, 4), (off + 12, 1), (off + 13, 1), (off + 14, 2)].map fun f => (f.1, zeroAt b f.1 f.2)
  else
    [ (off, (if t.agp then bits a 21 0 = 0 else t.addr % 64 = 0 && bits a 27 24 = 0) && bits a 30 28 = 0 && t.fitsMu e0 rows rowLen),
      (off + 4, bits (fld b (off + 4) 4) 31 24 = 0),
      (off + 8, scaleWordOk t.scale && (!noCoarse t.fmt || t.scale = 0x3F800000)),
      (off + 12, t.fmt ∈ fmts && !bit (fld b (off + 12) 1) 6 && (!t.scaled || mayScale t.fmt) && (t.fmt ≠ 6 || t.scaled)) ]

/-- Legality of a stream block of packed elements. -/
def strmOk (b : List Byte) (off : Nat) (fmts : List Nat) (e0 rows : Nat) : List Chk :=
  strmChk b off fmts e0 rows (packed (strm b off).fmt e0)

/-- Formats the VCE reads (R27). -/
def vceReads : List Nat := [0, 1, 2, 3, 4, 5, 6, 7, 8, 10, 11, 12]
/-- Formats the VCE writes. -/
def vceWrites : List Nat := [0, 1, 2, 3, 4, 5, 6, 7, 8, 9, 10, 11]

/-- Rows of a walk over its declared extents. -/
def dRows (b : List Byte) : Nat := ((List.range (dNdim b - 1)).map fun d => dExt b (d + 1)).foldl (· * ·) 1

/-- Extents of a walk: at least 1 below NDIM, zero at or beyond it (R257). -/
def extChk (b : List Byte) : List Chk :=
  (List.range 6).map fun d => (extOff b + 4 * d, if d < dNdim b then 0 < dExt b d else dExt b d = 0)

/-- Extents of a descriptor that reserves no value of them, or, unless `free`, zero throughout (R263). -/
def extZero (b : List Byte) (free : Bool) : List Chk :=
  (List.range 6).map fun d => (extOff b + 4 * d, free || dExt b d = 0)

-- The MXE tile (R250 to R254)

/-- An operand block (R251). -/
structure Opnd where
  addr : Nat
  scaled : Bool
  saddr : Nat
  scale : Nat
  pitch : Nat
  spitch : Nat
deriving DecidableEq, Repr

/-- The operand block at an offset. -/
def opnd (b : List Byte) (off : Nat) : Opnd :=
  { addr := bits (fld b off 4) 23 0, scaled := bit (fld b (off + 4) 4) 31, saddr := bits (fld b (off + 4) 4) 23 0,
    scale := fld b (off + 8) 4, pitch := fld b (off + 12) 2, spitch := fld b (off + 14) 2 }

/-- FMT_A. -/
def mFmtA (b : List Byte) : Nat := bits (fld b 16 1) 3 0
/-- FMT_B. -/
def mFmtB (b : List Byte) : Nat := bits (fld b 16 1) 7 4
/-- FMT_OUT. -/
def mFmtOut (b : List Byte) : Nat := bits (fld b 17 1) 3 0
/-- PRE_FMT. -/
def mPreFmt (b : List Byte) : Nat := bits (fld b 17 1) 7 4
/-- PRELOAD. -/
def mPreload (b : List Byte) : Nat := bits (fld b 18 1) 3 0
/-- DRAIN. -/
def mDrain (b : List Byte) : Nat := bits (fld b 18 1) 5 4
/-- SAT. -/
def mSat (b : List Byte) : Bool := bit (fld b 18 1) 6
/-- ZP_EN. -/
def mZp (b : List Byte) : Bool := bit (fld b 18 1) 7
/-- K_START. -/
def mKStart (b : List Byte) : Nat := fld b 24 4
/-- K_LEN. -/
def mKLen (b : List Byte) : Nat := fld b 28 4
/-- K_TOTAL. -/
def mKTotal (b : List Byte) : Nat := fld b 32 4
/-- M_ORG. -/
def mMOrg (b : List Byte) : Nat := fld b 36 4
/-- N_ORG. -/
def mNOrg (b : List Byte) : Nat := fld b 40 4
/-- Whether a tile is chained (R67). -/
def mChained (b : List Byte) : Bool := mPreload b = 3 || mDrain b = 2

/-- The window class of an operand pairing (R28): 19, 25, or 0 for exact; none for a reserved pairing. -/
def window (fa fb : Nat) : Option Nat :=
  if fa ∈ [1, 3, 4, 6] ∧ fb ∈ [1, 3, 4, 6] then some 19
  else if fa = 2 ∧ fb = 2 then some 25
  else if fa = 5 ∧ fb = 5 then some 0
  else none

/-- Legality of an operand block of `rows` rows (R251). -/
def opndChk (b : List Byte) (off fmt rows : Nat) : List Chk :=
  let o := opnd b off
  let kl := mKLen b
  let groups := (kl + 15) / 16
  [ (off, isCoreAddr (fld b off 4) && o.addr % 64 = 0 &&
      inMu o.addr ((rows - 1) * o.pitch * 64 + packed fmt kl) &&
      (!o.scaled || inMu o.saddr ((rows - 1) * o.spitch * 16 + (mKStart b % 32 + 16 * (groups - 1)) / 32 + 1))),
    (off + 4, bits (fld b (off + 4) 4) 30 24 = 0 && (fmt ≠ 6 || o.scaled)),
    (off + 8, scaleWordOk o.scale),
    (off + 12, 0 < o.pitch) ]

/-- Legality of an MXE tile descriptor (R250 to R254). -/
def mxeChk (cores : Nat) (b : List Byte) : List Chk :=
  let fa := mFmtA b
  let fb := mFmtB b
  let dr := mDrain b
  let pl := mPreload b
  let s := signed 16 (fld b 20 2)
  let flags := fld b 46 1
  let mAct := fld b 44 1
  let nAct := fld b 45 1
  [ (16, (window fa fb).isSome),
    (17, (match dr with
        | 0 => mFmtOut b = 0
        | 1 => mFmtOut b ≤ 4
        | 2 => mFmtOut b = 13
        | _ => true) &&
      (match pl with
        | 0 => mPreFmt b = 0
        | 1 | 2 => mPreFmt b ≤ 2
        | 3 => mPreFmt b = 13
        | _ => true)),
    (18, pl ≤ 3 && dr ≤ 2),
    (20, decide (-256 ≤ s ∧ s ≤ 231)),
    (24, mKStart b % 16 = 0 && mKStart b ≤ 2 ^ 24 - 16),
    (28, 1 ≤ mKLen b && mKLen b < 2 ^ 24),
    (32, mKLen b ≤ mKTotal b && mKTotal b ≤ 2 ^ 24),
    (36, mMOrg b < 2 ^ 24), (40, mNOrg b < 2 ^ 24),
    (44, 1 ≤ mAct && mAct ≤ 128), (45, 1 ≤ nAct && nAct ≤ 64),
    (46, flags < 8 && (!bit flags 1 || !mChained b) &&
      (bit flags 0 == (pl = 1 || pl = 2) || (pl = 3 && bit flags 0))),
    (47, fld b 47 1 = 0) ] ++
  opndChk b 52 fa mAct ++ opndChk b 68 fb nAct ++
  [ ((84, isCoreAddr (fld b 84 4) && (dr ≠ 0 || fld b 84 4 = 0)) : Chk),
    (88, dr = 1 || fld b 88 2 = 0), (90, fld b 90 2 = 0),
    (92, scaleWordOk (fld b 92 4) && (dr = 1 || fld b 92 4 = 0x3F800000)),
    (96, isCoreAddr (fld b 96 4) && (pl ≠ 0 || fld b 96 4 = 0)),
    (100, pl = 2 || fld b 100 2 = 0), (102, fld b 102 2 = 0),
    (104, isCoreAddr (fld b 104 4) && (mZp b || fld b 104 4 = 0)),
    (108, fld b 108 4 % 8 = 0), addrChk b 112 ] ++ brefChk (fun c => decide (c < cores)) b 116 ++ zeroChk b 119 9

-- Stage programs (R90, R255)

/-- A stage entry. -/
structure Stage where
  op : Nat
  a : Nat
  b : Nat
  c : Nat
  cmode : Nat
  cbase : Nat
  c0 : Int
  c1 : Int
  c2 : Int
  imm : W32
deriving DecidableEq, Repr

/-- Stage s of a VPROG block; a missing program is all zero. -/
def stage (p : List Byte) (s : Nat) : Stage :=
  let o := 16 + 14 * s
  let sel := fld p (o + 1) 2
  { op := fld p o 1, a := bits sel 2 0, b := bits sel 5 3, c := bits sel 8 6, cmode := bits (fld p (o + 3) 1) 1 0,
    cbase := fld p (o + 4) 2, c0 := signed 8 (fld p (o + 6) 1), c1 := signed 8 (fld p (o + 7) 1),
    c2 := signed 8 (fld p (o + 8) 1), imm := BitVec.ofNat 32 (fld p (o + 10) 4) }

/-- How many operands an op reads. -/
def arity (op : Nat) : Nat :=
  if op ∈ [0x01, 0x02, 0x03, 0x05, 0x06, 0x16, 0x1B] then 2 else if op ∈ [0x04, 0x0A] then 3 else 1

/-- Ops that write the operand cache. -/
def writesCache (op : Nat) : Bool := 0x17 ≤ op && op ≤ 0x1A

/-- Whether a stage names a source among the operands it reads. -/
def Stage.names (t : Stage) (src : Nat) : Bool :=
  t.a = src || (2 ≤ arity t.op && t.b = src) || (3 ≤ arity t.op && t.c = src)

/-- Legality of a VPROG (R255, R256). -/
def vprogChk (b : List Byte) : List Chk :=
  ((List.range 8).map fun s =>
    let o := 16 + 14 * s
    let t := stage b s
    [ ((o, decide (t.op ≤ 0x1B)) : Chk), (o + 1, fld b (o + 1) 2 < 512),
      (o + 3, fld b (o + 3) 1 ≤ 2 && (!t.names 4 || t.cmode ≠ 0) && (!writesCache t.op || t.cmode = 2)),
      (o + 4, t.cbase < 8192 && (t.cmode ≠ 1 || t.cbase % 64 = 0)),
      (o + 6, t.cmode ≠ 1 || t.c0 = 0 || t.c0 = 1), ((o + 9, decide (fld b (o + 9) 1 = 0)) : Chk) ]).flatten

/-- Legality of a VWALK (R257 to R259, R98). -/
def vwalkChk (scratchOk : Bool) (b : List Byte) : List Chk :=
  let e0 := dExt b 0
  let rows := dRows b
  let fl := fld b 17 1
  let out := strm b 100
  let v1 := out.en && out.fmt = 9
  let stoch := bit fl 3
  let zout := bit fl 1
  let zchk := bit fl 2
  [ ((16, fld b 16 1 < 8 && 1 ≤ dNdim b && dNdim b ≤ 6) : Chk),
    (17, (scratchOk || bits fl 7 4 = 0) && (!stoch || (out.en && out.fmt = 7)) && (!zchk || zout) &&
      (!zout || (out.fmt ≠ 9 && out.fmt ≠ 7))),
    (18, fld b 18 1 < 2), (19, fld b 19 1 = 0) ] ++ extChk b ++
  strmOk b 52 vceReads e0 rows ++ strmOk b 68 vceReads e0 rows ++ strmOk b 84 vceReads e0 rows ++
  strmOk b 100 vceWrites e0 rows ++
  [ ((116, if v1 then (let x := fld b 116 4; decide (0x800000 ≤ x ∧ x ≤ 0x7F800000))
      else if stoch then true else if zout then isCoreAddr (fld b 116 4) else fld b 116 4 = 0) : Chk),
    (120, if v1 then isCoreAddr (fld b 120 4) else if stoch then true
      else if zchk then isCoreAddr (fld b 120 4) else fld b 120 4 = 0),
    (124, if v1 then fld b 124 4 % 4096 = 0 else if stoch then fld b 124 4 = 0
      else if zchk then isCoreAddr (fld b 124 4) else fld b 124 4 = 0) ]

/-- Legality of a VCACHE (R261). -/
def vcacheChk (b : List Byte) : List Chk :=
  let w0 := fld b 18 2
  let n := fld b 20 4
  let store := fld b 17 1 = 1
  [ ((16, decide (fld b 16 1 < 8)) : Chk), (17, fld b 17 1 ≤ 1), (18, w0 < 8192), (20, 1 ≤ n && n ≤ 8192 - w0) ] ++
  strmOk b 24 (if store then [0] else vceReads) n 1 ++
  [ ((36, (strm b 24).en && (!store || !(strm b 24).scaled)) : Chk), (38, fld b 38 2 = 0) ] ++ zeroChk b 40 24

-- RED (R110 to R117, R263)

/-- KIND. -/
def rKind (b : List Byte) : Nat := bits (fld b 16 1) 3 0
/-- AXIS. -/
def rAxis (b : List Byte) : Nat := bits (fld b 16 1) 5 4
/-- MERGE. -/
def rMerge (b : List Byte) : Bool := bit (fld b 16 1) 6
/-- OUT64. -/
def rOut64 (b : List Byte) : Bool := bit (fld b 16 1) 7
/-- K. -/
def rK (b : List Byte) : Nat := fld b 17 1

/-- Bytes of a record of a descriptor's kind, with OUT64 or without (R117). -/
def recordBytes (b : List Byte) (out64 : Bool) : Nat :=
  match rKind b with
  | 2 => if out64 then 24 else 16
  | 6 => 8 + 8 * rK b
  | 7 => 16 + 8 * rK b
  | _ => if out64 then 8 else 4

/-- Bytes of a record that a reduction writes. -/
def recordSize (b : List Byte) : Nat := recordBytes b (rOut64 b)

/-- Bytes of a record that a merge reads: written with OUT64, whatever it writes itself (R117). -/
def mergeSize (b : List Byte) : Nat := recordBytes b true

/-- Legality of a RED descriptor (R263), with the limits of COL (R111, log 68). A declared extent of 0 is a skip (R247), and with no TAP
no value of EXT is reserved. -/
def redChk (b : List Byte) : List Chk :=
  let kind := rKind b
  let tap := bit (fld b 18 1) 1
  let axis := bits (fld b 16 1) 5 4
  [ ((16, kind ≤ 7 && axis ≤ 2 && (axis ≠ 1 || kind < 6)) : Chk),
    (20, axis ≠ 1 || dExt b 0 ≤ (if kind = 2 then 2048 else 4096)),
    (17, if kind = 6 ∨ kind = 7 then 1 ≤ fld b 17 1 && fld b 17 1 ≤ 32 else fld b 17 1 = 0),
    (18, fld b 18 1 < 8), (19, if tap then fld b 19 1 = 0 else 1 ≤ dNdim b && dNdim b ≤ 6) ] ++ extZero b (!tap) ++
  [ ((44, !tap || fld b 44 4 = 0) : Chk), (48, !tap || fld b 48 4 = 0) ] ++
  strmChk b 52 vceReads (dExt b 0) (dRows b) (if rMerge b then dExt b 0 * mergeSize b else packed (strm b 52).fmt (dExt b 0)) ++
  [ ((64, tap != (strm b 52).en) : Chk), addrChk b 68, (72, isCoreAddr (fld b 72 4) && fld b 72 4 % 8 = 0) ] ++ zeroChk b 80 48

/-- Legality of an AG program (R265). No value of EXT is reserved: an extent of 0 is a skip (R247). -/
def agChk (mu : Nat) (b : List Byte) : List Chk :=
  let affine := dKind b = 0
  let s := fld b 16 1
  let buf := fld b 92 4
  [ ((16, s < 128 && bits s 3 1 + bits s 6 4 ≤ 7) : Chk),
    (17, fld b 17 1 < 16 && 1 ≤ dNdim b && dNdim b ≤ 6 && (!bit (fld b 17 1) 3 || bit buf 31)),
    (18, fld b 18 1 ≤ 6), (19, fld b 19 1 ≤ 5), (20, fld b 26 2 = 0) ] ++
  [ ((52, affine || fld b 52 4 = 0) : Chk), (76, isCoreAddr (fld b 76 4) && (!affine || fld b 76 4 = 0)),
    (80, if affine then fld b 80 1 = 0 else fld b 80 1 = 10 || fld b 80 1 = 11), (92, bits buf 30 24 = 0 && (!bit buf 31 || bits buf 23 22 = mu)) ] ++
  zeroChk b 81 3 ++ zeroChk b 104 24

/-- Legality of an XFR descriptor (R195, R267, R268). -/
def xfrChk (b : List Byte) : List Chk :=
  let m := fld b 16 1
  let dir := bits m 3 0
  let codec := bit m 4
  let remote := 2 ≤ dir && dir ≤ 4
  let sl := decide (dir = 4)
  let len := fld b 40 4
  let rows := fld b 44 4
  [ (16, dir ≤ 4 && !bit m 7 && (!codec || dir ≤ 1) && (!bit m 5 || dir = 0) && (!bit m 6 || dir = 3)),
    (17, if codec then decide (fld b 17 1 ∈ [0, 1, 2, 3, 4, 5, 6, 10, 11]) else fld b 17 1 = 0),
    (18, if remote then fld b 18 2 < 4096 else fld b 18 2 = 0), (20, remote || fld b 20 4 = 0),
    (24, if sl then fld b 24 8 = 0 else fld b 24 8 < 2 ^ 48),
    (32, if sl then fld b 32 8 = 0 else fld b 32 8 < 2 ^ 48),
    (40, if sl then len = 0 else len % 64 = 0 && 64 ≤ len && len ≤ 0x1000000),
    (44, if sl then rows = 0 else 1 ≤ rows && rows ≤ 65536 && (!codec || rows = 1)),
    (48, if sl then fld b 48 4 = 0 else fld b 48 4 % 64 = 0),
    (52, if sl then fld b 52 4 = 0 else fld b 52 4 % 64 = 0),
    (56, !(dir = 2 || dir = 4) || fld b 60 4 = 0) ]

/-- Legality of a multicast descriptor (R269). -/
def mcastChk (b : List Byte) : List Chk :=
  let len := fld b 28 4
  let det := fld b 17 1
  [ ((16, decide (fld b 16 1 < 64)) : Chk), (17, det < 16), (18, fld b 18 2 = 0), (20, (ctlOf (fld b 20 8)).isSome),
    (28, len % 64 = 0 && 64 ≤ len && len ≤ 0x100000), (32, 1 ≤ fld b 32 4 && fld b 32 4 ≤ 2 ^ 24),
    (40, isCoreAddr (fld b 40 4) && (det ≠ 0 || fld b 40 4 = 0)) ] ++ zeroChk b 44 20

/-- Legality of a steering descriptor (R270, R142). -/
def steerChk (b : List Byte) : List Chk :=
  [ ((16, decide (fld b 16 1 < 4)) : Chk), (17, fld b 17 1 ≤ 2) ] ++ zeroChk b 36 28

/-- The offset of the first field of a descriptor in MU `mu` that holds a reserved value (R240). -/
def descBad (self cores mu : Nat) (scratchOk : Bool) (b : List Byte) : Option Nat :=
  firstBad (headerChk self cores b ++
    match dEng b, dKind b with
    | 0, _ => mxeChk cores b
    | 1, 0 => vwalkChk scratchOk b
    | 1, 1 => vprogChk b
    | 1, _ => vcacheChk b
    | 2, _ => redChk b
    | 3, _ => agChk mu b
    | 4, _ => xfrChk b
    | 5, _ => mcastChk b
    | _, _ => steerChk b)

-- Effective extents and skips (R246, R247, R253)

/-- `min(E, max(0, AL − ORG))` in signed 64-bit arithmetic. -/
def limited (e org al : Nat) : Nat := min e ((al : Int) - org).toNat

/-- Apply the enabled bindings that name dimension d. -/
def effExtent (al : Nat → Nat) (b : List Byte) (d e org : Nat) : Nat :=
  let ap := fun (e : Nat) (off : Nat) => let l := lim b off; if l.en ∧ l.dim = d then limited e org (al l.al) else e
  ap (ap e 13) 14

/-- The effective extents in DIM order: N, M, K of an MXE tile; EXT of a walk, a reduction or an AG program. -/
def effExtents (al : Nat → Nat) (b : List Byte) : List Nat :=
  match dEng b, dKind b with
  | 0, _ => [effExtent al b 0 (fld b 45 1) (mNOrg b), effExtent al b 1 (fld b 44 1) (mMOrg b),
             effExtent al b 2 (mKLen b) (mKStart b)]
  | 1, 0 | 2, _ | 3, _ => (List.range (dNdim b)).map fun d => effExtent al b d (dExt b d) (dOrg b d)
  | _, _ => []

/-- Whether the descriptor is skipped: an effective extent of 0, or a causal tile wholly beyond the diagonal (R253). -/
def isSkip (b : List Byte) (ext : List Nat) : Bool :=
  ext.any (· = 0) ||
    (dEng b = 0 && bit (fld b 46 1) 1 &&
      decide (((if bit (fld b 46 1) 2 then mKStart b else mNOrg b : Nat) : Int) >
        (mMOrg b : Int) + ext.getD 1 0 - 1 + signed 32 (fld b 48 4)))

/-- The issue queue of a descriptor (R221): engines by number, the AGs of the MU that holds it, or the STU it names. -/
def queueKey (b : List Byte) (mu : Nat) : Nat :=
  match dEng b with
  | 3 => 8 + mu
  | 6 => 16 + fld b 16 1
  | e => e

/-- Depth of each issue queue. -/
def queueDepth (eng : Nat) : Nat := if eng ≤ 2 then 4 else if eng = 3 then 8 else if eng = 4 then 16 else 2

-- Element addresses within a stream (R258, R260)

/-- Row index of a multi-index (dimensions 1 and up) over the declared extents. -/
def rowIndex (b : List Byte) : Nat → List Nat → Nat
  | _, [] => 0
  | d, i :: t => i + dExt b d * rowIndex b (d + 1) t

/-- The core address of a byte range that holds element (r, j), for formats of whole bytes. -/
def Strm.elemAddr (t : Strm) (r j : Nat) : Nat := t.addr + (if t.p1 = 0 then 0 else r) * t.p1 * 64 + packed t.fmt j

/-- The core address of the block scale of element (r, j). -/
def Strm.scaleAddr (t : Strm) (e0 r j : Nat) : Nat := t.saddr + (if t.p1 = 0 then 0 else r) * t.spitch e0 + j / 32

-- Walks and what their beats wait for (R89, R97 to R99)

/-- The product of extents. -/
def prodOf (l : List Nat) : Nat := l.foldl (· * ·) 1

/-- Effective dimension-0 extent. -/
def QDesc.e0 (d : QDesc) : Nat := d.ext.getD 0 0

/-- Effective rows of a walk. -/
def QDesc.rows (d : QDesc) : Nat := prodOf (d.ext.drop 1)

/-- Beats of a row (R99). -/
def beatsPerRow (d : QDesc) : Nat := cdiv d.e0 64

/-- The beats of a walk. -/
def beatCount (d : QDesc) : Nat := d.rows * beatsPerRow d

/-- AG of a program. -/
def agSel (b : List Byte) : Nat := fld b 16 1 % 2
/-- First thread. -/
def agThread (b : List Byte) : Nat := bits (fld b 16 1) 3 1
/-- Threads. -/
def agThreads (b : List Byte) : Nat := bits (fld b 16 1) 6 4 + 1

/-- The program that a stream block with AGP names (R258, R266). -/
def agOf (x : Core) (t : Strm) : Option AgRun :=
  x.ags.find? fun g => g.mu = t.addr / muBytes ∧ g.ag = t.ag ∧ agThread g.desc.bytes = t.thread

/-- Whether a stream is enabled and names a program. -/
def Strm.named (t : Strm) : Bool := t.en && t.agp

/-- The input streams of a walk. -/
def walkIns (b : List Byte) : List Strm := [strm b 52, strm b 68, strm b 84]

/-- Whether a program names source T in an op's operands. -/
def namesT (prog : List Byte) : Bool := (List.range 8).any fun i => (stage prog i).names 6

/-- The tile buffers a walk claims as scratch (R98). -/
def scratchOf (b : List Byte) : List Nat := (List.range 4).filter fun i => bit (fld b 17 1) (4 + i)

/-- A reel of the VCE. -/
def vceReel (x : Core) (r : Nat) : GenReel := tget {} x.vce.reels r

end Sys2Proof.Machine
end

