-- ==== Sys2Proof/Machine/Reel.lean ====
section
/-! DEFINITION. The reels of the core sequencer: registers, the PC, what an instruction at the PC waits for, and which reel issues next
(R204, R205, R208, R216, R229, R233). -/
namespace Sys2Proof.Machine

open Sys2Proof

-- Reels

/-- A scalar register; s0 reads as zero (R205). -/
def Reel.get (r : Reel) (n : Nat) : W64 := if n = 0 then 0 else tget 0 r.regs n

/-- Write a scalar register; a write to s0 is discarded (R205). -/
def Reel.set (r : Reel) (n : Nat) (v : W64) : Reel := if n = 0 then r else { r with regs := tset 0 r.regs n v }

/-- A predicate; p0 reads as 1 (R205). -/
def Reel.pred (r : Reel) (n : Nat) : Bool := n = 0 || r.preds.getLsbD n

/-- Write a predicate; a write to p0 is discarded (R205). -/
def Reel.setPred (r : Reel) (n : Nat) (v : Bool) : Reel :=
  if n = 0 then r else { r with preds := if v then r.preds ||| (1#8 <<< n) else r.preds &&& ~~~(1#8 <<< n) }

/-- Whether an instruction executes: p[PR] xor PN (R208). -/
def Reel.executes (r : Reel) (q : Issue) : Bool := r.pred q.pr != q.pn

/-- The 15 bits that a PC shows (R204). DEDUCED: a reel that runs past word 32,767 has left the loaded code (R231), and its PC counts on to
32,768 for as long as it takes to trap (log 67). -/
def pcMod (n : Nat) : Nat := n % 32768

/-- A branch target: PC plus a signed offset. -/
def target (pc : Nat) (off : BitVec 19) : Nat := ((pc + off.toInt) % 32768).toNat

/-- The end of an instruction of `words` words without a taken branch (R216): the innermost loop whose last word it is
starts its next iteration or is popped; otherwise the PC moves on. -/
def Reel.next (r : Reel) (words : Nat) : Reel :=
  match r.loops with
  | l :: t =>
    if l.last = r.pc + words - 1 then
      if l.iter + 1 < l.count then
        { (r.set l.idx (BitVec.ofNat 64 (l.iter + 1))) with pc := l.first, loops := { l with iter := l.iter + 1 } :: t }
      else { r with pc := r.pc + words, loops := t }
    else { r with pc := r.pc + words }
  | [] => { r with pc := r.pc + words }

-- Issue (R233)

/-- The running reel of a core. -/
def runningReel (s : State) (c : Nat) : Reel := reelOf (core s c) (core s c).running

/-- Change the running reel of a core. -/
def modRunning (s : State) (c : Nat) (f : Reel → Reel) : State :=
  modCore s c fun x => withReel x x.running (f (reelOf x x.running))

/-- The instruction whose words stand at a reel's PC (R203). -/
def fetched (x : Core) (c : Nat) (r : Reel) : Option Instr := finlenDecode c (x.code.getD r.pc 0) (x.code.getD (r.pc + 1) 0)

/-- Whether a scalar register of a reel awaits a counter's answer (R224, R233). -/
def pendingReg (x : Core) (reel n : Nat) : Bool := n ≠ 0 && x.ctrReqs.any fun r => r.reel = reel ∧ r.rd = n ∧ ¬ r.killed

/-- The address that an ISSUE names. -/
def issueAddr (k : Reel) (ra off : Nat) : Nat := (k.get ra + BitVec.ofNat 64 (64 * off)).toNat

/-- The queue that an ISSUE to an engine goes to, for a descriptor at an address (R221). DEDUCED (log 36): with ENG 6 it waits for the queue of
the engine and unit in the header, which step 4 has not yet compared with ENG. -/
def issueQueue (s : State) (c eng a : Nat) (size : Bool) : Nat :=
  queueKey (if eng = 6 then sramReads s c a (if size then 128 else 64) else [BitVec.ofNat 8 eng]) (a / muBytes)

/-- Whether a reel other than reel 0 is started. -/
def othersStarted (x : Core) : Bool := (List.range 7).any fun i => (reelOf x (i + 1)).started

/-- Whether an instruction can issue as far as queues go (R229): an ISSUE needs a place in its queue, unless it traps; a WAIT is not the
33rd waiter of its counter (R131); a TEND of reel 0 needs the other reels to have ended (R231). One that does not execute needs nothing. -/
def queueRoom (s : State) (c r : Nat) (k : Reel) : Instr → Bool
  | .issue q ra eng size off =>
    let a := issueAddr k ra off
    !k.executes q || decide (¬(isCoreAddr a ∧ a % 64 = 0 ∧ inMu a (if size then 128 else 64))) ||
      decide ((queueOf (core s c) (issueQueue s c eng a size)).length < queueDepth eng)
  | .wait q mu ctr _ => !k.executes q || decide ((barOf (core s c) mu ctr).waiters.length < 32)
  | .tend q => !k.executes q || decide (r ≠ 0) || !othersStarted (core s c)
  | _ => true

/-- Whether a reel has input (R229): started, not held, and its next instruction can issue. -/
def hasInput (s : State) (c r : Nat) : Bool :=
  let k := reelOf (core s c) r
  k.started && k.hold = .free &&
    match fetched (core s c) c k with
    | some i => (i.uses.all fun n => !pendingReg (core s c) r n) && queueRoom s c r k i
    | none => true

/-- The next reel with input in round-robin order above the running one (R153). -/
def nextReel (s : State) (c : Nat) : Option Nat :=
  ((List.range 7).map fun i => ((core s c).running + 1 + i) % 8).find? (hasInput s c)

end Sys2Proof.Machine
end

