-- ==== Sys2Proof/Machine/Walk.lean ====
section
/-! DEFINITION. Walk geometry shared by the VCE, RED and the address generators (R99, R260), the elements of AG programs (R265, R266), and
what a beat waits for (R89). -/
namespace Sys2Proof.Machine

open Sys2Proof

-- Geometry (R260)

/-- The multi-index of a position over extents, the first innermost. -/
def unflat : List Nat → Nat → List Nat
  | [], _ => []
  | e :: t, r => r % e :: unflat t (r / e)

/-- The indices of dimensions 1 and up of a row, by its place in the walk. -/
def QDesc.rowIdx (d : QDesc) (r : Nat) : List Nat := unflat (d.ext.drop 1) r

/-- The linear row index over the declared extents (R258). -/
def QDesc.rowLin (d : QDesc) (r : Nat) : Nat := rowIndex d.bytes 1 (d.rowIdx r)

/-- The linear index of element (row, j) over the declared extents (R260). -/
def QDesc.lin (d : QDesc) (r j : Nat) : Nat := j + dExt d.bytes 0 * d.rowLin r

-- AG programs (R265, R266)

/-- Whether BUF is enabled. -/
def agBuf (b : List Byte) : Bool := bit (fld b 92 4) 31
/-- Whether each read is a guarded prefetch. -/
def agGuard (b : List Byte) : Bool := bit (fld b 17 1) 3
/-- Element size in bytes. -/
def agEsize (b : List Byte) : Nat := 2 ^ fld b 18 1
/-- Signed byte stride of a dimension. -/
def agStride (b : List Byte) (d : Nat) : Int := signed 32 (fld b (52 + 4 * d) 4)

/-- The multi-index of element n of a program's stream, over its declared extents (R260). -/
def agIndex (b : List Byte) (n : Nat) : List Nat := unflat ((List.range (dNdim b)).map (dExt b)) n

/-- Row and column of a multi-index over the effective extents; none beyond them (R248). -/
def QDesc.inExt (d : QDesc) (idx : List Nat) : Option (Nat × Nat) :=
  if (idx.zip d.ext).all fun e => decide (e.1 < e.2) then
    some (((idx.drop 1).zip (d.ext.drop 1)).foldr (fun e a => e.1 + e.2 * a) 0, idx.headD 0)
  else none

/-- Row and column of the n-th element of a program's stream; none for one beyond its effective extents. -/
def agPlace (d : QDesc) (n : Nat) : Option (Nat × Nat) := d.inExt (agIndex d.bytes n)

/-- The elements of a program's stream. -/
def agCount (b : List Byte) : Nat := prodOf ((List.range (dNdim b)).map (dExt b))

/-- Whether every row of an affine program begins on a granule. -/
def agAligned (b : List Byte) : Bool := fld b 20 8 % 64 = 0 && (List.range (dNdim b - 1)).all fun d => decide (agStride b (d + 1) % 64 = 0)

/-- Elements that one request covers: of a row whose elements lie one behind the other as many as its REQ bytes of whole granules hold
wherever the row begins, else one element. The spec does not say how a program's elements share a request: DESIGN CHOICE (log 74). -/
def readElems (b : List Byte) : Nat :=
  let n := 64 * 2 ^ fld b 19 1
  if dKind b = 0 ∧ agStride b 0 = agEsize b then max 1 ((if agAligned b then n else n - 64) / agEsize b) else 1

/-- Requests of a row. -/
def rowReads (d : QDesc) : Nat := cdiv d.e0 (readElems d.bytes)

/-- The requests of a program, in stream order: `rowReads` for each row. -/
def agReads (d : QDesc) : Nat := d.rows * rowReads d

/-- Element n of a program's stream: zero beyond its effective extents, none while its read has not returned. -/
def agElem (g : AgRun) (n : Nat) : Option (List Byte) :=
  let b := g.desc.bytes
  match agPlace g.desc n with
  | none => some (zeros (agEsize b))
  | some (row, j) =>
    (g.got.find? fun e => e.1 = row * rowReads g.desc + j / readElems b).map fun e => slice e.2 (j % readElems b * agEsize b) (agEsize b)

/-- Where the data of read k of a program with BUF go: packed, each row of the declared extents on a 64 B boundary (R266). -/
def bufAddr (d : QDesc) (k : Nat) : Nat :=
  let b := d.bytes
  bits (fld b 92 4) 23 0 + d.rowLin (k / rowReads d) * (cdiv (dExt b 0 * agEsize b) 64 * 64) +
    k % rowReads d * readElems b * agEsize b

-- Where a descriptor's output lies in its core's SRAM (R131, R244)

/-- The ranges of a stream that rows of a walk write straight into an MU; a V1 stream packs by declared index. -/
def strmRanges (d : QDesc) (t : Strm) : List (Nat × Nat) :=
  if !t.en || t.agp then []
  else if t.fmt = 9 then [(t.addr, cdiv (dExt d.bytes 0 * dRows d.bytes) 8)]
  else (List.range d.rows).map fun r => (t.addr + (if t.p1 = 0 then 0 else d.rowLin r) * t.p1 * 64, packed t.fmt d.e0)

/-- The ranges that a tile's drain, a walk, a program with BUF, a LOAD or an RREAD writes. -/
def outRanges (d : QDesc) : List (Nat × Nat) :=
  let b := d.bytes
  match dEng b, dKind b with
  | 0, _ =>
    let a := bits (fld b 84 4) 23 0
    match mDrain b with
    | 1 => (List.range (d.ext.getD 1 0)).map fun i => (a + i * fld b 88 2 * 64, packed (mFmtOut b) (d.ext.getD 0 0))
    | 2 => [(a, 67584)]
    | _ => []
  | 1, 0 => strmRanges d (strm b 100)
  | 3, _ => if agBuf b then (List.range (agReads d)).map fun k => (bufAddr d k, readElems b * agEsize b) else []
  | 4, _ => if bits (fld b 16 1) 3 0 = 0 ∨ bits (fld b 16 1) 3 0 = 3 then
      (List.range (fld b 44 4)).map fun r => ((fld b 32 8 + r * fld b 52 4) % 0x1000000, fld b 40 4) else []
  | _, _ => []

-- Streams and beats of a walk (R89, R99)

/-- Whether every program that a walk's streams name runs (R89: a beat waits for its sources). -/
def progsReady (x : Core) (ts : List Strm) : Bool := ts.all fun t => !t.en || !t.agp || (agOf x t).isSome

/-- Whether the elements `ns` of an input stream have arrived (R89): those of a program once its reads have returned. -/
def dataReady (x : Core) (t : Strm) (ns : List Nat) : Bool :=
  !t.named || match agOf x t with | some g => ns.all fun n => (agElem g n).isSome | none => false

/-- A beat of a walk: row in walk order, first column and number of valid lanes. -/
structure BeatPos where
  row : Nat
  j0 : Nat
  valid : Nat
deriving DecidableEq, Repr

/-- The place of beat k. -/
def beatPos (d : QDesc) (k : Nat) : BeatPos :=
  let j0 := 64 * (k % beatsPerRow d)
  { row := k / beatsPerRow d, j0 := j0, valid := min 64 (d.e0 - j0) }

/-- The declared linear indices of a beat's valid lanes (R260). -/
def beatLins (d : QDesc) (p : BeatPos) : List Nat := (List.range p.valid).map fun l => d.lin p.row (p.j0 + l)

/-- Whether a descriptor sets TAP: a VWALK in its TAP byte, a RED descriptor in its flags. -/
def tapOf (b : List Byte) : Bool := if dEng b = 2 then bit (fld b 18 1) 1 else bit (fld b 18 1) 0

/-- The running reduction that taps and is not paired yet (R264). -/
def redOpen (x : Core) : Bool := match x.red.run with | some r => tapOf r.desc.bytes && r.walk.isNone | none => false

/-- Whether the row of its tile buffer that a beat reads is not written yet: while a drain runs, every row but its last counts as written
(R97). DEDUCED: rows are written in order, and a beat stays one row behind (log 38). -/
def rowPending (x : Core) (w : Walk) (p : BeatPos) : Bool :=
  decide (p.row = 127 ∧ w.scratch = []) && match x.mxe.drains with | d :: _ => d.tb.isSome && decide (d.tb = w.tb) | [] => false

/-- What the next beat of a walk waits for (R89): 0 nothing, 1 an operand, 2 space. -/
def beatWaits (x : Core) (w : Walk) : Nat :=
  let b := w.desc.bytes
  let p := beatPos w.desc w.beat
  if beatCount w.desc ≤ w.beat then 0
  else if !progsReady x (walkIns b) || !(walkIns b).all (fun t => dataReady x t (beatLins w.desc p)) || rowPending x w p then 1
  else if !progsReady x [strm b 100] then 2
  else 0

/-- What the VCE waits for instead of issuing (R89, R97, R98, R264). The beat is the next one of the running reel's walk; with no such
walk, the walk at the head of the queue waits to start: for its epilogue entry, its scratch buffers or the reduction that it taps. -/
def vceWait (x : Core) : Nat :=
  match x.vce.walks.find? fun w => dReel w.desc.bytes = tget 0 x.unitReel 1 with
  | some w => beatWaits x w
  | none =>
    match queueOf x 1 with
    | d :: _ =>
      let prog := ((vceReel x (dReel d.bytes)).conf).getD (zeros 128)
      if dKind d.bytes ≠ 0 ∨ d.skip ∨ ¬(d.released ∨ (dStart d.bytes).n = 0) then 0
      else if namesT prog && (scratchOf d.bytes).isEmpty && x.vce.epi.isEmpty then 1
      else if ((scratchOf d.bytes).any fun i => tget 0 x.vce.tbState i ≠ 0) || (tapOf d.bytes && !redOpen x) then 2
      else 0
    | [] => 0

end Sys2Proof.Machine
end

