-- ==== Sys2Proof/Machine/Csr.lean ====
section
/-! DEFINITION. The CSRs (R4 to R8, R516, R517): where each lies, its reset value, what a read returns and what a write
changes. Registers that show other state are computed from it; the rest are stored by address. -/
namespace Sys2Proof.Machine

open Sys2Proof

/-- The registers of R516. Cores are physical numbers `26 d + p`, memories 0-15 stacks and 16-79 packages, update units
0-15 synchronous and 16-79 slow-tier. -/
inductive Reg where
  | idrev
  | drlBoot | drlReset | drlAlert | drlAlertEn | drlSupply | drlFreeze | drlReinit | drlFaultstat
  | drlFault (n : Nat) | drlPcore (i : Nat)
  | pwrCfg | pwrCap | pwrStatus | pwrKc | pwrInput | pwrDie (d : Nat)
  | cinCfg | cinStream (n : Nat) | cinSeq (n : Nat) | lgbStatus | lgbLive | lgbStoreFree
  | cinProg (n : Nat) | cinBound (n : Nat) | cinPlat (n : Nat)
  | netCfg | netEpoch | netIp (i : Nat) | netCc0 | netCc1 | netPort (p : Nat) | netQp (q : Nat)
  | cenCfg | cenStep | cenStatus | cenLate | cenRun (r : Nat)
  | calCfg | calIf (i : Nat) | calTag (t : Nat)
  | csqCfg (c : Nat) | csqStatus (c : Nat) | csqTrap (c : Nat) | csqTrapPc (c : Nat) | csqTrapVal (c : Nat)
  | csqTakeCyc (c : Nat) | csqPlace (c : Nat) | csqTake (c : Nat) | csqCut (c : Nat) | csqEpoch (c : Nat)
  | csqStepNo (c : Nat) | csqAl (c n : Nat)
  | mxeCfg (c : Nat) | mxeStatus (c : Nat) | mxeErr (c : Nat)
  | vceCfg (c : Nat) | vceStatus (c : Nat) | vceErr (c : Nat)
  | redStatus (c : Nat) | redErr (c : Nat)
  | muCfg (c m : Nat) | muAgcfg (c m a : Nat) | muStatus (c m : Nat) | muErr (c m : Nat) | barCnt (c m n : Nat)
  | fabCfg (c : Nat) | fabStatus (c : Nat) | stuStatus (c k : Nat)
  | ttStat (d : Nat) | wkc (n : Nat)
  | memCfg (k : Nat) | memStatus (k : Nat) | memErr (k : Nat) | poolFree (k : Nat) | lpcFill (k : Nat)
  | upuCfg (u : Nat) | upuStatus (u : Nat)
  | pwrCore (i : Nat)
  | obsCfg (d : Nat) | obsRing (d : Nat) | obsHead (d : Nat) | obsLost (d : Nat) | obsPt (d i : Nat)
  | frzCfg | frzDailies
  | secFuse | secFwSlot (s : Nat) | secAttest | secDigest (i : Nat) | secPkhash (i : Nat)
  | evt
  | freeEvt
  | stall (listed : Bool)
deriving DecidableEq, Repr

/-- The index of an array element at an address, if it is one. -/
def arr (a base stride n : Nat) : Option Nat :=
  if base ≤ a ∧ (a - base) % stride = 0 ∧ (a - base) / stride < n then some ((a - base) / stride) else none

-- Block bases

/-- The block of a physical core. -/
def coreBase (c : Nat) : Nat := 0x01000000 + c / 26 * 0x01000000 + c % 26 * 0x80000
/-- The common block of a C-die. -/
def dieBase (d : Nat) : Nat := 0x01000000 + d * 0x01000000 + 0x00F00000
/-- The block of an H-die. -/
def hubBase (h : Nat) : Nat := 0x09000000 + h * 0x01000000
/-- The block of a memory controller. -/
def memBase (k : Nat) : Nat :=
  if k < 16 then dieBase (k / 2) + 0x40000 + k % 2 * 0x1000 else hubBase ((k - 16) / 32) + (k - 16) % 32 * 0x1000
/-- The block of an update unit. -/
def upuBase (u : Nat) : Nat :=
  if u < 16 then dieBase (u / 2) + 0x40800 + u % 2 * 0x1000 else hubBase ((u - 16) / 32) + 0x400000 + (u - 16) % 32 * 0x100
/-- CSQ block. -/
def csqBase (c : Nat) : Nat := coreBase c + 0x8000
/-- MXE block. -/
def mxeBase (c : Nat) : Nat := coreBase c + 0x10000
/-- VCE block. -/
def vceBase (c : Nat) : Nat := coreBase c + 0x18000
/-- RED block. -/
def redBase (c : Nat) : Nat := coreBase c + 0x20000
/-- MU block. -/
def muBase (c m : Nat) : Nat := coreBase c + 0x30000 + m * 0x8000
/-- Address of CSQ_AL[n]. -/
def alAddr (c n : Nat) : Nat := csqBase c + 0x80 + 8 * n

/-- The causes of R505 that a unit of a core counts, in the unit numbers of R507: CSQ, MXE, VCE, RED, the MUs, XFR, router. -/
def stallCauses (u : Nat) : List Nat :=
  match u with
  | 0 => [0, 1, 2, 3, 5, 6, 7, 0xA, 0xB]
  | 1 => [0, 1, 3, 8, 0xA]
  | 2 => [0, 1, 2, 3, 0xA, 0xB]
  | 3 => [1, 3]
  | 8 => [1, 3, 4, 5, 6, 7, 9, 0xA]
  | 9 => [0, 1, 2, 3, 4, 0xA]
  | _ => [0, 1, 2, 3, 4, 5, 6, 7, 9, 0xA, 0xB]

/-- The causes that an update unit counts (R505). -/
def updateCauses : List Nat := [5, 6, 9, 0xA]

/-- The causes that a collective engine counts (R505). -/
def engineCauses : List Nat := [6, 0xA]

/-- The stall counter of a unit at an index of a block of R507, whose causes are given; codes from 0xC on are no address. -/
def stallReg (causes : Nat → List Nat) (i : Nat) : Option Reg :=
  if i % 16 < 12 then some (.stall (decide (i % 16 ∈ causes (i / 16)))) else none

/-- Registers of a core's 512 KiB block by offset. -/
def coreReg (c o : Nat) : Option Reg :=
  if o < 0x8000 then none
  else if o < 0x10000 then
    match o - 0x8000 with
    | 0x00 => some (.csqCfg c) | 0x08 => some (.csqStatus c) | 0x10 => some (.csqTrap c) | 0x18 => some (.csqTrapPc c)
    | 0x20 => some (.csqTrapVal c) | 0x28 => some (.csqTakeCyc c) | 0x30 => some (.csqPlace c) | 0x38 => some (.csqTake c)
    | 0x40 => some (.csqCut c) | 0x48 => some .evt | 0x50 => some (.csqEpoch c) | 0x58 => some (.csqStepNo c)
    | x => (arr x 0x80 8 16).map (.csqAl c)
  else if o < 0x18000 then
    match o - 0x10000 with
    | 0x00 => some (.mxeCfg c) | 0x08 => some (.mxeStatus c) | 0x10 => some (.mxeErr c)
    | x => (arr x 0x18 8 4).map fun _ => .evt
  else if o < 0x20000 then
    match o - 0x18000 with
    | 0x00 => some (.vceCfg c) | 0x08 => some (.vceStatus c) | 0x10 => some (.vceErr c)
    | x => (arr x 0x18 8 4).map fun _ => .evt
  else if o < 0x30000 then
    match o - 0x20000 with
    | 0x00 => some (.redStatus c) | 0x08 => some (.redErr c)
    | x => (arr x 0x10 8 2).map fun _ => .evt
  else if o < 0x50000 then
    let m := (o - 0x30000) / 0x8000
    match (o - 0x30000) % 0x8000 with
    | 0x00 => some (.muCfg c m) | 0x08 => some (.muAgcfg c m 0) | 0x10 => some (.muAgcfg c m 1)
    | 0x18 => some (.muStatus c m) | 0x20 => some (.muErr c m)
    | x => match arr x 0x28 8 5 with
      | some i => some (if i = 0 ∨ i = 3 then .freeEvt else .evt)
      | none => (arr x 0x400 8 64).map (.barCnt c m)
  else if o < 0x60000 then
    match o - 0x50000 with
    | 0x00 => some (.fabCfg c) | 0x08 => some (.fabStatus c)
    | x => (arr x 0x10 8 4).map (.stuStatus c)
  else (arr (o - 0x60000) 0 8 160).bind (stallReg stallCauses)

/-- Memory and unit registers of one controller block: `n` 0 HBC, 1 LPC. -/
def memReg (k o : Nat) : Option Reg :=
  match o with
  | 0x00 => some (.memCfg k) | 0x08 => some (.memStatus k) | 0x10 => some (.memErr k)
  | 0x38 => some (.poolFree k)
  | 0x40 => if k < 16 then none else some (.lpcFill k)
  | x => (arr x 0x18 8 4).map fun _ => .evt

/-- Registers of an update unit's block. -/
def upuReg (u o : Nat) : Option Reg :=
  match o with
  | 0x00 => some (.upuCfg u) | 0x08 => some (.upuStatus u) | 0x10 => some .evt | 0x18 => some .evt
  | _ => none

/-- Registers of a die common block by offset. -/
def dieReg (d o : Nat) : Option Reg :=
  if o = 0x10000 then some (.ttStat d)
  else if o = 0x20200 then some .evt
  else match arr o 0x20000 8 64 with
    | some i => some (.wkc (64 * d + i))
    | none =>
      if 0x40000 ≤ o ∧ o < 0x42000 then
        let k := 2 * d + (o - 0x40000) / 0x1000
        let x := (o - 0x40000) % 0x1000
        if x < 0x800 then memReg k x else upuReg k (x - 0x800)
      else match arr o 0x50000 8 26 with
        | some p => some (.pwrCore (26 * d + p))
        | none => (arr o 0x60000 8 32).bind (stallReg fun _ => updateCauses)

/-- Registers of an H-die's block by offset. -/
def hubReg (h o : Nat) : Option Reg :=
  if o < 0x20000 then memReg (16 + 32 * h + o / 0x1000) (o % 0x1000)
  else if 0x400000 ≤ o ∧ o < 0x402000 then upuReg (16 + 32 * h + (o - 0x400000) / 0x100) ((o - 0x400000) % 0x100)
  else if o = 0x800800 then some .evt
  else match arr o 0x800000 8 256 with
    | some i => some (.wkc (512 + 256 * h + i))
    | none => (arr o 0xA00000 8 528).bind (stallReg fun u => if u = 32 then engineCauses else updateCauses)

/-- Device-wide registers below the dies. -/
def devReg (a : Nat) : Option Reg :=
  match a with
  | 0 => some .idrev
  | 0x100000 => some .drlBoot | 0x100008 => some .drlReset | 0x100010 => some .drlAlert | 0x100018 => some .drlAlertEn
  | 0x100020 => some .drlSupply | 0x100028 => some .drlFreeze | 0x100030 => some .drlReinit | 0x100038 => some .drlFaultstat
  | 0x140000 => some .pwrCfg | 0x140008 => some .pwrCap | 0x140010 => some .pwrStatus | 0x140018 => some .pwrKc
  | 0x140020 => some .pwrInput | 0x140028 => some .evt | 0x140030 => some .evt
  | 0x200000 => some .cinCfg
  | 0x208000 => some .lgbStatus | 0x208008 => some .lgbLive | 0x208010 => some .lgbStoreFree | 0x208018 => some .evt
  | 0x208020 => some .evt
  | 0x400000 => some .netCfg | 0x400008 => some .netEpoch | 0x400030 => some .netCc0 | 0x400038 => some .netCc1
  | 0x420000 => some .cenCfg | 0x420008 => some .cenStep | 0x420010 => some .cenStatus | 0x420018 => some .cenLate
  | 0x800000 => some .calCfg
  | a =>
    if a < 0x200000 then
      match arr a 0x101000 8 256, arr a 0x102000 8 208, arr a 0x140100 8 10 with
      | some n, _, _ => some (.drlFault n)
      | _, some i, _ => some (.drlPcore i)
      | _, _, some d => some (.pwrDie d)
      | _, _, _ => none
    else if a < 0x400000 then
      match arr a 0x200010 8 8, arr a 0x201000 8 512, arr a 0x210000 8 512, arr a 0x212000 8 256 with
      | some _, _, _, _ => some .evt
      | _, some i, _, _ => some (if i % 2 = 0 then .cinStream (i / 2) else .cinSeq (i / 2))
      | _, _, some i, _ => some (if i % 2 = 0 then .cinProg (i / 2) else .cinBound (i / 2))
      | _, _, _, some n => some (.cinPlat n)
      | _, _, _, _ => none
    else if a < 0x800000 then
      match arr a 0x400010 8 4, arr a 0x400100 8 20, arr a 0x400200 8 7, arr a 0x410000 8 4352 with
      | some i, _, _, _ => some (.netIp i)
      | _, some p, _, _ => some (.netPort p)
      | _, _, some _, _ => some .evt
      | _, _, _, some q => some (.netQp q)
      | _, _, _, _ =>
        match arr a 0x420100 8 16, arr a 0x420200 8 7 with
        | some r, _ => some (.cenRun r)
        | _, some _ => some .evt
        | _, _ => none
    else
      match arr a 0x800010 8 4, arr a 0x801000 8 216, arr a 0x808008 8 4095 with
      | some _, _, _ => some .evt
      | _, some i, _ => some (.calIf i)
      | _, _, some t => some (.calTag (t + 1))
      | _, _, _ => none

/-- Observability, freeze and security registers. -/
def obsReg (a : Nat) : Option Reg :=
  match a with
  | 0x0C000000 => some .frzCfg | 0x0C000008 => some .frzDailies | 0x0C000010 => some .evt | 0x0C000018 => some .evt
  | 0x0C001000 => some .secFuse | 0x0C001008 => some (.secFwSlot 0) | 0x0C001010 => some (.secFwSlot 1)
  | 0x0C001018 => some .secAttest
  | a =>
    match arr a 0x0B000000 8 10, arr a 0x0B000100 8 10, arr a 0x0B000200 8 10, arr a 0x0B000300 8 10 with
    | some d, _, _, _ => some (.obsCfg d)
    | _, some d, _, _ => some (.obsRing d)
    | _, _, some d, _ => some (.obsHead d)
    | _, _, _, some d => some (.obsLost d)
    | _, _, _, _ =>
      match arr a 0x0B001000 8 640, arr a 0x0C001020 8 4, arr a 0x0C001040 8 8 with
      | some i, _, _ => some (.obsPt (i / 64) (i % 64))
      | _, some i, _ => some (.secDigest i)
      | _, _, some i => some (.secPkhash i)
      | _, _, _ => none

/-- The register at an aligned address of CSR space (R7, R516); every other offset is undefined. -/
def regAt (a : Nat) : Option Reg :=
  if a % 8 ≠ 0 then none
  else if a < 0x01000000 then devReg a
  else if a < 0x09000000 then
    let d := a / 0x01000000 - 1
    let o := a % 0x01000000
    if o < 0xD00000 then coreReg (26 * d + o / 0x80000) (o % 0x80000)
    else if o < 0xF00000 then none
    else dieReg d (o - 0xF00000)
  else if a < 0x0B000000 then hubReg (a / 0x01000000 - 9) (a % 0x01000000)
  else obsReg a

/-- Reset values of stored registers; a computed register's word is 0. -/
def Reg.reset : Reg → W64
  | .idrev => 0x484A088001000000
  | .drlAlertEn => 0xFF
  | .drlFault _ => 0x00FFFF0000000000
  | .pwrCfg => 0x0064003269050003
  | .pwrCap => 3800
  | .cinCfg => 1000
  | .netCfg => 0x30B
  | .netCc0 => 0x00320037012C1785
  | .netCc1 => 0x0000003201F4000A
  | .cenCfg => 30000
  | .calCfg => 0x00060207
  | .calTag _ => 0x3C20000000000000
  | .csqCfg _ => 16
  | .mxeCfg _ => 1
  | .vceCfg _ => 3
  | .muCfg _ _ => 1
  | .muAgcfg _ _ _ => 0x10FF
  | .fabCfg _ => 24
  | .memCfg k => BitVec.ofNat 64 (100 * 2 ^ 32 + (if k < 16 then 2000 else 500) * 2 ^ 16 + 1)
  | .upuCfg _ => 256
  | .obsCfg _ => 0x1000
  | .obsHead _ => 1
  | .frzCfg => 0x5
  | .frzDailies => 0x10000FFE00000000
  | _ => 0

/-- Registers whose stored word outlives a warm reset (R5 and the defining chapters). -/
def Reg.warm : Reg → Bool
  | .drlReset | .drlAlert | .drlFreeze | .drlFaultstat | .drlFault _ | .drlPcore _ | .pwrKc
  | .cinStream _ | .cinSeq _ | .lgbStatus | .lgbLive | .lgbStoreFree | .cinProg _ | .cinBound _ | .cinPlat _
  | .netEpoch | .netIp _ | .netPort _ | .netQp _ | .cenStep | .cenStatus | .cenLate | .cenRun _
  | .calIf _ | .calTag _ | .ttStat _ | .memStatus _ | .poolFree _ | .lpcFill _ | .upuStatus _
  | .obsCfg _ | .obsRing _ | .obsPt _ _ | .obsHead _ | .frzDailies | .secAttest
  | .idrev | .secFuse | .secPkhash _ => true
  | _ => false

/-- The reset word at an address. -/
def regReset (a : Nat) : W64 := match regAt a with | some r => r.reset | none => 0

/-- The stored word at an address. -/
def cget (s : State) (a : Nat) : W64 := tget (regReset a) s.csr a

/-- Store a word at an address. -/
def cset (s : State) (a : Nat) (v : W64) : State := { s with csr := tset (regReset a) s.csr a v }

/-- Set bits `hi:lo` of a stored word. -/
def cput (s : State) (a hi lo v : Nat) : State := cset s a (wput (cget s a) hi lo v)

/-- Set stored bits to one. -/
def corr (s : State) (a : Nat) (v : W64) : State := cset s a (cget s a ||| v)

/-- Add to a 48-bit event counter, which wraps. -/
def bump (s : State) (a n : Nat) : State := cset s a (BitVec.ofNat 64 (((cget s a).toNat + n) % 2 ^ 48))

-- Views

/-- Whether an AG program runs on a thread: THREAD to THREAD + NTHR − 1 (R265). -/
def agUses (g : AgRun) (t : Nat) : Bool :=
  let x := fld g.desc.bytes 16 1
  bits x 3 1 ≤ t && t ≤ bits x 3 1 + bits x 6 4

/-- The live entries of a stream. -/
def liveOf (s : State) (n : Nat) : List Entry := s.intake.log.filter fun e => e.stream = n

/-- Whether an entry still lacks its Final completion. -/
def Entry.unfinished (e : Entry) : Bool := e.state = .accepted || e.state = .running

/-- HEAD: the lowest sequence number without a Final completion (R308). -/
def headOf (s : State) (n : Nat) : Nat :=
  ((liveOf s n).filter Entry.unfinished).foldl (fun m e => min m e.seq) (stream s n).next

/-- Words from fields `(value, lo)`. -/
def pack (l : List (Nat × Nat)) : W64 := BitVec.ofNat 64 (l.foldl (fun a f => a + f.1 * 2 ^ f.2) 0)

/-- A Bool as a bit. -/
def b2n (b : Bool) : Nat := if b then 1 else 0

/-- Stream state codes. -/
def StreamState.code : StreamState → Nat
  | .closed => 0 | .idle => 1 | .running => 2 | .waiting => 3 | .halted => 4 | .closing => 5
/-- Slot state codes. -/
def SlotState.code : SlotState → Nat
  | .empty => 0 | .loading => 1 | .placed => 2 | .running => 3 | .moving => 4 | .waiting => 5
/-- Queue-pair state codes. -/
def QpState.code : QpState → Nat
  | .reset => 0 | .ready => 1 | .migrating => 2 | .error => 3
/-- Port state codes. -/
def PortState.code : PortState → Nat
  | .down => 0 | .training => 1 | .up => 2 | .disabled => 3
/-- Memory state codes. -/
def MemState.code : MemState → Nat
  | .training => 0 | .ready => 1 | .selfRefresh => 2 | .failed => 3
/-- Core power state codes. -/
def PowerState.code : PowerState → Nat
  | .run => 0 | .idle => 1 | .nap => 2 | .off => 3
/-- Physical core state codes. -/
def PcState.code : PcState → Nat
  | .mapped => 0 | .spare => 1 | .fenced => 2 | .testing => 3 | .retired => 4
/-- Freeze state codes. -/
def FrzState.code : FrzState → Nat
  | .running => 0 | .stopping => 1 | .frozen => 2 | .reading => 3 | .thawing => 4 | .resetting => 5 | .halted => 6
/-- Boot phase codes. -/
def Phase.code : Phase → Nat
  | .rom => 1 | .firmware => 2 | .clocks => 3 | .links => 4 | .memory => 5 | .logbook => 6 | .ready => 7 | .warm => 8
  | .flushing => 9 | .flushed => 10 | .bootFail => 11

/-- Granules of a commit list (R302). -/
def CommitList.granules (c : CommitList) : Nat := 2 + cdiv c.indices.length 512

/-- Pool regions of a memory neither taken nor reserved (R189, R192); those of a failed memory leave use (R177). -/
def poolFreeOf (s : State) (k : Nat) : Nat :=
  let lo := ctlBase k / 0x10000
  let hi := lo + ctlSize k / 0x10000
  let mine := s.regions.filter fun e => lo ≤ e.1 ∧ e.1 < hi
  let gone := (mine.filter fun e => regionDefault e.1 = 1).length
  let come := (mine.filter fun e => e.2 = 1).length
  if (ctl s k).state = .failed then 0 else (if k < 16 then 0 else 65536) + come - gone - (ctl s k).reserved

/-- The handle of a slot's generation. -/
def handleOf (n : Nat) (x : Slot) : Nat := n + x.gen * 256

/-- The newest step the collective engines hold state for. -/
def newestStep (s : State) : Option StepSt :=
  s.cen.steps.foldl (fun a x => match a with | none => some x | some y => if y.step < x.step then some x else some y) none

/-- Capping levels of a die, class 0 fill, 1 plain, 2 deadline. -/
def levelOf (s : State) (d k : Nat) : Nat := tget 0 s.pwr.levels (3 * d + k)

/-- Whether the fast clocks have run since the last reset of the logic, so that counters of time and of chance may have counted (R5). -/
def counting (s : State) : Bool :=
  match s.drl.phase with
  | .links | .memory | .logbook | .ready | .flushing | .flushed => true
  | .warm => !s.drl.started
  | _ => false

/-- Whether an engine's own affine stream may run on a thread of an MU (R126): a walk, a tile, a reduction or a transfer works there. Which
threads the loader gave it is open: MU_STATUS then shows a free bit for each (DESIGN CHOICE, log 3). -/
def affineOn (x : Core) (m : Nat) : Bool :=
  let on := fun (a : Nat) => decide (a / muBytes = m)
  x.vce.walks.any (fun w => (strm w.desc.bytes 100 :: walkIns w.desc.bytes).any fun t => t.en && !t.agp && on t.addr) ||
    x.mxe.pass.isSome || !x.mxe.drains.isEmpty || x.red.run.isSome || !x.xfrs.isEmpty || !x.mcasts.isEmpty

/-- Line rate of a port in units of 100 Mb/s (R348). -/
def lineRate (p : Nat) : Rat := if p < 4 then 2000 else 8000

/-- What a read of a register returns (R4). -/
def regView (s : State) (a : Nat) (r : Reg) : W64 :=
  let w := cget s a
  match r with
  | .drlBoot => wput (wput w 63 56 s.drl.phase.code) 40 40 s.sec.slot
  | .drlSupply => wput w 33 33 (b2n !s.drl.pwrFailN)
  | .drlFreeze => wput (wput (wput w 63 61 s.drl.frz.code) 60 59 s.drl.frzCause) 58 57 s.drl.frzScope
  | .drlReinit => 0
  | .drlFaultstat => wput w 48 48 (b2n s.drl.standby)
  | .drlPcore i => let p := pcoreOf s i; pack [(p.fences % 256, 16), (p.lcore, 8), (p.state.code, 0)]
  | .pwrStatus =>
    let lv := (List.range 30).map fun i => tget 0 s.pwr.levels i
    let hot := (List.range 10).any fun d => wbits (cget s (0x140100 + 8 * d)) 23 16 ≥ wbits (cget s 0x140000) 31 24
    w ||| pack [(b2n (lv.any (0 < ·)), 7), (b2n hot, 5), (lv.foldl max 0, 0)]
  | .pwrKc => BitVec.ofNat 64 s.kc
  | .pwrDie d => wput (wput (wput w 11 8 (levelOf s d 2)) 7 4 (levelOf s d 1)) 3 0 (levelOf s d 0)
  | .cinStream n => pack [((stream s n).state.code, 61), ((liveOf s n).length, 52), (headOf s n, 0)]
  | .cinSeq n => BitVec.ofNat 64 (stream s n).next
  | .lgbStatus =>
    pack [(s.intake.copyA, 26), (s.intake.copyB, 20), (wbits w 17 16, 16), (b2n s.intake.rebuild.isSome, 3),
      (b2n (s.intake.copyAok && s.intake.copyBok), 2), (wbits w 1 1, 1)]
  | .lgbLive => BitVec.ofNat 64 s.intake.log.length
  | .lgbStoreFree =>
    BitVec.ofNat 64 (786432 - s.intake.reserved -
      (s.intake.log.foldl (fun a e => a + (e.body.length / 64 - 1) +
        match e.clist with | some c => c.granules | none => 0) 0))
  | .cinProg n =>
    let x := slotOf s n
    if x.state = .empty then pack [(handleOf n x, 48)]
    else pack [(handleOf n x, 48), (x.row, 40), (x.col, 32), (fld x.img 6 1, 24), (fld x.img 7 1, 16), (x.state.code, 0)]
  | .cinBound n => BitVec.ofNat 64 (slotOf s n).bound
  | .cinPlat n => BitVec.ofNat 64 (slotOf s n).plat
  | .netEpoch =>
    pack [((match s.net.current with | some e => e.num | none => 0), 32), ((match s.net.staged with | some e => e.num | none => 0), 0)]
  | .netPort p =>
    let x := port s p
    pack [(b2n x.enable, 7), (b2n x.txAn.isSome, 6), (x.txAn.getD 0, 4), (x.state.code, 0)]
  | .netQp q =>
    let x := qp s q
    let rate := if (cget s 0x400000).getLsbD 3 ∨ x.state = .reset then x.rate else lineRate x.port
    pack [(x.state.code, 61), (x.port, 56), (x.sendq.length, 40), (rate.floor.toNat % 65536, 24), (x.sndPsn % 2 ^ 24, 0)]
  | .cenStep => match newestStep s with | some x => BitVec.ofNat 64 x.step | none => 0
  | .cenStatus =>
    match newestStep s with
    | none => 0
    | some x =>
      let st := if x.timedOut then 5 else if x.verdict = 2 then 4 else if x.verdict = 1 then 3 else if x.closed then 2 else 1
      pack [(st, 61), (x.counted.length, 32), (x.gen, 1), (b2n x.flag, 0)]
  | .cenRun r => match s.cen.runs[r]? with | some x => pack [(1, 63), (x.runtab, 0)] | none => 0
  | .csqTakeCyc c => if (core s c).took then Config.freeValue s.free else 0
  | .stall false => 0
  | .stall true | .freeEvt => if counting s then Config.timedCount a s.free &&& 0xFFFFFFFFFFFF else 0
  | .csqStatus c =>
    let k := core s c
    let started := (List.range 8).foldl (fun a i => a + b2n (reelOf k i).started * 2 ^ i) 0
    let blocked := (List.range 8).foldl (fun a i => a + b2n ((reelOf k i).started && !hasInput s c i) * 2 ^ i) 0
    pack [(started, 56), (blocked, 48), (k.running, 32), (pcMod (reelOf k k.running).pc, 0)]
  | .csqPlace c =>
    match if (core s c).placed then (core s c).place else none with
    | some p => pack [(p.rows, 40), (p.cols, 32), (p.row, 24), (p.col, 16), (p.lcore, 8), (p.index, 0)]
    | none => 0
  | .csqTake c => match (core s c).take with | some (st, t) => pack [(st, 32), (t, 0)] | none => 0
  | .mxeStatus c =>
    let m := (core s c).mxe
    pack [((m.sLast % 4096).toNat, 32), (if m.pass.isSome then (Config.freeValue s.free).toNat % 256 else 0, 16), ((match m.pass with | some p => p.repeats | none => m.lastRepeats), 10),
      ((match m.pass with | some p => b2n p.zp | none => 0), 9), (b2n (!m.drains.isEmpty), 8), (m.activeSet, 1),
      (b2n (m.pass.isSome || !m.drains.isEmpty), 0)]
  | .vceStatus c =>
    let v := (core s c).vce
    pack [((List.range 4).foldl (fun a i => a + tget 0 v.tbState i * 4 ^ i) 0, 8), (b2n (vceWait (core s c) = 2), 2),
      (b2n (vceWait (core s c) = 1), 1), (b2n (!v.walks.isEmpty), 0)]
  | .redStatus c => let r := (core s c).red; pack [(r.kind, 4), (b2n r.run.isSome, 0)]
  | .muStatus c m =>
    let k := core s c
    let rbits := fun (ag : Nat) (f : GenReel → Bool) =>
      (List.range 8).foldl (fun a i => a + b2n (f (tget {} k.agReels ((2 * m + ag) * 8 + i))) * 2 ^ i) 0
    let busy := fun (ag : Nat) => (List.range 8).foldl
      (fun a t => a + b2n ((k.ags.any fun g => g.mu = m ∧ g.ag = ag ∧ agUses g t) ||
        (affineOn k m && (Config.freeValue s.free).getLsbD (8 * ag + t))) * 2 ^ t) 0
    pack [(rbits 1 (fun g => g.shadow.isSome), 56), (rbits 1 (·.gen), 48), (rbits 0 (fun g => g.shadow.isSome), 40),
      (rbits 0 (·.gen), 32), (busy 1, 24), (busy 0, 16), ((k.guards.filter fun g => g.home = m ∧ g.len ≠ 0).length, 0)]
  | .barCnt c m n => let b := barOf (core s c) m n; pack [(b.waiters.length, 16), (b.count, 0)]
  | .fabStatus c => pack [(b2n (core s c).fenced, 0)]
  | .stuStatus c k =>
    let x := tget {} (core s c).stus k
    pack [(b2n x.stalled, 63), (fld x.desc 17 1, 56), (x.cq.length, 48),
      ((List.range 4).foldl (fun a i => a + (tget [] x.dq i).length * 256 ^ i) 0, 0)]
  | .ttStat _ =>
    let l := if s.fab.activeB then s.fab.lenB else s.fab.lenA
    pack [(b2n s.fab.pending, 7), (b2n s.fab.activeB, 6), ((if l = 16 then 0 else if l = 32 then 1 else 2), 4)]
  | .wkc n => BitVec.ofNat 64 (wkcOf s n).value
  | .memStatus k =>
    let x := ctl s k
    let lgb := 16 ≤ k ∧ ((k - 16 = s.intake.copyA ∧ s.intake.copyAok) ∨ (k - 16 = s.intake.copyB ∧ s.intake.copyBok))
    pack [(x.state.code, 6), (b2n x.filling, 5), (b2n lgb, 4)]
  | .poolFree k => BitVec.ofNat 64 (poolFreeOf s k)
  | .lpcFill k => BitVec.ofNat 64 ((ctl s k).filled + ((ctl s k).filledOut.filter fun r => (ctl s k).filled ≤ r).length)
  | .upuStatus u =>
    let mine := s.upu.updates.filter fun q => u ∈ q.units
    pack [(((mine.filter fun q => q.state = .pending).map Update.step).eraseDups.length, 56), (tget 0 s.upu.lastStep u % 2 ^ 32, 16),
      (b2n (mine.any fun q => q.state = .running), 0)]
  | .pwrCore i => let k := core s i; pack [(b2n (k.waking || k.napping), 2), (k.power.code, 0)]
  | .secFuse => pack [(b2n s.sec.key0Revoked, 8), (s.sec.svn, 0)]
  | .secAttest =>
    pack [(b2n s.sec.exhausted, 63), (0x100000 - s.sec.leaf, 20), (s.sec.leaf % 2 ^ 20, 0)]
  | .secPkhash i => BitVec.ofNat 64 (fld (if i < 4 then s.sec.pkhash0 else s.sec.pkhash1) (8 * (i % 4)) 8)
  | _ => w

/-- A read of 8 aligned bytes of CSR space: none is ADDR_UNMAPPED (R7). -/
def csrRead (s : State) (a : Nat) : Option W64 := (regAt a).map (regView s a)

/-- Whether a number lies in a range. -/
def within (lo hi v : Nat) : Bool := lo ≤ v && v ≤ hi

/-- Set field `hi:lo` from a written word when its value is not reserved (R8). -/
def rw (hi lo : Nat) (ok : Nat → Bool) (v old : W64) : W64 :=
  if ok (wbits v hi lo) then wput old hi lo (wbits v hi lo) else old

/-- Set a field that has no reserved value. -/
def rwAll (hi lo : Nat) (v old : W64) : W64 := wput old hi lo (wbits v hi lo)

/-- Whether a point ID is defined for a die (R509). -/
def pointOk (d id : Nat) : Bool :=
  if d < 8 then
    if id < 26 * 0x400 then
      let o := id % 0x400
      o < 0x114 || within 0x118 0x11C o || o = 0x120 || within 0x128 0x12E o ||
        (within 0x200 0x29F o && o % 16 < 12) || within 0x2A0 0x2BE o
    else within 0x7000 0x7001 id || within 0x7010 0x7017 id || within 0x7020 0x705F id || id = 0x7060 ||
      (within 0x7080 0x709F id && id % 16 < 12)
  else within 0x8000 0x801F id || within 0x8040 0x80BF id || within 0x8100 0x81FF id || id = 0x8200 ||
    (d = 8 && (within 0x8210 0x8216 id || within 0x8220 0x8226 id || id = 0x8230 || id = 0x8231)) ||
    within 0x8240 0x82BF id || within 0x9000 (0x9000 + 4351) id || (within 0xB000 (0xB000 + 16 * 33 - 1) id && id % 16 < 12)

/-- The stored word after a write: RW fields by value, W1C bits cleared, RO and RSV ignored (R4, R8). Registers with
side effects (DRL_REINIT, FRZ_DAILIES, OBS_RING, NET_PORT) are the affair of the commands that write them. -/
def regStored (r : Reg) (v old : W64) : W64 :=
  match r with
  | .drlAlert | .mxeErr _ | .vceErr _ | .redErr _ | .muErr _ _ | .memErr _ => old &&& ~~~v
  | .drlAlertEn => rwAll 7 0 v old
  | .pwrCfg => rwAll 0 0 v (rwAll 1 1 v (rw 23 16 (within 1 50) v (rw 31 24 (within 85 115) v
      (rw 47 32 (0 < ·) v (rw 63 48 (0 < ·) v old)))))
  | .pwrCap => rw 15 0 (within 500 3800) v old
  | .cinCfg => rw 15 0 (10 ≤ ·) v old
  | .netCfg => rwAll 0 0 v (rwAll 1 1 v (rwAll 2 2 v (rwAll 3 3 v (rwAll 10 8 v old))))
  | .netIp _ => v
  | .netCc0 => rw 3 0 (1 ≤ ·) v (rw 7 4 (within 1 10) v (rw 15 8 (within 16 30) v (rw 31 16 (1 ≤ ·) v
      (rw 47 32 (1 ≤ ·) v (rw 63 48 (within 1 1000) v old)))))
  | .netCc1 => rwAll 15 0 v (rwAll 31 16 v (rwAll 47 32 v old))
  | .cenCfg => rw 15 0 (1 ≤ ·) v old
  | .calCfg => rwAll 0 0 v (rwAll 1 1 v (rwAll 2 2 v (rw 15 8 (within 1 15) v (rw 23 16 (within 1 31) v old))))
  | .calTag _ => rw 47 40 (fun x => x ≠ 0x80 && x ≠ 0x81) v (rwAll 54 52 v (rwAll 57 55 v (rwAll 61 58 v (rw 63 62 (· ≤ 1) v old))))
  | .csqCfg _ => rw 4 0 (within 12 24) v old
  | .mxeCfg _ => rwAll 0 0 v (rw 15 8 (· ≠ 0x80) v old)
  | .vceCfg _ => rwAll 1 0 v old
  | .muCfg _ _ => rwAll 0 0 v old
  | .muAgcfg _ _ _ => rwAll 7 0 v (rw 15 8 (within 1 16) v old)
  | .fabCfg _ => rw 4 0 (within 16 31) v old
  | .memCfg _ => rwAll 0 0 v (rw 31 16 (100 ≤ ·) v (rw 39 32 (10 ≤ ·) v old))
  | .upuCfg _ => rw 10 0 (within 1 1024) v old
  | .obsCfg d => rwAll 0 0 v ((if d = 8 then rwAll 1 1 v else id) (rw 15 8 (within 10 32) v old))
  | .obsPt d _ => rwAll 16 16 v (rw 15 0 (pointOk d) v old)
  | .frzCfg => rwAll 0 0 v (rw 2 1 (· ≠ 3) v old)
  | _ => old

/-- The plain part of a CSR write. -/
def csrStore (s : State) (a : Nat) (v : W64) : State :=
  match regAt a with
  | none => s
  | some (.stuStatus c k) =>
    if v.getLsbD 63 then modCore s c fun x => { x with stus := tset {} x.stus k { tget {} x.stus k with stalled := false } }
    else s
  | some r => cset s a (regStored r v (cget s a))

/-- Drop every stored register that is not warm-preserved (R5). -/
def csrWarm (s : State) : State :=
  { s with csr := s.csr.filter fun e => match regAt e.1 with | some r => r.warm | none => false }

end Sys2Proof.Machine
end

