-- ==== Sys2Proof/Machine/Control.lean ====
section
/-! DEFINITION. What several families share: sending messages, completions and the end of commands (R303 to R310), kills
(R165, R238, R334), fault records and alerts (R447, R460), and traps (R235). -/
namespace Sys2Proof.Machine

open Sys2Proof

-- Faults and alerts

/-- Set an alert bit (R447). -/
def alert (s : State) (b : Nat) : State := corr s 0x100010 (BitVec.ofNat 64 (2 ^ b))

/-- Write one fault record and count it (R460). -/
def logFault (s : State) (cls die unit rung : Nat) : State :=
  let w := cget s 0x100038
  let n := wbits w 7 0
  let s := cset s (0x101000 + 8 * n) (pack [(cls, 56), (die, 48), (unit, 40), (rung, 36), (s.kc % 2 ^ 32, 0)])
  cset s 0x100038 (wput (wput w 47 16 ((wbits w 47 16 + 1) % 2 ^ 32)) 7 0 ((n + 1) % 256))

/-- The die of a memory controller (R481 numbering). -/
def dieOfCtl (k : Nat) : Nat := if k < 16 then k / 2 else 8 + (k - 16) / 32

-- Messages (R351, R355, R358)

/-- DEF bit or field of a queue pair's configuration. -/
def qpField (x : Qp) (off len dbit dflt : Nat) : Nat := if bit (fld x.conf 31 1) dbit then dflt else fld x.conf off len

/-- Messages sent and not yet acknowledged (DEPTH). -/
def qpDepth (x : Qp) : Nat := qpField x 22 2 2 256

/-- Read requests outstanding (RDEPTH). -/
def qpRdepth (x : Qp) : Nat := qpField x 24 2 3 64

/-- Path MTU in bytes. -/
def qpMtu (x : Qp) : Nat := 2 ^ (7 + qpField x 26 1 4 5)

/-- PSNs that a message takes: one for each packet, or for each packet of the answer of a read (log 16). -/
def msgPsns (x : Qp) (m : Msg) : Nat :=
  match m.kind with
  | .readReq .. => max 1 (cdiv (leNat (m.data.take 4)) (qpMtu x))
  | _ => max 1 (cdiv m.data.length (qpMtu x))

/-- Frames that a message is sent in. -/
def msgFrames (x : Qp) (m : Msg) : Nat := match m.kind with | .readReq .. => 1 | _ => msgPsns x m

/-- Whether a message is a read, which only its answer completes. -/
def isRead (m : Msg) : Bool := match m.kind with | .readReq .. => true | _ => false

/-- Whether a queue pair may send a message now: it is Ready, below DEPTH and, for a read, below RDEPTH (R355, R358). -/
def qpRoom (x : Qp) (m : Msg) : Bool :=
  decide (x.state = .ready ∧ x.sendq.length < qpDepth x) && (!isRead m || decide ((x.sendq.filter isRead).length < qpRdepth x))

/-- Put a message on the wire. -/
def qpPut (x : Qp) (m : Msg) : Qp :=
  { x with sendq := x.sendq ++ [{ m with psn := x.sndPsn }], sndPsn := (x.sndPsn + msgPsns x m) % 2 ^ 24 }

/-- Put a message on the wire when there is room; otherwise it waits its turn. -/
def qpPost (x : Qp) (m : Msg) : Qp :=
  if qpRoom x m ∧ x.held = [] then qpPut x m else { x with held := x.held ++ [m] }

/-- Send held messages while there is room. -/
def qpDrain : Nat → Qp → Qp
  | 0, x => x
  | n + 1, x =>
    match x.held with
    | [] => x
    | m :: t => if qpRoom x m then qpDrain n (qpPut { x with held := t } m) else x

/-- Count frames of a port under its transmit SA; a PN that reaches 2^64 - 2^32 stops the port (R368). -/
def countFrames (s : State) (p n : Nat) : State :=
  let x := port s p
  match x.txAn with
  | none => s
  | some an =>
    let mine := fun (a : Sa) => a.tx && decide (a.an = an)
    let f := fun (a : Sa) => { a with pn := a.pn + n }
    let sas := updFirst mine f x.sas
    let spent := sas.any fun a => mine a && decide (2 ^ 64 - 2 ^ 32 ≤ a.pn)
    setPort s p { x with sas := sas, state := if spent then .disabled else x.state }

/-- A queue pair goes from `x` to `y`: the messages that `y` has sent beyond those of `x` leave in their frames. -/
def sentOn (s : State) (q : Nat) (x y : Qp) : State :=
  countFrames (setQp s q y) x.port (((y.sendq.drop x.sendq.length).map (msgFrames x)).sum)

/-- Post a message on a queue pair; under a pause it waits (R367). -/
def send (s : State) (q : Nat) (kind : MsgKind) (key va : Nat) (data : List Byte) : State :=
  let m : Msg := { kind := kind, psn := 0, key := key, va := va, data := data }
  let x := qp s q
  sentOn s q x (if (port s x.port).paused then { x with held := x.held ++ [m] } else qpPost x m)

/-- Whether a queue pair takes operations (R358). -/
def qpLive (s : State) (q : Nat) : Bool := (qp s q).state = .ready || (qp s q).state = .migrating

-- Logbook entries

/-- The live entry of a command. -/
def findEntry (s : State) (st seq : Nat) : Option Entry := s.intake.log.find? fun e => e.stream = st ∧ e.seq = seq

/-- Change the live entry of a command. -/
def modEntry (s : State) (st seq : Nat) (f : Entry → Entry) : State :=
  { s with intake := { s.intake with log := updFirst (fun e => e.stream = st ∧ e.seq = seq) f s.intake.log } }

/-- The entry at HEAD of a stream (R308). -/
def headEntry (s : State) (st : Nat) : Option Entry :=
  s.intake.log.find? fun e => e.stream = st ∧ e.unfinished ∧ e.seq = headOf s st

/-- The running or killed take of a command. -/
def takeOfCmd (s : State) (st seq : Nat) : Option Take := s.intake.takes.find? fun t => t.stream = st ∧ t.seq = seq

/-- Change the take of a command. -/
def modTake (s : State) (st seq : Nat) (f : Take → Take) : State :=
  { s with intake := { s.intake with takes := updFirst (fun t => t.stream = st ∧ t.seq = seq) f s.intake.takes } }

/-- Remove the take of a command. -/
def dropTake (s : State) (st seq : Nat) : State :=
  { s with intake := { s.intake with takes := s.intake.takes.filter fun t => ¬(t.stream = st ∧ t.seq = seq) } }

/-- The take that runs on a core. -/
def takeOfCore (s : State) (c : Nat) : Option Take :=
  (core s c).take.bind fun x => s.intake.takes.find? fun t => t.tag = x.2

/-- Fields of an entry's record. -/
def Entry.handle (e : Entry) : Nat := fld e.body 4 2
/-- Program slot a handle names. -/
def slotOfHandle (h : Nat) : Nat := h % 256
/-- DEADLINE of a RUN or STEP. -/
def Entry.deadline (e : Entry) : Nat := fld e.body 128 8
/-- PUBADDR. -/
def Entry.pubaddr (e : Entry) : Nat := fld e.body 136 8
/-- STEP number. -/
def Entry.step (e : Entry) : Nat := if e.cls = 2 then fld e.body 192 8 else 0
/-- Whether a command has takes. -/
def Entry.hasTake (e : Entry) : Bool := e.cls = 1 || e.cls = 2

/-- What a completion says beside its command's own fields (R303, R306); `cycles` only where the spec states it. -/
structure CInfo where
  status : Nat
  reason : Nat := 0
  lcore : Nat := 0xFF
  pc : Nat := 0
  detail : Nat := 0
  value : Nat := 0
  cycles : Option Nat := none
  handle : Option Nat := none
deriving DecidableEq, Repr

/-- The 64 bytes of a completion (R303); COMMITTED of OUTCOME_JOURNALED comes from the journaled status (R326). -/
def completion (e : Entry) (note : Nat) (c : CInfo) : List Byte :=
  let flags := b2n (c.status = 0 || c.status = 9 || (c.status = 0x0F && (c.reason = 0 || c.reason = 9))) + 2 * b2n e.boundVoid + 4 * b2n e.sealedAny
  let b := leBytes 1 c.status ++ leBytes 1 e.stream ++ leBytes 1 e.cls ++ leBytes 1 flags ++ slice e.body 28 4 ++
    leBytes 6 e.seq ++ leBytes 2 e.take ++ leBytes 2 note ++
    leBytes 2 (match c.handle with | some h => h | none => e.handle) ++ leBytes 1 c.reason ++ leBytes 1 c.lcore ++
    leBytes 2 c.pc ++ leBytes 8 c.detail ++ leBytes 8 c.value ++ leBytes 8 (c.cycles.getD 0) ++ leBytes 8 e.step ++ zeros 4
  b ++ leBytes 4 (crc32c b)

/-- Write a completion: the latest of its command, sent to CADDR on the stream's queue pair (R303, R304). CYCLES of a command that has
had a take is a matter of timing and free (log 3), unless the ending has a stated one (R378); the journal holds none (R326). -/
def complete (s : State) (st seq : Nat) (c : CInfo) : State :=
  match findEntry s st seq with
  | none => s
  | some e =>
    let n := if e.take = 0 ∨ c.status = 0x0F ∨ c.cycles.isSome then (c.cycles.getD 0, s) else let n := takeFree s; ((Config.freeValue n.1).toNat, n.2)
    let s := n.2
    let b := completion e (e.note + 1) { c with cycles := some n.1 }
    let s := modEntry s st seq fun e => { e with note := e.note + 1, comp := b }
    send s (stream s st).qp (.completion st seq) (stream s st).ckey (fld e.body 16 8) b

/-- The stream's state after its HEAD may have moved (R308): unchanged while Closed, Halted or Closing, or while HEAD waits. -/
def settle (s : State) (st : Nat) : State :=
  let x := stream s st
  let waits := match headEntry s st with | some e => decide (e.waitReason ≠ 0) | none => false
  match x.state with
  | .closed | .halted | .closing => s
  | .waiting => if waits then s else setStream s st { x with state := if (liveOf s st).any Entry.unfinished then .running else .idle }
  | _ => setStream s st { x with state := if (liveOf s st).any Entry.unfinished then .running else .idle }

/-- Halt a stream (R310). One that is halted keeps the H of R311. -/
def haltStream (s : State) (st seq : Nat) : State :=
  let x := stream s st
  match x.state with
  | .closed | .closing | .halted => s
  | _ => setStream s st { x with state := .halted, haltSeq := seq }

/-- Fresh regions and reservations of updates that publish nothing return to the pool (R191, R192). -/
def freeUpdate (s : State) (u : Update) : State :=
  let s := setRegions s u.fresh 1
  u.reserve.foldl (fun s e => setCtl s e.1 { ctl s e.1 with reserved := (ctl s e.1).reserved - e.2 }) s

/-- The synchronous updates of a command whose take is killed go no further; what they have taken and reserved returns at the command's
Final completion (R191, R192). -/
def abandonUpdates (s : State) (st seq : Nat) : State :=
  { s with upu := { s.upu with updates := s.upu.updates.map fun u => if u.stream = st ∧ u.seq = seq then { u with state := .dropped } else u } }

/-- Drop the synchronous updates of a command (R191, R401). -/
def dropUpdates (s : State) (st seq : Nat) : State :=
  let mine := s.upu.updates.filter fun u => u.stream = st ∧ u.seq = seq
  let s := mine.foldl freeUpdate s
  { s with upu := { s.upu with updates := s.upu.updates.filter fun u => ¬(u.stream = st ∧ u.seq = seq) } }

/-- What the record store holds: first granule and length of the bodies and commit lists of the live entries. -/
def storeUsed (s : State) : List (Nat × Nat) :=
  (s.intake.log.flatMap fun e => [(e.bodyAt, e.body.length / 64 - 1), (e.clistAt, match e.clist with | some c => c.granules | none => 0)]).filter
    fun r => r.2 ≠ 0

/-- Where n granules are put in the record store: the lowest free run from granule 1 on, 0 for none. DESIGN CHOICE (log 78). -/
def storePlace (s : State) (n : Nat) : Nat :=
  let used := storeUsed s
  let fits := (1 :: used.map fun r => r.1 + r.2).filter fun g => used.all fun r => decide (g + n ≤ r.1 ∨ r.1 + r.2 ≤ g)
  if n = 0 then 0 else fits.tail.foldl min (fits.headD 1)

/-- Whether an image waits at the loader under its command. -/
def waitsAtLoader (s : State) (e : Entry) : Bool :=
  s.loader.waiting.any fun w => match w with | .load st seq _ _ => decide (st = e.stream ∧ seq = e.seq) | .moving _ => false

/-- A LOAD leaves the loader; a slot that it kept is empty again. -/
def leaveLoader (s : State) (e : Entry) : State :=
  let mine := fun (w : LoadWait) => match w with | .load st seq _ _ => decide (st = e.stream ∧ seq = e.seq) | .moving _ => false
  let kept := s.loader.waiting.filterMap fun w => match w with
    | .load st seq k _ => if st = e.stream ∧ seq = e.seq ∧ k < 256 then some k else none
    | .moving _ => none
  let s := { s with loader := { s.loader with waiting := s.loader.waiting.filter (!mine ·), due := s.loader.due.filter (!mine ·),
                                              forLen := s.loader.forLen.filter (!mine ·) } }
  kept.foldl (fun s k => if (slotOf s k).state = .waiting then setSlot s k { gen := (slotOf s k).gen } else s) s

/-- Whether a take of a slot is starting or runs for a command that goes on (R423): an entry past its head moment names the slot. -/
def slotWanted (s : State) (slot : Nat) : Bool :=
  s.intake.log.any fun e => e.unfinished && e.hasTake && e.head && decide (slotOfHandle e.handle = slot)

/-- The physical cores of a slot's placement. -/
def coresOf (s : State) (slot : Nat) : List Nat :=
  (List.range 208).filter fun c => match (core s c).place with | some p => p.slot = slot | none => false

/-- A placement on which no take runs and none is starting idles at once (R423). -/
def restCores (s : State) (slot : Nat) : State :=
  if slotWanted s slot || s.intake.takes.any fun t => t.slot = slot then s
  else (coresOf s slot).foldl (fun s c => modCore s c fun x => { x with power := if x.power = .run then .idle else x.power }) s

/-- The report of a LOAD that neither ends with DONE nor fails a check (R278). -/
def plainReport : List Byte := zeros 2 ++ leBytes 2 0xFFFF ++ zeros 28

/-- A LOAD leaves the loader and its report is written at REPORT (R278); a record too short to name a REPORT gets none. -/
def reportLoad (s : State) (e : Entry) (report : List Byte) : State :=
  let s := leaveLoader s e
  if e.body.length < 88 then s
  else
    let q := stream s e.stream
    send s q.qp .hostWrite q.ckey (fld e.body 80 8) report

/-- A command ends: its Final completion, its state and the stream's (R304, R308, R310). -/
def finishCore (s : State) (st seq : Nat) (c : CInfo) : State :=
  match findEntry s st seq with
  | none => s
  | some e =>
    let committed := c.status = 0 ∨ c.status = 9
    let s := modEntry s st seq fun e => { e with
      state := if committed then .committed else if c.status = 3 then .rejected else .ended, status := c.status, raises := [] }
    let s := if e.hasTake ∧ c.status ≠ 3 then
        { dropUpdates s st seq with intake := { s.intake with reserved := s.intake.reserved - 130 } } else s
    let s := complete s st seq c
    let s := if e.hasTake ∧ e.head then restCores s (slotOfHandle e.handle) else s
    if (c.status = 2 ∧ c.reason ≠ 7) ∨ c.status = 3 then haltStream s st seq else settle s st

/-- A command ends. The report of a LOAD stands before its Final completion, whatever its status (R278): one that the loader itself does
not end has the plain one. -/
def finish (s : State) (st seq : Nat) (c : CInfo) : State :=
  match findEntry s st seq with
  | some e => finishCore (if e.cls = 3 then reportLoad s e plainReport else s) st seq c
  | none => s

/-- An interim completion (R9). -/
def interim (s : State) (st seq : Nat) (c : CInfo) : State := complete s st seq c

/-- HEAD of a stream executes or waits (R308): the state moves between Running and Waiting; Halted, Closing and Closed stay. -/
def turnStream (s : State) (st : Nat) (next : StreamState) : State :=
  let x := stream s st
  match x.state with
  | .closed | .halted | .closing => s
  | _ => setStream s st { x with state := next }

/-- A command starts to wait: WAITING_RESOURCES with a reason, once, in the order of waits (R339). -/
def waitFor (s : State) (st seq reason : Nat) : State :=
  match findEntry s st seq with
  | none => s
  | some e =>
    if e.waitReason = reason then s
    else
      let n := s.intake.orders
      let s := modEntry s st seq fun e => { e with waitReason := reason, waitFrom := if e.waitFrom = 0 then n + 1 else e.waitFrom }
      let s := { s with intake := { s.intake with orders := n + 1 } }
      interim (turnStream s st .waiting) st seq { status := 0x0D, reason := reason }

-- Placements

/-- Rows and columns of an image. -/
def imgRows (img : List Byte) : Nat := fld img 6 1
/-- Columns. -/
def imgCols (img : List Byte) : Nat := fld img 7 1

/-- The physical core at a rectangle index of a slot, if placed. -/
def coreAtIndex (s : State) (slot idx : Nat) : Option Nat :=
  (coresOf s slot).find? fun c => match (core s c).place with | some p => p.index = idx | none => false

/-- Size of the rectangle a core is placed in. -/
def rectOf (c : Core) : Nat := match c.place with | some p => p.rows * p.cols | none => 0

/-- Logical number of a core for reports. -/
def lcoreNo (c : Core) : Nat := match c.place with | some p => p.lcore | none => 0xFF

/-- A section of an image by type: offset, size and count (R272). -/
def imgSect (img : List Byte) (ty : Nat) : Option (Nat × Nat × Nat) :=
  ((List.range (fld img 14 2)).map (64 + 16 * ·)).findSome? fun o =>
    if fld img o 2 = ty then some (fld img (o + 4) 4, fld img (o + 8) 4, fld img (o + 12) 4) else none

/-- The offsets of a section's records of `n` bytes. -/
def imgRecs (img : List Byte) (ty n : Nat) : List Nat :=
  match imgSect img ty with
  | some (o, _, k) => (List.range k).map fun i => o + n * i
  | none => []

/-- The receivers of a circuit: core index and MU (R280). -/
def receiversOf (img route : List Byte) : List (Nat × Nat) :=
  if fld route 4 1 = 0xFF then
    ((imgRecs img 0x0A 32).filter fun o => fld img o 1 = fld route 5 1).map fun o => (fld img (o + 2) 1, bits (fld img (o + 3) 1) 3 2)
  else [(fld route 4 1, bits (fld route 5 1) 1 0)]

/-- The image a core runs. -/
def imgOf (s : State) (c : Nat) : List Byte := match (core s c).place with | some p => (slotOf s p.slot).img | none => []

/-- The loader's bound does not apply to the take on a core any more (R289). -/
def voidBound (s : State) (c : Nat) : State :=
  match takeOfCore s c with
  | some t => modEntry s t.stream t.seq fun e => { e with boundVoid := true }
  | none => s

/-- The run that a STEP command names. -/
def stepRun (s : State) (e : Entry) : Option Run := s.cen.runs.find? fun r => r.runtab = fld e.body 200 8

-- Landings (R362, R364)

/-- The 64 B control record (R362); DEVICE is the device's own ID (log 17). -/
def controlRecord (kind st dev seq landing epoch : Nat) : List Byte :=
  let b := leBytes 1 kind ++ leBytes 1 st ++ zeros 2 ++ leBytes 4 dev ++ leBytes 6 seq ++ zeros 2 ++ leBytes 4 landing ++
    leBytes 4 epoch ++ zeros 36
  b ++ leBytes 4 (crc32c b)

/-- The device's own ID: SELF_ID of the current epoch, or of the staged one, else 0 (log 17). -/
def selfId (s : State) : Nat :=
  match s.net.current, s.net.staged with
  | some e, _ => e.self
  | none, some e => e.self
  | none, none => 0

/-- Send a landing's control record, kind 1 OPEN, 2 SEAL, 3 ABORT, on its queue pair; its key's control slot is at 64. -/
def sendControl (s : State) (l : Landing) (kind : Nat) : State :=
  send s l.peer (.control l.stream l.seq l.landing kind) l.key 64
    (controlRecord kind l.stream (selfId s) l.seq l.landing l.epoch)

/-- Landings that the takes of a command have open. -/
def landingsOf (s : State) (st seq : Nat) : List Landing := s.net.landings.filter fun l => l.stream = st ∧ l.seq = seq ∧ ¬ l.engine

/-- The key of this device's TALLY zone at a peer, in the peer key table of a run (R373). -/
def tallyKey (s : State) (r : Run) (peer : Nat) : Nat := leNat (devReads s (fld r.table 48 8 + 4 * peer) 4)

/-- Whether a key stands in the peer key table of an adopted run. -/
def isTallyKey (s : State) (peer key : Nat) : Bool := key ≠ 0 && s.cen.runs.any fun r => tallyKey s r peer = key

/-- Whether an OPEN must wait for another landing of this device on its key (R382). -/
def keyBusy (s : State) (peer key : Nat) : Bool :=
  isTallyKey s peer key && s.net.landings.any fun l => l.peer = peer ∧ l.key = key

/-- The H-die of a port (R348). -/
def portHub (p : Nat) : Nat := if p < 2 ∨ (4 ≤ p ∧ p < 12) then 0 else 1

/-- Whether the NET half of a queue pair has room for another open landing (R364). -/
def landingRoom (s : State) (q : Nat) : Bool :=
  (s.net.landings.filter fun l => portHub (qp s l.peer).port = portHub (qp s q).port).length < 2048

-- Messages of the collective engine (R382, R390)

/-- Change the collective engines. -/
def modCen (s : State) (f : Cen → Cen) : State := { s with cen := f s.cen }

/-- Pieces of a message of at most 2 KiB, with their offsets. -/
def pieces (b : List Byte) : List (Nat × List Byte) :=
  (List.range (cdiv b.length 2048)).map fun i => (2048 * i, (b.drop (2048 * i)).take 2048)

/-- Put a tally message on its queue pair: OPEN, its window, SEAL. -/
def postOut (s : State) (m : OutMsg) : State :=
  let l : Landing := { stream := m.stream, seq := m.seq, landing := m.landing, peer := m.peer, key := m.key, tag := 0,
                       epoch := m.epoch, sealing := true, engine := true }
  let s := { s with net := { s.net with landings := s.net.landings ++ [l] } }
  let s := sendControl s l 1
  let s := (pieces m.window).foldl (fun s p => send s m.peer (.tallyMsg m.run) m.key (4096 + p.1) p.2) s
  sendControl s l 2

/-- Post the waiting messages whose keys are free and whose NET half has room, in order (R382, R364); one whose queue pair is
in Reset or Error ends at once (R358). -/
def flushOut : List OutMsg → State → State
  | [], s => s
  | m :: t, s =>
    flushOut t <|
      if ¬ qpLive s m.peer then s
      else if keyBusy s m.peer m.key ∨ ¬ landingRoom s m.peer then modCen s fun x => { x with outbox := x.outbox ++ [m] }
      else postOut s m

/-- Try the waiting messages again. -/
def flushOutbox (s : State) : State := flushOut s.cen.outbox (modCen s fun x => { x with outbox := [] })

-- Aborts, and operations on dead queue pairs (R335, R358)

/-- Abort every unsealed landing of a command (R334 phase 4, R335). A seal already sent is not recalled. Messages of the
collective engine that waited for their keys are then opened (R382). -/
def abortLandings (s : State) (st seq : Nat) : State :=
  let ls := (landingsOf s st seq).filter fun l => ¬ l.sealing
  let s := ls.foldl (fun s l => if qpLive s l.peer then sendControl s l 3 else s) s
  let gone := fun (l : Landing) => decide (l.stream = st ∧ l.seq = seq ∧ ¬ l.sealing ∧ ¬ l.engine)
  if ls.isEmpty then s else flushOutbox { s with net := { s.net with landings := s.net.landings.filter fun l => !gone l } }

/-- How a command ends whose landing met a dead queue pair (R306, R358): the core that opened it and the address of its first write.
DESIGN CHOICE (log 76): for a seal the spec names no core of its own, and no remote address. -/
def landingLost (t : Take) (landing peer : Nat) : CInfo :=
  match t.bound.find? fun e => e.landing = landing with
  | some e => { status := 0x0C, lcore := e.lcore, detail := peer, value := e.addr }
  | none => { status := 0x0C, detail := peer }

-- Kills (R334)

/-- The steering units of a core without op and items; STALLED stays until it is cleared (R4, R147). -/
def stalledStus (x : Core) : Tab Stu := (x.stus.filter fun e => e.2.stalled).map fun e => (e.1, { stalled := true })

/-- What a kill leaves of a core's work (R81, R119, R165, R238): every reel stops; queues, passes, walks, threads, requests,
guards, steering queues and groups are flushed; a TCMT copy that has begun still runs, and STALLED stays until it is cleared (R4). -/
def killCore (x : Core) : Core :=
  { x with reels := [], queues := [], ctrReqs := (x.ctrReqs.filter (·.copying)).map fun r => { r with killed := true },
           bars := x.bars.map fun e => (e.1, { e.2 with waiters := [] }),
           mxe := { x.mxe with pass := none, drains := [] },
           vce := { x.vce with tbState := [], epi := [], walks := [], reels := x.vce.reels.map fun e => (e.1, { e.2 with shadow := none }) },
           red := { x.red with run := none }, ags := [], agReels := x.agReels.map fun e => (e.1, { e.2 with shadow := none }),
           reqs := [], xfrs := [], guards := [], mcasts := [],
           stus := stalledStus x,
           share := if x.share = .none then .none else .clearing }

/-- Kill a take (R333, R334): its cores stop, what travels for it is discarded, its unsealed landings are aborted. -/
def killTake (s : State) (t : Take) : State :=
  let cs := coresOf s t.slot
  let s := cs.foldl (fun s c => modCore s c killCore) s
  let s := { s with fab := { s.fab with
    arrivals := s.fab.arrivals.filter fun a => a.src ∉ cs, flits := s.fab.flits.filter fun f => f.arrival.src ∉ cs,
    circ := s.fab.circ.filter fun e => e.1 / 4096 ≠ t.slot, sent := s.fab.sent.filter fun e => e.1 / 0x10000000 ≠ t.slot } }
  let s := abandonUpdates (abortLandings s t.stream t.seq) t.stream t.seq
  modTake s t.stream t.seq fun t => { t with killed := true }

/-- Kill the take and end its command with a Final code (R319). -/
def killAndEnd (s : State) (st seq : Nat) (c : CInfo) : State :=
  let s := match takeOfCmd s st seq with
    | some t => if t.killed then s else killTake s t
    | none => s
  finish s st seq c

/-- Kill the take and leave the command for a retake, with an interim code (R333). -/
def killForRetake (s : State) (t : Take) (c : CInfo) (keepCut : Bool) : State :=
  let s := killTake s t
  let s := modEntry s t.stream t.seq fun e => { e with retakeCut := e.retakeCut && keepCut, busyTake := true }
  interim s t.stream t.seq c

/-- End the command of the take on a core, when there is one that is not already killed. -/
def endOfCore (s : State) (c : Nat) (f : Take → CInfo) : State :=
  match takeOfCore s c with
  | none => s
  | some t => if t.killed then s else killAndEnd s t.stream t.seq (f t)

/-- A word that an access finds lost, poisoned or in a failed memory, is logged (R459, MEM_WORD). -/
def logLoss (s : State) (r : Access) (a : Nat) : State :=
  match r, ctlOf a with
  | .dataLoss, some k => corr (logFault s 4 (dieOfCtl k) (if k < 16 then k else k - 16) 1) (memBase k + 0x10) 1
  | _, _ => s

/-- End a core's command for an access that failed (R319): the device address is in DETAIL. A data loss is also logged. -/
def accessFail (s : State) (c : Nat) (r : Access) (addr : Nat) : State :=
  let code := match r with | .unmapped => 0x11 | .keyDenied => 0x13 | _ => 0x07
  endOfCore (logLoss s r addr) c fun _ => { status := code, lcore := lcoreNo (core s c), detail := addr % 2 ^ 48 }

-- Run tables and roots (R373, R185)

/-- RUN_ID. -/
def Run.id (r : Run) : Nat := fld r.table 58 2
/-- NSHARDS. -/
def Run.nshards (r : Run) : Nat := fld r.table 4 4
/-- DIR. -/
def Run.dir (r : Run) : Nat := fld r.table 8 8
/-- SIGNS. -/
def Run.ring (r : Run) : Nat := fld r.table 16 8
/-- SGEN. -/
def Run.sgen (r : Run) : Nat := fld r.table 24 8
/-- TALLY. -/
def Run.tally (r : Run) : Nat := fld r.table 32 8
/-- TLEN. -/
def Run.tlen (r : Run) : Nat := fld r.table 40 8
/-- PKEYS. -/
def Run.pkeys (r : Run) : Nat := fld r.table 48 8
/-- RING. -/
def Run.gens (r : Run) : Nat := fld r.table 56 1

/-- The adopted run of a RUN_ID. -/
def runById (s : State) (id : Nat) : Option Run := s.cen.runs.find? fun r => r.id = id

/-- Change the adopted run of a RUN_ID. -/
def modRun (s : State) (id : Nat) (f : Run → Run) : State :=
  { s with cen := { s.cen with runs := updFirst (fun r => r.id = id) f s.cen.runs } }

/-- Address of a root slice: entry i of the directory holds its address bits 47:16. -/
def rootSlice (s : State) (r : Run) (i : Nat) : Nat := leNat (devReads s (r.dir + 4 * i) 4) * 65536

/-- Address of a shard's root. -/
def rootAddr (s : State) (r : Run) (shard : Nat) : Nat := rootSlice s r (shard / 1024) + 64 * (shard % 1024)

/-- A shard's root as published. -/
def rootOf (s : State) (r : Run) (shard : Nat) : List Byte := devReads s (rootAddr s r shard) 64

/-- LIST of a root. -/
def rtList (b : List Byte) : Nat := fld b 0 8
/-- STEP of a root. -/
def rtStep (b : List Byte) : Nat := fld b 8 8
/-- PARAMS of a root. -/
def rtParams (b : List Byte) : Nat := fld b 16 4
/-- FROZEN of a root. -/
def rtFrozen (b : List Byte) : Bool := bit (fld b 28 4) 0
/-- LAG of a root. -/
def rtLag (b : List Byte) : Nat := bits (fld b 28 4) 3 1
/-- LAYER of a root. -/
def rtLayer (b : List Byte) : Nat := fld b 28 4 / 256

/-- Whether an address lies in the tier of a lag (R184). -/
def tierOk (lag a : Nat) : Bool :=
  match decodeAddr a with
  | .hbm _ _ => decide (lag = 0)
  | .lpddr _ _ => decide (1 ≤ lag ∧ lag ≤ 4)
  | _ => false

/-- The checks that every reader of a root makes (R186). -/
def rootOk (b : List Byte) : Bool :=
  crcOk b 60 && decide (rtList b % 65536 = 0 ∧ rtList b < 2 ^ 48) && tierOk (rtLag b) (rtList b) &&
    decide (1 ≤ rtParams b ∧ rtParams b ≤ 2 ^ 28) && decide (bits (fld b 28 4) 7 4 = 0) && zeroAt b 52 8

/-- Slices of a shard. -/
def sliceCount (root : List Byte) : Nat := cdiv (rtParams root) 16384

/-- Address of slice i of a shard. -/
def sliceAddr (s : State) (root : List Byte) (i : Nat) : Nat := leNat (devReads s (rtList root + 4 * i) 4) * 65536

/-- The regions of a root: its slice table and its slices. -/
def rootRegions (s : State) (root : List Byte) : List Nat :=
  (rtList root / 65536) :: (List.range (sliceCount root)).map fun i => sliceAddr s root i / 65536

/-- The roots of every adopted run as they stand, by address: what a take latches at its start (R22). -/
def latchRoots (s : State) : List (Nat × List Byte) :=
  s.cen.runs.flatMap fun r => (List.range r.nshards).map fun i => (rootAddr s r i, rootOf s r i)

/-- Bytes read from an address, with a root laid over those that it covers. -/
def layRoot (a : Nat) (d : List Byte) (e : Nat × List Byte) : List Byte :=
  if a + d.length ≤ e.1 ∨ e.1 + 64 ≤ a then d
  else d.zipIdx.map fun p => if e.1 ≤ a + p.2 ∧ a + p.2 < e.1 + 64 then e.2.getD (a + p.2 - e.1) 0 else p.1

/-- What a core reads of device memory in a take, where the range touches roots: it sees the roots as its take latched them (R22). -/
def latched (s : State) (c a : Nat) (d : List Byte) : List Byte :=
  match takeOfCore s c with
  | none => d
  | some t => t.latch.foldl (layRoot a) d

-- Traps (R235)

/-- Record a trap: every reel of the CSQ stops, and the report is on its way (TRAP_REPORT). A trap already
recorded stands (R237). -/
def trapCore (s : State) (c cause val detail reel pc : Nat) : State :=
  if (core s c).trapped then s else
  let s := modCore s c fun x => { x with trapped := true }
  let s := cset s (csqBase c + 0x10) (pack [(1, 63), (detail, 16), (reel, 8), (cause, 0)])
  let s := cset s (csqBase c + 0x18) (BitVec.ofNat 64 (pcMod pc))
  cset s (csqBase c + 0x20) (BitVec.ofNat 64 val)

/-- A trap of the running reel at its PC. -/
def trapHere (s : State) (c cause val detail : Nat) : State :=
  let x := core s c
  trapCore s c cause val detail x.running (reelOf x x.running).pc

end Sys2Proof.Machine
end

