-- ==== Sys2Proof/Machine/Finlen.lean ====
section
/-! DEFINITION. Finlen: issue, predicates, the loop at an instruction's end, and the arithmetic, compare, branch, loop and
memory instructions (R203 to R219, R233). -/
namespace Sys2Proof.Machine

open Sys2Proof

/-- Whether a core's CSQ issues for a take: clocks running, in Run, not trapped, not fenced, its take alive. -/
def csqLive (s : State) (c : Nat) : Bool :=
  let x := core s c
  fast s && x.share = .running && x.power = .run && !x.waking && !x.trapped && !x.fenced

/-- One issue of a Finlen instruction. It happens when the CSQ is live, the running reel can issue and the words at its PC
are the instruction; a PC outside the code traps instead (R231). `run` is the effect of an instruction that executes,
`skip` of one that does not (R208). DEDUCED (log 35): that one waits for pending registers that it names as well (R233). -/
def finlen (q : Issue) (i : Instr) (s : State) (run skip : State → State) : Out :=
  if ¬ q.ok then .next s
  else if ¬ i.wf then .fault .reservedField
  else
    let x := core s q.core
    let r := runningReel s q.core
    if ¬(csqLive s q.core ∧ r.started ∧ r.hold = .free) then .next s
    else if x.code.length ≤ r.pc then .next (trapHere s q.core 0x14 r.pc 0)
    else if fetched x q.core r ≠ some i ∨ (i.uses.any fun n => pendingReg x x.running n) then .next s
    else
      let s := bump s (csqBase q.core + 0x48) 1
      .next (if r.executes q then run s else skip s)

/-- Words of an instruction. -/
def wordsOf (i : Instr) : Nat := if i.long then 2 else 1

/-- An instruction that only advances when it does not execute. -/
def finlenOp (q : Issue) (i : Instr) (s : State) (run : State → State) : Out :=
  finlen q i s run fun s => modRunning s q.core (·.next (wordsOf i))

/-- An instruction whose effect is on its reel, ending without a branch. -/
def finlenReel (q : Issue) (i : Instr) (s : State) (f : Reel → Reel) : Out :=
  finlenOp q i s fun s => modRunning s q.core fun r => (f r).next (wordsOf i)

-- Integer arithmetic (R210 to R213)

/-- Sign-extended IMM12 (R212). -/
def sext12 (imm : BitVec 12) : W64 := imm.signExtend 64

/-- Leading zero bits of a word. -/
def clz (a : W64) : Nat := if a = 0 then 64 else 63 - Nat.log2 a.toNat

/-- Number of 1 bits. -/
def popc (a : W64) : Nat := (List.range 64).foldl (fun n i => n + b2n (a.getLsbD i)) 0

/-- ALU by FN (R211). -/
def aluOp (fn : Nat) (a b : W64) : W64 :=
  match fn with
  | 0x00 => a + b
  | 0x01 => a - b
  | 0x02 => a &&& b
  | 0x03 => a ||| b
  | 0x04 => a ^^^ b
  | 0x05 => a <<< (b.toNat % 64)
  | 0x06 => a >>> (b.toNat % 64)
  | 0x07 => a.sshiftRight (b.toNat % 64)
  | 0x08 => a * b
  | 0x09 => BitVec.ofInt 64 (Int.fdiv (a.toInt * b.toInt) (2 ^ 64))
  | 0x0A => BitVec.ofNat 64 (a.toNat * b.toNat / 2 ^ 64)
  | 0x0B => if a.slt b then a else b
  | 0x0C => if a.slt b then b else a
  | 0x0D => if a.ult b then a else b
  | 0x0E => if a.ult b then b else a
  | 0x0F => if b = 0 then BitVec.allOnes 64 else BitVec.ofNat 64 (a.toNat / b.toNat)
  | 0x10 => if b = 0 then a else BitVec.ofNat 64 (a.toNat % b.toNat)
  | 0x11 => BitVec.ofNat 64 (clz a)
  | _ => BitVec.ofNat 64 (popc a)

/-- XALU by FN on rd's own value, ra and the immediate (R213). -/
def xaluOp (fn : Nat) (d a : W64) (imm : W32) : W64 :=
  let x : W64 := imm.signExtend 64
  match fn with
  | 0 => x
  | 1 => imm.setWidth 64
  | 2 => (imm.setWidth 64 <<< 32) ||| (d &&& 0xFFFFFFFF)
  | 3 => a + x
  | 4 => a &&& x
  | 5 => a ||| x
  | _ => a ^^^ x

/-- Conditions of CMP and CMPI (R214). -/
def condOp (c : Nat) (a b : W64) : Bool :=
  match c with
  | 0 => a = b
  | 1 => a ≠ b
  | 2 => a.slt b
  | 3 => !a.slt b
  | 4 => a.ult b
  | _ => !a.ult b

/-- PLOG by FN (R214). -/
def plogOp (fn : Nat) (a b : Bool) : Bool :=
  match fn with
  | 0 => a && b
  | 1 => a || b
  | 2 => a != b
  | 3 => a && !b
  | _ => !a

/-- ALU (R211). -/
def execAlu (q : Issue) (fn rd ra rb : Nat) (s : State) : Out :=
  finlenReel q (.alu q fn rd ra rb) s fun r => r.set rd (aluOp fn (r.get ra) (r.get rb))

/-- ADDI (R210). -/
def execAddi (q : Issue) (rd ra : Nat) (imm : BitVec 12) (s : State) : Out :=
  finlenReel q (.addi q rd ra imm) s fun r => r.set rd (r.get ra + sext12 imm)

/-- ANDI (R212). -/
def execAndi (q : Issue) (rd ra : Nat) (imm : BitVec 12) (s : State) : Out :=
  finlenReel q (.andi q rd ra imm) s fun r => r.set rd (r.get ra &&& sext12 imm)

/-- ORI (R212). -/
def execOri (q : Issue) (rd ra : Nat) (imm : BitVec 12) (s : State) : Out :=
  finlenReel q (.ori q rd ra imm) s fun r => r.set rd (r.get ra ||| sext12 imm)

/-- XORI (R212). -/
def execXori (q : Issue) (rd ra : Nat) (imm : BitVec 12) (s : State) : Out :=
  finlenReel q (.xori q rd ra imm) s fun r => r.set rd (r.get ra ^^^ sext12 imm)

/-- SLLI (R210). -/
def execSlli (q : Issue) (rd ra : Nat) (imm : BitVec 12) (s : State) : Out :=
  finlenReel q (.slli q rd ra imm) s fun r => r.set rd (r.get ra <<< imm.toNat)

/-- SRLI (R210). -/
def execSrli (q : Issue) (rd ra : Nat) (imm : BitVec 12) (s : State) : Out :=
  finlenReel q (.srli q rd ra imm) s fun r => r.set rd (r.get ra >>> imm.toNat)

/-- SRAI (R210). -/
def execSrai (q : Issue) (rd ra : Nat) (imm : BitVec 12) (s : State) : Out :=
  finlenReel q (.srai q rd ra imm) s fun r => r.set rd ((r.get ra).sshiftRight imm.toNat)

/-- XALU (R213). -/
def execXalu (q : Issue) (fn rd ra : Nat) (imm : W32) (s : State) : Out :=
  finlenReel q (.xalu q fn rd ra imm) s fun r => r.set rd (xaluOp fn (r.get rd) (r.get ra) imm)

/-- NOP (R210). -/
def execNop (q : Issue) (s : State) : Out := finlenReel q (.nop q) s id

-- Compares and predicates (R214)

/-- CMP. -/
def execCmp (q : Issue) (fn pd ra rb : Nat) (s : State) : Out :=
  finlenReel q (.cmp q fn pd ra rb) s fun r => r.setPred pd (condOp fn (r.get ra) (r.get rb))

/-- CMPI. -/
def execCmpi (q : Issue) (cond pd ra : Nat) (imm : BitVec 12) (s : State) : Out :=
  finlenReel q (.cmpi q cond pd ra imm) s fun r => r.setPred pd (condOp cond (r.get ra) (sext12 imm))

/-- PLOG. -/
def execPlog (q : Issue) (fn pd pa pb : Nat) (s : State) : Out :=
  finlenReel q (.plog q fn pd pa pb) s fun r => r.setPred pd (plogOp fn (r.pred pa) (r.pred pb))

-- Branches (R215)

/-- BR. -/
def execBr (q : Issue) (off : BitVec 19) (s : State) : Out :=
  finlenOp q (.br q off) s fun s => modRunning s q.core fun r => { r with pc := target r.pc off }

/-- CALL: a full return stack traps with the target. -/
def execCall (q : Issue) (off : BitVec 19) (s : State) : Out :=
  finlenOp q (.call q off) s fun s =>
    let r := runningReel s q.core
    if 8 ≤ r.rets.length then trapHere s q.core 0x05 (target r.pc off) 0
    else modRunning s q.core fun r => { r with pc := target r.pc off, rets := (r.pc + 1) :: r.rets }

/-- RET: an empty return stack traps. -/
def execRet (q : Issue) (s : State) : Out :=
  finlenOp q (.ret q) s fun s =>
    match (runningReel s q.core).rets with
    | [] => trapHere s q.core 0x06 0 0
    | a :: t => modRunning s q.core fun r => { r with pc := a, rets := t }

-- Loops (R216)

/-- The largest count that the bound covers for the LOOP at a word (R274, R289). -/
def loopMax (img : List Byte) (pc : Nat) : Nat :=
  match (imgRecs img 0x0D 8).find? fun o => fld img o 4 = pc with
  | some o => fld img (o + 4) 4
  | none => 0

/-- LOOP: pushes an entry for its count and writes iteration 0; a count of 0, or no execution, skips the body. -/
def execLoop (q : Issue) (rd ra body : Nat) (s : State) : Out :=
  let skip := fun s => modRunning s q.core fun r => { r with pc := r.pc + 2 + body }
  finlen q (.loop q rd ra body) s (fun s =>
    let r := runningReel s q.core
    let c := (r.get ra).toNat
    if 2 ^ 32 ≤ c then trapHere s q.core 0x03 c 0
    else if c = 0 then skip s
    else if 4 ≤ r.loops.length then trapHere s q.core 0x02 c 0
    else modRunning (if loopMax (imgOf s q.core) r.pc < c then voidBound s q.core else s) q.core fun r =>
      { (r.set rd 0) with pc := r.pc + 1,
                          loops := { count := c, iter := 0, first := r.pc + 1, last := r.pc + 1 + body, idx := rd } :: r.loops })
    skip

/-- LBRK: ends the innermost loop; with no loop it traps. -/
def execLbrk (q : Issue) (s : State) : Out :=
  finlenOp q (.lbrk q) s fun s =>
    match (runningReel s q.core).loops with
    | [] => trapHere s q.core 0x04 0 0
    | l :: t => modRunning s q.core fun r => { r with pc := l.last + 1, loops := t }

-- Loads and stores of words (R218)

/-- The address of LDW and STW, and whether it is legal. -/
def wordAddr (r : Reel) (ra : Nat) (imm : BitVec 12) : W64 × Bool :=
  let a := r.get ra + sext12 imm * 8
  (a, isCoreAddr (r.get ra).toNat && isCoreAddr a.toNat && a.toNat % 8 = 0)

/-- LDW. -/
def execLdw (q : Issue) (rd ra : Nat) (imm : BitVec 12) (s : State) : Out :=
  finlenOp q (.ldw q rd ra imm) s fun s =>
    let a := wordAddr (runningReel s q.core) ra imm
    if ¬ a.2 then trapHere s q.core 0x0A a.1.toNat 0
    else
      let v := BitVec.ofNat 64 (leNat (sramReads s q.core a.1.toNat 8))
      modRunning s q.core fun r => (r.set rd v).next 1

/-- STW. -/
def execStw (q : Issue) (rd ra : Nat) (imm : BitVec 12) (s : State) : Out :=
  finlenOp q (.stw q rd ra imm) s fun s =>
    let r := runningReel s q.core
    let a := wordAddr r ra imm
    if ¬ a.2 then trapHere s q.core 0x0A a.1.toNat 0
    else modRunning (sramWrites s q.core a.1.toNat (leBytes 8 (r.get rd).toNat)) q.core (·.next 1)

/-- TRAP: a software trap with its code in DETAIL (R236). -/
def execTrap (q : Issue) (code : BitVec 12) (s : State) : Out :=
  finlenOp q (.trap q code) s fun s => trapHere s q.core 0x01 0 code.toNat

end Sys2Proof.Machine
end

