-- ==== Sys2Proof/Machine/Barrier.lean ====
section
/-! DEFINITION. Barrier counters (R130 to R133, R223), descriptors at the heads of their queues (R222, R247), the shared
start and completion of descriptors (R243, R244), and what a fence waits for (R228). -/
namespace Sys2Proof.Machine

open Sys2Proof

/-- Send an arrival from a core: a local one is on its way to its counter; a remote one is queued on the circuit that carries its
descriptor's output, behind the words `after` of its MU, and travels on the packet lane when there is none (R131, R133, R244). -/
def sendArrival (s : State) (circuit : Option Nat) (after : List Nat) (a : Arrival) : State :=
  if a.src = a.dst then { s with fab := { s.fab with arrivals := s.fab.arrivals ++ [a] } }
  else match circuit, (core s a.src).place with
    | some k, some p =>
      let key := 4096 * p.slot + k
      let q : Item := { data := [], reel := 0, gen := false, mark := false, arr := some a, after := after }
      { s with fab := { s.fab with circ := tset [] s.fab.circ key (tget [] s.fab.circ key ++ [q]) } }
    | _, _ => { s with fab := { s.fab with flits := s.fab.flits ++ [{ at_ := a.src, dst := a.dst, arrival := a }] } }

/-- The MU of a core that a descriptor's output goes to, if it has one there. -/
def outMu (b : List Byte) : Option Nat :=
  match dEng b, dKind b with
  | 0, _ => if mDrain b = 0 then none else some (fld b 84 4 / muBytes)
  | 1, 0 => if (strm b 100).en then some ((strm b 100).addr / muBytes) else none
  | 1, 2 => if fld b 17 1 = 1 then some ((strm b 24).addr / muBytes) else none
  | 2, _ => some (bits (fld b 72 4) 23 0 / muBytes)
  | 3, _ => if bit (fld b 92 4) 31 then some (bits (fld b 92 4) 23 0 / muBytes) else none
  | 4, _ => if bits (fld b 16 1) 3 0 = 0 ∨ bits (fld b 16 1) 3 0 = 3 then some (fld b 32 8 % 0x1000000 / muBytes) else none
  | _, _ => none

/-- The circuit from an MU of a core to another core, the first of the image's route list (log 72). -/
def circuitTo (s : State) (c mu d : Nat) : Option Nat :=
  match (core s c).place, (core s d).place with
  | some p, some q =>
    let img := (slotOf s p.slot).img
    if p.slot ≠ q.slot then none
    else (((imgRecs img 0x09 16).map fun o => slice img o 16).find? fun r =>
      decide (fld r 2 1 = p.index ∧ bits (fld r 3 1) 1 0 = mu) && (receiversOf img r).any fun e => e.1 = q.index).map fun r => fld r 0 2
  | _, _ => none

/-- The physical core that a barrier reference names: 0xFF is the issuing core (R243). -/
def refCore (s : State) (c : Nat) (r : BRef) : Option Nat :=
  if r.core = 0xFF then some c else (core s c).place.bind fun p => coreAtIndex s p.slot r.core

/-- The circuit of a group: the ROUTE record whose DST_CORE is 0xFF and whose DST_MU is the group (R274). -/
def groupCircuit (img : List Byte) (g : Nat) : Option Nat :=
  (((imgRecs img 0x09 16).map fun o => slice img o 16).find? fun r => fld r 4 1 = 0xFF ∧ fld r 5 1 = g).map fun r => fld r 0 2

/-- The circuit that carries a descriptor's output from core `c` to core `d`, if there is one: of a multicast descriptor its group's, when
the core is one of the group's receivers. -/
def outCircuit (s : State) (c : Nat) (b : List Byte) (d : Nat) : Option Nat :=
  if dEng b = 5 then
    let img := imgOf s c
    let g := fld b 16 1
    if (imgRecs img 0x0A 32).any fun o => decide (fld img o 1 = g ∧ (core s d).place.map (·.index) = some (fld img (o + 2) 1)) then groupCircuit img g
    else none
  else (outMu b).bind fun m => circuitTo s c m d

/-- The words of MU `m` in some ranges that a circuit has not carried since they were written (R133). -/
def unsent (s : State) (c m circuit : Nat) (rs : List (Nat × Nat)) : List Nat :=
  match (core s c).place with
  | none => []
  | some p =>
    let ws := rs.flatMap fun r => if r.2 = 0 then [] else (List.range ((r.1 + r.2 - 1) / 64 - r.1 / 64 + 1)).map fun i => (r.1 / 64 + i) % 65536
    ws.filter fun w => tget [] s.fab.sent (65536 * (4096 * p.slot + circuit) + w) ≠ sramReads s c (m * muBytes + 64 * w) 64

/-- Arrive on a reference of the descriptor `b`, behind its writes in the ranges `rs` (R133, R244); a reference that names no barrier does
nothing. -/
def arriveOut (s : State) (c id : Nat) (b : List Byte) (r : BRef) (rs : List (Nat × Nat)) : State :=
  if r.n = 0 then s
  else match refCore s c r with
    | some d =>
      let k := outCircuit s c b d
      sendArrival s k (match k, outMu b with | some k, some m => unsent s c m k rs | _, _ => [])
        { src := c, id := id, csq := none, dst := d, mu := r.mu, ctr := r.ctr, n := r.n }
    | none => s

/-- Arrive on a reference of the descriptor `b` that stands behind no output of it. -/
def arriveRef (s : State) (c id : Nat) (b : List Byte) (r : BRef) : State := arriveOut s c id b r []

/-- The arrival of a prefetch on its consume barrier is noted with it, at the core that made it (R157, R159). -/
def notePrefetch (s : State) (a : Arrival) : State :=
  if a.csq.isSome then s
  else
    let mine := fun (r : XfrRun) => decide (r.desc.id = a.id ∧ (dAuxb r.desc.bytes).n ≠ 0 ∧ (dAuxb r.desc.bytes).mu = a.mu ∧
      (dAuxb r.desc.bytes).ctr = a.ctr ∧ refCore s a.src (dAuxb r.desc.bytes) = some a.dst ∧ ¬ r.arrived)
    modCore s a.src fun x => { x with
      guards := updFirst (fun g => g.desc.id = a.id ∧ g.bar = a.dst ∧ g.mu = a.mu ∧ g.ctr = a.ctr ∧ g.moved ∧ ¬ g.arrived)
        (fun g => { g with arrived := true }) x.guards,
      xfrs := updFirst mine (fun r => { r with arrived := true }) x.xfrs }

/-- Rectangle index of a core. -/
def indexOf (x : Core) : Nat := match x.place with | some p => p.index | none => 0

/-- An arrival takes effect (R131, R132): COUNT rises by n; beyond 65,535 it stays there, MU_ERR.BAR_OVF is set and the
core that sent the arrival traps. -/
def applyArrival (s : State) (a : Arrival) : State :=
  let x := core s a.dst
  let b := barOf x a.mu a.ctr
  if 65535 < b.count + a.n then
    let s := setCore s a.dst (withBar x a.mu a.ctr { b with count := 65535 })
    let s := corr s (muBase a.dst a.mu + 0x20) 2
    let val := indexOf x * 256 + a.mu * 64 + a.ctr
    match a.csq with
    | some (r, pc) => trapCore s a.src 0x0B val (a.mu * 64 + a.ctr) r pc
    | none => trapHere s a.src 0x0B val (a.mu * 64 + a.ctr)
  else notePrefetch (setCore s a.dst (withBar x a.mu a.ctr { b with count := b.count + a.n })) a

/-- BARRIER_ARRIVAL (R131): arrival `k` of those under way takes effect. In the model every write is in SRAM when its own
step ends, so R133 holds of any order. -/
def execBarrierArrival (k : Nat) (s : State) : Out :=
  match s.fab.arrivals[k]? with
  | none => .next s
  | some a =>
    when_ (fast s) s
      (applyArrival { s with fab := { s.fab with arrivals := s.fab.arrivals.eraseIdx k } } a)

-- Waiters (R131)

/-- Queue a waiter; a counter holds at most 32. -/
def joinBar (x : Core) (mu ctr : Nat) (w : Waiter) : Option Core :=
  let b := barOf x mu ctr
  if b.waiters.length < 32 then some (withBar x mu ctr { b with waiters := b.waiters ++ [w] }) else none

/-- The keys of a core's issue queues. -/
def queueKeys : List Nat := [0, 1, 2, 4, 5, 8, 9, 10, 11, 16, 17, 18, 19]

/-- Replace the head of a queue. -/
def setHead (x : Core) (key : Nat) (d : QDesc) : Core := withQueue x key (d :: (queueOf x key).tail)

/-- The descriptor at the head of a queue joins the waiters of its START counter, when it names one and has not joined. -/
def joinHead (x : Core) (key : Nat) : Core :=
  match queueOf x key with
  | d :: _ =>
    let r := dStart d.bytes
    if d.joined ∨ r.n = 0 then x
    else match joinBar x r.mu r.ctr { who := .desc d.id, n := r.n } with
      | some y => setHead y key { d with joined := true }
      | none => x
  | [] => x

/-- Every queue's head joins. -/
def joinHeads (x : Core) : Core := queueKeys.foldl joinHead x

/-- The head of a queue whose START is satisfied (R222). -/
def readyHead (x : Core) (key : Nat) : Option QDesc :=
  match queueOf x key with
  | d :: _ => if d.released ∨ (dStart d.bytes).n = 0 then some d else none
  | [] => none

/-- Take the head off a queue; the next one joins its counter. -/
def popHead (x : Core) (key : Nat) : Core := joinHeads (withQueue x key (queueOf x key).tail)

/-- Which prefetches a wait for `w` takes arrivals of, oldest first, and how much is left of the last. -/
def takeArrivals {α : Type} : Nat → List (α × Nat) → List α × Nat
  | _, [] => ([], 0)
  | w, (id, n) :: t =>
    if w = 0 then ([], 0)
    else if w ≤ n then ([id], n - w)
    else let r := takeArrivals (w - n) t; (id :: r.1, r.2)

/-- The prefetches of a core whose arrivals on a barrier have been counted and not taken, oldest first: guarded ones by issue number and
read, then versioned reads, each with its n. -/
def arrivedPrefetches (s : State) (c mu ctr d : Nat) : List ((Nat × Nat × Nat) × Nat) :=
  let x := core s d
  let gs := (x.guards.filter fun g => g.bar = c ∧ g.mu = mu ∧ g.ctr = ctr ∧ g.arrived).map fun g => ((d, g.desc.id, g.read), g.n)
  let vs := (x.xfrs.filter fun r => (dAuxb r.desc.bytes).mu = mu ∧ (dAuxb r.desc.bytes).ctr = ctr ∧ r.arrived ∧ ¬ r.consumed ∧
    refCore s d (dAuxb r.desc.bytes) = some c ∧ (gs.all fun g => g.1.2.1 ≠ r.desc.id)).map fun r => ((d, r.desc.id, 0), (dAuxb r.desc.bytes).n)
  gs ++ vs

/-- A core's prefetches that a wait on a barrier of core `c` has taken: guard entries are freed, versioned reads released. -/
def release (c mu ctr d : Nat) (l : List (Nat × Nat × Nat)) (x : Core) : Core :=
  { x with guards := x.guards.filter fun g => ¬(g.bar = c ∧ g.mu = mu ∧ g.ctr = ctr ∧ g.arrived ∧ (d, g.desc.id, g.read) ∈ l),
           xfrs := x.xfrs.map fun r => if (d, r.desc.id, 0) ∈ l then { r with consumed := true } else r }

/-- A satisfied wait consumes the prefetches whose arrivals it takes (R157, R159), on whichever core they were made (R243). Those of
different cores are taken in the order of their core numbers: DESIGN CHOICE (log 74). -/
def consume (s : State) (c mu ctr w : Nat) : State :=
  let b := barOf (core s c) mu ctr
  if w ≤ b.rest then modCore s c fun x => withBar x mu ctr { b with rest := b.rest - w }
  else
    let cs := s.cores.map (·.1)
    let t := takeArrivals (w - b.rest) (cs.flatMap (arrivedPrefetches s c mu ctr))
    let s := modCore s c fun x => withBar x mu ctr { b with rest := t.2 }
    cs.foldl (fun s d => modCore s d (release c mu ctr d t.1)) s

/-- What a satisfied waiter does: a reel goes on, a descriptor may start, the MXE reads its check word. -/
def satisfied (x : Core) : Who → Core
  | .reel r => withReel x r { reelOf x r with hold := .free }
  | .desc q => { x with queues := x.queues.map fun e => (e.1, e.2.map fun d => if d.id = q then { d with released := true } else d) }
  | .mxeCheck => { x with mxe := { x.mxe with pass := x.mxe.pass.map fun p => { p with checkOk := true } } }

/-- The queue of an engine: the AGs of an MU, or a steering unit, by `sub` (R221). -/
def queueOfEng (eng sub : Nat) : Nat := if eng = 3 then 8 + sub else if eng = 6 then 16 + sub else eng

-- Fences (R228)

/-- Whether a descriptor below an issue number is queued or runs on a core, or an arrival of one is under way. -/
def descOut (s : State) (c limit : Nat) : Bool :=
  let x := core s c
  let old := fun (d : QDesc) => decide (d.id < limit)
  (x.queues.any fun e => e.2.any old) || (match x.mxe.pass with | some p => old p.desc | none => false) ||
    x.mxe.drains.any (fun d => old d.desc) || x.vce.walks.any (fun w => old w.desc) ||
    (match x.red.run with | some r => old r.desc | none => false) || x.ags.any (fun g => old g.desc) ||
    x.xfrs.any (fun r => old r.desc) || (x.vce.reels ++ x.agReels).any (fun e => match e.2.shadow with | some d => old d | none => false) ||
    x.mcasts.any (fun m => old m.desc) || x.stus.any (fun e => match e.2.next with | some d => old d | none => false) ||
    s.fab.circ.any (fun e => e.2.any fun q => match q.arr with | some a => decide (a.src = c ∧ a.csq = none ∧ a.id < limit) | none => false) ||
    s.fab.arrivals.any (fun a => a.src = c ∧ a.csq = none ∧ a.id < limit) ||
    s.fab.flits.any (fun f => f.arrival.src = c ∧ f.arrival.csq = none ∧ f.arrival.id < limit)

/-- Whether a write sent before an issue number is not in place: a commit copy, or a posted request of a STORE or of a program that
writes. -/
def writeOut (s : State) (c limit : Nat) : Bool :=
  let x := core s c
  (x.ctrReqs.any fun r => r.copying ∧ r.id < limit) ||
    x.reqs.any fun q => q.no < limit ∧ (q.write ∨ (q.xfr ∧ x.xfrs.any fun r => r.desc.id = q.id ∧ bits (fld r.desc.bytes 16 1) 3 0 = 1))

/-- Whether a remote write that the core's XFR sent before an issue number is not acknowledged (R228, R353). -/
def landingOut (s : State) (c limit : Nat) : Bool :=
  s.net.qps.any fun e => (e.2.sendq ++ e.2.held).any fun m =>
    match m.kind with | .rwrite c' _ no => c' = c ∧ no < limit | _ => false

/-- Whether every kind that a fence names is complete (R228). -/
def fenceDone (s : State) (c mask limit : Nat) : Bool :=
  (!bit mask 0 || !writeOut s c limit) && (!bit mask 1 || !descOut s c limit) && (!bit mask 2 || !landingOut s c limit)

end Sys2Proof.Machine
end

