-- ==== Sys2Proof/Machine/FinlenSys.lean ====
section
/-! DEFINITION. Finlen: descriptors, barriers, work counters and commits, fences, reels and CSRs (R220 to R232, R235). -/
namespace Sys2Proof.Machine

open Sys2Proof

/-- An instruction that waits to issue while `ready` is false: nothing happens until it is true. -/
def finlenWait (q : Issue) (i : Instr) (s : State) (ready : Bool) (run : State → State) : Out :=
  finlenOp q i s fun t => if ready then run t else s

/-- A setting that the take on a core latched at its start (R12). -/
def cfgOf (s : State) (c a : Nat) : W64 := tget (regReset a) (core s c).cfg a

/-- Advance the running reel past an instruction. -/
def stepPc (s : State) (c : Nat) (i : Instr) : State := modRunning s c (·.next (wordsOf i))

/-- The next issue number of a core, and the core with it used. -/
def nextId (x : Core) : Nat × Core := (x.issued + 1, { x with issued := x.issued + 1 })

-- ISSUE (R220)

/-- Whether an actual length exceeds its ALMAX value (R273, R288). -/
def alBeyond (img : List Byte) (n v : Nat) : Bool :=
  match imgSect img 0x0C with
  | some (off, _, k) => decide (n < k) && decide (fld img (off + 4 * n) 4 < v)
  | none => false

/-- Queue a descriptor that ISSUE has accepted: the copy, its effective extents and whether it is skipped. -/
def enqueue (s : State) (c key : Nat) (b : List Byte) : State :=
  let al := fun n => (cget s (alAddr c n)).toNat
  let ext := effExtents al b
  modCore s c fun x =>
    let n := nextId x
    joinHeads (withQueue n.2 key
      (queueOf n.2 key ++ [{ id := n.1, bytes := b, ext := ext, skip := isSkip b ext, joined := false, released := false }]))

/-- ISSUE (R220): the address, a place in the queue, the type, the fields, and the actual lengths, in that order. -/
def execIssue (q : Issue) (ra eng : Nat) (size : Bool) (off : Nat) (s : State) : Out :=
  let c := q.core
  let x := core s c
  let a := issueAddr (runningReel s c) ra off
  let len := if size then 128 else 64
  let b := sramReads s c a len
  let key := issueQueue s c eng a size
  let bad := ¬(isCoreAddr a ∧ a % 64 = 0 ∧ inMu a len)
  finlenWait q (.issue q ra eng size off) s (bad ∨ (queueOf x key).length < queueDepth eng) fun s =>
    if bad then trapHere s c 0x07 a 0
    else if dEng b ≠ eng ∨ dSize b ≠ size ∨ ¬ typeOk b then trapHere s c 0x08 (fld b 0 8) 0
    else match descBad (indexOf x) (rectOf x) (a / muBytes) ((cfgOf s c (vceBase c)).getLsbD 0) b with
      | some o => trapHere s c 0x09 o 0
      | none => stepPc (enqueue s c key b) c (.issue q ra eng size off)

-- Barriers (R223)

/-- ARRIVE: on the core's own counter, or with REM on that of the core whose rectangle index is s[ra]. -/
def execArrive (q : Issue) (ra mu ctr n : Nat) (rem : Bool) (s : State) : Out :=
  let c := q.core
  finlenOp q (.arrive q ra mu ctr n rem) s fun s =>
    let r := runningReel s c
    let x := core s c
    let go := fun (d : Nat) =>
      let k := nextId x
      let s := sendArrival (setCore s c k.2) none []
        { src := c, id := k.1, csq := some (x.running, r.pc), dst := d, mu := mu, ctr := ctr, n := n }
      stepPc s c (.arrive q ra mu ctr n rem)
    if ¬ rem then go c
    else match (if rectOf x ≤ (r.get ra).toNat then none else x.place.bind fun p => coreAtIndex s p.slot (r.get ra).toNat) with
      | some d => go d
      | none => trapHere s c 0x0C (r.get ra).toNat 0

/-- WAIT: the reel joins the counter's queue and is held; with 32 waiters it waits to join (R131). -/
def execWait (q : Issue) (mu ctr n : Nat) (s : State) : Out :=
  let c := q.core
  let room := (barOf (core s c) mu ctr).waiters.length < 32
  finlenWait q (.wait q mu ctr n) s room fun s =>
    let s := stepPc s c (.wait q mu ctr n)
    modCore s c fun x =>
      match joinBar x mu ctr { who := .reel x.running, n := n } with
      | some y => withReel y x.running { reelOf y x.running with hold := .bar mu ctr }
      | none => x

-- Reels (R229)

/-- RSTART: another reel starts with copies of the registers and empty stacks. DEDUCED (log 36): the value of its trap is the reel it names. -/
def execRstart (q : Issue) (z : Nat) (off : BitVec 19) (s : State) : Out :=
  let c := q.core
  finlenOp q (.rstart q z off) s fun s =>
    if (reelOf (core s c) z).started then trapHere s c 0x13 z 0
    else
      let r := runningReel s c
      let s := modCore s c fun x =>
        withReel x z { started := true, regs := r.regs, preds := r.preds, pc := target r.pc off }
      stepPc s c (.rstart q z off)

/-- Give the issue to the next reel with input, if there is one (R153). -/
def switchReel (s : State) (c : Nat) : State := setCore s c { core s c with running := (nextReel s c).getD (core s c).running }

/-- YIELD: the running reel's quantum ends. -/
def execYieldReel (q : Issue) (s : State) : Out :=
  let c := q.core
  finlenOp q (.yieldReel q) s fun s => switchReel (stepPc s c (.yieldReel q)) c

/-- REXIT: the running reel ends and its pending results are discarded. What it has sent stays sent: an increment is still added, and
a commit still recorded and copied. DEDUCED: a claim out of range, which it would learn only from a result, traps no more (log 73). -/
def execRexit (q : Issue) (s : State) : Out :=
  let c := q.core
  finlenOp q (.rexit q) s fun s =>
    if (core s c).running = 0 then trapHere s c 0x13 0 0
    else switchReel (modCore s c fun x =>
      withReel { x with ctrReqs := x.ctrReqs.map fun r => if r.reel = x.running then { r with killed := true } else r } x.running {}) c

-- Fences (R228)

/-- FENCE: the reel is held until what it names, as of its issue, is complete. -/
def execFence (q : Issue) (fn : Nat) (s : State) : Out :=
  let c := q.core
  finlenOp q (.fence q fn) s fun s =>
    let s := stepPc s c (.fence q fn)
    modRunning s c fun r => { r with hold := .fence fn ((core s c).issued + 1) }

-- Work counters (R224, R225)

/-- The work counter that an instruction's number is bound to on a core (R160). -/
def boundCtr (s : State) (c : Nat) (dev : Bool) (num : Nat) : Option Nat :=
  match (core s c).place with
  | none => none
  | some p =>
    ((slotOf s p.slot).wkcs.find? fun w => bits w.1 8 0 = num ∧ bit w.1 9 = dev ∧ (dev ∨ w.2.1 = c / 26)).map fun w => w.2.2

/-- Send a counter request of the running reel. -/
def sendCtr (s : State) (c : Nat) (f : Nat → Nat → Nat → CtrReq) : State :=
  modCore s c fun x =>
    let n := nextId x
    { n.2 with ctrReqs := n.2.ctrReqs ++ [f n.1 x.running (reelOf x x.running).pc] }

/-- FETCH: an increment outside 1 to 65,535 traps; otherwise the request is sent and the reel goes on. -/
def execFetch (q : Issue) (rd ra rb : Nat) (dev : Bool) (num : Nat) (s : State) : Out :=
  let c := q.core
  let ctr := boundCtr s c dev num
  finlenWait q (.fetch q rd ra rb dev num) s ctr.isSome fun s =>
    let r := runningReel s c
    let inc := (r.get ra).toNat
    if inc = 0 ∨ 65535 < inc then trapHere s c 0x0D inc 0
    else
      let s := sendCtr s c fun id reel pc =>
        { id := id, reel := reel, pc := pc, rd := rd, tcmt := false, ctr := ctr.getD 0, reqId := (r.get rb).toNat % 65536,
          arg := inc, ranges := [], resent := false, answer := none, copying := false, copied := false, killed := false }
      stepPc s c (.fetch q rd ra rb dev num)

/-- The request that an event of a core names: the first of that reel and destination register with a property. -/
def findReq (x : Core) (reel rd : Nat) (p : CtrReq → Bool) : Option CtrReq :=
  x.ctrReqs.find? fun r => r.reel = reel ∧ r.rd = rd ∧ p r

/-- Change one counter request by its issue number. -/
def modReq (x : Core) (id : Nat) (f : CtrReq → CtrReq) : Core := { x with ctrReqs := updFirst (fun r => r.id = id) f x.ctrReqs }

/-- Remove one counter request. -/
def dropReq (x : Core) (id : Nat) : Core := { x with ctrReqs := delFirst (fun r => r.id = id) x.ctrReqs }

/-- Write a result to a reel's register. -/
def setReg (x : Core) (reel rd : Nat) (v : W64) : Core := withReel x reel ((reelOf x reel).set rd v)

/-- FETCH_ANSWER (R224): the answer is written to rd, zero-extended. -/
def execFetchAnswer (c reel rd : Nat) (s : State) : Out :=
  let x := core s c
  onUnit (coreOk c && reelOk reel && regOk rd) s <|
    match findReq x reel rd fun r => !r.tcmt && r.answer.isSome && !r.killed with
    | none => .next s
    | some r => when_ (fast s && !x.fenced) s (setCore s c (dropReq (setReg x reel rd (BitVec.ofNat 64 (r.answer.getD 0))) r.id))

/-- COUNTER_RESEND (R225): a request without an answer is sent again with its resend bit set. -/
def execCounterResend (c reel rd : Nat) (s : State) : Out :=
  let x := core s c
  onUnit (coreOk c && reelOk reel && regOk rd) s <|
    match findReq x reel rd fun r => !r.copying && !r.killed with
    | none => .next s
    | some r => when_ (fast s && !x.fenced) s (setCore s c (modReq x r.id fun r => { r with resent := true }))

-- Commits (R226)

/-- The ranges of a commit record: source, length, destination. -/
def commitRanges (b : List Byte) : List (Nat × Nat × Nat) :=
  (List.range (fld b 0 1)).map fun i => (fld b (8 + 16 * i) 4, fld b (12 + 16 * i) 4, fld b (16 + 16 * i) 8)

/-- Whether a commit record is faulty (step 1, COMMIT_REC). -/
def commitBad (b : List Byte) : Bool :=
  !zeroAt b 1 7 || !zeroAt b 56 8 || decide (3 < fld b 0 1) || (commitRanges b).any fun r =>
    !(isCoreAddr r.1 && decide (r.1 % 64 = 0 ∧ r.2.1 % 64 = 0 ∧ 64 ≤ r.2.1 ∧ r.2.1 ≤ 0x400000 ∧ r.2.2 % 64 = 0 ∧ r.2.2 < 2 ^ 48) &&
      inMu r.1 r.2.1)

/-- The address of the version that takes write (R315), or of the one copy of another buffer. -/
def Buf.target (b : Buf) : Nat := if b.kind = 2 ∧ b.pub = 0 then b.addr1 else b.addr0

/-- Whether a destination lies wholly in one VERSIONED or PRIVATE buffer of the image, in the version the take writes. -/
def commitDst (s : State) (c : Nat) (r : Nat × Nat × Nat) : Bool :=
  match (core s c).place with
  | none => false
  | some p => (slotOf s p.slot).bufs.any fun b => (b.kind = 2 ∨ b.kind = 3) ∧ b.target ≤ r.2.2 ∧ r.2.2 + r.2.1 ≤ b.target + b.size

/-- TCMT: the record is read and checked, then the claim is sent to the ledger. DEDUCED (log 36): s[rb] that is no core address aligned at
64 B, for which R226 lists no trap of its own, traps as a bad record does. -/
def execTcmt (q : Issue) (rd ra rb : Nat) (dev : Bool) (num : Nat) (s : State) : Out :=
  let c := q.core
  let ctr := boundCtr s c dev num
  finlenWait q (.tcmt q rd ra rb dev num) s ctr.isSome fun s =>
    let r := runningReel s c
    let a := (r.get rb).toNat
    let b := sramReads s c a 64
    if ¬(isCoreAddr a ∧ a % 64 = 0) ∨ commitBad b then trapHere s c 0x0F a 0
    else match (commitRanges b).find? fun g => !commitDst s c g with
      | some g => trapHere s c 0x10 g.2.2 0
      | none =>
        let s := sendCtr s c fun id reel pc =>
          { id := id, reel := reel, pc := pc, rd := rd, tcmt := true, ctr := ctr.getD 0, reqId := 0,
            arg := (r.get ra).toNat % 2 ^ 32, ranges := commitRanges b, resent := false, answer := none, copying := false,
            copied := false, killed := false }
        stepPc s c (.tcmt q rd ra rb dev num)

/-- The copies of a commit (step 4): each range from the core's SRAM to its destination. The first that the memory refuses
ends the command (R319). -/
def commitCopies (s : State) (c : Nat) : List (Nat × Nat × Nat) → State
  | [] => s
  | g :: t =>
    match writeMem s g.2.2 (sramReads s c g.1 g.2.1) with
    | (.done, s) => commitCopies s c t
    | (r, s) => accessFail s c r g.2.2

/-- TCMT_ANSWER (R226): 0x0A is written to rd for a duplicate, a claim out of range traps, and DONE starts the copies. In
the model the copies are made as a whole when they start (log 18). After REXIT nothing of it reaches the reel. -/
def execTcmtAnswer (c reel rd : Nat) (s : State) : Out :=
  let x := core s c
  onUnit (coreOk c && reelOk reel && regOk rd) s <|
    match findReq x reel rd fun r => r.tcmt && r.answer.isSome && !r.copying with
    | none => .next s
    | some r =>
      if ¬ fast s ∨ x.fenced then .next s
      else if r.killed ∧ r.answer ≠ some 0 then .next (setCore s c (dropReq x r.id))
      else if r.answer = some 0x0A then .next (setCore s c (dropReq (setReg x reel rd 0x0A) r.id))
      else if r.answer = some 0x0E then .next (trapCore (setCore s c (dropReq x r.id)) c 0x0E r.arg 0 reel r.pc)
      else .next (commitCopies (setCore s c (modReq x r.id fun r => { r with copying := true })) c r.ranges)

/-- TCMT_COPY_DONE (R226, R238): every source byte is read and rd receives 0; after a kill nothing is written to rd. -/
def execTcmtCopyDone (c reel rd : Nat) (s : State) : Out :=
  let x := core s c
  onUnit (coreOk c && reelOk reel && regOk rd) s <|
    match findReq x reel rd fun r => r.copying with
    | none => .next s
    | some r =>
      when_ (fast s && !x.fenced) s (setCore s c (dropReq (if r.killed then x else setReg x reel rd 0) r.id))

-- CSRs (R232)

/-- The CSR address that a CSRR or CSRW offset names on a core. -/
def ownCsr (c : Nat) (imm : W32) : Nat :=
  if imm.getLsbD 20 then dieBase (c / 26) + imm.toNat % 2 ^ 20 else coreBase c + imm.toNat % 2 ^ 20

/-- CSRR: reads a register of the core's block or of its die's common block; an offset without a register is ADDR_UNMAPPED
(R7, R319). -/
def execCsrr (q : Issue) (rd : Nat) (imm : W32) (s : State) : Out :=
  let c := q.core
  finlenOp q (.csrr q rd imm) s fun s =>
    match csrRead s (ownCsr c imm) with
    | some v => modRunning (takeFree s).2 c fun r => (r.set rd v).next 2
    | none => accessFail s c .unmapped (ownCsr c imm)

/-- CSRW: writes ra[31:0] to a CSQ_AL register; a length beyond its ALMAX value voids the bound (R288, R289). -/
def execCsrw (q : Issue) (ra : Nat) (imm : W32) (s : State) : Out :=
  let c := q.core
  finlenOp q (.csrw q ra imm) s fun s =>
    let v := (runningReel s c).get ra
    let s := if alBeyond (imgOf s c) ((ownCsr c imm - alAddr c 0) / 8) (v.toNat % 2 ^ 32) then voidBound s c else s
    stepPc (cset s (ownCsr c imm) (v &&& 0xFFFFFFFF)) c (.csrw q ra imm)

-- Traps (R235, R237)

/-- TRAP_REPORT: the intake kills the take and ends its command, unless the take is killed already or the core is fenced. -/
def execTrapReport (c : Nat) (s : State) : Out :=
  let x := core s c
  onUnit (coreOk c) s <|
    when_ (fast s && x.trapped && !x.fenced && x.share ≠ .none && x.share ≠ .clearing) s <|
      let w := cget s (csqBase c + 0x10)
      endOfCore s c fun _ =>
        { status := 2, reason := 1, lcore := lcoreNo x, pc := wbits (cget s (csqBase c + 0x18)) 14 0,
          detail := wbits w 7 0 + wbits w 31 16 * 65536, value := (cget s (csqBase c + 0x20)).toNat }

end Sys2Proof.Machine
end

