-- ==== Sys2Proof/Machine/Wkc.lean ====
section
/-! DEFINITION. Work counters, their idempotence windows and their ledgers (R160 to R163). -/
namespace Sys2Proof.Machine

open Sys2Proof

/-- Where a counter's duplicates are counted: its die's or its hub's WKC_EVT_DUP. -/
def dupCounter (ctr : Nat) : Nat := if ctr < 512 then dieBase (ctr / 64) + 0x20200 else hubBase ((ctr - 512) / 256) + 0x800800

/-- Serve a fetch-add (R161, R162): a request that matches an entry of the window receives the stored value; another adds
its increment and is recorded, and the window keeps the last 256. -/
def fetchAdd (w : Wkc) (tag lcore reqId inc : Nat) : Nat × Wkc :=
  match w.window.find? fun e => e.tag = tag ∧ e.lcore = lcore ∧ e.reqId = reqId with
  | some e => (e.value, w)
  | none =>
    (w.value, { w with value := (w.value + inc) % 2 ^ 32,
                       window := ({ tag := tag, lcore := lcore, reqId := reqId, value := w.value } :: w.window).take 256 })

/-- Record a claim (R163, R227): 0 for a first claim, 0x0A for one already in the ledger, 0x0E for one outside its range. -/
def claim (w : Wkc) (core claim : Nat) : Nat × Wkc :=
  if 65536 ≤ (claim + 2 ^ 32 - w.init) % 2 ^ 32 then (0x0E, w)
  else if w.ledger.any fun e => e.1 = claim then (0x0A, w)
  else (0, { w with ledger := w.ledger ++ [(claim, core)] })

/-- WKC_FETCH_ADD (R161): the counter serves a request of a core that is not fenced (R164); an answer that nobody awaits any more is
dropped (R229). -/
def execWkcFetchAdd (c reel rd : Nat) (s : State) : Out :=
  let x := core s c
  onUnit (coreOk c && reelOk reel && regOk rd) s <|
    match findReq x reel rd fun r => !r.tcmt && (r.answer.isNone || r.resent) with
    | none => .next s
    | some r =>
      let tag := match x.take with | some t => t.2 | none => 0
      let a := fetchAdd (wkcOf s r.ctr) tag (lcoreNo x) r.reqId r.arg
      when_ (fast s && !x.fenced) s
        (setCore (setWkc s r.ctr a.2) c
          (if r.killed then dropReq x r.id else modReq x r.id fun r => { r with answer := some a.1, resent := false }))

/-- LEDGER_COMMIT (R163): a commit reaches its ledger; a resent one that has its status keeps it (R225). -/
def execLedgerCommit (c reel rd : Nat) (s : State) : Out :=
  let x := core s c
  onUnit (coreOk c && reelOk reel && regOk rd) s <|
    match findReq x reel rd fun r => r.tcmt && r.answer.isNone with
    | none => .next s
    | some r =>
      let a := claim (wkcOf s r.ctr) c r.arg
      let t := setCore (setWkc s r.ctr a.2) c (modReq x r.id fun r => { r with answer := some a.1, resent := false })
      when_ (fast s && !x.fenced) s (if a.1 = 0x0A then bump t (dupCounter r.ctr) 1 else t)

end Sys2Proof.Machine
end

