-- ==== Sys2Proof/Machine/Mxe.lean ====
section
/-! DEFINITION. The matrix engine (R57 to R84, R250 to R254): exact products, group alignment, A48 entries, the range test,
passes, repeats, chain raises, prediction and drains; and the exposure scales that descriptors name (R245, R416). -/
namespace Sys2Proof.Machine

open Sys2Proof

-- Scale words (R245, R416)

/-- Λ of a format; FP32 and the other formats have none. -/
def lambdaOf (fmt : Nat) : Option Nat :=
  match fmt with
  | 1 | 2 => some 65504
  | 3 => some 448
  | 4 => some 57344
  | 5 => some 127
  | 6 => some 6
  | _ => none

/-- 2^k as an FP32 word, for k from −126 to 127. -/
def pow2Word (k : Int) : W32 := r32 (dyadic false 1 k)

/-- The least k from −126 to 127 with `a × 2^margin ÷ 2^k ≤ Λ`, or 127. -/
def autoExp (a : W32) (margin lam : Nat) : Int :=
  let ok := fun (k : Int) => !((Num.fin false lam 1).mul (dyadic false 1 k)).lt ((d32 a).mul (dyadic false 1 margin))
  match (List.range 254).find? fun i => ok ((i : Int) - 126) with
  | some i => (i : Int) - 126
  | none => 127

/-- The coarse scale of a latched tag for a format: a format without Λ takes 1.0. -/
def ScaleSrc.word (x : ScaleSrc) (fmt : Nat) : W32 :=
  match lambdaOf fmt with
  | none => f32One
  | some l => if x.a = 0 then pow2Word x.fixedExp else pow2Word (autoExp x.a x.margin l)

/-- The coarse scale that a scale word stands for in the take on a core. -/
def coarse (s : State) (c fmt w : Nat) : W32 :=
  if w < 2 ^ 31 then BitVec.ofNat 32 w
  else match takeOfCore s c with
    | some t => (tget {} t.scales (scaleTag w)).word fmt
    | none => f32One

/-- The larger of two magnitudes, as FP32 words. -/
def maxMag (a b : W32) : W32 := if a.ult b then b else a

/-- Record magnitudes for an exposure tag on a core (R118, R414): NaN and infinities are passed over. -/
def recordExpo (x : Core) (tag : Nat) (vs : List W32) : Core :=
  if tag = 0 ∨ vs = [] then x
  else
    let m := vs.foldl (fun a v =>
      match d32 v with | .fin _ _ _ => maxMag a (v &&& 0x7FFFFFFF) | _ => a) ((tget none x.red.expo tag).getD 0)
    { x with red := { x.red with expo := tset none x.red.expo tag (some m) } }

-- Elements in SRAM

/-- The raw bits of element `idx` of an array at a core address; K4 packs two to a byte (R33). -/
def rawElem (s : State) (c base fmt idx : Nat) : Nat :=
  if fmt = 6 then
    let b := fld (sramReads s c (base + idx / 2) 1) 0 1
    if idx % 2 = 0 then b % 16 else b / 16
  else fld (sramReads s c (base + idx * (elemBits fmt / 8)) (elemBits fmt / 8)) 0 (elemBits fmt / 8)

-- One cell of a tile (R60 to R65)

/-- Join two special states (R62): 0 finite, 1 +Inf, 2 −Inf, 3 NaN. -/
def specJoin (a b : Nat) : Nat := if a = 0 then b else if b = 0 then a else if a = b then a else 3

/-- The special state of one value. -/
def specOf : Num → Nat
  | .nan => 3
  | .inf neg => if neg then 2 else 1
  | .fin _ _ _ => 0

/-- `floor (v × 2^e)`. -/
def shiftFloor (v : Int) (e : Int) : Int := if 0 ≤ e then v * 2 ^ e.toNat else Int.fdiv v (2 ^ (-e).toNat)

/-- A product truncated toward zero to a multiple of 2^q, as that multiple. -/
def truncAt (q : Int) : Num → Int
  | .fin neg n d => Num.sgn neg (if 0 ≤ q then n / (d * 2 ^ q.toNat) else n * 2 ^ (-q).toNat / d)
  | _ => 0

/-- Exponent of the largest finite non-zero product of a group. -/
def groupExp (ps : List Num) : Option Int :=
  ps.foldl (fun a p =>
    match p with
    | .fin _ n d => if n = 0 then a else match a with | none => some (ilog2 n d) | some e => some (max e (ilog2 n d))
    | _ => a) none

/-- The A48 entry of one product group of window `w` at exponent S (R61, R63). In class X every product is an exact
multiple of the scales' weight, and nothing is truncated. -/
def groupEntry (w : Nat) (S : Int) (ps : List Num) : Int :=
  match groupExp ps with
  | none => 0
  | some e =>
    let q : Int := if w = 0 then e - 20 else e - w + 1
    shiftFloor ((ps.map (truncAt q)).foldl (· + ·) 0) (q + 32 - S)

/-- r of R64. -/
def rOf (kTotal xg : Nat) : Nat := Nat.clog 2 (cdiv kTotal 16 + xg)

/-- The range test of an entry (R65). -/
def inRange (r : Nat) (a : Int) : Bool := decide (a.natAbs ≤ 2 ^ (47 - r) - 1)

/-- The value of operand element (row, k) with its block scale (R60, R251): k counts from K_START. -/
def opndValue (s : State) (c : Nat) (o : Opnd) (fmt kStart row k : Nat) : Num :=
  let v := elemValue fmt (rawElem s c (o.addr + row * o.pitch * 64) fmt k)
  let e := if o.scaled then fld (sramReads s c (o.saddr + row * o.spitch * 16 + (kStart % 32 + 16 * (k / 16)) / 32) 1) 0 1 else 127
  v.mul (blockScale e)

/-- Whether block (group g, band t) of the A operand is predicted zero (R254). -/
def predicted (s : State) (c : Nat) (b : List Byte) (g t : Nat) : Bool :=
  bit (fld (sramReads s c (bits (fld b 104 4) 23 0 + t * fld b 108 4 + g / 8) 1) 0 1) (g % 8)

/-- An operand element of a row beyond its effective extent enters as zero, whatever its block scale (R248). -/
def boundedOpnd (row extent : Nat) (v : Num) : Num := if row < extent then v else .fin false 0 1

/-- The products of a cell in one group, out-of-bounds cells too (R249); a skipped block gives zeros (R77), positions beyond K give
none. -/
def cellProducts (s : State) (c : Nat) (p : MxePass) (i j g : Nat) : List Num :=
  let b := p.desc.bytes
  let k := p.desc.ext.getD 2 0
  if 8 * g + i / 16 ∈ p.sched then []
  else (List.range (min 16 (k - 16 * g))).map fun x =>
    (boundedOpnd i (p.desc.ext.getD 1 0) (opndValue s c (opnd b 52) (mFmtA b) (mKStart b) i (16 * g + x))).mul
      (boundedOpnd j (p.desc.ext.getD 0 0) (opndValue s c (opnd b 68) (mFmtB b) (mKStart b) j (16 * g + x)))

/-- Groups of a pass. -/
def groupsOf (p : MxePass) : Nat := cdiv (p.desc.ext.getD 2 0) 16

/-- The preload value of BIAS or RESIDUAL at a cell (R74). -/
def preValue (s : State) (c : Nat) (b : List Byte) (i j : Nat) : Num :=
  let a := bits (fld b 96 4) 23 0
  elemValue (mPreFmt b) (rawElem s c (if mPreload b = 2 then a + i * fld b 100 2 * 64 else a) (mPreFmt b) j)

/-- A floor of an exact ratio times 2^e. -/
def numFloorShift (e : Int) : Num → Int
  | .fin neg n d => if 0 ≤ e then Int.fdiv (Num.sgn neg (n * 2 ^ e.toNat)) d else Int.fdiv (Num.sgn neg n) (d * 2 ^ (-e).toNat)
  | _ => 0

/-- The coarse scales of the operands of a pass. -/
def opndScales (s : State) (c : Nat) (b : List Byte) : Num :=
  (d32 (coarse s c (mFmtA b) (opnd b 52).scale)).mul (d32 (coarse s c (mFmtB b) (opnd b 68).scale))

/-- The preload entry and special state of a cell (R74, R75). A bias repeats on every row; an out-of-bounds column, or a position of a
ragged residual beyond its extents, enters as zero. -/
def preEntry (s : State) (c : Nat) (p : MxePass) (i j : Nat) : Int × Nat :=
  let b := p.desc.bytes
  match mPreload b with
  | 0 => (0, 0)
  | 3 =>
    let a := bits (fld b 96 4) 23 0
    let q := 64 * i + j
    (signed 48 (fld (sramReads s c (a + 8 * q) 6) 0 6), fld (sramReads s c (a + 65536 + q / 4) 1) 0 1 / 4 ^ (q % 4) % 4)
  | _ =>
    if (mPreload b = 2 ∧ p.desc.ext.getD 1 0 ≤ i) ∨ p.desc.ext.getD 0 0 ≤ j then (0, 0)
    else
      let v := preValue s c b i j
      (numFloorShift (32 - p.s) (v.div (opndScales s c b)), specOf v)

/-- The entries of a cell's groups with its special state. Where both operands lie beyond their extents every product is zero. -/
def cellEntries (s : State) (c : Nat) (p : MxePass) (i j : Nat) : List Int × Nat :=
  if p.desc.ext.getD 1 0 ≤ i ∧ p.desc.ext.getD 0 0 ≤ j then ([], 0)
  else
    let w := (window (mFmtA p.desc.bytes) (mFmtB p.desc.bytes)).getD 0
    let gs := (List.range (groupsOf p)).map (cellProducts s c p i j)
    (gs.map (groupEntry w p.s), (gs.flatten.map specOf).foldl specJoin 0)

/-- The in-bounds cells of a pass. -/
def cellsOf (p : MxePass) : List (Nat × Nat) :=
  (List.range (p.desc.ext.getD 1 0)).flatMap fun i => (List.range (p.desc.ext.getD 0 0)).map fun j => (i, j)

/-- What the set held at a cell before its groups (R74). -/
def preAt (p : MxePass) (i j : Nat) : Int × Nat := p.pre.getD (64 * i + j) (0, 0)

/-- Whether every entry of a pass passes the range test, a bias or residual among them (R65). -/
def passInRange (s : State) (c : Nat) (p : MxePass) : Bool :=
  let b := p.desc.bytes
  let r := rOf (mKTotal b) (b2n (bit (fld b 46 1) 0))
  (cellsOf p).all fun x =>
    (cellEntries s c p x.1 x.2).1.all (inRange r) &&
      (mPreload b = 0 || mPreload b = 3 || inRange r (preAt p x.1 x.2).1)

/-- Whether an integer lies in the range of A48 (R41). -/
def inA48 (a : Int) : Bool := decide (-(2 ^ 47) ≤ a ∧ a < 2 ^ 47)

/-- What A48 holds for a sum. A sum leaves its range only after a CARRY preload, which is not tested; the accumulator never holds such a
value, and the spec states none in its place: free (log 71). -/
def hold48 (n : Nat) (a : Int) : Int := if inA48 a then a else signed 48 (Config.freeValue n).toNat

/-- The value and special state of a cell at the end of its pass. -/
def cellAcc (s : State) (c : Nat) (p : MxePass) (x : Nat × Nat) : Int × Nat :=
  let e := cellEntries s c p x.1 x.2
  let q := preAt p x.1 x.2
  (hold48 (s.free + 64 * x.1 + x.2) (e.1.foldl (· + ·) q.1), specJoin e.2 q.2)

/-- Every cell of the 128 × 64 tile, row-major. -/
def tileCells : List (Nat × Nat) := (List.range 8192).map fun q => (q / 64, q % 64)

-- Prediction (R77, R78)

/-- Groups omitted whole: all eight bands predicted zero. -/
def omitted (p : MxePass) : Nat := ((List.range (groupsOf p)).filter fun g => (List.range 8).all fun t => 8 * g + t ∈ p.sched).length

/-- The start of a pass, and of each repeat: the schedule of skipped groups is fixed (R78) and the set is filled as PRELOAD directs
(R74). -/
def fillPass (s : State) (c : Nat) (p : MxePass) : MxePass :=
  let b := p.desc.bytes
  let blocks := (List.range (groupsOf p)).flatMap fun g => (List.range 8).map fun t => (g, t)
  { p with sched := if p.zp then (blocks.filter fun e => predicted s c b e.1 e.2).map fun e => 8 * e.1 + e.2 else [],
           pre := if mPreload b = 0 then [] else tileCells.map fun x => preEntry s c p x.1 x.2 }

/-- A B element of a group with a skipped block is NaN or infinite. -/
def badB (s : State) (c : Nat) (p : MxePass) : Bool :=
  p.zp && (List.range (groupsOf p)).any fun g =>
    ((List.range 8).any fun t => 8 * g + t ∈ p.sched) &&
      (List.range (min 16 (p.desc.ext.getD 2 0 - 16 * g))).any fun x =>
        (List.range (p.desc.ext.getD 0 0)).any fun j =>
          specOf (opndValue s c (opnd p.desc.bytes 68) (mFmtB p.desc.bytes) (mKStart p.desc.bytes) j (16 * g + x)) ≠ 0

/-- The check word of the tile's band reports a miss (R254). -/
def checkMiss (s : State) (c : Nat) (b : List Byte) : Bool := bit (fld (sramReads s c (bits (fld b 112 4) 23 0) 8) 0 8) 0

/-- Whether the running pass ends in a miss (R78). -/
def isMiss (s : State) (c : Nat) (p : MxePass) : Bool :=
  p.zp && (badB s c p || (p.checkOk && checkMiss s c p.desc.bytes))

/-- Whether every check the pass needs has reported, with no miss (R79, R80). -/
def checked (s : State) (c : Nat) (p : MxePass) : Bool := !p.zp || (p.checkOk && !isMiss s c p)

/-- Whether a pass may end: also after a miss the tile awaits its check barrier before it drains (R254). -/
def settled (s : State) (c : Nat) (p : MxePass) : Bool := p.checkOk && checked s c p

-- Passes

/-- Engines of a core run for a take that is alive (R81, R119, R165). -/
def engineLive (s : State) (c : Nat) : Bool :=
  let x := core s c
  fast s && !x.fenced && (x.share = .running || x.share = .ended) && x.power = .run && !x.waking

/-- Change the MXE of a core. -/
def modMxe (x : Core) (f : Mxe → Mxe) : Core := { x with mxe := f x.mxe }

/-- Raises recorded against a chain for the command on a core (R67). -/
def raisesOf (s : State) (c chain : Nat) : Nat :=
  match (takeOfCore s c).bind fun t => findEntry s t.stream t.seq with
  | some e => tget 0 e.raises chain
  | none => 0

/-- MXE_PASS_START (R74): the tile at the head starts when START is satisfied and a set is free; a chained tile runs at its
S plus 8 for each recorded raise. A pass with prediction joins the check barrier. The sets alternate; DESIGN CHOICE: the first tile after
reset, where ACTIVE_SET reads 0, takes set 1 (log 71). -/
def execMxePassStart (c : Nat) (s : State) : Out :=
  let x := core s c
  onUnit (coreOk c) s <|
    match readyHead x 0 with
    | none => .next s
    | some d =>
      let b := d.bytes
      let set := 1 - x.mxe.activeSet
      let zp := mZp b && (cfgOf s c (mxeBase c)).getLsbD 0
      let aux := dAuxb b
      let chk := zp && decide (aux.n ≠ 0)
      if ¬ engineLive s c ∨ d.skip ∨ x.mxe.pass.isSome ∨ (x.mxe.drains.any fun q => q.set = set) then .next s
      else match (if chk then joinBar x aux.mu aux.ctr { who := .mxeCheck, n := aux.n } else some x) with
        | none => .next s
        | some y =>
          let raises := if mChained b then raisesOf s c (fld b 22 2) else 0
          let p : MxePass := { desc := d, set := set, s := signed 16 (fld b 20 2) + 8 * raises, repeats := 0, zp := zp, checkOk := !chk }
          let p := fillPass s c p
          let t := setCore s c (modMxe (popHead y 0) fun m => { m with pass := some p, activeSet := set })
          .next (bump t (mxeBase c + 0x28) (omitted p))

/-- ZP_MISS (R78): the partials are discarded and the tile runs again with prediction off, at the same S. -/
def execZpMiss (c : Nat) (s : State) : Out :=
  onUnit (coreOk c) s <|
    match (core s c).mxe.pass with
    | none => .next s
    | some p =>
      when_ (engineLive s c && isMiss s c p) s
        (bump (modCore s c fun x => modMxe x fun m => { m with pass := some (fillPass s c { p with zp := false }) }) (mxeBase c + 0x20) 1)

/-- Mark the tags of a tile's operands in the command's entry (R415). -/
def markTags (s : State) (st seq : Nat) (b : List Byte) : State :=
  modEntry s st seq fun e => { e with marks := [(opnd b 52).scale, (opnd b 68).scale].foldl (fun l w =>
    if scaleTag w = 0 ∨ scaleTag w ∈ l then l else scaleTag w :: l) e.marks }

/-- The command of a core's take ends with ACCUM_RANGE (R66, R67). -/
def accumRange (s : State) (c : Nat) (b : List Byte) : State :=
  let s := bump s (mxeBase c + 0x30) 1
  endOfCore s c fun _ => { status := 0x10, lcore := lcoreNo (core s c), detail := fld b 2 2 + fld b 22 2 * 65536 }

/-- MXE_RANGE_FAIL (R66, R67): an unchained tile repeats at S + 8, at most three times; a chained tile's take is killed and
one raise recorded, at most three for its chain and 64 for the command. Otherwise the command ends with ACCUM_RANGE. -/
def execMxeRangeFail (c : Nat) (s : State) : Out :=
  onUnit (coreOk c) s <|
    match (core s c).mxe.pass, takeOfCore s c with
    | some p, some t =>
      let b := p.desc.bytes
      if ¬(engineLive s c ∧ checked s c p) ∨ passInRange s c p then .next s
      else if ¬ mChained b then
        if p.repeats < 3 then
          let q := fillPass s c { p with s := p.s + 8, repeats := p.repeats + 1 }
          let s := markTags (bump (bump s (mxeBase c + 0x18) 1) (mxeBase c + 0x28) (omitted q)) t.stream t.seq b
          .next (modCore s c fun x => modMxe x fun m => { m with pass := some q })
        else .next (accumRange s c b)
      else
        let chain := fld b 22 2
        let total : Nat := match findEntry s t.stream t.seq with
          | some e => (e.raises.map (·.2)).foldl (· + ·) 0
          | none => 0
        if 3 ≤ raisesOf s c chain ∨ 64 ≤ total then .next (accumRange s c b)
        else
          let s := markTags (bump s (mxeBase c + 0x18) 1) t.stream t.seq b
          let s := modEntry s t.stream t.seq fun e => { e with raises := tset 0 e.raises chain (tget 0 e.raises chain + 1) }
          .next (killForRetake s t { status := 5, reason := 2 } false)
    | _, _ => .next s

-- Drains (R51, R73)

/-- The value of an accumulator cell at exponent S. -/
def accNum (S : Int) (a : Int) (spec : Nat) : Num :=
  match spec with
  | 0 => dyadic (a < 0) a.natAbs (S - 32)
  | 1 => .inf false
  | 2 => .inf true
  | _ => .nan

/-- An exact zero is +0 (R32). -/
def posZero : Num → Num
  | .fin neg n d => if n = 0 then .fin false 0 1 else .fin neg n d
  | x => x

/-- Cell q of a drain times the operands' coarse scales. -/
def drainValue (s : State) (c : Nat) (d : MxeDrain) (q : Nat) : Num :=
  posZero ((accNum d.s (d.acc.getD q 0) (d.spec.getD q 0)).mul (opndScales s c d.desc.bytes))

/-- Row i of a STORE drain in its output format. -/
def storeRow (s : State) (c : Nat) (d : MxeDrain) (i : Nat) : List Byte :=
  let b := d.desc.bytes
  let f := mFmtOut b
  let cOut := d32 (coarse s c f (fld b 92 4))
  (List.range (d.desc.ext.getD 0 0)).flatMap fun j =>
    leBytes (elemBits f / 8) ((fpOf f).encode (mSat b) (posZero ((drainValue s c d (64 * i + j)).div cOut)))

/-- A STORE drain (R252): in-bounds elements only; its output's magnitudes are recorded for its tag (R414). -/
def drainStore (s : State) (c : Nat) (d : MxeDrain) : State :=
  let b := d.desc.bytes
  let a := bits (fld b 84 4) 23 0
  let rows := List.range (d.desc.ext.getD 1 0)
  let vs := rows.flatMap fun i => (List.range (d.desc.ext.getD 0 0)).map fun j => r32 (drainValue s c d (64 * i + j))
  let t := rows.foldl (fun t i => sramWrites t c (a + i * fld b 88 2 * 64) (storeRow s c d i)) s
  modCore t c fun x => recordExpo x (scaleTag (fld b 92 4)) vs

/-- A set as a CARRY drain lays it out (R42, R73): 64 KiB of carry words, then the special map. -/
def carryBytes (d : MxeDrain) : List Byte :=
  let words := (List.range 8192).flatMap fun q => leBytes 8 ((d.acc.getD q 0) % 2 ^ 64).toNat
  let map := (List.range 2048).map fun q =>
    BitVec.ofNat 8 ((List.range 4).foldl (fun v k => v + d.spec.getD (4 * q + k) 0 * 4 ^ k) 0)
  words ++ map

/-- A CARRY drain. -/
def drainCarry (s : State) (c : Nat) (d : MxeDrain) : State := sramWrites s c (bits (fld d.desc.bytes 84 4) 23 0) (carryBytes d)

/-- The lowest-numbered free tile buffer. -/
def freeTb (v : Vce) : Option Nat := (List.range 4).find? fun i => tget 0 v.tbState i = 0

/-- A core with tile buffers set free; one that a drain still writes is freed at the drain's end (R247). -/
def freeTbs (x : Core) (l : List Nat) : Core :=
  l.foldl (fun x t => match x.mxe.drains with
    | d :: rest => if d.tb = some t then modMxe x fun m => { m with drains := { d with drop := true } :: rest }
        else { x with vce := { x.vce with tbState := tset 0 x.vce.tbState t 0 } }
    | [] => { x with vce := { x.vce with tbState := tset 0 x.vce.tbState t 0 } }) x

/-- What an EPILOGUE drain into tile buffer tb writes (R51, R97): the buffer joins the epilogue queue when the drain begins. -/
def drainEpilogue (s : State) (c : Nat) (d : MxeDrain) (tb : Nat) : State :=
  let v := (List.range 8192).map fun q => (8192 * tb + q, r32 (drainValue s c d q))
  modCore s c fun x => { x with vce := { x.vce with
    tiles := v.foldl (fun t e => tset 0 t e.1 e.2) x.vce.tiles, tbState := tset 0 x.vce.tbState tb 1, epi := x.vce.epi ++ [some tb] } }

/-- The oldest drain of a core begins as soon as it can (R73, R97): an EPILOGUE drain once a tile buffer is free. -/
def beginDrain (s : State) (c : Nat) : State :=
  match (core s c).mxe.drains with
  | [] => s
  | d :: rest =>
    match mDrain d.desc.bytes, d.tb, freeTb (core s c).vce with
    | 0, none, some tb => modCore (drainEpilogue s c d tb) c fun x => modMxe x fun m => { m with drains := { d with tb := some tb } :: rest }
    | _, _, _ => s

/-- MXE_PASS_END (R68, R72): the last group is in its set, which becomes the draining set, and DONE is arrived on. Its drain
begins when no other runs (R73). -/
def execMxePassEnd (c : Nat) (s : State) : Out :=
  onUnit (coreOk c) s <|
    match (core s c).mxe.pass with
    | none => .next s
    | some p =>
      if ¬(engineLive s c ∧ settled s c p ∧ passInRange s c p) then .next s
      else
        let cells := tileCells.map (cellAcc s c p)
        let d : MxeDrain := { desc := p.desc, set := p.set, s := p.s, acc := cells.map (·.1), spec := cells.map (·.2) }
        let t := modCore s c fun x => modMxe x fun m => { m with pass := none, drains := m.drains ++ [d], lastRepeats := p.repeats }
        let t := { t with free := t.free + (if mPreload p.desc.bytes = 3 then 8192 else 0) }
        .next (arriveRef (beginDrain t c) c p.desc.id p.desc.bytes (dDone p.desc.bytes))

/-- MXE_DRAIN_END (R73): the drain has written its last row, frees its set and arrives on DRAINB; the next drain begins. An EPILOGUE drain
that waits for a free tile buffer has not begun. -/
def execMxeDrainEnd (c : Nat) (s : State) : Out :=
  let x := core s c
  onUnit (coreOk c) s <|
    match x.mxe.drains with
    | [] => .next s
    | d :: rest =>
      let b := d.desc.bytes
      let fin := fun (t : State) =>
        let t := modCore t c fun x => modMxe x fun m => { m with drains := rest, sLast := d.s }
        let t := if d.drop then modCore t c fun x => freeTbs x d.tb.toList else t
        arriveOut (beginDrain t c) c d.desc.id b (bref b 116) (outRanges d.desc)
      if ¬ engineLive s c then .next s
      else match mDrain b with
        | 0 => when_ d.tb.isSome s (fin s)
        | 1 => .next (fin (drainStore s c d))
        | _ => .next (fin (drainCarry s c d))

end Sys2Proof.Machine
end

