-- ==== Sys2Proof/Machine/Ag.lean ====
section
/-! DEFINITION. AG programs (R126 to R129, R265, R266), what a core's take reads of device memory (R22, R55), and reel switches (R153). -/
namespace Sys2Proof.Machine

open Sys2Proof

-- What a take reads (R22, R55)

/-- Whether a device address lies in a slice that a slow-tier root latched by a core's take names (R22, R400); a root that fails its checks
names none (R186). -/
def inSlowSlice (s : State) (c a : Nat) : Bool :=
  match takeOfCore s c with
  | none => false
  | some t => t.latch.any fun e => rootOk e.2 && decide (1 ≤ rtLag e.2) &&
      (List.range (sliceCount e.2)).any fun i => decide (sliceAddr s e.2 i / 65536 = a / 65536)

/-- The weights of parameter records: their W24 words; the momentum field is not read. -/
def recordWeights (d : List Byte) : List W32 :=
  (List.range (d.length / 4)).map fun i => BitVec.ofNat 32 (fld d (4 * i) 4 / 256 * 256)

/-- The BF16 code of a weight, with coarse scale 1.0 and no block scale (R55). -/
def weightBf16 (w : W32) : Nat := encodeElem 1 true false f32One 127 w

/-- The n bytes at a device address as a core's take sees them: roots as it latched them (R22), and the records of slow-tier slices through
the converter (R400, R55), where an element or tile keeps its length and each of its records is a BF16 code, zero-extended: DESIGN
CHOICE (log 75). -/
def takeReads (s : State) (c a n : Nat) : List Byte :=
  let d := latched s c a (devReads s a n)
  if a % 4 = 0 ∧ n % 4 = 0 then
    (List.range (n / 4)).flatMap fun i =>
      let r := slice d (4 * i) 4
      if inSlowSlice s c (a + 4 * i) then (recordWeights r).flatMap fun w => leBytes 4 (weightBf16 w) else r
  else d

/-- A checked read of device memory by a core's engines. -/
def readTake (s : State) (c a n : Nat) : Access × List Byte :=
  match readTest s a n with
  | .done => (.done, takeReads s c a n)
  | e => (e, [])

-- AG programs (R265, R266)

/-- The sum of index times stride over dimensions 1 and up. -/
def agOffset (b : List Byte) : Nat → List Nat → Int
  | _, [] => 0
  | d, i :: t => (i : Int) * agStride b d + agOffset b (d + 1) t

/-- The device address of element (row, j) of a program; none for an index out of bounds (R129). An address that is not a multiple of
the element's size is used as it stands: DESIGN CHOICE (log 74), since R129 and R266 state that every element is aligned. -/
def agAddr (s : State) (c : Nat) (d : QDesc) (r j : Nat) : Option Nat :=
  let b := d.bytes
  let base : Int := fld b 20 8
  let off := agOffset b 1 (d.rowIdx r)
  if dKind b = 0 then some ((base + (j : Int) * agStride b 0 + off).toNat)
  else
    let raw := rawElem s c (bits (fld b 76 4) 23 0) 10 (d.lin r j)
    let x : Int := if fld b 80 1 = 10 then signed 32 raw else raw
    if x < 0 ∨ (fld b 88 4 : Int) ≤ x then none else some ((base + x * fld b 84 4 + off).toNat)

/-- The whole 64 B granules that hold a range (R248). -/
def granules (a n : Nat) : Nat × Nat := (a / 64 * 64, (a + n + 63) / 64 * 64 - a / 64 * 64)

/-- Read one element of a program: zero out of bounds, or the access that failed with its address. Its granule is fetched whole
(R248). -/
def agRead (s : State) (c : Nat) (d : QDesc) (r j : Nat) : Except (Access × Nat) (List Byte) :=
  let n := agEsize d.bytes
  match agAddr s c d r j with
  | none => .ok (zeros n)
  | some a => match readTest s (granules a n).1 (granules a n).2 with
    | .done => .ok (takeReads s c a n)
    | e => .error (e, a)

/-- Write one element through a program: suppressed out of bounds (R129). -/
def agWrite (s : State) (c : Nat) (d : QDesc) (r j : Nat) (v : List Byte) : Except (Access × Nat) State :=
  match agAddr s c d r j with
  | none => .ok s
  | some a => match writeMem s a v with
    | (.done, t) => .ok t
    | (e, _) => .error (e, a)

/-- Key of an AG's reel. -/
def agReelKey (mu ag r : Nat) : Nat := (mu * 2 + ag) * 8 + r

/-- Change a running program. -/
def modAg (x : Core) (id : Nat) (f : AgRun → AgRun) : Core := { x with ags := updFirst (fun g => g.desc.id = id) f x.ags }

/-- A running program by its issue number. -/
def findAg (x : Core) (id : Nat) : Option AgRun := x.ags.find? fun g => g.desc.id = id

/-- A program completes: DONE is arrived on, and with ENDGEN its reel's markers are sent (R244, R262). -/
def agFinish (s : State) (c : Nat) (g : AgRun) : State :=
  let b := g.desc.bytes
  let s := modCore s c fun x =>
    let x := { x with ags := delFirst (fun h => h.desc.id = g.desc.id) x.ags }
    let k := agReelKey g.mu g.ag (dReel b)
    if dEndGen b then { x with agReels := tput k { tget {} x.agReels k with marked := true } x.agReels } else x
  arriveOut s c g.desc.id b (dDone b) (outRanges g.desc)

-- The reads of a program (R127, R128, R265, R266)

/-- The request table's size (R127). -/
def tableSize : Nat := 48

/-- Whether an HBM controller (1,024 requests), or the hub's transfer channel of an LPC (512), takes one more request (R202). -/
def ctlRoom (s : State) (k : Option Nat) : Bool :=
  match k with
  | none => true
  | some n => decide ((s.cores.map fun e => (e.2.reqs.filter fun q => q.ctl = k).length).foldl (· + ·) 0 < if n < 16 then 1024 else 512)

/-- MISS_LIMIT of an AG, as its take latched it. -/
def missLimit (s : State) (c mu ag : Nat) : Nat := wbits (cfgOf s c (muBase c mu + 8 + 8 * ag)) 15 8

/-- Number, row and first element of read `i` of the program's thread `t`: dimension-0 rows go round robin to the threads (R266). -/
def threadRead (d : QDesc) (t i : Nat) : Option (Nat × Nat × Nat) :=
  let n := rowReads d
  let row := t + agThreads d.bytes * (i / n)
  if n ≠ 0 ∧ row < d.rows then some (row * n + i % n, row, i % n * readElems d.bytes) else none

/-- The bytes of a read that begins at element j0 of a row. -/
def readBytes (s : State) (c : Nat) (d : QDesc) (row j0 : Nat) : Except (Access × Nat) (List Byte) :=
  (List.range (min (readElems d.bytes) (d.e0 - j0))).foldl (fun a i => do
    let v ← a
    let e ← agRead s c d row (j0 + i)
    pure (v ++ e)) (.ok [])

/-- The granules that a request covers; none when every element is out of bounds. -/
def readRange (s : State) (c : Nat) (d : QDesc) (row j0 : Nat) : Option (Nat × Nat) :=
  let as := (List.range (min (readElems d.bytes) (d.e0 - j0))).filterMap fun i => agAddr s c d row (j0 + i)
  match as with
  | [] => none
  | a :: t => let lo := t.foldl min a; some (granules lo (t.foldl max a + agEsize d.bytes - lo))

/-- Whether a device address lies in an MU of a core: its AG reads it without a request (R127). -/
def inOwnMu (s : State) (c mu a : Nat) : Bool :=
  match decodeAddr a, (core s c).place with
  | .sram l off, some p => decide (l = p.lcore ∧ off / muBytes = mu)
  | _, _ => false

/-- The data of a guarded prefetch are in SRAM: its arrival on the consume barrier is sent, unless the data are stale (R157). -/
def prefetchIn (s : State) (c id k : Nat) (b : List Byte) : State :=
  match (core s c).guards.find? fun g => g.desc.id = id ∧ g.read = k with
  | none => s
  | some g =>
    if g.stale then s
    else
      let s := modCore s c fun x => { x with guards := updFirst (fun g => g.desc.id = id ∧ g.read = k) (fun g => { g with moved := true }) x.guards }
      sendArrival s (outCircuit s c b g.bar) [] { src := c, id := id, csq := none, dst := g.bar, mu := g.mu, ctr := g.ctr, n := g.n }

/-- Deliver what has returned, in stream order (R128): data for BUF are written; after the last read the program completes. -/
def agDeliver : Nat → State → Nat → Nat → State
  | 0, s, _, _ => s
  | n + 1, s, c, id =>
    match findAg (core s c) id with
    | none => s
    | some g =>
      if ¬ agBuf g.desc.bytes then s
      else match g.got.find? fun e => e.1 = g.done with
        | none => s
        | some e =>
          let s := sramWrites s c (bufAddr g.desc g.done) e.2
          let s := modCore s c fun x => modAg x id fun h => { h with got := tdel g.done h.got, done := g.done + 1 }
          let s := if agGuard g.desc.bytes then prefetchIn s c id g.done g.desc.bytes else s
          if g.done + 1 = agReads g.desc then agFinish s c g else agDeliver n s c id

/-- The data of a read have come. -/
def agArrive (s : State) (c id k : Nat) (v : List Byte) : State :=
  let s := modCore s c fun x => modAg x id fun h => { h with got := tput k v h.got }
  agDeliver ((match findAg (core s c) id with | some g => g.got.length | none => 0) + 1) s c id

/-- Whether a stream block names a running program. -/
def namesAg (t : Strm) (g : AgRun) : Bool :=
  t.named && decide (t.addr / muBytes = g.mu ∧ t.ag = g.ag ∧ t.thread = agThread g.desc.bytes)

/-- Whether a program reads: SCATTER never does, and an AFFINE one without BUF does once a walk, a CLOAD or a reduction takes its
stream as an input. -/
def agIsRead (x : Core) (g : AgRun) : Bool :=
  let b := g.desc.bytes
  decide (dKind b < 2) && (agBuf b || decide (dKind b = 1) ||
    x.vce.walks.any (fun w => (walkIns w.desc.bytes).any fun t => namesAg t g) ||
    (match queueOf x 1 with | d :: _ => decide (dKind d.bytes = 2 ∧ fld d.bytes 17 1 = 0) && namesAg (strm d.bytes 24) g | [] => false) ||
    (match queueOf x 2 with | d :: _ => namesAg (strm d.bytes 52) g | [] => false))

/-- Free watches of R156: each controller holds 4,096, and each entry takes one at every controller its range touches: those of its ends,
since no memory is as short as the longest range. -/
def watchRoom (s : State) (lo len : Nat) : Bool :=
  [ctlOf lo, ctlOf (lo + len - 1)].all fun k => k.isNone ||
    decide ((s.cores.map fun e => (e.2.guards.filter fun g => g.len ≠ 0 ∧ (ctlOf g.lo = k ∨ ctlOf (g.lo + g.len - 1) = k)).length).foldl
      (· + ·) 0 < 4096)

/-- The guard entry of read `k` of a prefetch over a range, kept in an MU of core `c` (R156, R243). -/
def guardOf (s : State) (c mu : Nat) (d : QDesc) (r : BRef) (k lo len : Nat) : Guard :=
  { desc := d, read := k, lo := lo, len := len, home := mu, bar := (refCore s c r).getD c, mu := r.mu, ctr := r.ctr, n := r.n,
    arrived := false, stale := false }

/-- A guard entry for read `k` of a prefetch, when the MU, the controller and MU_CFG.GUARD_ALLOW permit one (R156, R158). A range shorter
than 64 B or longer than 16 MiB gets none and is deferred: DESIGN CHOICE (log 74), since R156 gives no case for it. -/
def guardFor (s : State) (c mu : Nat) (d : QDesc) (r : BRef) (k lo len : Nat) : Option Guard :=
  if (cfgOf s c (muBase c mu)).getLsbD 0 ∧ ((core s c).guards.filter fun g => g.home = mu ∧ g.len ≠ 0).length < 64 ∧ 64 ≤ len ∧
      len ≤ 0x1000000 ∧ watchRoom s lo len then some (guardOf s c mu d r k lo len) else none

/-- The note of a deferred prefetch's arrival, which takes no entry (R158). -/
def deferredNote (s : State) (c : Nat) (d : QDesc) (r : BRef) (k : Nat) : Guard := guardOf s c r.mu d r k 0 0

/-- Whether a thread of a program may make a request for a range, or needs none: it holds fewer than MISS_LIMIT, and the table and the
controller have room (R127, R202). -/
def threadRoom (s : State) (c : Nat) (g : AgRun) (t : Nat) (range : Option (Nat × Nat)) : Bool :=
  match range.filter fun q => !inOwnMu s c g.mu q.1 with
  | none => true
  | some q =>
    let x := core s c
    let held := (x.reqs.filter fun q => ¬ q.xfr ∧ q.id = g.desc.id ∧ q.row % agThreads g.desc.bytes = t).length
    decide (held < missLimit s c g.mu g.ag ∧ x.reqs.length < tableSize) && ctlRoom s (ctlOf q.1)

/-- The next read of a program's thread, if the thread is ready for it (R127). -/
def readyRead (s : State) (c : Nat) (g : AgRun) (t : Nat) : Option (Nat × Nat × Nat) :=
  if ¬ agIsRead (core s c) g ∨ g.deferred then none
  else (threadRead g.desc t (g.sent.getD t 0)).filter fun r => threadRoom s c g t (readRange s c g.desc r.2.1 r.2.2)

/-- Row and first element of the next request of a program that writes: its requests are made in stream order, so that of two positions that
name one element the later is kept (R128, R129). -/
def nextWrite (g : AgRun) : Option (Nat × Nat) :=
  if g.done < agReads g.desc then some (g.done / rowReads g.desc, g.done % rowReads g.desc * readElems g.desc.bytes) else none

/-- Position in the stream and column of the elements of a request. -/
def reqElems (d : QDesc) (row j0 : Nat) : List (Nat × Nat) :=
  (List.range (min (readElems d.bytes) (d.e0 - j0))).map fun i => (d.lin row (j0 + i), j0 + i)

/-- Whether a program's thread is ready to write (R127): its next request is its own, and the request's elements have come, or none comes any
more. -/
def readyWrite (s : State) (c : Nat) (g : AgRun) (t : Nat) : Bool :=
  match nextWrite g with
  | none => false
  | some (row, j0) =>
    decide (row % agThreads g.desc.bytes = t) &&
      ((g.closed && !g.out.isEmpty) || (reqElems g.desc row j0).all fun e => g.out.any fun o => o.1 = e.1) &&
      threadRoom s c g t (readRange s c g.desc row j0)

/-- What a ready thread does next. -/
inductive AgJob where
  | read (t : Nat) (r : Nat × Nat × Nat)
  | write (t : Nat)
deriving DecidableEq, Repr

/-- What a thread of a program is ready for. -/
def readyJob (s : State) (c : Nat) (g : AgRun) (t : Nat) : Option AgJob :=
  match readyRead s c g t with
  | some r => some (.read t r)
  | none => if readyWrite s c g t then some (.write t) else none

/-- Put a request of a core for a controller into its table, under its own issue number (R127, R228). -/
def putReq (x : Core) (ctl : Option Nat) (xfr write : Bool) (id row off len : Nat) : Core :=
  { x with issued := x.issued + 1,
           reqs := x.reqs ++ [{ xfr := xfr, id := id, row := row, off := off, len := len, no := x.issued + 1, ctl := ctl, write := write }] }

/-- A thread has been served. -/
def served (s : State) (c : Nat) (g : AgRun) (t : Nat) (f : AgRun → AgRun) : State :=
  modCore s c fun x => { modAg x g.desc.id f with agTurn := tset 0 x.agTurn (2 * g.mu + g.ag) (agThread g.desc.bytes + t) }

/-- A thread takes its read: from its own MU at once, otherwise by a request (R127). A guarded read takes an entry; without one the
program is deferred at that read (R158). -/
def takeRead (s : State) (c : Nat) (g : AgRun) (t : Nat) (r : Nat × Nat × Nat) (noted : Bool) : State :=
  let id := g.desc.id
  let note := deferredNote s c g.desc (dAuxb g.desc.bytes) r.1
  let sent := fun (s : State) => served s c g t fun h => { h with sent := h.sent.set t (h.sent.getD t 0 + 1) }
  let rng := readRange s c g.desc r.2.1 r.2.2
  match rng.filter fun q => !inOwnMu s c g.mu q.1 with
  | none =>
    match readBytes s c g.desc r.2.1 r.2.2 with
    | .ok v => agArrive (modCore (sent s) c fun x => if agGuard g.desc.bytes then { x with guards := x.guards ++ [note] } else x) c id r.1 v
    | .error e => accessFail s c e.1 e.2
  | some q =>
    let post := fun (s : State) (l : List Guard) =>
      modCore (sent (wakeAt s q.1)) c fun x => { putReq x (ctlOf q.1) false false id r.2.1 r.2.2 q.2 with guards := x.guards ++ l }
    if ¬ agGuard g.desc.bytes then post s []
    else if noted then post s [note]
    else match guardFor s c g.mu g.desc (dAuxb g.desc.bytes) r.1 q.1 q.2 with
      | some e => post s [e]
      | none => modCore s c fun x => modAg x id fun h => { h with deferred := true }

/-- A program that writes completes when its producer has ended, every element is written and every request has been answered (R244). -/
def agWrote (s : State) (c id : Nat) : State :=
  match findAg (core s c) id with
  | none => s
  | some g =>
    if g.closed ∧ (g.out.isEmpty ∨ agReads g.desc ≤ g.done) ∧ ¬ (core s c).reqs.any (fun q => ¬ q.xfr ∧ q.id = id) then agFinish s c g else s

/-- A thread makes its write (R127): the elements are written when the request is made, which a request outside its own MU then holds a place
of the table for, until it is answered. DESIGN CHOICE (log 74). -/
def takeWrite (s : State) (c : Nat) (g : AgRun) (t : Nat) : State :=
  match nextWrite g with
  | none => s
  | some (row, j0) =>
    let es := (reqElems g.desc row j0).filterMap fun e => (g.out.find? fun o => o.1 = e.1).map fun o => (e, o.2)
    let far := (readRange s c g.desc row j0).filter fun q => !es.isEmpty && !inOwnMu s c g.mu q.1
    let go := es.foldl (fun a e => do
      let s ← a
      agWrite s c g.desc row e.1.2 e.2) (.ok s)
    match go with
    | .error e => accessFail s c e.1 e.2
    | .ok s =>
      let s := served s c g t fun h => { h with done := h.done + 1, out := h.out.filter fun o => es.all fun e => decide (e.1.1 ≠ o.1) }
      let s := match far with
        | some q => modCore (wakeAt s q.1) c fun x => putReq x (ctlOf q.1) false true g.desc.id row j0 q.2
        | none => s
      agWrote s c g.desc.id

/-- The ready thread of its AG's running reel that an AG serves next, in round-robin order behind the one it served last (R127, R153). -/
def nextThread (s : State) (c mu ag : Nat) : Option (AgRun × AgJob) :=
  let x := core s c
  ((List.range 8).map fun i => (tget 0 x.agTurn (2 * mu + ag) + 1 + i) % 8).findSome? fun t =>
    (x.ags.find? fun g => g.mu = mu ∧ g.ag = ag ∧ agUses g t ∧ dReel g.desc.bytes = tget 0 x.unitReel (2 + 2 * mu + ag)).bind fun g =>
      (readyJob s c g (t - agThread g.desc.bytes)).map fun j => (g, j)

/-- An AG issues while a thread is ready. -/
def agPost : Nat → State → Nat → Nat → Nat → State
  | 0, s, _, _, _ => s
  | n + 1, s, c, mu, ag =>
    match nextThread s c mu ag with
    | none => s
    | some (g, .read t r) => agPost n (takeRead s c g t r false) c mu ag
    | some (g, .write t) => agPost n (takeWrite s c g t) c mu ag

/-- Every AG of a core issues what it can; which of them takes a free place of the table first is the model's choice (log 74). -/
def agPostAll (s : State) (c : Nat) : State :=
  let n := ((core s c).ags.map fun g => agReads g.desc + 1).foldl (· + ·) 1
  (List.range 8).foldl (fun s k => agPost n s c (k / 2) (k % 2)) s

/-- A producer gives a program one element of its stream; one beyond the program's effective extents goes nowhere (R248). -/
def agPut (s : State) (c : Nat) (g : AgRun) (n : Nat) (v : List Byte) : State :=
  match agPlace g.desc n with
  | some _ => modCore s c fun x => modAg x g.desc.id fun h => { h with out := tput n v h.out }
  | none => s

/-- The producer of a program's stream has passed its last element. -/
def agClose (s : State) (c id : Nat) : State :=
  agWrote (agPostAll (modCore s c fun x => modAg x id fun h => { h with closed := true }) c) c id

/-- Whether a program's threads are idle. -/
def threadsFree (x : Core) (mu : Nat) (b : List Byte) : Bool :=
  (List.range (agThreads b)).all fun i => x.ags.all fun g => ¬(g.mu = mu ∧ g.ag = agSel b ∧ agUses g (agThread b + i))

/-- A program starts on its threads (R266, R262), and its reads are issued as its threads are ready. -/
def agStart (s : State) (c mu : Nat) (d : QDesc) : State :=
  let b := d.bytes
  agPostAll (modCore s c fun x =>
    let k := agReelKey mu (agSel b) (dReel b)
    let r := tget {} x.agReels k
    { x with ags := x.ags ++ [{ desc := d, mu := mu, ag := agSel b, sent := List.replicate (agThreads b) 0, got := [], done := 0, deferred := false }],
             agReels := tput k { r with conf := some b } x.agReels }) c

/-- AG_PROGRAM (R266, R262): a program whose reel has had no configuration in the take starts at once; another enters its
reel's shadow slot. -/
def execAgProgram (c mu : Nat) (s : State) : Out :=
  let x := core s c
  onUnit (coreOk c && muOk mu) s <|
    match readyHead x (8 + mu) with
    | none => .next s
    | some d =>
      let b := d.bytes
      let k := agReelKey mu (agSel b) (dReel b)
      let r := tget {} x.agReels k
      if ¬ engineLive s c ∨ d.skip then .next s
      else if r.conf.isNone then
        when_ (threadsFree x mu b) s (agStart (setCore s c (popHead x (8 + mu))) c mu d)
      else when_ r.shadow.isNone s
        (modCore s c fun x => let x := popHead x (8 + mu); { x with agReels := tput k { r with shadow := some d } x.agReels })

/-- Whether a reel of a unit, 1 the VCE or 2 + 2m + a AG a of MU m, has input (R153): the next beat of its walk waits for nothing, or a thread
of one of its programs is ready. -/
def unitInput (s : State) (c unit r : Nat) : Bool :=
  let x := core s c
  if unit = 1 then x.vce.walks.any fun w => decide (dReel w.desc.bytes = r ∧ w.beat < beatCount w.desc ∧ beatWaits x w = 0)
  else x.ags.any fun g => decide (2 * g.mu + g.ag + 2 = unit ∧ dReel g.desc.bytes = r) &&
    (List.range (agThreads g.desc.bytes)).any fun t => (readyJob s c g t).isSome

/-- REEL_SWITCH (R153) of unit 0, the CSQ, 1, the VCE, or 2 + 2m + a, AG a of MU m: the issue passes to the next reel with
input. An AG's switch is counted in MU_EVT_REELSW, and the AG issues for the
reel's threads. -/
def execReelSwitch (c unit : Nat) (s : State) : Out :=
  let x := core s c
  onUnit (coreOk c && unit < 10) s <|
    if ¬ fast s ∨ x.fenced ∨ x.share ≠ .running then .next s
    else if unit = 0 then when_ (!x.trapped) s (switchReel s c)
    else
      let cur := tget 0 x.unitReel unit
      match ((List.range 7).map fun i => (cur + 1 + i) % 8).find? (unitInput s c unit) with
      | none => .next s
      | some r =>
        let s := setCore s c { x with unitReel := tset 0 x.unitReel unit r }
        .next (if unit = 1 then s else agPostAll (bump s (muBase c ((unit - 2) / 2) + 0x48) 1) c)

end Sys2Proof.Machine
end

