-- ==== Sys2Proof/Machine/Vce.lean ====
section
/-! DEFINITION. The vector engine (R85 to R108, R255 to R262): walks, beats, the eight stages, output conversion, zero maps,
votes and the tap to RED; operand caches; and what a skip entry does in any engine (R247). -/
namespace Sys2Proof.Machine

open Sys2Proof

-- Streams of a walk (R258, R260)

/-- Why a stream element cannot be moved: the access that failed and its device address. -/
abbrev Failed := Access × Nat

/-- The raw bits of element (row `lin`, column j), whose declared linear index is `n`: that element of a program's stream (R260). A format
that is not a power of two of bytes wide takes the low bits of one element of the program: DESIGN CHOICE (log 71). -/
def strmRaw (s : State) (c : Nat) (t : Strm) (lin n j : Nat) : Nat :=
  if t.agp then
    match agOf (core s c) t with
    | none => 0
    | some g => leNat ((agElem g n).getD []) % 2 ^ elemBits t.fmt
  else rawElem s c (t.addr + (if t.p1 = 0 then 0 else lin) * t.p1 * 64) t.fmt j

/-- The FP32 word, or the integer word, as which an element enters its lane (R48, R88, R38). A NaN weight enters as the canonical NaN of
R31: DESIGN CHOICE (log 71), since R38 gives its bits followed by zeros. -/
def strmLane (t : Strm) (scale : W32) (e raw : Nat) : W32 :=
  if t.fmt = 12 then
    if t.mom then decodeElem 8 (raw % 256) f32One 127 else canon (BitVec.ofNat 32 (raw / 256 * 256))
  else decodeElem t.fmt raw scale e

/-- The block scale code of element j of a row. DESIGN CHOICE (log 71): R258 gives the place of the scales for AGP = 0, and they lie there
with AGP = 1 too, since a program forms the addresses of the elements alone. -/
def strmScale (s : State) (c : Nat) (t : Strm) (e0 lin j : Nat) : Nat :=
  if t.scaled then fld (sramReads s c (t.scaleAddr e0 lin j) 1) 0 1 else 127

/-- One lane of a stream. -/
def strmElem (s : State) (c e0 : Nat) (t : Strm) (scale : W32) (lin n j : Nat) : W32 :=
  strmLane t scale (strmScale s c t e0 lin j) (strmRaw s c t lin n j)

/-- Fill a beat to 64 lanes with +0 (R100). -/
def fill64 (l : List W32) : List W32 := l ++ List.replicate (64 - l.length) 0

/-- The lanes of an input stream for a beat; an unused stream holds +0. -/
def strmBeat (s : State) (c : Nat) (d : QDesc) (t : Strm) (p : BeatPos) : List W32 :=
  if ¬ t.en then fill64 []
  else
    let scale := coarse s c t.fmt t.scale
    fill64 ((List.range p.valid).map fun l =>
      strmElem s c (dExt d.bytes 0) t scale (d.rowLin p.row) (d.lin p.row (p.j0 + l)) (p.j0 + l))

-- Stages (R86 to R96, R255, R256)

/-- What a beat carries through the stages: its streams, its place and its valid lanes. -/
structure BeatEnv where
  in0 : List W32
  in1 : List W32
  in2 : List W32
  tbuf : List W32
  valid : Nat
  j0 : Nat
  i1 : Nat
  i2 : Nat
  org0 : Nat
  org1 : Nat
deriving DecidableEq, Repr

/-- The state of a beat between stages: X, Y and the operand caches. -/
structure BeatState where
  x : List W32
  y : W32
  caches : Tab W32
deriving DecidableEq, Repr

/-- The first cache word that a stage names for a beat (R256). -/
def cacheWord (t : Stage) (v : BeatEnv) : Nat :=
  let k : Int := if t.cmode = 1 then 64 else 1
  ((t.cbase + t.c0 * v.j0 + k * (t.c1 * v.i1 + t.c2 * v.i2)) % 8192).toNat

/-- A word of a stage's operand cache. -/
def cacheGet (cs : Tab W32) (st word : Nat) : W32 := tget 0 cs (8192 * st + word % 8192)

/-- Write a word of a stage's operand cache. -/
def cachePut (cs : Tab W32) (st word : Nat) (v : W32) : Tab W32 := tset 0 cs (8192 * st + word % 8192) v

/-- The lanes of a source (R86). -/
def source (st : Nat) (t : Stage) (v : BeatEnv) (b : BeatState) (src : Nat) : List W32 :=
  match src with
  | 0 => b.x
  | 1 => v.in0
  | 2 => v.in1
  | 3 => v.in2
  | 4 =>
    let w := cacheWord t v
    if t.cmode = 1 then (List.range 64).map fun l => cacheGet b.caches st (w + l)
    else List.replicate 64 (cacheGet b.caches st w)
  | 5 => List.replicate 64 t.imm
  | 6 => v.tbuf
  | _ => List.replicate 64 b.y

/-- RSUM: the tree sum over valid lanes; an invalid lane is −0 (R93). -/
def rsum (valid : Nat) (a : List W32) : W32 := tree64 f32NegZero fadd (a.take valid ++ List.replicate (64 - valid) f32NegZero)

/-- RMAX: the maximum over valid lanes; an invalid lane is −Inf (R93). -/
def rmax (valid : Nat) (a : List W32) : W32 := (a.take valid).foldl fmax f32NegInf

/-- An op that works lane by lane (R90). -/
def laneOp (op : Nat) (a b c : W32) : W32 :=
  match op with
  | 0x01 => fadd a b
  | 0x02 => fsub a b
  | 0x03 => fmul a b
  | 0x04 => ffma a b c
  | 0x05 => fmax a b
  | 0x06 => fmin a b
  | 0x07 => fabs a
  | 0x08 => fneg a
  | 0x09 => fmax a f32Zero
  | 0x0A => fmin (fmax a b) c
  | 0x0B => fexp2 a
  | 0x0C => flog2 a
  | 0x0D => frcp 0x0D a
  | 0x0E => if (d32 a).isZero then f32Zero else frcp 0x0E a
  | 0x0F => frsqrt a
  | 0x10 => fsqrt a
  | 0x11 => ftanh a
  | 0x12 => fsigm a
  | 0x1B => a + b
  | _ => a

/-- SMAX and SMAX0 (R106). -/
def stageMax (st : Nat) (t : Stage) (v : BeatEnv) (b : BeatState) (a : List W32) : BeatState :=
  let w := cacheWord t v
  let old := if t.op = 0x18 then f32NegInf else cacheGet b.caches st w
  let new := fmax old (rmax v.valid a)
  { x := a.map fun e => if new = f32NegInf then f32NegInf else fsub e new,
    y := if old = f32NegInf then f32NegInf else fsub old new,
    caches := cachePut b.caches st w new }

/-- SSUM and SSUM0 (R107). -/
def stageSum (st : Nat) (t : Stage) (v : BeatEnv) (b : BeatState) (a : List W32) : BeatState :=
  let w := cacheWord t v
  let al := fexp2 b.y
  let old := if t.op = 0x1A then f32Zero else cacheGet b.caches st w
  { x := a, y := al,
    caches := cachePut (cachePut b.caches st w (ffma old al (rsum v.valid a))) st (w + 1) al }

/-- One stage (R85, R90). -/
def runStage (v : BeatEnv) (prog : List Byte) (b : BeatState) (st : Nat) : BeatState :=
  let t := stage prog st
  let src := source st t v b
  let a := src t.a
  match t.op with
  | 0x13 => { b with x := List.replicate 64 (rsum v.valid a) }
  | 0x14 => { b with x := List.replicate 64 (rmax v.valid a) }
  | 0x15 =>
    let lim : Int := (v.i1 : Int) + v.org1 + t.imm.toInt
    { b with x := a.zipIdx.map fun e => if lim < (v.j0 : Int) + e.2 + v.org0 then f32NegInf else e.1 }
  | 0x16 => { b with x := a, y := (src t.b).headD 0 }
  | 0x17 | 0x18 => stageMax st t v b a
  | 0x19 | 0x1A => stageSum st t v b a
  | op =>
    let bs := src t.b
    let cs := src t.c
    { b with x := a.zipIdx.map fun e => laneOp op e.1 (bs.getD e.2 0) (cs.getD e.2 0) }

/-- The eight stages in order: X starts as IN0 and Y as +0 (R86, R87). -/
def runStages (prog : List Byte) (v : BeatEnv) (caches : Tab W32) : BeatState :=
  (List.range 8).foldl (runStage v prog) { x := v.in0, y := 0, caches := caches }

-- The output port (R100 to R102, R105, R249)

/-- One element's bytes at its place: a K4 nibble leaves the other unchanged (R249). -/
def putElem (s : State) (c : Nat) (t : Strm) (lin j raw : Nat) : State :=
  let base := t.addr + (if t.p1 = 0 then 0 else lin) * t.p1 * 64
  if t.fmt = 6 then
    let a := base + j / 2
    let old := fld (sramReads s c a 1) 0 1
    sramWrites s c a [BitVec.ofNat 8 (if j % 2 = 0 then old / 16 * 16 + raw else raw * 16 + old % 16)]
  else sramWrites s c (base + j * (elemBits t.fmt / 8)) (leBytes (elemBits t.fmt / 8) raw)

/-- An element of a stream is written in its MU, or given to the program that the stream names (R266); an element that is narrower than the
program's is zero-extended: DESIGN CHOICE (log 71). -/
def writeElem (s : State) (c : Nat) (t : Strm) (lin n j raw : Nat) : State :=
  if t.agp then
    match agOf (core s c) t with
    | none => s
    | some g => agPut s c g n (leBytes (agEsize g.desc.bytes) raw)
  else putElem s c t lin j raw

/-- The conversion of one block of a beat: its scale code and the raw bits of its elements (R49, R101, R52). -/
def encodeBlock (t : Strm) (sat : Bool) (scale : W32) (stoch : Option (W32 × W32)) (pos : Nat) (xs : List W32) : Nat × List Nat :=
  let e := if t.scaled then chooseScale t.fmt sat scale xs else 127
  (e, xs.zipIdx.map fun x =>
    match stoch with
    | some (seed, step) => stochW24 x.1 (stochR seed step 0 (BitVec.ofNat 32 (pos + x.2)))
    | none => encodeElem t.fmt sat t.scaled scale e x.1)

/-- Write elements from column j on; the n-th of the stream first. -/
def writeElems (c : Nat) (t : Strm) (lin n j : Nat) : List Nat → State → State
  | [], s => s
  | raw :: l, s => writeElems c t lin (n + 1) (j + 1) l (writeElem s c t lin n j raw)

/-- One block of the beat, elements l0 to l0 + 31, and for each whether it is non-zero after conversion. -/
def putBlock (c : Nat) (d : QDesc) (t : Strm) (p : BeatPos) (xs : List W32) (l0 : Nat) (s : State) : State × List Nat :=
  let b := d.bytes
  let blk := (xs.drop l0).take (min 32 (p.valid - l0))
  if blk = [] then (s, [])
  else
    let lin := d.rowLin p.row
    let stoch := if bit (fld b 17 1) 3 then some (BitVec.ofNat 32 (fld b 116 4), BitVec.ofNat 32 (fld b 120 4)) else none
    let r := encodeBlock t (bit (fld b 17 1) 0) (coarse s c t.fmt t.scale) stoch (d.lin p.row (p.j0 + l0)) blk
    let s := if t.scaled then sramWrites s c (t.scaleAddr (dExt b 0) lin (p.j0 + l0)) [BitVec.ofNat 8 r.1] else s
    (writeElems c t lin (d.lin p.row (p.j0 + l0)) (p.j0 + l0) r.2 s,
      if r.1 = 0xFF then r.2.map fun _ => 1 else r.2.map fun raw =>
        if t.fmt ∈ [5, 8, 10, 11] then raw else raw % 2 ^ (elemBits t.fmt - 1))

/-- One element of a V1 stream: its vote bit and its vote block's flag (R39, R40, R105, R259). Behind the walk's last element, `last`, the
vote bits of its block are written as 0. -/
def putVote (c : Nat) (d : QDesc) (t : Strm) (absurd : W32) (n prev : Nat) (first last : Bool) (x : W32) (s : State) : State :=
  let b := d.bytes
  let pb := fld b 124 4
  let blk := (pb + n) / 4096
  let fa := fld b 120 4 + (blk / 8 - pb / 32768)
  let bad := match d32 x with
    | .fin _ _ _ => (d32 absurd).lt (d32 x).abs
    | _ => true
  let old := fld (sramReads s c fa 1) 0 1
  let was := if first ∨ (pb + prev) / 4096 ≠ blk then false else bit old (blk % 8)
  let clear := old - b2n (bit old (blk % 8)) * 2 ^ (blk % 8)
  let s := sramWrites s c fa [BitVec.ofNat 8 (clear + b2n (was || bad) * 2 ^ (blk % 8))]
  let s := if bad ∧ ¬ was then bump s (vceBase c + 0x30) 1 else s
  let va := t.addr + n / 8
  let w := fld (sramReads s c va 1) 0 1
  let k := n % 8
  let keep := w % 2 ^ k + (if last then 0 else w / 2 ^ (k + 1) * 2 ^ (k + 1))
  let s := sramWrites s c va [BitVec.ofNat 8 (keep + b2n (x.msb && !bad) * 2 ^ k)]
  if last then sramWrites s c (va + 1) (zeros (t.addr + ((blk + 1) * 4096 - pb) / 8 - (va + 1))) else s

/-- The valid lanes of a V1 beat. DESIGN CHOICE (log 71): an element of 1 bit is no element of a program, so with AGP = 1 the votes are
written at ADDR's MU and the program is left aside. -/
def putVotes (c : Nat) (d : QDesc) (t : Strm) (p : BeatPos) (xs : List W32) (s : State) : State :=
  let n := p.row * d.e0 + p.j0
  ((xs.take p.valid).zipIdx).foldl (fun s e =>
    let k := n + e.2
    let q := ((k - 1) / d.e0, (k - 1) % d.e0)
    putVote c d t (BitVec.ofNat 32 (fld d.bytes 116 4)) (d.lin p.row (p.j0 + e.2)) (d.lin q.1 q.2) (k = 0)
      (k + 1 = d.rows * d.e0) e.1 s) s

/-- The output of a beat: the state after its writes, and for each valid lane whether its element is non-zero after
conversion. -/
def putBeat (s : State) (c : Nat) (d : QDesc) (p : BeatPos) (xs : List W32) : State × List Nat :=
  let t := strm d.bytes 100
  if ¬ t.en then (s, [])
  else if t.fmt = 9 then (putVotes c d t p xs s, [])
  else
    let a := putBlock c d t p xs 0 s
    let b := putBlock c d t p xs 32 a.1
    (b.1, a.2 ++ b.2)

-- Zero maps (R102 to R104, R260)

/-- ZP: bytes of one row of blocks. -/
def zpPitch (b : List Byte) : Nat := cdiv (cdiv (dExt b 0) 128) 8 * 8

/-- Rows of blocks over dimension 1. -/
def zpRows (b : List Byte) : Nat := cdiv (if 2 ≤ dNdim b then dExt b 1 else 1) 16

/-- The bit of block (u, v) of the map at an address. -/
def zpBit (s : State) (c a : Nat) (b : List Byte) (u v : Nat) : Bool :=
  bit (fld (sramReads s c (a + u * zpPitch b + v / 8) 1) 0 1) (v % 8)

/-- Clear the bit of block (u, v). -/
def zpClear (s : State) (c a : Nat) (b : List Byte) (u v : Nat) : State :=
  let k := a + u * zpPitch b + v / 8
  let w := fld (sramReads s c k 1) 0 1
  if bit w (v % 8) then sramWrites s c k [BitVec.ofNat 8 (w - 2 ^ (v % 8))] else s

/-- The zero map at the start of a walk: positions outside the bounds count as zero, so every bit is 1 until a non-zero
element comes; with ZMAP_ALLOW 0 every bit is 0 (R102, R104). -/
def zpInit (s : State) (c : Nat) (b : List Byte) (allow : Bool) : State :=
  sramWrites s c (fld b 116 4) (List.replicate (zpRows b * zpPitch b) (if allow then 0xFF else 0))

/-- Local index of a dimension of a row, 0 beyond NDIM. -/
def rowAt (d : QDesc) (r k : Nat) : Nat := (d.rowIdx r).getD (k - 1) 0

/-- Whether a beat is the last of its band of 128 rows of dimension 1 (R103). -/
def bandEnds (d : QDesc) (p : BeatPos) : Bool :=
  let i1 := rowAt d p.row 1
  p.j0 + 64 ≥ d.e0 && (i1 % 128 = 127 || i1 + 1 ≥ d.ext.getD 1 1) &&
    (List.range 4).all fun k => rowAt d p.row (k + 2) + 1 ≥ d.ext.getD (k + 2) 1

/-- The check word of a band, with the counts of predicted-zero blocks and of those found non-zero (R103). -/
def bandCheck (s : State) (c : Nat) (b : List Byte) (band : Nat) : Nat × Nat :=
  let blocks := (List.range (min 8 (zpRows b - 8 * band))).flatMap fun u =>
    (List.range (cdiv (dExt b 0) 16)).map fun v => (8 * band + u, v)
  let pred := blocks.filter fun q => zpBit s c (fld b 120 4) b q.1 q.2
  (pred.length, (pred.filter fun q => !zpBit s c (fld b 116 4) b q.1 q.2).length)

/-- The zero map and the check of a beat whose lanes' converted magnitudes are given. With ZMAP_ALLOW 0 the check compares with the
zeroed map, so every predicted-zero block counts in VCE_EVT_ZMISS: DEDUCED (log 71). -/
def zeroMap (s : State) (c : Nat) (d : QDesc) (p : BeatPos) (mags : List Nat) (allow : Bool) : State :=
  let b := d.bytes
  let fl := fld b 17 1
  if ¬ bit fl 1 then s
  else
    let i1 := rowAt d p.row 1
    let s := if p.row = 0 ∧ p.j0 = 0 then zpInit s c b allow else s
    let s := mags.zipIdx.foldl (fun s e => if e.1 = 0 then s else zpClear s c (fld b 116 4) b (i1 / 16) ((p.j0 + e.2) / 16)) s
    if bit fl 2 ∧ bandEnds d p then
      let band := i1 / 128
      let n := bandCheck s c b band
      let miss := !allow || decide (0 < n.2)
      let s := sramWrites s c (fld b 124 4 + 8 * band) (leBytes 8 (b2n miss))
      let s := bump (bump s (vceBase c + 0x20) n.1) (vceBase c + 0x28) n.2
      arriveRef s c d.id b (dAuxb b)
    else s

-- The tap (R109, R112, R116)

/-- Linear index of an element over dimensions 2 and up, declared. -/
def outerLin (b : List Byte) (idx : List Nat) : Nat := rowIndex b 2 (idx.drop 1)

/-- Whether the mask of a RED descriptor lets element n take part (R112, R263). -/
def unmasked (s : State) (c : Nat) (red : List Byte) (n : Nat) : Bool :=
  !bit (fld red 18 1) 2 || bit (fld (sramReads s c (bits (fld red 68 4) 23 0 + n / 8) 1) 0 1) (n % 8)

/-- The output and the position of element (row, j) of a walk under AXIS (R111, R116). -/
def redPlace (axis : Nat) (d : QDesc) (row j : Nat) : Nat × Nat :=
  match axis with
  | 0 => (d.rowLin row, j)
  | 1 => (j + dExt d.bytes 0 * outerLin d.bytes (d.rowIdx row), rowAt d row 1)
  | _ => (0, d.lin row j)

/-- The elements of a beat that take part, and how many do not. DESIGN CHOICE (log 71): an element beyond the bounds is in no beat and is
not counted in RED_EVT_MASKED either; the bit of an element in the mask stream is its linear index over the declared extents. -/
def redBeat (s : State) (c : Nat) (red : List Byte) (d : QDesc) (p : BeatPos) (xs : List W32) : List RedElem × Nat :=
  let es := (xs.take p.valid).zipIdx.filter fun e => unmasked s c red (d.lin p.row (p.j0 + e.2))
  (es.map fun e =>
    let q := redPlace (bits (fld red 16 1) 5 4) d p.row (p.j0 + e.2)
    { lane := e.2, out := q.1, pos := q.2, v := e.1 }, p.valid - es.length)

/-- Give a beat to the running reduction. -/
def redTake (s : State) (c : Nat) (r : RedRun) (d : QDesc) (p : BeatPos) (xs : List W32) : State :=
  let e := redBeat s c r.desc.bytes d p xs
  let s := bump (bump s (redBase c + 0x10) e.1.length) (redBase c + 0x18) e.2
  modCore s c fun x => { x with red := { x.red with run := some { r with beats := r.beats ++ [e.1] } } }

/-- Pair the running reduction with a walk. -/
def redPair (x : Core) (walk : List Byte) (closed : Bool) : Core :=
  { x with red := { x.red with run := x.red.run.map fun r => { r with walk := some walk, closed := closed } } }

/-- The tapped walk has ended. -/
def redClose (x : Core) : Core := { x with red := { x.red with run := x.red.run.map fun r => { r with closed := true } } }

-- Walks (R97 to R99, R262)

/-- Change the VCE of a core. -/
def modVce (x : Core) (f : Vce → Vce) : Core := { x with vce := f x.vce }

/-- Set the state of tile buffers. -/
def setTbs (v : Vce) (l : List Nat) (st : Nat) : Vce := { v with tbState := l.foldl (fun t i => tset 0 t i st) v.tbState }

/-- What completes a walk, whose writes lie in `rs`, or a skipped walk: DONE, and with ENDGEN the markers of its reel's generation (R244,
R262). -/
def walkDone (s : State) (c : Nat) (d : QDesc) (rs : List (Nat × Nat)) : State :=
  let b := d.bytes
  let s := if dEndGen b then
      modCore s c fun x => modVce x fun v => { v with reels := tput (dReel b) { tget {} v.reels (dReel b) with marked := true } v.reels }
    else s
  arriveOut s c d.id b (dDone b) rs

/-- Take the head of the epilogue queue off; a buffer that stood there becomes Free, once its drain has ended, unless the walk keeps it. -/
def takeEpi (x : Core) (keep : Bool) : Core :=
  let y := modVce x fun v => { v with epi := v.epi.tail }
  match x.vce.epi with
  | some tb :: _ => if keep then y else freeTbs y [tb]
  | _ => y

/-- Whether the VCE has a place for the walk `d` (R97 to R99, R155): its reel has no walk and no configuration in its shadow slot, its
scratch buffers are Free, and, where it needs them, an epilogue entry and a tapping reduction wait. -/
def walkFits (x : Core) (d : QDesc) : Bool :=
  let b := d.bytes
  let prog := ((vceReel x (dReel b)).conf).getD (zeros 128)
  (x.vce.walks.all fun w => decide (dReel w.desc.bytes ≠ dReel b)) && (vceReel x (dReel b)).shadow.isNone &&
    ((scratchOf b).all fun i => decide (tget 0 x.vce.tbState i = 0)) && (!(namesT prog && (scratchOf b).isEmpty) || !x.vce.epi.isEmpty) &&
    (!tapOf b || redOpen x)

/-- VWALK_START (R99, R98, R97, R155, R247): the walk at the head of the VCE queue starts once its start barrier is satisfied, its
reel has no walk and no configuration in its shadow slot, its scratch buffers are Free, and, where it needs them, an epilogue entry and a tapping reduction wait. The
walk that meets a skip entry of the epilogue queue is skipped. -/
def execVwalkStart (c : Nat) (s : State) : Out :=
  let x := core s c
  onUnit (coreOk c) s <|
    match readyHead x 1 with
    | none => .next s
    | some d =>
      let b := d.bytes
      let prog := ((vceReel x (dReel b)).conf).getD (zeros 128)
      let scr := scratchOf b
      let usesEpi := namesT prog && scr.isEmpty
      if ¬ engineLive s c ∨ d.skip ∨ dKind b ≠ 0 ∨ ¬ walkFits x d then .next s
      else if usesEpi ∧ x.vce.epi.head? = some none then
        let y := takeEpi (popHead x 1) false
        .next (walkDone (beginDrain (setCore s c (if tapOf b then redPair y b true else y)) c) c d [])
      else
        let tb : Option Nat := if usesEpi then (x.vce.epi.headD none) else if namesT prog then scr.head? else none
        let y := if usesEpi then takeEpi (popHead x 1) true else popHead x 1
        let y := if tapOf b then redPair y b false else y
        .next (agPostAll (setCore s c (modVce y fun v =>
          { setTbs v scr 2 with walks := v.walks ++ [{ desc := d, prog := prog, beat := 0, tb := tb, scratch := scr }] })) c)

/-- The row of the tile buffer that a beat reads; a lane outside the bounds holds +0. R260 gives every walk over T the extents of the
buffer; what one that had others would read beyond its 128 × 64 words is free. -/
def tileRow (s : State) (c : Nat) (tb : Option Nat) (p : BeatPos) : List W32 :=
  match tb with
  | some t => fill64 ((List.range p.valid).map fun l =>
      let i := 64 * p.row + p.j0 + l
      if i < 8192 ∧ p.j0 + l < 64 then tget 0 (core s c).vce.tiles (8192 * t + i) else (Config.freeValue (s.free + i)).setWidth 32)
  | none => fill64 []

/-- What a beat carries. -/
def beatEnv (s : State) (c : Nat) (w : Walk) (p : BeatPos) : BeatEnv :=
  let d := w.desc
  let b := d.bytes
  { in0 := strmBeat s c d (strm b 52) p, in1 := strmBeat s c d (strm b 68) p, in2 := strmBeat s c d (strm b 84) p,
    tbuf := tileRow s c w.tb p, valid := p.valid, j0 := p.j0,
    i1 := rowAt d p.row 1, i2 := rowAt d p.row 2, org0 := dOrg b 0, org1 := dOrg b 1 }

/-- Programs whose last element their consumer has passed complete (R244, R266): `upTo g` of the program's elements have been, or all that
there are, when the consumer has ended. -/
def finishProgs (s : State) (c : Nat) (ts : List Strm) (ended : Bool) (upTo : AgRun → Nat) : State :=
  ts.foldl (fun s t =>
    if ¬ t.named then s
    else match agOf (core s c) t with
      | some g => if ended ∨ agCount g.desc.bytes ≤ upTo g then agFinish s c g else s
      | none => s) s

/-- The program that an output stream names makes the writes that it can; it is closed once its producer has passed its last element, or has
ended. -/
def feedProg (s : State) (c : Nat) (t : Strm) (ended : Bool) (upTo : Nat) : State :=
  if ¬ t.named then s
  else match agOf (core s c) t with
    | some g => if ended ∨ agCount g.desc.bytes ≤ upTo then agClose s c g.desc.id else agPostAll s c
    | none => s

/-- The writes of a beat: caches, output, zero map, exposure, tap. No field names a write to a tile buffer that the walk holds as scratch,
and none is made: DESIGN CHOICE (log 71). -/
def beatOut (s : State) (c : Nat) (w : Walk) (p : BeatPos) (r : BeatState) : State :=
  let d := w.desc
  let b := d.bytes
  let allow := (cfgOf s c (vceBase c)).getLsbD 1
  let xs := r.x.take p.valid
  let o := putBeat s c d p r.x
  let s := zeroMap o.1 c d p o.2 allow
  let s := modCore s c fun x =>
    let x := modVce x fun v => { v with caches := r.caches, walks := updFirst (fun q => q.desc.id = d.id) (fun q => { q with beat := q.beat + 1 }) v.walks }
    let x := if w.scratch = [] ∧ p.row = 127 then freeTbs x w.tb.toList else x
    recordExpo x (if (strm b 100).en then scaleTag (strm b 100).scale else 0) xs
  let s := match (core s c).red.run with
    | some q => if tapOf b then redTake s c q d p r.x else s
    | none => s
  let s := bump (beginDrain s c) (vceBase c + 0x18) 1
  let ended := decide (w.beat + 1 = beatCount d)
  let upTo := d.lin p.row (p.j0 + p.valid - 1) + 1
  feedProg (finishProgs s c (walkIns b) ended fun _ => upTo) c (strm b 100) ended upTo

/-- VCE_BEAT_ISSUE (R85 to R109): the next beat of the running reel's walk issues when it waits for nothing (R89). -/
def execVceBeatIssue (c : Nat) (s : State) : Out :=
  let x := core s c
  onUnit (coreOk c) s <|
    match x.vce.walks.find? fun w => dReel w.desc.bytes = tget 0 x.unitReel 1 with
    | none => .next s
    | some w =>
      let p := beatPos w.desc w.beat
      when_ (engineLive s c && decide (w.beat < beatCount w.desc ∧ beatWaits x w = 0)) s
        (beatOut s c w p (runStages w.prog (beatEnv s c w p) x.vce.caches))

/-- VWALK_END (R99): after its last beat the walk frees its buffers and arrives on DONE. -/
def execVwalkEnd (c : Nat) (s : State) : Out :=
  let x := core s c
  onUnit (coreOk c) s <|
    match x.vce.walks.find? fun w => beatCount w.desc ≤ w.beat with
    | none => .next s
    | some w =>
      when_ (engineLive s c) s <|
        let owned := if w.scratch ≠ [] then w.scratch else if w.desc.rows < 128 then w.tb.toList else []
        let y := freeTbs (modVce x fun v => { v with walks := delFirst (fun q => q.desc.id = w.desc.id) v.walks }) owned
        walkDone (beginDrain (setCore s c (if tapOf w.desc.bytes then redClose y else y)) c) c w.desc (outRanges w.desc)

/-- VPROG_APPLY (R262, R155): the stage program takes effect at once on a reel without a configuration in the take;
otherwise it enters the reel's shadow slot. DESIGN CHOICE (log 63): ENDGEN on a VPROG, which feeds its reel with nothing, has no effect. -/
def execVprogApply (c : Nat) (s : State) : Out :=
  let x := core s c
  onUnit (coreOk c) s <|
    match readyHead x 1 with
    | none => .next s
    | some d =>
      let r := vceReel x (dReel d.bytes)
      let put := fun (g : GenReel) => modVce (popHead x 1) fun v => { v with reels := tput (dReel d.bytes) g v.reels }
      if ¬ engineLive s c ∨ dKind d.bytes ≠ 1 then .next s
      else if r.conf.isNone then .next (arriveRef (setCore s c (put { r with conf := some d.bytes })) c d.id d.bytes (dDone d.bytes))
      else when_ r.shadow.isNone s (setCore s c (put { r with shadow := some d }))

/-- VCACHE (R94, R261): CLOAD fills cache words from an MU; CSTORE writes them back as FP32. -/
def execVcache (c : Nat) (s : State) : Out :=
  let x := core s c
  onUnit (coreOk c) s <|
    match readyHead x 1 with
    | none => .next s
    | some d =>
      let b := d.bytes
      let t := strm b 24
      let st := bits (fld b 16 1) 2 0
      let w0 := fld b 18 2
      let n := fld b 20 4
      let load := decide (fld b 17 1 = 0)
      if ¬ engineLive s c ∨ dKind b ≠ 2 ∨ x.vce.walks ≠ [] ∨ ¬ progsReady x [t] then .next s
      else if load ∧ ¬ dataReady x t (List.range n) then .next (agPostAll s c)
      else
        let done := fun (s : State) (rs : List (Nat × Nat)) => arriveOut (modCore s c fun x => popHead x 1) c d.id b (dDone b) rs
        let scale := coarse s c t.fmt t.scale
        if load then
          let l := (List.range n).map fun i => strmElem s c n t scale 0 i i
          let s := modCore s c fun x => modVce x fun v => { v with caches := l.zipIdx.foldl (fun cs e => cachePut cs st (w0 + e.2) e.1) v.caches }
          .next (finishProgs (done s []) c [t] true fun _ => n)
        else
          let raws := (List.range n).map fun i => encodeElem 0 true false scale 127 (cacheGet x.vce.caches st (w0 + i))
          let s := writeElems c t 0 0 0 raws s
          .next (feedProg (done s (if t.agp then [] else [(t.addr, 4 * n)])) c t true n)

-- Generations (R155) and skip entries (R247)

/-- Whether no program of a reel runs on an AG. -/
def agReelDone (x : Core) (mu ag reel : Nat) : Bool := x.ags.all fun g => decide (¬(g.mu = mu ∧ g.ag = ag ∧ dReel g.desc.bytes = reel))

/-- A reel with the configuration of its shadow slot in force, in the next generation; its markers are dropped. -/
def GenReel.switch (d : QDesc) (r : GenReel) : GenReel := { conf := some d.bytes, gen := !r.gen }

/-- Whether the markers of a reel's generation stand at every input: those of the descriptor with ENDGEN (R262), and of each circuit that
has brought items of the generation. -/
def GenReel.drained (r : GenReel) : Bool := (r.marked || !r.ended.isEmpty) && r.feeds.all (· ∈ r.ended)

/-- REEL_GEN_SWITCH (R155, R262): with the markers of a generation at every input, and none of its walks or programs running, the shadow
configuration of a reel takes effect. Unit 0 is the VCE, 1 + 2m + a AG a of MU m. -/
def execReelGenSwitch (c unit reel : Nat) (s : State) : Out :=
  let x := core s c
  onUnit (coreOk c && unit < 9 && reelOk reel) s <|
    if ¬ engineLive s c then .next s
    else if unit = 0 then
      let r := vceReel x reel
      match r.shadow with
      | none => .next s
      | some d =>
        when_ (r.drained && x.vce.walks.all fun w => decide (dReel w.desc.bytes ≠ reel)) s
          (arriveRef (setCore s c (modVce x fun v => { v with reels := tput reel (r.switch d) v.reels })) c d.id d.bytes (dDone d.bytes))
    else
      let mu := (unit - 1) / 2
      let k := agReelKey mu ((unit - 1) % 2) reel
      let r := tget {} x.agReels k
      match r.shadow with
      | none => .next s
      | some d =>
        when_ (r.drained && agReelDone x mu ((unit - 1) % 2) reel && threadsFree x mu d.bytes) s
          (agStart (setCore s c { x with agReels := tput k (r.switch d) x.agReels }) c mu d)

/-- DESC_SKIP_RUN (R247): a skip entry keeps its place: when its engine has nothing earlier under way, it arrives on DONE, and a tile's on
DRAINB. A skipped
EPILOGUE tile puts a skip entry in the epilogue queue, in order; a skipped walk that names T takes the head entry and frees
its buffer; a reduction paired with a skipped walk has no input. -/
def execDescSkipRun (c eng sub : Nat) (s : State) : Out :=
  let x := core s c
  let key := queueOfEng eng sub
  onUnit (coreOk c && eng ≤ 6 && (if eng = 3 ∨ eng = 6 then sub < 4 else sub = 0)) s <|
    match readyHead x key with
    | none => .next s
    | some d =>
      let b := d.bytes
      if ¬ engineLive s c ∨ ¬ d.skip then .next s
      else if eng = 0 then
        let epi := mDrain b = 0
        when_ (x.mxe.pass.isNone && x.mxe.drains.isEmpty) s <|
          let y := popHead x 0
          let y := if epi then modVce y fun v => { v with epi := v.epi ++ [none] } else y
          arriveRef (arriveRef (setCore s c y) c d.id b (dDone b)) c d.id b (bref b 116)
      else if eng = 1 then
        let usesEpi := namesT (((vceReel x (dReel b)).conf).getD (zeros 128)) && (scratchOf b).isEmpty
        when_ ((!usesEpi || !x.vce.epi.isEmpty) && (!tapOf b || redOpen x) && (vceReel x (dReel b)).shadow.isNone &&
          x.vce.walks.all fun w => decide (dReel w.desc.bytes ≠ dReel b)) s <|
          let y := popHead x 1
          let y := if usesEpi then takeEpi y false else y
          walkDone (beginDrain (setCore s c (if tapOf b then redPair y b true else y)) c) c d []
      else
        let y := popHead x key
        let k := agReelKey sub (agSel b) (dReel b)
        let y := if eng = 3 ∧ dEndGen b then { y with agReels := tput k { tget {} y.agReels k with marked := true } y.agReels } else y
        when_ ((eng ≠ 2 || x.red.run.isNone) && (eng ≠ 3 || (threadsFree x sub b && (tget {} x.agReels k).shadow.isNone))) s
          (arriveRef (setCore s c y) c d.id b (dDone b))

end Sys2Proof.Machine
end

