-- ==== Sys2Proof/Machine/Red.lean ====
section
/-! DEFINITION. The reduction engine (R109 to R117, R263, R264). Binary64 values are carried as their 64-bit codes. -/
namespace Sys2Proof.Machine

open Sys2Proof

-- binary64 (R113)

/-- The value of a binary64 code. -/
def d64 (w : Nat) : Num := fp64.value w
/-- The binary64 code nearest a value. -/
def r64 (v : Num) : Nat := fp64.encode false v
/-- A rounded sum. -/
def add64 (a b : Nat) : Nat := r64 ((d64 a).add (d64 b))
/-- A rounded difference. -/
def sub64 (a b : Nat) : Nat := r64 ((d64 a).add (d64 b).neg)
/-- A rounded product. -/
def mul64 (a b : Nat) : Nat := r64 ((d64 a).mul (d64 b))
/-- A rounded quotient. -/
def div64 (a b : Nat) : Nat := r64 ((d64 a).div (d64 b))
/-- A count as binary64. -/
def nat64 (n : Nat) : Nat := r64 (.fin false n 1)
/-- binary64 −0. -/
def neg0 : Nat := 0x8000000000000000
/-- The canonical NaN. -/
def nan64 : Nat := 0x7FF8000000000000

/-- maximum of IEEE 754-2019 on binary64. -/
def max64 (a b : Nat) : Nat :=
  if d64 a = .nan ∨ d64 b = .nan then nan64
  else if (d64 a).lt (d64 b) then b
  else if (d64 b).lt (d64 a) then a
  else if bit a 63 then b else a

/-- minimum. -/
def min64 (a b : Nat) : Nat :=
  if d64 a = .nan ∨ d64 b = .nan then nan64
  else if (d64 a).lt (d64 b) then a
  else if (d64 b).lt (d64 a) then b
  else if bit a 63 then a else b

-- Accumulators (R110, R113 to R116)

/-- The accumulator of one output: a sum or an extreme, the running moments, and the ranked entries (value, position). -/
structure RedAcc where
  any : Bool
  v : Nat
  n : Nat
  mean : Nat
  m2 : Nat
  top : List (W32 × Nat)
deriving DecidableEq, Repr

/-- The empty accumulator of a kind (R115). A sum starts at −0, so a sum of −0 inputs alone is −0: DESIGN CHOICE (log 71). -/
def RedAcc.empty (kind : Nat) : RedAcc :=
  { any := false, n := 0, mean := 0, m2 := 0, top := [],
    v := match kind with | 3 => 0xFFF0000000000000 | 4 => 0x7FF0000000000000 | 5 => 0 | _ => neg0 }

/-- Whether entry a ranks above entry b (R116). -/
def ranksAbove (byMag : Bool) (a b : W32 × Nat) : Bool :=
  let k := fun (w : W32) => if byMag then w &&& 0x7FFFFFFF else w
  rankLt (k b.1) (k a.1) || (!rankLt (k a.1) (k b.1) && decide (a.2 < b.2))

/-- Insert an entry in rank order and keep the first k. -/
def insertTop (byMag : Bool) (k : Nat) (e : W32 × Nat) (l : List (W32 × Nat)) : List (W32 × Nat) :=
  (l.takeWhile (ranksAbove byMag · e) ++ e :: l.dropWhile (ranksAbove byMag · e)).take k

/-- Combine moments (R114). -/
def combine (a : RedAcc) (nb mb m2b : Nat) : RedAcc :=
  if nb = 0 then a
  else
    let n' := a.n + nb
    let dl := sub64 mb a.mean
    let q := div64 (mul64 dl (nat64 nb)) (nat64 n')
    let t := div64 (mul64 (mul64 (mul64 dl dl) (nat64 a.n)) (nat64 nb)) (nat64 n')
    { a with any := true, n := n', mean := add64 a.mean q, m2 := add64 (add64 a.m2 m2b) t }

/-- A tree sum over the lanes of a beat, −0 where a lane takes no part (R93, R113). -/
def beatSum (f : W32 → Nat) (es : List RedElem) : Nat :=
  tree64 neg0 add64 ((List.range 64).map fun l => match es.find? fun e => e.lane = l with | some e => f e.v | none => neg0)

/-- The square of an input, exact in binary64. -/
def square (w : W32) : Nat := let x := r64 (d32 w); mul64 x x

/-- Fold one beat's elements of one output (R113, R114). -/
def accBeat (b : List Byte) (a : RedAcc) (es : List RedElem) : RedAcc :=
  if es = [] then a
  else
    let base := fld b 76 4
    let top := fun (byMag : Bool) => es.foldl (fun t e => insertTop byMag (rK b) (e.v, (e.pos + base) % 2 ^ 32) t) a.top
    match rKind b with
    | 0 => { a with any := true, v := add64 a.v (beatSum (fun w => r64 (d32 w)) es) }
    | 1 => { a with any := true, v := add64 a.v (beatSum square es) }
    | 2 =>
      let mb := div64 (beatSum (fun w => r64 (d32 w)) es) (nat64 es.length)
      combine a es.length mb (beatSum (fun w => let x := sub64 (r64 (d32 w)) mb; mul64 x x) es)
    | 3 => { a with any := true, v := es.foldl (fun v e => max64 v (r64 (d32 e.v))) a.v }
    | 4 => { a with any := true, v := es.foldl (fun v e => min64 v (r64 (d32 e.v))) a.v }
    | 5 => { a with any := true, v := es.foldl (fun v e => max64 v (r64 (d32 e.v).abs)) a.v }
    | 6 => { a with any := true, top := top false }
    | _ => { a with any := true, v := add64 a.v (beatSum square es), top := top true }

/-- Fold one partial record of the same kind, written with OUT64 (R110, R113). -/
def accRecord (b : List Byte) (a : RedAcc) (r : List Byte) : RedAcc :=
  let ents := fun (off : Nat) => (List.range (min (fld r 0 4) (rK b))).map fun i =>
    (BitVec.ofNat 32 (fld r (off + 8 * i) 4), fld r (off + 8 * i + 4) 4)
  match rKind b with
  | 2 => combine a (fld r 0 8) (fld r 8 8) (fld r 16 8)
  | 3 | 5 => { a with any := true, v := max64 a.v (fld r 0 8) }
  | 4 => { a with any := true, v := min64 a.v (fld r 0 8) }
  | 6 => { a with any := true, top := (ents 8).foldl (fun t e => insertTop false (rK b) e t) a.top }
  | 7 => { a with any := true, v := add64 a.v (fld r 8 8), top := (ents 16).foldl (fun t e => insertTop true (rK b) e t) a.top }
  | _ => { a with any := true, v := add64 a.v (fld r 0 8) }

/-- The value word of a result: a sum without input is +0 (R115). -/
def RedAcc.value (kind : Nat) (a : RedAcc) : Nat := if a.any ∨ kind = 3 ∨ kind = 4 ∨ kind = 5 then a.v else 0

/-- Ranked entries of a record; the rest hold −Inf and 0xFFFF_FFFF (R117). -/
def topBytes (k : Nat) (l : List (W32 × Nat)) : List Byte :=
  (List.range k).flatMap fun i =>
    match l[i]? with
    | some e => leBytes 4 e.1.toNat ++ leBytes 4 e.2
    | none => leBytes 4 0xFF800000 ++ leBytes 4 0xFFFFFFFF

/-- The result record of an output (R114, R115, R117). An OUT64 record of MEANVAR without input holds the canonical NaN as mean and +0 as
M2: DESIGN CHOICE (log 71). -/
def resultRecord (b : List Byte) (a : RedAcc) : List Byte :=
  let kind := rKind b
  let v := a.value kind
  match kind with
  | 2 =>
    let mean := if a.n = 0 then nan64 else a.mean
    if rOut64 b then leBytes 8 a.n ++ leBytes 8 mean ++ leBytes 8 a.m2
    else
      let q := if bit (fld b 18 1) 0 then a.n - 1 else a.n
      let var := if q = 0 then nan64 else div64 a.m2 (nat64 q)
      leBytes 4 (r32 (d64 mean)).toNat ++ leBytes 4 (r32 (d64 var)).toNat ++ leBytes 4 a.n ++ zeros 4
  | 6 => leBytes 4 a.top.length ++ zeros 4 ++ topBytes (rK b) a.top
  | 7 => leBytes 4 a.top.length ++ zeros 4 ++ leBytes 8 v ++ topBytes (rK b) a.top
  | _ => if rOut64 b then leBytes 8 v else leBytes 4 (r32 (d64 v)).toNat

-- Runs

/-- How many outputs a reduction over a walk has, over its declared extents (R111, R264). DESIGN CHOICE (log 40): one that lies wholly beyond
the effective extents gets the record of an output without input. -/
def outputsOf (axis : Nat) (walk : List Byte) : Nat :=
  match axis with
  | 0 => dRows walk
  | 1 => dExt walk 0 * ((List.range (dNdim walk - 2)).map fun i => dExt walk (i + 2)).foldl (· * ·) 1
  | _ => 1

/-- The beats of a reduction's own stream, in walk order, with how many elements are masked. -/
def redStream (s : State) (c : Nat) (d : QDesc) : List (List RedElem) × Nat :=
  let l := (List.range (beatCount d)).map fun k =>
    let p := beatPos d k
    redBeat s c d.bytes d p (strmBeat s c d (strm d.bytes 52) p)
  (l.map (·.1), (l.map (·.2)).foldl (· + ·) 0)

/-- The records of an output that a merge's limits leave (R249), by their place in the output. -/
def mergeIdx (d : QDesc) (o : Nat) : List Nat :=
  match d.inExt (0 :: unflat (((List.range (dNdim d.bytes)).map (dExt d.bytes)).drop 1) o) with
  | some _ => List.range d.e0
  | none => []

/-- The records of an output that take part (R112): the mask has one bit per record. -/
def mergeParts (s : State) (c : Nat) (d : QDesc) (o : Nat) : List Nat :=
  (mergeIdx d o).filter fun i => unmasked s c d.bytes (i + dExt d.bytes 0 * o)

/-- First byte of record i of an output in the stream of the program that a merge reads. -/
def mergeByte (d : QDesc) (o i : Nat) : Nat := (o * dExt d.bytes 0 + i) * mergeSize d.bytes

/-- Bytes k to k + n - 1 of a program's stream. -/
def agBytes (g : AgRun) (k n : Nat) : List Byte :=
  (List.range n).map fun i =>
    let e := agEsize g.desc.bytes
    ((agElem g ((k + i) / e)).getD []).getD ((k + i) % e) 0

/-- Record i of an output, from the MU or through the program that IN names. Each output's records are contiguous (R264). -/
def mergeRecord (s : State) (c : Nat) (d : QDesc) (o i : Nat) : List Byte :=
  let t := strm d.bytes 52
  let sz := mergeSize d.bytes
  if t.agp then
    match agOf (core s c) t with
    | none => zeros sz
    | some g => agBytes g (mergeByte d o i) sz
  else sramReads s c (t.addr + o * t.p1 * 64 + i * sz) sz

/-- The elements of a program's stream that a merge reads. -/
def mergeNeeds (s : State) (c : Nat) (d : QDesc) (g : AgRun) : List Nat :=
  (List.range (dRows d.bytes)).flatMap fun o => (mergeParts s c d o).flatMap fun i =>
    (List.range (mergeSize d.bytes)).map fun k => (mergeByte d o i + k) / agEsize g.desc.bytes

/-- Whether the input of a reduction has arrived (R89). -/
def redInput (s : State) (c : Nat) (d : QDesc) : Bool :=
  let x := core s c
  let t := strm d.bytes 52
  if rMerge d.bytes then
    match agOf x t with
    | some g => dataReady x t (mergeNeeds s c d g)
    | none => !t.named
  else (List.range (beatCount d)).all fun k => dataReady x t (beatLins d (beatPos d k))

/-- The result records of a merge, one for every declared output. -/
def mergeResults (s : State) (c : Nat) (d : QDesc) : List Byte :=
  (List.range (dRows d.bytes)).flatMap fun o =>
    resultRecord d.bytes (((mergeParts s c d o).map (mergeRecord s c d o)).foldl (accRecord d.bytes) (.empty (rKind d.bytes)))

/-- The result records of a reduction over elements. -/
def results (b walk : List Byte) (beats : List (List RedElem)) : List Byte :=
  (List.range (outputsOf (rAxis b) walk)).flatMap fun o =>
    resultRecord b (beats.foldl (fun a es => accBeat b a (es.filter fun e => e.out = o)) (.empty (rKind b)))

/-- How many elements, or records of a merge, a reduction without TAP takes and how many its mask drops (R112). -/
def redCounts (s : State) (c : Nat) (d : QDesc) : Nat × Nat :=
  if rMerge d.bytes then
    let all := ((List.range (dRows d.bytes)).map fun o => (mergeIdx d o).length).foldl (· + ·) 0
    let part := ((List.range (dRows d.bytes)).map fun o => (mergeParts s c d o).length).foldl (· + ·) 0
    (part, all - part)
  else
    let l := redStream s c d
    ((l.1.map List.length).foldl (· + ·) 0, l.2)

/-- RED_REDUCE (R110 to R112, R264): the reduction at the head of the queue starts; one that taps waits for its walk, another for its
input (R89). -/
def execRedReduce (c : Nat) (s : State) : Out :=
  let x := core s c
  onUnit (coreOk c) s <|
    match readyHead x 2 with
    | none => .next s
    | some d =>
      let b := d.bytes
      let go := fun (s : State) (r : RedRun) =>
        modCore s c fun x => let x := popHead x 2; { x with red := { x.red with run := some r, kind := rKind b } }
      if ¬ engineLive s c ∨ d.skip ∨ x.red.run.isSome ∨ ¬ progsReady x [strm b 52] then .next s
      else if tapOf b then .next (go s { desc := d, walk := none, beats := [], closed := false })
      else if ¬ redInput s c d then .next (agPostAll s c)
      else
        let n := redCounts s c d
        .next (go (bump (bump s (redBase c + 0x10) n.1) (redBase c + 0x18) n.2)
          { desc := d, walk := some b, beats := if rMerge b then [] else (redStream s c d).1, closed := true })

/-- RED_RESULT (R115 to R117, R244): with every input in, the records are written and DONE is arrived on. DESIGN CHOICE (log 40): with TAP, a
descriptor's MERGE bit has no effect, since the lanes of a walk are no records. -/
def execRedResult (c : Nat) (s : State) : Out :=
  onUnit (coreOk c) s <|
    match (core s c).red.run with
    | none => .next s
    | some r =>
      let b := r.desc.bytes
      match r.closed, r.walk with
      | true, some w =>
        if ¬ engineLive s c then .next s
        else
          let l := if rMerge b ∧ ¬ tapOf b then mergeResults s c r.desc else results b w r.beats
          let s := sramWrites s c (bits (fld b 72 4) 23 0) l
          let s := modCore s c fun x => { x with red := { x.red with run := none } }
          let s := finishProgs s c [strm b 52] true fun _ => 0
          .next (arriveOut s c r.desc.id b (dDone b) [(bits (fld b 72 4) 23 0, l.length)])
      | _, _ => .next s

end Sys2Proof.Machine
end

