-- ==== Sys2Proof/Machine/Codec.lean ====
section
/-! DEFINITION. The lossless codec of frames (R193 to R197). -/
namespace Sys2Proof.Machine

open Sys2Proof

/-- Bytes of an element for the codec; K4 counts as 1 (R195). -/
def codecSize (f : Nat) : Option Nat :=
  match f with
  | 0 | 10 | 11 => some 4
  | 1 | 2 => some 2
  | 3 | 4 | 5 | 6 => some 1
  | _ => none

/-- Bytes of a frame's slot (R194). -/
def frameSlot : Nat := 0x11000

/-- Bytes of a granule's payload by tag (R196). -/
def payloadLen (size tag : Nat) : Nat :=
  match tag with
  | 0 => 0
  | 1 => 64
  | _ => 1 + 32 / size + (64 / size) * (size - 1)

/-- The differences of the top bytes of a granule from the first one's. -/
def topDiffs (size : Nat) (g : List Byte) : List Int :=
  (List.range (64 / size)).map fun i => signed 8 ((fld g (size * i + size - 1) 1 + 256 - fld g (size - 1) 1) % 256)

/-- The tag and payload of a granule (R196). -/
def encodeGranule (size : Nat) (g : List Byte) : Nat × List Byte :=
  let ds := topDiffs size g
  if g.all (· = 0) then (0, [])
  else if ds.all fun d => decide (-8 ≤ d ∧ d ≤ 7) then
    (2, slice g (size - 1) 1 ++
      ((List.range (32 / size)).map fun j =>
        BitVec.ofNat 8 ((ds.getD (2 * j) 0 % 16).toNat + 16 * (ds.getD (2 * j + 1) 0 % 16).toNat)) ++
      (List.range (64 / size)).flatMap fun i => slice g (size * i) (size - 1))
  else (1, g)

/-- The 64 bytes of a granule from its payload. -/
def decodeGranule (size tag : Nat) (p : List Byte) : List Byte :=
  match tag with
  | 0 => zeros 64
  | 1 => slice p 0 64
  | _ => (List.range (64 / size)).flatMap fun i =>
      let d := fld p (1 + i / 2) 1 / 16 ^ (i % 2) % 16
      slice p (1 + 32 / size + (size - 1) * i) (size - 1) ++
        [BitVec.ofNat 8 ((fld p 0 1 + (signed 4 d % 256).toNat) % 256)]

/-- The coded bytes of frame f of raw bytes (R195, R196). -/
def encodeFrame (fmt size f : Nat) (raw : List Byte) : List Byte :=
  let gs := (List.range (cdiv raw.length 64)).map fun i => encodeGranule size (slice raw (64 * i) 64)
  let body := gs.flatMap (·.2)
  let h := leBytes 4 raw.length ++ leBytes 4 body.length ++ leBytes 1 fmt ++ zeros 3 ++ leBytes 4 (crc32c raw) ++ leBytes 8 f ++ zeros 36
  h ++ leBytes 4 (crc32c h) ++ slice (gs.map fun g => BitVec.ofNat 8 g.1) 0 1024 ++ body

/-- Decode payloads in granule order. -/
def decodeBody (size : Nat) : List Nat → List Byte → List Byte
  | [], _ => []
  | t :: ts, b => decodeGranule size t (b.take (payloadLen size t)) ++ decodeBody size ts (b.drop (payloadLen size t))

/-- The header's checks (R197): HDR_CRC, FRAME and the lengths; BODY_LEN when they pass. -/
def frameHeader (f len : Nat) (h : List Byte) : Option Nat :=
  if crcOk h 60 ∧ fld h 16 8 = f ∧ fld h 0 4 = len ∧ fld h 4 4 ≤ 65536 ∧ (codecSize (fld h 8 1)).isSome then some (fld h 4 4) else none

/-- The raw bytes of a frame, when its tags, its lengths and RAW_CRC hold (R197). -/
def decodeFrame (len : Nat) (h tags body : List Byte) : Option (List Byte) :=
  match codecSize (fld h 8 1) with
  | none => none
  | some size =>
    let ts := tags.map BitVec.toNat
    let n := cdiv len 64
    if ts.any (2 < ·) ∨ (ts.drop n).any (0 < ·) ∨ ((ts.map (payloadLen size)).foldl (· + ·) 0) ≠ body.length then none
    else
      let raw := (decodeBody size (ts.take n) body).take len
      if crc32c raw = fld h 12 4 then some raw else none

end Sys2Proof.Machine
end

