-- ==== Sys2Proof/Machine/Xfr.lean ====
section
/-! DEFINITION. Transfers (R268, R127, R364), requests in flight (R128), guarded, deferred and versioned prefetches (R156 to
R159), and the release of barrier waiters, which starts deferred reads (R131, R158). -/
namespace Sys2Proof.Machine

open Sys2Proof

-- Fields of a transfer (R267)

/-- DIR: 0 LOAD, 1 STORE, 2 RWRITE, 3 RREAD, 4 SEAL. -/
def xDir (b : List Byte) : Nat := bits (fld b 16 1) 3 0
/-- CODEC. -/
def xCodec (b : List Byte) : Bool := bit (fld b 16 1) 4
/-- GUARD. -/
def xGuard (b : List Byte) : Bool := bit (fld b 16 1) 5
/-- VERS. -/
def xVers (b : List Byte) : Bool := bit (fld b 16 1) 6
/-- PEER. -/
def xPeer (b : List Byte) : Nat := bits (fld b 18 2) 11 0
/-- KEY. -/
def xKey (b : List Byte) : Nat := fld b 20 4
/-- SRC. -/
def xSrc (b : List Byte) : Nat := fld b 24 8
/-- DST. -/
def xDst (b : List Byte) : Nat := fld b 32 8
/-- LEN. -/
def xLen (b : List Byte) : Nat := fld b 40 4
/-- ROWS. -/
def xRows (b : List Byte) : Nat := fld b 44 4
/-- SPITCH. -/
def xSpitch (b : List Byte) : Nat := fld b 48 4
/-- DPITCH. -/
def xDpitch (b : List Byte) : Nat := fld b 52 4
/-- Landing number. -/
def xLanding (b : List Byte) : Nat := fld b 56 4
/-- AUXW. -/
def xAux (b : List Byte) : Nat := fld b 56 8

/-- Change a transfer by its issue number. -/
def modXfr (x : Core) (id : Nat) (f : XfrRun → XfrRun) : Core := { x with xfrs := updFirst (fun r => r.desc.id = id) f x.xfrs }

/-- A transfer by its issue number. -/
def findXfr (x : Core) (id : Nat) : Option XfrRun := x.xfrs.find? fun r => r.desc.id = id

-- Address kinds (R268)

/-- Whether a range lies wholly in a core's own window. -/
def inOwnWindow (x : Core) (a len : Nat) : Bool :=
  let own := fun (a : Nat) => match decodeAddr a, x.place with | .sram l _, some p => l = p.lcore | _, _ => false
  own a && own (a + len - 1)

/-- Bytes of a range that decide its kind: both ends and one per MiB, since every piece of the map is at least that long. -/
def probes (a len : Nat) : List Nat := a :: (a + len - 1) :: (List.range (len / 0x100000)).map fun k => a + k * 0x100000

/-- Whether a range lies wholly in HBM3E, LPDDR5X or core SRAM windows. -/
def inMemory (a len : Nat) : Bool :=
  (probes a len).all fun q => match decodeAddr q with | .hbm _ _ | .lpddr _ _ | .sram _ _ => true | _ => false

/-- Whether a range touches a command window. -/
def touchesWindow (a len : Nat) : Bool :=
  (probes a len).any fun q => match decodeAddr q with | .window _ _ => true | _ => false

/-- The ranges of a side of a transfer: its rows, or its frames where the side is coded (R194). -/
def sideRanges (b : List Byte) (src : Bool) : List (Nat × Nat) :=
  if xCodec b ∧ (src = true ↔ xDir b = 0) then
    [((if src then xSrc b else xDst b) + xAux b * frameSlot, cdiv (xLen b) 65536 * frameSlot)]
  else (List.range (xRows b)).map fun r => ((if src then xSrc b + r * xSpitch b else xDst b + r * xDpitch b), xLen b)

/-- The first range that fails the address-kind test of its DIR, with the code the command ends with. -/
def kindFault (x : Core) (b : List Byte) : Option (Nat × Access) :=
  let own := (sideRanges b (xDir b = 1 ∨ xDir b = 2)).find? fun r => !inOwnWindow x r.1 r.2
  let other := if xDir b ≤ 1 then (sideRanges b (xDir b = 0)).find? fun r => !inMemory r.1 r.2 else none
  match own, other with
  | some r, _ | none, some r => some (r.1, if touchesWindow r.1 r.2 then .keyDenied else .unmapped)
  | none, none => none

-- Remote failures (R358, R364)

/-- Where the peer's side of a transfer begins. -/
def remoteAddr (b : List Byte) : Nat := if xDir b = 3 then xSrc b else if xDir b = 2 then xDst b else 0

/-- The command ends with TIMEOUT_REMOTE: an operation met a queue pair in Reset or Error. -/
def remoteTimeout (s : State) (c : Nat) (b : List Byte) : State :=
  endOfCore s c fun _ => { status := 0x0C, lcore := lcoreNo (core s c), detail := xPeer b, value := remoteAddr b }

/-- The command ends with KEY_DENIED for a remote operation. -/
def remoteDenied (s : State) (c : Nat) (b : List Byte) : State :=
  endOfCore s c fun _ => { status := 0x13, lcore := lcoreNo (core s c), detail := remoteAddr b % 2 ^ 48 }

/-- The open landing of a number in a take. -/
def landingNo (s : State) (t : Take) (n : Nat) : Option Landing :=
  (landingsOf s t.stream t.seq).find? fun l => l.landing = n ∧ l.tag = t.tag

/-- What a take has bound a landing number to (R364). -/
def boundTo (t : Take) (n : Nat) : Option Bound := t.bound.find? fun e => e.landing = n

/-- Whether a descriptor names a landing number that is bound to another PEER or KEY (R364). -/
def otherLanding (t : Take) (b : List Byte) : Bool :=
  match boundTo t (xLanding b) with | some l => decide (l.peer ≠ xPeer b ∨ l.key ≠ xKey b) | none => false

/-- Open a landing: its OPEN control record goes out before its first data (R364), and its number is bound; a vote landing is noted
(R338). -/
def openLanding (s : State) (c : Nat) (t : Take) (b : List Byte) : State :=
  let lc := lcoreNo (core s c)
  let l : Landing := { stream := t.stream, seq := t.seq, landing := xLanding b, peer := xPeer b, key := xKey b, tag := t.tag,
                       epoch := t.epoch, sealing := false, engine := false }
  let s := { s with net := { s.net with landings := s.net.landings ++ [l] } }
  let vote := isTallyKey s l.peer l.key && decide (l.landing < 2 ^ 31)
  let q : Bound := { landing := l.landing, peer := l.peer, key := l.key, lcore := lc, addr := xDst b }
  sendControl (modTake s t.stream t.seq fun t => { t with voted := t.voted || vote, bound := t.bound ++ [q] }) l 1

-- Requests (R127, R128)

/-- Bytes of the next piece of a row: 2 KiB at most (R127, R268), counted in raw bytes where the transfer is coded. -/
def pieceLen (b : List Byte) (off : Nat) : Nat := min 2048 (xLen b - off)

/-- The controller that a piece is read from or written to (R202); a remote piece goes to none. -/
def pieceCtl (b : List Byte) (row off : Nat) : Option Nat :=
  match xDir b with
  | 0 => ctlOf (xSrc b + (if xCodec b then (xAux b + off / 65536) * frameSlot else row * xSpitch b + off))
  | 1 => ctlOf (xDst b + (if xCodec b then (xAux b + off / 65536) * frameSlot else row * xDpitch b + off))
  | _ => none

/-- Whether every request of a transfer has been posted. -/
def posted (r : XfrRun) : Bool := decide (xRows r.desc.bytes ≤ r.row)

/-- The request-row under which the readings of a version word travel: no data row has that number (R267). -/
def versRow : Nat := 65536

/-- Post requests of a transfer while it has pieces and the table has room. A remote write sends its data, a remote read its
request, on the descriptor's queue pair. -/
def xfrPost : Nat → State → Nat → Nat → State
  | 0, s, _, _ => s
  | n + 1, s, c, id =>
    match findXfr (core s c) id with
    | none => s
    | some r =>
      let b := r.desc.bytes
      let ctl := pieceCtl b r.row r.off
      if r.deferred ∨ posted r ∨ tableSize ≤ (core s c).reqs.length ∨ (xVers b ∧ r.vers1.isNone) ∨ ¬ ctlRoom s ctl then s
      else
        let len := pieceLen b r.off
        let s := ctl.elim s (readyCtl s)
        let s := modCore s c fun x =>
          let x := putReq x ctl true false id r.row r.off len
          modXfr x id fun r => if r.off + len = xLen b then { r with row := r.row + 1, off := 0 } else { r with off := r.off + len }
        if xDir b = 2 then
          let d := devReads s (xSrc b + r.row * xSpitch b + r.off) len
          xfrPost n (send s (xPeer b) (.rwrite c id (core s c).issued) (xKey b) (xDst b + r.row * xDpitch b + r.off) d) c id
        else if xDir b = 3 then
          xfrPost n (send s (xPeer b) (.readReq c id r.row r.off) (xKey b) (xSrc b + r.row * xSpitch b + r.off) (leBytes 4 len)) c id
        else xfrPost n s c id

/-- What waits for a place of a table or of a controller goes on once one is free: every core's programs and transfers post what they can
(R127, R202). -/
def postAll (s : State) : State :=
  (s.cores.map (·.1)).foldl (fun s c =>
    if engineLive s c then ((core s c).xfrs.map (·.desc.id)).foldl (fun s id => xfrPost tableSize s c id) (agPostAll s c) else s) s

/-- A request of a transfer has been answered: it leaves the table, more are posted, and with the last one the data are in
place. A guarded load then arrives on its consume barrier unless its data are stale, and a versioned read arrives on AUXB. -/
def pieceDone (s : State) (c : Nat) (q : Req) : State :=
  let s := modCore s c fun x => { x with reqs := delFirst (fun e => e.xfr ∧ e.id = q.id ∧ e.row = q.row ∧ e.off = q.off) x.reqs }
  let s := postAll s
  let x := core s c
  match findXfr x q.id with
  | none => s
  | some r =>
    if ¬ posted r ∨ x.reqs.any (fun e => e.xfr ∧ e.id = q.id) then s
    else
      let b := r.desc.bytes
      let none_ := (dAuxb b).n = 0
      let s := modCore s c fun x => modXfr x q.id fun r => { r with moved := true, consumed := r.consumed || (xVers b && none_) }
      if xVers b then arriveRef s c q.id b (dAuxb b) else if xGuard b then prefetchIn s c q.id 0 b else s

-- The weight-streaming converter (R55, R22)

/-- Groups of 32. -/
def blocks32 (ws : List W32) : List (List W32) := (List.range (cdiv ws.length 32)).map fun i => (ws.drop (32 * i)).take 32

/-- The converter's element format by kind (R55): 0 BF16, 1 E4M3, 2 E5M2. -/
def convertFmt (kind : Nat) : Nat := if kind = 0 then 1 else kind + 2

/-- The scale byte of a block, chosen under R49 with SAT = 1 and coarse scale 1.0; 127 is 1. -/
def convertScale (kind : Nat) (ws : List W32) : Nat := if kind = 0 then 127 else chooseScale (convertFmt kind) true f32One ws

/-- The converter's codes for the records of a piece (R55). -/
def convertCodes (kind : Nat) (d : List Byte) : List Byte :=
  (blocks32 (recordWeights d)).flatMap fun ws =>
    ws.flatMap fun w => leBytes (if kind = 0 then 2 else 1) (encodeElem (convertFmt kind) true (decide (kind ≠ 0)) f32One (convertScale kind ws) w)

/-- The converter's scale bytes for the records of a piece: one for each 32 weights, none of BF16 (R46, R55). -/
def convertScales (kind : Nat) (d : List Byte) : List Byte :=
  if kind = 0 then [] else (blocks32 (recordWeights d)).map fun ws => BitVec.ofNat 8 (convertScale kind ws)

/-- Where the codes for the record at byte `off` of a source row lie in its destination row. -/
def codesOff (kind off : Nat) : Nat := if kind = 0 then off / 2 else off / 4

/-- Where the scale byte for the record at byte `off` of a source row lies in its destination row: the scales of a row are an array of their own
(R46). The spec gives the converter no address for it; behind the row's codes is DESIGN CHOICE (log 75). -/
def scalesOff (b : List Byte) (off : Nat) : Nat := xLen b / 4 + off / 128

/-- The converter's kind for a piece of a LOAD: slow-tier slices come through it (R400); none for any other piece. Which of the two ways of R55
a descriptor takes the spec does not say: a free value (log 75). -/
def pieceKind (s : State) (c : Nat) (b : List Byte) (q : Req) : Option Nat :=
  if xDir b = 0 ∧ inSlowSlice s c (xSrc b + q.row * xSpitch b + q.off) then some (Config.converter b % 3) else none

/-- Write what a piece brings: as it was read, or the converter's codes and scale bytes. -/
def placePiece (s : State) (b : List Byte) (q : Req) (kind : Option Nat) (d : List Byte) : Except Failed State :=
  let row := xDst b + q.row * xDpitch b
  match kind with
  | none => match writeMem s (row + q.off) d with
    | (.done, s) => .ok s
    | (e, _) => .error (e, row + q.off)
  | some k => match writeMem s (row + codesOff k q.off) (convertCodes k d) with
    | (.done, s) =>
      if k = 0 then .ok s
      else match writeMem s (row + scalesOff b q.off) (convertScales k d) with
        | (.done, s) => .ok s
        | (e, _) => .error (e, row + scalesOff b q.off)
    | (e, _) => .error (e, row + codesOff k q.off)

/-- Move one piece of a LOAD or a STORE; the access that failed and its address otherwise. Roots are read as the take latched them. -/
def movePiece (s : State) (c : Nat) (b : List Byte) (q : Req) : Except Failed State :=
  let src := xSrc b + q.row * xSpitch b + q.off
  match readMem s src q.len with
  | (.done, d) => placePiece s b q (pieceKind s c b q) (latched s c src d)
  | (e, _) => .error (e, src)

/-- Encode one frame into its slot (R194, R196). -/
def storeFrame (s : State) (b : List Byte) (q : Req) : Except Failed State :=
  let f := xAux b + q.off / 65536
  let dst := xDst b + f * frameSlot
  match readMem s (xSrc b + q.off) q.len with
  | (.done, d) => match writeMem s dst (encodeFrame (bits (fld b 17 1) 3 0) ((codecSize (bits (fld b 17 1) 3 0)).getD 4) f d) with
    | (.done, s) => .ok s
    | (e, _) => .error (e, dst)
  | (e, _) => .error (e, xSrc b + q.off)

/-- Decode one frame from its slot; a failed check gives data loss without an access fault (R197). -/
def loadFrame (s : State) (b : List Byte) (q : Req) : Except (Failed × Bool) State :=
  let f := xAux b + q.off / 65536
  let src := xSrc b + f * frameSlot
  let dst := xDst b + q.off
  match readMem s src 1088 with
  | (.done, h) =>
    match frameHeader f q.len h with
    | none => .error ((.dataLoss, src), true)
    | some n => match (if n = 0 then (Access.done, []) else readMem s (src + 1088) n) with
      | (.done, body) => match decodeFrame q.len h (h.drop 64) body with
        | none => .error ((.dataLoss, src), true)
        | some raw => match writeMem s dst raw with
          | (.done, s) => .ok s
          | (e, _) => .error ((e, dst), false)
      | (e, _) => .error ((e, src + 1088), false)
  | (e, _) => .error ((e, src), false)

/-- A frame that fails its checks ends the command with DATA_LOSS; no memory word is at fault (R197). -/
def frameFail (s : State) (c a : Nat) : State :=
  endOfCore s c fun _ => { status := 0x07, lcore := lcoreNo (core s c), detail := a % 2 ^ 48 }

/-- The whole frame that a piece belongs to. -/
def frameReq (b : List Byte) (q : Req) : Req :=
  let off := q.off / 65536 * 65536
  { q with off := off, len := min 65536 (xLen b - off) }

/-- Whether a piece is the last of its frame to come: the others have come, and none is still to be posted. -/
def frameIn (x : Core) (r : XfrRun) (q : Req) : Bool :=
  (posted r || decide (q.off / 65536 < r.off / 65536)) &&
    (x.reqs.filter fun e => e.xfr ∧ e.id = q.id ∧ e.off / 65536 = q.off / 65536).length = 1

/-- A guarded load watches what it has read (R156). -/
def watchPiece (x : Core) (id a len : Nat) : Core :=
  { x with guards := updFirst (fun e => e.desc.id = id ∧ e.len ≠ 0) (fun e => { e with seen := e.seen ++ [(a, len)] }) x.guards }

/-- A returned piece of a LOAD or a STORE: it is moved; of a coded transfer the frame, when its last piece comes (R194). -/
def xfrReturn (s : State) (c : Nat) (r : XfrRun) (q : Req) : State :=
  let b := r.desc.bytes
  let frame := xSrc b + (xAux b + q.off / 65536) * frameSlot
  let seen := fun (s : State) (a len : Nat) => if xGuard b then modCore s c fun x => watchPiece x q.id a len else s
  if ¬ xCodec b then
    match movePiece s c b q with
    | .ok t => pieceDone (seen t (xSrc b + q.row * xSpitch b + q.off) q.len) c q
    | .error e => accessFail s c e.1 e.2
  else if ¬ frameIn (core s c) r q then pieceDone s c q
  else if xDir b = 0 then
    match loadFrame s b (frameReq b q) with
    | .ok t => pieceDone (seen t frame frameSlot) c q
    | .error (e, true) => frameFail s c e.2
    | .error (e, false) => accessFail s c e.1 e.2
  else match storeFrame s b (frameReq b q) with
    | .ok t => pieceDone t c q
    | .error e => accessFail s c e.1 e.2

/-- A returned request of a program (R128): the read is performed, together with its watch (R156), and its data take their place in the
stream. A returned write has been made already, and frees its place. -/
def agReturn (s : State) (c : Nat) (g : AgRun) (q : Req) : State :=
  let id := g.desc.id
  let k := q.row * rowReads g.desc + q.off / readElems g.desc.bytes
  if q.write then postAll (agWrote s c id)
  else match readBytes s c g.desc q.row q.off with
  | .error e => accessFail s c e.1 e.2
  | .ok v =>
    let seen := (readRange s c g.desc q.row q.off).toList
    let s := modCore s c fun x => { x with guards := updFirst (fun e => e.desc.id = id ∧ e.read = k) (fun e => if e.len = 0 then e else { e with seen := seen }) x.guards }
    postAll (agArrive s c id k v)

/-- REQUEST_RETURN (R128): request k of a core's table returns. A program's read takes its place in its stream, a transfer's piece goes to
its destination; remote pieces return by the network's own rows. -/
def execRequestReturn (c k : Nat) (s : State) : Out :=
  let x := core s c
  onUnit (coreOk c) s <|
    match x.reqs[k]? with
    | none => .next s
    | some q =>
      if ¬ engineLive s c then .next s
      else if ¬ q.xfr then
        let s := modCore s c fun x => { x with reqs := x.reqs.eraseIdx k }
        match findAg x q.id with
        | some g => .next (agReturn s c g q)
        | none => .next (postAll s)
      else match findXfr x q.id with
        | none => .next s
        | some r => when_ (xDir r.desc.bytes < 2) s (xfrReturn s c r q)

-- Starting, sealing, completing (R268, R364, R244)

/-- A transfer as it starts. -/
def xfrNew (d : QDesc) (deferred : Bool) : XfrRun :=
  { desc := d, row := 0, off := 0, moved := false, arrived := false, consumed := false, vers1 := none, vers2 := none, deferred := deferred }

/-- Take the head of the XFR queue into the running transfers. -/
def xfrTake (x : Core) (r : XfrRun) : Core := let y := popHead x 4; { y with xfrs := y.xfrs ++ [r] }

/-- Ask for the version word of a versioned read; `n` is which reading (R159). -/
def askVersion (s : State) (c n : Nat) (d : QDesc) : State :=
  send s (xPeer d.bytes) (.readReq c d.id versRow n) (xKey d.bytes) (xAux d.bytes) (leBytes 4 8)

/-- The MU of a transfer's destination, which keeps its guard entry. -/
def xfrMu (b : List Byte) : Nat := xDst b % 0x1000000 / muBytes

/-- XFR_START (R268, R364, R156, R158): the transfer at the head of the queue starts: its address kinds are tested, a landing
is opened for the take's first RWRITE of its number, a guarded load takes an entry or is deferred, and requests are posted. -/
def execXfrStart (c : Nat) (s : State) : Out :=
  let x := core s c
  onUnit (coreOk c) s <|
    match readyHead x 4, takeOfCore s c with
    | some d, some t =>
      let b := d.bytes
      if ¬ engineLive s c ∨ xDir b = 4 then .next s
      else match kindFault x b with
        | some e => .next (accessFail s c e.2 e.1)
        | none =>
          if xDir b = 2 ∧ otherLanding t b = true then .next (remoteDenied s c b)
          else if 2 ≤ xDir b ∧ ¬ qpLive s (xPeer b) then .next (remoteTimeout s c b)
          else if xDir b = 2 then
            match boundTo t (xLanding b) with
            | some _ => .next (xfrPost tableSize (setCore s c (xfrTake x (xfrNew d false))) c d.id)
            | none =>
              when_ (landingRoom s (xPeer b) && !keyBusy s (xPeer b) (xKey b)) s
                (xfrPost tableSize (openLanding (setCore s c (xfrTake x (xfrNew d false))) c t b) c d.id)
          else if xDir b = 3 ∧ xVers b then .next (askVersion (setCore s c (xfrTake x (xfrNew d false))) c 0 d)
          else
            let lo := xSrc b + (if xCodec b then xAux b * frameSlot else 0)
            let len := if xCodec b then cdiv (xLen b) 65536 * frameSlot else (xRows b - 1) * xSpitch b + xLen b
            let g := if xGuard b then guardFor s c (xfrMu b) d (dAuxb b) 0 lo len else none
            let defer := xGuard b && g.isNone
            let y := xfrTake x (xfrNew d defer)
            let y := { y with guards := y.guards ++ (if xGuard b then [g.getD (deferredNote s c d (dAuxb b) 0)] else []) }
            .next (xfrPost tableSize (setCore s c y) c d.id)
    | _, _ => .next s

/-- XFR_SEAL (R364, R358): a SEAL of an open landing sends its control record; of a number with no open landing it completes at
once. A landing that its queue pair aborted before any seal ends the command while that queue pair is dead: DEDUCED (log 76). -/
def execXfrSeal (c : Nat) (s : State) : Out :=
  let x := core s c
  onUnit (coreOk c) s <|
    match readyHead x 4, takeOfCore s c with
    | some d, some t =>
      let b := d.bytes
      if ¬ engineLive s c ∨ xDir b ≠ 4 then .next s
      else if otherLanding t b then .next (remoteDenied s c b)
      else match landingNo s t (xLanding b), boundTo t (xLanding b) with
        | none, some l =>
          if ¬ l.done ∧ ¬ qpLive s l.peer then .next (endOfCore s c fun t => { landingLost t l.landing l.peer with lcore := lcoreNo x })
          else .next (arriveRef (setCore s c (popHead x 4)) c d.id b (dDone b))
        | none, none => .next (arriveRef (setCore s c (popHead x 4)) c d.id b (dDone b))
        | some l, _ =>
          if ¬ qpLive s l.peer then .next (endOfCore s c fun t => { landingLost t l.landing l.peer with lcore := lcoreNo x })
          else if l.sealing then .next s
          else
            let mark := fun (q : Landing) => { q with sealing := true }
            let s := setCore s c (xfrTake x { xfrNew d false with row := xRows b })
            let s := { s with net := { s.net with landings := updFirst (fun q => q = l) mark s.net.landings } }
            .next (sendControl s l 2)
    | _, _ => .next s

/-- XFR_COMPLETE (R244): transfer k of a core has its last byte in place or acknowledged, and a versioned read its second
reading; DONE is arrived on. -/
def execXfrComplete (c k : Nat) (s : State) : Out :=
  let x := core s c
  onUnit (coreOk c) s <|
    match x.xfrs[k]? with
    | none => .next s
    | some r =>
      when_ (engineLive s c && r.moved && (!xVers r.desc.bytes || r.vers2.isSome)) s
        (arriveOut (setCore s c { x with xfrs := x.xfrs.eraseIdx k }) c r.desc.id r.desc.bytes (dDone r.desc.bytes) (outRanges r.desc))

/-- VERSION_REREAD (R159): the consumer has released the buffer; the version word is read a second time. -/
def execVersionReread (c k : Nat) (s : State) : Out :=
  let x := core s c
  onUnit (coreOk c) s <|
    match x.xfrs[k]? with
    | none => .next s
    | some r =>
      let b := r.desc.bytes
      let out := (qp s (xPeer b)).sendq ++ (qp s (xPeer b)).held
      let asked := out.any fun m => decide (m.kind = .readReq c r.desc.id versRow 1)
      if ¬(engineLive s c ∧ xVers b ∧ r.moved ∧ r.consumed) ∨ r.vers2.isSome ∨ asked then .next s
      else if ¬ qpLive s (xPeer b) then .next (remoteTimeout s c b)
      else .next (askVersion s c 1 r.desc)

-- Stale notices and deferred reads (R157, R158)

/-- Read the data of a guard entry's prefetch again. -/
def reread (s : State) (c : Nat) (e : Guard) : Except (Failed × Bool) State :=
  let d := e.desc
  let b := d.bytes
  match e.dst with
  | some a => match readTake s c e.lo (fld b 28 4) with
    | (.done, v) => .ok (sramWrites s c a v)
    | (f, _) => .error ((f, e.lo), false)
  | none =>
    if dEng b = 4 then
      let step := if xCodec b then 65536 else 2048
      let pieces := (List.range (xRows b)).flatMap fun r => (List.range (cdiv (xLen b) step)).map fun i =>
        ({ xfr := true, id := d.id, row := r, off := i * step, len := min step (xLen b - i * step), no := 0 } : Req)
      pieces.foldl (fun a q => do
        let s ← a
        if xCodec b then loadFrame s b q else match movePiece s c b q with
          | .ok s => .ok s
          | .error e => .error (e, false)) (.ok s)
    else match readBytes s c d (e.read / rowReads d) (e.read % rowReads d * readElems b) with
      | .error f => .error (f, false)
      | .ok v => match findAg (core s c) d.id with
        | some g => if e.read < g.done then .ok (sramWrites s c (bufAddr d e.read) v)
            else .ok (modCore s c fun x => modAg x d.id fun h => { h with got := tput e.read v (tdel e.read h.got) })
        | none => .ok (sramWrites s c (bufAddr d e.read) v)

/-- Whether a prefetch's data were all in SRAM, so that a reissue arrives at once. -/
def wasIn (x : Core) (e : Guard) : Bool :=
  match findXfr x e.desc.id, findAg x e.desc.id with
  | some r, _ => r.moved
  | none, some g => decide (e.read < g.done)
  | none, none => true

/-- STALE_NOTICE (R157): entry g of an MU has been marked stale; the read is issued again, and the prefetch arrives again
with fresh data. A transfer still under way starts over; another prefetch is read again as a whole. -/
def execStaleNotice (c mu g : Nat) (s : State) : Out :=
  let x := core s c
  onUnit (coreOk c && muOk mu && g < 64) s <|
    match (x.guards.filter fun e => e.home = mu ∧ e.len ≠ 0)[g]? with
    | none => .next s
    | some e =>
      if ¬(engineLive s c ∧ e.stale) then .next s
      else
        let id := e.desc.id
        let s := bump s (muBase c mu + 0x30) 1
        let fresh := fun (s : State) => modCore s c fun x =>
          { x with guards := updFirst (fun q => q.desc.id = id ∧ q.read = e.read) (fun q => { q with stale := false }) x.guards }
        match findXfr x id with
        | some r =>
          if ¬ r.moved then
            let start := fun (x : Core) =>
              modXfr { x with reqs := x.reqs.filter fun q => ¬(q.xfr ∧ q.id = id),
                              guards := updFirst (fun q => q.desc.id = id) (fun q => { q with seen := [] }) x.guards } id
                fun r => { r with row := 0, off := 0 }
            .next (xfrPost tableSize (modCore (fresh s) c start) c id)
          else match reread s c e with
            | .ok t => .next (prefetchIn (fresh t) c id e.read e.desc.bytes)
            | .error (f, true) => .next (frameFail s c f.2)
            | .error (f, false) => .next (accessFail s c f.1 f.2)
        | none => match reread s c e with
          | .ok t =>
            let t := fresh t
            .next (if wasIn x e then prefetchIn t c id e.read e.desc.bytes else t)
          | .error (f, true) => .next (frameFail s c f.2)
          | .error (f, false) => .next (accessFail s c f.1 f.2)

/-- Whether a descriptor of core `d` names counter `ctr` of MU `mu` of core `c` as its consume barrier (R243). -/
def consumesAt (s : State) (c mu ctr d : Nat) (b : List Byte) : Bool :=
  let r := dAuxb b
  decide (r.n ≠ 0 ∧ r.mu = mu ∧ r.ctr = ctr ∧ refCore s d r = some c)

/-- The deferred prefetches of a core that owe arrivals on a consume barrier: issue number, n, and how many such arrivals, one of a transfer, one
of each read of a program that has not been issued. -/
def deferredOn (s : State) (c mu ctr d : Nat) : List (Nat × Nat × Nat) :=
  let x := core s d
  let on := fun (b : List Byte) => consumesAt s c mu ctr d b
  ((x.xfrs.filter fun r => r.deferred && on r.desc.bytes).map fun r => (r.desc.id, (dAuxb r.desc.bytes).n, 1)) ++
    (x.ags.filter fun a => a.deferred && on a.desc.bytes).map fun a =>
      (a.desc.id, (dAuxb a.desc.bytes).n, agReads a.desc - a.sent.foldl (· + ·) 0)

/-- Arrivals on a consume barrier that deferred prefetches still owe. -/
def deferredOwed (s : State) (c mu ctr : Nat) : Nat :=
  ((s.cores.map (·.1)).flatMap fun d => (deferredOn s c mu ctr d).map fun e => e.2.1 * e.2.2).foldl (· + ·) 0

/-- Whether core `d` has a prefetch of a consume barrier on its way that is not deferred: its arrival comes without any release. -/
def prefetchComing (s : State) (c mu ctr d : Nat) : Bool :=
  let x := core s d
  (x.guards.any fun g => decide (g.bar = c ∧ g.mu = mu ∧ g.ctr = ctr) && !g.arrived &&
      (match findXfr x g.desc.id with | some r => !r.deferred | none => true)) ||
    (x.xfrs.any fun r => xVers r.desc.bytes && !r.arrived && consumesAt s c mu ctr d r.desc.bytes) ||
    x.ags.any fun a => agGuard a.desc.bytes && !a.deferred && decide (a.sent.foldl (· + ·) 0 < agReads a.desc) &&
      consumesAt s c mu ctr d a.desc.bytes

/-- The oldest deferred prefetch of a consume barrier, by core number and then issue number, with its n; the order among cores is the
model's choice (log 74). -/
def oldestDeferred (s : State) (c mu ctr : Nat) : Option (Nat × Nat × Nat) :=
  (s.cores.map (·.1)).findSome? fun d =>
    let l := deferredOn s c mu ctr d
    (l.find? fun e => l.all fun f => decide (e.1 ≤ f.1)).map fun e => (d, e.1, e.2.1)

/-- A deferred prefetch issues its read without an entry: a transfer, or the next read of a program. -/
def releaseOne (s : State) (c id : Nat) : State :=
  match findXfr (core s c) id with
  | some _ => xfrPost tableSize (modCore s c fun x => modXfr x id fun r => { r with deferred := false }) c id
  | none =>
    let s := modCore s c fun x => modAg x id fun h => { h with deferred := false }
    match findAg (core s c) id with
    | none => s
    | some g => match (List.range (agThreads g.desc.bytes)).findSome? fun t => (readyRead s c g t).map fun r => (t, r) with
      | some (t, r) => agPostAll (takeRead s c g t r true) c
      | none => s

/-- The oldest deferred prefetches of a consume barrier issue their reads, as many as the wait still needs (R158). -/
def releaseDeferred : Nat → State → Nat → Nat → Nat → Nat → State
  | 0, s, _, _, _, _ => s
  | k + 1, s, c, mu, ctr, need =>
    if need = 0 then s
    else match oldestDeferred s c mu ctr with
      | none => s
      | some (d, id, n) => releaseDeferred k (releaseOne s d id) c mu ctr (need - n)

/-- BARRIER_WAIT_SATISFY (R131): the head waiter finds COUNT at least n, n is subtracted, and it goes on. A head that nothing but
deferred prefetches keeps waiting lets them issue the reads that it needs (R158). -/
def execBarrierWaitSatisfy (c mu ctr : Nat) (s : State) : Out :=
  let x := core s c
  let b := barOf x mu ctr
  onUnit (coreOk c && muOk mu && ctrOk ctr) s <|
    match b.waiters with
    | [] => .next s
    | w :: t =>
      if ¬ fast s ∨ x.fenced then .next s
      else if w.n ≤ b.count then
        let s := consume (setCore s c (withBar x mu ctr { b with count := b.count - w.n, waiters := t })) c mu ctr w.n
        .next (modCore s c fun x => joinHeads (satisfied x w.who))
      else
        when_ (decide (w.n ≤ b.count + deferredOwed s c mu ctr) && !(s.cores.any fun e => prefetchComing s c mu ctr e.1)) s
          (releaseDeferred w.n s c mu ctr (w.n - b.count))

end Sys2Proof.Machine
end

