-- ==== Sys2Proof/Machine/Fabric.lean ====
section
/-! DEFINITION. The crossing fabric (R134 to R141): routes, circuits, the packet lane and the timetable switch; steering units
(R142 to R147) and multicast groups (R148 to R151). -/
namespace Sys2Proof.Machine

open Sys2Proof

-- Routes (R134, R140, R285)

/-- Row of a C-die on the interposer, 0 north. -/
def dieRow (d : Nat) : Nat := if d < 4 then 0 else 1
/-- Column of a C-die. -/
def dieCol (d : Nat) : Nat := if d < 4 then d else 7 - d
/-- The C-die at a place. -/
def dieAt (r c : Nat) : Nat := if r = 0 then c else 7 - c

/-- The die across a side, 0 north, 1 south, 2 east, 3 west; H-dies are 8 (west end) and 9 (east end). -/
def dieAcross (d side : Nat) : Option Nat :=
  match side with
  | 0 => if dieRow d = 1 then some (dieAt 0 (dieCol d)) else none
  | 1 => if dieRow d = 0 then some (dieAt 1 (dieCol d)) else none
  | 2 => if dieCol d = 3 then some 9 else some (dieAt (dieRow d) (dieCol d + 1))
  | _ => if dieCol d = 0 then some 8 else some (dieAt (dieRow d) (dieCol d - 1))

/-- The C-die across a working link. -/
def dieNeighbour (s : State) (d side : Nat) : Option Nat :=
  if (d, side) ∈ s.fab.deadLinks then none else (dieAcross d side).filter (· < 8)

/-- Whether a C-die can be reached with at most n crossings of working links. -/
def dieReach (s : State) : Nat → Nat → Nat → Bool
  | 0, a, b => a = b
  | n + 1, a, b => a = b || [0, 1, 2, 3].any fun k => match dieNeighbour s a k with | some d => dieReach s n d b | none => false

/-- The fewest crossings between two C-dies over working links, 9 when there is no path. -/
def dieDist (s : State) (a b : Nat) : Nat := ((List.range 9).find? fun n => dieReach s n a b).getD 9

/-- The side by which a fewest-crossings path leaves a die, by column first or by row first. -/
def exitSide (s : State) (colFirst : Bool) (a b : Nat) : Option Nat :=
  let n := dieDist s a b
  (if colFirst then [2, 3, 0, 1] else [0, 1, 2, 3]).find? fun k =>
    match dieNeighbour s a k with | some d => dieReach s (n - 1) d b && decide (n ≠ 0 ∧ n ≠ 9) | none => false

/-- Physical core at row and column of a die's mesh. -/
def meshCore (d row col : Nat) : Nat := 26 * d + row + 13 * col

/-- The router after `a` on the way to `b`, with the port it leaves by (0 north, 1 south, 2 east, 3 west): on a die column
first, then row (R140); between dies over the facing column or row. DEDUCED: row 12 of a north die faces row 0 of the south
die below it (log 20). -/
def nextHop (s : State) (colFirst : Bool) (a b : Nat) : Option (Nat × Nat) :=
  let d := a / 26
  let row := a % 26 % 13
  let col := a % 26 / 13
  let goRow := fun (r : Nat) => if row < r then some (1, meshCore d (row + 1) col) else some (0, meshCore d (row - 1) col)
  if d = b / 26 then
    if col ≠ b % 26 / 13 then some (if col = 0 then 2 else 3, meshCore d row (1 - col))
    else if row ≠ b % 26 % 13 then goRow (b % 26 % 13)
    else none
  else match exitSide s colFirst d (b / 26) with
    | none => none
    | some k => match dieNeighbour s d k with
      | none => none
      | some e =>
        if k = 2 then some (2, if col = 0 then meshCore d row 1 else meshCore e row 0)
        else if k = 3 then some (3, if col = 1 then meshCore d row 0 else meshCore e row 1)
        else if col ≠ b % 26 / 13 then some (if col = 0 then 2 else 3, meshCore d row (1 - col))
        else if k = 1 then (if row = 12 then some (1, meshCore e 0 col) else goRow 12)
        else (if row = 0 then some (0, meshCore e 12 col) else goRow 0)

-- Slots of the links (R134, R136, R137)

/-- A direction of a link: a router's outgoing port (0 north, 1 south, 2 east, 3 west, 4 local), a hub's link into a router of the column
that faces it, and the eight links of each HBM controller's stack, out of it and into it. -/
inductive LinkDir where
  | port (router port : Nat)
  | fromHub (router : Nat)
  | fromHbm (stack link : Nat)
  | toHbm (stack link : Nat)
deriving DecidableEq, Repr

/-- The kinds of R136; a circuit's slot names its owner. -/
inductive SlotKind where
  | idle
  | circuit (owner : Nat)
  | packet
  | management
  | calibration
deriving DecidableEq, Repr

/-- Whether a router's outward port faces a hub die (R134). -/
def facesHub (router port : Nat) : Bool :=
  let col := router % 26 / 13
  ((port = 2 && col = 1) || (port = 3 && col = 0)) && match dieAcross (router / 26) port with | some d => decide (8 ≤ d) | none => false

/-- Whether a link direction exists (R134): routers of the mesh drive ports that lead somewhere. -/
def LinkDir.exists_ : LinkDir → Bool
  | .port r p =>
    decide (r < 208 ∧ p ≤ 4) && match p with
    | 0 => decide (r % 13 ≠ 0) || (dieAcross (r / 26) 0).isSome
    | 1 => decide (r % 13 ≠ 12) || (dieAcross (r / 26) 1).isSome
    | _ => true
  | .fromHub r => decide (r < 208) && (facesHub r 2 || facesHub r 3)
  | .fromHbm k i | .toHbm k i => decide (k < 16 ∧ i < 8)

/-- Whether a link direction enters or leaves an HBM controller or a hub die (R137). -/
def LinkDir.calibrates : LinkDir → Bool
  | .port r p => facesHub r p
  | _ => true

/-- Slots that R137 reserves: slot 0, and slot L/2 of a link of an HBM controller or a hub. -/
def reservedSlot (calibrates : Bool) (len i : Nat) : Bool := decide (i = 0) || (calibrates && decide (2 * i = len))

/-- The kind of a slot of a link direction in the active bank (R136, R137, R286): a circuit's, else a packet slot once the loader has
filled the bank. -/
def slotKind (s : State) (l : LinkDir) (i : Nat) : SlotKind :=
  let len := if s.fab.activeB then s.fab.lenB else s.fab.lenA
  let bank := if s.fab.activeB then s.fab.bankB else s.fab.bankA
  if i = 0 then .management
  else if reservedSlot l.calibrates len i then .calibration
  else if ¬ (if s.fab.activeB then s.fab.setB else s.fab.setA) then .idle
  else match l with
    | .port r p => let o := tget 0 bank (64 * (5 * r + p) + i); if o = 0 then .packet else .circuit o
    | _ => .packet

/-- Whether a link direction has a packet slot in the active timetable. -/
def hasPacketSlot (s : State) (l : LinkDir) : Bool :=
  (List.range (if s.fab.activeB then s.fab.lenB else s.fab.lenA)).any fun i => decide (slotKind s l i = .packet)

/-- PACKET_FLIT (R140): flit k is forwarded one hop in a packet slot of the link; at its router's local port its arrival goes to its counter.
Of several paths of the fewest crossings between dies, the fixed one leaves by column first: DESIGN CHOICE (log 37). -/
def execPacketFlit (k : Nat) (s : State) : Out :=
  match s.fab.flits[k]? with
  | none => .next s
  | some f =>
    let rest := s.fab.flits.eraseIdx k
    if ¬ fast s then .next s
    else if f.at_ = f.dst then
      when_ (hasPacketSlot s (.port f.at_ 4)) s { s with fab := { s.fab with flits := rest, arrivals := s.fab.arrivals ++ [f.arrival] } }
    else match nextHop s true f.at_ f.dst with
      | none => .next s
      | some (p, r) => when_ (hasPacketSlot s (.port f.at_ p)) s { s with fab := { s.fab with flits := s.fab.flits.set k { f with at_ := r } } }

/-- The entries of a placement in a bank. -/
def slotEntries (bank : Tab Nat) (slot : Nat) : Tab Nat := bank.filter fun e => (e.2 - 1) / 4096 = slot

/-- Whether the switch that is pending, if any, leaves a placement as it is: neither its slots nor L change (R141). -/
def bankSettled (s : State) (slot : Nat) : Bool :=
  !s.fab.pending || (decide (s.fab.lenA = s.fab.lenB) && decide (slotEntries s.fab.bankA slot = slotEntries s.fab.bankB slot))

/-- TIMETABLE_SWITCH (R141): the inactive bank becomes active at a timetable boundary. It keeps the slots of every running take: a take
of a placement that it changes starts behind it (TAKE_START). -/
def execTimetableSwitch (s : State) : Out :=
  when_ (fast s && s.fab.pending && s.intake.takes.all fun t => bankSettled s t.slot) s
    { s with fab := { s.fab with activeB := !s.fab.activeB, pending := false } }

-- Circuits (R138, R139, R143, R280)

/-- The ROUTE record of a circuit of an image. -/
def routeOf (img : List Byte) (circuit : Nat) : Option (List Byte) :=
  ((imgRecs img 0x09 16).map fun o => slice img o 16).find? fun r => fld r 0 2 = circuit

/-- Whether the active bank gives a circuit a slot. -/
def hasSlot (s : State) (slot circuit : Nat) : Bool :=
  (if s.fab.activeB then s.fab.bankB else s.fab.bankA).any fun e => e.2 = 1 + 4096 * slot + circuit

/-- A steering unit of a core. -/
def stuOf (x : Core) (k : Nat) : Stu := tget {} x.stus k

/-- A core with a steering unit replaced. -/
def withStu (x : Core) (k : Nat) (u : Stu) : Core := { x with stus := tset {} x.stus k u }

/-- CTRL circuit of a steering descriptor. -/
def sCtrl (b : List Byte) : Nat := fld b 18 2
/-- IN[j]. -/
def sIn (b : List Byte) (j : Nat) : Nat := fld b (20 + 2 * j) 2
/-- OUT[j]. -/
def sOut (b : List Byte) (j : Nat) : Nat := fld b (28 + 2 * j) 2
/-- OP of a steering descriptor. -/
def sOp (b : List Byte) : Nat := bits (fld b 17 1) 3 0

/-- Hand a circuit's item to the reel of an AG that its tag names (R154, R155): none when the reel holds it back, because it is of the
generation behind the markers. A marker of the reel's generation ends the circuit as an input of it. -/
def handReel (circuit : Nat) (q : Item) (k : Nat) (x : Core) : Option Core :=
  let r := tget {} x.agReels k
  if r.conf.isNone then some x
  else if r.gen ≠ q.gen then none
  else
    let add := fun (l : List Nat) => if circuit ∈ l then l else l ++ [circuit]
    some { x with agReels := tput k (if q.mark then { r with feeds := add r.feeds, ended := add r.ended } else { r with feeds := add r.feeds }) x.agReels }

/-- Deliver a circuit's item at a core: to the control queue or a data queue of a steering unit that names the circuit, else to the reels
of the receiving MU and, unless it is a marker, to its SRAM. A full queue refuses it (R145). -/
def deliverItem (s : State) (c mu circuit off : Nat) (q : Item) : Option State :=
  let x := core s c
  let used := (List.range 4).filter fun k => (stuOf x k).held
  match used.find? fun k => sCtrl (stuOf x k).desc = circuit with
  | some k =>
    let u := stuOf x k
    if u.cq.length < 16 then some (setCore s c (withStu x k { u with cq := u.cq ++ [BitVec.ofNat 32 (fld q.data 0 4)] })) else none
  | none =>
    match used.findSome? fun k => ((List.range 4).find? fun j => sIn (stuOf x k).desc j = circuit).map fun j => (k, j) with
    | some (k, j) =>
      let u := stuOf x k
      if (tget [] u.dq j).length < 64 then some (setCore s c (withStu x k { u with dq := tset [] u.dq j (tget [] u.dq j ++ [q]) })) else none
    | none =>
      ((handReel circuit q (agReelKey mu 0 q.reel) x).bind (handReel circuit q (agReelKey mu 1 q.reel))).map fun y =>
        let s := setCore s c y
        if q.mark then s else sramWrites s c (mu * muBytes + off / 64 * 64 % muBytes) (slice q.data 0 64)

/-- Whether the tags of a word that an MU sends are those of its reel (R154, R155): the generation of the reel in one of the MU's AGs,
and a marker when, and only when, the last item of that generation has gone. -/
def tagsOk (x : Core) (mu reel : Nat) (gen mark : Bool) : Bool :=
  [0, 1].any fun ag => let r := tget {} x.agReels (agReelKey mu ag reel); r.gen == gen && r.marked == mark

/-- Whether what waits first on a circuit may go: an item of a steering unit, or an arrival whose words have all gone (R133). -/
def frontGoes (q : List Item) : Bool := match q with | e :: _ => e.arr.isNone || e.after.isEmpty | [] => false

/-- Word `w` of the sending MU has gone on a circuit: arrivals that wait for it no longer do (R133). -/
def wordWent (s : State) (key w : Nat) (d : List Byte) : State :=
  let gone := fun (e : Item) => { e with after := e.after.filter fun v => decide (v ≠ w) }
  { s with fab := { s.fab with
    sent := tput (65536 * key + w) d s.fab.sent, circ := tset [] s.fab.circ key ((tget [] s.fab.circ key).map gone) } }

/-- CIRCUIT_WORD (R139, R143 to R145, R154): a word of a circuit of a placed image is sent in its slot and delivered: the head item that
a steering unit put on the circuit, or an arrival whose words have gone before it (R133), or 64 B of the sending MU with the side
bits of its reel. A receiving queue that is full holds the sender back before the slot. -/
def execCircuitWord (slot circuit srcOff dstOff reel : Nat) (gen mark : Bool) (s : State) : Out :=
  let img := (slotOf s slot).img
  onUnit (slotOk slot && reelOk reel) s <|
    match routeOf img circuit with
    | none => .next s
    | some r =>
      match coreAtIndex s slot (fld r 2 1) with
      | none => .next s
      | some src =>
        let mu := bits (fld r 3 1) 1 0
        let key := 4096 * slot + circuit
        let waiting := tget [] s.fab.circ key
        let own : Item := { data := sramReads s src (mu * muBytes + srcOff / 64 * 64 % muBytes) 64, reel := reel, gen := gen, mark := mark }
        let front := frontGoes waiting
        let q := if front then waiting.headD own else own
        if ¬ engineLive s src ∨ ¬ hasSlot s slot circuit ∨ (!front && !tagsOk (core s src) mu reel gen mark) then .next s
        else
          let t := if front then { s with fab := { s.fab with circ := tset [] s.fab.circ key waiting.tail } }
            else wordWent s key (srcOff / 64 % 65536) own.data
          match q.arr with
          | some a => .next { t with fab := { t.fab with arrivals := t.fab.arrivals ++ [a] } }
          | none =>
            let go := (receiversOf img r).foldl (fun (a : Option State) e => match a, coreAtIndex s slot e.1 with
              | some s, some c => deliverItem s c e.2 circuit dstOff q
              | _, _ => none) (some t)
            match go with
            | some t => .next t
            | none => .next s

-- Steering units (R142 to R147, R270)

/-- STEER_APPLY (R270): the first op of a take is in force at once; a later one waits for the drain markers. -/
def execSteerApply (c k : Nat) (s : State) : Out :=
  let x := core s c
  onUnit (coreOk c && stuOk k) s <|
    match readyHead x (16 + k) with
    | none => .next s
    | some d =>
      let u := stuOf x k
      if ¬ engineLive s c then .next s
      else if ¬ u.held then
        .next (arriveRef (setCore s c (withStu (popHead x (16 + k)) k { u with desc := d.bytes, held := true })) c d.id d.bytes (dDone d.bytes))
      else when_ u.next.isNone s (setCore s c (withStu (popHead x (16 + k)) k { u with next := some d }))

/-- The input that the head token selects. -/
def stuInput (u : Stu) (tok : W32) : Nat := if sOp u.desc = 1 then tok.toNat % 4 else 0

/-- The pair at the heads of an STU: the token and the item, when neither is a marker. -/
def stuPair? (u : Stu) : Option (W32 × Item) :=
  match u.cq with
  | tok :: _ =>
    if tok.msb then none
    else match tget [] u.dq (stuInput u tok) with
      | q :: _ => if q.mark then none else some (tok, q)
      | [] => none
  | [] => none

/-- Put an item on a circuit of a core's image; 0xFFFF is no circuit. -/
def emitItem (s : State) (c circuit : Nat) (q : Item) : State :=
  match (core s c).place with
  | some p =>
    if circuit = 0xFFFF then s
    else
      let key := 4096 * p.slot + circuit
      { s with fab := { s.fab with circ := tset [] s.fab.circ key (tget [] s.fab.circ key ++ [q]) } }
  | none => s

/-- Whether an output of an STU is free: the item that it emitted last has left in its circuit's slot, which waits for the receiver's space
(R139, R145). One item per output may wait: DESIGN CHOICE (log 42). -/
def outFree (s : State) (c circuit : Nat) : Bool :=
  match (core s c).place with
  | some p => decide (circuit = 0xFFFF) || (tget [] s.fab.circ (4096 * p.slot + circuit)).all fun q => q.arr.isSome
  | none => true

/-- The output that the head token of an STU sends its item to, 0xFFFF for a FILTER's discard. -/
def stuOutput (u : Stu) (tok : W32) : Nat :=
  match sOp u.desc with
  | 0 => sOut u.desc (tok.toNat % 4)
  | 1 => sOut u.desc 0
  | _ => if tok.toNat % 2 = 1 then sOut u.desc 0 else 0xFFFF

/-- STU_PAIR (R144, R145, R147): the head token takes one item of its input: SWITCH sends it to output SEL, MERGE to output 0, FILTER to
output 0 or nowhere. After COUNT + 1 items the token is used up. An emission ends a stall's episode; a discard is none. -/
def execStuPair (c k : Nat) (s : State) : Out :=
  let x := core s c
  onUnit (coreOk c && stuOk k) s <|
    let u := stuOf x k
    match stuPair? u with
    | none => .next s
    | some (tok, q) =>
      let out := stuOutput u tok
      if ¬ engineLive s c ∨ ¬ u.held ∨ ¬ outFree s c out then .next s
      else
        let j := stuInput u tok
        let left := (if u.left = 0 then bits tok.toNat 15 8 + 1 else u.left) - 1
        let u' := { u with dq := tset [] u.dq j (tget [] u.dq j).tail, left := left, cq := if left = 0 then u.cq.tail else u.cq,
                           episode := u.episode && decide (out = 0xFFFF) }
        .next (emitItem (setCore s c (withStu x k u')) c out q)

/-- The data inputs an STU uses. -/
def stuInputs (u : Stu) : List Nat := (List.range (if sOp u.desc = 1 then 4 else 1)).filter fun j => sIn u.desc j ≠ 0xFFFF

/-- The generation whose markers stand at every head of an STU, if there is one. -/
def stuMarkers (u : Stu) : Option Bool :=
  match u.cq with
  | tok :: _ =>
    let g := tok.getLsbD 30
    if tok.msb ∧ (stuInputs u).all (fun j => match tget [] u.dq j with | q :: _ => q.mark && q.gen == g | [] => false) then some g
    else none
  | [] => none

/-- STU_DRAIN_MARKER (R146, R270): with markers of one generation at every head, the STU emits one on every output, drops
them, and takes the op that waits. -/
def execStuDrainMarker (c k : Nat) (s : State) : Out :=
  let x := core s c
  onUnit (coreOk c && stuOk k) s <|
    let u := stuOf x k
    match stuMarkers u with
    | none => .next s
    | some g =>
      if ¬ engineLive s c ∨ ¬ u.held ∨ ¬ (List.range 4).all fun j => outFree s c (sOut u.desc j) then .next s
      else
        let tok := u.cq.headD 0
        let m : Item := { data := leBytes 4 tok.toNat ++ zeros 60, reel := bits tok.toNat 29 27, gen := g, mark := true }
        let u' := { u with cq := u.cq.tail, dq := (stuInputs u).foldl (fun q j => tset [] q j (tget [] q j).tail) u.dq, episode := false, left := 0 }
        let u' := match u.next with
          | some d => { u' with desc := d.bytes, next := none, gen := !u.gen }
          | none => u'
        let s := setCore s c (withStu x k u')
        let s := (List.range 4).foldl (fun s j => emitItem s c (sOut u.desc j) m) s
        .next (match u.next with | some d => arriveRef s c d.id d.bytes (dDone d.bytes) | none => s)

/-- STEER_STALL (R147): the watchdog of an STU that holds an unpaired head expires; the episode is reported once. -/
def execSteerStall (c k : Nat) (s : State) : Out :=
  let x := core s c
  onUnit (coreOk c && stuOk k) s <|
    let u := stuOf x k
    let waits := !u.cq.isEmpty || u.dq.any fun e => !e.2.isEmpty
    match takeOfCore s c with
    | none => .next s
    | some t =>
      when_ (engineLive s c && u.held && waits && (stuPair? u).isNone && (stuMarkers u).isNone && !u.episode) s
        (interim (setCore s c (withStu x k { u with stalled := true, episode := true })) t.stream t.seq
          { status := 0x12, lcore := lcoreNo x, detail := k })

-- Multicast (R148 to R151, R269, R274)

/-- A receiver of a group: core index, MU, ring, slot bytes, depth, credit and full counters. -/
structure Recv where
  idx : Nat
  mu : Nat
  ring : Nat
  slot : Nat
  depth : Nat
  credit : Nat
  full : Nat
deriving DecidableEq, Repr

/-- The receivers of a group, in record order. -/
def groupRecvs (img : List Byte) (g : Nat) : List Recv :=
  ((imgRecs img 0x0A 32).filter fun o => fld img o 1 = g).map fun o =>
    { idx := fld img (o + 2) 1, mu := bits (fld img (o + 3) 1) 3 2, ring := bits (fld img (o + 4) 4) 23 0,
      slot := fld img (o + 8) 4, depth := fld img (o + 12) 1, credit := bits (fld img (o + 13) 1) 5 0, full := bits (fld img (o + 14) 1) 5 0 }

/-- The core of a receiver. -/
def recvCore (s : State) (c : Nat) (r : Recv) : Option Nat := (core s c).place.bind fun p => coreAtIndex s p.slot r.idx

/-- Whether a receiver has space: its credit counter can give 1. -/
def recvSpace (s : State) (c : Nat) (r : Recv) : Bool :=
  match recvCore s c r with | some d => decide (1 ≤ (barOf (core s d) r.mu r.credit).count) | none => false

/-- A tile lands at a receiver: one credit is taken, the slot is written, and FULL is arrived on. -/
def landTile (s : State) (c id : Nat) (r : Recv) (t : Nat) (d : List Byte) : State :=
  match recvCore s c r with
  | none => s
  | some e =>
    let s := modCore s e fun x => withBar x r.mu r.credit { barOf x r.mu r.credit with count := (barOf x r.mu r.credit).count - 1 }
    let s := sramWrites s e (r.ring + t % r.depth * r.slot) d
    { s with fab := { s.fab with arrivals := s.fab.arrivals ++ [{ src := c, id := id, csq := none, dst := e, mu := r.mu, ctr := r.full, n := 1 }] } }

/-- NTILES, TILE_LEN and DETACH. -/
def cTiles (b : List Byte) : Nat := fld b 32 4
/-- TILE_LEN. -/
def cLen (b : List Byte) : Nat := fld b 28 4
/-- DETACH. -/
def cDetach (b : List Byte) : Nat := bits (fld b 17 1) 3 0
/-- The place of tile t in the hold; which place a held tile takes is the model's choice (log 21). -/
def holdAddr (b : List Byte) (t : Nat) : Nat := bits (fld b 40 4) 23 0 + t % cDetach b * cLen b
/-- The source address of tile t. -/
def tileAddr (b : List Byte) (t : Nat) : Nat := fld b 20 8 + t * fld b 36 4

/-- Whether words of a group can be sent: its circuit has slots (R139, R148). -/
def groupSlots (s : State) (c g : Nat) : Bool :=
  match (core s c).place, groupCircuit (imgOf s c) g with
  | some p, some k => hasSlot s p.slot k
  | _, _ => false

/-- The issue number under which the guard entries of a detached receiver stand: apart from the receiver's own. -/
def detachId (c id : Nat) : Nat := (c + 1) * 2 ^ 64 + id

/-- Whether the consumer of a receiver's FULL would be satisfied by one more arrival (R158). -/
def waitsForOne (x : Core) (mu ctr : Nat) : Bool :=
  match (barOf x mu ctr).waiters with
  | w :: _ => decide ((barOf x mu ctr).count < w.n ∧ w.n ≤ (barOf x mu ctr).count + 1)
  | [] => false

/-- A detached receiver fetches tile t from the source range as a guarded prefetch (R150, R156): an entry of its MU watches the range from
this step on, or, without a free one, the fetch is deferred to its consumer's wait (R158). -/
def fetchDetached (s : State) (c : Nat) (m : Mcast) (r : Recv) (t : Nat) : Except Failed (State × Bool) :=
  let b := m.desc.bytes
  match recvCore s c r with
  | none => .ok (s, false)
  | some e =>
    let d := { m.desc with id := detachId c m.desc.id }
    let ref : BRef := { core := 0xFF, mu := r.mu, ctr := r.full, n := 1 }
    let entry := (guardFor s e r.mu d ref t (tileAddr b t) (cLen b)).map fun g =>
      { g with seen := [(tileAddr b t, cLen b)], dst := some (r.ring + t % r.depth * r.slot) }
    match (match entry with | some g => some g | none => if waitsForOne (core s e) r.mu r.full then some (deferredNote s e d ref t) else none) with
    | none => .ok (s, false)
    | some g => match readTake s e (tileAddr b t) (cLen b) with
      | (.done, v) =>
        let s := modCore (wakeAt s (tileAddr b t)) e fun x =>
          let x := withBar x r.mu r.credit { barOf x r.mu r.credit with count := (barOf x r.mu r.credit).count - 1 }
          { x with guards := x.guards ++ [g] }
        .ok (prefetchIn (sramWrites s e (r.ring + t % r.depth * r.slot) v) e d.id t b, true)
      | (f, _) => .error (f, tileAddr b t)

/-- Held tiles go out in order over the group's circuit, and detached receivers fetch their next tile, as space frees (R150). -/
def serveLagging (c : Nat) (rs : List Recv) (m : Mcast) (s : State) : Except Failed (State × Mcast) :=
  let b := m.desc.bytes
  rs.zipIdx.foldl (fun a e => do
    let (s, m) ← a
    match tget [] m.held e.2 with
    | [] => .ok (s, m)
    | t :: more =>
      if ¬ recvSpace s c e.1 ∨ cTiles b ≤ t then .ok (s, m)
      else if e.2 ∈ m.detached then do
        let (s, went) ← fetchDetached s c m e.1 t
        .ok (s, if went then { m with held := tset [] m.held e.2 [t + 1] } else m)
      else if ¬ groupSlots s c (bits (fld b 16 1) 5 0) then .ok (s, m)
      else .ok (landTile s c m.desc.id e.1 t (sramReads s c (holdAddr b t) (cLen b)), { m with held := tset [] m.held e.2 more }))
    (.ok (s, m))

/-- Whether a tile's source lies in HBM3E or LPDDR5X (R269). -/
def tileInMemory (b : List Byte) (t : Nat) : Bool := (ctlOf (tileAddr b t)).isSome && (ctlOf (tileAddr b t + cLen b - 1)).isSome

/-- The next tile goes to every attached receiver: at once where there is space and nothing is held, else into the hold, and
the receiver that would need one held tile too many is detached (R149, R150). -/
def sendTile (c : Nat) (rs : List Recv) (m : Mcast) (s : State) : Except Failed (State × Mcast) :=
  let b := m.desc.bytes
  let t := m.tile
  if cTiles b ≤ t ∨ (cDetach b = 0 ∧ rs.any fun r => !recvSpace s c r) ∨ ¬ groupSlots s c (bits (fld b 16 1) 5 0) then .ok (s, m)
  else if ¬ tileInMemory b t then .error (.unmapped, tileAddr b t)
  else match readTake s c (tileAddr b t) (cLen b) with
    | (.done, d) =>
      let s := wakeAt s (tileAddr b t)
      let r := rs.zipIdx.foldl (fun (a : State × Mcast) e =>
        let held := tget [] a.2.held e.2
        if e.2 ∈ a.2.detached then a
        else if held = [] ∧ recvSpace a.1 c e.1 then (landTile a.1 c m.desc.id e.1 t d, a.2)
        else if held.length < cDetach b then
          (sramWrites a.1 c (holdAddr b t) d, { a.2 with held := tset [] a.2.held e.2 (held ++ [t]) })
        else
          let s := match recvCore a.1 c e.1 with | some q => bump a.1 (muBase q e.1.mu + 0x38) 1 | none => a.1
          (s, { a.2 with detached := a.2.detached ++ [e.2], held := tset [] a.2.held e.2 [held.headD t] })) (s, m)
      .ok (r.1, { r.2 with tile := t + 1 })
    | (f, _) => .error (f, tileAddr b t)

/-- Whether the last tile is in every attached receiver (R244). -/
def sentAll (rs : List Recv) (m : Mcast) : Bool :=
  decide (cTiles m.desc.bytes ≤ m.tile) && (List.range rs.length).all fun i => decide (i ∈ m.detached) || (tget [] m.held i).isEmpty

/-- Whether the detached receivers have every tile too. -/
def fetchedAll (m : Mcast) : Bool := m.detached.all fun i => decide (cTiles m.desc.bytes ≤ (tget [] m.held i).headD 0)

/-- MCAST_TILE_SEND (R148 to R151): the running group, or the descriptor at the head of the queue, serves the receivers that
lag and sends its next tile. -/
def execMcastTileSend (c : Nat) (s : State) : Out :=
  let x := core s c
  onUnit (coreOk c) s <|
    let start : Option (Mcast × Core) := match x.mcasts with
      | m :: _ => some (m, x)
      | [] => (readyHead x 5).map fun d => ({ desc := d, tile := 0, held := [], detached := [], done := false }, popHead x 5)
    match start with
    | none => .next s
    | some (m, y) =>
      if ¬ engineLive s c then .next s
      else
        let b := m.desc.bytes
        let rs := groupRecvs (imgOf s c) (bits (fld b 16 1) 5 0)
        match (match serveLagging c rs m (setCore s c y) with
          | .ok r => sendTile c rs r.2 r.1
          | .error f => .error f) with
        | .error f => .next (accessFail s c f.1 f.2)
        | .ok (t, n) =>
          let fin := sentAll rs n
          let t := if fin ∧ ¬ n.done then arriveRef t c n.desc.id b (dDone b) else t
          .next (modCore t c fun x => { x with mcasts := if fin ∧ fetchedAll n then [] else [{ n with done := n.done || fin }] })

end Sys2Proof.Machine
end

