-- ==== Sys2Proof/Machine/Cen.lean ====
section
/-! DEFINITION. The collective engines: runs and owners (R373, R376), contributions and tallies (R379 to R389), closing
(R388, R393), and the messages of a step (R382, R390). -/
namespace Sys2Proof.Machine

open Sys2Proof

-- Owners (R376)

/-- Insert into an ascending list. -/
def insertAsc (x : Nat) : List Nat → List Nat
  | [] => [x]
  | y :: t => if x ≤ y then x :: y :: t else y :: insertAsc x t

/-- A list in ascending order. -/
def sortAsc (l : List Nat) : List Nat := l.foldr insertAsc []

/-- Device IDs of a step's members, this device's own included, ascending: a device's rank is its place. -/
def StepSt.devs (x : StepSt) : List Nat := insertAsc x.self (x.members.map (· / 4096))

/-- Peer entry of another member. -/
def StepSt.entryOf (x : StepSt) (dev : Nat) : Nat := (((x.members.find? fun m => m / 4096 = dev).getD 0) % 4096)

/-- Rank of a member. -/
def StepSt.rank (x : StepSt) (dev : Nat) : Nat := (x.devs.findIdx? (· = dev)).getD 0

/-- The verdict holder. -/
def StepSt.holder (x : StepSt) : Nat := x.devs.headD 0

/-- The shards a member owns, ascending. -/
def ownedBy (r : Run) (x : StepSt) (dev : Nat) : List Nat :=
  (List.range r.nshards).filter fun i => i % x.devs.length = x.rank dev

/-- The members that own a shard. -/
def ownersOf (r : Run) (x : StepSt) : List Nat := x.devs.take r.nshards

/-- Vote blocks of a shard. -/
def blocksOf (s : State) (r : Run) (shard : Nat) : Nat := cdiv (rtParams (rootOf s r shard)) 4096

/-- Owned shards with their local bases and PARAMS, and the local total L (R376). -/
def localMap (s : State) (r : Run) (owned : List Nat) : List (Nat × Nat × Nat) × Nat :=
  owned.foldl (fun a i => (a.1 ++ [(i, a.2, rtParams (rootOf s r i))], a.2 + 4096 * blocksOf s r i)) ([], 0)

/-- L of a member in a step. -/
def localTotal (s : State) (r : Run) (x : StepSt) (dev : Nat) : Nat := (localMap s r (ownedBy r x dev)).2

-- The step section (R377), kept from its offset 192

/-- QUORUM. -/
def StepSt.quorum (x : StepSt) : Nat := fld x.sect 18 2
/-- CLOSE_US. -/
def StepSt.closeUs (x : StepSt) : Nat := fld x.sect 20 4
/-- DROP. -/
def StepSt.drop (x : StepSt) : Bool := bit (fld x.sect 24 1) 0
/-- FULLGRAD. -/
def StepSt.fullGrad (x : StepSt) : Bool := bit (fld x.sect 24 1) 1

/-- The state of a step of a run. -/
def stepSt (s : State) (run n : Nat) : Option StepSt := s.cen.steps.find? fun x => x.run = run ∧ x.step = n

/-- Change the state of a step. -/
def modStep (s : State) (run n : Nat) (f : StepSt → StepSt) : State :=
  { s with cen := { s.cen with steps := updFirst (fun x => x.run = run ∧ x.step = n) f s.cen.steps } }

/-- Base of the collective engine's registers. -/
def cenBase : Nat := 0x420000

/-- Count a repeat or a mismatch. -/
def cenRepeat (s : State) : State := bump s (cenBase + 0x220) 1

-- Message headers (R379)

/-- The 64 B header of a tally message. -/
def tallyHeader (type weight run epoch step sender a b : Nat) : List Byte :=
  let h := leBytes 1 type ++ leBytes 1 weight ++ leBytes 2 run ++ leBytes 4 epoch ++ leBytes 8 step ++ leBytes 4 sender ++ zeros 4 ++
    leBytes 8 a ++ leBytes 8 b ++ zeros 20
  h ++ leBytes 4 (crc32c h)

/-- TYPE. -/
def hType (h : List Byte) : Nat := fld h 0 1
/-- WEIGHT. -/
def hWeight (h : List Byte) : Nat := fld h 1 1
/-- RUN. -/
def hRun (h : List Byte) : Nat := fld h 2 2
/-- EPOCH. -/
def hEpoch (h : List Byte) : Nat := fld h 4 4
/-- STEP. -/
def hStep (h : List Byte) : Nat := fld h 8 8

-- Tallies and touch bits (R385, R386)

/-- The tally of a local index. -/
def getTally (s : State) (r : Run) (l : Nat) : Int := signed 16 (leNat (devReads s (r.tally + 2 * l) 2))

/-- Add to a tally: one that holds ±32,767 stays, and one that reaches it is counted. -/
def addTally (s : State) (r : Run) (l : Nat) (w : Int) : State :=
  let v := getTally s r l
  if 32767 ≤ v.natAbs then s
  else
    let n := max (-32767) (min 32767 (v + w))
    let s := ownWrite s (r.tally + 2 * l) (leBytes 2 ((n % 65536).toNat))
    if 32767 ≤ n.natAbs then bump s (cenBase + 0x200) 1 else s

/-- Address of the byte that holds a granule's touch bit, under a local total. -/
def touchAddr (r : Run) (total g : Nat) : Nat := r.tally + 2 * total + g / 8

/-- Whether a granule is touched. -/
def touched (s : State) (r : Run) (total g : Nat) : Bool := bit (devByte s (touchAddr r total g)).toNat (g % 8)

/-- Set or clear the touch bit of a granule. -/
def setTouch (s : State) (r : Run) (total : Nat) (on : Bool) (g : Nat) : State :=
  let b := (devByte s (touchAddr r total g)).toNat
  let v := if bit b (g % 8) = on then b else if on then b + 2 ^ (g % 8) else b - 2 ^ (g % 8)
  ownWrite s (touchAddr r total g) [BitVec.ofNat 8 v]

/-- The local indices that one write of a contribution carries, with the sign of each vote. -/
def writeVotes (total : Nat) (w : Nat × List Byte) : List (Nat × Int) :=
  (w.2.zipIdx.filter fun e => 64 ≤ w.1 + e.2 ∧ w.1 + e.2 < 64 + total / 8).flatMap fun e =>
    (List.range 8).map fun i => (8 * (w.1 + e.2 - 64) + i, if bit e.1.toNat i then -1 else 1)

/-- The vote granules that one write reaches. -/
def writeGranules (full : Bool) (total : Nat) (w : Nat × List Byte) : List Nat :=
  let per := if full then 1024 else 64
  let top := 64 + (if full then 2 * total else total / 8)
  ((List.range w.2.length).filter fun i => 64 ≤ w.1 + i ∧ w.1 + i < top).map (fun i => (w.1 + i - 64) / per) |>.eraseDups

/-- Add to the tallies what writes carry, each vote with a weight. -/
def addVotes (s : State) (r : Run) (total : Nat) (weight : Int) (ws : List (Nat × List Byte)) : State :=
  ws.foldl (fun s w => (writeVotes total w).foldl (fun s v => addTally s r v.1 (weight * v.2)) s) s

/-- Set the touch bits of the granules that writes reach. -/
def touchWrites (s : State) (r : Run) (full : Bool) (total : Nat) (ws : List (Nat × List Byte)) : State :=
  ws.foldl (fun s w => (writeGranules full total w).foldl (fun s g => setTouch s r total true g) s) s

/-- Add (or with `-1` remove) what writes carry, under FULLGRAD nothing; the touch bits of their granules are set. -/
def addWrites (s : State) (r : Run) (x : StepSt) (total weight : Nat) (sgn : Int) (ws : List (Nat × List Byte)) : State :=
  let s := if x.fullGrad then s else addVotes s r total (sgn * weight) ws
  if sgn < 0 then s else touchWrites s r x.fullGrad total ws

-- Contributions (R379 to R389)

/-- Bytes of a contribution's window. -/
def windowLen (full : Bool) (total : Nat) : Nat := if full then 64 + 2 * total else 64 + total / 8 + cdiv (total / 4096) 8

/-- Whether the writes of a landing have covered its header. -/
def Contrib.headed (c : Contrib) : Bool :=
  (List.range 64).all fun i => c.writes.any fun w => w.1 ≤ i ∧ i < w.1 + w.2.length

/-- A contribution's header, from its half. -/
def Contrib.header (s : State) (c : Contrib) : List Byte := devReads s c.half 64

/-- Whether a contribution's header fails one of the tests of R381 that do not need the owner's step. -/
def badHeader (s : State) (c : Contrib) : Bool :=
  let h := c.header s
  !crcOk h 60 || (hType h ≠ 1 && hType h ≠ 5) || (runById s (hRun h)).isNone || hStep h % 2 ^ 31 ≠ c.landing

/-- Whether a header agrees with the owner's step (R381). -/
def headerFits (x : StepSt) (h : List Byte) : Bool :=
  decide (hType h = if x.fullGrad then 5 else 1) && decide (hEpoch h = x.epoch ∧ hRun h = x.run ∧ hStep h = x.step)

/-- Change a landing of the collective engine. -/
def modContrib (s : State) (c : Contrib) (f : Contrib → Contrib) : State :=
  { s with cen := { s.cen with contribs := updFirst (fun q => q = c) f s.cen.contribs } }

/-- Forget a landing of the collective engine. -/
def dropContrib (s : State) (c : Contrib) : State :=
  { s with cen := { s.cen with contribs := delFirst (fun q => q = c) s.cen.contribs } }

/-- Take a contribution's votes out of the tallies, and clear the touch bits of granules that nothing else reached (R387,
R392). The contribution is already forgotten or late. -/
def removeVotes (s : State) (r : Run) (x : StepSt) (c : Contrib) : State :=
  if ¬ c.added then s
  else
    let total := localTotal s r x x.self
    let s := addWrites s r x total c.weight (-1) c.writes
    let others := (s.cen.contribs.filter fun q => q.added ∧ q ≠ c ∧ q.run = x.run ∧ q.step = x.step).flatMap
      fun q => q.writes.flatMap (writeGranules x.fullGrad total)
    let mine := (c.writes.flatMap (writeGranules x.fullGrad total)).eraseDups
    (mine.filter fun g => g ∉ others ∧ g ∉ x.carried).foldl (fun s g => setTouch s r total false g) s

/-- A contribution is discarded whole: what it has added leaves the tallies, and it is forgotten (R381, R387). -/
def discard (s : State) (c : Contrib) : State :=
  match runById s c.run, stepSt s c.run c.step with
  | some r, some x => removeVotes (dropContrib s c) r x c
  | _, _ => dropContrib s c

/-- A contribution whose votes a step holds. -/
def Contrib.addedTo (c : Contrib) (x : StepSt) (weight : Nat) : Contrib := { c with added := true, run := x.run, step := x.step, weight := weight }

/-- Whether a contribution's window has a flag set (R40, R380); under FULLGRAD the owner forms the flags itself. -/
def windowFlag (full : Bool) (total : Nat) (w : List Byte) : Bool :=
  !full && (List.range (total / 4096)).any fun b => bit (fld w (64 + total / 8 + b / 8) 1) (b % 8)

/-- Count a contribution of a device (R383, R387): its votes are added if they are not yet. -/
def countContrib (s : State) (r : Run) (x : StepSt) (c : Contrib) : State :=
  let total := localTotal s r x x.self
  let w := devReads s c.half (windowLen x.fullGrad total)
  let s := if c.added then s else addWrites s r x total (hWeight w) 1 c.writes
  let s := modContrib s c fun c => { c.addedTo x (hWeight w) with counted := true, closed := true }
  modStep s x.run x.step fun y =>
    { y with counted := y.counted ++ [c.dev], flag := y.flag || windowFlag x.fullGrad total w,
             windows := if x.fullGrad then y.windows ++ [(c.dev, w)] else y.windows }

-- Messages (R382, R390)

/-- Send a message of a step to a member: to the device itself within the device, to another as a landing. -/
def sendStep (s : State) (r : Run) (x : StepSt) (landing dev : Nat) (window : List Byte) : State :=
  if dev = x.self then modCen s fun y => { y with inbox := y.inbox ++ [{ sender := dev, window := window }] }
  else
    let e := x.entryOf dev
    let m : OutMsg := { run := x.run, peer := e, key := tallyKey s r e, stream := x.stream, seq := x.seq, landing := landing,
                        epoch := x.epoch, window := window }
    flushOutbox (modCen s fun y => { y with outbox := y.outbox ++ [m] })

-- Closing (R388, R393, R403)

/-- BF16 value of a gradient in a window. -/
def gradOf (w : List Byte) (l : Nat) : W32 := BitVec.ofNat 32 (fld w (64 + 2 * l) 2 * 65536)

/-- Under FULLGRAD, the sum of a local index over the counted contributions in ascending device ID. -/
def gradSum (x : StepSt) (l : Nat) : W32 :=
  (sortAsc (x.windows.map (·.1))).foldl (fun acc d =>
    match x.windows.find? fun w => w.1 = d with
    | some w => ffma (r32 (.fin false (hWeight w.2) 1)) (gradOf w.2 l) acc
    | none => acc) f32Zero

/-- Whether a value is NaN or infinite. -/
def nonFinite (w : W32) : Bool := match d32 w with | .fin _ _ _ => false | _ => true

/-- Whether a block of FULLGRAD has a flag: any gradient or sum that is not finite. -/
def gradFlag (x : StepSt) (total : Nat) : Bool :=
  (List.range total).any fun l => nonFinite (gradSum x l) || x.windows.any fun w => nonFinite (gradOf w.2 l)

/-- The value of a local index at close: its sum, or its tally. -/
def closeValue (s : State) (r : Run) (x : StepSt) (l : Nat) : W32 :=
  if x.fullGrad then gradSum x l else r32 (Num.ofInt (getTally s r l))

/-- The sign of a value; ±0 and NaN give 0. -/
def signCode (v : W32) : Nat :=
  match d32 v with
  | .fin neg n _ => if n = 0 then 0 else if neg then 3 else 1
  | .inf neg => if neg then 3 else 1
  | .nan => 0

/-- Codes of R392 packed four to a byte. -/
def packCodes : List Nat → List Byte
  | a :: b :: c :: d :: t => BitVec.ofNat 8 (a + 4 * b + 16 * c + 64 * d) :: packCodes t
  | [] => []
  | l => [BitVec.ofNat 8 ((l.zipIdx).foldl (fun n e => n + e.1 * 4 ^ e.2) 0)]

/-- The resolved sign of each local index (R393); beyond a shard's PARAMS, not touched (R392). -/
def resolve (s : State) (r : Run) (x : StepSt) : List Byte :=
  let m := localMap s r (ownedBy r x x.self)
  packCodes (m.1.flatMap fun e => (List.range (4096 * cdiv e.2.2 4096)).map fun j =>
    let l := e.2.1 + j
    if e.2.2 ≤ j ∨ ¬ touched s r m.2 (l / 512) then 2 else signCode (closeValue s r x l))

/-- Contributions that a step's tallies hold and that are not sealed. -/
def openVotes (s : State) (x : StepSt) : List Contrib :=
  s.cen.contribs.filter fun c => c.added ∧ ¬ c.counted ∧ c.run = x.run ∧ c.step = x.step

/-- Contributions of a step that are open at the close: out of the tallies, late, and counted (R388, R389). -/
def lateOpen (s : State) (r : Run) (x : StepSt) : State :=
  (openVotes s x).foldl
    (fun s c =>
      let s := removeVotes s r x c
      bump (modContrib s c fun c => { c with added := false, late := true }) (cenBase + 0x208) 1) s

/-- Ranges that a step of a run works on beside its slices: tally area, sign ring, directory and the roots. -/
def runRanges (s : State) (r : Run) : List (Nat × Nat) :=
  [(r.tally, r.tlen), (r.ring, r.sgen * r.gens), (r.dir, 4 * cdiv r.nshards 1024)] ++
    (List.range (cdiv r.nshards 1024)).map fun i => (rootSlice s r i, 64 * min 1024 (r.nshards - 1024 * i))

/-- The first word of a range that is lost: in a failed stack or package, or poisoned (R176, R177). -/
def lostAt (s : State) (a len : Nat) : Option Nat :=
  if inFailed s a 1 ∨ inFailed s a len then some a else
    (s.poison.find? fun w => decide (a < w + 32 ∧ w < a + len) && !unfilled s w).map fun w => max a w

/-- A lost word of those ranges (R404, R176). -/
def runLost (s : State) (r : Run) : Option Nat := (runRanges s r).findSome? fun g => lostAt s g.1 g.2

/-- Close a step (R388): late contributions leave the tallies, the signs are resolved, tallies and touch bits are cleared, and
the REPORT goes to the verdict holder. -/
def closeOwned (s : State) (r : Run) (x : StepSt) : State :=
  let s := lateOpen s r x
  let total := localTotal s r x x.self
  let codes := resolve s r x
  let vals := (List.range total).map fun l => closeValue s r x l
  let flag := x.flag || (x.fullGrad && gradFlag x total)
  let s := { s with mem := memClear s.mem r.tally (2 * total + total / 4096) }
  let s := modCen s fun y => { y with contribs := y.contribs.filter fun c => ¬(c.counted ∧ c.run = x.run ∧ c.step = x.step) }
  let s := modStep s x.run x.step fun y =>
    { y with isOpen := false, closed := true, signs := codes, tallies := vals, windows := [], flag := flag }
  sendStep s r x 0x80000001 x.holder (tallyHeader 2 0 x.run x.epoch x.step x.self (b2n flag) x.counted.length)

/-- The owner's STEP command ends with DATA_LOSS for a word that its step needs (R176, R177, R404). -/
def loseStep (s : State) (x : StepSt) (a : Nat) : State :=
  match findEntry s x.stream x.seq with
  | some e => if e.unfinished then killAndEnd (logLoss s .dataLoss a) x.stream x.seq { status := 7, detail := a % 2 ^ 48 } else s
  | none => s

/-- A lost word of the halves from which a close takes open contributions back (R387, R388). -/
def halvesLost (s : State) (r : Run) (x : StepSt) : Option Nat :=
  (openVotes s x).findSome? fun c => lostAt s c.half (windowLen x.fullGrad (localTotal s r x x.self))

/-- A step closes, unless memory that it needs is lost: then its command ends with DATA_LOSS (R177, R404). -/
def closeStep (s : State) (r : Run) (x : StepSt) : State :=
  match (runLost s r).or (halvesLost s r x) with
  | some a => loseStep s x a
  | none => closeOwned s r x

/-- Contributions that close a step at once: Q, where 0 or more than N means N. A member that owns no shard receives none but
its own. -/
def StepSt.need (r : Run) (x : StepSt) : Nat :=
  let n := x.devs.length
  if x.self ∉ ownersOf r x then 1 else if x.quorum = 0 ∨ n < x.quorum then n else x.quorum

/-- Close a step whose condition on the counted contributions holds (R388). -/
def tryClose (s : State) (run n : Nat) : State :=
  match runById s run, stepSt s run n with
  | some r, some x =>
    if x.isOpen ∧ x.self ∈ x.counted ∧ x.need r ≤ x.counted.length then closeStep s r x else s
  | _, _ => s

-- Late contributions (R389)

/-- The bytes of a landing's window that it has written, each once, as its half holds them. -/
def writtenBytes (s : State) (c : Contrib) : List (Nat × List Byte) :=
  (c.writes.flatMap fun w => (List.range w.2.length).map (w.1 + ·)).eraseDups.map fun o => (o, devReads s (c.half + o) 1)

/-- The part of a write that lies in a range of a window, moved to where another range begins. -/
def shiftWrite (lo len dest : Nat) (w : Nat × List Byte) : Option (Nat × List Byte) :=
  let a := max w.1 lo
  let b := min (w.1 + w.2.length) (lo + len)
  if a < b then some (dest + (a - lo), (w.2.drop (a - w.1)).take (b - a)) else none

/-- What a carried contribution adds to a step, laid out by the step's local map: the votes that it wrote of each shard that the owner holds
both in the step that they were cast for and in this one (R376). -/
def carryWrites (s : State) (r : Run) (x : StepSt) (c : Carry) : List (Nat × List Byte) :=
  match stepSt s c.run c.step with
  | none => []
  | some y => (localMap s r (ownedBy r y y.self)).1.flatMap fun e =>
    match (localMap s r (ownedBy r x x.self)).1.find? fun f => f.1 = e.1 with
    | some f => c.writes.filterMap (shiftWrite (64 + e.2.1 / 8) (512 * cdiv e.2.2 4096) (64 + f.2.1 / 8))
    | none => []

/-- Add a carried contribution to a step once, with its touch bits. It holds votes, as FULLGRAD goes with DROP (R378): a sum takes none of
them (log 45). -/
def addCarry (s : State) (r : Run) (x : StepSt) (c : Carry) : State :=
  let total := localTotal s r x x.self
  let ws := carryWrites s r x c
  let s := if x.fullGrad then s else addVotes s r total c.weight ws
  bump (modStep (touchWrites s r false total ws) x.run x.step fun y =>
    { y with carried := (y.carried ++ ws.flatMap (writeGranules false total)).eraseDups }) (cenBase + 0x210) 1

/-- A sealed contribution of a closed step: carried or dropped by the owner's own MODE for that step; a second one of the
same member is a repeat (R387). -/
def lateContrib (s : State) (r : Run) (x : StepSt) (c : Contrib) : State :=
  let s0 := s
  let s := dropContrib s c
  if c.dev ∈ x.counted ∨ c.dev ∈ x.lateFrom then cenRepeat s
  else
    let s := if c.late then s else bump s (cenBase + 0x208) 1
    let s := modStep s x.run x.step fun y => { y with lateFrom := y.lateFrom ++ [c.dev] }
    let total := localTotal s r x x.self
    let w := devReads s0 c.half (windowLen x.fullGrad total)
    if x.drop then
      bump (modCen s fun y => { y with notices := y.notices ++ [{ run := x.run, dev := c.dev, step := x.step }] }) (cenBase + 0x218) 1
    else if windowFlag x.fullGrad total w then s
    else
      let q : Carry := { run := x.run, sender := c.dev, step := x.step, weight := hWeight w, writes := writtenBytes s0 c }
      match s.cen.steps.find? fun y => y.run = x.run ∧ x.step < y.step ∧ y.isOpen with
      | some y => addCarry s r y q
      | none => modCen s fun y => { y with carries := y.carries ++ [q] }

/-- A contribution has been sealed (R381, R387 to R389). One whose step has not opened waits for it. -/
def sealContrib (s : State) (c : Contrib) : State :=
  let h := c.header s
  match runById s (hRun h) with
  | none => cenRepeat (discard s c)
  | some r =>
    if ¬ c.headed ∨ badHeader s c then cenRepeat (discard s c)
    else match stepSt s (hRun h) (hStep h) with
      | none => modContrib s c fun c => { c with closed := true }
      | some x =>
        if ¬ x.isOpen ∧ ¬ x.closed then modContrib s c fun c => { c with closed := true }
        else if ¬ headerFits x h then cenRepeat (discard s c)
        else match lostAt s c.half (windowLen x.fullGrad (localTotal s r x x.self)) with
          | some a => loseStep (discard s c) x a
          | none =>
            if x.closed then lateContrib s r x c
            else if c.dev ∈ x.counted then cenRepeat (discard s c)
            else tryClose (countContrib s r x c) x.run x.step

/-- A contribution landing is aborted: its votes leave the tallies and the event is counted (R387). -/
def abortContrib (s : State) (c : Contrib) : State :=
  let s := discard s c
  if c.landing < 2 ^ 31 then bump s (cenBase + 0x228) 1 else s

/-- A data write of a contribution (R385): it lies in the half already; once the header is here and the step is open, its
votes are added. -/
def addContrib (s : State) (c : Contrib) (w : Nat × List Byte) : State :=
  let d := { c with writes := c.writes ++ [w] }
  let s := modContrib s c fun _ => d
  let h := d.header s
  if 2 ^ 31 ≤ c.landing ∨ ¬ d.headed ∨ badHeader s d then s
  else match runById s (hRun h), stepSt s (hRun h) (hStep h) with
    | some r, some x =>
      if ¬ x.isOpen ∨ ¬ headerFits x h ∨ c.late then s
      else
        let total := localTotal s r x x.self
        let s := addWrites s r x total (hWeight h) 1 (if c.added then [w] else d.writes)
        modContrib s d fun c => c.addedTo x (hWeight h)
    | _, _ => s

/-- Open a step at the owner (R388, R389): contributions that came before are added or counted, and late ones of earlier
steps are carried in. -/
def openStep (s : State) (run n : Nat) : State :=
  match runById s run, stepSt s run n with
  | some r, some x =>
    if x.isOpen ∨ x.closed then s
    else
      let s := modStep s run n fun y => { y with isOpen := true }
      let x := { x with isOpen := true }
      let mine := s.cen.carries.filter fun c => c.run = run ∧ c.step < n
      let s := modCen s fun y => { y with carries := y.carries.filter fun c => ¬(c.run = run ∧ c.step < n) }
      let s := mine.foldl (fun s c => addCarry s r x c) s
      let held := s.cen.contribs.filter fun c => c.landing < 2 ^ 31 ∧ c.headed ∧ hRun (c.header s) = run ∧ hStep (c.header s) = n
      held.foldl (fun s c => if c.closed then sealContrib s c else addContrib s c (0, [])) s
  | _, _ => s

/-- The local contribution (R383): counted at once when the take has ended; a faulty one is replaced by one without votes
and with every flag set. A lost word of its buffer ends the command (R176, R177). -/
def countLocal (s : State) (run n addr : Nat) : State :=
  match runById s run, stepSt s run n with
  | some r, some x =>
    if ¬ x.isOpen ∨ x.self ∈ x.counted then (if x.isOpen ∨ x.closed then cenRepeat s else s)
    else
      let total := localTotal s r x x.self
      let w := devReads s addr (windowLen x.fullGrad total)
      let h := w.take 64
      match lostAt s addr (windowLen x.fullGrad total) with
      | some a => loseStep s x a
      | none =>
      if crcOk h 60 ∧ headerFits x h then
        let c : Contrib := { peer := 4096, dev := x.self, stream := x.stream, seq := x.seq, landing := n % 2 ^ 31, half := addr,
                             writes := [(0, w)], added := false, closed := false, counted := false, late := false }
        tryClose (countContrib (modCen s fun y => { y with contribs := y.contribs ++ [c] }) r x c) run n
      else
        let s := modStep (cenRepeat s) run n fun y => { y with counted := y.counted ++ [x.self], flag := true }
        tryClose s run n
  | _, _ => s

end Sys2Proof.Machine
end

