-- ==== Sys2Proof/Machine/Upu.lean ====
section
/-! DEFINITION. The update units: SMLT (R395 to R398), microprograms (R402), reservations (R192), the sequence of one shard's
update (R400, R401), and the regions it takes and frees (R190, R191). -/
namespace Sys2Proof.Machine

open Sys2Proof

/-- The controller, and so the update unit, that combines a shard's sums: the one that holds its slice table (R399). -/
def Update.unit (u : Update) : Nat := (ctlOf (rtList u.base)).getD 0

-- Norms (R396, R397)

/-- Square root in binary64, to nearest. -/
def sqrt64 (a : Nat) : Nat :=
  match d64 a with
  | .nan => nan64
  | .inf neg => if neg then nan64 else a
  | .fin neg n d =>
    if n = 0 then a
    else if neg then nan64
    else
      let r := isqrtFrom 1300 (n * 2 ^ 1400 / d) 0
      r64 (if r * r * d = n * 2 ^ 1400 then .fin false r (2 ^ 700) else .fin false (2 * r + 1) (2 ^ 701))

/-- A layer's norm from its shards' sums, in shard order. -/
def normOf (sums : List Nat) : W32 := r32 (d64 (sqrt64 (sums.foldl add64 0)))

/-- FP32 field of the step section. -/
def StepSt.f32 (x : StepSt) (off : Nat) : W32 := BitVec.ofNat 32 (fld x.sect off 4)

/-- τ of a layer (R396), from the root its update starts from. -/
def trust (x : StepSt) (base : List Byte) : W32 :=
  if rtStep base = 0 then x.f32 44
  else r32 ((d32 (BitVec.ofNat 32 (fld base 20 4))).div ((d32 (BitVec.ofNat 32 (fld base 24 4))).add (d32 (x.f32 40))))

-- One parameter (R395, R402)

/-- The result of an update of one parameter: its record and d. -/
structure RecOut where
  word : Nat
  d : W32
deriving DecidableEq, Repr

/-- What an update of one parameter sees: its step, c, its slice ordinal, its position, its sign, and the tally a
microprogram reads. -/
structure RecIn where
  c : W32
  slice : Nat
  pos : Nat
  sign : Int
  tally : W32
deriving DecidableEq, Repr

/-- Store a weight as W24, stochastically under STOCH (R52). -/
def storeW (x : StepSt) (e : RecIn) (w : W32) : Nat :=
  if bit (fld x.sect 24 1) 3 then
    stochW24 w (stochR (BitVec.ofNat 32 (fld x.sect 48 4)) (BitVec.ofNat 32 x.step) (BitVec.ofNat 32 e.slice) (BitVec.ofNat 32 e.pos))
  else w24.encode false (d32 w)

/-- Momentum of a record as an exact value. -/
def m8Value (code : Nat) : Num := (Num.ofInt (signed 8 code)).div (.fin false 128 1)

/-- SMLT on one touched parameter (R395). -/
def smlt (x : StepSt) (e : RecIn) (rec : Nat) : RecOut :=
  let w : W32 := BitVec.ofNat 32 (rec / 256 * 256)
  let beta := d32 (x.f32 32)
  let m := encodeM8 ((beta.mul (m8Value rec)).add (((Num.fin false 1 1).add beta.neg).mul (Num.ofInt e.sign)))
  let d := r32 (m8Value m)
  let t := ffma (x.f32 36) w d
  let w' := ffma (fneg e.c) t w
  { word := storeW x e w' * 256 + m, d := d }

/-- Registers and outputs of a microprogram. -/
structure ProgSt where
  regs : List W32
  outW : Option W32
  outM : Option W32
  outD : W32
deriving DecidableEq, Repr

/-- −1, +0 or +1 by the sign of a; NaN stays NaN. -/
def fsgn (a : W32) : W32 :=
  match d32 a with
  | .nan => f32Nan
  | .inf neg => if neg then 0xBF800000 else f32One
  | .fin neg n _ => if n = 0 then f32Zero else if neg then 0xBF800000 else f32One

/-- One op of a microprogram (R402). -/
def progOp (consts : List W32) (p : ProgSt) (op : Nat) : ProgSt :=
  let a := p.regs.getD (bits op 24 22) 0
  let b := p.regs.getD (bits op 21 19) 0
  let c := p.regs.getD (bits op 18 16) 0
  let put := fun (v : W32) => { p with regs := p.regs.set (bits op 27 25) v }
  match bits op 31 28 with
  | 0x0 => put (fadd a b)
  | 0x1 => put (fsub a b)
  | 0x2 => put (fmul a b)
  | 0x3 => put (ffma a b c)
  | 0x4 => put (fmax a b)
  | 0x5 => put (fmin a b)
  | 0x6 => put (fabs a)
  | 0x7 => put (fneg a)
  | 0x8 => put (fsgn a)
  | 0x9 => put (if (Num.fin false 0 1).lt (d32 a) then b else c)
  | 0xA => put (consts.getD (bits op 2 0) 0)
  | 0xB => put (frsqrt a)
  | 0xC => { p with outW := some a }
  | 0xD => { p with outM := some a }
  | 0xE => { p with outD := a }
  | _ => p

/-- Ops of a microprogram. -/
def progOps (b : List Byte) : List Nat := (List.range (fld b 0 1)).map fun i => fld b (64 + 4 * i) 4

/-- Whether a microprogram breaks R402: its count, its zero bytes, a reserved op, or bits that an op leaves at zero. -/
def progBad (b : List Byte) : Bool :=
  decide (fld b 0 1 = 0 ∨ 64 < fld b 0 1) || !zeroAt b 1 31 || (progOps b).any fun o => decide (bits o 31 28 = 15 ∨ bits o 15 3 ≠ 0)

/-- A microprogram on one touched parameter (R402). -/
def microprogram (x : StepSt) (e : RecIn) (rec : Nat) : RecOut :=
  let w : W32 := BitVec.ofNat 32 (rec / 256 * 256)
  let regs := [w, r32 (m8Value rec), r32 (Num.ofInt e.sign), e.tally, e.c, x.f32 36, x.f32 32, f32Zero]
  let consts := (List.range 8).map fun i => (BitVec.ofNat 32 (fld x.uprog (32 + 4 * i) 4) : W32)
  let p := (progOps x.uprog).foldl (progOp consts) { regs := regs, outW := none, outM := none, outD := f32Zero }
  let wc := match p.outW with | some v => storeW x e v | none => rec / 256
  let mc := match p.outM with | some v => encodeM8 (d32 v) | none => rec % 256
  { word := wc * 256 + mc, d := p.outD }

/-- Square of an FP32 value in binary64. -/
def sq64 (w : W32) : Nat := let x := r64 (d32 w); mul64 x x

-- One slice (R397, R401)

/-- A slice after its update: whether it holds a touched parameter, its bytes, its sums and its touched parameters. -/
structure SliceOut where
  bytes : List Byte
  wsq : Nat
  dsq : Nat
  n : Nat
deriving DecidableEq, Repr

/-- Ring bytes of the shards below one (R392). -/
def ringOffset (s : State) (r : Run) (shard : Nat) : Nat :=
  (List.range shard).foldl (fun a i => a + 1024 * blocksOf s r i) 0

/-- The resolved sign code of a parameter of a shard, from the sign ring. -/
def ringCode (s : State) (base p : Nat) : Nat := (devByte s (base + p / 4)).toNat / 4 ^ (p % 4) % 4

/-- Sign of a code. -/
def codeSign (c : Nat) : Int := if c = 1 then 1 else if c = 3 then -1 else 0

/-- A value of a sign that reached this device without it: a tally, or under FULLGRAD a finite sum; its size is free (log 22). -/
def signedFree (full : Bool) (free : Nat) (sign : Int) : W32 :=
  let v := (Config.freeValue free).toNat
  if full then BitVec.ofNat 32 (if sign = 0 then v % 2 * 2 ^ 31 else b2n (decide (sign < 0)) * 2 ^ 31 + (v % 0x7F7FFFFF + 1))
  else r32 (Num.ofInt (sign * (v % 32767 + 1 : Nat)))

/-- The tally that a microprogram sees: the device's own at close; of another owner's shard only the sign reaches this device, and the rest
is free, one value for each parameter (log 22). -/
def tallyOf (s : State) (r : Run) (x : StepSt) (shard p : Nat) (sign : Int) : W32 :=
  match (localMap s r (ownedBy r x x.self)).1.find? fun e => e.1 = shard with
  | some e => x.tallies.getD (e.2.1 + p) 0
  | none => signedFree x.fullGrad (s.free + p) sign

/-- Free values for `n` parameters have been used. -/
def spendFree (s : State) (n : Nat) : State := { s with free := s.free + n }

/-- Update the records of one slice in position order. `live` says that the layer is not frozen. -/
def updateSlice (s : State) (r : Run) (x : StepSt) (shard : Nat) (root : List Byte) (c : W32) (live : Bool) (slice : Nat) : SliceOut :=
  let a := sliceAddr s root slice
  let ring := r.ring + x.gen * r.sgen + ringOffset s r shard
  (List.range 16384).foldl (fun (o : SliceOut) j =>
    let p := slice * 16384 + j
    let rec0 := leNat (devReads s (a + 4 * j) 4)
    let code := if p < rtParams root then ringCode s ring p else 2
    if live ∧ code ≠ 2 then
      let e : RecIn := { c := c, slice := slice, pos := j, sign := codeSign code, tally := tallyOf s r x shard p (codeSign code) }
      let q := if bit (fld x.sect 24 1) 2 then microprogram x e rec0 else smlt x e rec0
      { bytes := o.bytes ++ leBytes 4 q.word, wsq := add64 o.wsq (sq64 (BitVec.ofNat 32 (q.word / 256 * 256))),
        dsq := add64 o.dsq (sq64 q.d), n := o.n + 1 }
    else { o with bytes := o.bytes ++ leBytes 4 rec0, wsq := add64 o.wsq (sq64 (BitVec.ofNat 32 (rec0 / 256 * 256))) })
    { bytes := [], wsq := 0, dsq := 0, n := 0 }

-- Regions (R190 to R192)

/-- The whole size of a controller's pool (R192): free regions, those reserved, and those that earlier updates have taken or that wait to
return. -/
def poolWhole (s : State) (k : Nat) : Nat :=
  poolFreeOf s k + (ctl s k).reserved +
    ((s.upu.updates.flatMap (·.fresh) ++ s.upu.old).filter fun g => decide (ctlOf (g * 65536) = some k)).length

/-- What an update may take, by controller: every slice and the table (R192). -/
def updateNeeds (s : State) (root : List Byte) : Tab Nat :=
  (rootRegions s root).foldl (fun t g => match ctlOf (g * 65536) with
    | some k => tset 0 t k (tget 0 t k + 1)
    | none => t) []

/-- The lowest-addressed Pool region of a controller (R190). -/
def lowestPool (s : State) (k : Nat) : Option Nat :=
  let lo := ctlBase k / 65536
  let listed := (s.regions.filter fun e => lo ≤ e.1 ∧ e.1 < lo + ctlSize k / 65536 ∧ e.2 = 1).map (·.1)
  let dflt := if k < 16 then none
    else ((List.range 65536).map fun i => lo + 0x1F0000 + i).find? fun g => regionState s g = 1
  match listed, dflt with
  | [], d => d
  | g :: t, none => some ((g :: t).foldl min g)
  | g :: t, some d => some ((g :: t).foldl min d)

/-- Change one update. -/
def modUpdate (s : State) (run shard n : Nat) (f : Update → Update) : State :=
  { s with upu := { s.upu with updates := updFirst (fun u => u.run = run ∧ u.shard = shard ∧ u.step = n ∧ u.state ≠ .dropped) f s.upu.updates } }

/-- Take a fresh region of a controller for an update: it becomes Held and leaves the reservation. -/
def takeRegion (s : State) (u : Update) (k : Nat) : Option (Nat × State) :=
  (lowestPool s k).map fun g =>
    let s := setRegion s g 2
    let s := setCtl s k { ctl s k with reserved := (ctl s k).reserved - 1 }
    (g, modUpdate s u.run u.shard u.step fun u =>
      { u with fresh := u.fresh ++ [g], reserve := tset 0 u.reserve k (tget 0 u.reserve k - 1) })

-- One shard's update (R401)

/-- The first word that an update reads and that is lost (R176, R177), or its table where its root fails a check (R186). -/
def updateLost (s : State) (root : List Byte) : Option Nat :=
  if ¬ rootOk root then some (rtList root) else (rootRegions s root).findSome? fun g => lostAt s (g * 65536) 65536

/-- The FROZEN that governs an update (R398). -/
def frozenBit (x : StepSt) (base : List Byte) : Bool :=
  if fld x.sect 52 6 = 0 then rtFrozen base else bit (fld x.frozen (rtLayer base / 8) 1) (rtLayer base % 8)

/-- A root with its check. -/
def sealRoot (b : List Byte) : List Byte := withCrc b 60

/-- Update every slice of a shard: fresh slices are written where a touched parameter lies, sums are formed, and the table
is written afresh when any slice changed. -/
def runUpdate (s : State) (r : Run) (x : StepSt) (u : Update) : State :=
  let frz := frozenBit x u.base
  let flags := fld u.base 28 4 / 2 * 2 + b2n frz
  if frz then
    modUpdate s u.run u.shard u.step fun u => { u with state := .pending, root := sealRoot (putBytes u.base 28 (leBytes 4 flags)) }
  else
    let c := fmul (x.f32 28) (trust x u.base)
    let go := fun (a : State × List Nat × Nat × Nat × Bool) (i : Nat) =>
      let o := updateSlice s r x u.shard u.base c true i
      let old := sliceAddr s u.base i
      let k := (ctlOf old).getD 0
      let sums := (add64 a.2.2.1 o.wsq, add64 a.2.2.2.1 o.dsq)
      if o.n = 0 then (a.1, a.2.1 ++ [old / 65536], sums.1, sums.2, a.2.2.2.2)
      else match takeRegion a.1 u k with
        | none => (a.1, a.2.1 ++ [old / 65536], sums.1, sums.2, a.2.2.2.2)
        | some (g, t) =>
          let t := bump (bump (ownWrite t (g * 65536) o.bytes) (upuBase k + 0x10) o.n) (upuBase k + 0x18) 1
          (t, a.2.1 ++ [g], sums.1, sums.2, true)
    let a := (List.range (sliceCount u.base)).foldl go (s, [], 0, 0, false)
    let done := fun (t : State) (list : Nat) =>
      let b := putBytes u.base 0 (leBytes 8 list ++ leBytes 8 x.step)
      let b := putBytes (putBytes b 28 (leBytes 4 flags)) 32 (leBytes 8 a.2.2.1 ++ leBytes 8 a.2.2.2.1)
      modUpdate t u.run u.shard u.step fun u => { u with state := .pending, root := sealRoot b }
    if ¬ a.2.2.2.2 then done a.1 (rtList u.base)
    else match takeRegion a.1 u u.unit with
      | none => done a.1 (rtList u.base)
      | some (g, t) =>
        let table := a.2.1.flatMap (leBytes 4) ++ zeros (65536 - 4 * a.2.1.length)
        done (ownWrite t (g * 65536) table) (g * 65536)

/-- Shards of a layer in a run. -/
def layerShards (s : State) (r : Run) (layer : Nat) : List Nat :=
  (List.range r.nshards).filter fun i => rtLayer (rootOf s r i) = layer

/-- Once every shard of a layer has its sums, both norms are written into every root of the layer (R397); a frozen layer
keeps its norms. -/
def layerNorms (s : State) (r : Run) (x : StepSt) (layer : Nat) : State :=
  let mine := fun (i : Nat) => s.upu.updates.find? fun u => u.run = x.run ∧ u.shard = i ∧ u.step = x.step ∧ u.state = .pending
  let all := (layerShards s r layer).map fun i => (i, mine i)
  if all.any fun e => e.2.isNone then s
  else
    let roots := all.filterMap fun e => e.2.map (·.root)
    if roots.any rtFrozen then s
    else
      let w := normOf (roots.map fun b => fld b 32 8)
      let d := normOf (roots.map fun b => fld b 40 8)
      all.foldl (fun s e => modUpdate s x.run e.1 x.step fun u =>
        { u with root := sealRoot (putBytes u.root 20 (leBytes 4 w.toNat ++ leBytes 4 d.toNat)) }) s

/-- The unfinished STEP command of a run with the lowest step number. -/
def nextStep (s : State) (run : Nat) : Option Entry :=
  (s.intake.log.filter fun e => e.unfinished ∧ e.cls = 2 ∧ (stepRun s e).map Run.id = some run).foldl
    (fun a e => match a with | none => some e | some q => if e.step < q.step then some e else some q) none

/-- The command that an update's room and losses concern: the one whose commit is to publish it (R25, R192). A slow-tier update of lag D is
published at the D-th UPDATE commit after its own: the command is known once D − 1 of them have been. -/
def publisher (s : State) (u : Update) : Option (Nat × Nat) :=
  if u.stream < 256 then some (u.stream, u.seq)
  else match runById s u.run with
    | none => none
    | some r => if r.commits[rtLag u.base - 1]? = some u.step then (nextStep s u.run).map fun e => (e.stream, e.seq) else none

/-- A command whose updates have their room waits no longer. -/
def endPoolWait (s : State) (p : Option (Nat × Nat)) : State :=
  match p with
  | none => s
  | some (st, seq) =>
    if s.upu.updates.any fun u => u.state = .waiting ∧ publisher s u = p then s
    else match findEntry s st seq with
      | some e => if e.waitReason = 4 then settle (modEntry s st seq fun e => { e with waitReason := 0 }) st else s
      | none => s

/-- Reserve an update's room (R192): it runs when every pool can meet it; when one is too small as a whole, the command ends
with STATE_CONFLICT, reason POOL; otherwise it waits, and the command receives WAITING_RESOURCES. -/
def reserveUpdate (s : State) (u : Update) : State :=
  let need := updateNeeds s u.base
  if need.all fun e => e.2 ≤ poolFreeOf s e.1 then
    let s := need.foldl (fun s e => setCtl s e.1 { ctl s e.1 with reserved := (ctl s e.1).reserved + e.2 }) s
    endPoolWait (modUpdate s u.run u.shard u.step fun u => { u with state := .running, reserve := need }) (publisher s u)
  else match publisher s u with
    | none => s
    | some (st, seq) =>
      if need.any fun e => poolWhole s e.1 < e.2 then killAndEnd s st seq { status := 2, reason := 5 }
      else waitFor s st seq 4

/-- The units that work on an update from a root (R399). -/
def unitsOf (s : State) (root : List Byte) : List Nat := ((rootRegions s root).filterMap fun g => ctlOf (g * 65536)).eraseDups

/-- Start an update of a shard for a step. -/
def startUpdate (s : State) (u : Update) : State :=
  let u := { u with units := unitsOf s u.base }
  let s := { s with upu := { s.upu with updates := s.upu.updates ++ [u],
                                        lastStep := u.units.foldl (fun t k => tset 0 t k u.step) s.upu.lastStep } }
  reserveUpdate s u

/-- A slow-tier update is given up: what it took and reserved returns (R191, R192), and it can start anew. -/
def dropSlow (s : State) (u : Update) : State :=
  if u.stream < 256 then s
  else let s := freeUpdate s u; { s with upu := { s.upu with updates := delFirst (fun q => q = u) s.upu.updates } }

/-- Whether a step has its UPDATE verdict and every SIGNS (R400). -/
def hasSigns (r : Run) (x : StepSt) : Bool := decide (x.verdict = 1) && (ownersOf r x).all fun d => d ∈ x.signsFrom

/-- The update of a shard for a step. -/
def updateOf (s : State) (run shard n : Nat) : Option Update :=
  s.upu.updates.find? fun u => u.run = run ∧ u.shard = shard ∧ u.step = n ∧ u.state ≠ .dropped

/-- SYNC_UPDATE (R400): the synchronous units start a LAG-0 shard of the step whose take has ended, once the verdict is
UPDATE and every SIGNS is held. It starts from the root that the take latched. -/
def execSyncUpdate (run shard : Nat) (s : State) : Out :=
  match s.cen.runs[run]? with
  | none => .next s
  | some r =>
    match s.intake.takes.find? fun t => t.run = r.id ∧ t.ended ∧ ¬ t.killed ∧ t.roots.any (fun e => e.1 = shard) with
    | none => .next s
    | some t =>
      match (findEntry s t.stream t.seq).bind fun e => stepSt s r.id e.step, t.roots.find? fun e => e.1 = shard with
      | some x, some e =>
        when_ (ready s && hasSigns r x && decide (rtLag e.2 = 0) && (updateOf s r.id shard x.step).isNone) s
          (startUpdate s { run := r.id, shard := shard, step := x.step, stream := t.stream, seq := t.seq, state := .waiting,
                           base := e.2, root := [], fresh := [], reserve := [] })
      | _, _ => .next s

/-- The oldest UPDATE step of a run whose slow-tier update of a shard has not finished. -/
def nextSlow (s : State) (r : Run) (shard : Nat) : Option StepSt :=
  (s.cen.steps.filter fun x => x.run = r.id ∧ x.verdict = 1 ∧ tget 0 r.done shard < x.step).foldl
    (fun a x => match a with | none => some x | some y => if x.step < y.step then some x else some y) none

/-- The newest state of a shard: the pending root of its last update, or its published root (R400). -/
def newestRoot (s : State) (r : Run) (shard : Nat) : List Byte :=
  match s.upu.updates.reverse.find? fun u => u.run = r.id ∧ u.shard = shard ∧ u.state = .pending with
  | some u => u.root
  | none => rootOf s r shard

/-- Whether the last slow-tier update of a shard has its layer's norms: every shard of the layer has had it (R396, R397). -/
def layerDone (s : State) (r : Run) (shard : Nat) : Bool :=
  (layerShards s r (rtLayer (rootOf s r shard))).all fun i => decide (tget 0 r.done shard ≤ tget 0 r.done i)

/-- SLOW_UPDATE (R400): a slow-tier unit starts a shard's next update in step order, once its signs are in the ring and the
previous update has finished, its layer's norms with it (R396). -/
def execSlowUpdate (run shard : Nat) (s : State) : Out :=
  match s.cen.runs[run]? with
  | none => .next s
  | some r =>
    let base := newestRoot s r shard
    match nextSlow s r shard with
    | none => .next s
    | some x =>
      let busy := s.upu.updates.any fun u => u.run = r.id ∧ u.shard = shard ∧ u.state ≠ .pending ∧ u.state ≠ .dropped
      when_ (ready s && hasSigns r x && decide (shard < r.nshards ∧ 1 ≤ rtLag base) && !busy && layerDone s r shard) s
        (startUpdate s { run := r.id, shard := shard, step := x.step, stream := 256, seq := 0, state := .waiting,
                         base := base, root := [], fresh := [], reserve := [] })

/-- The update of a shard that waits or runs. -/
def activeUpdate (s : State) (r : Run) (shard : Nat) (st : UpdState) : Option Update :=
  s.upu.updates.find? fun u => u.run = r.id ∧ u.shard = shard ∧ u.state = st

/-- POOL_RESERVATION_RETRY (R192): a waiting update's reservation is tested again. -/
def execPoolReservationRetry (run shard : Nat) (s : State) : Out :=
  match s.cen.runs[run]? with
  | none => .next s
  | some r => match activeUpdate s r shard .waiting with
    | none => .next s
    | some u => when_ (ready s) s (reserveUpdate s u)

/-- UPDATE_DONE (R401): a shard's running update has written its fresh slices and holds a pending root; a root or slice that
is lost ends the command whose commit is to publish it with DATA_LOSS (R177, R186), with whose Final its room returns (R192). -/
def execUpdateDone (run shard : Nat) (s : State) : Out :=
  match s.cen.runs[run]? with
  | none => .next s
  | some r => match activeUpdate s r shard .running with
    | none => .next s
    | some u => match stepSt s r.id u.step with
      | none => .next s
      | some x =>
        if ¬ ready s then .next s
        else match updateLost s u.base with
        | some a =>
          match publisher s u with
          | some (st, seq) => .next (killAndEnd (dropSlow (logLoss s .dataLoss a) u) st seq { status := 7, detail := a % 2 ^ 48 })
          | none => .next s
        | none =>
          let s := layerNorms (runUpdate s r x u) r x (rtLayer u.base)
          let s := if rtLag u.base = 0 then s else modRun s r.id fun r => { r with done := tset 0 r.done shard u.step }
          .next (if bit (fld x.sect 24 1) 2 then spendFree s (rtParams u.base) else s)

-- Publication (R25, R26, R187, R401 step 5)

/-- Superseded regions that no root latched by a running take names return to the pool (R26, R191). -/
def releaseOld (s : State) : State :=
  let used := s.intake.takes.flatMap fun t => t.latch.flatMap fun e => if rootOk e.2 then rootRegions s e.2 else []
  let free := s.upu.old.filter fun g => g ∉ used
  let s := setRegions s free 1
  { s with upu := { s.upu with old := s.upu.old.filter fun g => g ∈ used } }

/-- Publish one update: its root is written, its room returns, and what it supersedes waits for its readers. -/
def publishUpdate (s : State) (r : Run) (u : Update) : State :=
  let before := rootRegions s (rootOf s r u.shard)
  let after := rootRegions s u.root
  let s := ownWrite s (rootAddr s r u.shard) u.root
  let s := u.reserve.foldl (fun s e => setCtl s e.1 { ctl s e.1 with reserved := (ctl s e.1).reserved - e.2 }) s
  { s with upu := { s.upu with updates := delFirst (fun q => q = u) s.upu.updates,
                               old := s.upu.old ++ before.filter fun g => g ∉ after } }

/-- The updates that an UPDATE commit of a step publishes: its LAG-0 shards, and each LAG-D shard's update for the UPDATE
commit D commits earlier (R25). `none` when one is not yet pending. -/
def toPublish (s : State) (r : Run) (n : Nat) : Option (List Update) :=
  (List.range r.nshards).foldl (fun a i =>
    match a with
    | none => none
    | some l =>
      let lag := rtLag (rootOf s r i)
      let want := if lag = 0 then some n else r.commits[lag - 1]?
      match want with
      | none => some l
      | some d => match updateOf s r.id i d with
        | some u => if u.state = .pending then some (l ++ [u]) else none
        | none => none) (some [])

end Sys2Proof.Machine
end

