-- ==== Sys2Proof/Machine/Place.lean ====
section
/-! DEFINITION. What an image writes into its placement: SRAMINIT data, descriptors' starting exponents, relocations, counters
(R64, R130, R160, R272 to R277), and the cut area (R341 to R343). -/
namespace Sys2Proof.Machine

open Sys2Proof

-- Sections (R273, R274)

/-- SRAMINIT records from an offset: core index, core address and data; `n` records are left. -/
def sramInitFrom (img : List Byte) : Nat → Nat → List (Nat × Nat × List Byte)
  | 0, _ => []
  | n + 1, o =>
    let len := fld img (o + 8) 4
    (fld img o 1, fld img (o + 4) 4, slice img (o + 16) len) :: sramInitFrom img n (o + 16 + cdiv len 64 * 64)

/-- SRAMINIT records of an image. -/
def sramInits (img : List Byte) : List (Nat × Nat × List Byte) :=
  match imgSect img 0x03 with
  | some (o, _, n) => sramInitFrom img n o
  | none => []

/-- Whether a record's core index applies to a rectangle index. -/
def forCore (rec idx : Nat) : Bool := rec = 0xFF || rec = idx

/-- Format top T of R64. -/
def formatTop (f : Nat) : Int := if f = 3 ∨ f = 6 then 9 else if f = 5 then 7 else 16

/-- The starting exponent that the loader gives a tile (R64); H is HEADROOM, or the unit's default for 0x80. -/
def loaderS (b : List Byte) (dflt : Nat) : Int :=
  let h := signed 8 (if fld b 19 1 = 0x80 then dflt else fld b 19 1)
  formatTop (mFmtA b) + formatTop (mFmtB b) + Nat.clog 2 (cdiv (mKTotal b) 16 + b2n (bit (fld b 46 1) 0)) - 11 + h

/-- Write S into each declared MXE tile of a core. -/
def writeS (s : State) (c : Nat) (img : List Byte) (idx : Nat) : State :=
  (imgRecs img 0x04 8).foldl (fun s o =>
    if ¬ forCore (fld img o 1) idx then s
    else
      let a := fld img (o + 4) 4
      let b := sramReads s c a 128
      if dEng b ≠ 0 then s
      else sramWrites s c (a + 20) (leBytes 2 (((loaderS b (wbits (cget s (mxeBase c)) 15 8)) % 65536).toNat))) s

/-- Device address of a buffer as a core sees it, in the version that takes write (R277, R315). -/
def Buf.addrFor (b : Buf) (lcore : Nat) : Nat :=
  if b.tier = 0 then 0x100000000 + lcore * 0x1000000 + b.addr0 else b.target

/-- Write a core's relocations (R277). -/
def writeRelocs (s : State) (c : Nat) (img : List Byte) (bufs : List Buf) (idx lcore : Nat) : State :=
  (imgRecs img 0x08 16).foldl (fun s o =>
    if ¬ forCore (fld img o 1) idx then s
    else match bufs.find? fun b => b.id = fld img (o + 8) 2 with
      | some b => sramWrites s c (fld img (o + 4) 4) (leBytes 8 (b.addrFor lcore + fld img (o + 12) 4))
      | none => s) s

/-- Write a core's SRAMINIT data, starting exponents and relocations. -/
def initSram (s : State) (c : Nat) (img : List Byte) (bufs : List Buf) (idx lcore : Nat) : State :=
  let s := (sramInits img).foldl (fun s r => if forCore r.1 idx then sramWrites s c r.2.1 r.2.2 else s) s
  writeRelocs (writeS s c img idx) c img bufs idx lcore

/-- A core's SRAM reads as zero everywhere (R125). -/
def clearSram (s : State) (c : Nat) : State := { s with sram := memClear s.sram (sramKey c 0) 0x1000000 }

/-- Words of an image's code. -/
def imgCode (img : List Byte) : List W32 := (imgRecs img 0x01 4).map fun o => BitVec.ofNat 32 (fld img o 4)

/-- Entry word of reel 0 for a rectangle index. -/
def entryWord (img : List Byte) (idx : Nat) : Nat :=
  match imgSect img 0x02 with
  | some (o, _, _) => fld img (o + 2 * idx) 2
  | none => 0

/-- The barrier counters of a core at the start of a take (R130, R274): BARINIT, with CREDIT and FULL of the multicast groups
that it receives. -/
def initBars (img : List Byte) (idx : Nat) : Tab Bar :=
  let put := fun (t : Tab Bar) (key n : Nat) => tset {} t key { count := n }
  let t := (imgRecs img 0x05 4).foldl (fun t o => put t (fld img o 1) (fld img (o + 2) 2)) []
  (imgRecs img 0x0A 32).foldl (fun t o =>
    if fld img (o + 2) 1 ≠ idx then t
    else
      let mu := bits (fld img (o + 3) 1) 3 2
      put (put t (64 * mu + bits (fld img (o + 13) 1) 5 0) (fld img (o + 12) 1)) (64 * mu + bits (fld img (o + 14) 1) 5 0) 0) t

/-- Bound counters take their initial values, with empty windows and ledgers (R160, R163, R346). -/
def initWkc (s : State) (x : Slot) : State :=
  x.wkcs.foldl (fun s w =>
    let v := match (imgRecs x.img 0x06 8).find? fun o => bits (fld x.img o 2) 9 0 = bits w.1 9 0 with
      | some o => fld x.img (o + 4) 4
      | none => 0
    setWkc s w.2.2 { wkcOf s w.2.2 with value := v, init := v, window := [], ledger := [] }) s

-- The cut area (R341 to R343)

/-- A size rounded up to 4 KiB. -/
def page (n : Nat) : Nat := cdiv n 4096 * 4096

/-- Cuts of an image with the buffers they keep. -/
def cutsOf (img : List Byte) : List (Nat × Nat) := (imgRecs img 0x0E 4).map fun o => (fld img o 1, fld img (o + 2) 2)

/-- Insert a buffer in BUF_ID order. -/
def insertBuf (b : Buf) : List Buf → List Buf
  | [] => [b]
  | c :: t => if b.id ≤ c.id then b :: c :: t else c :: insertBuf b t

/-- Buffers kept live at a cut, in BUF_ID order (R342). -/
def liveBufs (x : Slot) (k : Nat) : List Buf :=
  (x.bufs.filter fun b => (cutsOf x.img).any fun e => e.1 = k ∧ e.2 = b.id).foldr insertBuf []

/-- Cores of an image. -/
def coreCount (img : List Byte) : Nat := imgRows img * imgCols img

/-- Bytes of the copies of a buffer. -/
def copyBytes (n : Nat) (b : Buf) : Nat := if b.tier = 0 then n * page b.size else page b.size

/-- Offset of the counter records in a half. -/
def cutCounters (img : List Byte) : Nat := page (1024 * coreCount img)

/-- Offset of the copies in a half. -/
def cutCopies (x : Slot) : Nat := cutCounters x.img + page (8256 * x.wkcs.length)

/-- Bytes of a half: the cut whose live buffers are largest decides. -/
def cutHalf (x : Slot) : Nat :=
  let live := (cutsOf x.img).map fun e => ((liveBufs x e.1).map (copyBytes (coreCount x.img))).foldl (· + ·) 0
  cutCopies x + live.foldl max 0

/-- Offsets of the copies of a cut's live buffers in a half. -/
def copyOffsets (x : Slot) (k : Nat) : List (Buf × Nat) :=
  ((liveBufs x k).foldl (fun a b => (a.1 ++ [(b, a.2)], a.2 + copyBytes (coreCount x.img) b)) ([], cutCopies x)).1

/-- Address of a half of the cut area. -/
def halfAddr (x : Slot) (half : Nat) : Nat := x.cutBase + half * cutHalf x

/-- A core's cut record (R343). -/
def cutRecord (s : State) (c k : Nat) : List Byte :=
  let x := core s c
  let r := reelOf x 0
  let tag := match x.take with | some t => t.2 | none => 0
  let b := (List.range 31).flatMap (fun i => leBytes 8 (r.get (i + 1)).toNat) ++ leBytes 1 (r.preds.toNat / 2 % 128) ++ zeros 1 ++
    leBytes 2 (r.pc % 32768) ++ leBytes 1 k ++ zeros 3 ++
    (List.range 16).flatMap (fun i => leBytes 4 (cget s (alAddr c i)).toNat) ++
    (List.range 256).flatMap (fun i => leBytes 2 (barOf x (i / 64) (i % 64)).count) ++ leBytes 4 tag ++ zeros 184
  b ++ leBytes 4 (crc32c b)

/-- A counter record (R342): the value and the ledger's bits. -/
def counterRecord (w : Wkc) : List Byte :=
  leBytes 4 w.value ++ zeros 60 ++ (List.range 8192).map fun i =>
    BitVec.ofNat 8 ((List.range 8).foldl (fun a j =>
      a + b2n (w.ledger.any fun e => e.1 = (w.init + 8 * i + j) % 2 ^ 32) * 2 ^ j) 0)

/-- Claims of a counter record's ledger, made by no core that is known any more. -/
def ledgerOf (init : Nat) (b : List Byte) : List (Nat × Nat) :=
  ((List.range 65536).filter fun j => bit (fld b (64 + j / 8) 1) (j % 8)).map fun j => ((init + j) % 2 ^ 32, 255)

-- Scales (R416, R417)

/-- The scale of every tag whose settings or history differ from reset, as a take latches it: of an AUTO tag the A of the
last commit with its MARGIN, and FIXED_EXP (R417). -/
def latchScales (s : State) : Tab ScaleSrc :=
  (s.csr.filter fun e => 0x808000 < e.1 ∧ e.1 < 0x810000 ∧ e.1 % 8 = 0).foldl (fun t e =>
    let tag := (e.1 - 0x808000) / 8
    let auto := decide (wbits e.2 63 62 = 0)
    tset {} t tag { a := if auto then e.2.setWidth 32 else 0, margin := if auto then tget 0 s.cal.margin tag else 0,
                    fixedExp := signed 8 (wbits e.2 47 40) }) []

/-- The expert settings of a core that a take latches at its start (R12). -/
def latchCfg (s : State) (c : Nat) : Tab W64 :=
  let mine := fun (a : Nat) => coreBase c ≤ a && a < coreBase c + 0x80000 &&
    match regAt a with
    | some (.csqCfg _) | some (.mxeCfg _) | some (.vceCfg _) | some (.muCfg _ _) | some (.muAgcfg _ _ _) | some (.fabCfg _) => true
    | _ => false
  s.csr.filter fun e => mine e.1

/-- Write a core's part of the copies of a cut's live buffers, or restore it (R344 step 2, R346): its own SRAM buffers whole, and
of each HBM buffer the 64 KiB pieces whose number modulo the core count is its index. -/
def copyPieces (x : Slot) (half k idx lcore : Nat) : List (Nat × Nat × Nat) :=
  (copyOffsets x k).flatMap fun e =>
    let b := e.1
    let at_ := halfAddr x half + e.2
    if b.tier = 0 then [(b.addrFor lcore, at_ + idx * page b.size, b.size)]
    else ((List.range (cdiv b.size 65536)).filter fun j => j % coreCount x.img = idx).map fun j =>
      (b.target + j * 65536, at_ + j * 65536, min 65536 (b.size - j * 65536))

/-- Copy ranges in order; the access that fails and its address otherwise. -/
def copyRanges : List (Nat × Nat × Nat) → State → Except Failed State
  | [], s => .ok s
  | g :: t, s =>
    match readMem s g.1 g.2.2 with
    | (.done, d) => match writeMem s g.2.1 d with
      | (.done, s) => copyRanges t s
      | (e, _) => .error (e, g.2.1)
    | (e, _) => .error (e, g.1)

/-- Swap source and destination of ranges. -/
def flipRanges (l : List (Nat × Nat × Nat)) : List (Nat × Nat × Nat) := l.map fun g => (g.2.1, g.1, g.2.2)

end Sys2Proof.Machine
end

