-- ==== Sys2Proof/Machine/Take.lean ====
section
/-! DEFINITION. Takes: cuts and the end of a take (R230, R231, R344), starting (R313, R345, R346, R378, R417), commit (R317 to
R320, R414 to R417), deadlines (R337), clearing (R334) and completions written again (R304). -/
namespace Sys2Proof.Machine

open Sys2Proof

-- Cuts and TEND (R230, R231)

/-- CSQ_CUT.LAST of a core. -/
def cutLast (s : State) (c : Nat) : Nat := wbits (cget s (csqBase c + 0x40)) 7 0

/-- Cores of the placement of a core, itself included. -/
def placeMates (s : State) (c : Nat) : List Nat :=
  match (core s c).place with
  | some p => coresOf s p.slot
  | none => []

/-- The cut at which a core stands, if it does. -/
def cutOf (s : State) (c : Nat) : Option Nat :=
  match (reelOf (core s c) 0).hold with
  | .cut k _ => some k
  | _ => none

/-- Whether another core of the placement stands at a cut with a property. -/
def mateAtCut (s : State) (c : Nat) (p : Nat → Bool) : Bool :=
  (placeMates s c).any fun d => d ≠ c && match cutOf s d with | some k => p k | none => false

/-- CUT (R230): its checks, then the reel is held at the cut; what follows is done as its fence and the cut complete. -/
def execCut (q : Issue) (k : Nat) (s : State) : Out :=
  let c := q.core
  finlenOp q (.cut q k) s fun s =>
    let x := core s c
    let r := runningReel s c
    if x.running ≠ 0 ∨ r.loops ≠ [] ∨ r.rets ≠ [] ∨ othersStarted x then trapHere s c 0x12 k 0
    else if k ≤ cutLast s c ∨ mateAtCut s c (· ≠ k) then trapHere s c 0x11 k 0
    else
      let s := stepPc s c (.cut q k)
      modRunning s c fun r => { r with hold := .cut k ((core s c).issued + 1) }

/-- TEND (R231): in reel 0 only, once the other reels are not started; then the reel is held until its fence completes. -/
def execTend (q : Issue) (s : State) : Out :=
  let c := q.core
  let x := core s c
  finlenWait q (.tend q) s (x.running ≠ 0 || !othersStarted x) fun s =>
    if x.running ≠ 0 then trapHere s c 0x13 x.running 0
    else if mateAtCut s c fun _ => true then trapHere s c 0x11 0 0
    else
      let s := stepPc s c (.tend q)
      modRunning s c fun r => { r with hold := .tend ((core s c).issued + 1) }

/-- The half that the next cut of a command is written to: not the one that holds its last recorded cut (R344). -/
def nextHalf (e : Entry) : Nat := if e.cut = 0 then 0 else 1 - e.cutHalf

/-- The first landing of a take that no seal has published and whose queue pair is dead: it aborted the landing (R358). -/
def deadLanding (s : State) (t : Take) : Option Bound := t.bound.find? fun l => ¬ l.done ∧ ¬ qpLive s l.peer

/-- Send the SEAL of every landing of a take that has none yet (R316, R364). A seal on a dead queue pair ends the command (R358). -/
def sealTake (s : State) (t : Take) : State :=
  match deadLanding s t with
  | some l => killAndEnd s t.stream t.seq (landingLost t l.landing l.peer)
  | none => (landingsOf s t.stream t.seq).foldl (fun s l =>
      if l.sealing then s
      else
        let mark := fun (q : Landing) => { q with sealing := true }
        sendControl { s with net := { s.net with landings := updFirst (fun q => q = l) mark s.net.landings } } l 2) s

/-- Steps 2 to 4 of R344, when the last core has reached the cut: the cores copy the live buffers, the intake copies the
counters and sends the seals. -/
def cutCopy (s : State) (t : Take) (e : Entry) (k : Nat) : State :=
  let x := slotOf s t.slot
  let half := nextHalf e
  let pieces := (coresOf s t.slot).flatMap fun c => match (core s c).place with
    | some p => copyPieces x half k p.index p.lcore
    | none => []
  let counters := x.wkcs.zipIdx.map fun w => (halfAddr x half + cutCounters x.img + 8256 * w.2, counterRecord (wkcOf s w.1.2.2))
  match copyRanges pieces s with
  | .error f => accessFail s ((coresOf s t.slot).headD 0) f.1 f.2
  | .ok s => sealTake (counters.foldl (fun s w => (writeMem s w.1 w.2).2) s) t

/-- Whether every core of a placement has reached CUT k with its record written. -/
def allAtCut (s : State) (slot k : Nat) : Bool :=
  (coresOf s slot).all fun c => decide (cutOf s c = some k ∧ cutLast s c = k)

/-- Step 4 of R230 on a core: the cut record is written and LAST is set; the last core starts what R344 does next. -/
def reachCut (s : State) (c k : Nat) : State :=
  match (core s c).place, takeOfCore s c with
  | some p, some t => match findEntry s t.stream t.seq with
    | none => s
    | some e =>
      let a := halfAddr (slotOf s p.slot) (nextHalf e) + 1024 * p.index
      match writeMem s a (cutRecord s c k) with
      | (.done, s) =>
        let s := cput s (csqBase c + 0x40) 7 0 k
        if allAtCut s p.slot k then cutCopy s t e k else s
      | (r, s) => accessFail s c r a
  | _, _ => s

/-- CUT_RECORDED (R344 step 5): copies made and seals acknowledged, the intake records k and releases the cores. -/
def execCutRecorded (st : Nat) (s : State) : Out :=
  match headEntry s st with
  | none => .next s
  | some e => match takeOfCmd s st e.seq with
    | none => .next s
    | some t =>
      let cs := coresOf s t.slot
      match cs.head?.bind (cutOf s) with
      | none => .next s
      | some k =>
        when_ (ready s && !t.killed && allAtCut s t.slot k && (landingsOf s st e.seq).isEmpty) s <|
          let s := modEntry s st e.seq fun e => { e with cut := k, cutHalf := nextHalf e, cutTag := t.tag }
          cs.foldl (fun s c => modCore (cput s (csqBase c + 0x40) 15 8 k) c fun x =>
            withReel x 0 { reelOf x 0 with hold := .free }) s

-- The end of a take (R231, R316, R381, R383)

/-- The LOCAL buffer of a STEP command. -/
def localBuf (s : State) (slot : Nat) (e : Entry) : Option Buf :=
  (slotOf s slot).bufs.find? fun b => b.id = fld e.body 208 2 ∧ b.kind = 3

/-- A take that has ended leaves its cores. -/
def freeCores (s : State) (slot : Nat) : State :=
  let s := (coresOf s slot).foldl (fun s c => modCore s c fun x => { x with share := .none, take := none }) s
  let x := slotOf s slot
  setSlot s slot { x with state := if x.state = .running then .placed else x.state }

/-- A take leaves the intake: its cores idle unless another take is starting there (R423), the superseded regions that it read return (R26),
and what waited for a place that it held goes on (R202). -/
def freeTake (s : State) (t : Take) : State :=
  postAll (releaseOld (restCores (dropTake (freeCores s t.slot) t.stream t.seq) t.slot))

/-- A take that ended with a Final status pending ends its command (R159, R317 step 2). -/
def endFinal (s : State) (t : Take) (f : Nat × Nat × Nat × Nat) : State :=
  let s := freeTake (abortLandings s t.stream t.seq) t
  finish s t.stream t.seq { status := f.1, lcore := f.2.1, detail := f.2.2.1, value := f.2.2.2 }

/-- Every core of a placement has executed TEND: the intake seals the landings; of a STEP, the local contribution counts. -/
def endTake (s : State) (t : Take) : State :=
  let kc := s.kc
  let s := modTake s t.stream t.seq fun t => { t with ended := true, endKc := kc }
  match findEntry s t.stream t.seq, t.final with
  | none, _ => s
  | some e, some f => if e.cls = 1 then endFinal s t f else countStep (sealTake s t) e
  | some e, none => countStep (sealTake s t) e
where
  /-- The LOCAL buffer of a STEP is counted. -/
  countStep (s : State) (e : Entry) : State :=
    match (if e.cls = 2 then localBuf s t.slot e else none) with
    | some b => countLocal s t.run e.step b.addr0
    | none => s

/-- FENCE_RELEASE (R228, R230, R231): what a held reel waits for is complete. A FENCE lets it go on, a CUT writes the cut record,
a TEND ends the core's share. -/
def execFenceRelease (c reel : Nat) (s : State) : Out :=
  let x := core s c
  onUnit (coreOk c && reelOk reel) s <|
    if ¬ engineLive s c ∨ x.trapped ∨ x.share ≠ .running then .next s
    else match (reelOf x reel).hold with
      | .fence m l => when_ (fenceDone s c m l) s (setCore s c (withReel x reel { reelOf x reel with hold := .free }))
      | .cut k l => when_ (decide (cutLast s c ≠ k) && fenceDone s c 7 l) s (reachCut s c k)
      | .tend l =>
        when_ (fenceDone s c 7 l) s <|
          let s := setCore s c { x with share := .ended }
          match takeOfCore s c with
          | some t => if (coresOf s t.slot).all fun d => (core s d).share = .ended then endTake s t else s
          | none => s
      | _ => .next s

-- Who may start (R339, R424)

/-- Whether a take, running or not yet clear, has a slot. -/
def slotBusy (s : State) (slot : Nat) : Bool := s.intake.takes.any fun t => t.slot = slot

/-- Entries past their head moment that wait to start a take on a slot. -/
def waitersOf (s : State) (slot : Nat) : List Entry :=
  s.intake.log.filter fun e => e.unfinished ∧ e.hasTake ∧ e.head ∧ slotOfHandle e.handle = slot ∧ (takeOfCmd s e.stream e.seq).isNone

/-- Whether one waiter starts before another (R339): deadline commands first, the one that has pre-empted before all (R347), then by head moment
plus DEADLINE; the rest in the order in which they began to wait. The time of a head moment is known to a power reading only: where that does not decide, the order of
the head moments does. DESIGN CHOICE (log 77). -/
def before (a b : Entry) : Bool :=
  if a.deadline ≠ 0 ∧ b.deadline ≠ 0 then
    let x := 120 * a.headKc + a.deadline
    let y := 120 * b.headKc + b.deadline
    if a.starting ≠ b.starting then a.starting
    else if a.deadline = b.deadline ∨ x = y then decide (a.headNo < b.headNo) else decide (x < y)
  else if a.deadline ≠ 0 then true
  else if b.deadline ≠ 0 then false
  else decide (a.waitFrom < b.waitFrom)

/-- Whether an entry is the next to start on its slot. -/
def isTurn (s : State) (e : Entry) : Bool :=
  (waitersOf s (slotOfHandle e.handle)).all fun q => (q.stream = e.stream ∧ q.seq = e.seq) || !before q e

/-- Controllers that hold a buffer of an image (R424). -/
def bufCtls (x : Slot) : List Nat :=
  x.bufs.flatMap fun b => if b.tier = 0 then [] else [ctlOf b.addr0, ctlOf b.addr1].filterMap id

/-- Whether a slot's cores are awake, or idle and so awake at once. -/
def slotAwake (s : State) (slot : Nat) : Bool :=
  (coresOf s slot).all fun c => let x := core s c; (x.power = .run ∨ x.power = .idle) && !x.waking && !x.napping && !x.fenced

/-- Addresses of the roots of a run and of the slice tables and slices that they name. -/
def runAddrs (s : State) (r : Run) : List Nat :=
  (List.range r.nshards).flatMap fun i => rootAddr s r i :: (rootRegions s (rootOf s r i)).map (· * 65536)

/-- The controllers that a command needs (R424): those that hold a buffer of its image or, of a STEP, a root or slice that it reads. -/
def needsCtls (s : State) (e : Entry) : List Nat :=
  bufCtls (slotOf s (slotOfHandle e.handle)) ++
    match (if e.cls = 2 then stepRun s e else none) with
    | none => []
    | some r => (runAddrs s r).filterMap ctlOf

/-- Whether the memories that a command needs are out of self-refresh. -/
def memsAwake (s : State) (e : Entry) : Bool := (needsCtls s e).all fun k => decide ((ctl s k).state ≠ .selfRefresh)

-- STEP at a take's start (R371, R378, R392)

/-- The epoch that a STEP take latches: the largest FROM_STEP that is at most its step number. -/
def latchEpoch (s : State) (n : Nat) : Option EpochSt :=
  match s.net.current, s.net.staged with
  | some c, some g => if g.fromStep ≤ n ∧ c.fromStep ≤ g.fromStep then some g else if c.fromStep ≤ n then some c
      else if g.fromStep ≤ n then some g else none
  | some c, none => if c.fromStep ≤ n then some c else none
  | none, some g => if g.fromStep ≤ n then some g else none
  | none, none => none

/-- A latched staged epoch becomes current, and the former current one is dropped. -/
def adoptEpoch (s : State) (x : Option EpochSt) : State :=
  if x.isSome ∧ x = s.net.staged then { s with net := { s.net with current := x, staged := none } } else s

/-- The collective state of a step as a take of it opens it, from the latched epoch and the step section. A verdict that came early under
another epoch is discarded (R404). -/
def stepOf (s : State) (r : Run) (e : Entry) (ep : Option EpochSt) : StepSt :=
  let old := stepSt s r.id e.step
  let base : StepSt := old.getD { run := r.id, step := e.step, gen := r.nextGen }
  let fresh : Bool := match old with | some x => !x.isOpen && !x.closed | none => true
  let x := { base with stream := e.stream, seq := e.seq, sect := slice e.body 192 64, timedOut := false }
  if ¬ fresh then x
  else match ep with
    | some p => { x with epoch := p.num, self := p.self, gen := r.nextGen, verdict := if x.epoch = p.num then x.verdict else 0,
                         members := sortAsc (p.members.map fun m => 4096 * (qp s m).devId + m) }
    | none => { x with epoch := 0, gen := r.nextGen, verdict := if x.epoch = 0 then x.verdict else 0 }

/-- Why a STEP take may not start: memory that it reads fails (status, address), or a check of R378 fails (reason). -/
inductive StepBar where
  | lost (status addr : Nat)
  | conflict (reason : Nat)
  | ring
deriving DecidableEq, Repr

/-- Status code of a failed access (R319). -/
def accessCode : Access → Nat
  | .unmapped => 0x11
  | .keyDenied => 0x13
  | _ => 0x07

/-- Bytes that a STEP take reads at its start, or how the reading fails. -/
def stepRead (s : State) (a len : Nat) : Except StepBar (List Byte) :=
  if a = 0 then .ok []
  else match readMem s a len with
    | (.done, d) => .ok d
    | (r, _) => .error (.lost (accessCode r) a)

/-- The microprogram of a step section, its header and its ops (R402). -/
def readProg (s : State) (a : Nat) : Except StepBar (List Byte) :=
  match stepRead s a 64 with
  | .ok b => if a = 0 ∨ 64 < fld b 0 1 then .ok b else stepRead s a (64 + 4 * fld b 0 1)
  | .error e => .error e

/-- Whether a sign-ring generation still holds signs that a slow-tier update of a run has to read (R392). -/
def ringBusy (s : State) (r : Run) (n gen : Nat) : Bool :=
  s.cen.steps.any fun y => decide (y.run = r.id ∧ y.step ≠ n ∧ y.gen = gen ∧ y.verdict = 1) &&
    (List.range r.nshards).any fun i => decide (1 ≤ rtLag (rootOf s r i) ∧ tget 0 r.done i < y.step)

/-- The checks of R378 at a take's start, after the epoch is latched: the roots it latches, then the reasons in code order. -/
def stepChecks (s : State) (r : Run) (x : StepSt) : Except StepBar (List (Nat × List Byte) × StepSt) :=
  let roots := (List.range r.nshards).map fun i => (i, rootOf s r i)
  let total := localTotal s r x x.self
  let later := s.cen.steps.any fun y => y.run = r.id ∧ y.verdict ≠ 0 ∧ r.lastStep < y.step ∧ y.step ≠ x.step
  let layers := (roots.map fun e => rtLayer e.2).foldl max 0
  match runLost s r, roots.find? fun e => !rootOk e.2 with
  | some a, _ => .error (.lost 7 a)
  | none, some e => .error (.lost 7 (rootAddr s r e.1))
  | none, none =>
    match stepRead s (fld x.sect 52 6) (layers / 8 + 1), readProg s (fld x.sect 58 6) with
    | .error e, _ | .ok _, .error e => .error e
    | .ok frz, .ok prog =>
      if later then .error (.conflict 0x55)
      else if r.tlen < 2 * total + total / 4096 then .error (.conflict 0x56)
      else if x.fullGrad ∧ (16 < x.devs.length ∨ ¬ x.drop) then .error (.conflict 0x57)
      else if bit (fld x.sect 24 1) 2 ∧ progBad prog then .error (.conflict 0x58)
      else if ringBusy s r x.step x.gen then .error .ring
      else .ok (roots, { x with frozen := frz, uprog := prog })

-- Starting (R313, R345, R346)

/-- A command's name in CIN_PROG's order of takes on a slot. -/
def cmdKey (st seq : Nat) : Nat := st * 2 ^ 48 + seq

/-- Whether a retake is to start from the command's last recorded cut (R345). -/
def wantsCut (x : Slot) (e : Entry) : Bool :=
  decide (e.cut ≠ 0) && e.retakeCut && decide (x.lastTake = cmdKey e.stream e.seq)

/-- Whether every cut record of the half that holds a command's last cut passes CHECK and TAG (R346). -/
def cutRecordsOk (s : State) (x : Slot) (e : Entry) : Bool :=
  (List.range (coreCount x.img)).all fun i =>
    match readMem s (halfAddr x e.cutHalf + 1024 * i) 1024 with
    | (.done, b) => crcOk b 1020 && decide (fld b 832 4 = e.cutTag ∧ fld b 252 1 = e.cut)
    | _ => false

/-- Whether a retake starts from the command's last recorded cut (R345). -/
def fromCut (s : State) (x : Slot) (e : Entry) : Bool :=
  wantsCut x e && cutRecordsOk s x e

/-- The first range that a retake from a cut reads and cannot (R176, R177): records, live buffers, counters. -/
def cutLost (s : State) (x : Slot) (slot : Nat) (e : Entry) : Option Nat :=
  if ¬ wantsCut x e then none
  else
    let recs := (List.range (coreCount x.img)).map fun i => (halfAddr x e.cutHalf + 1024 * i, 1024)
    let live := (coresOf s slot).flatMap fun c => match (core s c).place with
      | some p => (copyPieces x e.cutHalf e.cut p.index p.lcore).map fun g => (g.2.1, g.2.2)
      | none => []
    let ctrs := x.wkcs.zipIdx.map fun w => (halfAddr x e.cutHalf + cutCounters x.img + 8256 * w.2, 8256)
    match recs.findSome? fun g => lostAt s g.1 g.2 with
    | some a => some a
    | none => if cutRecordsOk s x e then (live ++ ctrs).findSome? fun g => lostAt s g.1 g.2 else none

/-- A core as a take finds it at its start (R346). The accumulator sets go on in turn where the last take left them: DESIGN CHOICE (log 71). -/
def freshCore (s : State) (c : Nat) (p : Place) (img : List Byte) (tk : Nat × Nat) : Core :=
  let x := core s c
  { code := x.code, place := x.place, power := .run, issued := x.issued, take := some tk, share := .running,
    mxe := { x.mxe with pass := none, drains := [] }, cfg := latchCfg s c, stus := stalledStus x, took := true, placed := true, ctrReqs := x.ctrReqs.filter (·.copying), bars := initBars img p.index,
    reels := [(0, { started := true, pc := entryWord img p.index })] }

/-- A reel 0 restored from a cut record (R343, R346). -/
def cutReel (b : List Byte) : Reel :=
  { started := true, pc := fld b 250 2 % 32768, preds := BitVec.ofNat 8 (fld b 248 1 * 2),
    regs := (List.range 31).foldl (fun t i => tset 0 t (i + 1) (BitVec.ofNat 64 (fld b (8 * i) 8))) [] }

/-- Barrier counters restored from a cut record. -/
def cutBars (b : List Byte) : Tab Bar :=
  (List.range 256).foldl (fun t k => tset {} t k { count := fld b (320 + 2 * k) 2 }) []

/-- Start one core of a take: SRAM, registers and counters. `cut` is the half's address when it starts from a cut. -/
def startCore (s : State) (x : Slot) (e : Entry) (tk : Nat × Nat) (cut : Option Nat) (ep : Nat) (c : Nat) : State :=
  match (core s c).place with
  | none => s
  | some p =>
    let y := freshCore s c p x.img tk
    let s := setCore (initSram s c x.img x.bufs p.index p.lcore) c y
    let s := cset (cput s (csqBase c + 0x10) 63 63 0) (csqBase c + 0x28) 0
    let s := cset (cset s (csqBase c + 0x50) (BitVec.ofNat 64 ep)) (csqBase c + 0x58) (BitVec.ofNat 64 e.step)
    let al := fun (s : State) (b : List Byte) (off : Nat) =>
      (List.range 16).foldl (fun s i => cset s (alAddr c i) (BitVec.ofNat 64 (fld b (off + 4 * i) 4))) s
    match cut with
    | none => cset (al s e.body 64) (csqBase c + 0x40) 0
    | some a =>
      let b := devReads s (a + 1024 * p.index) 1024
      let s := setCore (al s b 256) c { y with reels := [(0, cutReel b)], bars := cutBars b }
      cset s (csqBase c + 0x40) (BitVec.ofNat 64 (e.cut * 257))

/-- Restore what a cut keeps (R346): live buffers and the work counters with their ledgers. -/
def restoreCut (s : State) (x : Slot) (slot : Nat) (e : Entry) : State :=
  let pieces := (coresOf s slot).flatMap fun c => match (core s c).place with
    | some p => flipRanges (copyPieces x e.cutHalf e.cut p.index p.lcore)
    | none => []
  let s := pieces.foldl (fun s g => (writeMem s g.2.1 (devReads s g.1 g.2.2)).2) s
  x.wkcs.zipIdx.foldl (fun s w =>
    let b := devReads s (halfAddr x e.cutHalf + cutCounters x.img + 8256 * w.2) 8256
    let old := wkcOf s w.1.2.2
    setWkc s w.1.2.2 { old with value := fld b 0 4, ledger := ledgerOf old.init b, window := [] }) s

/-- Start a take of an entry on its slot. `x` is the collective state of its step, and the roots it latched. -/
def beginTake (s : State) (e : Entry) (ep : Option EpochSt) (sx : Option (List (Nat × List Byte) × StepSt)) : State :=
  let slot := slotOfHandle e.handle
  let x := slotOf s slot
  let cut := fromCut s x e
  let tag := (s.intake.lastTag + 1) % 2 ^ 32
  let step := sx.map (·.2)
  let epw := match step with | some y => y.self * 2 ^ 32 + y.epoch | none => 0
  let t : Take := { stream := e.stream, seq := e.seq, slot := slot, tag := tag, no := e.take + 1,
                    epoch := (match step with | some y => y.epoch | none => 0), self := (match ep with | some p => p.self | none => 0),
                    run := (match step with | some y => y.run | none => 65536), roots := (match sx with | some y => y.1 | none => []),
                    scales := latchScales s, latch := latchRoots s }
  let s := if 1 ≤ e.take then bump s 0x200028 1 else s
  let s := if cut then bump s 0x200040 1 else s
  let beyond : Bool := (List.range 16).any fun i => alBeyond x.img i (fld e.body (64 + 4 * i) 4)
  let s := modEntry s e.stream e.seq fun q =>
    { q with state := .running, take := q.take + 1, tag := tag, busyTake := false, retakeCut := true, starting := false, waitReason := 0, waitFrom := 0, cut := if cut then q.cut else 0, boundVoid := q.boundVoid || beyond }
  let s := { s with intake := { s.intake with lastTag := tag, takes := s.intake.takes ++ [t] } }
  let s := setSlot s slot { x with state := .running, lastTake := cmdKey e.stream e.seq }
  let s := turnStream s e.stream .running
  let s := initWkc s x
  let s := (coresOf s slot).foldl (fun s c =>
    startCore s x e (e.stream, tag) (if cut then some (halfAddr x e.cutHalf) else none) epw c) s
  let s := if cut then restoreCut s x slot e else s
  match step with
  | none => s
  | some y =>
    let known := (stepSt s y.run y.step).isSome
    let opened := y.isOpen || y.closed
    let wrong := (stepSt s y.run y.step).any fun z => decide (z.verdict ≠ y.verdict)
    let s := if wrong then cenRepeat s else s
    let s := if known then modStep s y.run y.step fun _ => y else modCen s fun z => { z with steps := z.steps ++ [y] }
    let s := if opened then s else modRun s y.run fun r => { r with nextGen := (y.gen + 1) % max 1 r.gens }
    openStep s y.run y.step

/-- TAKE_START (R313): the head command of a stream, past its head moment, starts a take when the placement is free, awake and
its turn has come, with no switch of the timetable ahead that changes its slots (R141). A STEP first latches its epoch and roots and makes the checks of R378. -/
def execTakeStart (st : Nat) (s : State) : Out :=
  match headEntry s st with
  | none => .next s
  | some e =>
    let slot := slotOfHandle e.handle
    let x := slotOf s slot
    if ¬ ready s ∨ ¬ e.hasTake ∨ ¬ e.head ∨ (stream s st).state = .halted ∨ slotBusy s slot ∨ x.state ≠ .placed ∨ ¬ isTurn s e ∨
        ¬ slotAwake s slot ∨ ¬ memsAwake s e ∨ ¬ bankSettled s slot then .next s
    else if 65535 ≤ e.take then .next (finish s st e.seq { status := 2, reason := 8 })
    else match cutLost s x slot e with
    | some a => .next (finish (logLoss s .dataLoss a) st e.seq { status := 7, detail := a % 2 ^ 48 })
    | none =>
    if e.cls = 1 then .next (beginTake s e none none)
    else match stepRun s e with
      | none => .next (finish s st e.seq { status := 2, reason := 0x54, cycles := some 0 })
      | some r =>
        let ep := latchEpoch s e.step
        let s := adoptEpoch s ep
        match stepChecks s r (stepOf s r e ep) with
        | .error (.lost code a) =>
          .next (finish (if code = 7 then logLoss s .dataLoss a else s) st e.seq { status := code, detail := a % 2 ^ 48, cycles := some 0 })
        | .error (.conflict n) => .next (finish s st e.seq { status := 2, reason := n, cycles := some 0 })
        | .error .ring => .next (waitFor s st e.seq 3)
        | .ok y => .next (beginTake s e ep (some y))

-- Commit (R315 to R320, R414 to R417)

/-- The magnitude an entry of a tag's history counts for (R415). -/
def counted (rpt : Nat) (h : W32 × Bool) : W32 := if h.2 then r32 ((d32 h.1).mul (.fin false (2 ^ rpt) 1)) else h.1

/-- Add an entry to a tag's history and form A (R414, R417). -/
def addHist (s : State) (marks : List Nat) (e : Nat × W32) : State :=
  let a := 0x808000 + 8 * e.1
  let w := cget s a
  let h := ((e.2, decide (e.1 ∈ marks)) :: tget [] s.cal.hist e.1).take 16
  let top := ((h.take (wbits w 61 58 + 1)).map (counted (wbits w 54 52))).foldl maxMag 0
  let s := { s with cal := { s.cal with hist := tset [] s.cal.hist e.1 h, margin := tset 0 s.cal.margin e.1 (wbits w 57 55) } }
  let s := cput s a 31 0 top.toNat
  if e.1 ∈ marks then bump s 0x800028 1 else s

/-- The larger of what two tables recorded for each tag. -/
def mergeExpo (t l : Tab (Option W32)) : Tab (Option W32) :=
  l.foldl (fun t e => match e.2, tget none t e.1 with
    | none, _ => t
    | some v, none => tset none t e.1 (some v)
    | some v, some w => tset none t e.1 (some (maxMag w v))) t

/-- What a committed take recorded for exposure tags: the largest value of each over its cores, those that have left it since its end with
them (R414). -/
def takeExpo (s : State) (t : Take) : Tab W32 :=
  ((coresOf s t.slot).foldl (fun l c => mergeExpo l (core s c).red.expo) t.expo).filterMap fun e => e.2.map fun v => (e.1, v)

/-- The VERSIONED buffers in BUF_ID order (R302, R320). -/
def versioned (bufs : List Buf) : List Buf := (bufs.filter fun b => b.kind = 2).foldr insertBuf []

/-- The publication list (R320). -/
def pubList (bufs : List Buf) : List Byte :=
  (versioned bufs).flatMap fun b =>
    leBytes 2 b.id ++ zeros 6 ++ leBytes 8 (if b.pub = 0 then b.addr0 else b.addr1)

/-- Flip the published index of each VERSIONED buffer to the version that the take wrote (R315). -/
def flipBufs (bufs : List Buf) : List Buf := bufs.map fun b => if b.kind = 2 then { b with pub := 1 - b.pub } else b

/-- Write a publication list on the stream's queue pair, when PUBADDR asks for one (R320). -/
def writePub (s : State) (e : Entry) (bufs : List Buf) : State :=
  let q := stream s e.stream
  if e.pubaddr = 0 then s else (pieces (pubList bufs)).foldl (fun s p => send s q.qp .hostWrite q.ckey (e.pubaddr + p.1) p.2) s

/-- Steps 4 to 7 of R317: the commit list, the mark, the indices and the roots, the publication list, and the Final. -/
def commitTake (s : State) (e : Entry) (t : Take) (status : Nat) (ups : List Update) : State :=
  let x := slotOf s t.slot
  let bufs := flipBufs x.bufs
  let cl : CommitList := { indices := (versioned bufs).map fun b => (b.id, b.pub), step := e.step,
                           roots := ups.map fun u => (u.shard, u.root) }
  let place := storePlace s cl.granules
  let s := modEntry s e.stream e.seq fun e => { e with clist := some cl, clistAt := place }
  let s := setSlot s t.slot { x with bufs := bufs }
  let s := match stepRun s e with
    | some r =>
      let s := ups.foldl (fun s u => publishUpdate s r u) s
      if e.cls = 2 then modRun s r.id fun r =>
        { r with lastStep := e.step, commits := if status = 0 then (e.step :: r.commits).take 4 else r.commits } else s
    | none => s
  let s := if e.cls = 2 then { s with net := { s.net with pastStep := max s.net.pastStep (e.step + 1) } } else s
  let s := (takeExpo s t).foldl (fun s v => addHist s e.marks v) s
  finish (writePub (freeTake s t) e bufs) e.stream e.seq { status := status }

/-- COMMIT (R317): a command whose take has ended, whose landings are all sealed, and whose conditions hold commits; a STEP
needs its verdict, and under UPDATE every SIGNS and every update that the commit publishes (R24, R25, R394). -/
def execCommit (st : Nat) (s : State) : Out :=
  match headEntry s st with
  | none => .next s
  | some e => match takeOfCmd s st e.seq with
    | none => .next s
    | some t =>
      if ¬ ready s ∨ ¬ t.ended ∨ t.killed ∨ ¬ (landingsOf s st e.seq).isEmpty then .next s
      else match t.final with
        | some f => .next (endFinal s t f)
        | none =>
          if e.cls = 1 then .next (commitTake s e t 0 [])
          else match runById s t.run, stepSt s t.run e.step with
            | some r, some x =>
              if x.verdict = 2 then .next (commitTake s e t 9 [])
              else match runLost s r with
              | some a => .next (endFinal (logLoss s .dataLoss a) t (0x07, 0xFF, a % 2 ^ 48, 0))
              | none =>
              if ¬ hasSigns r x then .next s
              else match toPublish s r e.step with
                | some ups => .next (commitTake s e t 0 ups)
                | none => match s.upu.updates.find? fun u => u.run = t.run ∧ u.stream = 256 ∧ u.state = .waiting with
                  | some u => .next (reserveUpdate s u)
                  | none => .next s
            | _, _ => .next s

-- Deadlines, clearing, completions (R304, R334, R337)

/-- DEADLINE_PASSED (R337, R347): DEADLINE passes before the last TEND; the take, if any, is killed and the command ends. -/
def execDeadlinePassed (st : Nat) (s : State) : Out :=
  match headEntry s st with
  | none => .next s
  | some e =>
    let ended := match takeOfCmd s st e.seq with | some t => t.ended | none => false
    when_ (ready s && e.hasTake && e.head && decide (e.deadline ≠ 0) && !ended) s
      (killAndEnd (bump s 0x200048 1) st e.seq { status := 2, reason := 0x41 })

/-- PLACEMENT_CLEAR (R334 phase 5): every core of a killed take has reported clear, and the placement is free. -/
def execPlacementClear (slot : Nat) (s : State) : Out :=
  onUnit (slotOk slot) s <|
    match s.intake.takes.find? fun t => t.slot = slot ∧ t.killed with
    | none => .next s
    | some t => when_ (ready s) s (freeTake s t)

/-- COMPLETION_REWRITE (R304): the oldest completion of a stream that the transport has not acknowledged is written again. -/
def execCompletionRewrite (st : Nat) (s : State) : Out :=
  let q := stream s st
  let out := (qp s q.qp).sendq ++ (qp s q.qp).held
  onUnit (streamOk st) s <|
    match (liveOf s st).find? fun e => out.any fun m => m.kind = .completion st e.seq with
    | none => .next s
    | some e => when_ (ready s) s (send s q.qp (.completion st e.seq) q.ckey (fld e.body 16 8) e.comp)

end Sys2Proof.Machine
end

