-- ==== Sys2Proof/Machine/Intake.lean ====
section
/-! DEFINITION. The command intake: windows and records (R291 to R294), legality (R295 to R299, R355, R359, R368, R369, R371,
R374, R377, R473, R491), acceptance (R298 to R302), RESUME (R311) and retiring (R305). -/
namespace Sys2Proof.Machine

open Sys2Proof

-- Windows (R291, R293)

/-- The number of a slot of a window. -/
def slotNo (st sl : Nat) : Nat := 256 * st + sl

/-- The 4 KiB of a slot. -/
def windowSlot (s : State) (st sl : Nat) : List Byte := slice (tget [] s.intake.windows (slotNo st sl)) 0 4096

/-- Bytes of a record. -/
def recLen (b : List Byte) : Nat := 64 * fld b 3 1

/-- Whether a slot holds a record (R293). -/
def isRecord (b : List Byte) : Bool :=
  decide (1 ≤ fld b 3 1 ∧ fld b 3 1 ≤ 64) &&
    decide (fld b 60 4 = crc32c (slice b 0 60 ++ zeros 4 ++ slice b 64 (recLen b - 64)))

/-- Change the intake. -/
def modIntake (s : State) (f : Intake → Intake) : State := { s with intake := f s.intake }

/-- The slots of a window that a range of it touches. -/
def slotsIn (off len : Nat) : List Nat :=
  if len = 0 then [] else (List.range ((off + len - 1) / 4096 - off / 4096 + 1)).map (off / 4096 + ·)

/-- Their numbers. -/
def windowSlots (st off len : Nat) : List Nat := (slotsIn off len).map (slotNo st)

/-- Put bytes of a message into a window at an offset. -/
def windowWrite (s : State) (st off : Nat) (d : List Byte) : State :=
  (slotsIn off d.length).foldl (fun s k =>
    let lo := max off (4096 * k)
    let hi := min (off + d.length) (4096 * (k + 1))
    let b := putBytes (windowSlot s st k) (lo - 4096 * k) ((d.drop (lo - off)).take (hi - lo))
    modIntake s fun x => { x with windows := tset [] x.windows (slotNo st k) b }) s

-- Legality of classes (R295 to R297, R299)

/-- FP32 field of a record. -/
def recF32 (b : List Byte) (off : Nat) : Num := d32 (BitVec.ofNat 32 (fld b off 4))

/-- Whether a value is finite, and at least (or, strictly, above) zero. -/
def finitePos (strict : Bool) (v : Num) : Bool :=
  match v with
  | .fin neg n _ => decide (n = 0 ∨ neg = false) && (!strict || decide (n ≠ 0))
  | _ => false

/-- The step section of R377 within its ranges. -/
def stepLegal (b : List Byte) : Bool :=
  let one : Num := .fin false 1 1
  decide (1 ≤ fld b 192 8 ∧ fld b 210 2 ≤ 4096 ∧ fld b 216 1 < 16) && zeroAt b 217 3 &&
    finitePos true (recF32 b 220) && finitePos false (recF32 b 224) && (recF32 b 224).lt one &&
    finitePos false (recF32 b 228) && finitePos true (recF32 b 232) && decide (1 ≤ bits (fld b 232 4) 30 23) &&
    finitePos true (recF32 b 236) && (bit (fld b 216 1) 2 || zeroAt b 250 6)

/-- A RUN body (R296). -/
def runLegal (b : List Byte) : Bool := decide (fld b 136 8 % 64 = 0) && zeroAt b 144 48

/-- A QPSET entry at an offset within its encodings (R355). -/
def qpsetLegal (b : List Byte) (o : Nat) : Bool :=
  let q := fld b o 2
  let kind := fun (p : Nat) => if q < 4096 then within 4 19 p else decide (p ≤ 3)
  let d := fld b (o + 31) 1
  let f := fun (dbit off len lo hi : Nat) => if bit d dbit then zeroAt b (o + off) len else within lo hi (fld b (o + off) len)
  let alt := fld b (o + 3) 1
  decide (q < 4352) && kind (fld b (o + 2) 1) && (decide (alt = 0xFF) || (kind alt && decide (alt ≠ fld b (o + 2) 1))) &&
    (decide (q < 4096) || zeroAt b (o + 4) 4) && zeroAt b (o + 11) 1 && zeroAt b (o + 15) 1 && zeroAt b (o + 19) 1 &&
    f 0 20 1 1 31 && f 1 21 1 0 7 && f 2 22 2 1 1024 && f 3 24 2 1 1024 && f 4 26 1 3 5 &&
    decide (fld b (o + 27) 1 % 4 = 0 ∧ bits (fld b (o + 28) 2) 14 12 = 0 ∧ fld b (o + 30) 1 ≤ 1 ∧ d < 32) &&
    (decide (alt ≠ 0xFF) || zeroAt b (o + 54) 6) && zeroAt b (o + 60) 4

/-- A KEYSET entry at an offset within its encodings (R359); ranges are tested when it executes (R370). -/
def keysetLegal (b : List Byte) (o : Nat) : Bool :=
  let kind := fld b (o + 4) 1
  let rights := fld b (o + 5) 1
  let scope := fld b (o + 6) 2
  if bit rights 7 then decide (rights = 0x80) && zeroAt b (o + 4) 1 && zeroAt b (o + 6) 26
  else
    decide (kind ≤ 2 ∧ rights < 4) && (decide (scope < 4352) || decide (scope = 0x1FFE ∨ scope = 0x1FFF)) &&
      (if kind = 0 then zeroAt b (o + 24) 8 else decide (scope < 4096))

/-- An SA entry (R368). -/
def saLegal (b : List Byte) (o : Nat) : Bool :=
  within 4 19 (fld b o 1) && decide (fld b (o + 1) 1 ≤ 1 ∧ fld b (o + 2) 1 ≤ 3 ∧ fld b (o + 3) 1 ≤ 3) && zeroAt b (o + 36) 28

/-- Operator fields of IDSET (R501): `o` is where byte 32 of the identity record stands. -/
def idsetLegal (b : List Byte) (o : Nat) : Bool :=
  let at_ := fun (f : Nat) => o + f - 32
  let alt := fld b (at_ 93) 1
  zeroAt b (at_ 83) 1 && decide (fld b (at_ 84) 4 ≠ 0 ∧ fld b (at_ 88) 4 ≠ 0 ∧ fld b (at_ 92) 1 ≤ 3 ∧ (alt ≤ 3 ∨ alt = 0xFF)) &&
    zeroAt b (at_ 94) 2 && zeroAt b (at_ 108) 16

/-- MANIFEST (R369, R371, R491): OP, COUNT, LEN64 and its entries. -/
def manifestLegal (b : List Byte) : Bool :=
  let op := fld b 64 1
  let n := fld b 66 2
  let l := fld b 3 1
  let rest := fun (o : Nat) => zeroAt b o (recLen b - o)
  let each := fun (size : Nat) (p : Nat → Bool) => decide (l = 2 + cdiv (n * size) 64) &&
    (List.range n).all (fun i => p (128 + size * i)) && rest (128 + size * n)
  zeroAt b 65 1 && zeroAt b 68 60 &&
    match op with
    | 1 => within 1 62 n && each 64 (qpsetLegal b)
    | 2 => within 1 124 n && each 32 (keysetLegal b)
    | 3 => decide (n = 1 ∧ l = 11) && zeroAt b 144 48
    | 4 => decide (n = 1) && each 96 (saLegal b)
    | 5 => decide (n = 1 ∧ l = 3 ∧ fld b 128 1 ≤ 1) && zeroAt b 129 7 && zeroAt b 142 2 &&
        decide (fld b 144 4 % 4096 = 0) && within 0x2000 0x400000 (fld b 144 4) && rest 148
    | 6 => decide (n = 1 ∧ l = 3 ∧ fld b 128 1 ≤ 1 ∧ fld b 129 1 ≤ 1) && rest 130
    | 7 => decide (n = 1 ∧ l = 3 ∧ fld b 128 1 ≤ 1) && zeroAt b 129 7 && decide (fld b 136 8 % 64 = 0) && rest 176
    | 8 => decide (n = 1 ∧ l = 4) && idsetLegal b 128 && rest 220
    | _ => false

/-- POOL (R374). -/
def poolLegal (b : List Byte) : Bool :=
  let op := fld b 64 1
  let n := fld b 66 2
  within 1 4 op && zeroAt b 65 1 && zeroAt b 68 4 && zeroAt b 80 48 && decide (fld b 3 1 = 2 + cdiv n 4) &&
    (if op ≤ 2 then
      within 1 60 n && zeroAt b 72 8 && zeroAt b (128 + 16 * n) (recLen b - (128 + 16 * n)) &&
        (List.range n).all fun i => decide (fld b (128 + 16 * i) 8 % 0x10000 = 0 ∧ fld b (136 + 16 * i) 8 % 0x10000 = 0)
    else decide (n = 0))

/-- FREEZE (R473). -/
def freezeLegal (b : List Byte) : Bool :=
  let hold := fld b 68 4
  decide (fld b 3 1 = 2 ∧ fld b 65 1 ≤ 2) && zeroAt b 66 2 && zeroAt b 72 56 &&
    match fld b 64 1 with
    | 1 => within 1 1000000 hold
    | 2 => decide (hold = 0)
    | _ => false

/-- A body of a class, with its length and its stream rule (R295 to R297). -/
def bodyLegal (st : Nat) (b : List Byte) : Bool :=
  let l := fld b 3 1
  match fld b 2 1 with
  | 1 => decide (l = 3) && runLegal b
  | 2 => decide (l = 4) && runLegal b && stepLegal b
  | 3 => decide (l = 2) && zeroAt b 76 4 && zeroAt b 88 40
  | 4 => decide (l = 1)
  | 5 => decide (l = 2) && zeroAt b 70 58
  | 6 => decide (l = 1)
  | 7 => decide (l = 2 ∧ st = 0 ∧ 1 ≤ fld b 64 1 ∧ fld b 65 1 ≤ 1 ∧ fld b 72 4 ≠ 0) && zeroAt b 66 2 &&
      within 0x101000 0x1010FF (fld b 68 4) && zeroAt b 86 42
  | 8 => decide (l = 2 ∧ st = 0 ∧ 1 ≤ fld b 64 1) && zeroAt b 65 63
  | 9 => decide (2 ≤ l) && poolLegal b
  | 10 => decide (2 ≤ l) && manifestLegal b
  | 11 => freezeLegal b
  | _ => false

/-- Whether a record is legal as written (R299). -/
def legal (st : Nat) (b : List Byte) : Bool :=
  let cls := fld b 2 1
  zeroAt b 6 2 && zeroAt b 14 2 && zeroAt b 32 28 && decide (fld b 16 8 % 64 = 0) &&
    (decide (cls = 1 ∨ cls = 2 ∨ cls = 4) || decide (fld b 4 2 = 0xFFFF)) && bodyLegal st b

-- Acceptance (R298, R300 to R302, R471)

/-- Free granules of the record store (R302). -/
def storeFree (s : State) : Nat := (regView s 0x208010 .lgbStoreFree).toNat

/-- Granules that a record needs at acceptance: its body, and for RUN and STEP the room of a commit list. -/
def recGranules (b : List Byte) : Nat := fld b 3 1 - 1 + (if fld b 2 1 = 1 ∨ fld b 2 1 = 2 then 130 else 0)

/-- Whether some journal area is erased and ready (R325, R471). -/
def areaReady (s : State) : Bool := [0, 1].any fun a => decide (tget 0 s.intake.areas a = 0)

/-- Whether step 6 of R298 finds room for a record. -/
def hasRoom (s : State) (st : Nat) (b : List Byte) : Bool :=
  let live := (liveOf s st).length
  let extra := decide ((stream s st).state = .halted ∧ fld b 2 1 = 5 ∧ live = 255)
  (decide (live < 255) || extra) && decide (recGranules b ≤ storeFree s) && areaReady s

/-- A slot leaves the slots that wait. -/
def noWait (s : State) (n : Nat) : State :=
  modIntake s fun x => { x with waitingRec := x.waitingRec.filter (· ≠ n), roomWait := x.roomWait.filter (· ≠ n) }

/-- The entry of a record as it is accepted or rejected. -/
def newEntry (s : State) (st : Nat) (b : List Byte) (es : EntryState) : Entry :=
  { stream := st, seq := fld b 8 6, order := s.intake.orders + 1, cls := fld b 2 1, state := es, status := 1, body := slice b 0 (recLen b) }

/-- STATE of a logbook entry (R322). -/
def EntryState.code : EntryState → Nat
  | .free => 0 | .accepted => 1 | .running => 2 | .committed => 3 | .ended => 4 | .rejected => 5 | .journaled => 6

/-- The 64 B logbook entry of a live entry (R322). -/
def entryBytes (e : Entry) : List Byte :=
  let b := leBytes 1 e.stream ++ leBytes 1 e.cls ++ leBytes 1 e.state.code ++ leBytes 1 e.status ++ leBytes 2 e.handle ++ leBytes 2 e.take ++
    leBytes 6 e.seq ++ leBytes 1 (fld e.body 3 1) ++ leBytes 1 (b2n e.sealedAny + 2 * b2n e.boundVoid) ++ slice e.body 16 8 ++ slice e.body 28 4 ++
    leBytes 4 e.tag ++ leBytes 4 e.bodyAt ++ leBytes 4 e.clistAt ++ leBytes 8 (if e.cls = 2 then e.step else 0) ++ zeros 12
  b ++ leBytes 4 (crc32c b)

/-- RESUME accepted while its stream is Halted (R311): the commands from H + 1 to NEXT − 1 end with SKIPPED, the stream goes on, and
the RESUME ends. -/
def resumeNow (s : State) (st seq next : Nat) : State :=
  let x := stream s st
  if next ≤ x.haltSeq ∨ seq < next then finish s st seq { status := 2, reason := 6 }
  else
    let skipped := (liveOf s st).filter fun e => e.unfinished ∧ x.haltSeq < e.seq ∧ e.seq < next ∧ (takeOfCmd s st e.seq).isNone
    let s := (sortAsc (skipped.map (·.seq))).foldl (fun s q => finish s st q { status := 2, reason := 7 }) s
    let s := setStream s st { stream s st with state := .idle }
    finish (settle s st) st seq { status := 0 }

/-- Accept or reject the record in a slot, past step 6 (R299, R300). -/
def takeRecord (s : State) (st : Nat) (b : List Byte) : State :=
  let seq := fld b 8 6
  let ok := legal st b
  let halted := decide ((stream s st).state = .halted)
  let e := { newEntry s st b .accepted with bodyAt := storePlace s (fld b 3 1 - 1) }
  let s := modIntake s fun x => { x with log := x.log ++ [e], orders := x.orders + 1 }
  let s := setStream s st { stream s st with next := seq + 1 }
  if ¬ ok then finish (bump s 0x200020 1) st seq { status := 3 }
  else
    let s := if e.hasTake then modIntake s fun x => { x with reserved := x.reserved + 130 } else s
    let s := interim s st seq { status := 1 }
    if halted ∧ e.cls = 5 then resumeNow s st seq (fld b 64 6) else settle s st

/-- The tests of R298 on a slot. -/
def examine (s : State) (st sl : Nat) : State :=
  let n := slotNo st sl
  let x := stream s st
  let b := windowSlot s st sl
  let seq := fld b 8 6
  if ¬ isRecord b then noWait s n
  else if fld b 0 1 ≠ 1 ∨ fld b 1 1 ≠ st ∨ seq % 256 ≠ sl ∨ x.state = .closed ∨ x.state = .closing ∨ fld b 24 4 ≠ x.skey then
    bump (noWait s n) 0x200018 1
  else if seq < x.next then bump (noWait s n) 0x200010 1
  else if x.next + 255 < seq then bump (noWait s n) 0x200018 1
  else if seq ≠ x.next then modIntake s fun y => { y with waitingRec := (y.waitingRec ++ [n]).eraseDups }
  else if ¬ hasRoom s st b then
    let s := if n ∈ s.intake.roomWait then s else bump s 0x200030 1
    modIntake s fun y => { y with waitingRec := (y.waitingRec ++ [n]).eraseDups, roomWait := (y.roomWait ++ [n]).eraseDups }
  else takeRecord (noWait s n) st b

/-- COMMAND_RECORD (R293, R298): a slot in which a message has placed bytes is examined. -/
def execCommandRecord (st sl : Nat) (s : State) : Out :=
  let n := slotNo st sl
  onUnit (streamOk st && slotOk sl) s <|
    when_ (ready s && decide (n ∈ s.intake.touched)) s
      (examine (modIntake s fun x => { x with touched := x.touched.filter (· ≠ n) }) st sl)

/-- WAITING_RECORD_ACCEPT (R298): the record that waits in the slot of NEXT is tested again. -/
def execWaitingRecordAccept (st : Nat) (s : State) : Out :=
  let sl := (stream s st).next % 256
  onUnit (streamOk st) s <| when_ (ready s && decide (slotNo st sl ∈ s.intake.waitingRec)) s (examine s st sl)

-- Retiring (R305, R312, R326)

/-- A Closing stream whose last live entry has retired becomes Closed, and its CLOSE ends (R312). -/
def tryCloseStream (s : State) (st : Nat) : State :=
  let x := stream s st
  if x.state ≠ .closing ∨ ¬ (liveOf s st).isEmpty then s
  else
    let s := setStream s st { next := x.next }
    match s.intake.log.find? fun e => e.cls = 8 ∧ e.unfinished ∧ fld e.body 64 1 = st ∧ e.state = .running with
    | some e => finish s e.stream e.seq { status := 0 }
    | none => s

/-- Areas whose journal has no entry left are erased (R326): 2 is an erase under way. -/
def eraseSpent (s : State) : State :=
  if s.intake.log.any fun e => e.state = .journaled then s
  else modIntake s fun x => { x with areas := x.areas.map fun e => if e.2 = 1 then (e.1, 2) else e }

/-- An entry retires once the transport has acknowledged its Final or OUTCOME_JOURNALED completion. -/
def retire (s : State) (st seq : Nat) : State :=
  match findEntry s st seq with
  | none => s
  | some e =>
    if e.unfinished then s
    else
      let s := modIntake s fun x => { x with log := delFirst (fun q => q.stream = st ∧ q.seq = seq) x.log }
      let s := tryCloseStream s st
      if e.state = .journaled then eraseSpent s else s

end Sys2Proof.Machine
end

