-- ==== Sys2Proof/Machine/Records.lean ====
section
/-! DEFINITION. What commands do at their turn: head moments of RUN and STEP (R337 to R340, R378, R424), RESUME, MARK, OPEN, CLOSE
(R311, R312, R326). -/
namespace Sys2Proof.Machine

open Sys2Proof

/-- The command at HEAD of a stream whose turn it is to act (R308 to R310), when it has a class. -/
def turnOf (s : State) (st cls : Nat) : Option Entry :=
  if ¬ ready s ∨ (stream s st).state = .halted ∨ (stream s st).state = .closed then none
  else (headEntry s st).filter fun e => e.cls = cls

/-- What a command without a take does at its turn. -/
def atTurn (s : State) (st cls : Nat) (f : Entry → State) : Out :=
  onUnit (streamOk st) s <|
    match turnOf s st cls with
    | some e => .next (f e)
    | none => .next s

/-- The command ends with DONE (R318). -/
def done (s : State) (e : Entry) : State := finish s e.stream e.seq { status := 0 }

/-- The command ends with STATE_CONFLICT and changes nothing. -/
def conflict (s : State) (e : Entry) (reason : Nat) : State := finish s e.stream e.seq { status := 2, reason := reason }

-- Head moments (R337, R338, R378, R424)

/-- Whether a handle names a loaded image (R281). A slot that a load still fills has no handle yet. -/
def handleOk (s : State) (h : Nat) : Bool :=
  let x := slotOf s (slotOfHandle h)
  decide (h < 65536 ∧ x.gen = h / 256) && match x.state with | .placed | .running | .moving => true | _ => false

/-- Whether an image is fill work (R330). -/
def isFill (img : List Byte) : Bool := bit (fld img 12 1) 0

/-- Why a RUN or STEP ends at its head moment, the reasons tested in code order (R281, R337, R340, R378; log 28). -/
def headBar (s : State) (e : Entry) : Option Nat :=
  let slot := slotOfHandle e.handle
  let x := slotOf s slot
  if ¬ handleOk s e.handle then some 2
  else if e.deadline ≠ 0 ∧ e.deadline < x.bound then some 0x40
  else if e.deadline ≠ 0 ∧ isFill x.img then some 0x42
  else if e.cls = 1 then none
  else match stepRun s e with
    | none => some 0x54
    | some r => if (localBuf s slot e).isNone then some 0x54 else if e.step ≤ r.lastStep then some 0x55 else none

/-- Wake a core for a take that is starting (R422 to R424): from Idle it is in Run, within 24 cc; its wake from Nap or Off begins, or waits for a
Nap entry to end. -/
def wakeCore (x : Core) : Core :=
  if x.napping ∨ x.power = .nap ∨ x.power = .off then { x with waking := true }
  else { x with power := .run }

/-- Wake the cores of a placement. -/
def wakeSlot (s : State) (slot : Nat) : State := (coresOf s slot).foldl (fun s c => modCore s c wakeCore) s

/-- A memory in self-refresh begins its exit. -/
def beginExit (s : State) (k : Nat) : State :=
  if (ctl s k).state = .selfRefresh then setCtl s k { ctl s k with exiting := true } else s

/-- What a head moment wakes (R424): the cores of the placement and the controllers that the command needs. -/
def wakeFor (s : State) (e : Entry) : State := (needsCtls s e).foldl beginExit (wakeSlot s (slotOfHandle e.handle))

/-- Whether a deadline command may pre-empt a take (R338). -/
def eligible (s : State) (t : Take) : Bool :=
  !t.killed && !t.ended && match findEntry s t.stream t.seq with
    | some v => decide (v.deadline = 0 ∧ ¬(v.cls = 2 ∧ t.voted = true))
    | none => false

/-- The head moment of a RUN or STEP: its checks, the wake, and pre-emption or waiting when its handle is busy. -/
def headMoment (s : State) (e : Entry) : State :=
  match headBar s e with
  | some n => conflict (if n = 0x40 then bump s 0x200048 1 else s) e n
  | none =>
    let slot := slotOfHandle e.handle
    let busy := s.intake.takes.find? fun t => t.slot = slot
    let others := !(waitersOf s slot).isEmpty
    let kc := s.kc
    let n := s.intake.orders
    let s := wakeFor (modEntry s e.stream e.seq fun e => { e with head := true, headKc := kc, headNo := n + 1 }) e
    let s := { s with intake := { s.intake with orders := n + 1 } }
    if (slotOf s slot).state = .moving then waitFor s e.stream e.seq 2
    else match busy with
      | some t =>
        if e.deadline ≠ 0 ∧ eligible s t = true then
          let s := modEntry s e.stream e.seq fun e => { e with starting := true }
          waitFor (killForRetake (bump s 0x200038 1) t { status := 5, reason := 1 } true) t.stream t.seq 5
        else waitFor s e.stream e.seq 5
      | none => if others then waitFor s e.stream e.seq 5 else s

/-- The head moment comes once. -/
def headOnce (s : State) (e : Entry) : State := if e.head then s else headMoment s e

/-- RUN (R337 to R340). -/
def execRun (st : Nat) (s : State) : Out := atTurn s st 1 fun e => headOnce s e

/-- STEP (R378): also its run, its LOCAL buffer and the order of steps. -/
def execStepCmd (st : Nat) (s : State) : Out := atTurn s st 2 fun e => headOnce s e

-- Streams (R311, R312, R326)

/-- RESUME that reaches its turn on a stream that is not Halted (R311). -/
def execResume (st : Nat) (s : State) : Out := atTurn s st 5 fun e => conflict s e 6

/-- MARK (R295). -/
def execMark (st : Nat) (s : State) : Out := atTurn s st 6 fun e => done s e

/-- Live entries of a stream in sequence order. -/
def inOrder (s : State) (st : Nat) : List Entry :=
  (sortAsc ((liveOf s st).map (·.seq))).filterMap fun q => findEntry s st q

/-- OUTCOME_JOURNALED for every Journaled entry of a stream, in sequence order (R326). -/
def journaledOutcomes (s : State) (st : Nat) : State :=
  (inOrder s st).foldl (fun s e => if e.state = .journaled then complete s st e.seq { status := 0x0F, reason := e.status } else s) s

/-- Whether a message is the completion of a stream's command. -/
def isCompletion (st : Nat) (m : Msg) : Bool := match m.kind with | .completion t _ => decide (t = st) | _ => false

/-- Write a stream's unacknowledged completions again on its queue pair (R304, R312). What still waited on the former one goes. -/
def rewriteAll (s : State) (st old : Nat) : State :=
  let x := qp s old
  let mine := (x.sendq ++ x.held).filter (isCompletion st)
  let s := setQp s old { x with held := x.held.filter fun m => !isCompletion st m }
  (inOrder s st).foldl (fun s e =>
    if mine.any fun m => m.kind = .completion st e.seq then
      send s (stream s st).qp (.completion st e.seq) (stream s st).ckey (fld e.body 16 8) e.comp
    else s) s

/-- OPEN (R312, R326): opens TARGET, or with REBIND gives an open stream another queue pair and keys. -/
def openTarget (s : State) (e : Entry) : State :=
  let n := fld e.body 64 1
  let rebind := bit (fld e.body 65 1) 0
  let x := stream s n
  let q := fld e.body 68 4 - 0x100000
  let keys := fun (x : Stream) => { x with qp := q, skey := fld e.body 72 4, ckey := fld e.body 76 4 }
  if (x.state = .closed) ↔ (rebind = true) then conflict s e 9
  else if rebind then done (rewriteAll (setStream s n (keys x)) n x.qp) e
  else
    let s := setStream s n (keys { state := .idle, next := x.journal.getD (fld e.body 80 6) })
    done (journaledOutcomes s n) e

/-- OPEN. -/
def execOpenStream (st : Nat) (s : State) : Out := atTurn s st 7 fun e => openTarget s e

/-- CLOSE (R312): TARGET becomes Closing, and held commands of a Halted one end; the CLOSE ends when the last entry retires. -/
def closeTarget (s : State) (e : Entry) : State :=
  let n := fld e.body 64 1
  let x := stream s n
  if x.state = .closed then conflict s e 9
  else if x.state = .closing then s
  else
    let held := if x.state = .halted then (inOrder s n).filter fun e => e.unfinished ∧ (takeOfCmd s n e.seq).isNone else []
    let s := modEntry s e.stream e.seq fun e => { e with state := .running }
    let s := setStream s n { x with state := .closing }
    let s := held.foldl (fun s e => finish s n e.seq { status := 2, reason := 7 }) s
    tryCloseStream s n

/-- CLOSE. -/
def execCloseStream (st : Nat) (s : State) : Out := atTurn s st 8 fun e => closeTarget s e

end Sys2Proof.Machine
end

