-- ==== Sys2Proof/Machine/Route.lean ====
section
/-! DEFINITION. Circuits and the timetable: paths (R134, R138, R285), slots (R137, R286), lengths (R287) and banks (R141). -/
namespace Sys2Proof.Machine

open Sys2Proof

-- Paths (R138, R285)

/-- A link of a path: its router, its port (0 north, 1 south, 2 east, 3 west, 4 local) and by how many slots a word comes later there
than on the path's first link. -/
structure Link where
  router : Nat
  port : Nat
  shift : Nat
deriving DecidableEq, Repr

/-- The links from a router to another, a word being `shift` slots late at the first. -/
def pathFrom (s : State) (colFirst : Bool) : Nat → Nat → Nat → Nat → Option (List Link)
  | 0, _, _, _ => none
  | n + 1, a, b, shift =>
    if a = b then some [{ router := a, port := 4, shift := shift }]
    else match nextHop s colFirst a b with
      | none => none
      | some (p, r) =>
        let h := if a / 26 = r / 26 then 2 else 8
        (pathFrom s colFirst n r b (shift + h)).map ({ router := a, port := p, shift := shift } :: ·)

/-- The path between two physical cores. -/
def pathOf (s : State) (colFirst : Bool) (a b : Nat) : Option (List Link) := pathFrom s colFirst 256 a b 0

/-- The union of paths from one core. -/
def unionPath (s : State) (colFirst : Bool) (a : Nat) : List Nat → Option (List Link)
  | [] => some []
  | b :: t => match pathOf s colFirst a b, unionPath s colFirst a t with
    | some p, some q => some (p ++ q.filter fun l => l ∉ p)
    | _, _ => none

/-- A circuit of an image: its number, its rate in 64ths, its sending core and its receiving cores, as rectangle indices. -/
structure Circuit where
  num : Nat
  rate : Nat
  src : Nat
  dsts : List Nat
deriving DecidableEq, Repr

/-- Insert a circuit in order of number. -/
def insertCircuit (c : Circuit) : List Circuit → List Circuit
  | [] => [c]
  | d :: t => if c.num ≤ d.num then c :: d :: t else d :: insertCircuit c t

/-- The circuits of an image in CIRCUIT order (R280). -/
def circuitsOf (img : List Byte) : List Circuit :=
  ((imgRecs img 0x09 16).map fun o =>
    ({ num := fld img o 2, rate := fld img (o + 6) 1, src := fld img (o + 2) 1,
       dsts := (receiversOf img (slice img o 16)).map (·.1) } : Circuit)).foldr insertCircuit []

-- Slots (R137, R138, R286)

/-- A timetable being filled: who holds each slot of each link, by the key of `Fabric`. -/
abbrev Table := Tab Nat

/-- Key of a slot of a link. -/
def slotKey (l : Link) (len start : Nat) : Nat := 64 * (5 * l.router + l.port) + (start + l.shift) % len

/-- Whether a starting slot can be given on every link: not reserved (R137), and held by no circuit. -/
def startFree (t : Table) (len : Nat) (p : List Link) (start : Nat) : Bool :=
  p.all fun l => !reservedSlot (facesHub l.router l.port) len ((start + l.shift) % len) && decide (tget 0 t (slotKey l len start) = 0)

/-- Slots of a link that stay for packets. -/
def packetSlots (t : Table) (len router port : Nat) : Nat :=
  ((List.range len).filter fun i => !reservedSlot (facesHub router port) len i && decide (tget 0 t (64 * (5 * router + port) + i) = 0)).length

/-- An image as the routing sees it: its slot, its bytes, the physical core of each rectangle index, and the dies whose links its packets
use. -/
structure Placed where
  slot : Nat
  img : List Byte
  cores : List Nat
  dies : List Nat
deriving DecidableEq, Repr

/-- The dies of the packet path from one die to another (R140). -/
def diePath (s : State) : Nat → Nat → Nat → List Nat
  | 0, a, _ => [a]
  | n + 1, a, b =>
    if a = b then [a]
    else match (exitSide s true a b).bind (dieNeighbour s a) with
      | some d => a :: diePath s n d b
      | none => [a]

/-- The die from which packets of a die reach a hub: the nearest with a working link to it. -/
def hubDie (s : State) (a h : Nat) : Option Nat :=
  let ends := (List.range 8).filter fun d => (List.range 4).any fun k => decide (dieAcross d k = some (8 + h) ∧ (d, k) ∉ s.fab.deadLinks)
  ends.foldl (fun b d => match b with | none => some d | some e => if dieDist s a d < dieDist s a e then some d else some e) none

/-- The dies whose links an image's packets use (R16, R140): on the paths between its own dies, to the dies whose stacks hold its buffers, and
to both hubs. -/
def packetDies (s : State) (cores : List Nat) (bufs : List Buf) : List Nat :=
  let own := (cores.map (· / 26)).eraseDups
  let held := bufs.flatMap fun b => [b.addr0, b.addr1].filterMap fun a => (ctlOf a).bind fun k => if b.tier = 1 ∧ k < 16 then some (k / 2) else none
  (own.flatMap fun a => ((own ++ held).eraseDups ++ (hubDie s a 0).toList ++ (hubDie s a 1).toList).flatMap (diePath s 8 a)).eraseDups

/-- An image on cores and with buffers, as the routing sees it. -/
def placedAt (s : State) (slot : Nat) (img : List Byte) (cores : List Nat) (bufs : List Buf) : Placed :=
  { slot := slot, img := img, cores := cores, dies := packetDies s cores bufs }

/-- PKT_MIN that a link must keep: the largest of the images whose packets use links of its router's die (log 29). -/
def pktMin (ps : List Placed) (router : Nat) : Nat :=
  (ps.filter fun p => router / 26 ∈ p.dies).foldl (fun m p => max m (fld p.img 13 1)) 0

/-- Give a circuit its slots on a path: the lowest starting slots that are free on every link (R286). -/
def giveSlots (ps : List Placed) (t : Table) (len owner need : Nat) (path : List Link) : Option Table :=
  let starts := ((List.range len).filter (startFree t len path)).take need
  if starts.length < need then none
  else
    let t := starts.foldl (fun t b => path.foldl (fun t l => tset 0 t (slotKey l len b) owner) t) t
    if path.all fun l => decide (pktMin ps l.router ≤ packetSlots t len l.router l.port) then some t else none

/-- Give one circuit its slots: the column-first path, then the row-first one (R285). -/
def routeCircuit (s : State) (ps : List Placed) (p : Placed) (len : Nat) (t : Table) (c : Circuit) : Option Table :=
  let need := cdiv (c.rate * len) 64
  let owner := 1 + 4096 * p.slot + c.num
  match p.cores[c.src]?, c.dsts.mapM (p.cores[·]?) with
  | some a, some bs =>
    let go := fun (colFirst : Bool) => (unionPath s colFirst a bs).bind (giveSlots ps t len owner need)
    match go true with
    | some t => some t
    | none => go false
  | _, _ => none

/-- Route an image into a timetable (R286). -/
def routeImage (s : State) (ps : List Placed) (len : Nat) (t : Option Table) (p : Placed) : Option Table :=
  (circuitsOf p.img).foldl (fun t c => t.bind fun t => routeCircuit s ps p len t c) t

-- Banks and lengths (R141, R287)

/-- The newest assignment: that of the bank that waits for its switch, else that of the active bank. -/
def newestTable (s : State) : Table := if s.fab.activeB = s.fab.pending then s.fab.bankA else s.fab.bankB

/-- L of the newest assignment. -/
def newestLen (s : State) : Nat := if s.fab.activeB = s.fab.pending then s.fab.lenA else s.fab.lenB

/-- Write a new assignment into the inactive bank; it takes effect at its switch (R141). -/
def writeBank (s : State) (t : Table) (len : Nat) : State :=
  { s with fab := if s.fab.activeB then { s.fab with bankA := t, setA := true, lenA := len, pending := true }
                  else { s.fab with bankB := t, setB := true, lenB := len, pending := true } }

/-- Entries that are not a slot's. -/
def withoutSlot (t : Table) (slot : Nat) : Table := t.filter fun e => (e.2 - 1) / 4096 ≠ slot

/-- A placed image by its slot. -/
def placedOf (s : State) (n : Nat) : Placed :=
  let x := slotOf s n
  placedAt s n x.img ((List.range (coreCount x.img)).filterMap (coreAtIndex s n)) x.bufs

/-- Slots whose image is on the grid. -/
def placedSlots (s : State) : List Nat :=
  (List.range 256).filter fun n => match (slotOf s n).state with | .placed | .running => true | _ => false

/-- L that L_REQ asks for, 0 for any. -/
def lReq (img : List Byte) : Nat := match bits (fld img 12 1) 2 1 with | 1 => 16 | 2 => 32 | 3 => 64 | _ => 0

/-- Whether every image fits at a length, routed afresh, and the timetable. -/
def fitAll (s : State) (ps : List Placed) (len : Nat) : Option Table := ps.foldl (routeImage s ps len) (some [])

/-- How an image joins the timetable (R286, R287). An image without L_REQ, or whose L_REQ is the L in force, joins at that L beside what
is there if it fits. Else, while no take runs, every image is routed at the smallest length no less than any L_REQ at which all fit; while
one runs, an image that fits at the L in force, which its L_REQ does not exceed, joins there. None: it waits. -/
def joinTable (s : State) (p : Placed) : Option (Table × Nat) :=
  let ps := ((placedSlots s).filter (· ≠ p.slot)).map (placedOf s) ++ [p]
  let len := newestLen s
  let want := (ps.map fun p => lReq p.img).foldl max 0
  let here := (if want ≤ len then routeImage s ps len (some (withoutSlot (newestTable s) p.slot)) p else none).map fun t => (t, len)
  let fresh := ([16, 32, 64].filter fun l => want ≤ l).findSome? fun l => (fitAll s ps l).map fun t => (t, l)
  if ¬ s.intake.takes.isEmpty then here
  else if lReq p.img = 0 ∨ lReq p.img = len then here <|> fresh
  else fresh

end Sys2Proof.Machine
end

