-- ==== Sys2Proof/Machine/Check.lean ====
section
/-! DEFINITION. The loader's checks of an image (R209, R217, R272 to R279, R341), each as the offsets and sections at fault; the
first of a check in image order is reported. -/
namespace Sys2Proof.Machine

open Sys2Proof

/-- Offsets and section types at fault for one check code. -/
abbrev Found := List (Nat × Nat)

/-- The fault at the lowest offset. -/
def firstFound (l : Found) : Option (Nat × Nat) :=
  l.foldl (fun a e => match a with | none => some e | some b => if e.1 < b.1 then some e else some b) none

/-- A fault at an offset when a test fails. -/
def need (ok : Bool) (off ty : Nat) : Found := if ok then [] else [(off, ty)]

/-- Records of a section that fail a test. -/
def badRecs (img : List Byte) (ty n : Nat) (bad : Nat → Bool) : Found := ((imgRecs img ty n).filter bad).map fun o => (o, ty)

-- 0x01 HEADER, 0x02 SECTIONS (R272 to R275)

/-- The header's own tests (0x01); `len` is the LENGTH of the load record. One too short to hold the header's LENGTH differs from it. -/
def checkHeader (img : List Byte) (len : Nat) : Found :=
  let n := fld img 8 4
  if len < 12 then [(8, 0)]
  else need (fld img 0 4 = 0x4B554931) 0 0 ++ need (fld img 4 2 = 1) 4 0 ++
    need (decide (n % 64 = 0 ∧ n = len) && within 128 (2 ^ 30) n) 8 0 ++ need (fld img 12 1 < 8) 12 0 ++
    need (within 1 4 (fld img 13 1)) 13 0 ++ need (within 1 16 (fld img 14 2)) 14 0 ++ need (zeroAt img 16 44) 16 0 ++
    need (fld img 60 4 = crc32c (slice img 0 60 ++ zeros 4 ++ img.drop 64)) 60 0

/-- Record sizes by section type; SRAMINIT's vary. -/
def recSize (ty : Nat) : Nat := [0, 4, 2, 0, 8, 4, 8, 32, 16, 16, 32, 8, 4, 8, 4].getD ty 0

/-- Bytes that `n` SRAMINIT records from an offset take, if they end by `stop`. -/
def sramSize (img : List Byte) (stop : Nat) : Nat → Nat → Option Nat
  | 0, o => some o
  | n + 1, o => if stop < o + 16 then none else sramSize img stop n (o + 16 + cdiv (fld img (o + 8) 4) 64 * 64)

/-- One entry of the section table. -/
def tableEntryOk (img : List Byte) (i : Nat) : Bool :=
  let o := 64 + 16 * i
  let ty := fld img o 2
  let off := fld img (o + 4) 4
  let size := fld img (o + 8) 4
  let n := fld img (o + 12) 4
  let others := (List.range i).map fun j => 64 + 16 * j
  within 1 0x0E ty && zeroAt img (o + 2) 2 && decide (off % 64 = 0 ∧ 64 + 16 * fld img 14 2 ≤ off ∧ off + size ≤ fld img 8 4) &&
    others.all (fun p => decide (fld img p 2 ≠ ty ∧
      (off + size ≤ fld img (p + 4) 4 ∨ fld img (p + 4) 4 + fld img (p + 8) 4 ≤ off))) &&
    (if ty = 3 then decide (sramSize img (off + size) n off = some (off + size)) else decide (size = n * recSize ty)) &&
    (decide (ty ≠ 1) || decide (n ≤ 32768)) && (decide (ty ≠ 2) || decide (n = coreCount img)) && (decide (ty ≠ 0x0C) || decide (n ≤ 16))

/-- The section table (0x02): the section whose entry is at fault, by the TYPE that the entry gives; none when one that is required is
absent. -/
def checkTable (img : List Byte) : Found :=
  ((List.range (fld img 14 2)).filter fun i => !tableEntryOk img i).map (fun i => (64 + 16 * i, fld img (64 + 16 * i) 2 % 256)) ++
    need ([1, 2, 9].all fun t => (imgSect img t).isSome) 64 0

/-- A core index, or 0xFF for every core. -/
def coreIdxOk (img : List Byte) (c : Nat) : Bool := c = 0xFF || c < coreCount img

/-- A core address field of 4 B, aligned. -/
def caddrOk (img : List Byte) (o al : Nat) : Bool := decide (fld img o 4 < 0x1000000 ∧ fld img o 4 % al = 0)

/-- Offsets of SRAMINIT records. -/
def sramOffs (img : List Byte) : List Nat :=
  match imgSect img 0x03 with
  | none => []
  | some (o, _, n) => (List.range n).map fun i => (sramSize img (2 ^ 32) i o).getD o

/-- Whether a BUFFER record holds a reserved or impossible value (0x02). -/
def bufferBad (img : List Byte) (o : Nat) : Bool :=
  let tier := fld img (o + 3) 1
  let pin := fld img (o + 4) 1
  let a := fld img (o + 16) 8
  decide (fld img o 2 = 0xFFFF ∨ 3 < fld img (o + 2) 1 ∨ 2 < tier) || (decide (pin ≠ 0xFF) && decide (15 < pin ∨ tier ≠ 1)) ||
    !zeroAt img (o + 5) 3 || !within 64 0x1400000000 (fld img (o + 8) 8) || !zeroAt img (o + 24) 8 ||
    (if fld img (o + 2) 1 = 0 then decide (2 ^ 48 ≤ a) else if tier = 0 then decide (2 ^ 24 ≤ a) else decide (a ≠ 0)) ||
    ((imgRecs img 0x07 32).any fun p => p < o && fld img p 2 = fld img o 2)

/-- Records that hold a reserved value, a byte that must be zero, or a repeated identifier (0x02). -/
def checkRecords (img : List Byte) : Found :=
  ((sramOffs img).filter fun o =>
    let len := fld img (o + 8) 4
    !coreIdxOk img (fld img o 1) || !zeroAt img (o + 1) 3 || !caddrOk img (o + 4) 64 || !within 1 4194304 len ||
      !zeroAt img (o + 12) 4 || !zeroAt img (o + 16 + len) (cdiv len 64 * 64 - len)).map (fun o => (o, 3)) ++
  badRecs img 0x04 8 (fun o => !coreIdxOk img (fld img o 1) || !zeroAt img (o + 1) 3 || !caddrOk img (o + 4) 64) ++
  badRecs img 0x05 4 (fun o => !zeroAt img (o + 1) 1) ++
  badRecs img 0x06 8 (fun o => decide (2048 ≤ fld img o 2) || !zeroAt img (o + 2) 2) ++
  badRecs img 0x07 32 (bufferBad img) ++
  badRecs img 0x08 16 (fun o => !coreIdxOk img (fld img o 1) || !zeroAt img (o + 1) 3 || !caddrOk img (o + 4) 1 || !zeroAt img (o + 10) 2) ++
  badRecs img 0x09 16 (fun o => decide (4095 < fld img o 2 ∨ 4 ≤ fld img (o + 3) 1) ||
    decide ((if fld img (o + 4) 1 = 0xFF then 64 else 4) ≤ fld img (o + 5) 1) || !within 1 62 (fld img (o + 6) 1) ||
    !zeroAt img (o + 7) 9 || ((imgRecs img 0x09 16).any fun p => p < o && fld img p 2 = fld img o 2)) ++
  badRecs img 0x0A 32 (fun o => decide (64 ≤ fld img o 1 ∨ coreCount img ≤ fld img (o + 1) 1 ∨ coreCount img ≤ fld img (o + 2) 1 ∨
      16 ≤ fld img (o + 3) 1) || !caddrOk img (o + 4) 64 || decide (fld img (o + 4) 4 / muBytes ≠ bits (fld img (o + 3) 1) 3 2) ||
      decide (fld img (o + 8) 4 % 64 ≠ 0) || !within 64 0x100000 (fld img (o + 8) 4) ||
      decide (fld img (o + 12) 1 = 0 ∨ 64 ≤ fld img (o + 13) 1 ∨ 64 ≤ fld img (o + 14) 1) || !zeroAt img (o + 15) 17) ++
  badRecs img 0x0B 8 (fun o => let u := fld img (o + 1) 1
    !coreIdxOk img (fld img o 1) || decide (u % 4 = 3 ∨ 32 ≤ u ∨ (u % 4 ≠ 1 ∧ 4 ≤ u)) || !zeroAt img (o + 3) 1 || !zeroAt img (o + 6) 2) ++
  badRecs img 0x0D 8 (fun o => decide (32768 ≤ fld img o 4)) ++
  badRecs img 0x0E 4 (fun o => decide (fld img o 1 = 0) || !zeroAt img (o + 1) 1)

-- 0x03 SHAPE (R14, R15, R282)

/-- Logical positions of a rectangle, in index order. -/
def rectAt (rows cols r c : Nat) : List Nat := (List.range (rows * cols)).map fun i => 24 * (r + i / cols) + c + i % cols

/-- The first origin whose positions all satisfy a test (R282). -/
def firstOrigin (rows cols : Nat) (free : Nat → Bool) : Option (Nat × Nat) :=
  ((List.range (9 - rows)).flatMap fun r => (List.range (25 - cols)).map fun c => (r, c)).find? fun o => (rectAt rows cols o.1 o.2).all free

/-- Whether a logical position is available (R15). -/
def available (s : State) (l : Nat) : Bool := (physOf s l).isSome

/-- The rectangle's sizes and its fit (0x03). -/
def checkShape (s : State) (img : List Byte) : Found :=
  if ¬ within 1 8 (imgRows img) then [(6, 0)]
  else if ¬ within 1 24 (imgCols img) then [(7, 0)]
  else need (firstOrigin (imgRows img) (imgCols img) (available s)).isSome 6 0

-- 0x04 to 0x09, the code (R209, R217, R232, R518)

/-- Word numbers at which instructions begin (R206). -/
def startsFrom : List W32 → Nat → List Nat
  | [], _ => []
  | [_], i => [i]
  | w :: v :: t, i => if isLong w then i :: startsFrom t (i + 2) else i :: startsFrom (v :: t) (i + 1)

/-- Whether a first word has a reserved OP or FN (R209). Bits 6:3 of a FENCE's FN are a field that must be zero (R228). -/
def opReserved (w : W32) : Bool :=
  let op := fOp w
  let fn := fFn w
  !(within 0x01 0x08 op || within 0x0A 0x23 op || op = 0x38 || within 0x3A 0x3D op) || (op = 0x01 && 0x12 < fn) ||
    (op = 0x0A && 5 < fn) || (op = 0x0B && 4 < fn) || (op = 0x21 && fn % 8 = 0) || (op = 0x38 && 6 < fn)

/-- The code of an image as the checks see it. -/
structure Code where
  words : List W32
  starts : List Nat
  base : Nat
deriving DecidableEq, Repr

/-- The code of an image. -/
def codeOf (img : List Byte) : Code :=
  let w := imgCode img
  { words := w, starts := startsFrom w 0, base := match imgSect img 0x01 with | some (o, _, _) => o | none => 0 }

/-- Word i. -/
def Code.word (k : Code) (i : Nat) : W32 := k.words.getD i 0

/-- The instruction at word i, before its fields are tested. -/
def Code.raw (k : Code) (i : Nat) : Option Instr := finlenRaw 0 (k.word i) (k.word (i + 1))

/-- Faults of the instructions that fail a test. -/
def Code.bad (k : Code) (p : Nat → Bool) : Found := (k.starts.filter p).map fun i => (k.base + 4 * i, 1)

/-- A reserved OP or FN, or a 64-bit instruction that passes the end (0x04). -/
def checkOpcode (k : Code) : Found :=
  k.bad fun i => opReserved (k.word i) || (isLong (k.word i) && decide (k.words.length ≤ i + 1))

/-- A field that must be zero, or an immediate out of range (0x05). -/
def checkField (k : Code) : Found :=
  k.bad fun i =>
    if fOp (k.word i) = 0x3C ∨ fOp (k.word i) = 0x3D then (k.raw i).isNone || decide (2 ^ 21 ≤ (k.word (i + 1)).toNat) else (finlenDecode 0 (k.word i) (k.word (i + 1))).isNone

/-- Where a word offset leads, when it stays in the loaded code. -/
def codeTarget (k : Code) (i : Nat) (off : BitVec 19) : Option Nat :=
  let t := (i : Int) + off.toInt
  if 0 ≤ t ∧ t < k.words.length then some t.toNat else none

/-- Whether a branch or start leads to an instruction. -/
def targetOk (k : Code) (i : Nat) (off : BitVec 19) : Bool := match codeTarget k i off with | some t => decide (t ∈ k.starts) | none => false

/-- Branch, call, start and entry targets (0x06). -/
def checkTarget (img : List Byte) (k : Code) : Found :=
  (k.bad fun i => match k.raw i with | some (.br _ o) | some (.call _ o) | some (.rstart _ _ o) => !targetOk k i o | _ => false) ++
    badRecs img 0x02 2 fun o => decide (fld img o 2 ∉ k.starts)

/-- Loop bodies: the LOOP's word, the first and the last word of its body. -/
def Code.loops (k : Code) : List (Nat × Nat × Nat) :=
  k.starts.filterMap fun i => match k.raw i with | some (.loop _ _ _ body) => some (i, i + 1, i + 1 + body) | _ => none

/-- Whether a word lies in a body. -/
def inBody (b : Nat × Nat × Nat) (w : Nat) : Bool := within b.2.1 b.2.2 w

/-- Whether an instruction may end a loop body (R217). -/
def endsBody : Instr → Bool
  | .br .. | .call .. | .ret .. | .lbrk .. | .loop .. | .rstart .. | .rexit .. | .cut .. | .tend .. | .trap .. => false
  | _ => true

/-- Whether one loop body breaks R217. -/
def loopBad (k : Code) (b : Nat × Nat × Nat) : Bool :=
  let last := k.starts.filter fun i => i ≤ b.2.2 ∧ b.2.2 < i + (if isLong (k.word i) then 2 else 1)
  decide (k.words.length ≤ b.2.2) || (k.loops.any fun c => c.1 ≠ b.1 && inBody b c.1 && decide (b.2.2 ≤ c.2.2)) ||
    (k.loops.any fun c => decide (c.1 ≠ b.1 ∧ c.2.2 = b.2.2)) ||
    match last with
    | [i] => (isLong (k.word i) && decide (i = b.2.2)) || (match k.raw i with | some q => !endsBody q | none => true)
    | _ => true

/-- The loop rules (0x07). DEDUCED: of a LOOPMAX word that is not a LOOP, that word of the code is at fault (log 65). -/
def checkLoops (img : List Byte) (k : Code) : Found :=
  let crosses := fun (i t : Nat) => k.loops.any fun b => inBody b i ≠ inBody b t
  (k.bad fun i => match k.raw i with
    | some (.loop ..) => k.loops.any fun b => b.1 = i && loopBad k b
    | some (.br _ o) => match codeTarget k i o with | some t => crosses i t | none => false
    | some (.call _ o) => match codeTarget k i o with | some t => k.loops.any fun b => inBody b t | none => false
    | _ => false) ++
    ((imgRecs img 0x0D 8).filter fun o => !k.loops.any fun b => b.1 = fld img o 4).map fun o => (k.base + 4 * fld img o 4, 1)

/-- Barrier counters that an image declares, by `64 mu + counter`: BARINIT, and the counters of its multicast groups. -/
def declaredBars (img : List Byte) : List Nat :=
  (imgRecs img 0x05 4).map (fun o => fld img o 1) ++ (imgRecs img 0x0A 32).flatMap fun o =>
    let mu := bits (fld img (o + 3) 1) 3 2
    [64 * mu + fld img (o + 13) 1 % 64, 64 * mu + fld img (o + 14) 1 % 64]

/-- Work counters that an image declares: number, and 512 more for a device counter. -/
def declaredWkcs (img : List Byte) : List Nat := (imgRecs img 0x06 8).map fun o => fld img o 2 % 1024

/-- Buffers that an image declares. -/
def declaredBufs (img : List Byte) : List Nat := (imgRecs img 0x07 32).map fun o => fld img o 2

/-- Groups that an image declares. -/
def declaredGroups (img : List Byte) : List Nat := (imgRecs img 0x0A 32).map fun o => fld img o 1

/-- Whether an instruction names something undeclared. -/
def undeclaredOp (img : List Byte) : Instr → Bool
  | .fetch _ _ _ _ dev num | .tcmt _ _ _ _ dev num => decide (num + (if dev then 512 else 0) ∉ declaredWkcs img)
  | .arrive _ _ mu ctr _ _ | .wait _ mu ctr _ => decide (64 * mu + ctr ∉ declaredBars img)
  | .cut _ n => !(imgRecs img 0x0E 4).any fun o => fld img o 1 = n
  | _ => false

-- 0x0A, 0x0E, 0x12, 0x14, 0x15, 0x19, declared descriptors (R240 to R270)

/-- A declared descriptor: its DESC record, the core index, its core address and its bytes, none when they do not lie wholly inside
SRAMINIT data of the core. An MXE tile is seen with the S of R64 in it. -/
structure Desc where
  off : Nat
  idx : Nat
  addr : Nat
  bytes : Option (List Byte)
deriving DecidableEq, Repr

/-- The bytes of a descriptor in a core's SRAMINIT data. -/
def descBytes (img : List Byte) (idx addr : Nat) : Option (List Byte) :=
  match (sramInits img).find? fun r => forCore r.1 idx && decide (r.2.1 ≤ addr ∧ addr < r.2.1 + r.2.2.length) with
  | none => none
  | some r =>
    let b := r.2.2.drop (addr - r.2.1)
    let n := if dSize b then 128 else 64
    if b.length < n then none
    else
      let b := b.take n
      some (if dEng b = 0 then putBytes b 20 (leBytes 2 ((loaderS b 0 % 65536).toNat)) else b)

/-- The declared descriptors of an image, core by core. -/
def descsOf (img : List Byte) : List Desc :=
  (imgRecs img 0x04 8).flatMap fun o =>
    let c := fld img o 1
    let a := fld img (o + 4) 4
    (if c = 0xFF then List.range (coreCount img) else [c]).map fun i => { off := o, idx := i, addr := a, bytes := descBytes img i a }

/-- Faults of descriptors that fail a test. -/
def badDescs (ds : List Desc) (p : Desc → List Byte → Bool) : Found :=
  (ds.filter fun d => match d.bytes with | some b => p d b | none => false).map fun d => (d.off, 4)

/-- Barrier counters that a descriptor names, each with the core index (0xFF its own). -/
def descRefs (b : List Byte) : List BRef :=
  ([dStart b, dDone b, dAuxb b] ++ (if dEng b = 0 then [bref b 116] else [])).filter fun r => r.n ≠ 0

/-- Circuits that a descriptor names. -/
def descCircuits (b : List Byte) : List Nat :=
  if dEng b = 6 then (sCtrl b :: (List.range 4).flatMap fun j => [sIn b j, sOut b j]).filter (· ≠ 0xFFFF) else []

/-- Undeclared counters, cuts, groups, circuits and buffers (0x08). -/
def checkDeclared (img : List Byte) (k : Code) (ds : List Desc) : Found :=
  let circ := (circuitsOf img).map (·.num)
  (k.bad fun i => match k.raw i with | some q => undeclaredOp img q | none => false) ++
  (badDescs ds fun _ b => ((descRefs b).any fun r => 64 * r.mu + r.ctr ∉ declaredBars img) || ((descCircuits b).any fun c => c ∉ circ) ||
    (decide (dEng b = 5) && decide (fld b 16 1 ∉ declaredGroups img))) ++
  badRecs img 0x08 16 (fun o => decide (fld img (o + 8) 2 ∉ declaredBufs img)) ++
  badRecs img 0x09 16 (fun o => decide (fld img (o + 4) 1 = 0xFF ∧ fld img (o + 5) 1 ∉ declaredGroups img)) ++
  badRecs img 0x0E 4 fun o => decide (fld img (o + 2) 2 ≠ 0xFFFF ∧ fld img (o + 2) 2 ∉ declaredBufs img)

/-- Whether a CSRR offset names a register of the core's block or of its die's common block (R232). -/
def csrNamed (o : W32) : Bool := (o.getLsbD 20 || decide (o.toNat < 0x80000)) && (regAt (ownCsr 0 o)).isSome

/-- CSR offsets (0x09, R232). -/
def checkCsr (k : Code) : Found :=
  k.bad fun i => match k.raw i with
    | some (.csrr q r o) => !(Instr.csrr q r o).wf || !csrNamed o
    | some (.csrw q r o) => !(Instr.csrw q r o).wf
    | _ => false

/-- Whether a descriptor is a codec transfer with a format that R195 does not give. -/
def badCodec (b : List Byte) : Bool := decide (dEng b = 4) && xCodec b && (codecSize (bits (fld b 17 1) 3 0)).isNone

/-- The fields that a chain's segments share (R76). -/
def chainKey (b : List Byte) : List Nat := [fld b 20 2, mKTotal b, fld b 46 1 % 2, fld b 19 1, fld b 16 1]

/-- The declared segments of a tile's chain, each with its core: the chained tiles of its CHAIN_ID on every core (R67, R76). -/
def chainOf (ds : List Desc) (b : List Byte) : List (Nat × List Byte) :=
  ds.filterMap fun e => (e.bytes.filter fun c => decide (dEng c = 0 ∧ fld c 22 2 = fld b 22 2) && mChained c).map fun c => (e.idx, c)

/-- Segments by a key, each as often as the core that declares it most often does: those of one key on several cores are parallel copies of one
segment of the chain, DEDUCED (log 79); on one core each counts. -/
def chainParts (l : List (Nat × List Byte)) (key : List Byte → Nat × Nat) : List ((Nat × Nat) × Nat) :=
  let ks := l.map fun e => (e.1, key e.2)
  (ks.map (·.2)).eraseDups.map fun k => (k, (ks.map fun e => ks.count (e.1, k)).foldl max 0)

/-- The K extent of a chain: K_LEN summed over its segments (R58). -/
def chainExtent (l : List (Nat × List Byte)) : Nat := ((chainParts l fun c => (mKStart c, mKLen c)).map fun e => e.1.2 * e.2).sum

/-- How many BIAS and RESIDUAL preloads a chain has (R76). -/
def chainPreloads (l : List (Nat × List Byte)) : Nat :=
  ((chainParts (l.filter fun e => mPreload e.2 = 1 ∨ mPreload e.2 = 2) fun c => (mKStart c, 4 * mKLen c + mPreload c)).map (·.2)).sum

/-- Whether a tile breaks R58, R76 or R252: an unchained one whose K_TOTAL is not its K_LEN; a chained one that disagrees with another segment,
whose chain has more than one bias or residual, or none although XG is 1, or whose segments do not add up to K_TOTAL. -/
def chainBad (ds : List Desc) (b : List Byte) : Bool :=
  decide (dEng b = 0) &&
    if mChained b then
      let mates := chainOf ds b
      mates.any (fun c => chainKey c.2 ≠ chainKey b) || decide (chainPreloads mates ≠ fld b 46 1 % 2) || decide (chainExtent mates ≠ mKTotal b)
    else decide (mKTotal b ≠ mKLen b)

/-- The stage program that a declared walk runs under. No field says which: DEDUCED (log 79), the one for its core and reel that is declared
last before it; with none, none. -/
def progOf (ds : List Desc) (d : Desc) (reel : Nat) : Option (List Byte) :=
  ((ds.takeWhile fun e => e.off ≠ d.off).filter fun e => e.idx = d.idx).reverse.findSome? fun e =>
    e.bytes.filter fun c => dEng c = 1 ∧ dKind c = 1 ∧ dReel c = reel

/-- Whether a walk does not suit its program: too wide for running values (R108), or not the tile that source T holds (R260). -/
def walkBad (ds : List Desc) (d : Desc) (b : List Byte) : Bool :=
  decide (dEng b = 1 ∧ dKind b = 0) && (progOf ds d (dReel b)).any fun c =>
    (decide (64 < dExt b 0) && (List.range 8).any fun t => writesCache (stage c t).op) ||
      (namesT c && decide (dNdim b ≠ 2 ∨ dExt b 0 ≠ 64 ∨ dExt b 1 ≠ 128))

/-- The walks and the reductions of a core that tap, each in declared order: the k-th pair up (R264). -/
def tapPairs (ds : List Desc) (idx : Nat) : List (List Byte × List Byte) :=
  let mine := (ds.filter fun e => e.idx = idx).filterMap fun e => e.bytes.filter tapOf
  (mine.filter fun c => dEng c = 2).zip (mine.filter fun c => dEng c = 1 ∧ dKind c = 0)

/-- Whether a tapped reduction over COL has a walk that is too wide for it (R111). DEDUCED: walks and reductions pair in declared order
(log 79). -/
def tapBad (ds : List Desc) (d : Desc) (b : List Byte) : Bool :=
  decide (dEng b = 2) && tapOf b && decide (rAxis b = 1) && (tapPairs ds d.idx).any fun p =>
    decide (p.1 = b) && decide ((if rKind b = 2 then 2048 else 4096) < dExt p.2 0)

/-- Core addresses that a reduction writes: first byte and length. One that taps has the outputs of its walk, of which its own fields say
nothing: its first record counts. -/
def redSpan (c : List Byte) : Nat × Nat :=
  (bits (fld c 72 4) 23 0, recordSize c * (if tapOf c then 1 else if rMerge c then dRows c else outputsOf (rAxis c) c))

/-- Whether a merge reads records of a declared reduction of its core that are of another kind or were not written with OUT64 (R110, R117).
DEDUCED: by their addresses (log 15). -/
def mergeBad (ds : List Desc) (d : Desc) (b : List Byte) : Bool :=
  decide (dEng b = 2) && rMerge b && !tapOf b &&
    let t := strm b 52
    let span := (dRows b - 1) * t.p1 * 64 + dExt b 0 * mergeSize b
    !t.agp && ds.any fun e => e.idx = d.idx && match e.bytes with
      | some c => decide (dEng c = 2) && decide (t.addr < (redSpan c).1 + (redSpan c).2 ∧ (redSpan c).1 < t.addr + span) &&
          (decide (rKind c ≠ rKind b) || (decide (rKind c < 6) && !rOut64 c) || (decide (6 ≤ rKind c) && decide (rK c ≠ rK b)))
      | none => false

/-- A descriptor as check 0x0A sees it: the format of a coded transfer is left to check 0x15. -/
def sansCodec (b : List Byte) : List Byte := if badCodec b then putBytes b 17 [BitVec.ofNat 8 (fld b 17 1 / 16 * 16)] else b

/-- Whether a relocation writes some of the 8 bytes at a core address. -/
def relocated (img : List Byte) (idx addr : Nat) : Bool :=
  (imgRecs img 0x08 16).any fun o => forCore (fld img o 1) idx && decide (fld img (o + 4) 4 < addr + 8 ∧ addr < fld img (o + 4) 4 + 8)

/-- A multicast descriptor as check 0x0A sees it: a source that a relocation writes (R276) is taken to be legal, since it comes later. -/
def sansSrc (img : List Byte) (d : Desc) (b : List Byte) : List Byte :=
  if dEng b = 5 ∧ relocated img d.idx (d.addr + 20) then putBytes b 20 (leBytes 8 (ctlBase 0)) else b

/-- Declared descriptors (0x0A). -/
def checkDescs (img : List Byte) (ds : List Desc) : Found :=
  (ds.filter fun d => d.bytes.isNone).map (fun d => (d.off, 4)) ++
    badDescs ds fun d b => !typeOk b || (descBad d.idx (coreCount img) (d.addr / muBytes) true (sansSrc img d (sansCodec b))).isSome || chainBad ds b || walkBad ds d b ||
      tapBad ds d b || mergeBad ds d b

-- 0x0B to 0x19, buffers, placement and bounds

/-- Alignment (0x0B). -/
def checkAlign (img : List Byte) : Found :=
  badRecs img 0x07 32 (fun o => decide (fld img (o + 16) 8 % (if fld img (o + 3) 1 = 1 then 4096 else 64) ≠ 0)) ++
    badRecs img 0x08 16 fun o => decide (fld img (o + 4) 4 % 8 ≠ 0)

/-- SRAM ranges that an image gives: core index or 0xFF, first byte, bytes, offset and section. -/
def sramRanges (img : List Byte) : List (Nat × Nat × Nat × Nat × Nat) :=
  (sramOffs img).map (fun o => (fld img o 1, fld img (o + 4) 4, fld img (o + 8) 4, o, 3)) ++
    ((imgRecs img 0x07 32).filter fun o => fld img (o + 3) 1 = 0).map fun o => (0xFF, fld img (o + 16) 8, fld img (o + 8) 8, o, 7)

/-- SRAM buffers and SRAMINIT data that overlap or pass the end of an MU (0x0C). -/
def checkSram (img : List Byte) : Found :=
  let rs := sramRanges img
  (rs.zipIdx.filter fun e =>
    let r := e.1
    decide (muBytes < r.2.1 % muBytes + r.2.2.1) || (rs.take e.2).any fun q =>
      decide ((q.1 = r.1 ∨ q.1 = 0xFF ∨ r.1 = 0xFF) ∧ q.2.1 < r.2.1 + r.2.2.1 ∧ r.2.1 < q.2.1 + q.2.2.1)).map
    fun e => (e.1.2.2.2.1, e.1.2.2.2.2)

/-- Physical cores of a rectangle. -/
def physRect (s : State) (img : List Byte) (o : Nat × Nat) : List Nat := (rectAt (imgRows img) (imgCols img) o.1 o.2).filterMap (physOf s)

/-- The physical cores that an image would have on an otherwise empty device. -/
def emptyCores (s : State) (img : List Byte) : List Nat :=
  match firstOrigin (imgRows img) (imgCols img) (available s) with | some o => physRect s img o | none => []

/-- The threads that a declared AG program runs on, numbered 8 ag + thread. -/
def progThreads (b : List Byte) : List Nat := (List.range (agThreads b)).map fun i => 8 * agSel b + agThread b + i

/-- The plain streams of a descriptor in an MU: each runs on one thread of an AG there (R126). -/
def plainStreams (b : List Byte) (mu : Nat) : Nat :=
  let at_ := fun (l : List Nat) => (l.filter fun a => a / muBytes = mu).length
  let strms := fun (l : List Strm) => at_ ((l.filter fun t => t.en && !t.agp).map (·.addr))
  match dEng b with
  | 0 => at_ [(opnd b 52).addr, (opnd b 68).addr] + (if mPreload b = 0 then 0 else at_ [bits (fld b 96 4) 23 0]) +
      (if mDrain b = 0 then 0 else at_ [bits (fld b 84 4) 23 0])
  | 1 => if dKind b = 0 then strms [strm b 52, strm b 68, strm b 84, strm b 100] else if dKind b = 2 then strms [strm b 24] else 0
  | 2 => strms [strm b 52] + at_ [bits (fld b 72 4) 23 0]
  | 4 => match xDir b with
      | 0 | 3 => at_ [xDst b % 0x1000000]
      | 1 | 2 => at_ [xSrc b % 0x1000000]
      | _ => 0
  | _ => 0

/-- Whether the code reaches MUs: it reads or writes words, issues descriptors or commits records (R219). -/
def reachesMus (k : Code) : Bool :=
  k.starts.any fun i => match k.raw i with
    | some (.ldw ..) | some (.stw ..) | some (.issue ..) | some (.tcmt ..) => true
    | _ => false

/-- The streams between an MU and the router: the ends of circuits there (R126). -/
def portStreams (img : List Byte) (idx mu : Nat) : Nat :=
  ((imgRecs img 0x09 16).map fun o =>
    b2n (decide (fld img (o + 2) 1 = idx ∧ fld img (o + 3) 1 = mu)) + b2n (decide ((idx, mu) ∈ receiversOf img (slice img o 16)))).sum

/-- Live streams that an MU of a core needs at once, at least: the CSQ's thread where the code reaches MUs (R219), which of them its addresses
decide only when it runs, the threads of the declared AG programs, the ends of circuits, and the plain streams of the declared descriptor that
has the most. DEDUCED (log 30): which descriptors live at once follows from no field. -/
def muStreams (img : List Byte) (k : Code) (ds : List Desc) (idx mu : Nat) : Nat :=
  let mine := ds.filter fun e => e.idx = idx
  let progs := (mine.filter fun e => e.addr / muBytes = mu).flatMap fun e => match e.bytes with
    | some b => if dEng b = 3 then progThreads b else []
    | none => []
  b2n (reachesMus k) + progs.eraseDups.length + portStreams img idx mu +
    (mine.map fun e => match e.bytes with | some b => plainStreams b mu | none => 0).foldl max 0

/-- Threads (0x0D, R126, R219): too many live streams in an MU, an AG program on the CSQ's thread, or a
thread that THREAD_EN of the core disables. -/
def checkThreads (s : State) (img : List Byte) (k : Code) (ds : List Desc) : Found :=
  let cs := emptyCores s img
  let off := fun (d : Desc) (ag t : Nat) => match cs[d.idx]? with
    | some c => !bit (wbits (cget s (muBase c (d.addr / muBytes) + 8 + 8 * ag)) 7 0) t
    | none => false
  (ds.filter fun d => off d 0 7 || [0, 1, 2, 3].any fun m => decide (16 < muStreams img k ds d.idx m)).map (fun d => (d.off, 4)) ++
    badDescs ds fun d b => decide (dEng b = 3) && (progThreads b).any fun t => decide (t = 7) || off d (t / 8) (t % 8)

/-- Whether a descriptor is a guarded prefetch, of the XFR or of an AG. -/
def isPrefetch (b : List Byte) : Bool := (decide (dEng b = 4) && xGuard b) || (decide (dEng b = 3) && agGuard b)

/-- A barrier counter by the core index that keeps it. -/
def counterOf (d : Desc) (r : BRef) : Nat × Nat × Nat := (if r.core = 0xFF then d.idx else r.core, r.mu, r.ctr)

/-- Whether something other than a guarded prefetch arrives on a counter: a descriptor on any core, or a multicast group. DONE never is
a prefetch's arrival. -/
def foreignArrival (img : List Byte) (ds : List Desc) (q : Nat × Nat × Nat) (mine : List Byte → Bool) : Bool :=
  (ds.any fun e => match e.bytes with
    | some c =>
      let on := fun (r : BRef) => decide (r.n ≠ 0 ∧ counterOf e r = q)
      on (dDone c) || (on (dAuxb c) && !mine c && decide (dEng c ≠ 0)) || (decide (dEng c = 0) && on (bref c 116))
    | none => false) ||
  (imgRecs img 0x0A 32).any fun o => decide ((fld img (o + 2) 1, bits (fld img (o + 3) 1) 3 2, bits (fld img (o + 14) 1) 5 0) = q)

/-- The consumers whose waits a counter has: engines of a core by their START, an MXE also by its check barrier (R244), a group's fetching core
by its credit (R274), and the CSQ. -/
def consumersOf (img : List Byte) (ds : List Desc) (q : Nat × Nat × Nat) (csq : Bool) : Nat :=
  let waits := fun (e : Desc) (r : BRef) => decide (r.n ≠ 0 ∧ counterOf e r = q)
  ((ds.filterMap fun (e : Desc) => e.bytes.bind fun c =>
      if waits e (dStart c) || (decide (dEng c = 0) && waits e (dAuxb c)) then some (e.idx, dEng c) else none) ++
    ((imgRecs img 0x0A 32).filter fun o =>
      decide ((fld img (o + 2) 1, bits (fld img (o + 3) 1) 3 2, bits (fld img (o + 13) 1) 5 0) = q)).map fun o =>
        (256 + fld img (o + 1) 1, 5)).eraseDups.length + b2n csq

/-- Guarded and versioned reads and their consume barriers (0x0E, R157, R159): each has one, nothing else arrives on it, and it has one
consumer. -/
def checkBarriers (img : List Byte) (k : Code) (ds : List Desc) : Found :=
  badDescs ds fun d b =>
    let r := dAuxb b
    let q := counterOf d r
    let csq := fun (p : Instr → Bool) => k.starts.any fun i => match k.raw i with | some o => p o | none => false
    let arrives := csq fun o => match o with | .arrive _ _ mu ctr _ _ => decide (mu = r.mu ∧ ctr = r.ctr) | _ => false
    let waits := csq fun o => match o with | .wait _ mu ctr _ => decide (mu = r.mu ∧ ctr = r.ctr) | _ => false
    let vers := fun (c : List Byte) => decide (dEng c = 4) && xVers c
    let bad := fun (mine : List Byte → Bool) =>
      decide (r.n = 0) || arrives || foreignArrival img ds q mine || decide (1 < consumersOf img ds q waits)
    (isPrefetch b && bad isPrefetch) || (vers b && bad vers)

/-- Cache words that a stage of a program may name on a walk, from the first to behind the last (R94, R256); the whole cache when the
index may wrap. -/
def stageSpan (p : List Byte) (t : Nat) (walk : List Byte) : Nat × Nat :=
  let g := stage p t
  let k : Int := if g.cmode = 1 then 64 else 1
  let term := fun (c : Int) (n : Nat) => (min 0 (c * n), max 0 (c * n))
  let a := term g.c0 ((dExt walk 0 - 1) / 64 * 64)
  let b := term (k * g.c1) (dExt walk 1 - 1)
  let c := term (k * g.c2) (dExt walk 2 - 1)
  let lo := (g.cbase : Int) + a.1 + b.1 + c.1
  let hi := (g.cbase : Int) + a.2 + b.2 + c.2 + (if g.cmode = 1 then 64 else if 0x19 ≤ g.op ∧ g.op ≤ 0x1A then 2 else 1)
  if lo < 0 ∨ 8192 < hi then (0, 8192) else (lo.toNat, hi.toNat)

/-- The cache regions that a core's declared descriptors name: reel, stage, first word and end. -/
def cacheRegions (ds : List Desc) (idx : Nat) : List (Nat × Nat × Nat × Nat) :=
  (ds.filter fun e => e.idx = idx).flatMap fun e => match e.bytes with
    | none => []
    | some b =>
      if dEng b ≠ 1 then []
      else if dKind b = 2 then [(dReel b, fld b 16 1 % 8, fld b 18 2, fld b 18 2 + fld b 20 4)]
      else if dKind b = 0 then (progOf ds e (dReel b)).toList.flatMap fun p =>
        ((List.range 8).filter fun t => (stage p t).names 4 || writesCache (stage p t).op).map fun t =>
          (dReel b, t, (stageSpan p t b).1, (stageSpan p t b).2)
      else []

/-- Whether two reels of a stage name overlapping cache regions on a core (R95). DEDUCED (log 30): a region is what the reel's declared
walks and VCACHE descriptors name. -/
def cachesOverlap (ds : List Desc) (idx : Nat) : Bool :=
  let rs := cacheRegions ds idx
  rs.any fun a => rs.any fun b => decide (a.1 ≠ b.1 ∧ a.2.1 = b.2.1 ∧ a.2.2.1 < b.2.2.2 ∧ b.2.2.1 < a.2.2.2)

/-- Reel numbers, quanta and cache regions (0x0F). -/
def checkReels (img : List Byte) (ds : List Desc) : Found :=
  badRecs img 0x0B 8 (fun o => decide (7 < fld img (o + 2) 1 ∨ fld img (o + 4) 2 < 16)) ++
    badDescs ds fun d b => decide (dEng b = 1) && cachesOverlap ds d.idx

/-- The image's buffers as they are before they have addresses. -/
def bareBufs (img : List Byte) : List Buf :=
  (imgRecs img 0x07 32).map fun o =>
    { id := fld img o 2, kind := fld img (o + 2) 1, tier := fld img (o + 3) 1, size := fld img (o + 8) 8, addr0 := fld img (o + 16) 8,
      addr1 := fld img (o + 16) 8, pub := 0 }

/-- Physical work counters that a placement on some dies binds. -/
def wkcCount (img : List Byte) (dies : Nat) : Nat :=
  (imgRecs img 0x06 8).foldl (fun n o => n + if bit (fld img o 2) 9 then 1 else dies) 0

/-- HBM3E bytes of an image: its buffers in that tier, the host's among them, and its cut area (R342). -/
def hbmBytes (img : List Byte) : Nat :=
  let bs := bareBufs img
  let cut := if cutsOf img = [] then 0
    else 2 * cutHalf { img := img, bufs := bs, wkcs := List.replicate (wkcCount img (imgRows img)) (0, 0, 0) }
  bs.foldl (fun n b => if b.tier = 1 then n + b.size * (if b.kind = 2 then 2 else 1) else n) cut

/-- Capacity (0x10). -/
def checkCapacity (img : List Byte) : Found :=
  badRecs img 0x07 32 (fun o => decide (fld img (o + 4) 1 ≠ 0xFF ∧
    0x1400000000 < fld img (o + 8) 8 * (if fld img (o + 2) 1 = 2 then 2 else 1))) ++
    match imgSect img 0x07 with
    | some (o, _, _) => need (hbmBytes img ≤ 16 * 0x1400000000) o 7
    | none => need (hbmBytes img ≤ 16 * 0x1400000000) 0 0

/-- The buffer that a relocation puts at a core address. -/
def relocBuf (img : List Byte) (idx addr : Nat) : Option Buf :=
  ((imgRecs img 0x08 16).find? fun o => forCore (fld img o 1) idx && decide (fld img (o + 4) 4 = addr)).bind fun o =>
    (bareBufs img).find? fun b => b.id = fld img (o + 8) 2

/-- Tiers of the kinds, and transfers whose source is relocated to an intermediate and whose destination is a peer or lies in
LPDDR5X (0x11, R21, R276). -/
def checkTier (img : List Byte) (ds : List Desc) : Found :=
  badRecs img 0x07 32 (fun o => if fld img (o + 2) 1 = 1 then decide (fld img (o + 3) 1 = 2) else decide (fld img (o + 3) 1 = 0)) ++
    badDescs ds fun d b => decide (dEng b = 4) && (match relocBuf img d.idx (d.addr + 24) with | some q => decide (q.kind = 1) | none => false) &&
      (decide (xDir b = 2) || (decide (xDir b = 1) && match relocBuf img d.idx (d.addr + 32) with
        | some q => decide (q.tier = 2)
        | none => match decodeAddr (xDst b) with | .lpddr _ _ => true | _ => false))

/-- Whether a device address lies in an INPUT buffer. -/
def inInput (img : List Byte) (a : Nat) : Bool :=
  (bareBufs img).any fun q => decide (q.kind = 0 ∧ q.addr0 ≤ a ∧ a < q.addr0 + q.size)

/-- What the program writes (0x12, R276, R341): a STORE whose target lies in no VERSIONED or PRIVATE buffer, a SCATTER to an INPUT buffer, and live
buffers of a wrong kind. An address that is not relocated and lies in HBM3E or LPDDR5X lies in no buffer that the loader allocates. A store or
a TCMT whose address the program forms itself is met when it runs (log 15). -/
def checkOutput (img : List Byte) (ds : List Desc) : Found :=
  (badDescs ds fun d b => decide (dEng b = 4 ∧ xDir b = 1) &&
    match relocBuf img d.idx (d.addr + 32) with
    | some q => decide (q.kind ≠ 2 ∧ q.kind ≠ 3)
    | none => (ctlOf (xDst b)).isSome) ++
  (badDescs ds fun _ b => decide (dEng b = 3 ∧ dKind b = 2) && inInput img (fld b 20 8)) ++
  badRecs img 0x0E 4 fun o => match (bareBufs img).find? fun b => b.id = fld img (o + 2) 2 with
    | some b => decide (b.kind = 0 ∨ b.kind = 2)
    | none => false

/-- INPUT ranges (0x13). -/
def checkInput (s : State) (img : List Byte) : Found :=
  badRecs img 0x07 32 fun o => decide (fld img (o + 2) 1 = 0) &&
    let a := fld img (o + 16) 8
    !(regionsAre s a (fld img (o + 8) 8) 0 && match decodeAddr a with
      | .hbm _ _ => decide (fld img (o + 3) 1 = 1)
      | .lpddr _ _ => decide (fld img (o + 3) 1 = 2)
      | _ => false)

/-- Multicast groups (0x14): one fetching core and MU for each, tiles within every slot, and a hold of DETACH tiles inside an MU. -/
def checkMcast (img : List Byte) (ds : List Desc) : Found :=
  badRecs img 0x0A 32 (fun o => (imgRecs img 0x0A 32).any fun p =>
    decide (p < o ∧ fld img p 1 = fld img o 1 ∧ (fld img (p + 1) 1 ≠ fld img (o + 1) 1 ∨ fld img (p + 3) 1 % 4 ≠ fld img (o + 3) 1 % 4))) ++
    badDescs ds fun _ b => decide (dEng b = 5) &&
      (((groupRecvs img (fld b 16 1)).any fun r => r.slot < cLen b) ||
        (decide (cDetach b ≠ 0) && !inMu (bits (fld b 40 4) 23 0) (cDetach b * cLen b)))

/-- Work counters (0x16). -/
def checkCounters (img : List Byte) : Found :=
  let recs := imgRecs img 0x06 8
  let before := fun (o : Nat) (p : Nat → Bool) => (recs.filter fun q => q ≤ o && p (fld img q 2)).length
  badRecs img 0x06 8 fun o =>
    let n := fld img o 2
    if bit n 9 then decide (256 < before o fun m => bit m 9 && (bit m 10 == bit n 10))
    else bit n 10 || decide (64 < before o fun m => !bit m 9)

/-- Circuits whose ends lie outside the rectangle or that no path joins (0x17), at the origin that an empty device gives. -/
def checkRoute (s : State) (img : List Byte) : Found :=
  let cs := emptyCores s img
  badRecs img 0x09 16 fun o =>
    let route := slice img o 16
    let dst := fld route 4 1
    decide (coreCount img ≤ fld route 2 1) || (decide (dst ≠ 0xFF) && decide (coreCount img ≤ dst)) ||
      (decide (dst = 0xFF) && (imgRecs img 0x0A 32).any fun p =>
        decide (fld img p 1 = fld route 5 1 ∧ (fld img (p + 1) 1 ≠ fld route 2 1 ∨ fld img (p + 3) 1 % 4 ≠ fld route 3 1))) ||
      match cs[fld route 2 1]?, (receiversOf img route).mapM fun r => cs[r.1]? with
      | some a, some bs => (unionPath s true a bs).isNone && (unionPath s false a bs).isNone
      | _, _ => true

/-- The timetable of an otherwise empty device (0x18). -/
def checkTimetable (s : State) (img : List Byte) : Found :=
  let len := if lReq img = 0 then 64 else lReq img
  match firstOrigin (imgRows img) (imgCols img) (available s) with
  | none => []
  | some o =>
    let p := placedAt s 0 img (physRect s img o) []
    need (routeImage s [p] len (some []) p).isSome (match imgSect img 0x09 with | some (o, _, _) => o | none => 0) 9

/-- The actual-length register that a CSR offset names. -/
def alOf (o : W32) : Option Nat := if within 0x8080 0x80F8 o.toNat then some ((o.toNat - 0x8080) / 8) else none

/-- Loops and actual lengths without a bound (0x19). DEDUCED: code that reads or writes a CSQ_AL register uses it (log 64). -/
def checkBound (img : List Byte) (k : Code) (ds : List Desc) : Found :=
  let al := match imgSect img 0x0C with | some (_, _, n) => n | none => 0
  (k.bad fun i => match k.raw i with
    | some (.loop ..) => !(imgRecs img 0x0D 8).any fun o => fld img o 4 = i
    | some (.csrr _ _ o) | some (.csrw _ _ o) => match alOf o with | some n => decide (al ≤ n) | none => false
    | _ => false) ++
    badDescs ds fun _ b => [13, 14].any fun o => (lim b o).en && decide (al ≤ (lim b o).al)

-- The checks in order (R279)

/-- The checks that need a sound header, table and records, by code. -/
def laterChecks (s : State) (img : List Byte) : List (Nat × Found) :=
  let k := codeOf img
  let ds := descsOf img
  [(0x03, checkShape s img), (0x04, checkOpcode k), (0x05, checkField k), (0x06, checkTarget img k), (0x07, checkLoops img k),
   (0x08, checkDeclared img k ds), (0x09, checkCsr k), (0x0A, checkDescs img ds), (0x0B, checkAlign img), (0x0C, checkSram img),
   (0x0D, checkThreads s img k ds), (0x0E, checkBarriers img k ds), (0x0F, checkReels img ds), (0x10, checkCapacity img), (0x11, checkTier img ds),
   (0x12, checkOutput img ds), (0x13, checkInput s img), (0x14, checkMcast img ds), (0x15, badDescs ds fun _ b => badCodec b),
   (0x16, checkCounters img), (0x17, checkRoute s img), (0x18, checkTimetable s img), (0x19, checkBound img k ds)]

/-- A failed check: its code, the section and the offset at fault (R279). -/
structure ImgFail where
  code : Nat
  sect : Nat
  off : Nat
deriving DecidableEq, Repr

/-- The first failure of an image, if any; `len` is the LENGTH of the load record. -/
def imageCheck (s : State) (img : List Byte) (len : Nat) : Option ImgFail :=
  let fail := fun (code : Nat) (e : Nat × Nat) => ({ code := code, sect := e.2, off := e.1 } : ImgFail)
  match firstFound (checkHeader img len) with
  | some e => some (fail 1 e)
  | none => match firstFound (checkTable img) with
    | some e => some (fail 2 e)
    | none => match firstFound (checkRecords img) with
      | some e => some (fail 2 e)
      | none => (laterChecks s img).findSome? fun c => (firstFound c.2).map (fail c.1)

end Sys2Proof.Machine
end

