-- ==== Sys2Proof/Machine/Loader.lean ====
section
/-! DEFINITION. The loader: loads, reports, handles (R278, R281), placement (R125, R282 to R284), buffers (R519), counters (R160),
waiting loads (R283) and unloads. -/
namespace Sys2Proof.Machine

open Sys2Proof

-- Buffers (R519, R342)

/-- Least crossings between two C-dies (R16). -/
def crossings (a b : Nat) : Nat :=
  (max (dieCol a) (dieCol b) - min (dieCol a) (dieCol b)) + (if a / 4 = b / 4 then 0 else 1)

/-- RELOC records that name a buffer and lie on one row of the rectangle. -/
def relocsOnRow (img : List Byte) (id row : Nat) : Nat :=
  (imgRecs img 0x08 16).foldl (fun n o =>
    if fld img (o + 8) 2 ≠ id then n
    else if fld img o 1 = 0xFF then n + imgCols img
    else if fld img o 1 / imgCols img = row then n + 1 else n) 0

/-- Home C-die of a buffer in a rectangle whose first row is `r`: each row of the grid is one die (R14). -/
def homeDie (img : List Byte) (id r : Nat) : Nat :=
  r + (List.range (imgRows img)).foldl (fun best i => if relocsOnRow img id best < relocsOnRow img id i then i else best) 0

/-- Insert a stack into an order of rising distance from a die, and of rising number among equals. -/
def insertNear (d k : Nat) : List Nat → List Nat
  | [] => [k]
  | q :: t => if crossings d (k / 2) ≤ crossings d (q / 2) then k :: q :: t else q :: insertNear d k t

/-- Stacks in the order in which R519 tries them for a home die. -/
def stackOrder (d : Nat) : List Nat :=
  2 * d :: (2 * d + 1) :: ((List.range 16).filter fun k => k / 2 ≠ d).foldr (insertNear d) []

/-- Packages in the order in which R519 tries them, as controller numbers. -/
def pkgOrder (d : Nat) : List Nat :=
  let near := (List.range 32).map fun i => 16 + (if dieCol d ≤ 1 then 0 else 32) + i
  let far := (List.range 32).map fun i => 16 + (if dieCol d ≤ 1 then 32 else 0) + i
  near ++ far

/-- Bytes that a buffer takes: both versions of a VERSIONED one lie in one range (log 31). -/
def Buf.span (b : Buf) : Nat := if b.kind = 2 then page b.size + b.size else b.size

/-- Ranges of memory that a loaded image uses: its buffers and its cut area. -/
def usedBy (x : Slot) : List (Nat × Nat) :=
  (x.bufs.flatMap fun b => if b.tier = 0 then [] else if b.kind = 2 then [(b.addr0, b.size), (b.addr1, b.size)] else [(b.addr0, b.size)]) ++
    (if cutsOf x.img = [] then [] else [(x.cutBase, 2 * cutHalf x)])

/-- Ranges that loaded images use. -/
def usedRanges (s : State) : List (Nat × Nat) := s.loader.slots.flatMap fun e => usedBy e.2

/-- Whether two ranges share a byte. -/
def overlap (a la b lb : Nat) : Bool := decide (a < b + lb ∧ b < a + la)

/-- The lowest free range of a controller that holds a length (R519 step 4). A lowest range begins where the memory begins or
where something that blocks ends; a failed memory's regions have left use (R177, R182). -/
def lowestRange (s : State) (used : List (Nat × Nat)) (k len : Nat) : Option Nat :=
  if (ctl s k).state = .failed then none else
  let lo := ctlBase k
  let hi := lo + ctlSize k
  let marks := lo :: (lo + 0x4000000) :: (used.map fun u => page (u.1 + u.2)) ++ s.regions.flatMap fun e => [e.1 * 0x10000, (e.1 + 1) * 0x10000]
  (sortAsc (marks.filter fun a => lo ≤ a ∧ a + len ≤ hi)).find? fun a =>
    regionsAre s a len 0 && used.all fun u => !overlap a len u.1 u.2

/-- The first of some controllers with room for a length, and the address. -/
def firstRoom (s : State) (used : List (Nat × Nat)) (ks : List Nat) (len : Nat) : Option Nat :=
  ks.findSome? fun k => lowestRange s used k len

/-- Allocate the buffers of an image in record order (R519). None when no memory holds one. -/
def allocBufs (s : State) (img : List Byte) (r : Nat) : Option (List Buf × List (Nat × Nat)) :=
  (imgRecs img 0x07 32).zip (bareBufs img) |>.foldl (fun acc e =>
    acc.bind fun a =>
      let b := e.2
      if b.kind = 0 ∨ b.tier = 0 then some (a.1 ++ [b], if b.tier = 0 then a.2 else a.2 ++ [(b.addr0, b.size)])
      else
        let pin := fld img (e.1 + 4) 1
        let d := homeDie img b.id r
        let ks := if b.tier = 2 then pkgOrder d else if pin ≠ 0xFF then [pin] else stackOrder d
        (firstRoom s a.2 ks b.span).map fun at_ =>
          (a.1 ++ [{ b with addr0 := at_, addr1 := if b.kind = 2 then at_ + page b.size else at_ }], a.2 ++ [(at_, b.span)]))
    (some ([], usedRanges s))

/-- Buffers and cut area of an image; the cut area goes where a buffer that no RELOC names goes (R342; log 31). -/
def allocImage (s : State) (x : Slot) (r : Nat) : Option Slot :=
  (allocBufs s x.img r).bind fun a =>
    let x := { x with bufs := a.1 }
    if cutsOf x.img = [] then some x
    else (firstRoom s a.2 (stackOrder r) (2 * cutHalf x)).map fun at_ => { x with cutBase := at_ }

-- Work counters (R160)

/-- Free the counters of a slot. -/
def unbindWkcs (s : State) (n : Nat) : State := { s with wkc := s.wkc.filter fun e => e.2.bound ≠ some n }

/-- Bind the lowest free counter of a block of counters. -/
def bindIn (s : State) (n lo size : Nat) : Option (State × Nat) :=
  (((List.range size).map (lo + ·)).find? fun k => (wkcOf s k).bound = none).map fun k => (setWkc s k { bound := some n }, k)

/-- Bind an image's counters: one on each die of the placement, or one of the hub that its record names. -/
def bindWkcs (s : State) (n : Nat) (img : List Byte) (r : Nat) : Option (State × List (Nat × Nat × Nat)) :=
  (imgRecs img 0x06 8).foldl (fun acc o =>
    let w := fld img o 2
    if bit w 9 then
      acc.bind fun a => (bindIn a.1 n (512 + 256 * b2n (bit w 10)) 256).map fun q => (q.1, a.2 ++ [(w, 0, q.2)])
    else (List.range (imgRows img)).foldl (fun acc i =>
      acc.bind fun a => (bindIn a.1 n (64 * (r + i)) 64).map fun q => (q.1, a.2 ++ [(w, r + i, q.2)])) acc)
    (some (s, []))

-- Placing (R125, R282 to R284)

/-- Whether an image other than a slot's own occupies a logical position. -/
def occupied (s : State) (n l : Nat) : Bool :=
  (List.range 26).any fun i => match (core s (26 * (l / 24) + i)).place with | some p => decide (p.lcore = l ∧ p.slot ≠ n) | none => false

/-- The first origin free for a slot's image. -/
def freeOrigin (s : State) (n : Nat) (img : List Byte) : Option (Nat × Nat) :=
  firstOrigin (imgRows img) (imgCols img) fun l => available s l && !occupied s n l

/-- Place one core of a slot's image: its SRAM is cleared, its data and code written. It wakes from Off, and idles unless a take is starting
on the slot (R423, R425). -/
def placeCore (s : State) (n : Nat) (x : Slot) (idx : Nat) : State :=
  let cols := imgCols x.img
  let row := x.row + idx / cols
  let col := x.col + idx % cols
  let l := lcoreOf row col
  match physOf s l with
  | none => s
  | some c =>
    let p : Place := { slot := n, rows := imgRows x.img, cols := cols, row := row, col := col, lcore := l, index := idx }
    let s := setCore s c { place := some p, code := imgCode x.img, issued := (core s c).issued, power := if slotWanted s n then .run else .idle,
                             placed := true,
                             took := (core s c).took, stus := stalledStus (core s c) }
    bump (initSram (clearSram s c) c x.img x.bufs idx l) 0x140030 1

/-- A core leaves its placement and goes Off; its SRAM is lost (R422, R423). -/
def offCore (s : State) (c : Nat) : State :=
  let old := core s c
  clearSram (setCore s c { issued := old.issued, fenced := old.fenced }) c

/-- The cores of a slot leave it. -/
def unplace (s : State) (n : Nat) : State := (coresOf s n).foldl offCore s

/-- Cycles of one full pass of an MXE descriptor (R84): K_LEN rounded up to a multiple of 16. -/
def passCycles (b : List Byte) : Nat := cdiv (mKLen b) 16 * 16

/-- Drain time of an MXE descriptor (R73). -/
def drainCycles (b : List Byte) : Nat := match mDrain b with | 1 => if mFmtOut b = 0 then 256 else 128 | 2 => 528 | _ => 128

/-- What the bound charges a tile (R84): one pass or, with ZP_EN, two, against its drain; and what it adds to the last tile of a run. -/
def tileCharge (b : List Byte) : Nat × Nat :=
  let p := passCycles b * (1 + b2n (mZp b))
  let d := drainCycles b
  (max (max p d) (cdiv (p + 6 + d) 2), d + 6)

/-- The charges of an image's declared tiles. -/
def tileCharges (img : List Byte) : List (Nat × Nat × Nat) :=
  (descsOf img).filterMap fun d => d.bytes.bind fun b => if dEng b = 0 then some (d.idx, tileCharge b) else none

/-- Cycles of the longest declared MXE pass (R84). -/
def longestPass (img : List Byte) : Nat :=
  (descsOf img).foldl (fun m d => match d.bytes with | some b => if dEng b = 0 then max m (passCycles b) else m | none => m) 0

/-- The settings that a bound depends on beside the image's own (R288): HBC_CFG or LPC_CFG of every controller (R199, R201), and MU_AGCFG of every
MU of a placement's cores (R202). -/
def boundSettings (s : State) (cores : List Nat) : List W64 :=
  (List.range 80).map (fun k => cget s (memBase k)) ++ cores.flatMap fun c => (List.range 8).map fun g => cget s (muBase c (g / 2) + 8 + 8 * (g % 2))

/-- The bound of a slot's image with a timetable (R288). -/
def boundWith (s : State) (x : Slot) (t : Table) (len : Nat) : Nat :=
  Config.loadBound x.img (x.row, x.col) len t (tileCharges x.img) (x.bufs.map fun b => (b.addr0, b.addr1))
    (boundSettings s (physRect s x.img (x.row, x.col)))

/-- The bounds of every placed image are formed again (R288). -/
def reboundAll (s : State) (t : Table) (len : Nat) : State :=
  (placedSlots s).foldl (fun s n => setSlot s n { slotOf s n with bound := boundWith s (slotOf s n) t len }) s

/-- The slots' bounds follow a timetable for which every placed image has been routed again (R287, R288); where one has only joined the others,
theirs stay (R290). -/
def renewBounds (s : State) (n : Nat) (t : Table) (len : Nat) : State :=
  if len = newestLen s ∧ withoutSlot t n = withoutSlot (newestTable s) n then s else reboundAll s t len

/-- How an attempt to place an image ends: never, a reason to wait, a wait for a timetable length (R287), or placed. -/
inductive Fit where
  | never
  | wait (reason : Nat)
  | waitLen
  | placed (s : State)

/-- Route a slot's image on its cores, write its cores and its slot, with the bound and CIN_PLAT (R286 to R288, R334). -/
def settleImage (s : State) (n : Nat) (x : Slot) : Fit :=
  let cores := physRect s x.img (x.row, x.col)
  match joinTable s (placedAt s n x.img cores x.bufs) with
  | none => .waitLen
  | some t =>
    let x := { x with state := .placed, bound := boundWith s x t.1 t.2, plat := 60000 + longestPass x.img }
    let s := setSlot (renewBounds s n t.1 t.2) n x
    let s := (List.range (coreCount x.img)).foldl (fun s i => placeCore s n x i) s
    .placed (writeBank s t.1 t.2)

/-- Place an image that is loaded (R278, R282 to R287): origin, counters, memory, circuits. -/
def fitLoad (s : State) (n : Nat) (img : List Byte) : Fit :=
  if (firstOrigin (imgRows img) (imgCols img) (available s)).isNone then .never
  else match freeOrigin s n img with
    | none => .wait 2
    | some o => match bindWkcs s n img o.1 with
      | none => .wait 3
      | some w =>
        let x : Slot := { gen := (slotOf s n).gen, img := img, row := o.1, col := o.2, wkcs := w.2 }
        match allocImage w.1 x o.1 with
        | none => .wait 3
        | some x => settleImage w.1 n x

/-- Place an image again (R284): its memory stays, its counters are bound afresh, its cores, circuits and bound are new. -/
def fitMoving (s : State) (n : Nat) : Fit :=
  let x := slotOf s n
  if (firstOrigin (imgRows x.img) (imgCols x.img) (available s)).isNone then .never
  else match freeOrigin s n x.img with
    | none => .wait 2
    | some o => match bindWkcs (unbindWkcs s n) n x.img o.1 with
      | none => .wait 3
      | some w => settleImage w.1 n { x with row := o.1, col := o.2, wkcs := w.2 }

-- Unloading (R281)

/-- Take an item out of what waits at the loader. -/
def dropWait (s : State) (w : LoadWait) : State :=
  { s with loader := { s.loader with waiting := s.loader.waiting.filter (· ≠ w), due := s.loader.due.filter (· ≠ w),
                                     forLen := s.loader.forLen.filter (· ≠ w) } }

/-- An item that waits at the loader now waits for a timetable length (R287). -/
def noteForLen (s : State) (w : LoadWait) : State := { s with loader := { s.loader with forLen := s.loader.forLen ++ [w] } }

/-- Empty a slot: its cores go Off, its counters, memory and circuits are free, its generation advances. What waits is due to
be tried again. -/
def emptySlot (s : State) (n : Nat) : State :=
  let s := dropWait (unbindWkcs (unplace s n) n) (.moving n)
  let s := setSlot s n { gen := ((slotOf s n).gen + 1) % 256 }
  let s := writeBank s (withoutSlot (newestTable s) n) (newestLen s)
  { s with loader := { s.loader with due := s.loader.waiting } }

/-- UNLOAD (R281). -/
def execUnload (st : Nat) (s : State) : Out := atTurn s st 4 fun e =>
  let n := slotOfHandle e.handle
  if ¬ handleOk s e.handle then conflict s e 2
  else if slotBusy s n ∨ ¬ (waitersOf s n).isEmpty then conflict s e 3
  else done (emptySlot s n) e

/-- Commands of a slot past their head moment or with a take, in the order of their entries, end with a reason. -/
def endWaiters (s : State) (n reason : Nat) : State :=
  let mine := s.intake.log.filter fun e => e.unfinished ∧ e.hasTake ∧ e.head ∧ slotOfHandle e.handle = n
  mine.foldl (fun s e => killAndEnd s e.stream e.seq { status := 2, reason := reason }) s

/-- Try a Moving slot: placed again, or unloaded when it never can be (R284). -/
def tryMoving (s : State) (n : Nat) : State :=
  match fitMoving s n with
  | .placed t => dropWait t (.moving n)
  | .wait _ => s
  | .waitLen => noteForLen s (.moving n)
  | .never => emptySlot (endWaiters s n 4) n

-- The report and the Finals of a LOAD (R278)

/-- Write the report and the Final of a LOAD. -/
def endLoad (s : State) (e : Entry) (report : List Byte) (c : CInfo) : State := finishCore (reportLoad s e report) e.stream e.seq c

/-- A LOAD that fails otherwise than by a check. -/
def failLoad (s : State) (e : Entry) (c : CInfo) : State := endLoad s e plainReport c

/-- A LOAD whose image fails a check. -/
def rejectLoad (s : State) (e : Entry) (f : ImgFail) : State :=
  endLoad s e (leBytes 1 f.code ++ leBytes 1 f.sect ++ leBytes 2 0xFFFF ++ leBytes 4 f.off ++ zeros 24)
    { status := 4, reason := f.code, detail := f.sect + f.off * 2 ^ 32 }

/-- A LOAD that is done. -/
def doneLoad (s : State) (e : Entry) (n : Nat) : State :=
  let x := slotOf s n
  endLoad s e (zeros 2 ++ leBytes 2 (handleOf n x) ++ zeros 4 ++ leBytes 1 x.row ++ leBytes 1 x.col ++ leBytes 1 (newestLen s) ++ zeros 5 ++
    leBytes 8 x.bound ++ zeros 8) { status := 0, handle := some (handleOf n x), value := x.bound }

/-- A LOAD waits with a reason, keeping its slot and image. -/
def waitLoad (s : State) (e : Entry) (n reason : Nat) (img : List Byte) : State :=
  let item : LoadWait := .load e.stream e.seq n img
  let s := if n < 256 then setSlot s n { gen := (slotOf s n).gen, state := .waiting, img := img } else s
  let s := if waitsAtLoader s e then
      let swap := fun (w : LoadWait) => match w with
        | .load st seq k i => if st = e.stream ∧ seq = e.seq then item else .load st seq k i
        | w => w
      { s with loader := { s.loader with waiting := s.loader.waiting.map swap } }
    else { s with loader := { s.loader with waiting := s.loader.waiting ++ [item] } }
  waitFor s e.stream e.seq reason

/-- The lowest empty slot. -/
def emptySlotNo (s : State) : Option Nat := (List.range 256).find? fun n => (slotOf s n).state = .empty

/-- Try to place a checked image for its LOAD, in a slot it keeps (below 256) or in the lowest empty one. -/
def tryLoad (s : State) (e : Entry) (kept : Nat) (img : List Byte) : State :=
  match (if kept < 256 then some kept else emptySlotNo s) with
  | none => waitLoad s e 256 1 img
  | some n => match fitLoad s n img with
    | .never => failLoad s e { status := 2, reason := 4 }
    | .wait r => waitLoad s e n r img
    | .waitLen => noteForLen (waitLoad s e n 2 img) (.load e.stream e.seq n img)
    | .placed t => doneLoad t e n

-- LOAD, LOAD_RETRY (R278, R283)

/-- The first byte of a range outside HBM3E and LPDDR5X. -/
def firstOutside (a len : Nat) : Option Nat :=
  match ctlOf a with
  | none => some a
  | some k =>
    let stop := if k < 16 then ctlBase k + ctlSize k else 0x100000000000
    if a + len ≤ stop then none else some stop

/-- The first byte of a range in a Device region. -/
def firstDevice (s : State) (a len : Nat) : Option Nat :=
  ((regionsOf a len).find? fun r => regionState s r = 3).map fun r => max a (r * 0x10000)

/-- The first byte of a range that is lost. -/
def firstLost (s : State) (a len : Nat) : Nat :=
  if inFailed s a len then a
  else (s.poison.filter fun w => a < w + 32 ∧ w < a + len).foldl (fun m w => min m (max a w)) (a + len - 1)

/-- Whether a LOAD is the next for the loader (R278): no LOAD accepted before it, in whatever stream, is unhandled. One that waits at the
loader lets later ones pass (R283), and so does one in a Halted stream, which only its host can move (DESIGN CHOICE, log 81). -/
def nextLoad (s : State) (e : Entry) : Bool :=
  s.intake.log.all fun q => !(decide (q.cls = 3 ∧ q.order < e.order) && q.unfinished) || waitsAtLoader s q ||
    decide ((stream s q.stream).state = .halted)

/-- Read, check and place the image of a LOAD. -/
def startLoad (s : State) (e : Entry) : State :=
  let a := fld e.body 64 8
  let len := fld e.body 72 4
  let late := fun (x : Nat) => x % 2 ^ 48
  match (if len = 0 then none else firstOutside a len), firstDevice s a len with
  | some x, _ => failLoad s e { status := 0x11, detail := late x }
  | none, some x => failLoad s e { status := 0x13, detail := late x }
  | none, none =>
    match (if len = 0 then (Access.done, []) else readMem s a len) with
    | (.done, img) => match imageCheck s img len with
      | some f => rejectLoad s e f
      | none => tryLoad s e 256 img
    | _ =>
      let x := firstLost s a len
      let s := match ctlOf x with
        | some k => corr (logFault s 0x04 (dieOfCtl k) (if k < 16 then k else k - 16) 1) (memBase k + 0x10) 1
        | none => s
      failLoad s e { status := 7, detail := late x }

/-- LOAD (R278): loads are handled one at a time in the order of their acceptance; one that waits lets later ones pass. -/
def execLoad (st : Nat) (s : State) : Out := atTurn s st 3 fun e =>
  if waitsAtLoader s e ∨ ¬ nextLoad s e then s else startLoad s e

/-- Whether an item's turn has come (R283, R284): it is the first of what the last unload lets the loader try again; or, when nothing is due
and no take runs, the first of what waits for a new timetable length (R287). -/
def retryDue (s : State) (w : LoadWait) : Bool :=
  decide (s.loader.due.head? = some w) ||
    (decide (s.loader.due = [] ∧ s.intake.takes = []) && decide ((s.loader.waiting.find? (· ∈ s.loader.forLen)) = some w))

/-- An item that is tried again waits for no turn any more. -/
def takeTurn (s : State) (w : LoadWait) : State :=
  { s with loader := { s.loader with due := s.loader.due.filter (· ≠ w), forLen := s.loader.forLen.filter (· ≠ w) } }

/-- LOAD_RETRY (R283, R284, R287): item k of what waits is tried again at its turn. -/
def execLoadRetry (k : Nat) (s : State) : Out :=
  match s.loader.waiting[k]? with
  | none => .next s
  | some w =>
    if ¬ ready s ∨ ¬ retryDue s w then .next s
    else
      let s := takeTurn s w
      match w with
      | .moving n => .next (tryMoving s n)
      | .load st seq n img => match findEntry s st seq with
        | some e => .next (tryLoad s e n img)
        | none => .next s

-- A fenced core's image (R284)

/-- After a fence: with a spare in its logical position the core is loaded again and the image routed again at its origin; else, or
when the circuits do not fit, the image is placed again. -/
def refence (s : State) (n lcore : Nat) : State :=
  let x := slotOf s n
  let idx := (lcore / 24 - x.row) * imgCols x.img + (lcore % 24 - x.col)
  let there : Option State :=
    if ¬ available s lcore then none
    else
      let s := placeCore s n x idx
      (joinTable s (placedAt s n x.img (physRect s x.img (x.row, x.col)) x.bufs)).map fun t =>
        writeBank (setSlot (renewBounds s n t.1 t.2) n { x with bound := boundWith s x t.1 t.2 }) t.1 t.2
  match there with
  | some s => s
  | none =>
    let s := unplace s n
    let s := setSlot s n { x with state := .moving }
    let s := writeBank s (withoutSlot (newestTable s) n) (newestLen s)
    let s := { s with loader := { s.loader with waiting := s.loader.waiting ++ [.moving n] } }
    tryMoving s n

end Sys2Proof.Machine
end

