-- ==== Sys2Proof/Machine/Qp.lean ====
section
/-! DEFINITION. Queue pairs and zones: moves and errors (R357, R358), the key table (R359), landing zones at the receiver (R362,
R363, R365), ports (R348, R349). -/
namespace Sys2Proof.Machine

open Sys2Proof

-- The key table (R359, R360)

/-- The entry that holds a key. -/
def keyEnt (s : State) (k : Nat) : Option KeyEnt :=
  let e := tget {} s.net.keys (k % 8192)
  if k ≠ 0 ∧ e.key = k then some e else none

/-- Whether a peer entry is a member of the current or the staged epoch. -/
def isMember (s : State) (q : Nat) : Bool :=
  [s.net.current, s.net.staged].any fun e => match e with | some e => decide (q ∈ e.members) | none => false

/-- Whether a queue pair lies in an entry's SCOPE, as members stand now. -/
def inScope (s : State) (e : KeyEnt) (q : Nat) : Bool :=
  if e.scope = 0x1FFE then decide (4096 ≤ q ∧ q < 4352)
  else if e.scope = 0x1FFF then decide (q < 4096) && isMember s q
  else decide (e.scope = q)

-- Zones (R362, R363)

/-- The zone record of a LANDING or TALLY key. -/
def zoneRec (s : State) (e : KeyEnt) : List Byte := devReads s e.base 64

/-- STATE of a zone record. -/
def zOpen (z : List Byte) : Bool := fld z 0 1 = 1
/-- PUB. -/
def zPub (z : List Byte) : Nat := fld z 1 1 % 2
/-- SEALS. -/
def zSeals (z : List Byte) : Nat := fld z 8 8
/-- The open landing: stream, sequence number and landing number. -/
def zId (z : List Byte) : Nat × Nat × Nat := (fld z 2 1, fld z 16 6, fld z 24 4)

/-- Address of a half of a zone. -/
def zHalf (e : KeyEnt) (h : Nat) : Nat := e.base + 4096 + h * e.half

/-- Whether the zone record can be read and written: its memory has not failed, its words are not lost, and its region is Open (R176, R177,
R188). -/
def zoneTest (s : State) (e : KeyEnt) : Access := match readTest s e.base 64 with | .done => writeTest s e.base 64 | r => r

/-- Write a zone record with its check, where memory takes it. -/
def putZone (s : State) (e : KeyEnt) (z : List Byte) : State :=
  match writeTest s e.base 64 with
  | .done => wakeAt (ownWrite s e.base (withCrc z 60)) e.base
  | _ => s

/-- A zone record as KEYSET writes it. -/
def newZone (dev : Nat) : List Byte := zeros 4 ++ leBytes 4 dev ++ zeros 56

/-- The collective engine's record of a landing of a TALLY zone that is not sealed. -/
def openContrib (s : State) (e : KeyEnt) (id : Nat × Nat × Nat) : Option Contrib :=
  s.cen.contribs.find? fun c => c.peer = e.scope ∧ c.stream = id.1 ∧ c.seq = id.2.1 ∧ c.landing = id.2.2 ∧ ¬ c.closed

/-- Contributions that write a half of a zone and are not sealed. -/
def halfContribs (s : State) (e : KeyEnt) : List Contrib :=
  s.cen.contribs.filter fun c => decide (c.half = zHalf e 0 ∨ c.half = zHalf e 1) && !c.closed

/-- The zone's open landing is aborted: Idle with PUB unchanged; a TALLY landing's votes leave the tallies (R363, R387). Of a zone whose
record is lost, what is open in its halves is aborted. -/
def abortZone (s : State) (e : KeyEnt) : State :=
  let z := zoneRec s e
  if e.kind = 0 then s
  else if zoneTest s e ≠ .done then if e.kind = 2 then (halfContribs s e).foldl abortContrib s else s
  else if ¬ zOpen z then s
  else
    let t := putZone s e (putBytes z 0 [0])
    if e.kind = 2 then
      match openContrib s e (zId z) with
      | some c => abortContrib t c
      | none => t
    else t

/-- Abort the landings open at this receiver over a queue pair (R358). -/
def abortZones (s : State) (q : Nat) : State :=
  s.net.keys.foldl (fun s k => if k.2.scope = q then abortZone s k.2 else s) s

-- Ports and moves (R348, R349, R357, R366)

/-- Base of the network registers. -/
def netBase : Nat := 0x400000

/-- The last sixteen answers are kept. -/
def putAnswer (x : Qp) (m : Msg) : Qp := { x with answers := (m :: x.answers).take 16 }

/-- The frames in which messages are sent. -/
def frames (x : Qp) (ms : List Msg) : Nat := (ms.map (msgFrames x)).sum

/-- A queue pair sends what it held, once it may: what it is to send again, its answers, then its messages while there is room. Under a pause
nothing leaves (R367). -/
def drainQp (s : State) (q : Nat) : State :=
  let x := qp s q
  if (port s x.port).paused then s
  else
    let y := x.heldAns.foldl putAnswer { x with heldAns := [], again := false }
    let n := (if x.again then frames x x.sendq else 0) + frames x x.heldAns
    sentOn (countFrames s x.port n) q y (qpDrain y.held.length y)

/-- A queue pair sends everything that is unacknowledged again, from the oldest; what it has of an answer in part is asked for anew. Under a
pause that waits (R351, R367). -/
def resend (s : State) (q : Nat) : State :=
  let x := { qp s q with rxData := [] }
  if (port s x.port).paused then setQp s q { x with again := true } else countFrames (setQp s q x) x.port (frames x x.sendq)

/-- Go-back-N: the resend is counted. -/
def goBack (s : State) (q : Nat) : State := resend (bump s (netBase + 0x208) 1) q

/-- A queue pair sends from its other port, and keeps it: from its oldest unacknowledged PSN, at that port's line rate; no path counts as
tried any more (R357, R366). -/
def moveQp (s : State) (q : Nat) : State :=
  let x := qp s q
  let r := lineRate x.other
  let s := setQp s q { x with port := x.other, other := x.port, state := .ready, tries := 0, pathsTried := 0, rate := r, target := r, alpha := 1,
                              stage := 0, again := false }
  drainQp (resend (bump s (netBase + 0x210) 1) q) q

/-- A move begins; while the other port is not Up the queue pair stays Migrating. -/
def migrateQp (s : State) (q : Nat) : State :=
  let x := qp s q
  if x.state ≠ .ready ∨ x.other = 255 then s
  else if (port s x.other).state = .up then moveQp s q
  else setQp s q { x with state := .migrating }

/-- Indices of queue pairs that have been set. -/
def knownQps (s : State) : List Nat := s.net.qps.map (·.1)

/-- A port is declared Down: its fault is logged, and the queue pairs that it carries move (R349, R357). It trains again unless it is
disabled or held Down. -/
def portFall (s : State) (p : Nat) : State :=
  let x := port s p
  let s := setPort s p { x with state := if x.enable then .training else .down, paused := false }
  (knownQps s).foldl (fun s q => if (qp s q).port = p then migrateQp s q else s) s

/-- Whether queue pairs of a port wait to move away from it (R357). -/
def portMoving (s : State) (p : Nat) : Bool := (knownQps s).any fun q => decide ((qp s q).state = .migrating ∧ (qp s q).port = p)

/-- A port is held Down, from where it trains; its queue pairs move (R463). -/
def holdPort (s : State) (p : Nat) : State :=
  let s := portFall (setPort s p { port s p with reinit := false }) p
  setPort s p { port s p with state := .down }

/-- Re-initialisations that waited take place where the moves have ended; a port disabled meanwhile has none (R463, R483). -/
def dueReinits (s : State) : State :=
  (s.net.ports.filter fun e => e.2.reinit).foldl (fun s e =>
    if portMoving s e.1 then s
    else if e.2.enable then holdPort s e.1
    else setPort s e.1 { port s e.1 with reinit := false }) s

-- Error and Reset (R358)

/-- The descriptor of a transfer that a message serves. -/
def xfrBytes (s : State) (c id : Nat) : List Byte := match findXfr (core s c) id with | some r => r.desc.bytes | none => []

/-- The intake ends a command whose seal or abort met a dead queue pair. -/
def landingFail (s : State) (st seq landing q : Nat) (denied : Bool) : State :=
  match findEntry s st seq with
  | some e => if e.unfinished then
      let c := match takeOfCmd s st seq with | some t => landingLost t landing q | none => { status := 0x0C, detail := q }
      killAndEnd s st seq (if denied then { status := 0x13, lcore := c.lcore, detail := c.value % 2 ^ 48 } else c) else s
  | none => s

/-- What becomes of the operation of one message when its queue pair fails. `denied` marks the one that met a NAK. An OPEN belongs to
the transfer whose data follow it; an ABORT ends no command. -/
def failMsg (s : State) (q : Nat) (denied : Bool) (m : Msg) : State :=
  match m.kind with
  | .rwrite c id _ | .readReq c id _ _ =>
    match findXfr (core s c) id with
    | some r => if denied then remoteDenied s c r.desc.bytes else remoteTimeout s c r.desc.bytes
    | none => s
  | .control st seq landing kind =>
    if 2 ^ 31 ≤ landing ∨ kind ≠ 2 then s else landingFail s st seq landing q denied
  | _ => s

/-- Whether a message waits for its queue pair to be Ready again: completions and what is written before them. -/
def keptMsg (m : Msg) : Bool := match m.kind with | .completion _ _ | .hostWrite => true | _ => false

/-- A queue pair enters Error or Reset: its operations end, the landings open over it are aborted at both ends, and completions are
held. `denied` is the place of the message that met a NAK. -/
def downQp (s : State) (q : Nat) (dest : QpState) (denied : Option Nat) : State :=
  let x := qp s q
  let all := x.sendq ++ x.held
  let x := { x with rxKey := 0, rxVa := 0, rxLeft := 0, rxSlots := [], rxData := [], heldAns := [], nakOut := false, again := false }
  let s := setQp s q { x with state := dest, sendq := [], held := all.filter keptMsg, tries := 0, pathsTried := 0 }
  let s := { s with net := { s.net with landings := s.net.landings.filter fun l => l.peer ≠ q },
                    cen := { s.cen with outbox := s.cen.outbox.filter fun m => m.peer ≠ q } }
  let s := all.zipIdx.foldl (fun s m => failMsg s q (decide (denied = some m.2)) m.1) s
  dueReinits (flushOutbox (abortZones s q))

/-- A queue pair enters Error; the fault is logged (R459). Unit numbers of queue pairs do not fit the log: 0xFF. -/
def errorQp (s : State) (q : Nat) (denied : Option Nat) : State :=
  let s := logFault s 0x08 (if portHub (qp s q).port = 0 then 8 else 9) 0xFF 2
  downQp s q .error denied

-- The wire (R351, R353)

/-- Answer on a queue pair; under a pause the answer waits (R367). -/
def answer (s : State) (q : Nat) (m : Msg) : State :=
  let x := qp s q
  if (port s x.port).paused then setQp s q { x with heldAns := x.heldAns ++ [m] }
  else countFrames (setQp s q (putAnswer x m)) x.port (msgFrames x m)

/-- Acknowledge a PSN. -/
def sendAck (s : State) (q psn : Nat) : State := answer s q { kind := .ack, psn := psn, key := 0, va := 0, data := [] }

/-- Send a NAK, which is counted; after Remote Access Error or Invalid Request the queue pair enters Error (R358). -/
def sendNak (s : State) (q psn code : Nat) : State :=
  let s := bump (answer s q { kind := .nak code, psn := psn, key := 0, va := 0, data := [] }) (netBase + 0x230) 1
  if code = 0 then s else errorQp s q none

end Sys2Proof.Machine
end

