-- ==== Sys2Proof/Machine/NetCmd.lean ====
section
/-! DEFINITION. POOL (R374, R375) and the network operations of MANIFEST: QPSET, KEYSET, EPOCH and SA (R355, R359, R368 to R371). Each
takes effect whole or ends with STATE_CONFLICT. -/
namespace Sys2Proof.Machine

open Sys2Proof

/-- An operation of a class at its turn. -/
def opTurn (s : State) (st cls op : Nat) (f : Entry → State) : Out :=
  atTurn s st cls fun e => if fld e.body 64 1 = op then f e else s

/-- Apply a list of changes in order: all of them, or none. -/
def allOrNone {α : Type} (f : State → α → Option State) : State → List α → Option State
  | s, [] => some s
  | s, x :: t => (f s x).bind fun s => allOrNone f s t

/-- End an operation: DONE with its changes, or STATE_CONFLICT without. -/
def doneOr (s : State) (e : Entry) (reason : Nat) (t : Option State) : State :=
  match t with
  | some t => done t e
  | none => conflict s e reason

-- POOL (R374, R375)

/-- Regions of the ranges of a GIVE or TAKE. -/
def poolRegions (b : List Byte) : List Nat :=
  (List.range (fld b 66 2)).flatMap fun i => regionsOf (fld b (128 + 16 * i) 8) (fld b (136 + 16 * i) 8)

/-- Whether a region is Open and in use: those of a failed memory have left use (R177, R182). -/
def openLive (s : State) (g : Nat) : Bool :=
  match ctlOf (g * 65536) with
  | some k => decide (regionState s g = 0 ∧ (ctl s k).state ≠ .failed)
  | none => false

/-- Give one region to the pool. -/
def giveRegion (s : State) (g : Nat) : Option State := if openLive s g then some (setRegion s g 1) else none

/-- Take one free Pool region back. -/
def takeBackRegion (s : State) (g : Nat) : Option State :=
  match ctlOf (g * 65536) with
  | some k => if regionState s g = 1 ∧ 0 < poolFreeOf s k then some (setRegion s g 0) else none
  | none => none

/-- GIVE. -/
def execGive (st : Nat) (s : State) : Out := opTurn s st 9 1 fun e =>
  doneOr s e 0x50 (allOrNone giveRegion s (poolRegions e.body))

/-- TAKE. -/
def execTakeBack (st : Nat) (s : State) : Out := opTurn s st 9 2 fun e =>
  doneOr s e 0x50 (allOrNone takeBackRegion s (poolRegions e.body))

/-- Ring bytes of every shard of a run (R392). -/
def ringBytes (s : State) (r : Run) : Nat :=
  (List.range r.nshards).foldl (fun n i => n + 1024 * blocksOf s r i) 0

/-- The checks of a run table's own fields (R373, R374). -/
def tableOk (b : List Byte) : Bool :=
  crcOk b 60 && decide (fld b 0 4 = 0x4B555254) && within 1 16777216 (fld b 4 4) && within 2 5 (fld b 56 1) && zeroAt b 57 1 &&
    [fld b 8 8, fld b 16 8, fld b 24 8, fld b 32 8, fld b 40 8].all (fun v => decide (v % 65536 = 0 ∧ v < 2 ^ 48)) &&
    decide (fld b 40 8 ≠ 0 ∧ fld b 48 8 < 2 ^ 48)

/-- The checks of a run's roots (R186, R373, R374). -/
def rootsOk (s : State) (r : Run) : Bool :=
  (List.range r.nshards).all fun i =>
    let b := rootOf s r i
    rootOk b && decide (fld b 48 4 = i ∧ rtLag b + 1 ≤ r.gens) &&
      (List.range i).all fun j => decide (rtLayer (rootOf s r j) = rtLayer b → rtLag (rootOf s r j) = rtLag b)

/-- Regions that ADOPT moves to Held. -/
def runHeld (s : State) (r : Run) : List Nat :=
  ([r.runtab / 65536, r.dir / 65536] ++ regionsOf r.pkeys 16384 ++
    ((List.range (cdiv r.nshards 1024)).map fun i => rootSlice s r i / 65536) ++
    (List.range r.nshards).flatMap fun i => rootRegions s (rootOf s r i)).eraseDups

/-- Regions that ADOPT moves to Device. -/
def runDevice (r : Run) : List Nat := (regionsOf r.tally r.tlen ++ regionsOf r.ring (r.gens * r.sgen)).eraseDups

/-- Whether a region lies in LPDDR5X. -/
def inLpddr (g : Nat) : Bool := match decodeAddr (g * 65536) with | .lpddr _ _ => true | _ => false

/-- ADOPT: the run's table, when every check holds, and its regions. -/
def adoptRun (s : State) (a : Nat) : Option State :=
  match (if a % 65536 = 0 ∧ inLpddr (a / 65536) then readMem s a 64 else (.unmapped, [])) with
  | (.done, b) =>
    let r : Run := { runtab := a, table := b }
    if ¬ tableOk b ∨ ¬ rootsOk s r ∨ r.sgen < ringBytes s r ∨ s.cen.runs.any (fun q => q.id = r.id) then none
    else
      let held := runHeld s r
      let dev := runDevice r
      let slices := (List.range (cdiv r.nshards 1024)).map fun i => rootSlice s r i / 65536
      if ¬ slices.all inLpddr ∨ ¬ (held ++ dev).all (openLive s) ∨ held.any (· ∈ dev) then none
      else some (modCen (setRegions (setRegions s held 2) dev 3) fun x => { x with runs := x.runs ++ [r] })
  | _ => none

/-- ADOPT. -/
def execAdopt (st : Nat) (s : State) : Out := opTurn s st 9 3 fun e =>
  match adoptRun s (fld e.body 72 8) with
  | none => conflict s e 0x51
  | some t => if 16 ≤ s.cen.runs.length then conflict s e 0x52 else done t e

/-- Whether a run may not be released yet. -/
def runBusy (s : State) (r : Run) : Bool :=
  (s.intake.log.any fun q => decide (q.cls = 2 ∧ fld q.body 200 8 = r.runtab)) ||
    s.upu.updates.any fun u => decide (u.run = r.id ∧ u.stream = 256)

/-- What the collective engine keeps of a contribution as a run is released: one that is open goes on to its seal, which then names no
adopted run (R381). -/
def Contrib.release (id : Nat) (s : State) (c : Contrib) : Option Contrib :=
  if hRun (c.header s) ≠ id then some c else if c.closed then none else some { c with added := false, late := false }

/-- Release a run: every region of it is Open again, and the collective engines forget it. -/
def releaseRun (s : State) (r : Run) : State :=
  let id := r.id
  let t := setRegions s (runHeld s r ++ runDevice r) 0
  modCen t fun x =>
    { x with runs := x.runs.filter (· ≠ r), steps := x.steps.filter fun y => y.run ≠ id,
             contribs := x.contribs.filterMap (Contrib.release id s), carries := x.carries.filter fun c => c.run ≠ id,
             notices := x.notices.filter fun c => c.run ≠ id, outbox := x.outbox.filter fun c => c.run ≠ id }

/-- RELEASE. -/
def execRelease (st : Nat) (s : State) : Out := opTurn s st 9 4 fun e =>
  match s.cen.runs.find? fun r => r.runtab = fld e.body 72 8 with
  | none => conflict s e 0x51
  | some r => if runBusy s r then conflict s e 0x53 else done (releaseRun s r) e

-- QPSET (R355, R370)

/-- Entries of a MANIFEST. -/
def manEntries (b : List Byte) (size : Nat) : List (List Byte) :=
  (List.range (fld b 66 2)).map fun i => slice b (128 + size * i) size

/-- Whether a queue pair is bound to an open stream. -/
def qpBound (s : State) (q : Nat) : Bool := s.intake.streams.any fun e => decide (e.2.state ≠ .closed ∧ e.2.qp = q)

/-- A queue pair as SET leaves it; completions that were held for it are then sent. -/
def setQpair (s : State) (b : List Byte) : State :=
  let q := fld b 0 2
  let p := fld b 2 1
  let s := setQp s q { state := .ready, conf := b, port := p, other := fld b 3 1, devId := fld b 4 4, sndPsn := fld b 12 4 % 2 ^ 24,
                       rcvPsn := fld b 16 4 % 2 ^ 24, held := (qp s q).held, rate := lineRate p, target := lineRate p }
  drainQp s q

/-- One QPSET entry. -/
def qpsetEntry (s : State) (b : List Byte) : Option State :=
  let q := fld b 0 2
  let x := qp s q
  if qpBound s q then none
  else if fld b 30 1 = 1 then some (downQp s q .reset none)
  else if (x.state ≠ .reset ∧ x.state ≠ .error) ∨ (isMember s q ∧ x.devId ≠ fld b 4 4) then none
  else some (setQpair s b)

/-- A QPSET. -/
def qpsetWhole (s : State) (e : Entry) : State := doneOr s e 0x48 (allOrNone qpsetEntry s (manEntries e.body 64))

/-- QPSET whose first entry is a SET. -/
def execQpsetSet (st : Nat) (s : State) : Out := opTurn s st 10 1 fun e => if fld e.body 158 1 = 0 then qpsetWhole s e else s

/-- QPSET whose first entry is a RESET. -/
def execQpsetReset (st : Nat) (s : State) : Out := opTurn s st 10 1 fun e => if fld e.body 158 1 = 1 then qpsetWhole s e else s

-- KEYSET (R359, R370)

/-- Whether every byte of a range lies in an Open region of HBM3E or LPDDR5X that is in use. -/
def openLiveRange (s : State) (a len : Nat) : Bool := (regionsOf a len).all (openLive s)

/-- Whether every byte of a range lies in an Open region of HBM3E or LPDDR5X. -/
def openRange (s : State) (a len : Nat) : Bool :=
  (regionsOf a len).all fun g => (ctlOf (g * 65536)).isSome && decide (regionState s g = 0)

/-- Whether an entry's range keeps to R359. -/
def keyRangeOk (s : State) (e : KeyEnt) : Bool :=
  decide (e.key ≠ 0 ∧ e.base < 2 ^ 48 ∧ e.len % 64 = 0) && within 64 (2 ^ 40) e.len &&
    (if e.kind = 0 then decide (e.base % 64 = 0)
     else decide (e.base % 4096 = 0 ∧ e.half % 4096 = 0 ∧ e.len = 4096 + 2 * e.half) && within 4096 (2 ^ 39 - 4096) e.half &&
       openLiveRange s e.base e.len)

/-- Replace an entry of the key table; a landing open in its former zone is aborted (R372). -/
def setKey (s : State) (k : Nat) (e : KeyEnt) : State :=
  let s := abortZone s (tget {} s.net.keys (k % 8192))
  { s with net := { s.net with keys := tset {} s.net.keys (k % 8192) e } }

/-- One KEYSET entry. -/
def keysetEntry (s : State) (b : List Byte) : Option State :=
  let k := fld b 0 4
  if bit (fld b 5 1) 7 then if (keyEnt s k).isSome then some (setKey s k {}) else none
  else
    let e : KeyEnt := { key := k, kind := fld b 4 1, rights := fld b 5 1, scope := fld b 6 2, base := fld b 8 8, len := fld b 16 8, half := fld b 24 8 }
    if ¬ keyRangeOk s e then none
    else
      let s := setKey s k e
      some (if e.kind = 0 then s else putZone s e (newZone (qp s e.scope).devId))

/-- A KEYSET. -/
def keysetWhole (s : State) (e : Entry) : State := doneOr s e 0x49 (allOrNone keysetEntry s (manEntries e.body 32))

/-- KEYSET whose first entry installs a key. -/
def execKeyset (st : Nat) (s : State) : Out := opTurn s st 10 2 fun e => if bit (fld e.body 133 1) 7 then s else keysetWhole s e

/-- KEYSET whose first entry revokes one. -/
def execKeyRevoke (st : Nat) (s : State) : Out := opTurn s st 10 2 fun e => if bit (fld e.body 133 1) 7 then keysetWhole s e else s

-- EPOCH (R371)

/-- Peer entries of a member bitmap. -/
def bitmapMembers (b : List Byte) : List Nat := (List.range 4096).filter fun i => bit (fld b (192 + i / 8) 1) (i % 8)

/-- Whether an epoch may be staged. -/
def epochOk (s : State) (x : EpochSt) : Bool :=
  let num := fun (e : Option EpochSt) => match e with | some e => e.num | none => 0
  let devs := x.self :: x.members.map fun m => (qp s m).devId
  decide (num s.net.current < x.num ∧ num s.net.staged < x.num ∧ s.net.pastStep ≤ x.fromStep) &&
    x.members.all (fun m => decide ((qp s m).state = .ready)) && decide (devs.eraseDups.length = devs.length ∧ devs.length ≤ 4096)

/-- EPOCH. -/
def execEpoch (st : Nat) (s : State) : Out := opTurn s st 10 3 fun e =>
  let b := e.body
  let x : EpochSt := { num := fld b 128 4, self := fld b 132 4, fromStep := fld b 136 8, members := bitmapMembers b }
  doneOr s e 0x4A (if epochOk s x then some { s with net := { s.net with staged := some x } } else none)

-- SA (R368, R370)

/-- Zero the SAK bytes of a record in the record store, and in its window slot while that holds the record. -/
def wipeSak (s : State) (e : Entry) : State :=
  let wipe := fun (b : List Byte) => putBytes b 192 (zeros 32)
  let s := modEntry s e.stream e.seq fun q => { q with body := wipe q.body }
  let sl := e.seq % 256
  let w := windowSlot s e.stream sl
  if fld w 8 6 = e.seq ∧ fld w 2 1 = e.cls then
    modIntake s fun x => { x with windows := tset [] x.windows (slotNo e.stream sl) (wipe w) }
  else s

/-- Transmit from an AN now: a port that a spent SA had stopped runs again, unless this one is spent too. -/
def activateSa (x : Port) (a : Sa) : Port :=
  let spent := decide (2 ^ 64 - 2 ^ 32 ≤ a.pn)
  { x with txAn := some a.an, state := if spent then .disabled else if x.state = .disabled then .up else x.state }

/-- One SA entry: ACT 0 installs; bit 0 transmits from an SA that is there, bit 1 deletes it. -/
def saEntry (s : State) (b : List Byte) : Option State :=
  let p := fld b 0 1
  let x := port s p
  let tx := decide (fld b 1 1 = 0)
  let an := fld b 2 1
  let act := fld b 3 1
  let mine := fun (a : Sa) => decide (a.tx = tx ∧ a.an = an)
  if act = 0 then
    if x.sas.any mine then none
    else
      let a : Sa := { tx := tx, an := an, ssci := fld b 4 4, sci := fld b 8 8, pn := fld b 16 8, salt := slice b 24 12, sak := slice b 64 32 }
      some (setPort s p { x with sas := x.sas ++ [a] })
  else match x.sas.find? mine with
    | none => none
    | some a =>
      let x := if bit act 0 ∧ tx then activateSa x a else x
      let x := if bit act 1 then
          { x with sas := x.sas.filter (!mine ·), txAn := if tx ∧ x.txAn = some an then none else x.txAn } else x
      some (setPort s p x)

/-- SA. -/
def execSa (st : Nat) (s : State) : Out := opTurn s st 10 4 fun e =>
  match allOrNone saEntry s (manEntries e.body 96) with
  | some t => done (wipeSak t e) e
  | none => conflict s e 0x4B

end Sys2Proof.Machine
end

