-- ==== Sys2Proof/Machine/Sec.lean ====
section
/-! DEFINITION. Firmware images and slots (R484 to R494), the attestation ledger and reports (R495 to R500), identity (R501). -/
namespace Sys2Proof.Machine

open Sys2Proof

-- Flash areas (R448)

/-- Start of a firmware slot. -/
def fwBase (slot : Nat) : Nat := slot * 0x4000000
/-- The slot's block of activation records. -/
def fwRecords (slot : Nat) : Nat := fwBase slot + 0x3FF0000
/-- The identity record. -/
def identBase : Nat := 0x8A00000
/-- The ledger. -/
def ledgerBase : Nat := 0x8A10000
/-- Base of the SEC registers. -/
def secBase : Nat := 0xC001000

-- Images (R487, R488)

/-- Bytes of an image with the header's BODY_LEN. -/
def fwLen (b : List Byte) : Nat := 4096 + fld b 16 4

/-- Check 1 of R488, which names neither KEYSEL nor SVN. -/
def fwHeaderOk (b : List Byte) : Bool :=
  decide (fld b 0 4 = 0x4B554631 ∧ fld b 4 2 = 1 ∧ fld b 7 1 ≤ 1) && zeroAt b 10 6 &&
    decide (fld b 16 4 % 4096 = 0) && within 4096 (0x400000 - 4096) (fld b 16 4) && zeroAt b 20 12 && zeroAt b 132 124 && zeroAt b 3076 1020

/-- The first check of R488 that an image fails, or 0. A KEYSEL above 1 names no PKHASH, so its PUBKEY matches none. -/
def fwCheck (s : State) (b : List Byte) : Nat :=
  let key := fld b 6 1
  if ¬ fwHeaderOk b then 1
  else if fld b 9 1 ≠ wbits (cget s 0) 31 24 then 2
  else if key = 0 ∧ s.sec.key0Revoked then 3
  else if 1 < key ∨ Config.shake256 32 (slice b 64 68) ≠ (if key = 0 then s.sec.pkhash0 else s.sec.pkhash1) then 4
  else if ¬ Config.xmssVerify (slice b 64 68) (slice b 0 256) (slice b 256 2820) then 5
  else if fld b 8 1 < s.sec.svn then 6
  else if Config.shake256 32 (slice b 4096 (fld b 16 4)) ≠ slice b 32 32 then 7
  else 0

/-- The image in a slot: its header names how much is read. -/
def fwImage (s : State) (slot : Nat) : List Byte :=
  let h := flashReads s (fwBase slot) 4096
  if fwHeaderOk h then h ++ flashReads s (fwBase slot + 4096) (fld h 16 4) else h

-- Activation records (R489)

/-- Activation record i of a slot. -/
def actRecord (s : State) (slot i : Nat) : List Byte := flashReads s (fwRecords slot + 64 * i) 64

/-- GEN of a slot's record, with bit 31, or 0. -/
def slotGen (s : State) (slot : Nat) : Nat :=
  match ((List.range 1024).filter fun i => crcOk (actRecord s slot i) 60).getLast? with
  | some i => fld (actRecord s slot i) 0 4
  | none => 0

/-- The first erased record of a slot's block. -/
def freeRecord (s : State) (slot : Nat) : Option Nat :=
  (List.range 1024).find? fun i => (actRecord s slot i).all (· = 0xFF)

/-- Note the outcome of a slot's last check in SEC_FWSLOT. -/
def noteSlot (s : State) (slot : Nat) : State :=
  let b := fwImage s slot
  let n := fwCheck s b
  cset s (secBase + 8 + 8 * slot) (pack [(b2n (n = 0), 63), (n, 56), (fld b 8 1, 48), (fld b 6 1, 40), (slotGen s slot, 0)])

-- FW_WRITE, FW_ACTIVATE (R491 to R494)

/-- Stop an operation that is not on stream 0. -/
def onStream0 (s : State) (e : Entry) (t : State) : State := if e.stream ≠ 0 then conflict s e 0x60 else t

/-- End with FW_IMAGE and the check that failed. -/
def imageConflict (s : State) (e : Entry) (n : Nat) : State := finish s e.stream e.seq { status := 2, reason := 0x61, detail := n }

/-- FW_WRITE. `flashOk` says that erase, program and read-back succeed; when one fails the slot is left failing check 1. -/
def fwWrite (s : State) (e : Entry) (flashOk : Bool) : State :=
  let b := e.body
  let slot := fld b 128 1
  let src := fld b 136 8 % 2 ^ 48
  let len := fld b 144 4
  if ¬ openRange s src len then imageConflict s e 0
  else match readMem s src len with
    | (.done, img) =>
      let n := if fwLen img ≠ len then 1 else fwCheck s img
      if n ≠ 0 then imageConflict s e n
      else if slot = s.sec.slot then conflict s e 0x62
      else
        let s := flashErase (flashErase s (fwBase slot) 0x400000) (fwRecords slot) 0x10000
        if flashOk then done (noteSlot (flashProg s (fwBase slot) img) slot) e
        else conflict (noteSlot s slot) e 0x63
    | (r, _) => finish s e.stream e.seq { status := accessCode r, detail := src }

/-- FW_WRITE. -/
def execFwWrite (st : Nat) (flashOk : Bool) (s : State) : Out := opTurn s st 10 5 fun e => onStream0 s e (fwWrite s e flashOk)

/-- FW_ACTIVATE. -/
def fwActivate (s : State) (e : Entry) (flashOk : Bool) : State :=
  let slot := fld e.body 128 1
  let t := noteSlot s slot
  if fwCheck s (fwImage s slot) ≠ 0 then conflict t e 0x62
  else match freeRecord s slot with
    | none => conflict t e 0x63
    | some i =>
      if ¬ flashOk then conflict t e 0x63
      else
        let gen := max (slotGen s 0 % 2 ^ 31) (slotGen s 1 % 2 ^ 31) + 1
        let word := gen % 2 ^ 31 + 2 ^ 31 * b2n (bit (fld e.body 129 1) 0)
        let rec_ := withCrc (leBytes 4 word ++ leBytes 1 slot ++ zeros 55) 60
        done (noteSlot (flashProg t (fwRecords slot + 64 * i) rec_) slot) e

/-- FW_ACTIVATE. -/
def execFwActivate (st : Nat) (flashOk : Bool) (s : State) : Out := opTurn s st 10 6 fun e => onStream0 s e (fwActivate s e flashOk)

-- ATTEST (R495 to R499)

/-- Address of a byte of a copy of the ledger's bitmap. -/
def bitmapAddr (copy b : Nat) : Nat := ledgerBase + 0x10000 * (copy + 1) + b / 8

/-- Whether a block of leaves is reserved: its bit is 0 in either copy. -/
def blockReserved (s : State) (b : Nat) : Bool :=
  [0, 1].any fun c => !bit (flashRead s (bitmapAddr c b)).toNat (b % 8)

/-- The lowest unreserved block. -/
def freeBlock (s : State) : Option Nat := (List.range 4096).find? fun b => !blockReserved s b

/-- No block is in use: the next leaf is the first of the lowest unreserved block, and with none every leaf is used up (R496, R497). -/
def restLeaves (s : State) : State :=
  let b := (freeBlock s).getD 4096
  { s with sec := { s.sec with leaf := 256 * b, blockEnd := 256 * b, exhausted := decide (b = 4096) } }

/-- Program a block's bit to 0 in both copies. -/
def reserveBlock (s : State) (b : Nat) : State :=
  [0, 1].foldl (fun s c =>
    let a := bitmapAddr c b
    let v := (flashRead s a).toNat
    if bit v (b % 8) then flashProg s a [BitVec.ofNat 8 (v - 2 ^ (b % 8))] else s) s

/-- The ledger header. -/
def ledgerHeader (s : State) : List Byte := flashReads s ledgerBase 3392

/-- Bytes 0 to 319 of a report (R499). -/
def attestBody (s : State) (leaf : Nat) (nonce : List Byte) : List Byte :=
  let h := ledgerHeader s
  let run := cget s (secBase + 8 + 8 * s.sec.slot)
  leBytes 4 0x4B554131 ++ leBytes 2 1 ++ leBytes 1 10 ++ zeros 1 ++ leBytes 8 (cget s 0).toNat ++ leBytes 4 leaf ++ leBytes 1 s.sec.slot ++
    leBytes 1 (wbits run 55 48) ++ leBytes 1 (s.sec.svn % 128 + 128 * b2n s.sec.key0Revoked) ++ zeros 1 ++ slice h 8 16 ++ slice nonce 0 32 ++
    ((List.range 4).flatMap fun i => leBytes 8 (cget s (secBase + 0x20 + 8 * i)).toNat) ++ slice h 128 160 ++ zeros 56

/-- Sign with the next leaf, write the report and end. -/
def attestSign (s : State) (e : Entry) : State :=
  let leaf := s.sec.leaf
  let b := attestBody s leaf (slice e.body 144 32)
  let report := b ++ slice (Config.xmssSign leaf b) 0 2820 ++ zeros 60
  let q := stream s e.stream
  let at_ := fld e.body 136 8
  let s := if leaf + 1 < s.sec.blockEnd then { s with sec := { s.sec with leaf := leaf + 1 } } else restLeaves s
  let s := (pieces report).foldl (fun s p => send s q.qp .hostWrite q.ckey (at_ + p.1) p.2) s
  let s := if bit (fld e.body 128 1) 0 then
      (pieces (ledgerHeader s)).foldl (fun s p => send s q.qp .hostWrite q.ckey (at_ + 3200 + p.1) p.2) s else s
  done s e

/-- ATTEST: a new block is reserved when the current one is used up. -/
def attest (s : State) (e : Entry) (flashOk : Bool) : State :=
  if s.sec.leaf < s.sec.blockEnd then attestSign s e
  else match freeBlock s with
    | none => finish { s with sec := { s.sec with exhausted := true, leaf := 0x100000, blockEnd := 0x100000 } } e.stream e.seq { status := 0x14 }
    | some b =>
      if ¬ flashOk then conflict s e 0x64
      else
        let s := reserveBlock s b
        attestSign { s with sec := { s.sec with leaf := 256 * b, blockEnd := 256 * (b + 1) } } e

/-- ATTEST. -/
def execAttest (st : Nat) (flashOk : Bool) (s : State) : Out := opTurn s st 10 7 fun e => attest s e flashOk

-- IDSET (R501)

/-- An identity record from the ledger's serial and MAC and operator fields. -/
def identRecord (s : State) (fields : List Byte) : List Byte :=
  let h := ledgerHeader s
  withCrc (leBytes 4 0x4B554E31 ++ leBytes 2 1 ++ zeros 2 ++ slice h 8 16 ++ slice h 24 6 ++ zeros 2 ++ slice fields 0 92) 124

/-- IDSET. One whose erase, program or read-back fails changes nothing (R494): the record in force stays. -/
def idset (s : State) (e : Entry) (flashOk : Bool) : State :=
  if flashOk then done (flashProg (flashErase s identBase 0x10000) identBase (identRecord s (slice e.body 128 92))) e else conflict s e 0x63

/-- IDSET. -/
def execIdset (st : Nat) (flashOk : Bool) (s : State) : Out := opTurn s st 10 8 fun e => onStream0 s e (idset s e flashOk)

/-- The identity record in force at a cold start: the record, or the ledger's default operator fields when its CHECK fails. -/
def identInForce (s : State) : List Byte :=
  let b := flashReads s identBase 128
  if crcOk b 124 then b else identRecord s (slice (ledgerHeader s) 292 92)

-- Boot checks (R485, R486, R489)

/-- The slot that a cold start tries first (R489). -/
def firstSlot (s : State) : Nat := if slotGen s 0 % 2 ^ 31 < slotGen s 1 % 2 ^ 31 then 1 else 0

/-- Which slot a cold start boots, if one passes. -/
def bootSlot (s : State) : Option Nat :=
  let first := firstSlot s
  if fwCheck s (fwImage s first) = 0 then some first
  else if fwCheck s (fwImage s (1 - first)) = 0 then some (1 - first) else none

/-- Whether a slot asks for KEY0_REVOKED: key 1 with REVOKE_OLD (R485). -/
def revokeAsked (s : State) (slot : Nat) : Bool :=
  let b := fwImage s slot
  decide (fld b 6 1 = 1) && bit (fld b 7 1) 0

/-- Fuses that a cold start blows for the image it boots. -/
def blowFuses (s : State) (slot : Nat) : State :=
  let o := fwImage s (1 - slot)
  let other := decide (fld o 0 4 = 0xFFFFFFFF) || (decide (fwCheck s o = 0) && decide (fld o 6 1 = 1))
  let svn := if bit (slotGen s slot) 31 then max s.sec.svn (fld (fwImage s slot) 8 1) else s.sec.svn
  { s with sec := { s.sec with key0Revoked := s.sec.key0Revoked || (revokeAsked s slot && other), svn := svn } }

/-- SEC_FWSLOT of the slot that does not run: as checked where the ROM tried it first, or for R485; else its record alone was read. -/
def noteOther (s : State) (slot : Nat) : State :=
  if slot ≠ firstSlot s ∨ revokeAsked s slot then noteSlot s (1 - slot)
  else cset s (secBase + 8 + 8 * (1 - slot)) (pack [(slotGen s (1 - slot), 0)])

/-- SEC_FWDIGEST: the firmware digest of the running image (R487). -/
def noteDigest (s : State) (slot : Nat) : State :=
  let d := Config.shake256 32 (slice (fwImage s slot) 0 256)
  (List.range 4).foldl (fun s i => cset s (secBase + 0x20 + 8 * i) (BitVec.ofNat 64 (fld d (8 * i) 8))) s

/-- The boot of a slot: its registers, the fuses and its digest. -/
def bootFrom (s : State) (slot : Nat) : State :=
  let s := noteDigest (blowFuses (noteOther (noteSlot s slot) slot) slot) slot
  { s with sec := { s.sec with slot := slot } }

end Sys2Proof.Machine
end

