-- ==== Sys2Proof/Machine/Dailies.lean ====
section
/-! DEFINITION. The dailies (R478 to R482), how a freeze and a halt begin (R470, R472, R474), and how a warm reset begins (R453,
R467, R483). -/
namespace Sys2Proof.Machine

open Sys2Proof

-- Free bytes

/-- Bytes that the spec does not fix: each is a free value. -/
def freeBytes (s : State) (n : Nat) : List Byte × State :=
  ((List.range n).map fun i => (Config.freeValue (s.free + i)).setWidth 8, { s with free := s.free + n })

/-- A number of bytes that the spec only bounds. -/
def freeLen (s : State) (bound : Nat) : Nat × State :=
  let n := takeFree s
  ((Config.freeValue n.1).toNat % (bound + 1), n.2)

-- The area (R478)

/-- Address of FRZ_DAILIES. -/
def dailiesReg : Nat := 0xC000008
/-- Base of the dailies area. -/
def areaBase (w : W64) : Nat := wbits w 47 16 * 65536
/-- Bytes of the area. -/
def areaLen (w : W64) : Nat := wbits w 63 48 * 0x100000

/-- Whether a range lies wholly in Open LPDDR5X regions that are in use; it may pass from one package to the next. -/
def openLpddr (s : State) (a len : Nat) : Bool :=
  (regionsOf a len).all fun r => inLpddr r && openLive s r

/-- A write to FRZ_DAILIES moves the area when the new range lies wholly in Open LPDDR5X regions; any other has no effect. -/
def moveDailies (s : State) (v : W64) : State :=
  let old := cget s dailiesReg
  let new := wput (wput old 47 16 (wbits v 47 16)) 63 48 (wbits v 63 48)
  let a := areaBase new
  let len := areaLen new
  if 64 ≤ wbits v 63 48 ∧ openLpddr s a len then
    cset (setRegions (setRegions s (regionsOf (areaBase old) (areaLen old)) 0) (regionsOf a len) 2) dailiesReg new
  else s

-- Sections (R479, R481, R482)

/-- A section of the dailies. -/
structure Sect where
  kind : Nat
  die : Nat
  unit : Nat
  sub : Nat
  flags : Nat
  data : List Byte
deriving DecidableEq, Repr

/-- The REGS section of a core: every defined register of its block with its value. -/
def regsSect (s : State) (c : Nat) : List Byte :=
  (List.range 0x10000).flatMap fun i =>
    match coreReg c (8 * i) with
    | some r => leBytes 8 (8 * i) ++ leBytes 8 (regView s (coreBase c + 8 * i) r).toNat
    | none => []

/-- The captured record of a reel (R482). What is left of its quantum is not modelled and free (log 3). -/
def reelRecord (s : State) (c r : Nat) : List Byte :=
  let x := core s c
  let k := reelOf x r
  let pend := (x.ctrReqs.filter fun q => q.reel = r ∧ ¬ q.killed).foldl (fun m q => m ||| 2 ^ q.rd) 0
  let b := (List.range 31).flatMap (fun i => leBytes 8 (k.get (i + 1)).toNat) ++ leBytes 1 (k.preds.toNat / 2 % 128) ++ zeros 1 ++
    leBytes 2 (k.pc % 32768) ++ leBytes 1 (b2n k.started + 2 * b2n (decide (k.hold ≠ .free))) ++ leBytes 1 k.loops.length ++
    leBytes 1 k.rets.length ++ zeros 1
  let loops := k.loops.flatMap fun l => leBytes 4 l.count ++ leBytes 4 l.iter ++ leBytes 2 l.first ++ leBytes 2 l.last ++ leBytes 1 l.idx ++ zeros 3
  let rets := k.rets.flatMap (leBytes 2)
  slice (slice b 0 256 ++ slice loops 0 64 ++ slice rets 0 16 ++ leBytes 4 pend) 0 340 ++
    leBytes 2 (Config.freeValue (s.free + r)).toNat ++ zeros 170

/-- What a part without a stated layout has for what it captures, in so many bytes. -/
def captured {α : Type} (kind n : Nat) (x : α) : List Byte := slice (Config.layout kind x) 0 n

/-- A queued descriptor (R220, R271): its bytes, with what stands for the effective extents and the skip decision where its references to
actual lengths were; the second half of a place that holds 64 B has no stated use. -/
def placeBytes (d : QDesc) : List Byte :=
  let e := captured 2 66 (d.ext, d.skip)
  slice (putBytes d.bytes 13 (e.take 2) ++ e.drop 2) 0 128

/-- The places of an issue queue, each 128 B; an empty place is free. -/
def queueSect (s : State) (c key depth : Nat) : List Byte × State :=
  let q := (queueOf (core s c) key).take depth
  let e := freeBytes s (128 * (depth - q.length))
  (q.flatMap placeBytes ++ e.1, e.2)

/-- Sections joined in order. -/
def joinSects : List (State → List Byte × State) → State → List Byte × State
  | [], s => ([], s)
  | f :: t, s =>
    let a := f s
    let b := joinSects t a.2
    (a.1 ++ b.1, b.2)

/-- The issue queues of a core in ENG order, with their depths (R220, R221). -/
def queueOrder : List (Nat × Nat) :=
  [(0, 4), (1, 4), (2, 4), (8, 8), (9, 8), (10, 8), (11, 8), (4, 16), (5, 2), (16, 2), (17, 2), (18, 2), (19, 2)]

/-- The CSQ section. -/
def csqSect (s : State) (c : Nat) : List Byte × State :=
  let reels := (List.range 8).flatMap (reelRecord s c)
  let q := joinSects (queueOrder.map fun e => fun s => queueSect s c e.1 e.2) { s with free := s.free + 8 }
  (reels ++ q.1 ++ slice ((core s c).code.flatMap fun w => leBytes 4 w.toNat) 0 131072, q.2)

/-- An accumulator set of the MXE section: as a CARRY drain lays it out while it drains; what an idle set and one that a pass still fills
hold is free. -/
def mxeSetSect (c set : Nat) (s : State) : List Byte × State :=
  match (core s c).mxe.drains.find? fun d => decide (d.set = set) with
  | some d => (carryBytes d, s)
  | none => freeBytes s 67584

/-- The MXE section: both sets, the pass record with the repeat count (how far the pass is depends on time: log 3), and the queue. -/
def mxeSect (s : State) (c : Nat) : List Byte × State :=
  let x := (core s c).mxe
  joinSects [mxeSetSect c 0, mxeSetSect c 1,
             fun s => let n := takeFree s; (captured 3 64 (x.pass, x.sLast, x.lastRepeats, x.activeSet, Config.freeValue n.1), n.2),
             fun s => queueSect s c 0 4] s

/-- The RED section: partial accumulators and ranked lists, as the run that forms them, and the queue. -/
def redSect (s : State) (c : Nat) : List Byte × State :=
  joinSects [fun s => let n := freeLen s 1536; (captured 5 n.1 (core s c).red.run, n.2), fun s => queueSect s c 2 4] s

/-- The VCE section: operand caches, tile buffers, beat records in flight, and the queue. -/
def vceSect (s : State) (c : Nat) : List Byte × State :=
  let v := (core s c).vce
  let words := fun (t : Tab W32) (n : Nat) => (List.range n).flatMap fun i => leBytes 4 (tget 0 t i).toNat
  joinSects [fun s => (words v.caches 65536 ++ words v.tiles 32768, s),
             fun s => let n := freeLen s 72; let m := takeFree n.2
                      (captured 4 (272 * n.1) (v.walks, v.reels, v.epi, Config.freeValue m.1), m.2), fun s => queueSect s c 1 4] s

/-- The MU_STATE section of an MU: counters, thread records, guard entries, reel shadows, and the queue. -/
def muSect (s : State) (c m : Nat) : List Byte × State :=
  let x := core s c
  let bars := (List.range 64).flatMap fun n => leBytes 8 (regView s (muBase c m + 0x400 + 8 * n) (.barCnt c m n)).toNat
  let mine := (x.guards.filter fun g => g.mu = m ∧ g.len ≠ 0).take 64
  let shadow := fun (i : Nat) (s : State) => match (tget {} x.agReels (16 * m + i)).shadow with
    | some d => (placeBytes d, s)
    | none => freeBytes s 128
  joinSects ([fun s => (bars, s), fun s => (captured 6 2048 (x.ags.filter (·.mu = m), x.reqs, x.agTurn), s),
              fun s => (mine.flatMap (captured 6 32), s), fun s => freeBytes s (32 * (64 - mine.length))] ++
    (List.range 16).map shadow ++ [fun s => queueSect s c (8 + m) 8]) s

/-- The ROUTER section: the fabric's cycle count, the queues of the STUs, and multicast group state. -/
def routerSect (s : State) (c : Nat) : List Byte × State :=
  let n := freeLen s (80 * 1024 - 8)
  (leBytes 8 s.fab.cycle ++ captured 8 n.1 ((core s c).stus, (core s c).mcasts), n.2)

/-- Sections of a powered core under a scope. -/
def coreSects (scope c : Nat) (bad : List Nat) (s : State) : List Sect × State :=
  let mk := fun (kind sub flags : Nat) (a : List Byte × State) =>
    (({ kind := kind, die := c / 26, unit := c % 26, sub := sub, flags := flags, data := a.1 } : Sect), a.2)
  let start := mk 1 0xFF 0 (regsSect s c, s)
  let steps : List (State → Sect × State) :=
    [fun s => mk 2 0xFF 0 (csqSect s c),
     fun s => mk 3 0xFF 0 (mxeSect s c), fun s => mk 4 0xFF 0 (vceSect s c), fun s => mk 5 0xFF 0 (redSect s c)] ++
    (List.range 4).map (fun m => fun s => mk 6 m 0 (muSect s c m)) ++
    (if scope = 2 then (List.range 4).map fun m => fun s =>
      mk 7 m (b2n (decide (4 * c + m ∈ bad))) (sramReads s c (m * muBytes) muBytes, s) else []) ++
    [fun s => mk 8 0xFF 0 (routerSect s c)]
  steps.foldl (fun a f => let b := f a.2; (a.1 ++ [b.1], b.2)) ([start.1], start.2)

/-- Directory entries of a core that is Off, Fenced or Retired. -/
def absentSects (scope c : Nat) : List Sect :=
  let mk := fun (k sub : Nat) => ({ kind := k, die := c / 26, unit := c % 26, sub := sub, flags := 4, data := [] } : Sect)
  (List.range 5).map (fun k => mk (k + 1) 0xFF) ++ (List.range 4).map (mk 6) ++ (if scope = 2 then (List.range 4).map (mk 7) else []) ++ [mk 8 0xFF]

/-- Whether a core has something to read out. -/
def readable (s : State) (c : Nat) : Bool :=
  (match (pcoreOf s c).state with | .fenced | .retired => false | _ => true) && decide ((core s c).power ≠ .off)

/-- The die section: work-counter records in the layout of R342, then windows and controller queues. -/
def dieSect (s : State) (d : Nat) : Sect × State :=
  let mine := fun (i : Nat) => wkcOf s (64 * d + i)
  let w := (List.range 64).flatMap fun i => counterRecord (mine i)
  let n := freeLen s (0x800000 - 64 * 8256)
  let rest := captured 9 n.1 ((List.range 64).map fun i => (mine i).window, ctl s (2 * d), ctl s (2 * d + 1))
  ({ kind := 9, die := d, unit := 0xFF, sub := 0xFF, flags := 0, data := w ++ rest }, n.2)

/-- The section of a hub: intake, queue pairs, collective engine, device counters and LPC queues; a failed hub cannot be reached. -/
def hubSect (s : State) (h : Nat) : Sect × State :=
  if s.drl.deadHub = some h then ({ kind := 10, die := 8 + h, unit := 0xFF, sub := 0xFF, flags := 4, data := [] }, s)
  else
    let n := freeLen s 0x2000000
    let counters := (List.range 256).map fun i => wkcOf s (512 + 256 * h + i)
    let data := captured 10 n.1 (h, s.intake, s.loader, s.net, s.cen, counters, (List.range 32).map fun i => ctl s (16 + 32 * h + i))
    ({ kind := 10, die := 8 + h, unit := 0xFF, sub := 0xFF, flags := 0, data := data }, n.2)

/-- Every section of a read-out, in directory order: the hubs, then each C-die with its cores. DEDUCED: a die and a hub have the
one section of their kind. -/
def allSects (s : State) (scope : Nat) (bad : List Nat) : List Sect × State :=
  let add := fun (a : List Sect × State) (f : State → List Sect × State) => let b := f a.2; (a.1 ++ b.1, b.2)
  let one := fun (f : State → Sect × State) (s : State) => let b := f s; ([b.1], b.2)
  let hubs := (List.range 2).map fun h => one fun s => hubSect s h
  let dies := (List.range 8).flatMap fun d => one (fun s => dieSect s d) :: (List.range 26).map fun p => fun s =>
    if readable s (26 * d + p) then coreSects scope (26 * d + p) bad s else (absentSects scope (26 * d + p), s)
  if scope = 0 then ([], s) else (hubs ++ dies).foldl add ([], s)

/-- The dailies header (R480). -/
def dailiesHeader (s : State) (status nsect bytes : Nat) : List Byte :=
  withCrc (leBytes 4 0x4B554431 ++ leBytes 2 1 ++ leBytes 1 s.drl.frzCause ++ leBytes 1 s.drl.frzScope ++ leBytes 8 (cget s 0).toNat ++
    leBytes 8 s.drl.frzStopKc ++ leBytes 8 s.fab.cycle ++ leBytes 4 (wbits (cget s 0x100028) 47 32) ++ leBytes 4 nsect ++
    leBytes 8 bytes ++ leBytes 1 status ++ zeros 11) 60

/-- Whether Derler can write at an address: its package has not failed and does not hang on a failed hub. -/
def packageThere (s : State) (a : Nat) : Bool :=
  match ctlOf a with
  | some k => decide ((ctl s k).state ≠ .failed) && decide (s.drl.deadHub ≠ some ((k - 16) / 32))
  | none => false

/-- Whether Derler can write the dailies area; an area smaller than a package lies in the packages of its two ends. -/
def areaThere (s : State) : Bool :=
  let w := cget s dailiesReg
  packageThere s (areaBase w) && packageThere s (areaBase w + areaLen w - 1)

/-- Write the header at the area's base. -/
def putHeader (s : State) (status nsect bytes : Nat) : State :=
  if areaThere s then ownWrite s (areaBase (cget s dailiesReg)) (dailiesHeader s status nsect bytes) else s

/-- The header of a read-out that has not ended: how many sections and bytes it has written is free. -/
def openHeader (s : State) (status : Nat) : State :=
  let a := takeFree s
  let b := takeFree a.2
  putHeader b.2 status (Config.freeValue a.1).toNat (Config.freeValue b.1).toNat

/-- Write the sections one after the other, each from a 4 KiB boundary: the state, the next offset, the directory, the bytes
written, and whether the area ran full. -/
def placeSects (base len : Nat) : List Sect → State × Nat × List Byte × Nat × Bool → State × Nat × List Byte × Nat × Bool
  | [], a => a
  | x :: t, (s, off, dir, bytes, full) =>
    let room := len - off
    let data := x.data.take room
    let absent := decide (bit x.flags 2) || decide (room = 0)
    let cut := decide (data.length < x.data.length)
    let n := takeFree s
    let flags := if absent then 4 else x.flags + 2 * b2n cut
    let s := if absent then n.2 else ownWrite s (base + off) data
    let entry := leBytes 1 x.kind ++ leBytes 1 x.die ++ leBytes 1 x.unit ++ leBytes 1 x.sub ++ leBytes 4 flags ++
      leBytes 8 (if absent then (Config.freeValue n.1).toNat else off) ++ leBytes 8 (if absent then 0 else data.length) ++
      leBytes 4 (crc32c (if absent then [] else data)) ++ zeros 4
    placeSects base len t (s, if absent then off else off + page data.length, dir ++ entry,
      bytes + (if absent then 0 else data.length), full || cut || (decide (room = 0) && !bit x.flags 2))

/-- The read-out of R479 to R482: sections, directory, header; WRITTEN_MIB follows. `bad` are MUs with an uncorrectable word. -/
def readOut (s : State) (bad : List Nat) : State :=
  if ¬ areaThere s then s
  else
    let base := areaBase (cget s dailiesReg)
    let len := areaLen (cget s dailiesReg)
    let scope := s.drl.frzScope
    let a := allSects s scope bad
    let n := a.1.length
    let w := placeSects base len a.1 (a.2, page (4096 + 32 * n), [], 0, false)
    let bytes := w.2.2.2.1 + (if n = 0 then 64 else 64 + 32 * n)
    let ecc := decide (scope = 2) && !bad.isEmpty
    let s := if n = 0 then w.1 else ownWrite w.1 (base + 4096) w.2.2.1
    cput (putHeader s (1 + 2 * b2n w.2.2.2.2 + 4 * b2n ecc) n bytes) 0x100028 31 0 (bytes / 0x100000)

-- Beginning a freeze (R472 to R474)

/-- Every memory that is Ready enters self-refresh (R428). -/
def sleepMemories (s : State) : State :=
  { s with memctl := s.memctl.map fun e => (e.1, if e.2.state = .ready then { e.2 with state := .selfRefresh } else e.2) }

/-- Every memory leaves self-refresh (R427, R428). -/
def wakeMemories (s : State) : State :=
  { s with memctl := s.memctl.map fun e => (e.1, if e.2.state = .selfRefresh then { e.2 with state := .ready, exiting := false } else e.2) }

/-- The controllers of the dailies area. -/
def areaCtls (s : State) : List Nat :=
  let w := cget s dailiesReg
  (List.range 80).filter fun k => overlap (areaBase w) (areaLen w) (ctlBase k) (ctlSize k)

/-- The packages of the dailies area leave self-refresh for the read-out's writes (R474). -/
def wakeArea (s : State) : State := (areaCtls s).foldl readyCtl s

/-- They enter it again at the read-out's end. -/
def sleepArea (s : State) : State :=
  (areaCtls s).foldl (fun s k => if (ctl s k).state = .ready then setCtl s k { ctl s k with state := .selfRefresh } else s) s

/-- For the read-out, Derler wakes each napped core to Idle, its fast clock gated (R432); each is a wake that is counted. -/
def wakeNapped (s : State) : State :=
  let naps := (List.range 208).filter fun c => decide ((core s c).power = .nap)
  let s := naps.foldl (fun s c => modCore s c fun x => { x with power := .idle }) s
  { bump s 0x140030 naps.length with drl := { s.drl with frzNaps := naps } }

/-- At thaw they return to Nap, but those that have been fenced. -/
def napAgain (s : State) : State :=
  let s := s.drl.frzNaps.foldl (fun s c => modCore s c fun x => if x.power = .idle then { x with power := .nap } else x) s
  { s with drl := { s.drl with frzNaps := [] } }

/-- The clocks stop: CAUSE, SCOPE, the counts, the alert; the count of R135 at the stop is free (log 3). -/
def stopClocks (s : State) (frz : FrzState) (cause scope : Nat) : State :=
  let n := takeFree s
  let s := bump (alert n.2 7) 0xC000010 1
  let w := wbits (cget s 0x100028) 47 32
  let s := cput s 0x100028 47 32 ((w + 1) % 65536)
  let s := { s with fab := { s.fab with cycle := (Config.freeValue n.1).toNat } }
  { s with drl := { s.drl with frz := frz, frzCause := cause, frzScope := scope, frzRead := false, frzBad := [], frzStopKc := s.kc } }

/-- A freeze begins: memories sleep but those of the dailies area, napped cores are woken, and the read-out starts with its header at STATUS 0.
Stopping and Frozen are passed at once
(log 2). -/
def beginFreeze (s : State) (cause scope : Nat) : State :=
  openHeader (wakeNapped (wakeArea (sleepMemories (stopClocks s .reading cause scope)))) 0

/-- A pin freeze (R472, R479). -/
def beginPinFreeze (s : State) : State :=
  let s := { s with drl := { s.drl with frzPin := true, frzCmd := 0, frzHold := false } }
  beginFreeze s 1 (wbits (cget s 0xC000000) 2 1)

-- Halts (R470)

/-- The journal headers are erased, so that the next cold start reads the journal as Lost. -/
def eraseJournals (s : State) : State :=
  modIntake s fun x => { x with journals := x.journals.map fun e => (e.1, { e.2 with valid := false }) }

/-- The device halts with cause 3, as a freeze that nothing thaws: the memories sleep, and the read-out starts with its header where its
area can be reached. The scope of the read-out is not stated: free. -/
def haltDevice (s : State) : State :=
  let n := takeFree s
  let s := openHeader (wakeNapped (wakeArea (sleepMemories (stopClocks (eraseJournals n.2) .halted 3 ((Config.freeValue n.1).toNat % 3))))) 0
  { s with drl := { s.drl with halted := true } }

-- Beginning a warm reset (R453, R467, R483)

/-- A warm reset begins: clocks stop and memories sleep. A freeze in progress ends with it: its read-out, if it still ran, is
ABANDONED, and FREEZE_END is logged. -/
def beginWarm (s : State) (cause : Nat) : State :=
  let frozen := decide (s.drl.frz ≠ .running)
  let s := if frozen then
      let s := if s.drl.frzRead then s else openHeader s 8
      logFault s 0x10 0xFF 0xFF 3
    else s
  let s := sleepMemories s
  let frz : FrzState := if frozen then .resetting else .running
  let reason := if frozen then 4 else 3
  let spent := s.drl.freezeSpent || (frozen && !s.drl.freezeN)
  let drl := { s.drl with phase := .warm, started := false, warmCause := cause, warmReason := reason, frz := frz, freezeSpent := spent,
                          frzNaps := [], warmDue := false }
  { s with drl := drl }

/-- The device's own warm reset (R467): from READY, frozen or not. A cause that comes before READY acts at READY, as an edge of a pin does
(R457): DEDUCED (log 54); one that comes in a warm reset is met by the reset that runs. -/
def ownWarm (s : State) : State :=
  if s.drl.halted then s
  else match s.drl.phase with
    | .ready => beginWarm s 3
    | .links | .memory | .logbook => { s with drl := { s.drl with warmDue := true } }
    | _ => s

end Sys2Proof.Machine
end

