-- ==== Sys2Proof/Machine/Fault.lean ====
section
/-! DEFINITION. Faults and what the device does about each (R459 to R471), re-initialisation (R463), and ports that fall and rise
(R349). -/
namespace Sys2Proof.Machine

open Sys2Proof

-- Cores (R464 to R466)

/-- Replace Derler's record of a physical core. -/
def setPcore (s : State) (i : Nat) (p : PCore) : State := { s with drl := { s.drl with pcores := s.drl.pcores.set i p } }

/-- Physical cores of a C-die. -/
def dieCores (d : Nat) : List Nat := (List.range 26).map (26 * d + ·)

/-- The Spare core of a die with the lowest physical number (R465). -/
def lowestSpare (s : State) (d : Nat) : Option Nat := (dieCores d).find? fun i => (pcoreOf s i).state = .spare

/-- What a fence of a core does to its take (R464 step 3, R347): one that runs is killed and is to be retaken; of one that is being killed
already the command, if it goes on, is told; one that has ended keeps what the core recorded for it (R414). -/
def fenceTake (s : State) (c lcore : Nat) : State :=
  match takeOfCore s c with
  | none => s
  | some t =>
    let told := (findEntry s t.stream t.seq).any Entry.unfinished
    if t.killed then (if told then interim s t.stream t.seq { status := 6, lcore := lcore } else s)
    else if t.ended then modTake s t.stream t.seq fun t => { t with expo := mergeExpo t.expo (core s c).red.expo }
    else killForRetake s t { status := 6, lcore := lcore } true

/-- A core leaves its position: Fenced and Off, its traffic blocked, its flits and arrivals gone (R164, R464). -/
def blockCore (s : State) (c : Nat) : State :=
  let p := pcoreOf s c
  let s := setPcore s c { state := .fenced, lcore := 255, fences := p.fences + 1 }
  let s := modCore (offCore s c) c fun x => { x with fenced := true }
  let fab := { s.fab with arrivals := s.fab.arrivals.filter fun a => a.src ≠ c, flits := s.fab.flits.filter fun f => f.arrival.src ≠ c }
  { s with fab := fab }

/-- The lowest Spare of a die fills a logical position (R15, R465). -/
def fillPosition (s : State) (d lcore : Nat) : State :=
  match lowestSpare s d with
  | some i => setPcore s i { pcoreOf s i with state := .mapped, lcore := lcore }
  | none => s

/-- A fence (R464, R284): the take on the placement is killed and is to be retaken, the core is blocked and Off, a spare fills its
position, and the image is loaded again there or placed again. -/
def fenceCore (s : State) (c cls : Nat) : State :=
  let p := pcoreOf s c
  if p.state ≠ .mapped then s
  else
    let place := (core s c).place
    let s := logFault s cls (c / 26) (c % 26) 2
    let s := fenceTake s c p.lcore
    let s := fillPosition (blockCore s c) (c / 26) p.lcore
    match place with
    | some q => refence s q.slot p.lcore
    | none => s

/-- Where an array of a core reports its error (R83, R121, R124): 0 the instruction store, which has no such register (R203), 1 MXE
accumulators, 2 operand caches, 3 tile buffers, 4 RED, 5 to 8 the SRAM of MU 0 to 3. -/
def arrayReg (c array : Nat) : Option (Nat × Nat) :=
  match array with
  | 0 => none
  | 1 => some (mxeBase c + 0x10, 1)
  | 2 => some (vceBase c + 0x10, 1)
  | 3 => some (vceBase c + 0x10, 2)
  | 4 => some (redBase c + 8, 1)
  | n => some (muBase c (n - 5) + 0x20, 1)

/-- CORE_ARRAY_FAULT (R83, R121, R124, R203, R459). -/
def execCoreArrayFault (c array : Nat) (s : State) : Out :=
  let t := match arrayReg c array with
    | some e => corr s e.1 (BitVec.ofNat 64 e.2)
    | none => s
  event (coreOk c) (fast s && decide ((pcoreOf s c).state = .mapped)) s (fenceCore t c 1)

/-- CORE_CLEAR_TIMEOUT (R334, R459): a core of a killed take has not reported clear. -/
def execCoreClearTimeout (c : Nat) (s : State) : Out :=
  event (coreOk c) (fast s && decide ((core s c).share = .clearing)) s (fenceCore s c 2)

/-- FENCE_FAIL (R464 step 2, R467): the fence of a core is not confirmed; the device resets itself. -/
def execFenceFail (c : Nat) (s : State) : Out :=
  event (coreOk c) (fast s && decide ((pcoreOf s c).state = .mapped)) s (ownWarm (logFault s 3 (c / 26) (c % 26) 3))

/-- The lowest logical position of a die that no core fills. -/
def lowestOpen (s : State) (d : Nat) : Option Nat := ((List.range 24).map (24 * d + ·)).find? fun l => (physOf s l).isNone

/-- A core's test begins: it is powered, and its own traffic stays blocked (R466). It is shown in Run, as its clock runs: DESIGN CHOICE
(log 50). -/
def beginTest (s : State) (c : Nat) : State :=
  let s := setPcore s c { pcoreOf s c with state := .testing }
  modCore s c fun x => { x with power := .run, fenced := true }

/-- The outcome of a core's test (R466). In no placement, the core is Off again (R423). -/
def tested (s : State) (c : Nat) (pass : Bool) : State :=
  let p := pcoreOf s c
  let s := modCore s c fun x => { x with fenced := false, power := .off }
  if ¬ pass then setPcore s c { p with state := .retired, lcore := 255 }
  else
    match lowestOpen s (c / 26) with
    | some l => setPcore s c { p with state := .mapped, lcore := l }
    | none => setPcore s c { p with state := .spare, lcore := 255 }

/-- CORE_TEST_DONE (R466). -/
def execCoreTestDone (c : Nat) (pass : Bool) (s : State) : Out :=
  event (coreOk c) (s.drl.rails && !s.drl.halted && decide ((pcoreOf s c).state = .testing)) s (tested s c pass)

-- Memories (R177, R179, R323)

/-- The other package of a logbook copy's hub. -/
def otherPkg (k : Nat) : Nat := if k % 32 = 0 then k + 1 else k - 1

/-- Both copies of the logbook are lost: the device halts (R323, R470). -/
def logbookLost (s : State) : State := haltDevice (logFault s 0x11 0xFF 0xFF 4)

/-- What the failure of package `k` does to the logbook (R323): the rebuild into it stops, or the copy in it is rebuilt beside it, or
the logbook runs on the other copy, or both are lost. -/
def loseCopy (s : State) (k : Nat) : State :=
  let x := s.intake
  let failed := fun (p : Nat) => decide ((ctl s (16 + p)).state = .failed)
  if x.rebuild = some k then modIntake s fun x => { x with rebuild := none }
  else if k = x.copyA ∧ x.copyAok then
    let s := modIntake s fun x => { x with copyAok := false }
    if ¬ x.copyBok then logbookLost s
    else if failed (otherPkg k) then s
    else modIntake s fun x => { x with copyA := otherPkg k, rebuild := some (otherPkg k) }
  else if k = x.copyB ∧ x.copyBok then
    let s := modIntake s fun x => { x with copyBok := false }
    if ¬ x.copyAok then logbookLost s
    else if failed (otherPkg k) then s
    else modIntake s fun x => { x with copyB := otherPkg k, rebuild := some (otherPkg k) }
  else s

/-- Address of CAL_IF. -/
def calIfAddr (i : Nat) : Nat := 0x801000 + 8 * i

/-- A stack or package leaves use (R177, R179, R413): its data are lost. -/
def dropMem (s : State) (k : Nat) : State :=
  let base := ctlBase k
  let s := setCtl s k { ctl s k with state := .failed, filling := false }
  let out := fun (a : Nat) => !(decide (base ≤ a) && decide (a < base + ctlSize k))
  let s := { s with mem := memClear s.mem base (ctlSize k), poison := s.poison.filter out }
  let stop := fun (e : Nat × CalGroup) => if e.1 / 512 = k then (e.1, { e.2 with retrain := none }) else e
  cput { s with cal := { s.cal with groups := s.cal.groups.map stop } } (calIfAddr k) 63 62 3

/-- A stack or package is declared failed (R177, R179, R459). -/
def failMem (s : State) (k : Nat) : State :=
  if (ctl s k).state = .failed then s
  else
    let s := corr (logFault s 5 (dieOfCtl k) (if k < 16 then k else k - 16) 4) (memBase k + 0x10) 4
    let s := dropMem s k
    if k < 16 then s else loseCopy s (k - 16)

/-- LOGBOOK_REBUILD_DONE (R323). -/
def execLogbookRebuildDone (s : State) : Out :=
  match s.intake.rebuild with
  | none => .next s
  | some k => when_ (memRun s) s <|
      bump (modIntake s fun x => { x with rebuild := none, copyAok := x.copyAok || decide (x.copyA = k), copyBok := x.copyBok || decide (x.copyB = k) })
        0x208018 1

-- Update units (R401, R459)

/-- Die of an update unit: units are numbered as their controllers. -/
def dieOfUnit (u : Nat) : Nat := dieOfCtl u

/-- An update unit abandons its running updates, which run again whole from their roots: what they took is given back. -/
def restartUnit (s : State) (u : Nat) : State :=
  let mine := fun (q : Update) => decide (u ∈ q.units ∧ q.state = .running)
  let s := (s.upu.updates.filter mine).foldl (fun s q => setRegions s q.fresh 1) s
  { s with upu := { s.upu with updates := updWhere mine (fun q => { q with fresh := [] }) s.upu.updates } }

/-- UPU_ARRAY_FAULT. -/
def execUpuArrayFault (u : Nat) (s : State) : Out :=
  event (u < 80) (fast s) s (restartUnit (logFault s 9 (dieOfUnit u) u 2) u)

-- Links, Derler, hubs (R467 to R470)

/-- The side that faces a side. -/
def facing (side : Nat) : Nat := match side with | 0 => 1 | 1 => 0 | 2 => 3 | _ => 2

/-- Whether a hub has lost both links to the C-dies. -/
def hubCut (s : State) (h : Nat) : Bool :=
  (List.range 8).all fun d => (List.range 4).all fun k => dieAcross d k ≠ some (8 + h) || decide ((d, k) ∈ s.fab.deadLinks)

/-- A hub die has failed (R470). -/
def failHub (s : State) (h : Nat) : State :=
  let s := logFault s 0x0C (8 + h) 0xFF 4
  haltDevice { s with drl := { s.drl with deadHub := some h } }

/-- A die-to-die link goes out of service, at both ends, until the next cold start (R469). -/
def cutLink (s : State) (d side : Nat) : State :=
  let far := match dieAcross d side with | some e => if e < 8 then [(e, facing side)] else [] | none => []
  { s with fab := { s.fab with deadLinks := (s.fab.deadLinks ++ (d, side) :: far).eraseDups } }

/-- LINK_D2D_FAULT (R459, R467, R469, R470). A hub that loses its last link has failed. -/
def execLinkD2dFault (d side : Nat) (s : State) : Out :=
  let t := cutLink (logFault s 0x0A d 0xFF 3) d side
  event (decide (d < 8) && (dieAcross d side).isSome) (fast s && decide ((d, side) ∉ s.fab.deadLinks)) s <|
    match [0, 1].find? fun h => hubCut t h with
    | some h => failHub t h
    | none => ownWarm { t with fab := { t.fab with reroute := true } }

/-- DERLER_WATCHDOG (R468): the standby takes charge through a warm reset, the one that runs if one does; with none left the device
halts. -/
def execDerlerWatchdog (s : State) : Out :=
  let t := logFault s 0x0B (if s.drl.standby then 9 else 8) 0xFF 3
  when_ (s.drl.rails && decide (s.drl.phase = .logbook ∨ s.drl.phase = .ready ∨ s.drl.phase = .warm) && !s.drl.halted) s <|
    if s.drl.standby then haltDevice t else ownWarm { t with drl := { t.drl with standby := true } }

/-- HUB_FAILURE (R470). -/
def execHubFailure (h : Nat) (s : State) : Out :=
  event (h < 2) (s.drl.rails && decide (s.drl.phase = .logbook ∨ s.drl.phase = .ready ∨ s.drl.phase = .warm) && !s.drl.halted) s (failHub s h)

-- Journal areas (R325, R471)

/-- State of a journal area. -/
def area (s : State) (a : Nat) : Nat := tget 0 s.intake.areas a

/-- Set the state of a journal area. -/
def setArea (s : State) (a v : Nat) : State := modIntake s fun x => { x with areas := tset 0 x.areas a v }

/-- ARMED reads 1 while the bank is charged and an erased area is ready (R325), from the 210 ms row of a cold start on (R449). -/
def rearm (s : State) : State :=
  cput s 0x208000 1 1 (b2n (s.drl.bankOk && areaReady s && decide (s.drl.phase = .logbook ∨ s.drl.phase = .ready ∨ s.drl.phase = .warm)))

/-- Begin to erase an area that no live entry needs (R326). -/
def eraseArea (s : State) (a : Nat) : State :=
  if area s a = 1 ∧ ¬ (s.intake.log.any fun e => e.state = .journaled) then setArea s a 2 else s

/-- JOURNAL_FLASH_FAIL: an erase, or in a flush the program, of an area fails. -/
def execJournalFlashFail (a : Nat) (s : State) : Out :=
  let t := setArea (logFault s 0x0F 0xFF 0xFF 4) a 3
  event (a < 2) (s.drl.rails && (decide (area s a = 2) || (decide (s.drl.phase = .flushing) && decide (area s a = 0)))) s <|
    if s.drl.phase = .flushing then cput t 0x208000 1 1 (b2n (areaReady t)) else rearm (eraseArea t (1 - a))

/-- JOURNAL_ERASE_RETRY: while no area is ready, Derler tries the erase again. -/
def execJournalEraseRetry (s : State) : Out :=
  when_ (s.drl.rails && decide (s.drl.phase = .ready ∨ s.drl.phase = .warm) && !s.drl.halted && !areaReady s) s <|
    [0, 1].foldl (fun s a => if area s a = 3 then setArea s a 2 else s) s

/-- JOURNAL_AREA_ERASED: an area is erased and ready. -/
def execJournalAreaErased (a : Nat) (s : State) : Out :=
  event (a < 2) (s.drl.rails && !s.drl.halted && decide (area s a = 2) && decide (s.drl.phase ≠ .flushing ∧ s.drl.phase ≠ .flushed)) s <|
    rearm (modIntake (setArea s a 0) fun x => { x with journals := tset {} x.journals a {} })

-- Ports (R349, R357)

/-- PORT_DOWN: an Up port loses alignment (R349, R459). -/
def execPortDown (p : Nat) (s : State) : Out :=
  event (portOk p) (s.drl.rails && decide ((port s p).state = .up ∨ (port s p).state = .disabled)) s
    (portFall (logFault s 7 (8 + portHub p) p 2) p)

/-- Queue pairs that wait to move to a port move (R357); what waited for their moves follows (R483). -/
def finishMoves (s : State) (p : Nat) : State :=
  dueReinits ((knownQps s).foldl (fun s q => if (qp s q).state = .migrating ∧ (qp s q).other = p then moveQp s q else s) s)

/-- A port whose transmit SA is spent comes up Disabled (R368). -/
def saSpent (x : Port) : Bool :=
  match x.txAn with
  | none => false
  | some an => x.sas.any fun a => a.tx && decide (a.an = an ∧ 2 ^ 64 - 2 ^ 32 ≤ a.pn)

/-- Phases in which port management runs: from the LINKS row of a cold start on, while the rails are up. -/
def portsRun (s : State) : Bool :=
  s.drl.rails && match s.drl.phase with
    | .memory | .logbook | .ready | .warm => true
    | _ => false

/-- PORT_UP: a port that trains, or one that is enabled and Down, is Up. -/
def execPortUp (p : Nat) (s : State) : Out :=
  let x := port s p
  let st : PortState := if saSpent x then .disabled else .up
  event (portOk p) (portsRun s && x.enable && decide (x.state = .down ∨ x.state = .training)) s <|
    let s := setPort s p { x with state := st }
    if st = .up then finishMoves s p else s

-- Re-initialisation (R463)

/-- KIND 0x01: the test of a Fenced or Retired core begins. -/
def reinitCore (s : State) (c : Nat) : State :=
  let p := pcoreOf s c
  if c < 208 ∧ (p.state = .fenced ∨ p.state = .retired) then beginTest s c else s

/-- KIND 0x02: an enabled port is held Down, then trains; it waits until the moves of its queue pairs end (R483). -/
def reinitPort (s : State) (p : Nat) : State :=
  if 20 ≤ p ∨ ¬ (port s p).enable then s
  else if portMoving s p then setPort s p { port s p with reinit := true }
  else holdPort s p

/-- KIND 0x03. -/
def reinitUpu (s : State) (u : Nat) : State := if u < 80 then restartUnit s u else s

/-- Groups of a memory: 5 for each of 32 pseudo-channels of a stack, 6 for the channel of a package (R174, R405). -/
def groupCount (k : Nat) : Nat := if k < 16 then 160 else 6

/-- A calibration group. -/
def groupOf (s : State) (k g : Nat) : CalGroup := tget {} s.cal.groups (512 * k + g)

/-- Replace a calibration group. -/
def setGroup (s : State) (k g : Nat) (x : CalGroup) : State :=
  { s with cal := { s.cal with groups := tset {} s.cal.groups (512 * k + g) x } }

/-- An interface enters Retraining (R408): its state, the count and the log. -/
def enterRetrain (s : State) (k : Nat) : State :=
  bump (cput (logFault s 6 (dieOfCtl k) (if k < 16 then k else k - 16) 2) (calIfAddr k) 63 62 2) 0x800018 1

/-- KIND 0x04 and 0x05: every group of a memory retrains, with traffic continuing. -/
def reinitMem (s : State) (k : Nat) : State :=
  if (ctl s k).state = .failed then s
  else (List.range (groupCount k)).foldl (fun s g => setGroup s k g { groupOf s k g with retrain := some 0 }) (enterRetrain s k)

/-- A write to DRL_REINIT (R463). -/
def writeReinit (s : State) (kind index : Nat) : State :=
  match kind with
  | 1 => reinitCore s index
  | 2 => reinitPort s index
  | 3 => reinitUpu s index
  | 4 => if index < 16 then reinitMem s index else s
  | 5 => if index < 64 then reinitMem s (16 + index) else s
  | _ => s

/-- REINIT_CORE. -/
def execReinitCore (i : Nat) (s : State) : Out := event (coreOk i) (ready s) s (writeReinit s 1 i)

/-- REINIT_PORT. -/
def execReinitPort (i : Nat) (s : State) : Out := event (portOk i) (ready s) s (writeReinit s 2 i)

/-- REINIT_UPU. -/
def execReinitUpu (i : Nat) (s : State) : Out := event (i < 80) (ready s) s (writeReinit s 3 i)

/-- REINIT_HBC. -/
def execReinitHbc (i : Nat) (s : State) : Out := event (i < 16) (ready s) s (writeReinit s 4 i)

/-- REINIT_LPC. -/
def execReinitLpc (i : Nat) (s : State) : Out := event (pkgOk i) (ready s) s (writeReinit s 5 i)

end Sys2Proof.Machine
end

