-- ==== Sys2Proof/Machine/Freeze.lean ====
section
/-! DEFINITION. Freezes (R472 to R477, R483): the pin, the FREEZE command, the read-out's end, thaws and resets. -/
namespace Sys2Proof.Machine

open Sys2Proof

/-- Replace what Derler keeps of a freeze. -/
def modDrl (s : State) (f : Drl → Drl) : State := { s with drl := f s.drl }

-- The thaw (R477)

/-- FROZEN to every live entry that has no Final completion, once, ahead of its other completions. -/
def tellFrozen (s : State) : State :=
  (s.intake.log.filter Entry.unfinished).foldl (fun s e => interim s e.stream e.seq { status := 0x0E }) s

/-- Whether an entry is a FREEZE that has committed and whose DONE is still to be written (R473). -/
def freezeDue (e : Entry) : Bool := decide (e.cls = 11 ∧ e.state = .committed) && decide (fld e.comp 0 1 ≠ 0)

/-- Write the DONE of a committed FREEZE. -/
def endFreezeCmd (s : State) : State :=
  (s.intake.log.filter freezeDue).foldl (fun s e => settle (complete s e.stream e.seq { status := 0 }) e.stream) s

/-- The cores that a read-out found to hold an uncorrectable SRAM word; only FULL reads SRAM (R479). -/
def badCores (s : State) : List Nat :=
  if s.drl.frzScope = 2 then ((List.range 208).filter fun c => s.drl.frzBad.any fun m => decide (m / 4 = c)) else []

/-- Fence a core found by the read-out, with the error bit of each MU. -/
def fenceBad (bad : List Nat) (s : State) (c : Nat) : State :=
  if (pcoreOf s c).state ≠ .mapped then s
  else
    let mus := (List.range 4).filter fun m => decide (4 * c + m ∈ bad)
    fenceCore (mus.foldl (fun s m => corr s (muBase c m + 0x20) 1) s) c 1

/-- The thaw: bad cores are fenced, memories leave self-refresh, woken cores nap again, the clocks run; FROZEN is written first, and a FREEZE's DONE last. -/
def thaw (s : State) : State :=
  let cores := badCores s
  let bad := s.drl.frzBad
  let s := tellFrozen (wakeMemories s)
  let s := napAgain (cores.foldl (fenceBad bad) s)
  let s := modDrl s fun d => { d with frz := .running, frzCmd := 0, frzPin := false, frzHold := false, frzBad := [] }
  endFreezeCmd (bump s 0xC000018 1)

/-- Thaw once the read-out has ended and every cause to hold the freeze has gone (R476, R477). -/
def tryThaw (s : State) : State :=
  let d := s.drl
  if d.frz = .frozen ∧ d.phase = .ready ∧ ¬ d.halted ∧ d.frzRead ∧ ¬ d.frzPin ∧ ¬ d.frzHold ∧ d.frzCmd ≠ 2 then thaw s else s

-- The pin (R472, R476)

/-- PIN_EN. -/
def pinEnabled (s : State) : Bool := (cget s 0xC000000).getLsbD 0

/-- PIN_FREEZE: FREEZE_N falls. It begins a freeze, or holds one that a command began; before READY it waits for READY, and
during a flush, after it or after a halt it has no effect. -/
def execPinFreeze (s : State) : Out :=
  let s1 := modDrl s fun d => { d with freezeN := false }
  if ¬ s.drl.freezeN then .next s
  else if ¬ s.drl.rails ∨ s.drl.phase ≠ .ready ∨ s.drl.halted ∨ ¬ pinEnabled s then .next s1
  else if s.drl.frz = .running then .next (beginPinFreeze s1)
  else .next (modDrl s1 fun d => { d with frzPin := true })

/-- Whether the pin's hold can no longer end in a thaw: more than 25,000,000 kc have passed since the clocks stopped (R476). -/
def pinLate (s : State) : Bool := s.drl.frzPin && decide (s.drl.frzStopKc + 25000000 < s.kc)

/-- FREEZE_PIN_RELEASE: FREEZE_N rises; when it rises too late, the freeze ends with FREEZE_END alone. -/
def execFreezePinRelease (s : State) : Out :=
  when_ (!s.drl.freezeN) s
    (tryThaw (modDrl s fun d => { d with freezeN := true, freezeSpent := false, frzPin := pinLate s }))

/-- FREEZE_HOLD_EXPIRY: HOLD_US passes. -/
def execFreezeHoldExpiry (s : State) : Out :=
  when_ (s.drl.frzHold && decide (s.drl.phase = .ready) && !s.drl.halted) s (tryThaw (modDrl s fun d => { d with frzHold := false }))

-- The FREEZE command (R473)

/-- FREEZE commits, and its freeze begins. -/
def freezeCmd (s : State) (e : Entry) : State :=
  let action := fld e.body 64 1
  let s := modEntry s e.stream e.seq fun e => { e with state := .committed, status := 0 }
  let s := modDrl s fun d => { d with frzCmd := action, frzHold := decide (action = 1), frzPin := false }
  beginFreeze s 2 (fld e.body 65 1)

/-- FREEZE with ACTION FREEZE_THAW. -/
def execFreezeThaw (st : Nat) (s : State) : Out := opTurn s st 11 1 fun e => freezeCmd s e

/-- FREEZE with ACTION FREEZE_RESET. -/
def execFreezeReset (st : Nat) (s : State) : Out := opTurn s st 11 2 fun e => freezeCmd s e

-- The read-out's end, and the end without thaw (R470, R476, R479)

/-- READOUT_END: the read-out ends with its header, in a freeze or in a halt, and its area sleeps again (R474). -/
def execReadoutEnd (bad : List Nat) (s : State) : Out :=
  onUnit (bad.all (· < 832)) s <|
    if s.drl.phase ≠ .ready ∧ s.drl.phase ≠ .warm ∧ s.drl.phase ≠ .logbook then .next s
    else if s.drl.frz = .reading ∧ ¬ s.drl.halted then
      .next (tryThaw (modDrl (sleepArea (readOut s bad)) fun d => { d with frz := .frozen, frzRead := true, frzBad := bad }))
    else when_ (s.drl.halted && !s.drl.frzRead) s (modDrl (sleepArea (readOut s bad)) fun d => { d with frzRead := true })

/-- FREEZE_END: a freeze that nothing thaws in time, or that FREEZE_RESET asks for, ends with a warm reset once the read-out has
ended. -/
def execFreezeEnd (s : State) : Out :=
  let d := s.drl
  when_ (decide (d.frz = .frozen ∧ d.phase = .ready) && !d.halted && d.frzRead && (d.frzPin || decide (d.frzCmd = 2))) s (ownWarm s)

end Sys2Proof.Machine
end

