-- ==== Sys2Proof/Machine/Board.lean ====
section
/-! DEFINITION. Power, power-up and resets (R321, R324 to R327, R436 to R439, R449 to R457, R468, R469). -/
namespace Sys2Proof.Machine

open Sys2Proof

-- The flush and the journal (R324, R325, R454, R455)

/-- The fields of a live entry that the journal keeps, as the slate of a record. -/
def journalSlate (e : Entry) : List Byte :=
  zeros 4 ++ slice e.body 4 2 ++ zeros 10 ++ slice e.body 16 8 ++ zeros 4 ++ slice e.body 28 4 ++ zeros 32

/-- The journal record of a live entry, as the entry that a restart makes of it. -/
def journalEntry (e : Entry) : Entry :=
  { stream := e.stream, seq := e.seq, order := e.order, cls := e.cls, state := .journaled, status := e.status, body := journalSlate e,
    take := e.take, sealedAny := e.sealedAny, boundVoid := e.boundVoid }

/-- NEXT of a stream for the journal: a stream that has not been opened since a restart keeps the NEXT of the journal then read. -/
def journalNext (x : Stream) : Nat := if x.state = .closed then x.journal.getD x.next else x.next

/-- The stream table of a journal: state and NEXT of every stream. -/
def streamTable (s : State) : List (StreamState × Nat) :=
  (List.range 256).map fun n => ((stream s n).state, journalNext (stream s n))

/-- The streams that a journal holds (R326), with their NEXT: those not Closed at the flush, and those with a record. -/
def heldStreams (j : Journal) : List (Nat × Nat) :=
  (j.streams.zipIdx.filter fun e => decide (e.1.1 ≠ .closed) || j.entries.any fun r => decide (r.stream = e.2)).map fun e => (e.2, e.1.2)

/-- Write the journal into the area whose turn it is, or into the other when only that one is erased. -/
def writeJournal (s : State) : State :=
  let t := s.intake.turn
  match [t, 1 - t].find? fun a => decide (area s a = 0) with
  | none => s
  | some a =>
    let top := (s.intake.journals.map fun e => e.2.order).foldl max 0
    let j : Journal := { valid := true, order := top + 1, streams := streamTable s, entries := s.intake.log.map journalEntry }
    bump (modIntake (setArea s a 1) fun x => { x with journals := tput a j x.journals, turn := 1 - a }) 0x208020 1

/-- The controllers of packages 0, 1, 32 and 33, which the bank feeds (R438). -/
def bankCtls : List Nat := [16, 17, 48, 49]

/-- Whether a device address lies in a memory that the bank does not feed. -/
def unfed (a : Nat) : Bool := match ctlOf a with | some k => decide (k ∉ bankCtls) | none => false

/-- As PWR_FAIL_N falls, the power stage removes the rails of the C-dies, the HBM3E stacks and the other LPDDR5X packages: what they held is
lost (R182, R438). -/
def dropRails (s : State) : State :=
  let lost := (List.range 80).filter fun k => k ∉ bankCtls
  { s with mem := lost.foldl (fun m k => memClear m (ctlBase k) (ctlSize k)) s.mem, poison := s.poison.filter fun a => !unfed a,
           regions := s.regions.filter fun e => !decide ((ctlOf (e.1 * 0x10000)).any (· < 16)),
           memctl := s.memctl.filter fun e => e.1 ∈ bankCtls, sram := [], cores := [], fab := {} }

/-- PWR_FAIL_N falls, and with it the rails that the bank does not feed (R438). -/
def failPower (s : State) : State :=
  if s.drl.pwrFailN ∧ s.drl.rails then dropRails (modDrl s fun d => { d with pwrFailN := false })
  else modDrl s fun d => { d with pwrFailN := false }

/-- A flush begins unless one runs or has run; a read-out that still runs is ABANDONED (R483), the logbook's packages leave self-refresh (R457),
and the boot has not failed any more: FAIL_CODE reads 0. -/
def startFlush (s : State) : State :=
  let d := s.drl
  if ¬ d.rails ∨ d.halted ∨ d.phase = .flushing ∨ d.phase = .flushed then s
  else
    let open_ := decide (d.frz = .reading)
    let s := if open_ then openHeader s 8 else s
    let s := bankCtls.foldl readyCtl (cput s 0x100000 55 48 0)
    modDrl s fun d => { d with phase := .flushing, started := false, frz := if open_ then .frozen else d.frz }

/-- PWR_FAIL (R324, R459): PWR_FAIL_N falls. -/
def execPwrFail (s : State) : Out :=
  let low := failPower s
  if ¬ s.drl.pwrFailN then .next s
  else if s.drl.halted ∨ (¬ s.drl.rails ∧ s.drl.phase ≠ .flushed) then .next low
  else .next (startFlush (logFault low 0x0E 0xFF 0xFF 4))

/-- COLD_RESET_ASSERT (R324, R456, R457): COLD_RESET_N falls; while PWR_OK is low no flush starts. -/
def execColdResetAssert (s : State) : Out :=
  when_ s.drl.coldResetN s (startFlush (modDrl s fun d => { d with coldResetN := false }))

/-- FLUSH_DONE (R324, R454, R455): the journal is written when ARMED; the device waits with only its keeper rail. A device that has halted in
its flush completes none (R439, R470). -/
def execFlushDone (s : State) : Out :=
  if s.drl.phase ≠ .flushing ∨ s.drl.halted then .next s
  else
    let s := if (cget s 0x208000).getLsbD 1 then writeJournal s else s
    .next (modDrl (alert (cput s 0x208000 1 1 0) 3) fun d => { d with phase := .flushed, rails := false, bankOk := false })

/-- What outlives the loss of every rail: module flash with the journal areas, the fuses, and the counter of free values. -/
def keptInFlash (s : State) : State :=
  let sec : Sec := { key0Revoked := s.sec.key0Revoked, svn := s.sec.svn, pkhash0 := s.sec.pkhash0, pkhash1 := s.sec.pkhash1 }
  let intake : Intake := { areas := s.intake.areas, journals := s.intake.journals, turn := s.intake.turn, ran := s.intake.ran }
  let cal : Cal := { snapshot := s.cal.snapshot, snapFactory := s.cal.snapFactory, snapOld := s.cal.snapOld, snapArea := s.cal.snapArea }
  { State.reset with pending := s.pending, free := s.free, flash := s.flash, sec := sec, intake := intake, cal := cal }

/-- KEEPER_RAIL_FALL (R455): the input has failed and the bank is down to 30 V. -/
def execKeeperRailFall (s : State) : Out :=
  when_ (!s.drl.pwrFailN && (decide (s.drl.phase = .flushed) || s.drl.halted)) s
    (modDrl (keptInFlash s) fun d => { d with rails := false, freezeN := s.drl.freezeN, warmResetN := s.drl.warmResetN, coldResetN := s.drl.coldResetN })

/-- RAIL_RESTORE (R456): the power stage brings every rail up; the cause is a COLD_RESET_N pulse (1), a thermal trip before it (4) or a
power cycle (0). A pulse, with COLD_RESET_N low, is answered only while Derler waits after a flush. That PWR_FAIL_N is high again is what the
event says, since no other command raises it (log 53). Until time 0 Derler has not begun its ROM. -/
def execRailRestore (cause : Nat) (s : State) : Out :=
  let pulse := decide (s.drl.phase = .flushed) && !s.drl.coldResetN
  let ok := if s.drl.thermTripN then decide (cause = 0) || (decide (cause = 1) && pulse) else decide (cause = 4)
  when_ (!s.drl.rails && ok) s (cput (modDrl s fun d => { d with rails := true, pwrFailN := true, phase := .rom }) 0x100008 7 0 cause)

/-- THERMAL_TRIP (R436, R459): THERM_TRIP_N and PWR_FAIL_N fall and the flush runs, or the one that runs goes on. -/
def execThermalTrip (d : Nat) (s : State) : Out :=
  let t := failPower (modDrl s fun d => { d with thermTripN := false })
  event (dieOk d) (s.drl.rails && s.drl.thermTripN) s <|
    if s.drl.halted then t
    else
      let t := logFault t 0x0D d 0xFF 4
      startFlush (if s.drl.pwrFailN then logFault t 0x0E 0xFF 0xFF 4 else t)

/-- What the failure of the part behind a rail does (R439): 0 and 1 the hub dies, 2 to 5 packages 0, 1, 32 and 33, 6 the module flash;
other parts are not named. -/
def failPart (s : State) (part : Nat) : State :=
  match part with
  | 0 => failHub s 0
  | 1 => failHub s 1
  | 2 => failMem s 16
  | 3 => failMem s 17
  | 4 => failMem s 48
  | 5 => failMem s 49
  | 6 => cput (setArea (setArea (logFault s 0x0F 0xFF 0xFF 4) 0 3) 1 3) 0x208000 1 1 0
  | _ => s

/-- RAIL_FAULT (R439): its part fails, and the power stage drives PWR_FAIL_N low; a halted device does no more. -/
def execRailFault (part : Nat) (s : State) : Out :=
  if ¬ s.drl.rails then .next s
  else
    let t := if s.drl.halted then s else failPart s part
    let low := failPower t
    if t.drl.halted then .next low
    else .next (startFlush (if s.drl.pwrFailN then logFault low 0x0E 0xFF 0xFF 4 else low))

-- Cold start (R326, R327, R449 to R452)

/-- BOOT_FAIL with a code (R452). -/
def bootFail (s : State) (code : Nat) : State :=
  modDrl (alert (cput s 0x100000 55 48 code) 5) fun d => { d with phase := .bootFail }

/-- The newest valid journal and its area (R326). An area that is being erased holds none. -/
def newestJournal (s : State) : Option (Nat × Journal) :=
  (s.intake.journals.filter fun e => e.2.valid ∧ area s e.1 = 1).foldl
    (fun a e => match a with | none => some e | some b => if b.2.order < e.2.order then some e else some b) none

/-- Read the journal: its entries are Journaled, every stream is Closed, and the streams it holds know their NEXT. The other area is
erased; so is this one when it holds no entry. -/
def readJournal (s : State) : State :=
  match newestJournal s with
  | none =>
    let s := setArea (setArea s 0 0) 1 0
    if s.intake.ran then alert (cput s 0x208000 17 16 2) 4 else s
  | some (a, j) =>
    let s := setArea (setArea s (1 - a) 0) a (if j.entries.isEmpty then 2 else 1)
    let s := (heldStreams j).foldl (fun s n => setStream s n.1 { stream s n.1 with journal := some n.2 }) s
    let top := (j.entries.map Entry.order).foldl max 0
    cput (modIntake s fun x => { x with log := j.entries, orders := top }) 0x208000 17 16 1

/-- A C-die without a working link is not there: its positions are unavailable, its stacks Failed (R452, R469). -/
def dropDie (s : State) (d : Nat) : State :=
  let s := (dieCores d).foldl (fun s c => setPcore (offCore s c) c { pcoreOf s c with state := .retired, lcore := 255 }) s
  let s := failMem (failMem s (2 * d)) (2 * d + 1)
  let cut := fun (s : State) (k : Nat) => match dieAcross d k with | some _ => cutLink s d k | none => s
  [0, 1, 2, 3].foldl cut s

/-- The test of every physical core (R14, R466): those that fail are Retired, spares fill what is open. -/
def testCores (s : State) (bad : List Nat) : State :=
  let s := bad.foldl (fun s c => setPcore s c { pcoreOf s c with state := .retired, lcore := 255 }) s
  (List.range 208).foldl (fun s c => if (pcoreOf s c).state = .spare then tested s c true else s) s

/-- What a snapshot carries of the module: its serial and the ten die records of the ledger's header (R412). -/
def moduleIdentity (s : State) : List Byte := slice (ledgerHeader s) 8 16 ++ slice (ledgerHeader s) 128 160

/-- The settings of the newest snapshot whose CRC-32C is valid and whose identity is the module's; the one that final test wrote carries it
(R412, R451). -/
def restorable (s : State) : Option (List (Nat × Int)) :=
  let fits := fun (x : Snap) => x.valid && decide (x.identity = moduleIdentity s)
  let c := s.cal
  if c.snapFactory ∨ fits c.snapshot then some c.snapshot.settings else if fits c.snapOld then some c.snapOld.settings else none

/-- Whether a group of a memory is a command/address group, which has no read eye (R405). -/
def commandGroup (k g : Nat) : Bool := if k < 16 then decide (g % 5 = 4) else decide (g = 5)

/-- An eye after a cold start: its restored setting where the confirming round holds it, else one that training has found; which, and what the
round measures, is open (R411, R412, log 62). -/
def trainedEye (old : Option Int) (w : W64) : Eye :=
  let found := signed 8 (wbits w 15 8)
  { setting := match old with | some v => if w.getLsbD 0 then v else found | none => found, margin := some (wbits w 21 16) }

/-- A group after a cold start, with free values from `n` on. -/
def trainedGroup (old : Option (List (Nat × Int))) (n k g : Nat) : CalGroup :=
  let key := 2 * (512 * k + g)
  let eye := fun (e : Nat) => trainedEye (old.map fun l => tget 0 l (key + e)) (Config.freeValue (n + key + e))
  { read := if commandGroup k g then {} else eye 0, write := eye 1 }

/-- The groups of every memory after a cold start. -/
def trainedGroups (old : Option (List (Nat × Int))) (n : Nat) : Tab CalGroup :=
  (List.range 80).flatMap fun k => (List.range (groupCount k)).map fun g => (512 * k + g, trainedGroup old n k g)

/-- The margins of a group: of its eyes that have been measured. -/
def CalGroup.margins (g : CalGroup) : List Nat := g.read.margin.toList ++ g.write.margin.toList

/-- The least margin measured in an interface. -/
def leastMargin (s : State) (k : Nat) : Nat :=
  (s.cal.groups.filter fun e => decide (e.1 / 512 = k)).foldl (fun m e => e.2.margins.foldl min m) 255

/-- A memory is Ready, its interface tracks, and CAL_IF shows its worst group (R410). Steps taken by the start are open (log 62). -/
def readyMem (s : State) (k : Nat) : State :=
  let n := takeFree s
  let m := leastMargin s k
  let w := wput (wput (wput (BitVec.ofNat 64 (wbits (Config.freeValue n.1) 31 0)) 39 32 m) 47 40 m) 63 62 1
  cset (setCtl n.2 k { state := .ready }) (calIfAddr k) w

/-- Every memory is trained: its settings are restored and confirmed by a full round, or found from the defaults (R411, R412, R451). -/
def trainMems (s : State) : State :=
  let s := { s with cal := { s.cal with groups := trainedGroups (restorable s) s.free }, free := s.free + 81920 }
  (List.range 80).foldl readyMem s

/-- An eye that a confirming round measures again keeps its setting (R411). -/
def Eye.confirm (w : W64) (x : Eye) : Eye := { x with margin := x.margin.map fun _ => wbits w 21 16 }

/-- The confirming round of a warm reset (R453): every eye that has been measured is measured again. -/
def confirmMems (s : State) : State :=
  let eye := fun (key : Nat) => Config.freeValue (s.free + key)
  let f := fun (e : Nat × CalGroup) => (e.1, { e.2 with read := e.2.read.confirm (eye (2 * e.1)), write := e.2.write.confirm (eye (2 * e.1 + 1)) })
  { s with cal := { s.cal with groups := s.cal.groups.map f }, free := s.free + 81920 }

/-- The copies of the logbook lie in packages 0 and 32; where one has failed its copy is rebuilt in package 1 or 33, which counts (R323,
R452). -/
def placeCopies (s : State) : State :=
  let up := fun (p : Nat) => decide ((ctl s (16 + p)).state ≠ .failed)
  let s := bump s 0x208018 (b2n (!up 0 && up 1) + b2n (!up 32 && up 33))
  modIntake s fun x =>
    { x with rebuild := none, copyA := if up 0 then 0 else 1, copyAok := up 0 || up 1, copyB := if up 32 then 32 else 33, copyBok := up 32 || up 33 }

/-- COLD_START (R449 to R452): from time 0 to the 210 ms row, in phase LOGBOOK with ARMED 1, or to BOOT_FAIL. -/
def coldStart (s : State) (f : BootFacts) : State :=
  let cause := wbits (cget s 0x100008) 7 0
  let warmN := s.drl.warmResetN
  let freezeN := s.drl.freezeN
  let s := modDrl (keptInFlash s) fun d => { d with started := true, warmResetN := warmN, freezeN := freezeN, bankOk := f.bankOk }
  let s := cput s 0x100008 7 0 cause
  match bootSlot s with
  | none => bootFail (noteSlot (noteSlot s 0) 1) 1
  | some slot =>
    let s := bootFrom s slot
    if ¬ f.pllLock then bootFail s 2
    else if ¬ f.hubLinks then bootFail s 3
    else
      let s := trainMems s
      let s := f.deadDies.foldl dropDie s
      let s := f.deadMems.foldl failMem (modIntake s fun x => { x with copyAok := false, copyBok := false })
      let s := testCores s f.badCores
      let s := { s with net := { s.net with ports := (List.range 20).map fun p => (p, { state := .training }) } }
      if [16, 17, 48, 49].all fun k => decide ((ctl s k).state = .failed) then bootFail s 4
      else
        let s := placeCopies s
        let s := readJournal s
        let s := restLeaves s
        if ¬ f.journalErase then bootFail s 5
        else if ¬ f.bankOk then bootFail s 6
        else rearm (modDrl s fun d => { d with phase := .logbook })

/-- COLD_START. -/
def execColdStart (f : BootFacts) (s : State) : Out :=
  event (f.deadDies.all (· < 8) && f.deadMems.all ctlOk && f.badCores.all coreOk)
    (s.drl.rails && !s.drl.started && decide (s.drl.phase = .rom)) s (coldStart s f)

-- READY (R449, R450, R453, R457, R501)

/-- The QPSET entry of host queue pair 4,096 by the identity record in force: PSNs 0, the rest at its defaults. -/
def hostQpConf (b : List Byte) : List Byte :=
  leBytes 2 4096 ++ slice b 92 2 ++ zeros 4 ++ slice b 80 4 ++ zeros 19 ++ leBytes 1 0x1F ++ slice b 64 16 ++ slice b 96 12 ++ zeros 4

/-- Big-endian 8 bytes, as NET_IP shows them. -/
def beWord (b : List Byte) (off : Nat) : W64 := BitVec.ofNat 64 (leNat (slice b off 8).reverse)

/-- Stream 0 opens, and the addresses of the ports are loaded (R450, R501). -/
def openStream0 (s : State) : State :=
  let b := identInForce s
  let s := setQpair s (hostQpConf b)
  let s := cset (cset s 0x400010 (beWord b 32)) 0x400018 (beWord b 40)
  let s := cset (cset s 0x400020 (beWord b 48)) 0x400028 (beWord b 56)
  let x := stream s 0
  let s := setStream s 0 { state := .idle, next := x.journal.getD 0, qp := 4096, skey := fld b 84 4, ckey := fld b 88 4 }
  journaledOutcomes s 0

/-- PHASE READY with its count and alert; a pin that is still low, or a cause of the device's own that came before, acts now (R457, R467;
log 54). -/
def enterReady (s : State) : State :=
  let s := modDrl s fun d => { d with phase := .ready, frz := .running, frzCmd := 0, frzPin := false, frzHold := false }
  let s := alert (cput s 0x100000 31 0 (s.kc % 2 ^ 32)) 0
  if ¬ s.drl.warmResetN then beginWarm s 2
  else if s.drl.warmDue then beginWarm s 3
  else if ¬ s.drl.freezeN ∧ ¬ s.drl.freezeSpent ∧ pinEnabled s then beginPinFreeze s
  else s

/-- Each package begins its fill in the background (R180). -/
def beginFill (s : State) : State :=
  (List.range 64).foldl (fun s k => if (ctl s (16 + k)).state = .failed then s else setCtl s (16 + k) { ctl s (16 + k) with filling := true }) s

/-- COLD_READY (R449, R450), with ARMED 1: stream 0 opens. -/
def execColdReady (s : State) : Out :=
  when_ (s.drl.rails && s.drl.started && decide (s.drl.phase = .logbook) && (cget s 0x208000).getLsbD 1) s <|
    enterReady (openStream0 (modIntake (beginFill s) fun x => { x with ran := true }))

-- Warm reset (R290, R321, R372, R404, R453, R466, R469)

/-- WARM_RESET_ASSERT: WARM_RESET_N falls; before READY, in a flush and after a halt it only stays low (R457, R470). -/
def execWarmResetAssert (s : State) : Out :=
  if ¬ s.drl.warmResetN then .next s
  else
    let t := modDrl s fun d => { d with warmResetN := false }
    .next (if s.drl.rails ∧ s.drl.phase = .ready ∧ ¬ s.drl.halted then beginWarm t 2 else t)

/-- What a warm reset leaves of a core: its placement and code, Off. -/
def warmCore (x : Core) : Core := { place := x.place, code := x.code, issued := x.issued }

/-- The fast domain leaves reset (R5, R182, R290, R453): registers that are not warm-preserved, core SRAM and what travelled are gone;
memories leave self-refresh and are confirmed; Fenced cores are tested before READY (R466). -/
def warmLogic (s : State) : State :=
  let s := csrWarm s
  let f := fun (e : Nat × Core) => (e.1, warmCore e.2)
  let s := { s with sram := [], cores := s.cores.map f }
  let s := { s with fab := { s.fab with arrivals := [], flits := [], circ := [], sent := [] } }
  let f := fun (e : Nat × Wkc) => (e.1, ({ init := e.2.init, bound := e.2.bound } : Wkc))
  let s := { s with wkc := s.wkc.map f }
  let s := { s with pwr := {} }
  let s := { s with obs := { s.obs with pendLost := [], staged := [] } }
  let f := fun (e : Nat × Port) => (e.1, { e.2 with paused := false })
  let s := { s with net := { s.net with ports := s.net.ports.map f } }
  let s := ((List.range 208).filter fun c => decide ((pcoreOf s c).state = .fenced)).foldl beginTest s
  confirmMems (wakeMemories (modDrl s fun d => { d with started := true }))

/-- WARM_RESET_RELEASE: WARM_RESET_N rises, or the own cause acts, and the reset runs. -/
def execWarmResetRelease (s : State) : Out :=
  if s.drl.phase = .warm ∧ ¬ s.drl.started ∧ ¬ s.drl.halted then
    .next (warmLogic (modDrl s fun d => { d with warmResetN := d.warmResetN || decide (d.warmCause = 2) }))
  else .next (modDrl s fun d => { d with warmResetN := true })

/-- A take that the reset cut off is retaken (R321, R333): KILLED_RETAKE, with its landings aborted; one that was being killed already is
clear now, and its command is told where it goes on. -/
def retakeWarm (s : State) (t : Take) : State :=
  let told : CInfo := { status := 5, reason := s.drl.warmReason }
  let on := (findEntry s t.stream t.seq).any Entry.unfinished
  let s := if ¬ t.killed then killForRetake s t told true else if on then interim s t.stream t.seq told else s
  freeTake s t

/-- The roots of a commit list are written again where they stand, each as one whole word (R187); a root that a later update has replaced since
is left. -/
def rewriteRoots (s : State) (e : Entry) (c : CommitList) : State :=
  match stepRun s e with
  | some r => c.roots.foldl (fun s w =>
      let a := rootAddr s r w.1
      if devReads s a 64 = w.2 ∧ ¬ inFailed s a 64 then ownWrite s a w.2 else s) s
  | none => s

/-- Step 6 of R317 again, from the commit list: the roots and the publication list are written again; the indices stand as they were set
(R315). -/
def repeatCommit (s : State) (e : Entry) : State :=
  match e.clist with
  | some c =>
    let s := rewriteRoots s e c
    let at_ := fun (b : Buf) => match c.indices.find? (·.1 = b.id) with | some i => { b with pub := i.2 } | none => b
    if handleOk s e.handle then writePub s e ((slotOf s (slotOfHandle e.handle)).bufs.map at_) else s
  | none => s

/-- What the intake does with the entries that have ended (R321): a committed one has its step 6 repeated, and their latest completions are
written again. A FREEZE's DONE is written now (R473). -/
def rewriteEnded (s : State) : State :=
  (s.intake.log.filter fun e => !e.unfinished && decide (e.state ≠ .journaled)).foldl (fun s e =>
    if freezeDue e then settle (complete s e.stream e.seq { status := 0 }) e.stream
    else
      let s := if e.state = .committed then repeatCommit s e else s
      send s (stream s e.stream).qp (.completion e.stream e.seq) (stream s e.stream).ckey (fld e.body 16 8) e.comp) s

/-- Whether a warm reset finds a command accepted, or running with its take killed and clear already, in a stream that goes on, and not
waiting: it is retaken as a running one is (R321; log 54). -/
def acceptedOnly (s : State) (e : Entry) : Bool :=
  decide ((e.state = .accepted ∨ e.state = .running) ∧ e.waitReason = 0 ∧ (stream s e.stream).state ≠ .halted) && e.hasTake && (takeOfCmd s e.stream e.seq).isNone

/-- Whether a placed image still stands on available positions. -/
def standing (s : State) (n : Nat) : Bool :=
  let x := slotOf s n
  decide ((physRect s x.img (x.row, x.col)).length = coreCount x.img)

/-- Add an image to those that are routed again (R469), or leave it out: the images kept, their length and timetable. -/
def keepRouted (s : State) (a : List Placed × Nat × Table) (n : Nat) : List Placed × Nat × Table :=
  let ps := a.1 ++ [placedOf s n]
  let want := (ps.map fun p => lReq p.img).foldl max 0
  match (if standing s n then ([16, 32, 64].filter fun l => want ≤ l).findSome? (fun l => (fitAll s ps l).map fun t => (t, l)) else none) with
  | some t => (ps, t.2, t.1)
  | none => a

/-- Every loaded image is routed again at its origin after a link has failed; one that cannot be is unloaded, and its commands end with
HANDLE (R469). -/
def rerouteAll (s : State) : State :=
  let all := placedSlots s
  let a := all.foldl (keepRouted s) ([], 16, [])
  let lost := all.filter fun n => !a.1.any fun p => p.slot = n
  let s := lost.foldl (fun s n => emptySlot (endWaiters s n 2) n) s
  writeBank (reboundAll s a.2.2 a.2.1) a.2.2 a.2.1

/-- C-dies without any working link. -/
def cutDies (s : State) : List Nat :=
  (List.range 8).filter fun d => [0, 1, 2, 3].all fun k => (dieAcross d k).isNone || decide ((d, k) ∈ s.fab.deadLinks)

/-- The entries that are past their head moment wake their placements again (R424). -/
def rewake (s : State) : State :=
  (s.intake.log.filter fun e => e.unfinished ∧ e.hasTake ∧ e.head).foldl wakeFor s

/-- Every queue pair sends again from its oldest unacknowledged PSN (R372, R453). -/
def resendAll (s : State) : State := ((knownQps s).filter (qpLive s)).foldl resend s

/-- WARM_READY (R321, R453): the intake has gone through every live entry. The firmware slot in use is checked again (R461); where that fails
no memory has left self-refresh. -/
def warmReady (s : State) : State :=
  if fwCheck s (fwImage s s.sec.slot) ≠ 0 then bootFail (noteSlot (sleepMemories s) s.sec.slot) 1
  else
    let s := noteDigest (noteSlot (resendAll s) s.sec.slot) s.sec.slot
    let s := if s.drl.warmReason = 4 then tellFrozen s else s
    let accepted := s.intake.log.filter (acceptedOnly s)
    let s := s.intake.takes.foldl retakeWarm s
    let reason := s.drl.warmReason
    let s := accepted.foldl (fun s e => interim s e.stream e.seq { status := 5, reason := reason }) s
    let dies := (cutDies s).filter fun d => (dieCores d).any fun c => (pcoreOf s c).state ≠ .retired
    let s := dies.foldl dropDie s
    let s := if s.fab.reroute then rerouteAll { s with fab := { s.fab with reroute := false } } else s
    let s := rewake (rewriteEnded s)
    let w := cget s 0x100008
    let s := cset s 0x100008 (wput (wput w 31 16 ((wbits w 31 16 + 1) % 65536)) 7 0 s.drl.warmCause)
    enterReady (rearm s)

/-- WARM_READY, once every Fenced core has been tested (R466). -/
def execWarmReady (s : State) : Out :=
  when_ (decide (s.drl.phase = .warm) && s.drl.started && !s.drl.halted && s.drl.pcores.all fun p => decide (p.state ≠ .testing)) s (warmReady s)

end Sys2Proof.Machine
end

