-- ==== Sys2Proof/Machine/CsrWrite.lean ====
section
/-! DEFINITION. Writes to CSR space (R4, R7, R8): the registers whose writes act beyond their own word (R349, R463, R478, R511), and
the plain ones. -/
namespace Sys2Proof.Machine

open Sys2Proof

/-- Address of OBS_CFG of a die. -/
def obsCfgReg (d : Nat) : Nat := 0xB000000 + 8 * d
/-- Address of OBS_RING of a die. -/
def obsRingReg (d : Nat) : Nat := 0xB000100 + 8 * d

/-- Regions of the range that an OBS_RING word names: BASE and LEN_MIB lie where FRZ_DAILIES has them. -/
def ringRegions (w : W64) : List Nat := regionsOf (areaBase w) (areaLen w)

/-- A write to OBS_RING (R511): while EN is 0, the ring moves to a range of Open regions, or is disabled. -/
def moveRing (s : State) (d : Nat) (v : W64) : State :=
  let old := cget s (obsRingReg d)
  let new := wput v 15 0 0
  let t := setRegions s (ringRegions old) 0
  let begin_ := fun (t : State) => { t with obs := { t.obs with pos := tset 0 t.obs.pos d 0 } }
  if (cget s (obsCfgReg d)).getLsbD 0 then s
  else if areaLen new = 0 then begin_ (cset t (obsRingReg d) new)
  else if openLiveRange s (areaBase new) (areaLen new) then begin_ (cset (setRegions t (ringRegions new) 2) (obsRingReg d) new)
  else s

/-- The ten dies. -/
def dies : List Nat := List.range 10

/-- Junction temperature of a die at the last reading. -/
def dieTemp (s : State) (d : Nat) : Nat := wbits (cget s (0x140100 + 8 * d)) 23 16

/-- TJ_LIM. -/
def tjLim (s : State) : Nat := wbits (cget s 0x140000) 31 24

/-- Whether some die is at or above TJ_LIM (PWR_STATUS.THERMAL). -/
def hot (s : State) : Bool := dies.any fun d => tjLim s ≤ dieTemp s d

/-- The THERMAL alert as PWR_STATUS.THERMAL becomes 1 (R447), whether a reading or a lower TJ_LIM makes it so. -/
def noteHot (was : Bool) (s : State) : State := if hot s ∧ ¬ was then alert s 1 else s

/-- A write to NET_PORT: with ENABLE 0 the port is held Down (R349). -/
def enablePort (s : State) (p : Nat) (on : Bool) : State :=
  let x := port s p
  if x.enable = on then s
  else if on then setPort s p { x with enable := true, state := .training }
  else portFall (setPort s p { x with enable := false }) p

/-- A write of 8 aligned bytes of CSR space; none is ADDR_UNMAPPED, with no effect (R7). -/
def writeCsr (s : State) (a : Nat) (v : W64) : Option State :=
  match regAt a with
  | none => none
  | some .drlReinit => some (writeReinit s (wbits v 63 56) (wbits v 15 0))
  | some .frzDailies => some (moveDailies s v)
  | some (.obsRing d) => some (moveRing s d v)
  | some (.netPort p) => some (enablePort s p (v.getLsbD 7))
  | some _ => some (noteHot (hot s) (csrStore s a v))

/-- CSR_WRITE (R7): an access that names no register completes with ADDR_UNMAPPED and changes nothing. -/
def execCsrWrite (a : Nat) (v : W64) (s : State) : Out :=
  when_ (ready s) s <| match writeCsr s a v with
    | some t => { t with csrEnd := 0 }
    | none => { s with csrEnd := 0x11 }

/-- FRZ_DAILIES_WRITE (R478). -/
def execFrzDailiesWrite (v : W64) (s : State) : Out := when_ (ready s) s (moveDailies s v)

/-- OBS_RING_WRITE (R511). -/
def execObsRingWrite (d : Nat) (v : W64) (s : State) : Out := event (dieOk d) (ready s) s (moveRing s d v)

end Sys2Proof.Machine
end

