-- ==== Sys2Proof/Machine/Net.lean ====
section
/-! DEFINITION. The network at the receiver (R351 to R353, R356, R360 to R363, R365): the tests of a packet, writes, reads and
control records. -/
namespace Sys2Proof.Machine

open Sys2Proof

-- The tests of R356

/-- The receive SA of a packet's AN. -/
def rxSa (s : State) (m : Pkt) : Option Sa := (port s m.port).sas.find? fun a => !a.tx && decide (a.an = m.an)

/-- Step 1: FCS, and MACsec when the port has an SA (R368): a receive SA for the AN, and a packet number within the window of 64 below the
next one expected. -/
def frameOk (s : State) (m : Pkt) : Bool :=
  m.fcs && if (port s m.port).sas = [] then decide (m.macsec = 0)
    else decide (m.macsec = 1) && match rxSa s m with | some a => decide (a.pn ≤ m.pn + 64) | none => false

/-- A frame that passes step 1 moves the next packet number expected under its receive SA. -/
def noteFrame (s : State) (m : Pkt) : State :=
  let x := port s m.port
  if ¬ frameOk s m ∨ x.sas = [] then s
  else setPort s m.port { x with sas := updFirst (fun a => !a.tx && decide (a.an = m.an)) (fun a => { a with pn := max a.pn (m.pn + 1) }) x.sas }

/-- The address of a port's kind, NET_IP_CMD or NET_IP_PEER, in transmission order (R350). -/
def portIp (s : State) (p : Nat) : List Byte :=
  let a := if p < 4 then 0x400010 else 0x400020
  (leBytes 8 (cget s a).toNat).reverse ++ (leBytes 8 (cget s (a + 8)).toNat).reverse

/-- Steps 1 to 3: the frame, address, UDP port and ICRC, queue pair and source. -/
def pktPasses (s : State) (m : Pkt) : Bool :=
  frameOk s m && decide (m.dip = portIp s m.port ∧ m.udp = 4791) && m.icrc && qpLive s m.qp && decide (m.sip = slice (qp s m.qp).conf 32 16)

/-- A packet marked CE: a CNP goes back, at most once per CNP_GAP_US (R366). -/
def answerCe (s : State) (m : Pkt) : State :=
  let x := qp s m.qp
  let gap := 25 * wbits (cget s 0x400030) 63 48
  let due : Bool := match x.lastCnpKc with | some k => decide (k + gap ≤ s.kc) | none => true
  if m.ce ∧ (cget s netBase).getLsbD 0 ∧ due then
    let s := answer s m.qp { kind := .cnp, psn := 0, key := 0, va := 0, data := [] }
    setQp s m.qp { qp s m.qp with lastCnpKc := some s.kc }
  else s

/-- A valid packet on the other port moves the queue pair there (R357). -/
def followPort (s : State) (m : Pkt) : State := if (qp s m.qp).other = m.port then dueReinits (moveQp s m.qp) else s

/-- What happens to a packet at an Up port: dropped and counted, or handed on. One for a queue pair that the device does not have is dropped
by step 3 (R356). -/
def received (s : State) (m : Pkt) (f : State → State) : Out :=
  onUnit (portOk m.port) s <|
    if ¬ fast s ∨ (port s m.port).state ≠ .up then .next s
    else if ¬ (qpOk m.qp ∧ pktPasses s m) then .next (bump (noteFrame s m) (netBase + 0x200) 1)
    else .next (f (followPort (answerCe (noteFrame s m) m) m))

/-- Distance from one PSN up to another. -/
def psnFrom (a b : Nat) : Nat := (b + 2 ^ 24 - a) % 2 ^ 24

/-- Step 4 for a request: the expected PSN goes on, one behind it is a duplicate, one ahead of it gets NAK Sequence Error, once until
the expected packet comes. -/
def atPsn (s : State) (m : Pkt) (dup f : State → State) : State :=
  let x := qp s m.qp
  let d := psnFrom x.rcvPsn m.psn
  if d = 0 then f (setQp s m.qp { x with nakOut := false })
  else if 2 ^ 23 ≤ d then dup s
  else if x.nakOut then s
  else sendNak (setQp s m.qp { x with nakOut := true }) m.qp x.rcvPsn 0

/-- NAK Invalid Request (R352, R358). -/
def nakInvalid (s : State) (m : Pkt) : State := sendNak s m.qp m.psn 1

/-- NAK Remote Access Error (R358, R360). -/
def nakAccess (s : State) (m : Pkt) : State := sendNak s m.qp m.psn 2

/-- A duplicate write is acknowledged again and not performed again, which R353 leaves to the device (log 60). -/
def ackAgain (s : State) (m : Pkt) : State := sendAck s m.qp m.psn

/-- The expected PSN moves past the packets of a request. -/
def passPsn (s : State) (q n : Nat) : State := setQp s q { qp s q with rcvPsn := ((qp s q).rcvPsn + n) % 2 ^ 24 }

-- Access by key (R360, R361)

/-- The result of an access: done, or refused with what is logged. -/
abbrev Tried := Bool × State

/-- A write to memory, as tried. -/
def tryWrite (s : State) (a : Nat) (d : List Byte) : Tried :=
  match writeMem s a d with
  | (.done, t) => (true, wakeAt t a)
  | (r, _) => (false, logLoss s r a)

/-- A write through a PLAIN key: 8 aligned bytes of CSR space (R7), or memory (R188). `left` is how much of the message is still to come,
these bytes with it. -/
def plainWrite (s : State) (a left : Nat) (d : List Byte) : Tried :=
  match decodeAddr a with
  | .csr =>
    if d.length ≠ 8 ∨ left ≠ 8 ∨ a % 8 ≠ 0 then (false, s)
    else match writeCsr s a (BitVec.ofNat 64 (leNat d)) with
      | some t => (true, t)
      | none => (false, s)
  | _ => tryWrite s a d

/-- A write to a command window (R361); its slots are examined once the message has been placed (R293). -/
def hostWindow (s : State) (q key st off left : Nat) (d : List Byte) : Tried :=
  let x := stream s st
  if x.state ≠ .closed ∧ x.qp = q ∧ x.skey = key ∧ off + left ≤ 0x100000 then
    (true, windowWrite (setQp s q { qp s q with rxSlots := (qp s q).rxSlots ++ windowSlots st off d.length }) st off d)
  else (false, s)

/-- Whether an access to an entry passes the tests of R360 that come before those of its kind; `right` is 0 read, 1 write. -/
def keyAllows (s : State) (e : KeyEnt) (q right va len : Nat) : Bool :=
  let a := if e.kind = 0 then va else e.base + va
  inScope s e q && bit e.rights right && decide (e.base ≤ a ∧ a + len ≤ e.base + e.len) && rangeMapped s a len

-- Zones (R362, R363, R365)

/-- Identity of the last sealed landing, after its stream: sequence number and landing number. -/
def zLast (z : List Byte) : Nat × Nat := (fld z 32 6, fld z 28 4)

/-- Whether an OPEN repeats a landing that is sealed already. -/
def sealedBefore (z : List Byte) (id : Nat × Nat × Nat) : Bool :=
  let l := zLast z
  decide (zSeals z ≠ 0 ∧ fld z 3 1 = id.1) && (decide (id.2.1 < l.1) || (decide (id.2.1 = l.1) && decide (id.2.2 ≤ l.2)))

/-- OPEN of a landing in an Idle zone. -/
def zoneOpen (s : State) (e : KeyEnt) (z : List Byte) (id : Nat × Nat × Nat) : State :=
  if sealedBefore z id then s
  else
    let z := putBytes (putBytes (putBytes (putBytes z 0 [1]) 2 (leBytes 1 id.1)) 16 (leBytes 6 id.2.1)) 24 (leBytes 4 id.2.2)
    let s := putZone s e z
    if e.kind = 2 then
      let c : Contrib := { peer := e.scope, dev := fld z 4 4, stream := id.1, seq := id.2.1, landing := id.2.2, half := zHalf e (1 - zPub z),
                           writes := [], added := false, closed := false, counted := false, late := false }
      modCen s fun x => { x with contribs := x.contribs ++ [c] }
    else s

/-- The length of a landing up to its last write. -/
def contribLen (c : Contrib) : Nat := c.writes.foldl (fun n w => max n (w.1 + w.2.length)) 0

/-- The collective engine takes a sealed message in hand, unless a word of it is lost, which is logged (R176, R177, R390). -/
def takeMsg (s : State) (c : Contrib) : State :=
  match lostAt s c.half (contribLen c) with
  | some a => logLoss (dropContrib s c) .dataLoss a
  | none => modCen (dropContrib s c) fun x => { x with inbox := x.inbox ++ [{ sender := c.dev, window := devReads s c.half (contribLen c) }] }

/-- What the collective engine does with a landing as it is sealed: a contribution counts (R387), a message is in hand (R390). -/
def sealTally (s : State) (c : Contrib) : State := if c.landing < 2 ^ 31 then sealContrib s c else takeMsg s c

/-- SEAL of the open landing: its half is published. -/
def zoneSeal (s : State) (e : KeyEnt) (z : List Byte) : State :=
  let id := zId z
  let y := putBytes (putBytes z 0 [0]) 1 (leBytes 1 (1 - zPub z))
  let y := putBytes (putBytes y 8 (leBytes 8 (zSeals z + 1))) 3 (leBytes 1 id.1)
  let y := putBytes (putBytes y 28 (leBytes 4 id.2.2)) 32 (leBytes 6 id.2.1)
  let s := putZone s e y
  match (if e.kind = 2 then openContrib s e id else none) with
  | some c => sealTally s c
  | none => s

/-- A control record takes effect (R363); it fails when OPEN meets another open landing. -/
def zoneRecord (s : State) (e : KeyEnt) (b : List Byte) : Tried :=
  let z := zoneRec s e
  let id := (fld b 1 1, fld b 8 6, fld b 16 4)
  let mine := zOpen z && decide (zId z = id)
  match fld b 0 1 with
  | 1 => if mine then (true, s) else if zOpen z then (false, s) else (true, zoneOpen s e z id)
  | 2 => if mine then (true, zoneSeal s e z) else (true, bump s (netBase + 0x228) 1)
  | _ => (true, if mine then abortZone s e else s)

/-- A control record reads and writes the zone record, where memory lets a peer (R176, R177, R188). -/
def zoneControl (s : State) (e : KeyEnt) (b : List Byte) : Tried :=
  match zoneTest s e with
  | .done => zoneRecord (wakeAt s e.base) e b
  | r => (false, logLoss s r e.base)

/-- Whether a control record is one (R362). -/
def controlOk (s : State) (q : Nat) (b : List Byte) : Bool :=
  crcOk b 60 && within 1 3 (fld b 0 1) && decide (fld b 4 4 = (qp s q).devId)

/-- A data write to the logical window (R363, R365): discarded while the zone is Idle, else into the unpublished half. -/
def zoneData (s : State) (e : KeyEnt) (o : Nat) (d : List Byte) : Tried :=
  let z := zoneRec s e
  if readTest s e.base 64 ≠ .done then (false, logLoss s (readTest s e.base 64) e.base)
  else if ¬ zOpen z then (true, bump s (netBase + 0x220) 1)
  else
    let w := tryWrite s (zHalf e (1 - zPub z) + o) d
    match (if w.1 ∧ e.kind = 2 then openContrib w.2 e (zId z) else none) with
    | some c => (true, addContrib w.2 c (o, d))
    | none => w

/-- A write through a LANDING or TALLY key. -/
def zoneWrite (s : State) (e : KeyEnt) (q va left : Nat) (d : List Byte) (only : Bool) : Tried :=
  if va = 64 then
    if d.length = 64 ∧ only ∧ controlOk s q d then zoneControl s e d else (false, s)
  else if 4096 ≤ va ∧ va + left ≤ 4096 + e.half then zoneData s e (va - 4096) d
  else (false, s)

/-- Step 6 of R356 for a write packet, with its effect; the tests look at all that is still to come of its message (log 56). A write of no
bytes accesses nothing. -/
def writeAccess (s : State) (q key va left : Nat) (d : List Byte) (only : Bool) : Tried :=
  if d = [] then (true, s)
  else match (if 4096 ≤ q then decodeAddr va else .reserved) with
    | .window st off => hostWindow s q key st off left d
    | _ => match keyEnt s key with
      | none => (false, s)
      | some e =>
        if ¬ keyAllows s e q 1 va left then (false, s)
        else if e.kind = 0 then plainWrite s va left d
        else zoneWrite s e q va left d only

-- Inbound writes (R351, R353)

/-- Whether a write packet follows the one before it and has a length that its place in the message allows; `left` is how much of the
message is still to come. A message is at most 2^31 bytes long (R351). -/
def writeFits (x : Qp) (opcode len left : Nat) : Bool :=
  let mtu := qpMtu x
  match opcode with
  | 0x06 => decide (x.rxKey = 0 ∧ len = mtu ∧ len < left ∧ left ≤ 2 ^ 31)
  | 0x07 => decide (x.rxKey ≠ 0 ∧ len = mtu ∧ len < left)
  | 0x08 => decide (x.rxKey ≠ 0 ∧ 0 < len ∧ len ≤ mtu ∧ len = left)
  | 0x0A => decide (x.rxKey = 0 ∧ len ≤ mtu ∧ len = left)
  | _ => false

/-- A packet of a write has been performed: its message goes on at a key and address with so many bytes to come, or has been placed, and
then the window slots that it wrote are to be examined (R293). -/
def wrote (s : State) (q : Nat) (goesOn : Option (Nat × Nat × Nat)) : State :=
  let x := qp s q
  match goesOn with
  | some (k, a, left) => setQp s q { x with rxKey := k, rxVa := a, rxLeft := left }
  | none =>
    modIntake (setQp s q { x with rxKey := 0, rxVa := 0, rxLeft := 0, rxSlots := [] }) fun y =>
      { y with touched := (y.touched ++ x.rxSlots).eraseDups }

/-- A write packet at its PSN: performed and acknowledged, or answered with a NAK. A packet of several takes the key, address and length of
its message's first. -/
def inWrite (s : State) (m : Pkt) (opcode rkey va : Nat) (data : List Byte) : State :=
  let x := qp s m.qp
  let first := decide (opcode = 0x06 ∨ opcode = 0x0A)
  let key := if first then rkey else x.rxKey
  let a := if first then va else x.rxVa
  let left := if first then m.dma else x.rxLeft
  if ¬ writeFits x opcode data.length left then nakInvalid s m
  else
    let w := writeAccess s m.qp key a left data (decide (opcode = 0x0A))
    if ¬ w.1 then nakAccess w.2 m
    else
      let more := decide (opcode = 0x06 ∨ opcode = 0x07)
      let s := wrote w.2 m.qp (if more then some (key, a + data.length, left - data.length) else none)
      sendAck (passPsn s m.qp 1) m.qp m.psn

/-- RX_RDMA_WRITE. -/
def execRxRdmaWrite (m : Pkt) (opcode rkey va : Nat) (data : List Byte) (s : State) : Out :=
  received s m fun s => atPsn s m (ackAgain · m) fun s => inWrite s m opcode rkey va data

/-- A control record of a kind, as one write of the control slot. -/
def inControl (m : Pkt) (kind rkey : Nat) (b : List Byte) (s : State) : Out :=
  if fld b 0 1 ≠ kind then .next s
  else received s m fun s => atPsn s m (ackAgain · m) fun s => inWrite s m 0x0A rkey 64 b

/-- RX_CONTROL_OPEN. -/
def execRxControlOpen (m : Pkt) (rkey : Nat) (b : List Byte) (s : State) : Out := inControl m 1 rkey b s

/-- RX_CONTROL_SEAL. -/
def execRxControlSeal (m : Pkt) (rkey : Nat) (b : List Byte) (s : State) : Out := inControl m 2 rkey b s

/-- RX_CONTROL_ABORT. -/
def execRxControlAbort (m : Pkt) (rkey : Nat) (b : List Byte) (s : State) : Out := inControl m 3 rkey b s

/-- Opcodes of R351. -/
def opcodeKnown (opcode : Nat) : Bool := opcode ∈ [0x06, 0x07, 0x08, 0x0A, 0x0C, 0x0D, 0x0E, 0x0F, 0x10, 0x11, 0x81]

/-- RX_INVALID_REQUEST (R352). -/
def execRxInvalidRequest (m : Pkt) (opcode : Nat) (s : State) : Out :=
  if opcodeKnown opcode then .next s
  else received s m fun s => atPsn s m (ackAgain · m) (nakInvalid · m)

-- Inbound reads (R351, R360, R362)

/-- A read of memory, as tried. -/
def tryRead (s : State) (a len : Nat) : Option (List Byte) × State :=
  match readMem s a len with
  | (.done, d) => (some d, wakeAt s a)
  | (r, _) => (none, logLoss s r a)

/-- A read through a PLAIN key. -/
def plainRead (s : State) (a len : Nat) : Option (List Byte) × State :=
  match decodeAddr a with
  | .csr => (if len = 8 then (csrRead s a).map fun v => leBytes 8 v.toNat else none, s)
  | _ => tryRead s a len

/-- A read through a LANDING or TALLY key: the zone record, or the published half. -/
def zoneRead (s : State) (e : KeyEnt) (va len : Nat) : Option (List Byte) × State :=
  if va + len ≤ 64 then tryRead s (e.base + va) len
  else if readTest s e.base 64 ≠ .done then (none, logLoss s (readTest s e.base 64) e.base)
  else if 4096 ≤ va ∧ va + len ≤ 4096 + e.half then tryRead s (zHalf e (zPub (zoneRec s e)) + (va - 4096)) len
  else (none, s)

/-- Step 6 of R356 for a read. Every read of a window fails (R361). -/
def readAccess (s : State) (q key va len : Nat) : Option (List Byte) × State :=
  if len = 0 then (some [], s)
  else match keyEnt s key with
    | none => (none, s)
    | some e =>
      if ¬ keyAllows s e q 0 va len then (none, s)
      else if e.kind = 0 then plainRead s va len
      else zoneRead s e va len

/-- A read request: answered from memory at its PSN. A duplicate is answered again, and does not move the expected PSN. -/
def inRead (s : State) (m : Pkt) (key va len : Nat) (again : Bool) : State :=
  if 2 ^ 31 < len then nakInvalid s m
  else match readAccess s m.qp key va len with
    | (none, t) => nakAccess t m
    | (some d, t) =>
      let n := max 1 (cdiv len (qpMtu (qp t m.qp)))
      let t := if again then t else passPsn t m.qp n
      answer t m.qp { kind := .readResp, psn := m.psn, key := 0, va := va, data := d }

/-- RX_RDMA_READ_REQUEST. A request inside a write message is out of sequence. -/
def execRxRdmaReadRequest (m : Pkt) (rkey va len : Nat) (s : State) : Out :=
  received s m fun s => atPsn s m (inRead · m rkey va len true) fun s =>
    if (qp s m.qp).rxKey ≠ 0 then nakInvalid s m else inRead s m rkey va len false

end Sys2Proof.Machine
end

