-- ==== Sys2Proof/Machine/NetAck.lean ====
section
/-! DEFINITION. The network at the sender: acknowledgements, NAKs, read answers and timeouts (R351, R357, R358), congestion reaction
(R366) and pauses (R367). -/
namespace Sys2Proof.Machine

open Sys2Proof

-- What an acknowledgement does

/-- Whether a completion ends what its command is told: it is Final or OUTCOME_JOURNALED (R9, R305). -/
def endsCommand (b : List Byte) : Bool := fld b 0 1 ∉ [0x01, 0x05, 0x06, 0x0D, 0x0E, 0x12]

/-- A completion is acknowledged (R305): a Final one that stands retires its entry. -/
def ackCompletion (s : State) (st seq : Nat) (b : List Byte) : State :=
  match findEntry s st seq with
  | some e => if e.comp = b ∧ endsCommand b then retire s st seq else s
  | none => s

/-- The request that a remote write serves, by its issue number. -/
def writeReq (x : Core) (no : Nat) : Option Req := x.reqs.find? fun q => q.xfr ∧ q.no = no

/-- A remote write is acknowledged: its piece is done. -/
def ackWrite (s : State) (c no : Nat) : State :=
  match writeReq (core s c) no with
  | some q => pieceDone s c q
  | none => s

/-- The XFR SEAL of a landing has been acknowledged (R364). -/
def sealMoved (l : Landing) (x : Core) : Core :=
  let mine := fun (r : XfrRun) => decide (xDir r.desc.bytes = 4 ∧ xLanding r.desc.bytes = l.landing) && !r.moved
  { x with xfrs := updFirst mine (fun r => { r with moved := true }) x.xfrs }

/-- A SEAL is acknowledged: its landing is visible and open no longer; what waited for its key may go (R364, R382). -/
def ackSeal (s : State) (q st seq landing : Nat) : State :=
  match s.net.landings.find? fun l => l.peer = q ∧ l.stream = st ∧ l.seq = seq ∧ l.landing = landing ∧ l.sealing with
  | none => s
  | some l =>
    let s := { s with net := { s.net with landings := delFirst (fun e => e = l) s.net.landings } }
    let s := if l.engine then s else
      let t := modEntry s st seq fun e => { e with sealedAny := true }
      let t := modTake t st seq fun u => { u with bound := u.bound.map fun e => if e.landing = landing then { e with done := true } else e }
      match takeOfCmd t st seq with
      | some u => (coresOf t u.slot).foldl (fun t c => modCore t c (sealMoved l)) t
      | none => t
    flushOutbox s

/-- The effect of a message's acknowledgement. -/
def ackMsg (s : State) (q : Nat) (m : Msg) : State :=
  match m.kind with
  | .completion st seq => ackCompletion s st seq m.data
  | .rwrite c _ no => ackWrite s c no
  | .control st seq landing 2 => ackSeal s q st seq landing
  | _ => s

/-- Whether the last packet of a message lies at or before a distance `d` from PSN `from_`. -/
def endsBy (x : Qp) (from_ d : Nat) (m : Msg) : Bool := decide (psnFrom from_ m.psn + msgPsns x m ≤ d)

/-- The messages that are acknowledged by everything before a distance `d` from the oldest PSN: whole ones, up to the first read. -/
def ackedBefore (x : Qp) (d : Nat) : List Msg :=
  match x.sendq with
  | [] => []
  | f :: _ => x.sendq.takeWhile fun m => !isRead m && endsBy x f.psn d m

/-- Messages leave the queue, oldest first; timers and retries start again, waiting messages go, and each takes its effect. -/
def retireMsgs (s : State) (q : Nat) (ms : List Msg) : State :=
  if ms = [] then s
  else
    let x := qp s q
    let s := drainQp (setQp s q { x with sendq := x.sendq.drop ms.length, tries := 0, pathsTried := 0 }) q
    ms.foldl (fun s m => ackMsg s q m) s

/-- The distance of a PSN from the oldest unacknowledged one, when it lies among those sent. -/
def sentAt (x : Qp) (psn : Nat) : Option Nat :=
  match x.sendq with
  | [] => none
  | f :: _ => if psnFrom f.psn psn < psnFrom f.psn x.sndPsn then some (psnFrom f.psn psn) else none

/-- RX_ACK: everything up to its PSN is acknowledged. -/
def execRxAck (m : Pkt) (s : State) : Out := received s m fun s =>
  match sentAt (qp s m.qp) m.psn with
  | some d => retireMsgs s m.qp (ackedBefore (qp s m.qp) (d + 1))
  | none => s

-- Read answers (R128, R159)

/-- A reading of a version word has come: the first lets the data be read, the second is compared with it. -/
def versionRead (s : State) (c id second : Nat) (v : W64) : State :=
  if second = 0 then xfrPost tableSize (modCore s c fun x => modXfr x id fun r => { r with vers1 := some v }) c id
  else
    let s' := modCore s c fun x => modXfr x id fun r => { r with vers2 := some v }
    match findXfr (core s c) id, takeOfCore s c with
    | some r, some t =>
      if r.vers1 = some v ∨ t.final.isSome then s'
      else modTake s' t.stream t.seq fun t =>
        { t with final := some (0x0B, lcoreNo (core s c), xPeer r.desc.bytes, remoteAddr r.desc.bytes) }
    | _, _ => s'

/-- The answer of a whole read request is delivered. -/
def deliverRead (s : State) (c id row off : Nat) (d : List Byte) : State :=
  match findXfr (core s c) id with
  | none => s
  | some r =>
    if row = versRow then versionRead s c id off (BitVec.ofNat 64 (leNat d))
    else
      let b := r.desc.bytes
      let a := xDst b + row * xDpitch b + off
      match writeMem s a d with
      | (.done, s) => pieceDone s c { xfr := true, id := id, row := row, off := off, len := d.length, no := 0 }
      | (e, s) => accessFail s c e a

/-- The next answer packet of a read at the head of the queue: `want` bytes are still to come in all. -/
def takeAnswer (s : State) (q : Nat) (f : Msg) (d : List Byte) : State :=
  let x := qp s q
  let want := leNat (f.data.take 4)
  let got := x.rxData ++ d
  if got.length < want then
    if d.length = qpMtu x then setQp s q { x with rxData := got, tries := 0, pathsTried := 0 } else s
  else if got.length ≠ want then s
  else
    let s := drainQp (setQp s q { x with sendq := x.sendq.drop 1, rxData := [], tries := 0, pathsTried := 0 }) q
    match f.kind with
    | .readReq c id row off => deliverRead s c id row off got
    | _ => s

/-- RX_READ_RESPONSE: it acknowledges what was sent before its request; one that is not the next expected is discarded. -/
def execRxReadResponse (m : Pkt) (data : List Byte) (s : State) : Out := received s m fun s =>
  match sentAt (qp s m.qp) m.psn with
  | none => s
  | some d =>
    let s := retireMsgs s m.qp (ackedBefore (qp s m.qp) d)
    let x := qp s m.qp
    match x.sendq with
    | [] => s
    | f :: _ => if isRead f ∧ m.psn = (f.psn + x.rxData.length / qpMtu x) % 2 ^ 24 then takeAnswer s m.qp f data else s

-- NAKs and timeouts (R351, R357, R358)

/-- The place of the message that a NAK at a PSN meets; an OPEN belongs to the transfer whose data follow it (log 70). -/
def nakMet (x : Qp) (psn : Nat) : Nat :=
  match x.sendq with
  | [] => 0
  | f :: _ =>
    let k := (x.sendq.findIdx? fun m => !endsBy x f.psn (psnFrom f.psn psn) m).getD 0
    match (x.sendq[k]?).map (·.kind) with
    | some (MsgKind.control _ _ _ 1) => k + 1
    | _ => k

/-- RX_NAK: 0 Sequence Error goes back to its PSN; 1 Invalid Request and 2 Remote Access Error put the queue pair into Error, and the
operation that met it ends with KEY_DENIED. -/
def execRxNak (m : Pkt) (kind : Nat) (s : State) : Out := received s m fun s =>
  match sentAt (qp s m.qp) m.psn with
  | none => s
  | some d =>
    let s := retireMsgs s m.qp (ackedBefore (qp s m.qp) d)
    match kind with
    | 0 => goBack s m.qp
    | 1 | 2 => errorQp s m.qp (some (nakMet (qp s m.qp) m.psn))
    | _ => s

/-- RETRY of a queue pair. -/
def qpRetry (x : Qp) : Nat := qpField x 21 1 1 7

/-- The local ACK timer of a queue pair runs out: it sends again, moves to the other port, or enters Error. -/
def ackTimedOut (s : State) (q : Nat) : State :=
  let x := qp s q
  if x.tries < qpRetry x then goBack (setQp s q { x with tries := x.tries + 1 }) q
  else if x.other < 20 ∧ (port s x.other).state = .up ∧ x.pathsTried = 0 then
    let s := dueReinits (moveQp s q)
    setQp s q { qp s q with pathsTried := 1 }
  else errorQp s q none

/-- ACK_TIMEOUT. Timers stop during a freeze (R475). -/
def execAckTimeout (q : Nat) (s : State) : Out :=
  event (qpOk q) (fast s && qpLive s q && !(qp s q).sendq.isEmpty) s (ackTimedOut s q)

-- Congestion reaction (R366)

/-- A field of NET_CC0. -/
def cc0 (s : State) (hi lo : Nat) : Nat := wbits (cget s 0x400030) hi lo

/-- g. -/
def rateG (s : State) : Rat := 1 / (2 ^ cc0 s 7 4 : Nat)

/-- A field of NET_CC1, in units of 100 Mb/s. -/
def cc1 (s : State) (hi lo : Nat) : Rat := (wbits (cget s 0x400038) hi lo : Nat)

/-- Rate and target held between min_rate and the line rate of the active port. -/
def holdRate (s : State) (x : Qp) : Qp :=
  let clamp := fun (v : Rat) => min (max v (cc1 s 15 0)) (lineRate x.port)
  { x with rate := clamp x.rate, target := clamp x.target }

/-- The reaction to a CNP. -/
def cnpCut (s : State) (x : Qp) : Qp :=
  holdRate s { x with target := x.rate, rate := x.rate * (1 - x.alpha / 2), alpha := (1 - rateG s) * x.alpha + rateG s, stage := 0 }

/-- A step of the recovery; the target is held within its bounds before the rate moves towards it. -/
def rateStep (s : State) (x : Qp) : Qp :=
  let n := x.stage + 1
  let fast := cc0 s 3 0
  let t := if 2 * fast < n then x.target + cc1 s 31 16 else if fast < n then x.target + cc1 s 47 32 else x.target
  let y := holdRate s { x with stage := n, target := t }
  holdRate s { y with rate := (y.rate + y.target) / 2 }

/-- RATE_EN. -/
def rateOn (s : State) : Bool := (cget s netBase).getLsbD 3

/-- RX_CNP. -/
def execRxCnp (m : Pkt) (s : State) : Out := received s m fun s =>
  let s := bump s (netBase + 0x218) 1
  if rateOn s then setQp s m.qp (cnpCut s (qp s m.qp)) else s

/-- A timer of the reaction acts on a queue pair. -/
def rateEvent (q : Nat) (s : State) (f : Qp → Qp) : Out := event (qpOk q) (fast s && qpLive s q && rateOn s) s (setQp s q (f (qp s q)))

/-- ALPHA_TIMER. -/
def execAlphaTimer (q : Nat) (s : State) : Out := rateEvent q s fun x => { x with alpha := (1 - rateG s) * x.alpha }

/-- RATE_TIMER. -/
def execRateTimer (q : Nat) (s : State) : Out := rateEvent q s (rateStep s)

/-- RATE_BYTES_SENT. -/
def execRateBytesSent (q : Nat) (s : State) : Out := rateEvent q s (rateStep s)

-- Pauses (R367)

/-- RX_PFC_PAUSE: obeyed for the priority of RoCE traffic, ignored for others. -/
def execRxPfcPause (p prio : Nat) (s : State) : Out :=
  event (portOk p) (fast s && decide ((port s p).state = .up) && decide (prio = wbits (cget s netBase) 10 8)) s
    (setPort s p { port s p with paused := true })

/-- PFC_PAUSE_EXPIRY: what waited for the pause to end is sent. -/
def execPfcPauseExpiry (p : Nat) (s : State) : Out :=
  event (portOk p) (fast s) s
    ((knownQps s).foldl (fun s q => if (qp s q).port = p then drainQp s q else s) (setPort s p { port s p with paused := false }))

-- What a queue pair's packets say on the wire (R350, R351, R355, R366, R367)

/-- The headers of a packet that a queue pair sends: MAC addresses, 802.1Q tag (PCP and VLAN ID), IP addresses, DSCP and ECN, UDP ports
and remote QPN. -/
structure Wire where
  srcMac : List Byte
  dstMac : List Byte
  tag : Option (Nat × Nat)
  src : List Byte
  dst : List Byte
  dscp : Nat
  ecn : Nat
  udpSrc : Nat
  udpDst : Nat
  qpn : Nat
deriving DecidableEq, Repr

/-- MAC address of a port: the module's base MAC address plus the port's number (R350). -/
def portMac (s : State) (p : Nat) : List Byte := (leBytes 6 (leNat (slice (identInForce s) 24 6).reverse + p)).reverse

/-- The headers of every packet that a queue pair sends now. ECN 2 is ECT(0). The next hop is MAC_P on PRIMARY and MAC_A on ALTERNATE. -/
def wireOf (s : State) (q : Nat) : Wire :=
  let x := qp s q
  let b := x.conf
  let vlan := fld b 28 2
  { srcMac := portMac s x.port, dstMac := slice b (if x.port = fld b 2 1 then 48 else 54) 6,
    tag := if bit vlan 15 then some (wbits (cget s netBase) 10 8, vlan % 4096) else none,
    src := portIp s x.port, dst := slice b 32 16, dscp := bits (fld b 27 1) 7 2,
    ecn := if (cget s netBase).getLsbD 1 then 2 else 0, udpSrc := 0xC000 + q % 0x4000, udpDst := 4791, qpn := fld b 8 4 % 2 ^ 24 }

end Sys2Proof.Machine
end

