-- ==== Sys2Proof/Machine/Votes.lean ====
section
/-! DEFINITION. The messages of a step as they are acted on (R388, R390 to R394): the close timer, REPORT, VERDICT, SIGNS, and the verdict
timeout. -/
namespace Sys2Proof.Machine

open Sys2Proof

/-- STEP_CLOSE_TIMER (R388): CLOSE_US has passed since the owner's own take of its open step ended; its own contribution counts. -/
def execStepCloseTimer (run : Nat) (s : State) : Out :=
  match s.cen.runs[run]? with
  | none => .next s
  | some r => match s.cen.steps.find? fun x => x.run = r.id ∧ x.isOpen ∧ x.self ∈ x.counted ∧ x.closeUs ≠ 0 with
    | none => .next s
    | some x => when_ (ready s) s (closeStep s r x)

-- Messages in hand

/-- Remove a message in hand. -/
def dropMsg (s : State) (k : Nat) : State := modCen s fun x => { x with inbox := x.inbox.eraseIdx k }

/-- A message of the collective engine that is none, or names no adopted run, is discarded and counted (R381). -/
def brokenMsg (s : State) (m : InMsg) : Bool :=
  let h := m.window.take 64
  !crcOk h 60 || !within 2 4 (hType h) || (runById s (hRun h)).isNone

/-- A message of a TYPE in hand is acted on with its run and the state of its step; a broken one is discarded; one of another TYPE is
left. One whose step has not opened here waits for it, unless `early` takes it. -/
def onMsg (s : State) (k type : Nat) (early : State → Run → List Byte → State) (f : State → Run → StepSt → InMsg → State) : Out :=
  match s.cen.inbox[k]? with
  | none => .next s
  | some m =>
    let h := m.window.take 64
    if ¬ ready s then .next s
    else if brokenMsg s m then .next (cenRepeat (dropMsg s k))
    else if hType h ≠ type then .next s
    else match runById s (hRun h) with
      | none => .next s
      | some r => match stepSt s (hRun h) (hStep h) with
        | none => .next (early s r h)
        | some x =>
          if ¬ x.isOpen ∧ ¬ x.closed then .next (early s r h)
          else if hEpoch h ≠ x.epoch then .next (cenRepeat (dropMsg s k))
          else .next (f (dropMsg s k) r x m)

/-- Send the verdict to every member (R391). -/
def sendVerdict (s : State) (r : Run) (x : StepSt) : State :=
  let flag := x.reports.any (·.2)
  let v := if flag then 2 else 1
  let s := modStep s x.run x.step fun y => { y with sentVerdict := true }
  x.devs.foldl (fun s d => sendStep s r x 0x80000002 d (tallyHeader 3 0 x.run x.epoch x.step x.self v (b2n flag))) s

/-- A REPORT at the verdict holder: with one from every member in hand, the verdict goes out. -/
def holdReport (s : State) (r : Run) (x : StepSt) (m : InMsg) : State :=
  if x.self ≠ x.holder ∨ m.sender ∉ x.devs then cenRepeat s
  else if x.reports.any (fun e => e.1 = m.sender) then s
  else
    let y := { x with reports := x.reports ++ [(m.sender, bit (fld m.window 24 8) 0)] }
    let s := modStep s x.run x.step fun _ => y
    if x.devs.all fun d => y.reports.any fun e => e.1 = d then sendVerdict s r y else s

/-- REPORT (R390, R391). -/
def execReport (k : Nat) (s : State) : Out := onMsg s k 2 (fun s _ _ => s) holdReport

/-- A notice of R390. -/
def noticeBytes (n : Notice) : List Byte := leBytes 4 n.dev ++ leBytes 4 (n.step % 2 ^ 32) ++ [8] ++ zeros 7

/-- The notices of a member that its next SIGNS message carries: the oldest sixty. -/
def noticesFor (s : State) (r : Run) (d : Nat) : List Notice := (s.cen.notices.filter fun n => n.run = r.id ∧ n.dev = d).take 60

/-- Send SIGNS to one member: its notices, which are pending no longer, and the resolved signs when the verdict is UPDATE. To a member
whose queue pair is dead nothing goes, and its notices stay pending. -/
def sendSigns (s : State) (r : Run) (x : StepSt) (d : Nat) : State :=
  if d ≠ x.self ∧ ¬ qpLive s (x.entryOf d) then s
  else
    let ns := noticesFor s r d
    let s := ns.foldl (fun s n => modCen s fun y => { y with notices := delFirst (fun e => e = n) y.notices }) s
    let head := tallyHeader 4 0 x.run x.epoch x.step x.self ns.length 0 ++ ns.flatMap noticeBytes
    sendStep s r x 0x80000003 d (if x.verdict = 1 then slice head 0 1024 ++ x.signs else head)

/-- A SKIP verdict held is counted. -/
def countSkip (s : State) (v : Nat) : State := if v = 2 then bump s (cenBase + 0x230) 1 else s

/-- A member holds the verdict; an owner that has closed its shards sends its SIGNS to every member. -/
def holdVerdict (s : State) (r : Run) (x : StepSt) (m : InMsg) : State :=
  let v := fld m.window 24 8
  if m.sender ≠ x.holder ∨ ¬ within 1 2 v then cenRepeat s
  else if x.verdict ≠ 0 then s
  else
    let owes := decide (x.self ∈ ownersOf r x) && x.closed && !x.sentSigns
    let y := { x with verdict := v, sentSigns := x.sentSigns || owes }
    let s := modStep (countSkip s v) x.run x.step fun _ => y
    if owes then x.devs.foldl (fun s d => sendSigns s r y d) s else s

/-- A verdict for a step that no take here has opened is held all the same (R378, R394). -/
def earlyVerdict (k : Nat) (s : State) (r : Run) (h : List Byte) : State :=
  let v := fld h 24 8
  let s := dropMsg s k
  if ¬ within 1 2 v then cenRepeat s
  else match stepSt s r.id (hStep h) with
    | some x => if x.verdict ≠ 0 then s else modStep (countSkip s v) r.id (hStep h) fun y => { y with verdict := v }
    | none => modCen (countSkip s v) fun y => { y with steps := y.steps ++ [{ run := r.id, step := hStep h, epoch := hEpoch h, verdict := v }] }

/-- VERDICT (R390, R391). -/
def execVerdict (k : Nat) (s : State) : Out := onMsg s k 3 (earlyVerdict k) holdVerdict

/-- Write an owner's signs into the step's generation of the sign ring (R392). -/
def writeSigns (s : State) (r : Run) (x : StepSt) (owner : Nat) (codes : List Byte) : State :=
  (localMap s r (ownedBy r x owner)).1.foldl (fun s e =>
    ownWrite s (r.ring + x.gen * r.sgen + ringOffset s r e.1) (slice codes (e.2.1 / 4) (1024 * blocksOf s r e.1))) s

/-- Record the late notices of a SIGNS message; the last one stands in CEN_LATE (R389, R390). -/
def recordNotices (s : State) (m : InMsg) : State :=
  (List.range (min 60 (fld m.window 24 8))).foldl (fun s i =>
    cset s (cenBase + 0x18) (pack [(fld m.window (64 + 16 * i + 4) 4, 32), (m.sender, 0)])) s

/-- A member receives an owner's SIGNS. -/
def holdSigns (s : State) (r : Run) (x : StepSt) (m : InMsg) : State :=
  if m.sender ∉ ownersOf r x then cenRepeat s
  else
    let s := recordNotices s m
    let s := if 1024 < m.window.length then writeSigns s r x m.sender (m.window.drop 1024) else s
    modStep s x.run x.step fun y => { y with signsFrom := if m.sender ∈ y.signsFrom then y.signsFrom else y.signsFrom ++ [m.sender] }

/-- SIGNS (R390, R392). -/
def execSigns (k : Nat) (s : State) : Out := onMsg s k 4 (fun s _ _ => s) holdSigns

-- The timeout (R394)

/-- The party that a STEP waits for: the verdict holder, a member whose REPORT is missing, or an owner whose SIGNS are. -/
def missingParty (r : Run) (x : StepSt) : Option Nat :=
  if x.verdict = 0 then
    if x.holder ≠ x.self then some x.holder else x.devs.find? fun d => !x.reports.any fun e => e.1 = d
  else if x.verdict = 1 then (ownersOf r x).find? fun d => d ∉ x.signsFrom
  else none

/-- DETAIL: the missing party's peer-table entry. The device itself has none: the value is free (log 61). -/
def partyDetail (s : State) (x : StepSt) (d : Nat) : Nat × State :=
  if d ≠ x.self then (x.entryOf d, s)
  else
    let n := takeFree s
    ((Config.freeValue n.1).toNat % 4096, n.2)

/-- VERDICT_TIMEOUT: VERDICT_MS has passed since the take ended, and the command still lacks its verdict or its SIGNS. -/
def execVerdictTimeout (st : Nat) (s : State) : Out :=
  onUnit (streamOk st) s <|
    match headEntry s st with
    | none => .next s
    | some e => match (takeOfCmd s st e.seq).filter (fun t => t.ended && !t.killed), stepRun s e with
      | some t, some r => match stepSt s r.id e.step with
        | none => .next s
        | some x => match missingParty r x with
          | none => .next s
          | some d =>
            let a := partyDetail s x d
            when_ (ready s) s (endFinal (modStep a.2 x.run x.step fun y => { y with timedOut := true }) t (0x0C, 0xFF, a.1, 0))
      | _, _ => .next s

end Sys2Proof.Machine
end

