-- ==== Sys2Proof/Machine/MemCtl.lean ====
section
/-! DEFINITION. The memory controllers: accesses with ECC (R173, R175 to R179), fill (R180), background work (R198 to R201), and
self-refresh (R426, R427). -/
namespace Sys2Proof.Machine

open Sys2Proof

-- Uncorrectable words (R176, R177)

/-- The pseudo-channel of an address: of a stack's 32 (R174), or the package's only channel. -/
def pseudoChannel (a : Nat) : Nat :=
  match decodeAddr a with
  | .hbm _ off => (off / 4096 % 32) ^^^ (off / 131072 % 32)
  | _ => 0

/-- One second in keeper cycles. -/
def secondKc : Nat := 25000000

/-- An uncorrectable word is found: poisoned and counted; sixteen in one pseudo-channel within a second fail the memory. `errBit` is the
bit of HBC_ERR or LPC_ERR that it sets. -/
def foundUncorr (s : State) (k a errBit : Nat) : State :=
  let w := a / 32 * 32
  let s := corr (bump { s with poison := if w ∈ s.poison then s.poison else w :: s.poison } (memBase k + 0x20) 1) (memBase k + 0x10)
    (BitVec.ofNat 64 errBit)
  let pc := pseudoChannel a
  let l := (pc, s.kc) :: (ctl s k).uncorr.filter fun e => s.kc ≤ e.2 + secondKc
  let s := setCtl s k { ctl s k with uncorr := l }
  if 16 ≤ (l.filter fun e => e.1 = pc).length then failMem s k else s

/-- A controller corrects a word. -/
def corrected (s : State) (k : Nat) : State := bump s (memBase k + 0x18) 1

/-- What the controller finds in the word that an access reads: 0 nothing, 1 a corrected bit, 2 an uncorrectable error, which is not
found anew in a word that is poisoned (R176). -/
def meetEcc (s : State) (k a ecc : Nat) : State :=
  match ecc with
  | 1 => corrected s k
  | 2 => if a / 32 * 32 ∈ s.poison then s else foundUncorr s k a 1
  | _ => s

/-- The command at the head of a stream ends for an access of its own that failed (R176, R319). -/
def streamAccessFail (s : State) (st : Nat) (r : Access) (a : Nat) : State :=
  let s := logLoss s r a
  match headEntry s st with
  | none => s
  | some e => match takeOfCmd s st e.seq with
    | none => s
    | some t => if t.killed then s else killAndEnd s st e.seq { status := accessCode r, detail := a % 2 ^ 48 }

/-- Whether a write of `n` bytes covers every 32 B word that it touches, so that no word is read for it (R171). -/
def wholeWords (a n : Nat) : Bool := decide (a % 32 = 0 ∧ n % 32 = 0)

/-- Whether an access meets the ECC of its word (R175, R176): it is performed, reads the word, and the word is not one that the fill has
still to write (R180). An access that ends without effect (R169, R177, R188) meets none; one that a poisoned word ends finds it as it is. -/
def meetsEcc (s : State) (write : Bool) (a n : Nat) : Bool :=
  !(write && wholeWords a n) && !unfilled s a &&
    (if write then decide (writeTest s a n = .done) else decide (readTest s a n = .done))

/-- CTRL_ACCESS (R173): an access within one granule by the command of a stream. A read, or a write of part of a word, meets the ECC of
the word at its address. An access to a reserved address ends the command (R169). -/
def execCtrlAccess (write : Bool) (a : Nat) (data : List Byte) (ecc st : Nat) (s : State) : Out :=
  let n := data.length
  onUnit (streamOk st) s <|
    if ¬ memRun s ∨ n = 0 ∨ a / 64 ≠ (a + n - 1) / 64 then .next s
    else match ctlOf a with
      | none => if rangeMapped s a n then .next s else .next (streamAccessFail s st .unmapped a)
      | some k =>
        let s := readyCtl s k
        let s := if meetsEcc s write a n then meetEcc s k a ecc else s
        match (if write then writeMem s a data else ((readMem s a n).1, s)) with
        | (.done, t) => .next t
        | (r, t) => .next (streamAccessFail t st r a)

-- Background work (R180, R198, R199)

/-- Whether a background activity runs at a memory: it is Ready and so not in self-refresh (R427). -/
def backgroundOk (s : State) (k : Nat) : Bool := memRun s && decide ((ctl s k).state = .ready)

/-- Whether an activity stole a cycle at its deferral bound is a matter of timing, which the model leaves open: the count of steals goes
up by a free bit (R201; log 3). -/
def maybeSteal (s : State) (k : Nat) : State :=
  let n := takeFree s
  bump n.2 (memBase k + 0x30) ((Config.freeValue n.1).toNat % 2)

/-- REFRESH. -/
def execRefresh (k : Nat) (s : State) : Out :=
  event (ctlOk k) (backgroundOk s k) s (maybeSteal (setCtl s k { ctl s k with refreshes := (ctl s k).refreshes + 1 }) k)

/-- SCRUB (R176, R199): a granule is read; a corrected word is written back, an uncorrectable one is poisoned and affects no command. -/
def execScrub (k a ecc : Nat) (s : State) : Out :=
  let t := bump (maybeSteal s k) (memBase k + 0x28) 1
  event (ctlOk k) (backgroundOk s k && decide (ctlOf a = some k) && (cget s (memBase k)).getLsbD 0) s <|
    match ecc with
    | 1 => corrected t k
    | 2 => if a / 32 * 32 ∈ s.poison then t else foundUncorr t k a 2
    | _ => t

/-- Regions of a package. -/
def pkgRegions : Nat := 2097152

/-- The fill goes on past regions that a write has had filled first. -/
def skipFilled (out : List Nat) : Nat → Nat → Nat
  | 0, n => n
  | f + 1, n => if n ∈ out then skipFilled out f (n + 1) else n

/-- LPC_FILL (R180): the next region of a package is filled with zeros, which ends the poison of its words; unlisted memory reads as zero
already. -/
def execLpcFill (k : Nat) (s : State) : Out :=
  let m := ctl s (16 + k)
  let n := skipFilled m.filledOut m.filledOut.length m.filled
  let done := skipFilled m.filledOut m.filledOut.length (n + 1)
  let out := m.filledOut.filter fun r => done ≤ r
  let x := { m with filled := min done pkgRegions, filledOut := out, filling := decide (done < pkgRegions) }
  let t := cleanRegion s ((ctlBase (16 + k)) / 0x10000 + n)
  event (pkgOk k) (backgroundOk s (16 + k) && m.filling) s (maybeSteal (setCtl t (16 + k) x) (16 + k))

/-- TELEMETRY_READ. -/
def execTelemetryRead (k temp : Nat) (s : State) : Out :=
  event (ctlOk k) (backgroundOk s k) s (maybeSteal (setCtl s k { ctl s k with temp := temp }) k)

-- Self-refresh (R426, R427)

/-- Whether a take that runs or is starting holds a controller: a buffer of its image, or a root or slice that it reads or has latched,
lies there (R424). -/
def heldByTake (s : State) (k : Nat) : Bool :=
  (s.intake.log.any fun e => e.unfinished && e.hasTake && e.head && decide (k ∈ needsCtls s e)) ||
    s.intake.takes.any fun t => decide (k ∈ bufCtls (slotOf s t.slot)) ||
      t.roots.any fun e => (rootRegions s e.2).any fun g => decide (ctlOf (g * 65536) = some k)

/-- The exceptions of a package: a logbook copy, its fill, an update pending. -/
def keepsAwake (s : State) (k : Nat) : Bool :=
  decide (16 ≤ k) && (decide (k - 16 = s.intake.copyA ∧ s.intake.copyAok = true) || decide (k - 16 = s.intake.copyB ∧ s.intake.copyBok = true) ||
    decide (s.intake.rebuild = some (k - 16)) || (ctl s k).filling || s.upu.updates.any fun u => decide (k ∈ u.units))

/-- SELF_REFRESH_ENTER. -/
def execSelfRefreshEnter (k : Nat) (s : State) : Out :=
  event (ctlOk k) (backgroundOk s k && fast s && (cget s 0x140000).getLsbD 1 && !heldByTake s k && !keepsAwake s k) s
    (setCtl s k { ctl s k with state := .selfRefresh, exiting := false })

/-- SELF_REFRESH_EXIT: the exit that a head moment has begun completes (R424, R427). An access makes its memory leave self-refresh in its own
step. -/
def execSelfRefreshExit (k : Nat) (s : State) : Out :=
  event (ctlOk k) (fast s && ((ctl s k).exiting || heldByTake s k)) s (readyCtl s k)

end Sys2Proof.Machine
end

