-- ==== Sys2Proof/Machine/Cal.lean ====
section
/-! DEFINITION. Calibration on live traffic (R405 to R413): steps and retraining of memory groups, lane probes, snapshots. -/
namespace Sys2Proof.Machine

open Sys2Proof

/-- A field of CAL_CFG. -/
def calCfg (s : State) (hi lo : Nat) : Nat := wbits (cget s 0x800000) hi lo

/-- FLOOR. -/
def calFloor (s : State) : Nat := calCfg s 23 16

/-- The channel of a group: a pseudo-channel of a stack, or a package's one (R405). -/
def groupChannel (k g : Nat) : Nat := if k < 16 then g / 5 else 0

/-- Whether some group of a memory retrains. -/
def retraining (s : State) (k : Nat) : Bool := s.cal.groups.any fun e => decide (e.1 / 512 = k) && e.2.retrain.isSome

/-- Whether some group of a group's channel retrains: each channel is an interface of its own (R405, R408). -/
def channelRetrains (s : State) (k g : Nat) : Bool :=
  s.cal.groups.any fun e => decide (e.1 / 512 = k ∧ groupChannel k (e.1 % 512) = groupChannel k g) && e.2.retrain.isSome

/-- Whether every eye of a group has been measured since its training. -/
def measured (s : State) (k g : Nat) : Bool :=
  let x := groupOf s k g
  (commandGroup k g || x.read.margin.isSome) && x.write.margin.isSome

/-- The margin of a memory's worst group, over what has been measured and, where an eye has not been, an open value (log 62). -/
def worstMargin (s : State) (k : Nat) : Nat × State :=
  let m := leastMargin s k
  if (List.range (groupCount k)).all (measured s k) then (m, s)
  else
    let n := takeFree s
    (min m ((Config.freeValue n.1).toNat % 64), n.2)

/-- Report an interface's margins in CAL_IF (R410). -/
def reportMargin (s : State) (k : Nat) : State :=
  let a := worstMargin s k
  cput (cput a.2 (calIfAddr k) 47 40 a.1) (calIfAddr k) 39 32 a.1

/-- A step or probe is counted in STEPS. -/
def countStep (s : State) (i : Nat) : State := cput s (calIfAddr i) 31 0 ((wbits (cget s (calIfAddr i)) 31 0 + 1) % 2 ^ 32)

/-- The tap that a step moves: one, toward a centre that lies RECENTRE taps or more away (R407). `centre` is a signed 6-bit offset. -/
def tapMove (s : State) (centre : Nat) : Int :=
  let c := signed 6 centre
  if calCfg s 15 8 ≤ c.natAbs then c.sign else 0

/-- An eye as measured, its setting moved. -/
def Eye.step (margin : Nat) (tap : Int) (x : Eye) : Eye := { setting := x.setting + tap, margin := some margin }

/-- A step's measurement and move on an eye of a group. -/
def moveGroup (s : State) (k g : Nat) (write : Bool) (margin : Nat) (tap : Int) : State :=
  let x := groupOf s k g
  let s := setGroup s k g (if write then { x with write := x.write.step margin tap } else { x with read := x.read.step margin tap })
  if tap = 0 then s else { s with cal := { s.cal with changed := true } }

/-- What a group's margin, the lesser of its eyes', does (R408): below FLOOR it enters Retraining; a retraining group at FLOOR again is done, and
after its 32nd step below FLOOR its memory fails. -/
def judgeGroup (s : State) (k g : Nat) : State :=
  let x := groupOf s k g
  let low := x.margins.any fun m => decide (m < calFloor s)
  match x.retrain with
  | none => if low then enterRetrain (setGroup s k g { x with retrain := some 0 }) k else s
  | some n =>
    if ¬ low then
      let s := setGroup s k g { x with retrain := none }
      if retraining s k then s else cput s (calIfAddr k) 63 62 1
    else if 31 ≤ n then failMem s k
    else setGroup s k g { x with retrain := some (n + 1) }

/-- A calibration step on an eye of a group that measured `margin`, with its centre at `centre` (R406 to R408). An uncorrectable read-back
while the interface retrains fails its memory. With TRACK_EN 0 and no retraining no step is taken, and a read margin is still measured, on
foreground reads. -/
def calStep (s : State) (k g : Nat) (write : Bool) (margin centre ecc : Nat) : State :=
  let train := channelRetrains s k g
  if train ∧ ecc = 2 then failMem (bump (countStep s k) 0x800010 1) k
  else if train ∨ calCfg s 0 0 = 1 then
    let s := maybeSteal (bump (countStep s k) 0x800010 1) k
    let s := judgeGroup (moveGroup s k g write margin (tapMove s centre)) k g
    if (ctl s k).state = .failed then s else reportMargin s k
  else if write then s
  else reportMargin (judgeGroup (moveGroup s k g false margin 0) k g) k

/-- CAL_STEP of an eye, numbered `2 group + 1` for the group's write eye and `2 group` for its read eye: while an interface retrains, steps are
taken on its retraining groups alone. A command/address group has its write eye alone. -/
def execCalStep (k y margin centre ecc : Nat) (s : State) : Out :=
  let g := y / 2
  let write := decide (y % 2 = 1)
  event (ctlOk k && decide (g < groupCount k) && (write || !commandGroup k g))
    (backgroundOk s k && (!channelRetrains s k g || (groupOf s k g).retrain.isSome)) s
    (calStep s k g write margin centre ecc)

/-- The port of a lane (R441). -/
def lanePort (l : Nat) : Nat := if l < 8 then l / 2 else 4 + (l - 8) / 8

/-- SERDES_PROBE (R409): the third low probe in a row makes the lane read Retraining, counted once. -/
def execSerdesProbe (l margin : Nat) (s : State) : Out :=
  let low := if margin < calFloor s then tget 0 s.cal.laneLow l + 1 else 0
  let i := 80 + l
  event (l < 136) (fast s && decide (calCfg s 1 1 = 1 ∧ (port s (lanePort l)).state = .up)) s <|
    let s := { s with cal := { s.cal with laneLow := tset 0 s.cal.laneLow l low } }
    let s := cput (cput (countStep s i) (calIfAddr i) 47 40 margin) (calIfAddr i) 39 32 margin
    let s := cput s (calIfAddr i) 63 62 (if 3 ≤ low then 2 else 1)
    if low = 3 then bump s 0x800018 1 else s

/-- The settings of every eye that are not 0, as a snapshot keeps them. -/
def eyeSettings (s : State) : List (Nat × Int) :=
  (s.cal.groups.flatMap fun e => [(2 * e.1, e.2.read.setting), (2 * e.1 + 1, e.2.write.setting)]).filter fun e => e.2 ≠ 0

/-- CAL_SNAPSHOT (R412): at least 60 s after the last, when a setting has changed; the areas alternate. -/
def execCalSnapshot (s : State) : Out :=
  let c := s.cal
  when_ (fast s && decide (calCfg s 2 2 = 1) && c.changed && decide (c.lastSnapKc + 60 * secondKc ≤ s.kc)) s <|
    let old := if c.snapFactory then { c.snapshot with identity := moduleIdentity s } else c.snapshot
    let snap : Snap := { valid := true, identity := moduleIdentity s, settings := eyeSettings s }
    bump { s with cal := { c with changed := false, lastSnapKc := s.kc, snapshot := snap, snapFactory := false, snapOld := old,
                                   snapArea := 1 - c.snapArea } } 0x800020 1

end Sys2Proof.Machine
end

