-- ==== Sys2Proof/Machine/Obs.lean ====
section
/-! DEFINITION. Observability (R509 to R515): sampling points, records and rings. -/
namespace Sys2Proof.Machine

open Sys2Proof

/-- The fill of a queue inside a router or controller, which depends on timing and so is open, up to its depth (log 3). -/
def queuePoint (s : State) (d id depth : Nat) : Nat := (Config.timedCount (2 ^ 32 + 65536 * d + id) s.free).toNat % (depth + 1)

/-- A counter as a point's value: what its register reads (R508). -/
def counterPoint (s : State) (a : Nat) : Nat :=
  match csrRead s a with
  | some v => v.toNat % 2 ^ 48
  | none => 0

/-- Issue queue depth of an ENG code, summed over MUs or STUs (R221). -/
def engDepth (x : Core) (e : Nat) : Nat :=
  let sum := fun (l : List Nat) => (l.map fun q => (queueOf x q).length).sum
  match e with
  | 3 => sum [8, 9, 10, 11]
  | 6 => sum [16, 17, 18, 19]
  | e => sum [e]

/-- Address of event counter i of a core (R509): MXE, VCE (whose BEATS, the lowest in address, comes last), RED, CSQ, then the MUs. -/
def coreEvent (c i : Nat) : Nat :=
  if i < 4 then mxeBase c + 0x18 + 8 * i
  else if i < 8 then vceBase c + 0x18 + 8 * ((i - 3) % 4)
  else if i < 10 then redBase c + 0x10 + 8 * (i - 8)
  else if i = 10 then csqBase c + 0x48
  else muBase c ((i - 11) / 5) + 0x28 + 8 * ((i - 11) % 5)

/-- The value of a core's point by its offset. The queues of a core that is Off read as 0. The spec gives an output queue of a router no
depth: 48 bits bound it. -/
def corePoint (s : State) (c o : Nat) : Nat :=
  let x := core s c
  if o < 0x200 ∧ x.power = .off then 0
  else if o < 0x100 then let b := barOf x (o / 64) (o % 64); b.count + 65536 * b.waiters.length
  else if o < 0x114 then
    let u := tget {} x.stus ((o - 0x100) / 5)
    let j := (o - 0x100) % 5
    if j = 0 then u.cq.length else (tget [] u.dq (j - 1)).length
  else if o < 0x120 then queuePoint s (c / 26) (0x400 * (c % 26) + o) (2 ^ 48 - 1)
  else if o = 0x120 then x.reqs.length
  else if o < 0x200 then engDepth x (o - 0x128)
  else if o < 0x2A0 then counterPoint s (coreBase c + 0x60000 + 8 * (o - 0x200))
  else counterPoint s (coreEvent c (o - 0x2A0))

/-- The value of a C-die's own point. -/
def diePoint (s : State) (d id : Nat) : Nat :=
  if within 0x7000 0x7001 id then queuePoint s d id 1024
  else if within 0x7010 0x7017 id then counterPoint s (memBase (2 * d + (id - 0x7010) / 4) + 0x18 + 8 * ((id - 0x7010) % 4))
  else if within 0x7020 0x705F id then (wkcOf s (64 * d + (id - 0x7020))).value
  else if id = 0x7060 then counterPoint s (dieBase d + 0x20200)
  else counterPoint s (dieBase d + 0x60000 + 8 * (id - 0x7080))

/-- The value of a hub's point. -/
def hubPoint (s : State) (h id : Nat) : Nat :=
  if within 0x8000 0x801F id then queuePoint s (8 + h) id 512
  else if within 0x8040 0x80BF id then counterPoint s (memBase (16 + 32 * h + (id - 0x8040) / 4) + 0x18 + 8 * ((id - 0x8040) % 4))
  else if within 0x8100 0x81FF id then (wkcOf s (512 + 256 * h + (id - 0x8100))).value
  else if id = 0x8200 then counterPoint s (hubBase h + 0x800800)
  else if within 0x8210 0x8216 id then counterPoint s (0x420200 + 8 * (id - 0x8210))
  else if within 0x8220 0x8226 id then counterPoint s (0x400200 + 8 * (id - 0x8220))
  else if id = 0x8230 then (regView s 0x208008 .lgbLive).toNat
  else if id = 0x8231 then (regView s 0x208010 .lgbStoreFree).toNat
  else if within 0x8240 0x82BF id then (liveOf s (128 * h + (id - 0x8240))).length
  else if within 0x9000 0xA0FF id then
    let x := qp s (id - 0x9000)
    if x.state ≠ .reset ∧ portHub x.port = h then x.sendq.length else 0
  else counterPoint s (hubBase h + 0xA00000 + 8 * (id - 0xB000))

/-- The value of a point (R509). -/
def pointValue (s : State) (d id : Nat) : Nat :=
  if d < 8 then (if id < 26 * 0x400 then corePoint s (26 * d + id / 0x400) (id % 0x400) else diePoint s d id)
  else hubPoint s (d - 8) id

-- Rings (R511 to R513, R515)

/-- Address of OBS_HEAD. -/
def obsHeadReg (d : Nat) : Nat := 0xB000200 + 8 * d
/-- Address of OBS_LOST. -/
def obsLostReg (d : Nat) : Nat := 0xB000300 + 8 * d

/-- Write one record of a die: `kind`, `count`, `part` and what follows from offset 16. -/
def putRecord (s : State) (d kind count part kc : Nat) (rest : List Byte) : State :=
  let w := cget s (obsRingReg d)
  let seq := wbits (cget s (obsHeadReg d)) 31 0
  let pos := tget 0 s.obs.pos d
  let b := leBytes 1 kind ++ leBytes 1 d ++ leBytes 1 count ++ leBytes 1 part ++ leBytes 4 seq ++ leBytes 8 kc ++ slice rest 0 48
  let s := ownWrite s (areaBase w + 64 * pos) b
  let s := cput s (obsHeadReg d) 31 0 (if seq + 1 = 2 ^ 32 then 1 else seq + 1)
  { s with obs := { s.obs with pos := tset 0 s.obs.pos d ((pos + 1) % (areaLen w / 64)) } }

/-- A record of a die's ring, after a LOST record when samples were dropped before it. -/
def addRecord (s : State) (d kind count part kc : Nat) (rest : List Byte) : State :=
  let lost := tget 0 s.obs.pendLost d
  let s := if lost = 0 then s else
    putRecord { s with obs := { s.obs with pendLost := tset 0 s.obs.pendLost d 0 } } d 3 1 0 kc (leBytes 2 0xFFFF ++ leBytes 6 lost)
  putRecord s d kind count part kc rest

/-- A sample or record is dropped and counted. -/
def dropSample (s : State) (d : Nat) : State :=
  bump { s with obs := { s.obs with pendLost := tset 0 s.obs.pendLost d (tget 0 s.obs.pendLost d + 1) } } (obsLostReg d) 1

/-- Records that a die's staging buffer still holds (R513): memory has served some of those it held, how many is timing and so free (log 3). -/
def stagedNow (s : State) (d : Nat) : Nat × State :=
  let f := takeFree s
  ((Config.freeValue f.1).toNat % (tget 0 s.obs.staged d + 1), f.2)

/-- The records of a sample or reading, each with its kind, COUNT, PART and entries, enter the staging buffer of 16 whole, behind a LOST
record when samples were dropped before; else all are dropped (R513). -/
def stageRecords (s : State) (d : Nat) (recs : List (Nat × Nat × Nat × List Byte)) : State :=
  let q := stagedNow s d
  let n := q.1 + recs.length + b2n (decide (tget 0 s.obs.pendLost d ≠ 0))
  let s := q.2
  if 16 < n then dropSample { s with obs := { s.obs with staged := tset 0 s.obs.staged d q.1 } } d
  else recs.foldl (fun s r => addRecord s d r.1 r.2.1 r.2.2.1 s.kc r.2.2.2) { s with obs := { s.obs with staged := tset 0 s.obs.staged d n } }

/-- Whether a die's ring lies in a failed stack or package. -/
def ringLost (s : State) (d : Nat) : Bool :=
  let w := cget s (obsRingReg d)
  (ringRegions w).any fun g => inFailed s (g * 65536) 1

/-- The enabled points of a die, in OBS_PT order. -/
def points (s : State) (d : Nat) : List Nat :=
  (List.range 64).filterMap fun i =>
    let w := cget s (0xB001000 + 512 * d + 8 * i)
    if w.getLsbD 16 then some (wbits w 15 0) else none

/-- Values of points, all taken in one cycle. -/
def sampleAll (s : State) (d : Nat) (ps : List Nat) : List (List Byte) :=
  ps.map fun p => leBytes 2 p ++ leBytes 6 (pointValue s d p)

/-- Entries six to a record, with their parts. -/
def inSixes (l : List (List Byte)) : List (Nat × List (List Byte)) :=
  (List.range (cdiv l.length 6)).map fun i => (i, (l.drop (6 * i)).take 6)

/-- A sample of a die. -/
def sample (s : State) (d : Nat) : State :=
  let ps := points s d
  if ps = [] ∨ areaLen (cget s (obsRingReg d)) = 0 then s
  else if ringLost s d then dropSample s d
  else
    stageRecords (takeFree s).2 d ((inSixes (sampleAll s d ps)).map fun e => (1, e.2.length, e.1, e.2.flatten))

/-- OBS_SAMPLE (R510). -/
def execObsSample (d : Nat) (s : State) : Out :=
  event (dieOk d) (fast s && (cget s (obsCfgReg d)).getLsbD 0) s (sample s d)

end Sys2Proof.Machine
end

