-- ==== Sys2Proof/Machine/Power.lean ====
section
/-! DEFINITION. The power manager (R422 to R432), the supply (R437, R447), and SMBus (R444 to R447). -/
namespace Sys2Proof.Machine

open Sys2Proof

-- Core power states (R422, R423)

/-- CORE_NAP: a placed core that has idled for NAP_US begins Nap entry; one whose take is starting or runs is in Run. -/
def execCoreNap (c : Nat) (s : State) : Out :=
  let x := core s c
  event (coreOk c) (fast s && decide (x.power = .idle) && x.place.isSome && !x.waking && !x.napping && (cget s 0x140000).getLsbD 0) s
    (setCore s c { x with napping := true })

/-- NAP_ENTRY_DONE: the entry completes; a wake that came during it then goes on. -/
def execNapEntryDone (c : Nat) (s : State) : Out :=
  let x := core s c
  event (coreOk c) (fast s && x.napping) s (setCore s c { x with napping := false, power := .nap })

/-- CORE_WAKE: a wake from Nap or Off completes and is counted; a core from Off has its SRAM cleared (R125). It is then in Run, for the take that
is starting, or Idle where none is any more (R422, R423). -/
def execCoreWake (c : Nat) (s : State) : Out :=
  let x := core s c
  let t := if x.power = .off then clearSram s c else s
  let p : PowerState := if x.place.any fun p => slotWanted s p.slot then .run else .idle
  event (coreOk c) (fast s && x.waking && !x.napping && !x.fenced) s
    (bump (setCore t c { x with waking := false, power := p }) 0x140030 1)

-- Readings (R429, R430)

/-- Replace what the power manager keeps. -/
def modPwr (s : State) (f : Pwr → Pwr) : State := { s with pwr := f s.pwr }

/-- Classes in the order of raises: 0 fill, 1 plain, 2 deadline. -/
def raiseClass (s : State) (d : Nat) : Option Nat := [0, 1, 2].find? fun k => levelOf s d k < 15

/-- Raise one level of a die by 1, and count it. -/
def raiseDie (s : State) (d : Nat) : State :=
  match raiseClass s d with
  | some k => bump (modPwr s fun p => { p with levels := tset 0 p.levels (3 * d + k) (levelOf s d k + 1) }) 0x140028 1
  | none => s

/-- Lower one level of a die by 1, in the opposite order. -/
def lowerDie (s : State) (d : Nat) : State :=
  match [2, 1, 0].find? fun k => 0 < levelOf s d k with
  | some k => modPwr s fun p => { p with levels := tset 0 p.levels (3 * d + k) (levelOf s d k - 1) }
  | none => s

/-- The cap in W. -/
def capWatts (s : State) : Nat := wbits (cget s 0x140008) 15 0

/-- The hysteresis in W. -/
def hystWatts (s : State) : Nat := 10 * wbits (cget s 0x140000) 23 16

/-- Whether every class of every die is at level 15. -/
def allFull (s : State) : Bool := dies.all fun d => (raiseClass s d).isNone

/-- Set or clear PWR_STATUS.UNMET, with its alert as it becomes 1 (R430, R447). -/
def setUnmet (s : State) (on : Bool) : State :=
  let was := (cget s 0x140010).getLsbD 6
  let s := cput s 0x140010 6 6 (b2n on)
  if on ∧ ¬ was then alert s 2 else s

/-- What the readings do to the levels (R430). -/
def capLevels (s : State) (watts : Nat) : State :=
  let full := allFull s && decide (capWatts s < watts)
  let s := if capWatts s < watts then dies.foldl raiseDie s else s
  let s := (dies.filter fun d => tjLim s ≤ dieTemp s d).foldl raiseDie s
  let calm := decide (watts + hystWatts s < capWatts s) && dies.all fun d => decide (dieTemp s d + 5 < tjLim s)
  let n := if calm then s.pwr.under + 1 else 0
  let m := if full then s.pwr.unmet + 1 else 0
  let s := modPwr s fun p => { p with under := min n 10, unmet := min m 10 }
  let s := if 10 ≤ n then dies.foldl lowerDie s else s
  if 10 ≤ m then setUnmet s true else if watts < capWatts s then setUnmet s false else s

/-- The supply's readings: DRL_SUPPLY, the bank (R325, R437) and the SUPPLY alert (R447). -/
def supplyReading (s : State) (input bank : Nat) : State :=
  let ok := decide (input ≤ bank + 10 ∧ bank ≤ input + 10)
  let s := cput (cput (cput s 0x100020 15 0 input) 0x100020 31 16 bank) 0x100020 32 32 (b2n ok)
  let s := modDrl s fun d => { d with bankOk := ok }
  let s := if s.drl.phase = .logbook ∨ s.drl.phase = .ready ∨ s.drl.phase = .warm then rearm s else s
  let out := decide (input < 480 ∨ 600 < input) && s.drl.pwrFailN
  let n := if out then s.pwr.outOfRange + 1 else 0
  let s := modPwr s fun p => { p with outOfRange := min n 10 }
  if n = 10 then alert s 6 else s

/-- A POWER record (R512). -/
def powerRecord (s : State) (watts input bank : Nat) : List Byte :=
  leBytes 2 watts ++ leBytes 2 input ++ leBytes 2 bank ++ leBytes 1 (wbits (regView s 0x140010 .pwrStatus) 7 0) ++ zeros 1 ++
    dies.flatMap (fun d => leBytes 1 (dieTemp s d)) ++ zeros 2 ++
    dies.flatMap fun d => leBytes 2 (wbits (regView s (0x140100 + 8 * d) (.pwrDie d)) 11 0)

/-- Add a POWER record to H-die 0's ring (R514). -/
def addPower (s : State) (b : List Byte) : State :=
  if ¬ fast s ∨ ¬ (cget s (obsCfgReg 8)).getLsbD 1 ∨ areaLen (cget s (obsRingReg 8)) = 0 then s
  else if ringLost s 8 then dropSample s 8
  else stageRecords s 8 [(2, 0, 0, b)]

/-- Put the temperatures of the dies into PWR_DIE. -/
def putTemps (s : State) (temps : List Nat) : State :=
  temps.zipIdx.foldl (fun s e => cput s (0x140100 + 8 * e.2) 23 16 e.1) s

/-- POWER_READING (R430): every 250 kc, which is how PWR_KC advances in the model (log 3); power, temperatures and supply are read. -/
def execPowerReading (watts : Nat) (temps : List Nat) (input bank : Nat) (s : State) : Out :=
  onUnit (decide (temps.length = 10)) s <| when_ s.drl.rails s <|
    let s := { s with kc := (s.kc + 250) % 2 ^ 64 }
    let was := hot s
    let s := putTemps (cput s 0x140020 15 0 watts) temps
    let s := noteHot was s
    let s := supplyReading (capLevels s watts) input bank
    addPower s (powerRecord s watts input bank)

-- SMBus (R444 to R447)

/-- Whether the keeper rail is powered, and SMBus answers. -/
def keeperUp (s : State) : Bool := s.drl.rails || decide (s.drl.phase ≠ .rom)

/-- SET_PTR: an aligned CSR offset whose bits 31:28 are zero. -/
def execSetPtr (v : W32) (s : State) : Out :=
  when_ (keeperUp s && decide (v.toNat % 8 = 0 ∧ v.toNat < 2 ^ 28)) s (modDrl s fun d => { d with smbPtr := v.toNat })

/-- Whether READ answers at an offset: the permitted ranges, CAL and OBS only while the fast clocks run, which in a warm reset they do once its
logic has left reset (R453). -/
def smbAllowed (s : State) (p : Nat) : Bool :=
  decide (p < 0x200000) || ((within 0x800000 0xFFFFFF p || within 0xB000000 0xBFFFFFF p) && memRun s)

/-- One byte of a CRC-8 with polynomial x^8 + x^2 + x + 1, bit by bit. -/
def crc8Byte : Nat → Nat → Nat
  | 0, c => c
  | n + 1, c => crc8Byte n (if bit c 7 then (2 * c % 256) ^^^ 0x07 else 2 * c)

/-- The packet error code of SMBus over the bytes of a transaction: PRESUMED, from the SMBus specification that R444 names (log 2). -/
def pec (b : List Byte) : Nat := b.foldl (fun c x => crc8Byte 8 (c ^^^ x.toNat)) 0

/-- The bytes of a Block Read that its packet error code covers: target address 0x58 with write, the command, the address with read, the count
and the data. -/
def blockRead (command : Byte) (data : List Byte) : List Byte :=
  [0xB0, command, 0xB1, BitVec.ofNat 8 data.length] ++ data

/-- READ: the register at the pointer, which then advances; else a block count of 0. The packet error code is appended (R444). -/
def execSmbRead (s : State) : Out :=
  let p := s.drl.smbPtr
  when_ (keeperUp s) s <|
    match (if smbAllowed s p then csrRead s p else none) with
    | some v =>
      let out := leBytes 8 v.toNat
      modDrl s fun d => { d with smbOut := out, smbPec := pec (blockRead 0x02 out), smbPtr := (p + 8) % 2 ^ 28 }
    | none => modDrl s fun d => { d with smbOut := [], smbPec := pec (blockRead 0x02 []) }

/-- CLR_ALERT: written to DRL_ALERT, each 1 bit of which clears. A write whose packet error code does not hold is no command (R444). -/
def execClrAlert (v : W64) (s : State) : Out := when_ (keeperUp s) s (csrStore s 0x100010 v)

/-- ALERT_N is low while an enabled alert is pending. -/
def alertLow (s : State) : Bool := decide (cget s 0x100010 &&& cget s 0x100018 ≠ 0)

/-- ALERT_RESPONSE: 0x58 while ALERT_N is low, no answer otherwise. -/
def execAlertResponse (s : State) : Out :=
  when_ (keeperUp s) s (modDrl s fun d => { d with smbOut := if alertLow s then [0x58] else [] })

/-- SMBUS_CLOCK_LOW_TIMEOUT: the transaction in progress is abandoned. A transaction is one command here and so has no progress to
lose: nothing has been set or answered by it (log 2). -/
def execSmbusClockLowTimeout (s : State) : Out := .next s

end Sys2Proof.Machine
end

