-- ==== Sys2Proof/Machine/Dispatch.lean ====
section
/-! DEFINITION. The meaning of each command: one arm for each row of the table. -/
namespace Sys2Proof.Machine

open Sys2Proof

/-- What a command does to everything but the queue. -/
def exec (i : Instr) (s : State) : Host.Outcome State Fault Refusal :=
  match i with
  | .alu q fn rd ra rb => Sys2Proof.Machine.execAlu q fn rd ra rb s
  | .addi q rd ra imm => Sys2Proof.Machine.execAddi q rd ra imm s
  | .andi q rd ra imm => Sys2Proof.Machine.execAndi q rd ra imm s
  | .ori q rd ra imm => Sys2Proof.Machine.execOri q rd ra imm s
  | .xori q rd ra imm => Sys2Proof.Machine.execXori q rd ra imm s
  | .slli q rd ra imm => Sys2Proof.Machine.execSlli q rd ra imm s
  | .srli q rd ra imm => Sys2Proof.Machine.execSrli q rd ra imm s
  | .srai q rd ra imm => Sys2Proof.Machine.execSrai q rd ra imm s
  | .cmp q fn pd ra rb => Sys2Proof.Machine.execCmp q fn pd ra rb s
  | .cmpi q cond pd ra imm => Sys2Proof.Machine.execCmpi q cond pd ra imm s
  | .plog q fn pd pa pb => Sys2Proof.Machine.execPlog q fn pd pa pb s
  | .br q off => Sys2Proof.Machine.execBr q off s
  | .call q off => Sys2Proof.Machine.execCall q off s
  | .ret q => Sys2Proof.Machine.execRet q s
  | .loop q rd ra body => Sys2Proof.Machine.execLoop q rd ra body s
  | .lbrk q => Sys2Proof.Machine.execLbrk q s
  | .issue q ra eng size off => Sys2Proof.Machine.execIssue q ra eng size off s
  | .arrive q ra mu ctr n rem => Sys2Proof.Machine.execArrive q ra mu ctr n rem s
  | .wait q mu ctr n => Sys2Proof.Machine.execWait q mu ctr n s
  | .ldw q rd ra imm => Sys2Proof.Machine.execLdw q rd ra imm s
  | .stw q rd ra imm => Sys2Proof.Machine.execStw q rd ra imm s
  | .rstart q z off => Sys2Proof.Machine.execRstart q z off s
  | .yieldReel q => Sys2Proof.Machine.execYieldReel q s
  | .rexit q => Sys2Proof.Machine.execRexit q s
  | .cut q k => Sys2Proof.Machine.execCut q k s
  | .cutRecorded stream => Sys2Proof.Machine.execCutRecorded stream s
  | .tend q => Sys2Proof.Machine.execTend q s
  | .fence q fn => Sys2Proof.Machine.execFence q fn s
  | .fenceRelease core reel => Sys2Proof.Machine.execFenceRelease core reel s
  | .trap q code => Sys2Proof.Machine.execTrap q code s
  | .nop q => Sys2Proof.Machine.execNop q s
  | .xalu q fn rd ra imm => Sys2Proof.Machine.execXalu q fn rd ra imm s
  | .fetch q rd ra rb dev num => Sys2Proof.Machine.execFetch q rd ra rb dev num s
  | .fetchAnswer core reel rd => Sys2Proof.Machine.execFetchAnswer core reel rd s
  | .counterResend core reel rd => Sys2Proof.Machine.execCounterResend core reel rd s
  | .tcmt q rd ra rb dev num => Sys2Proof.Machine.execTcmt q rd ra rb dev num s
  | .tcmtAnswer core reel rd => Sys2Proof.Machine.execTcmtAnswer core reel rd s
  | .tcmtCopyDone core reel rd => Sys2Proof.Machine.execTcmtCopyDone core reel rd s
  | .csrr q rd imm => Sys2Proof.Machine.execCsrr q rd imm s
  | .csrw q ra imm => Sys2Proof.Machine.execCsrw q ra imm s
  | .trapReport core => Sys2Proof.Machine.execTrapReport core s
  | .barrierArrival k => Sys2Proof.Machine.execBarrierArrival k s
  | .barrierWaitSatisfy core mu ctr => Sys2Proof.Machine.execBarrierWaitSatisfy core mu ctr s
  | .mxePassStart core => Sys2Proof.Machine.execMxePassStart core s
  | .mxeRangeFail core => Sys2Proof.Machine.execMxeRangeFail core s
  | .zpMiss core => Sys2Proof.Machine.execZpMiss core s
  | .mxePassEnd core => Sys2Proof.Machine.execMxePassEnd core s
  | .mxeDrainEnd core => Sys2Proof.Machine.execMxeDrainEnd core s
  | .descSkipRun core eng sub => Sys2Proof.Machine.execDescSkipRun core eng sub s
  | .vwalkStart core => Sys2Proof.Machine.execVwalkStart core s
  | .vceBeatIssue core => Sys2Proof.Machine.execVceBeatIssue core s
  | .vwalkEnd core => Sys2Proof.Machine.execVwalkEnd core s
  | .vprogApply core => Sys2Proof.Machine.execVprogApply core s
  | .vcache core => Sys2Proof.Machine.execVcache core s
  | .redReduce core => Sys2Proof.Machine.execRedReduce core s
  | .redResult core => Sys2Proof.Machine.execRedResult core s
  | .agProgram core mu => Sys2Proof.Machine.execAgProgram core mu s
  | .requestReturn core k => Sys2Proof.Machine.execRequestReturn core k s
  | .xfrStart core => Sys2Proof.Machine.execXfrStart core s
  | .xfrSeal core => Sys2Proof.Machine.execXfrSeal core s
  | .xfrComplete core k => Sys2Proof.Machine.execXfrComplete core k s
  | .versionReread core k => Sys2Proof.Machine.execVersionReread core k s
  | .mcastTileSend core => Sys2Proof.Machine.execMcastTileSend core s
  | .steerApply core stu => Sys2Proof.Machine.execSteerApply core stu s
  | .stuPair core stu => Sys2Proof.Machine.execStuPair core stu s
  | .stuDrainMarker core stu => Sys2Proof.Machine.execStuDrainMarker core stu s
  | .steerStall core stu => Sys2Proof.Machine.execSteerStall core stu s
  | .reelSwitch core unit => Sys2Proof.Machine.execReelSwitch core unit s
  | .reelGenSwitch core unit reel => Sys2Proof.Machine.execReelGenSwitch core unit reel s
  | .circuitWord slot circuit srcOff dstOff reel gen mark => Sys2Proof.Machine.execCircuitWord slot circuit srcOff dstOff reel gen mark s
  | .packetFlit k => Sys2Proof.Machine.execPacketFlit k s
  | .timetableSwitch => Sys2Proof.Machine.execTimetableSwitch s
  | .staleNotice core mu g => Sys2Proof.Machine.execStaleNotice core mu g s
  | .wkcFetchAdd core reel rd => Sys2Proof.Machine.execWkcFetchAdd core reel rd s
  | .ledgerCommit core reel rd => Sys2Proof.Machine.execLedgerCommit core reel rd s
  | .ctrlAccess write addr data ecc stream => Sys2Proof.Machine.execCtrlAccess write addr data ecc stream s
  | .logbookRebuildDone => Sys2Proof.Machine.execLogbookRebuildDone s
  | .refresh ctl => Sys2Proof.Machine.execRefresh ctl s
  | .scrub ctl addr ecc => Sys2Proof.Machine.execScrub ctl addr ecc s
  | .lpcFill pkg => Sys2Proof.Machine.execLpcFill pkg s
  | .telemetryRead ctl temp => Sys2Proof.Machine.execTelemetryRead ctl temp s
  | .calStep ctl eye margin centre ecc => Sys2Proof.Machine.execCalStep ctl eye margin centre ecc s
  | .serdesProbe lane margin => Sys2Proof.Machine.execSerdesProbe lane margin s
  | .calSnapshot => Sys2Proof.Machine.execCalSnapshot s
  | .selfRefreshEnter ctl => Sys2Proof.Machine.execSelfRefreshEnter ctl s
  | .selfRefreshExit ctl => Sys2Proof.Machine.execSelfRefreshExit ctl s
  | .coreNap core => Sys2Proof.Machine.execCoreNap core s
  | .coreWake core => Sys2Proof.Machine.execCoreWake core s
  | .powerReading watts temps inputDv bankDv => Sys2Proof.Machine.execPowerReading watts temps inputDv bankDv s
  | .commandRecord stream slot => Sys2Proof.Machine.execCommandRecord stream slot s
  | .waitingRecordAccept stream => Sys2Proof.Machine.execWaitingRecordAccept stream s
  | .run stream => Sys2Proof.Machine.execRun stream s
  | .stepCmd stream => Sys2Proof.Machine.execStepCmd stream s
  | .load stream => Sys2Proof.Machine.execLoad stream s
  | .loadRetry k => Sys2Proof.Machine.execLoadRetry k s
  | .unload stream => Sys2Proof.Machine.execUnload stream s
  | .resume stream => Sys2Proof.Machine.execResume stream s
  | .mark stream => Sys2Proof.Machine.execMark stream s
  | .openStream stream => Sys2Proof.Machine.execOpenStream stream s
  | .closeStream stream => Sys2Proof.Machine.execCloseStream stream s
  | .give stream => Sys2Proof.Machine.execGive stream s
  | .takeBack stream => Sys2Proof.Machine.execTakeBack stream s
  | .adopt stream => Sys2Proof.Machine.execAdopt stream s
  | .release stream => Sys2Proof.Machine.execRelease stream s
  | .qpsetSet stream => Sys2Proof.Machine.execQpsetSet stream s
  | .qpsetReset stream => Sys2Proof.Machine.execQpsetReset stream s
  | .keyset stream => Sys2Proof.Machine.execKeyset stream s
  | .keyRevoke stream => Sys2Proof.Machine.execKeyRevoke stream s
  | .epoch stream => Sys2Proof.Machine.execEpoch stream s
  | .sa stream => Sys2Proof.Machine.execSa stream s
  | .fwWrite stream flashOk => Sys2Proof.Machine.execFwWrite stream flashOk s
  | .fwActivate stream flashOk => Sys2Proof.Machine.execFwActivate stream flashOk s
  | .attest stream flashOk => Sys2Proof.Machine.execAttest stream flashOk s
  | .idset stream flashOk => Sys2Proof.Machine.execIdset stream flashOk s
  | .freezeThaw stream => Sys2Proof.Machine.execFreezeThaw stream s
  | .freezeReset stream => Sys2Proof.Machine.execFreezeReset stream s
  | .takeStart stream => Sys2Proof.Machine.execTakeStart stream s
  | .commit stream => Sys2Proof.Machine.execCommit stream s
  | .deadlinePassed stream => Sys2Proof.Machine.execDeadlinePassed stream s
  | .placementClear slot => Sys2Proof.Machine.execPlacementClear slot s
  | .coreClearTimeout core => Sys2Proof.Machine.execCoreClearTimeout core s
  | .completionRewrite stream => Sys2Proof.Machine.execCompletionRewrite stream s
  | .poolReservationRetry run shard => Sys2Proof.Machine.execPoolReservationRetry run shard s
  | .portUp p => Sys2Proof.Machine.execPortUp p s
  | .portDown p => Sys2Proof.Machine.execPortDown p s
  | .rxRdmaWrite m opcode rkey va data => Sys2Proof.Machine.execRxRdmaWrite m opcode rkey va data s
  | .rxRdmaReadRequest m rkey va len => Sys2Proof.Machine.execRxRdmaReadRequest m rkey va len s
  | .rxReadResponse m data => Sys2Proof.Machine.execRxReadResponse m data s
  | .rxAck m => Sys2Proof.Machine.execRxAck m s
  | .rxNak m kind => Sys2Proof.Machine.execRxNak m kind s
  | .ackTimeout qp => Sys2Proof.Machine.execAckTimeout qp s
  | .rxCnp m => Sys2Proof.Machine.execRxCnp m s
  | .alphaTimer qp => Sys2Proof.Machine.execAlphaTimer qp s
  | .rateTimer qp => Sys2Proof.Machine.execRateTimer qp s
  | .rateBytesSent qp => Sys2Proof.Machine.execRateBytesSent qp s
  | .rxPfcPause port prio => Sys2Proof.Machine.execRxPfcPause port prio s
  | .rxControlOpen m rkey re => Sys2Proof.Machine.execRxControlOpen m rkey re s
  | .rxControlSeal m rkey re => Sys2Proof.Machine.execRxControlSeal m rkey re s
  | .rxControlAbort m rkey re => Sys2Proof.Machine.execRxControlAbort m rkey re s
  | .stepCloseTimer run => Sys2Proof.Machine.execStepCloseTimer run s
  | .report k => Sys2Proof.Machine.execReport k s
  | .verdict k => Sys2Proof.Machine.execVerdict k s
  | .signs k => Sys2Proof.Machine.execSigns k s
  | .verdictTimeout stream => Sys2Proof.Machine.execVerdictTimeout stream s
  | .syncUpdate run shard => Sys2Proof.Machine.execSyncUpdate run shard s
  | .slowUpdate run shard => Sys2Proof.Machine.execSlowUpdate run shard s
  | .updateDone run shard => Sys2Proof.Machine.execUpdateDone run shard s
  | .pwrFail => Sys2Proof.Machine.execPwrFail s
  | .coldResetAssert => Sys2Proof.Machine.execColdResetAssert s
  | .flushDone => Sys2Proof.Machine.execFlushDone s
  | .railRestore cause => Sys2Proof.Machine.execRailRestore cause s
  | .thermalTrip die => Sys2Proof.Machine.execThermalTrip die s
  | .railFault part => Sys2Proof.Machine.execRailFault part s
  | .coldStart facts => Sys2Proof.Machine.execColdStart facts s
  | .coldReady => Sys2Proof.Machine.execColdReady s
  | .warmResetAssert => Sys2Proof.Machine.execWarmResetAssert s
  | .warmResetRelease => Sys2Proof.Machine.execWarmResetRelease s
  | .warmReady => Sys2Proof.Machine.execWarmReady s
  | .pinFreeze => Sys2Proof.Machine.execPinFreeze s
  | .freezePinRelease => Sys2Proof.Machine.execFreezePinRelease s
  | .freezeHoldExpiry => Sys2Proof.Machine.execFreezeHoldExpiry s
  | .freezeEnd => Sys2Proof.Machine.execFreezeEnd s
  | .readoutEnd badMus => Sys2Proof.Machine.execReadoutEnd badMus s
  | .coreArrayFault core array => Sys2Proof.Machine.execCoreArrayFault core array s
  | .fenceFail core => Sys2Proof.Machine.execFenceFail core s
  | .coreTestDone core pass => Sys2Proof.Machine.execCoreTestDone core pass s
  | .upuArrayFault unit => Sys2Proof.Machine.execUpuArrayFault unit s
  | .linkD2dFault die side => Sys2Proof.Machine.execLinkD2dFault die side s
  | .derlerWatchdog => Sys2Proof.Machine.execDerlerWatchdog s
  | .hubFailure hub => Sys2Proof.Machine.execHubFailure hub s
  | .journalFlashFail area => Sys2Proof.Machine.execJournalFlashFail area s
  | .journalEraseRetry => Sys2Proof.Machine.execJournalEraseRetry s
  | .reinitCore index => Sys2Proof.Machine.execReinitCore index s
  | .reinitPort index => Sys2Proof.Machine.execReinitPort index s
  | .reinitUpu index => Sys2Proof.Machine.execReinitUpu index s
  | .reinitHbc index => Sys2Proof.Machine.execReinitHbc index s
  | .reinitLpc index => Sys2Proof.Machine.execReinitLpc index s
  | .frzDailiesWrite v => Sys2Proof.Machine.execFrzDailiesWrite v s
  | .obsRingWrite d v => Sys2Proof.Machine.execObsRingWrite d v s
  | .csrWrite addr v => Sys2Proof.Machine.execCsrWrite addr v s
  | .setPtr v => Sys2Proof.Machine.execSetPtr v s
  | .smbRead => Sys2Proof.Machine.execSmbRead s
  | .clrAlert v => Sys2Proof.Machine.execClrAlert v s
  | .alertResponse => Sys2Proof.Machine.execAlertResponse s
  | .obsSample d => Sys2Proof.Machine.execObsSample d s
  | .keeperRailFall => Sys2Proof.Machine.execKeeperRailFall s
  | .journalAreaErased area => Sys2Proof.Machine.execJournalAreaErased area s
  | .pfcPauseExpiry port => Sys2Proof.Machine.execPfcPauseExpiry port s
  | .smbusClockLowTimeout => Sys2Proof.Machine.execSmbusClockLowTimeout s
  | .rxInvalidRequest m opcode => Sys2Proof.Machine.execRxInvalidRequest m opcode s
  | .napEntryDone core => Sys2Proof.Machine.execNapEntryDone core s

end Sys2Proof.Machine
end

