-- ==== Sys2Proof/Safety.lean ====
section
/-! DEFINITION. The terms in which the claims are stated: safe runs, the invariant of every step, what it takes for an
instruction to issue, and frames: what a command leaves as it was. -/
namespace Sys2Proof

/-- The issue of a Finlen instruction; none for other commands. -/
def Instr.issueOf : Instr → Option Issue
  | .alu q .. | .addi q .. | .andi q .. | .ori q .. | .xori q .. | .slli q .. | .srli q .. | .srai q .. | .cmp q .. | .cmpi q ..
  | .plog q .. | .br q .. | .call q .. | .ret q | .loop q .. | .lbrk q | .issue q .. | .arrive q .. | .wait q .. | .ldw q ..
  | .stw q .. | .rstart q .. | .yieldReel q | .rexit q | .cut q .. | .tend q | .fence q .. | .trap q .. | .nop q | .xalu q ..
  | .fetch q .. | .tcmt q .. | .csrr q .. | .csrw q .. => some q
  | _ => none

end Sys2Proof

namespace Sys2Proof.Machine

open Sys2Proof

/-- A state from which `n` steps meet no fault and no refusal. -/
def safe (n : Nat) (s : State) : Prop := ∃ t, Host.Core.run Sys2Proof.core n s = .next t

/-- The memories are in their canonical form: addresses strictly rising, no byte listed that equals what an unlisted address
reads as. -/
def memForm (s : State) : Prop := memWf s.mem ∧ memWf s.sram ∧ tabWf (0xFF : Byte) s.flash

/-- The depth of the issue queue kept under a key (R221). -/
def keyDepth (key : Nat) : Nat := queueDepth (if key < 8 then key else if key < 16 then 3 else 6)

/-- The limits of a core's stacks (R215, R216), barrier counters (R131, R132) and issue queues (R221). -/
def coreLimits (x : Core) : Prop :=
  (∀ r ∈ x.reels, r.2.loops.length ≤ 4 ∧ r.2.rets.length ≤ 8) ∧
  (∀ b ∈ x.bars, b.2.count ≤ 65535 ∧ b.2.waiters.length ≤ 32) ∧
  ∀ q ∈ x.queues, q.2.length ≤ keyDepth q.1

/-- Every core is within its limits. -/
def coreForm (s : State) : Prop := ∀ e ∈ s.cores, coreLimits e.2

/-- Derler's table has its 208 physical cores, and a logical position is filled by at most one of them, one of its own die (R14, R15). -/
def coreMap (s : State) : Prop :=
  s.drl.pcores.length = 208 ∧ ∀ i, i < 208 → (pcoreOf s i).state = .mapped → (pcoreOf s i).lcore / 24 = i / 26 ∧
    ∀ j, j < 208 → (pcoreOf s j).state = .mapped → (pcoreOf s j).lcore = (pcoreOf s i).lcore → j = i

/-- The CSQ of a core issues `i` next (R203, R229, R233): its take runs, its running reel is started and not held, the words at the
PC are `i`, and no register that `i` names awaits a counter's answer. -/
abbrev issues (q : Issue) (i : Instr) (s : State) : Prop :=
  q.ok ∧ i.wf ∧ csqLive s q.core ∧ (runningReel s q.core).started ∧ (runningReel s q.core).hold = .free ∧
  (runningReel s q.core).pc < (core s q.core).code.length ∧
  fetched (core s q.core) q.core (runningReel s q.core) = some i ∧
  ∀ n ∈ i.uses, pendingReg (core s q.core) (core s q.core).running n = false

/-- The CSQ issues `i` next, and its predicate is true (R208). -/
abbrev runs (q : Issue) (i : Instr) (s : State) : Prop := issues q i s ∧ (runningReel s q.core).executes q = true

/-- Every byte of the device reads as before. -/
def sameBytes (s t : State) : Prop := ∀ a, devByte t a = devByte s a

/-- Only core `c` and the registers in `regs` may differ. -/
def frameCore (s t : State) (c : Nat) (regs : List Nat) : Prop :=
  { t with cores := s.cores, csr := s.csr } = s ∧ sameBytes s t ∧ (∀ d, d ≠ c → core t d = core s d) ∧
  ∀ a, a ∉ regs → cget t a = cget s a

/-- Only the running reel of core `c` and its count of issued instructions differ. -/
def frameReel (s t : State) (c : Nat) : Prop :=
  frameCore s t c [csqBase c + 0x48] ∧
  { core t c with reels := (core s c).reels } = core s c ∧
  (∀ r, r ≠ (core s c).running → reelOf (core t c) r = reelOf (core s c) r) ∧
  cget t (csqBase c + 0x48) = BitVec.ofNat 64 (((cget s (csqBase c + 0x48)).toNat + 1) % 2 ^ 48)

/-- An instruction that changes its own reel by `f`, ends without a branch, and leaves everything else as it was. -/
def reelOp (q : Issue) (i : Instr) (f : Reel → Reel) : Prop :=
  ∀ s, runs q i s → ∃ t, exec i s = .next t ∧
    runningReel t q.core = (f (runningReel s q.core)).next (wordsOf i) ∧ frameReel s t q.core

/-- An instruction that traps (R235, R236): CSQ_TRAP, CSQ_TRAPPC and CSQ_TRAPVAL take the valid bit, the cause, the detail and the
reel, the 15 bits of the PC, and the value; the core is trapped, and nothing else changes. -/
def trapsAt (q : Issue) (i : Instr) (s : State) (cause val detail : Nat) : Prop :=
  let c := q.core
  ∃ t, exec i s = .next t ∧ core t c = { core s c with trapped := true } ∧
    frameCore s t c [csqBase c + 0x48, csqBase c + 0x10, csqBase c + 0x18, csqBase c + 0x20] ∧
    cget t (csqBase c + 0x10) = BitVec.ofNat 64 (2 ^ 63 + detail * 2 ^ 16 + (core s c).running * 2 ^ 8 + cause) ∧
    cget t (csqBase c + 0x18) = BitVec.ofNat 64 (pcMod (runningReel s c).pc) ∧
    cget t (csqBase c + 0x20) = BitVec.ofNat 64 val

/-- The arrival that the running reel of a core sends with the next issue number. -/
def csqArrival (s : State) (c dst mu ctr n : Nat) : Arrival :=
  { src := c, id := (core s c).issued + 1, csq := some ((core s c).running, (runningReel s c).pc), dst := dst, mu := mu, ctr := ctr, n := n }

/-- The counter request that the running reel of a core sends with the next issue number. -/
def csqRequest (s : State) (c rd : Nat) (tcmt : Bool) (ctr reqId arg : Nat) (ranges : List (Nat × Nat × Nat)) : CtrReq :=
  { id := (core s c).issued + 1, reel := (core s c).running, pc := (runningReel s c).pc, rd := rd, tcmt := tcmt, ctr := ctr,
    reqId := reqId, arg := arg, ranges := ranges, resent := false, answer := none, copying := false, copied := false, killed := false }

/-- A reel that starts with another's registers and predicates and empty stacks. -/
def startedReel (r : Reel) (pc : Nat) : Reel := { started := true, regs := r.regs, preds := r.preds, pc := pc }

/-- A barrier counter with one more waiter, the last. -/
def joined (b : Bar) (w : Waiter) : Bar := { b with waiters := b.waiters ++ [w] }

end Sys2Proof.Machine
end

