-- ==== Sys2Proof/Certificates/Slice0/Obligations.lean ====
section
/-! DEFINITION. The statements about the model, for the provers. A completion statement says that `exec` answers a next state under
hypotheses on the state and the operands alone. -/
open Sys2Proof Sys2Proof.Machine

-- The block and its queue

/-- One step runs the command at the front of the queue with the queue's rest; an empty queue leaves the block as it is (the model's
choice, log 1). -/
def Obligations.FrontCommandRuns : Prop :=
  (∀ (c : Instr) (q : List Instr) (s : State), step { s with pending := c :: q } = exec c { s with pending := q }) ∧
  ∀ s : State, s.pending = [] → step s = .next s

/-- Every step keeps the memories (SRAM, DRAM, flash) in their canonical form, from every state that has it. -/
def Obligations.StepKeepsMemoryForm : Prop :=
  ∀ s t : State, memForm s → step s = .next t → memForm t

/-- Every step keeps the limits of the cores' stacks and counters, from every state that has them: at most four loops and eight return
addresses of a reel, counts of at most 65,535 and 32 waiters of a barrier counter, and no issue queue beyond its depth (R131, R132, R215,
R216, R221). -/
def Obligations.StepKeepsCoreLimits : Prop :=
  ∀ s t : State, coreForm s → step s = .next t → coreForm t

/-- Every step keeps Derler's table of the 208 physical cores in order, from every state that has it so: a logical position is filled by at
most one physical core, one of its own die (R14, R15, R465, R466). -/
def Obligations.StepKeepsCoreMap : Prop :=
  ∀ s t : State, coreMap s → step s = .next t → coreMap t

/-- The invariants hold of the reset state: its cores are within their limits and their map is in order (R14), and its memories are in their
canonical form and list nothing. What an unlisted byte reads as, 0, in module flash 0xFF, is the model's choice (log 5). -/
def Obligations.ResetInvariants : Prop :=
  coreForm State.reset ∧ coreMap State.reset ∧ memForm State.reset ∧ ∀ a, memRead State.reset.mem a = 0 ∧ memRead State.reset.sram a = 0 ∧ flashRead State.reset a = 0xFF

-- Finlen encoding (R206, R207, R210 to R232, R518)

/-- Decoding the words of every well-formed Finlen instruction gives it back, on the core that issues it; a 32-bit instruction
whatever word follows it. -/
def Obligations.FinlenDecodeOfEncode : Prop :=
  ∀ (i : Instr) (w w2 : W32), i.wf = true → finlenEncode i = some (w, w2) →
    ∃ c, finlenDecode c w w2 = some i ∧ (i.long = false → ∀ v, finlenDecode c w v = some i)

/-- Words that spell an instruction are that instruction's encoding: no bit of them is dropped, and no two words spell the same
instruction. -/
def Obligations.FinlenEncodeOfDecode : Prop :=
  ∀ (c : Nat) (w w2 : W32) (i : Instr), finlenDecode c w w2 = some i →
    finlenEncode i = some (w, if i.long then w2 else 0) ∧ i.long = isLong w ∧ i.wf = true

-- Finlen: arithmetic, predicates, branches, loops, words of memory (R205 to R218)

/-- Each arithmetic instruction completes: rd takes the rule's value of the operands (nothing is written for s0), the PC moves on or the
loop goes on, and nothing else changes; CMP, CMPI and PLOG write their condition or logical value to pd (nothing for p0) instead (R205,
R210 to R214). -/
def Obligations.FinlenArithmetic : Prop :=
  ((∀ q fn rd ra rb, reelOp q (.alu q fn rd ra rb) fun r => r.set rd (aluOp fn (r.get ra) (r.get rb))) ∧
   (∀ q rd ra imm, reelOp q (.addi q rd ra imm) fun r => r.set rd (r.get ra + imm.signExtend 64)) ∧
   (∀ q rd ra imm, reelOp q (.andi q rd ra imm) fun r => r.set rd (r.get ra &&& imm.signExtend 64)) ∧
   (∀ q rd ra imm, reelOp q (.ori q rd ra imm) fun r => r.set rd (r.get ra ||| imm.signExtend 64)) ∧
   (∀ q rd ra imm, reelOp q (.xori q rd ra imm) fun r => r.set rd (r.get ra ^^^ imm.signExtend 64)) ∧
   (∀ q rd ra imm, reelOp q (.slli q rd ra imm) fun r => r.set rd (r.get ra <<< imm.toNat)) ∧
   (∀ q rd ra imm, reelOp q (.srli q rd ra imm) fun r => r.set rd (r.get ra >>> imm.toNat)) ∧
   (∀ q rd ra imm, reelOp q (.srai q rd ra imm) fun r => r.set rd ((r.get ra).sshiftRight imm.toNat)) ∧
   (∀ q fn rd ra imm, reelOp q (.xalu q fn rd ra imm) fun r => r.set rd (xaluOp fn (r.get rd) (r.get ra) imm)) ∧
   ∀ q, reelOp q (.nop q) id) ∧
  ((∀ q fn pd ra rb, reelOp q (.cmp q fn pd ra rb) fun r => r.setPred pd (condOp fn (r.get ra) (r.get rb))) ∧
   (∀ q cond pd ra imm, reelOp q (.cmpi q cond pd ra imm) fun r => r.setPred pd (condOp cond (r.get ra) (imm.signExtend 64))) ∧
   (∀ q fn pd pa pb, reelOp q (.plog q fn pd pa pb) fun r => r.setPred pd (plogOp fn (r.pred pa) (r.pred pb))) ∧
   ∀ a b : W64, condOp 0 a b = decide (a = b) ∧ condOp 1 a b = decide (a ≠ b) ∧ condOp 2 a b = decide (a.toInt < b.toInt) ∧
     condOp 3 a b = decide (b.toInt ≤ a.toInt) ∧ condOp 4 a b = decide (a.toNat < b.toNat) ∧ condOp 5 a b = decide (b.toNat ≤ a.toNat))

/-- The ALU's results modulo 2^64, for each of its 19 functions: sum and difference, AND, OR and XOR bit by bit, shifts, products, minima and
maxima, quotient and remainder, leading zeros and 1 bits (R211). -/
def Obligations.AluResults : Prop :=
  ∀ a b : W64,
    (aluOp 0x00 a b).toNat = (a.toNat + b.toNat) % 2 ^ 64 ∧ (aluOp 0x01 a b).toNat = (a.toNat + (2 ^ 64 - b.toNat)) % 2 ^ 64 ∧
    (∀ i, i < 64 → (aluOp 0x02 a b).getLsbD i = (a.getLsbD i && b.getLsbD i) ∧
      (aluOp 0x03 a b).getLsbD i = (a.getLsbD i || b.getLsbD i) ∧ (aluOp 0x04 a b).getLsbD i = (a.getLsbD i ^^ b.getLsbD i)) ∧
    (aluOp 0x05 a b).toNat = a.toNat * 2 ^ (b.toNat % 64) % 2 ^ 64 ∧ (aluOp 0x06 a b).toNat = a.toNat / 2 ^ (b.toNat % 64) ∧
    (aluOp 0x07 a b).toInt = Int.fdiv a.toInt (2 ^ (b.toNat % 64)) ∧
    (aluOp 0x12 a b).toNat = ((List.range 64).filter fun i => a.getLsbD i).length ∧
    (aluOp 0x08 a b).toNat + 2 ^ 64 * (aluOp 0x0A a b).toNat = a.toNat * b.toNat ∧
    (aluOp 0x08 a b).toNat + 2 ^ 64 * (aluOp 0x09 a b).toInt = a.toInt * b.toInt ∧
    (aluOp 0x0B a b).toInt = min a.toInt b.toInt ∧ (aluOp 0x0C a b).toInt = max a.toInt b.toInt ∧
    (aluOp 0x0D a b).toNat = min a.toNat b.toNat ∧ (aluOp 0x0E a b).toNat = max a.toNat b.toNat ∧
    (b ≠ 0 → a.toNat = b.toNat * (aluOp 0x0F a b).toNat + (aluOp 0x10 a b).toNat ∧ (aluOp 0x10 a b).toNat < b.toNat) ∧
    (b = 0 → (aluOp 0x0F a b).toNat = 2 ^ 64 - 1 ∧ aluOp 0x10 a b = a) ∧
    (a ≠ 0 → 2 ^ (63 - (aluOp 0x11 a b).toNat) ≤ a.toNat ∧ a.toNat < 2 ^ (64 - (aluOp 0x11 a b).toNat)) ∧
    (a = 0 → (aluOp 0x11 a b).toNat = 64)

/-- s0 reads as zero and p0 as 1, whatever is stored, and a write to either changes nothing; a write to another register or predicate
is read back, and leaves the others as they were; an instruction that writes s0 or p0 completes with its other effects in full (R205). -/
def Obligations.HardwiredRegisters : Prop :=
  ∀ (r : Reel) (v : W64) (b : Bool),
    r.get 0 = 0 ∧ r.pred 0 = true ∧ r.set 0 v = r ∧ r.setPred 0 b = r ∧
    (∀ n m, n ≠ 0 → (r.set n v).get m = if m = n then v else r.get m) ∧
    (∀ n m, n ≠ 0 → n < 8 → m < 8 → (r.setPred n b).pred m = if m = n then b else r.pred m) ∧
    ∀ (q : Issue) (x y : Nat) (imm : BitVec 12) (w : W32), (∀ fn, reelOp q (.alu q fn 0 x y) id) ∧ reelOp q (.addi q 0 x imm) id ∧
      reelOp q (.andi q 0 x imm) id ∧ reelOp q (.ori q 0 x imm) id ∧ reelOp q (.xori q 0 x imm) id ∧ reelOp q (.slli q 0 x imm) id ∧
      reelOp q (.srli q 0 x imm) id ∧ reelOp q (.srai q 0 x imm) id ∧ (∀ fn, reelOp q (.xalu q fn 0 x w) id) ∧
      (∀ fn, reelOp q (.cmp q fn 0 x y) id) ∧ (∀ cond, reelOp q (.cmpi q cond 0 x imm) id) ∧ (∀ fn, reelOp q (.plog q fn 0 x y) id) ∧
      (∀ s, runs q (.ldw q 0 x imm) s → (wordAddr (runningReel s q.core) x imm).2 = true → ∃ t, exec (.ldw q 0 x imm) s = .next t ∧
        frameReel s t q.core ∧ runningReel t q.core = (runningReel s q.core).next 1) ∧
      (∀ val s, runs q (.csrr q 0 w) s → csrRead (bump s (csqBase q.core + 0x48) 1) (ownCsr q.core w) = some val →
        ∃ t, exec (.csrr q 0 w) s = .next t ∧ frameCore { s with free := s.free + 1 } t q.core [csqBase q.core + 0x48] ∧
          runningReel t q.core = (runningReel s q.core).next 2) ∧
      (∀ s, runs q (.loop q 0 x y) s → 0 < ((runningReel s q.core).get x).toNat → ((runningReel s q.core).get x).toNat < 2 ^ 32 →
        (runningReel s q.core).loops.length < 4 → ∃ t, exec (.loop q 0 x y) s = .next t ∧
          (runningReel t q.core).regs = (runningReel s q.core).regs ∧ (runningReel t q.core).pc = (runningReel s q.core).pc + 1 ∧
          (runningReel t q.core).loops.length = (runningReel s q.core).loops.length + 1) ∧
      ∀ (c reel n : Nat) (s : State) (e : CtrReq), c < 208 → reel < 8 → fast s = true → (core s c).fenced = false →
        findReq (core s c) reel 0 (fun e => !e.tcmt && e.answer.isSome && !e.killed) = some e → e.answer = some n →
        exec (.fetchAnswer c reel 0) s = .next (setCore s c (dropReq (withReel (core s c) reel (reelOf (core s c) reel)) e.id))

/-- An instruction whose predicate is false takes its issue cycle, changes nothing, and the PC moves on (or the loop goes on); a LOOP
then skips its body; PR = 0 with PN = 1 never executes (R208). -/
def Obligations.FinlenNotExecuted : Prop :=
  (∀ (q : Issue) (i : Instr) (s : State), i.issueOf = some q → issues q i s → (runningReel s q.core).executes q = false →
    ∃ t, exec i s = .next t ∧ frameReel s t q.core ∧
      ((∀ q rd ra body, i ≠ .loop q rd ra body) → runningReel t q.core = (runningReel s q.core).next (wordsOf i)) ∧
      ∀ rd ra body, i = .loop q rd ra body →
        runningReel t q.core = { runningReel s q.core with pc := (runningReel s q.core).pc + 2 + body }) ∧
  (∀ (r : Reel) (q : Issue), r.executes q = (r.pred q.pr ^^ q.pn)) ∧
  ∀ (r : Reel) (q : Issue), q.pr = 0 → q.pn = true → r.executes q = false

/-- BR goes to its target; CALL also pushes the address after it; RET pops and goes there (R215). LOOP with a count pushes its entry, writes
iteration 0 and goes to its body's first word; with a count of 0 it skips the body; LBRK pops the innermost entry and goes on after its
body; at the innermost loop's last word the next iteration starts while one is left, and otherwise the entry is popped (R216). That a count
beyond its LOOPMAX value voids the bound as the LOOP issues, whether or not the loop is left early, is the model's reading of R289 (log 46). -/
def Obligations.FinlenBranchesAndLoops : Prop :=
  ((∀ q off s, runs q (.br q off) s → ∃ t, exec (.br q off) s = .next t ∧ frameReel s t q.core ∧
    runningReel t q.core = { runningReel s q.core with pc := target (runningReel s q.core).pc off }) ∧
  (∀ q off s, runs q (.call q off) s → (runningReel s q.core).rets.length < 8 → ∃ t, exec (.call q off) s = .next t ∧
    frameReel s t q.core ∧ runningReel t q.core = { runningReel s q.core with
      pc := target (runningReel s q.core).pc off,
      rets := ((runningReel s q.core).pc + 1) :: (runningReel s q.core).rets }) ∧
  (∀ q a l s, runs q (.ret q) s → (runningReel s q.core).rets = a :: l → ∃ t, exec (.ret q) s = .next t ∧
    frameReel s t q.core ∧ runningReel t q.core = { runningReel s q.core with pc := a, rets := l }) ∧
  ∀ (pc : Nat) (off : BitVec 19), (target pc off : Int) = (pc + off.toInt) % 32768) ∧
  ((∀ q rd ra body s, runs q (.loop q rd ra body) s →
     let r := runningReel s q.core
     let c := (r.get ra).toNat
     (c = 0 → ∃ t, exec (.loop q rd ra body) s = .next t ∧ frameReel s t q.core ∧
       runningReel t q.core = { r with pc := r.pc + 2 + body }) ∧
     (0 < c → c < 2 ^ 32 → r.loops.length < 4 → ∃ t, exec (.loop q rd ra body) s = .next t ∧ sameBytes s t ∧
       t.intake = (if loopMax (imgOf s q.core) r.pc < c then voidBound s q.core else s).intake ∧
       (∀ d, d ≠ q.core → core t d = core s d) ∧ { core t q.core with reels := (core s q.core).reels } = core s q.core ∧
       (∀ n, n ≠ (core s q.core).running → reelOf (core t q.core) n = reelOf (core s q.core) n) ∧
       runningReel t q.core = { r.set rd 0 with
         pc := r.pc + 1
         loops := { count := c, iter := 0, first := r.pc + 1, last := r.pc + 1 + body, idx := rd } :: r.loops })) ∧
   ∀ q l rest s, runs q (.lbrk q) s → (runningReel s q.core).loops = l :: rest → ∃ t, exec (.lbrk q) s = .next t ∧
     frameReel s t q.core ∧ runningReel t q.core = { runningReel s q.core with pc := l.last + 1, loops := rest }) ∧
  (∀ (r : Reel) (l : LoopEnt) (rest : List LoopEnt) (words : Nat), r.loops = l :: rest →
     (l.last ≠ r.pc + words - 1 → r.next words = { r with pc := r.pc + words }) ∧
     (l.last = r.pc + words - 1 → l.iter + 1 < l.count →
       (r.next words).pc = l.first ∧ (r.next words).loops = { l with iter := l.iter + 1 } :: rest ∧
       (l.idx ≠ 0 → (r.next words).get l.idx = BitVec.ofNat 64 (l.iter + 1)) ∧
       ∀ m, m ≠ l.idx → (r.next words).get m = r.get m) ∧
     (l.last = r.pc + words - 1 → l.count ≤ l.iter + 1 →
       r.next words = { r with pc := r.pc + words, loops := rest }))

/-- LDW loads the 8 B at its core address, little-endian; STW stores rd there; every byte outside the 8 B stored reads as before, and
LDW stores nothing (R218). -/
def Obligations.FinlenWordsOfMemory : Prop :=
  (∀ q rd ra imm s, runs q (.ldw q rd ra imm) s → (wordAddr (runningReel s q.core) ra imm).2 = true →
    ∃ t, exec (.ldw q rd ra imm) s = .next t ∧ frameReel s t q.core ∧
      runningReel t q.core = ((runningReel s q.core).set rd (BitVec.ofNat 64
        (leNat (memReads s.sram (sramKey q.core (wordAddr (runningReel s q.core) ra imm).1.toNat) 8)))).next 1) ∧
  (∀ q rd ra imm s, runs q (.stw q rd ra imm) s → (wordAddr (runningReel s q.core) ra imm).2 = true →
    ∃ t, exec (.stw q rd ra imm) s = .next t ∧ frameReel { s with sram := t.sram } t q.core ∧
      runningReel t q.core = (runningReel s q.core).next 1 ∧
      (∀ a, let k := sramKey q.core (wordAddr (runningReel s q.core) ra imm).1.toNat
        memRead t.sram a = if k ≤ a ∧ a < k + 8 then (leBytes 8 ((runningReel s q.core).get rd).toNat).getD (a - k) 0
          else memRead s.sram a)) ∧
  ∀ (r : Reel) (ra : Nat) (imm : BitVec 12), (wordAddr r ra imm).1 = r.get ra + imm.signExtend 64 * 8 ∧
    ((wordAddr r ra imm).2 = true ↔ (r.get ra).toNat < 2 ^ 24 ∧ (wordAddr r ra imm).1.toNat < 2 ^ 24 ∧ (wordAddr r ra imm).1.toNat % 8 = 0)

/-- Where a Finlen instruction traps, CSQ_TRAP, CSQ_TRAPPC and CSQ_TRAPVAL take the cause, the PC and the value of the table of R236,
the core issues nothing more, and nothing else changes; so for ISSUE: a bad address, a descriptor whose type or size does not match, a
reserved value; so for a reel whose PC has left the loaded code, whatever it would issue (R215, R216, R218, R220, R229, R231, R235, R236).
That TRAPVAL of a bad address is the sum, and of RSTART the reel that it names, is the model's reading (log 36), and so is the PC of a reel
that runs past word 32,767 (log 67). -/
def Obligations.FinlenTraps : Prop :=
  ((∀ q code s, runs q (.trap q code) s → trapsAt q (.trap q code) s 0x01 0 code.toNat) ∧
   (∀ q rd ra body s, runs q (.loop q rd ra body) s →
     let c := ((runningReel s q.core).get ra).toNat
     (2 ^ 32 ≤ c → trapsAt q (.loop q rd ra body) s 0x03 c 0) ∧
     (0 < c → c < 2 ^ 32 → 4 ≤ (runningReel s q.core).loops.length → trapsAt q (.loop q rd ra body) s 0x02 c 0)) ∧
   (∀ q s, runs q (.lbrk q) s → (runningReel s q.core).loops = [] → trapsAt q (.lbrk q) s 0x04 0 0) ∧
   (∀ q off s, runs q (.call q off) s → 8 ≤ (runningReel s q.core).rets.length →
     trapsAt q (.call q off) s 0x05 (target (runningReel s q.core).pc off) 0) ∧
   (∀ q s, runs q (.ret q) s → (runningReel s q.core).rets = [] → trapsAt q (.ret q) s 0x06 0 0) ∧
   (∀ q rd ra imm s, runs q (.ldw q rd ra imm) s → (wordAddr (runningReel s q.core) ra imm).2 = false →
     trapsAt q (.ldw q rd ra imm) s 0x0A (wordAddr (runningReel s q.core) ra imm).1.toNat 0) ∧
   (∀ q rd ra imm s, runs q (.stw q rd ra imm) s → (wordAddr (runningReel s q.core) ra imm).2 = false →
     trapsAt q (.stw q rd ra imm) s 0x0A (wordAddr (runningReel s q.core) ra imm).1.toNat 0) ∧
   (∀ q z off s, runs q (.rstart q z off) s → (reelOf (core s q.core) z).started = true → trapsAt q (.rstart q z off) s 0x13 z 0) ∧
   (∀ q s, runs q (.rexit q) s → (core s q.core).running = 0 → trapsAt q (.rexit q) s 0x13 0 0) ∧
   ∀ q i s, i.issueOf = some q → q.ok → i.wf = true → csqLive s q.core = true → (runningReel s q.core).started = true →
     (runningReel s q.core).hold = .free → (core s q.core).code.length ≤ (runningReel s q.core).pc →
     trapsAt q i s 0x14 (runningReel s q.core).pc 0) ∧
  (∀ q ra eng size off s, runs q (.issue q ra eng size off) s →
     let c := q.core
     let i : Instr := .issue q ra eng size off
     let a := ((runningReel s c).get ra + BitVec.ofNat 64 (64 * off)).toNat
     let len := if size then 128 else 64
     let b := sramReads s c a len
     let key := queueKey (if eng = 6 then b else [BitVec.ofNat 8 eng]) (a / muBytes)
     let good := a < 2 ^ 24 ∧ a % 64 = 0 ∧ inMu a len = true
     (¬ good → trapsAt q i s 0x07 a 0) ∧
     (good → (queueOf (core s c) key).length < queueDepth eng →
       (¬(dEng b = eng ∧ dSize b = size ∧ typeOk b = true) → trapsAt q i s 0x08 (fld b 0 8) 0) ∧
       (dEng b = eng → dSize b = size → typeOk b = true → ∀ o,
         descBad (indexOf (core s c)) (rectOf (core s c)) (a / muBytes) ((cfgOf s c (vceBase c)).getLsbD 0) b = some o → trapsAt q i s 0x09 o 0)) ∧
     (good → queueDepth eng ≤ (queueOf (core s c) key).length → exec i s = .next s))

-- Finlen: descriptors, barriers, reels, fences, cuts, counters and CSRs (R220 to R232)

/-- ISSUE at a legal, aligned address with room in the engine's queue and a descriptor of the right type without reserved values puts a
copy of the descriptor, with the effective extents of that moment and the next issue number, at the end of that queue and goes on;
memory and every other core are as before (R220). -/
def Obligations.IssueQueuesDescriptor : Prop :=
  ∀ q ra eng size off s, runs q (.issue q ra eng size off) s →
    let c := q.core
    let a := ((runningReel s c).get ra + BitVec.ofNat 64 (64 * off)).toNat
    let len := if size then 128 else 64
    let b := sramReads s c a len
    let key := queueKey (if eng = 6 then b else [BitVec.ofNat 8 eng]) (a / muBytes)
    a < 2 ^ 24 → a % 64 = 0 → inMu a len = true → (queueOf (core s c) key).length < queueDepth eng →
    dEng b = eng → dSize b = size → typeOk b = true →
    descBad (indexOf (core s c)) (rectOf (core s c)) (a / muBytes) ((cfgOf s c (vceBase c)).getLsbD 0) b = none →
    ∃ t, exec (.issue q ra eng size off) s = .next t ∧ frameCore s t c [csqBase c + 0x48] ∧
      (core t c).issued = (core s c).issued + 1 ∧
      (queueOf (core t c) key).map (fun d => (d.id, d.bytes, d.ext, d.skip)) =
        (queueOf (core s c) key).map (fun d => (d.id, d.bytes, d.ext, d.skip)) ++
          [((core s c).issued + 1, b, effExtents (fun n => (cget s (alAddr c n)).toNat) b,
            isSkip b (effExtents (fun n => (cget s (alAddr c n)).toNat) b))] ∧
      ∀ k, k ≠ key → (queueOf (core t c) k).map (·.bytes) = (queueOf (core s c) k).map (·.bytes)

/-- ARRIVE sends its arrival, to its own core's counter or with REM to the core of that rectangle index, and goes on; outside the
rectangle it traps. WAIT joins the counter's queue at its end and holds its reel; with 32 waiters it waits to join, at its own PC (R131, R223; where the PC
stands meanwhile is the model's reading, log 35). -/
def Obligations.BarrierInstructions : Prop :=
  (∀ q mu ctr n s, runs q (.arrive q 0 mu ctr n false) s →
    let c := q.core
    ∃ t, exec (.arrive q 0 mu ctr n false) s = .next t ∧ sameBytes s t ∧
      t.fab.arrivals = s.fab.arrivals ++ [csqArrival s c c mu ctr n] ∧
      t.fab.flits = s.fab.flits ∧ runningReel t c = (runningReel s c).next 1) ∧
  (∀ q ra mu ctr n d s, runs q (.arrive q ra mu ctr n true) s →
    let c := q.core
    ((runningReel s c).get ra).toNat < rectOf (core s c) →
    ((core s c).place.bind fun p => coreAtIndex s p.slot ((runningReel s c).get ra).toNat) = some d →
    ∃ t, exec (.arrive q ra mu ctr n true) s = .next t ∧ sameBytes s t ∧ runningReel t c = (runningReel s c).next 1 ∧
      (d = c → t.fab.arrivals = s.fab.arrivals ++ [csqArrival s c c mu ctr n] ∧ t.fab.flits = s.fab.flits) ∧
      (d ≠ c → t.fab.arrivals = s.fab.arrivals ∧
        t.fab.flits.map (·.arrival) = s.fab.flits.map (·.arrival) ++ [csqArrival s c d mu ctr n])) ∧
  (∀ q ra mu ctr n s, runs q (.arrive q ra mu ctr n true) s →
    rectOf (core s q.core) ≤ ((runningReel s q.core).get ra).toNat →
    trapsAt q (.arrive q ra mu ctr n true) s 0x0C ((runningReel s q.core).get ra).toNat 0) ∧
  (∀ q mu ctr n s, runs q (.wait q mu ctr n) s →
    let c := q.core
    (barOf (core s c) mu ctr).waiters.length < 32 →
    ∃ t, exec (.wait q mu ctr n) s = .next t ∧ frameCore s t c [csqBase c + 0x48] ∧
      barOf (core t c) mu ctr = joined (barOf (core s c) mu ctr) { who := .reel (core s c).running, n := n } ∧
      runningReel t c = { (runningReel s c).next 1 with hold := .bar mu ctr }) ∧
  ∀ q mu ctr n s, runs q (.wait q mu ctr n) s → 32 ≤ (barOf (core s q.core) mu ctr).waiters.length →
    exec (.wait q mu ctr n) s = .next s

/-- RSTART starts its reel at the target with copies of the starting reel's registers and predicates and empty stacks; YIELD gives the
issue to the next reel with input, if any; REXIT stops its reel: what comes back for it reaches no register any more, and what it has
sent stays sent (R229, R238). -/
def Obligations.ReelInstructions : Prop :=
  (∀ q z off s, runs q (.rstart q z off) s → (reelOf (core s q.core) z).started = false →
    let c := q.core
    ∃ t, exec (.rstart q z off) s = .next t ∧ frameCore s t c [csqBase c + 0x48] ∧
      reelOf (core t c) z = startedReel (runningReel s c) (target (runningReel s c).pc off) ∧
      runningReel t c = (runningReel s c).next 1) ∧
  (∀ q s, runs q (.yieldReel q) s →
    let c := q.core
    ∃ u, exec (.yieldReel q) s = .next (setCore u c { core u c with running := (nextReel u c).getD (core s c).running }) ∧
      frameReel s u c ∧ runningReel u c = (runningReel s c).next 1) ∧
  ∀ q s, runs q (.rexit q) s → (core s q.core).running ≠ 0 →
    let c := q.core
    let r := (core s c).running
    ∃ t, exec (.rexit q) s = .next t ∧ frameCore s t c [csqBase c + 0x48] ∧ reelOf (core t c) r = {} ∧
      (core t c).ctrReqs = (core s c).ctrReqs.map fun x => if x.reel = r then { x with killed := true } else x

/-- FENCE, CUT and TEND hold their reel for what was sent before them; a CUT out of context or order, and a TEND outside reel 0 or beside
a core at a cut, trap (R228, R230, R231). What a held reel waits for is complete: a FENCE lets its reel go on, a CUT writes the cut
record, a TEND ends the core's share of the take (R228, R230, R231). Where the PC stands while they
wait (log 35), and what a cut keeps and when (log 47), are the model's readings. -/
def Obligations.FenceCutTend : Prop :=
  ((∀ q fn s, runs q (.fence q fn) s →
     let c := q.core
     ∃ t, exec (.fence q fn) s = .next t ∧ frameReel s t c ∧
       runningReel t c = { (runningReel s c).next 1 with hold := .fence fn ((core s c).issued + 1) }) ∧
   (∀ q k s, runs q (.cut q k) s →
     let c := q.core
     let x := core s c
     (¬(x.running = 0 ∧ (runningReel s c).loops = [] ∧ (runningReel s c).rets = [] ∧ othersStarted x = false) →
       trapsAt q (.cut q k) s 0x12 k 0) ∧
     (x.running = 0 → (runningReel s c).loops = [] → (runningReel s c).rets = [] → othersStarted x = false →
       ((k ≤ cutLast s c ∨ mateAtCut s c (· ≠ k) = true) → trapsAt q (.cut q k) s 0x11 k 0) ∧
       (cutLast s c < k → mateAtCut s c (· ≠ k) = false → ∃ t, exec (.cut q k) s = .next t ∧ frameReel s t c ∧
         runningReel t c = { (runningReel s c).next 1 with hold := .cut k (x.issued + 1) }))) ∧
   ∀ q s, runs q (.tend q) s →
     let c := q.core
     let x := core s c
     (x.running ≠ 0 → trapsAt q (.tend q) s 0x13 x.running 0) ∧
     (x.running = 0 → othersStarted x = true → exec (.tend q) s = .next s) ∧
     (x.running = 0 → othersStarted x = false →
       (mateAtCut s c (fun _ => true) = true → trapsAt q (.tend q) s 0x11 0 0) ∧
       (mateAtCut s c (fun _ => true) = false → ∃ t, exec (.tend q) s = .next t ∧ frameReel s t c ∧
         runningReel t c = { (runningReel s c).next 1 with hold := .tend (x.issued + 1) }))) ∧
  (∀ (c reel : Nat) (s : State), c < 208 → reel < 8 → engineLive s c = true → (core s c).trapped = false →
     (core s c).share = .running →
     (∀ m l, (reelOf (core s c) reel).hold = .fence m l → fenceDone s c m l = true →
       exec (.fenceRelease c reel) s = .next (setCore s c (withReel (core s c) reel { reelOf (core s c) reel with hold := .free }))) ∧
     (∀ m l, (reelOf (core s c) reel).hold = .fence m l → fenceDone s c m l = false → exec (.fenceRelease c reel) s = .next s) ∧
     (∀ k l, (reelOf (core s c) reel).hold = .cut k l → cutLast s c ≠ k → fenceDone s c 7 l = true →
       exec (.fenceRelease c reel) s = .next (reachCut s c k)) ∧
     ∀ l t, (reelOf (core s c) reel).hold = .tend l → fenceDone s c 7 l = true → takeOfCore s c = some t →
       let u := setCore s c { core s c with share := .ended }
       ((∃ d ∈ coresOf s t.slot, d ≠ c ∧ (core s d).share ≠ .ended) → exec (.fenceRelease c reel) s = .next u) ∧
       ((∀ d ∈ coresOf s t.slot, d ≠ c → (core s d).share = .ended) → exec (.fenceRelease c reel) s = .next (endTake u t)))

/-- FETCH with an increment of 1 to 65,535 sends its request to the bound counter and its reel goes on, with rd pending until the
answer; TCMT with a good record whose destinations lie in the image's outputs sends its claim in the same way; an increment, record or
destination out of bounds traps, and nothing is sent (R224, R226, R236). The answer of a FETCH is written to rd; a request without its
answer is sent again with its resend bit; a duplicate claim writes 0x0A; a claim out of range traps; a DONE starts the copies, whose end
writes 0 to rd; after REXIT nothing of these reaches rd (R224 to R226, R229). That the copies are made whole when they start is the
model's choice (log 18); what TRAPVAL of these traps holds (log 36), where the PC stands (log 35), and what becomes of the requests of a
reel that has ended (log 73) are its readings. -/
def Obligations.CounterInstructions : Prop :=
  ((∀ q rd ra rb dev num k s, runs q (.fetch q rd ra rb dev num) s → boundCtr s q.core dev num = some k →
     let c := q.core
     let r := runningReel s c
     let inc := (r.get ra).toNat
     ((inc = 0 ∨ 65535 < inc) → trapsAt q (.fetch q rd ra rb dev num) s 0x0D inc 0) ∧
     (1 ≤ inc → inc ≤ 65535 → ∃ t, exec (.fetch q rd ra rb dev num) s = .next t ∧ frameCore s t c [csqBase c + 0x48] ∧
       runningReel t c = r.next 2 ∧ (core t c).ctrReqs = (core s c).ctrReqs ++
         [csqRequest s c rd false k ((r.get rb).toNat % 65536) inc []])) ∧
   ∀ q rd ra rb dev num k s, runs q (.tcmt q rd ra rb dev num) s → boundCtr s q.core dev num = some k →
     let c := q.core
     let r := runningReel s c
     let a := (r.get rb).toNat
     let b := sramReads s c a 64
     (¬(a < 2 ^ 24 ∧ a % 64 = 0 ∧ commitBad b = false) → trapsAt q (.tcmt q rd ra rb dev num) s 0x0F a 0) ∧
     (a < 2 ^ 24 → a % 64 = 0 → commitBad b = false →
       (∀ g, (commitRanges b).find? (fun g => !commitDst s c g) = some g → trapsAt q (.tcmt q rd ra rb dev num) s 0x10 g.2.2 0) ∧
       ((∀ g ∈ commitRanges b, commitDst s c g = true) → ∃ t, exec (.tcmt q rd ra rb dev num) s = .next t ∧
         frameCore s t c [csqBase c + 0x48] ∧ runningReel t c = r.next 2 ∧ (core t c).ctrReqs = (core s c).ctrReqs ++
           [csqRequest s c rd true k 0 ((r.get ra).toNat % 2 ^ 32) (commitRanges b)]))) ∧
  (∀ (c reel rd : Nat) (s : State), c < 208 → reel < 8 → rd < 32 → fast s = true → (core s c).fenced = false →
     let x := core s c
     let give := fun (r : CtrReq) (v : W64) => setCore s c (dropReq (withReel x reel ((reelOf x reel).set rd v)) r.id)
     let change := fun (r : CtrReq) (f : CtrReq → CtrReq) => setCore s c (modReq x r.id f)
     (∀ r v, findReq x reel rd (fun r => !r.tcmt && r.answer.isSome && !r.killed) = some r → r.answer = some v →
       exec (.fetchAnswer c reel rd) s = .next (give r (BitVec.ofNat 64 v))) ∧
     (∀ r, findReq x reel rd (fun r => !r.copying && !r.killed) = some r →
       exec (.counterResend c reel rd) s = .next (change r fun r => { r with resent := true })) ∧
     (∀ r, findReq x reel rd (fun r => r.tcmt && r.answer.isSome && !r.copying) = some r →
       (r.killed = false → r.answer = some 0x0A → exec (.tcmtAnswer c reel rd) s = .next (give r 0x0A)) ∧
       (r.killed = false → r.answer = some 0x0E →
         exec (.tcmtAnswer c reel rd) s = .next (trapCore (setCore s c (dropReq x r.id)) c 0x0E r.arg 0 reel r.pc)) ∧
       (r.killed = true → r.answer ≠ some 0 → exec (.tcmtAnswer c reel rd) s = .next (setCore s c (dropReq x r.id))) ∧
       (r.answer = some 0 → exec (.tcmtAnswer c reel rd) s =
         .next (commitCopies (change r fun r => { r with copying := true }) c r.ranges))) ∧
     ∀ r, findReq x reel rd (fun r => r.copying) = some r →
       (r.killed = false → exec (.tcmtCopyDone c reel rd) s = .next (give r 0)) ∧
       (r.killed = true → exec (.tcmtCopyDone c reel rd) s = .next (setCore s c (dropReq x r.id))))

/-- CSRR of a register of the core's block or of its die's common block reads it into rd, and ends the command with ADDR_UNMAPPED where
no register lies; CSRW writes ra[31:0] to a CSQ_AL register and changes no other register, nor anything else of any core but its reel
(R7, R232, R319). What a CSRW does to a command's bound (R289) is not stated here. -/
def Obligations.CsrInstructions : Prop :=
  (∀ q rd imm v s, runs q (.csrr q rd imm) s → csrRead (bump s (csqBase q.core + 0x48) 1) (ownCsr q.core imm) = some v →
    let c := q.core
    ∃ t, exec (.csrr q rd imm) s = .next t ∧ frameCore { s with free := s.free + 1 } t c [csqBase c + 0x48] ∧
      runningReel t c = ((runningReel s c).set rd v).next 2) ∧
  (∀ q rd imm s, runs q (.csrr q rd imm) s → csrRead (bump s (csqBase q.core + 0x48) 1) (ownCsr q.core imm) = none →
    exec (.csrr q rd imm) s = .next (accessFail (bump s (csqBase q.core + 0x48) 1) q.core .unmapped (ownCsr q.core imm))) ∧
  ∀ q ra imm s, runs q (.csrw q ra imm) s →
    let c := q.core
    ∃ t, exec (.csrw q ra imm) s = .next t ∧ sameBytes s t ∧ (∀ d, d ≠ c → core t d = core s d) ∧
      { core t c with reels := (core s c).reels } = core s c ∧ runningReel t c = (runningReel s c).next 2 ∧
      cget t (coreBase c + imm.toNat) = BitVec.ofNat 64 (((runningReel s c).get ra).toNat % 2 ^ 32) ∧
      ∀ a, a ≠ coreBase c + imm.toNat → a ≠ csqBase c + 0x48 → cget t a = cget s a

/-- A FETCH sends one request, which a resend only marks; a work counter serves it once for each command, core and request ID: the first
time it gives the value before it and adds the increment modulo 2^32; a repeat gives the first's answer and changes nothing (R161, R162,
R224, R225). That a request and its resend are one, served in a row of its own, is the model's choice (log 37). -/
def Obligations.FetchAddOnce : Prop :=
  (∀ (c reel rd : Nat) (s : State) (r : CtrReq), c < 208 → reel < 8 → rd < 32 → fast s = true → (core s c).fenced = false →
    findReq (core s c) reel rd (fun r => !r.tcmt && (r.answer.isNone || r.resent)) = some r →
    let a := fetchAdd (wkcOf s r.ctr) ((core s c).take.elim 0 (·.2)) (lcoreNo (core s c)) r.reqId r.arg
    exec (.wkcFetchAdd c reel rd) s = .next (setCore (setWkc s r.ctr a.2) c
      (if r.killed then dropReq (core s c) r.id else modReq (core s c) r.id fun r => { r with answer := some a.1, resent := false }))) ∧
  (∀ (c reel rd : Nat) (s : State) (r : CtrReq), c < 208 → reel < 8 → rd < 32 → fast s = true → (core s c).fenced = false →
    findReq (core s c) reel rd (fun r => !r.copying && !r.killed) = some r →
    exec (.counterResend c reel rd) s = .next (setCore s c (modReq (core s c) r.id fun r => { r with resent := true }))) ∧
  (∀ q rd ra rb dev num k s, runs q (.fetch q rd ra rb dev num) s → boundCtr s q.core dev num = some k →
    let r := runningReel s q.core
    1 ≤ (r.get ra).toNat → (r.get ra).toNat ≤ 65535 → ∃ t, exec (.fetch q rd ra rb dev num) s = .next t ∧
      (core t q.core).ctrReqs = (core s q.core).ctrReqs ++
        [csqRequest s q.core rd false k ((r.get rb).toNat % 65536) (r.get ra).toNat []]) ∧
  ∀ (w : Wkc) (tag lcore id inc : Nat),
    let a := fetchAdd w tag lcore id inc
    ((∀ e ∈ w.window, ¬(e.tag = tag ∧ e.lcore = lcore ∧ e.reqId = id)) →
      a.1 = w.value ∧ a.2.value = (w.value + inc) % 2 ^ 32 ∧ a.2.ledger = w.ledger ∧ a.2.window.length ≤ max 256 w.window.length) ∧
    ∀ inc', fetchAdd a.2 tag lcore id inc' = (a.1, a.2)

/-- A TCMT sends one claim, and its ledger records a claim once: the first commit of a claim in range is DONE and recorded, a later one
from any core is DUPLICATE_CLAIM, changes nothing, and makes no copies; a claim outside the range is not recorded; the end of the copies
writes 0 to rd (R163, R226, R227). That the copies are made whole when they start is the model's choice (log 18). -/
def Obligations.ClaimOnce : Prop :=
  (∀ (c reel rd : Nat) (s : State) (r : CtrReq), c < 208 → reel < 8 → rd < 32 → fast s = true → (core s c).fenced = false →
    findReq (core s c) reel rd (fun r => r.tcmt && r.answer.isNone) = some r →
    ∃ t, exec (.ledgerCommit c reel rd) s = .next t ∧ wkcOf t r.ctr = (claim (wkcOf s r.ctr) c r.arg).2 ∧
      (∀ k, k ≠ r.ctr → wkcOf t k = wkcOf s k) ∧ sameBytes s t ∧
      core t c = modReq (core s c) r.id fun r' => { r' with answer := some (claim (wkcOf s r.ctr) c r.arg).1, resent := false }) ∧
  (∀ (c reel rd : Nat) (s : State) (r : CtrReq), c < 208 → reel < 8 → rd < 32 → fast s = true → (core s c).fenced = false →
    findReq (core s c) reel rd (fun r => r.tcmt && r.answer.isSome && !r.copying) = some r → r.answer = some 0x0A → r.killed = false →
    ∃ t, exec (.tcmtAnswer c reel rd) s = .next t ∧ sameBytes s t ∧ (rd ≠ 0 → (reelOf (core t c) reel).get rd = 0x0A)) ∧
  (∀ (c reel rd : Nat) (s : State) (r : CtrReq), c < 208 → reel < 8 → rd < 32 → fast s = true → (core s c).fenced = false →
    findReq (core s c) reel rd (fun r => r.copying) = some r → r.killed = false →
    ∃ t, exec (.tcmtCopyDone c reel rd) s = .next t ∧ sameBytes s t ∧ (rd ≠ 0 → (reelOf (core t c) reel).get rd = 0)) ∧
  (∀ q rd ra rb dev num k s, runs q (.tcmt q rd ra rb dev num) s → boundCtr s q.core dev num = some k →
    let a := ((runningReel s q.core).get rb).toNat
    let b := sramReads s q.core a 64
    a < 2 ^ 24 → a % 64 = 0 → commitBad b = false → (∀ g ∈ commitRanges b, commitDst s q.core g = true) →
    ∃ t, exec (.tcmt q rd ra rb dev num) s = .next t ∧ sameBytes s t ∧ (core t q.core).ctrReqs = (core s q.core).ctrReqs ++
      [csqRequest s q.core rd true k 0 (((runningReel s q.core).get ra).toNat % 2 ^ 32) (commitRanges b)]) ∧
  ∀ (w : Wkc) (core' core'' k : Nat),
    let inRange := (k + 2 ^ 32 - w.init) % 2 ^ 32 < 65536
    (¬ inRange → claim w core' k = (0x0E, w)) ∧
    (inRange → (∀ e ∈ w.ledger, e.1 ≠ k) → (claim w core' k).1 = 0 ∧ (claim w core' k).2.ledger = w.ledger ++ [(k, core')] ∧
      (claim w core' k).2.value = w.value ∧
      claim (claim w core' k).2 core'' k = (0x0A, (claim w core' k).2))

/-- An arrival raises its counter by n; beyond 65,535 the count stays there, MU_ERR.BAR_OVF is set and the core that sent it traps with
BAR_OVERFLOW, the counter's place as TRAPVAL. A head waiter whose n the count reaches takes n away and leaves the queue: a reel is held
no longer, a descriptor may start, and the matrix engine's check has reported; a head that lacks more than what deferred prefetches owe
it waits on; a core that only sent an arrival, or made a prefetch that the wait consumes, has nothing changed but the note of it (R131,
R132, R236; the order among prefetches of several cores is the model's choice, log 74). -/
def Obligations.BarrierCounters : Prop :=
  (∀ (k : Nat) (s : State) (a : Arrival), fast s = true → s.fab.arrivals[k]? = some a → a.mu < 4 → a.ctr < 64 →
    let b := barOf (core s a.dst) a.mu a.ctr
    b.count + a.n ≤ 65535 → ∃ t, exec (.barrierArrival k) s = .next t ∧ sameBytes s t ∧
      t.fab.arrivals = s.fab.arrivals.eraseIdx k ∧
      (∀ m n, m < 4 → n < 64 → barOf (core t a.dst) m n =
        if m = a.mu ∧ n = a.ctr then { b with count := b.count + a.n } else barOf (core s a.dst) m n) ∧
      (∀ d, d ≠ a.dst → d ≠ a.src → core t d = core s d) ∧
      (a.src ≠ a.dst → { core t a.src with guards := (core s a.src).guards, xfrs := (core s a.src).xfrs } = core s a.src)) ∧
  (∀ (k : Nat) (s : State) (a : Arrival), fast s = true → s.fab.arrivals[k]? = some a → a.mu < 4 → a.ctr < 64 →
    let b := barOf (core s a.dst) a.mu a.ctr
    65535 < b.count + a.n → ∃ t, exec (.barrierArrival k) s = .next t ∧ sameBytes s t ∧
      (barOf (core t a.dst) a.mu a.ctr).count = 65535 ∧ (cget t (muBase a.dst a.mu + 0x20)).getLsbD 1 = true ∧
      (core t a.src).trapped = true ∧
      ((core s a.src).trapped = false → wbits (cget t (csqBase a.src + 0x10)) 7 0 = 0x0B ∧
        cget t (csqBase a.src + 0x20) = BitVec.ofNat 64 (indexOf (core s a.dst) * 256 + a.mu * 64 + a.ctr))) ∧
  ∀ (c mu ctr n : Nat) (w : Who) (rest : List Waiter) (s : State), c < 208 → mu < 4 → ctr < 64 → fast s = true →
    (core s c).fenced = false → (barOf (core s c) mu ctr).waiters = { who := w, n := n } :: rest →
    (n ≤ (barOf (core s c) mu ctr).count →
      ∃ t, exec (.barrierWaitSatisfy c mu ctr) s = .next t ∧ sameBytes s t ∧
        (∀ d, d ≠ c → { core t d with guards := (core s d).guards, xfrs := (core s d).xfrs } = core s d) ∧
        (barOf (core t c) mu ctr).count = (barOf (core s c) mu ctr).count - n ∧
        (∃ l, (barOf (core t c) mu ctr).waiters = rest ++ l) ∧
        match w with
        | .reel r => (reelOf (core t c) r).hold = .free
        | .desc q => ∀ key, ∀ d ∈ queueOf (core t c) key, d.id = q → d.released = true
        | .mxeCheck => (core t c).mxe.pass = (core s c).mxe.pass.map fun p => { p with checkOk := true }) ∧
    ((barOf (core s c) mu ctr).count + deferredOwed s c mu ctr < n → exec (.barrierWaitSatisfy c mu ctr) s = .next s)

-- The matrix engine (R57 to R84)

/-- A pass starts with the tile at the head of the queue, in the set that is not active, at its own S plus 8 for each raise of its
chain; its set is filled as PRELOAD directs and the schedule of skipped groups is fixed (fillPass); it has not been repeated, and its
check barrier is joined where prediction needs one: the counter's queue gains its waiter, with its n, at the end (R66, R67, R74, R78).
That the sets alternate from set 1 on, over takes too, is the model's choice (log 71). -/
def Obligations.MxePassStarts : Prop :=
  ∀ (c : Nat) (d : QDesc) (s : State), c < 208 → engineLive s c = true → readyHead (core s c) 0 = some d → d.skip = false →
    let x := core s c
    let b := d.bytes
    let set := 1 - x.mxe.activeSet
    let zp := mZp b && (cfgOf s c (mxeBase c)).getLsbD 0
    let chk := zp && decide ((dAuxb b).n ≠ 0)
    x.mxe.pass = none → (∀ q ∈ x.mxe.drains, q.set ≠ set) →
    (chk = true → (barOf x (dAuxb b).mu (dAuxb b).ctr).waiters.length < 32) →
    ∃ t p, exec (.mxePassStart c) s = .next t ∧ sameBytes s t ∧ (core t c).mxe.pass = some p ∧ (core t c).mxe.activeSet = set ∧
      p.desc = d ∧ p.set = set ∧ p.repeats = 0 ∧ p.zp = zp ∧ p.checkOk = !chk ∧
      (chk = true → ∃ l, (barOf (core t c) (dAuxb b).mu (dAuxb b).ctr).waiters =
        (joined (barOf x (dAuxb b).mu (dAuxb b).ctr) { who := .mxeCheck, n := (dAuxb b).n }).waiters ++ l) ∧
      p.s = signed 16 (fld b 20 2) + 8 * (if mChained b then raisesOf s c (fld b 22 2) else 0) ∧
      p.pre = (if mPreload b = 0 then [] else tileCells.map fun x => preEntry s c p x.1 x.2) ∧
      (∀ g t, g < groupsOf p → t < 8 → (8 * g + t ∈ p.sched ↔ zp = true ∧ predicted s c b g t = true)) ∧
      (queueOf (core t c) 0).map (·.bytes) = ((queueOf x 0).map (·.bytes)).tail

/-- A failed range test: an unchained tile runs again at S + 8, filled afresh, at most three times, and then the command ends with
ACCUM_RANGE; a chained tile's take is killed for a retake with one more raise of its chain, at most three for a chain and 64 for a
command (R66, R67, R74). -/
def Obligations.MxeRangeFailures : Prop :=
  ∀ (c : Nat) (p : MxePass) (k : Take) (s : State), c < 208 → engineLive s c = true → (core s c).mxe.pass = some p →
    takeOfCore s c = some k → checked s c p = true → passInRange s c p = false →
    let b := p.desc.bytes
    let q := fillPass s c { p with s := p.s + 8, repeats := p.repeats + 1 }
    let counted := markTags (bump (bump s (mxeBase c + 0x18) 1) (mxeBase c + 0x28) (omitted q)) k.stream k.seq b
    let total := (((findEntry s k.stream k.seq).elim [] (·.raises)).map (·.2)).sum
    (mChained b = false → p.repeats < 3 → exec (.mxeRangeFail c) s = .next (modCore counted c fun x =>
      modMxe x fun m => { m with pass := some q })) ∧
    (mChained b = false → 3 ≤ p.repeats → exec (.mxeRangeFail c) s = .next (accumRange s c b)) ∧
    (mChained b = true → raisesOf s c (fld b 22 2) < 3 → total < 64 → ∃ t, exec (.mxeRangeFail c) s =
      .next (killForRetake t k { status := 5, reason := 2 } false) ∧
      ∀ e, findEntry s k.stream k.seq = some e → ∃ e', findEntry t k.stream k.seq = some e' ∧
        tget 0 e'.raises (fld b 22 2) = tget 0 e.raises (fld b 22 2) + 1) ∧
    (mChained b = true → (3 ≤ raisesOf s c (fld b 22 2) ∨ 64 ≤ total) → exec (.mxeRangeFail c) s = .next (accumRange s c b))

/-- A prediction miss runs the tile again with prediction off at the same S; a pass whose entries are all in range ends with its set
draining and DONE arrived on; a drain writes its rows, frees its set and arrives on DRAINB. An EPILOGUE drain takes the lowest free tile
buffer, which joins the epilogue queue, when it begins, and has not begun while there is none (R72, R73, R78, R97). That all its rows
stand in the buffer at once is the model's reading (log 38). -/
def Obligations.MxePassAndDrainEnd : Prop :=
  ∀ (c : Nat) (s : State), c < 208 → engineLive s c = true →
    (∀ p, (core s c).mxe.pass = some p → isMiss s c p = true → exec (.zpMiss c) s = .next
      (bump (modCore s c fun x => modMxe x fun m => { m with pass := some (fillPass s c { p with zp := false }) }) (mxeBase c + 0x20) 1)) ∧
    (∀ p, (core s c).mxe.pass = some p → settled s c p = true → passInRange s c p = true →
      ∃ t d, exec (.mxePassEnd c) s = .next (arriveRef (beginDrain t c) c p.desc.id p.desc.bytes (dDone p.desc.bytes)) ∧
        t = { modCore s c (fun x => modMxe x fun m => { m with pass := none, drains := m.drains ++ [d], lastRepeats := p.repeats }) with
          free := s.free + if mPreload p.desc.bytes = 3 then 8192 else 0 } ∧
        d.desc = p.desc ∧ d.set = p.set ∧ d.s = p.s ∧ d.tb = none ∧ d.acc.length = 8192 ∧
        ∀ i j, i < 128 → j < 64 → (d.acc.getD (64 * i + j) 0, d.spec.getD (64 * i + j) 0) = cellAcc s c p (i, j)) ∧
    (∀ d rest, (core s c).mxe.drains = d :: rest →
      let fin := fun (t : State) =>
        let u := modCore t c fun x => modMxe x fun m => { m with drains := rest, sLast := d.s }
        let v := if d.drop then modCore u c fun x => freeTbs x d.tb.toList else u
        arriveOut (beginDrain v c) c d.desc.id d.desc.bytes (bref d.desc.bytes 116) (outRanges d.desc)
      (mDrain d.desc.bytes = 0 → d.tb.isSome = true → exec (.mxeDrainEnd c) s = .next (fin s)) ∧
      (mDrain d.desc.bytes = 0 → d.tb = none → exec (.mxeDrainEnd c) s = .next s) ∧
      (mDrain d.desc.bytes = 1 → exec (.mxeDrainEnd c) s = .next (fin (drainStore s c d))) ∧
      (mDrain d.desc.bytes = 2 → exec (.mxeDrainEnd c) s = .next (fin (drainCarry s c d)))) ∧
    (∀ d rest tb, (core s c).mxe.drains = d :: rest → mDrain d.desc.bytes = 0 → d.tb = none → freeTb (core s c).vce = some tb →
      let y := core (beginDrain s c) c
      sameBytes s (beginDrain s c) ∧ (∀ c', c' ≠ c → core (beginDrain s c) c' = core s c') ∧
      y.mxe.drains = { d with tb := some tb } :: rest ∧ y.vce.epi = (core s c).vce.epi ++ [some tb] ∧
      (∀ i, tget 0 y.vce.tbState i = if i = tb then 1 else tget 0 (core s c).vce.tbState i) ∧
      ∀ q, q < 32768 → tget 0 y.vce.tiles q =
        if q / 8192 = tb then r32 (drainValue s c d (q % 8192)) else tget 0 (core s c).vce.tiles q)

/-- When every entry of an element passes the range test and there are at most 2^r of them, no partial sum, in any order, leaves 48 bits,
and the sum is the same in every order (R65, R69); its special state depends only on the set of its products: joining is commutative,
associative and idempotent, Finite is neutral, NaN absorbs, and both infinities make NaN (R62). -/
def Obligations.OrderFree : Prop :=
  (∀ (r : Nat) (l m : List Int), r ≤ 47 → l.length ≤ 2 ^ r → (∀ a ∈ l, inRange r a = true) → m.Perm l →
     (∀ k, ((m.take k).foldl (· + ·) 0).natAbs < 2 ^ 47) ∧ m.foldl (· + ·) 0 = l.foldl (· + ·) 0) ∧
  (∀ a b c : Nat, a < 4 → b < 4 → c < 4 →
     specJoin a b = specJoin b a ∧ specJoin (specJoin a b) c = specJoin a (specJoin b c) ∧ specJoin a a = a ∧
     specJoin 0 a = a ∧ specJoin 3 a = 3 ∧ specJoin 1 2 = 3)

-- Number formats (R27 to R56)

/-- Rounding to nearest, ties to even: the result is one of the two integers around the ratio, no other is nearer, and of two equally
near ones it is the even one (R31, R48, R49, R51). -/
def Obligations.NearestEven : Prop :=
  ∀ n d : Nat, 0 < d →
    (∀ k : Nat, ((rneDiv n d : Int) * d - n).natAbs ≤ ((k : Int) * d - n).natAbs) ∧
    (∀ k : Nat, k ≠ rneDiv n d → ((rneDiv n d : Int) * d - n).natAbs = ((k : Int) * d - n).natAbs → rneDiv n d % 2 = 0)

/-- Every code of a floating-point layout that is neither a NaN nor beyond the layout encodes back from its value: no bit of it is lost
(R29, R31). -/
def Obligations.FormatRoundTrip : Prop :=
  ∀ f ∈ [fp32, fp64, bf16, fp16, e4m3, e5m2, w24, k4], ∀ code : Nat, code < 2 ^ (f.fbits + f.ebits + 1) →
    (f.value code ≠ .nan → ∀ sat, (sat = false ∨ code % 2 ^ (f.fbits + f.ebits) ≤ f.maxCode) → f.encode sat (f.value code) = code) ∧
    (f.value code = .nan ↔ f.maxCode < code % 2 ^ (f.fbits + f.ebits) ∧ f.infCode ≠ some (code % 2 ^ (f.fbits + f.ebits)))

-- The vector and reduction engines (R85 to R121, R247)

/-- A walk starts when its reel runs none and holds no shadow configuration, its scratch buffers are Free, and an epilogue entry and a
tapping reduction are there where it needs them, and otherwise waits; the walk that meets a skip entry of the epilogue queue is skipped;
its next beat issues once its inputs have arrived, and not before; after its last beat its buffers are Free again, one that a drain still
writes at that drain's end, and it completes (R89, R97 to R99, R155, R247). That beats
issue whole, and a waiting one is no step, is the model's choice (log 39). -/
def Obligations.VceWalks : Prop :=
  ∀ (c : Nat) (s : State), c < 208 → engineLive s c = true →
    let x := core s c
    (∀ d, readyHead x 1 = some d → d.skip = false → dKind d.bytes = 0 →
      let b := d.bytes
      let prog := ((vceReel x (dReel b)).conf).getD (zeros 128)
      let usesEpi := namesT prog && (scratchOf b).isEmpty
      let fits := (∀ w ∈ x.vce.walks, dReel w.desc.bytes ≠ dReel b) ∧ (vceReel x (dReel b)).shadow = none ∧
        (∀ i ∈ scratchOf b, tget 0 x.vce.tbState i = 0) ∧ (usesEpi = true → x.vce.epi ≠ []) ∧ (tapOf b = true → redOpen x = true)
      (fits → (usesEpi = true → x.vce.epi.head? ≠ some none) →
        ∃ u w, exec (.vwalkStart c) s = .next (agPostAll u c) ∧ sameBytes s u ∧ (core u c).vce.walks = x.vce.walks ++ [w] ∧
          w.desc = d ∧ w.prog = prog ∧ w.beat = 0 ∧ w.scratch = scratchOf b ∧
          (∀ i ∈ scratchOf b, tget 0 (core u c).vce.tbState i = 2) ∧
          (usesEpi = true → some w.tb = x.vce.epi.head? ∧ (core u c).vce.epi = x.vce.epi.tail)) ∧
      (fits → usesEpi = true → x.vce.epi.head? = some none → exec (.vwalkStart c) s = .next (walkDone (beginDrain (setCore s c
        (let y := takeEpi (popHead x 1) false; if tapOf b then redPair y b true else y)) c) c d [])) ∧
      (¬ fits → exec (.vwalkStart c) s = .next s)) ∧
    (∀ w, (x.vce.walks.find? fun w => dReel w.desc.bytes = tget 0 x.unitReel 1) = some w → w.beat < beatCount w.desc →
      let p := beatPos w.desc w.beat
      (progsReady x (walkIns w.desc.bytes) = true → (∀ i ∈ walkIns w.desc.bytes, dataReady x i (beatLins w.desc p) = true) →
        rowPending x w p = false → progsReady x [strm w.desc.bytes 100] = true →
        exec (.vceBeatIssue c) s = .next (beatOut s c w p (runStages w.prog (beatEnv s c w p) x.vce.caches))) ∧
      (beatWaits x w ≠ 0 → exec (.vceBeatIssue c) s = .next s)) ∧
    (∀ w, (x.vce.walks.find? fun w => beatCount w.desc ≤ w.beat) = some w → ∃ t, exec (.vwalkEnd c) s =
        .next (walkDone (beginDrain t c) c w.desc (outRanges w.desc)) ∧
        (core t c).vce.walks = delFirst (fun q => q.desc.id = w.desc.id) x.vce.walks ∧
        ∀ i, i ∈ (if w.scratch ≠ [] then w.scratch else if w.desc.rows < 128 then w.tb.toList else []) →
          tget 0 (core t c).vce.tbState i = 0 ∨ ∃ e, (core t c).mxe.drains.head? = some e ∧ e.tb = some i ∧ e.drop = true)

/-- A stage program takes effect at once on a reel that has none, and otherwise waits in the reel's shadow slot until the markers of the
old configuration stand at every input and none of its walks or programs runs; VCACHE moves words between a stage cache and an MU once
its input has arrived; the issue of a unit passes to the next reel with input (R89, R94, R152 to R155, R261, R262). What counts as
passed is the model's reading (log 63). -/
def Obligations.ReelConfigurations : Prop :=
  (∀ (c : Nat) (d : QDesc) (s : State), c < 208 → engineLive s c = true → readyHead (core s c) 1 = some d →
     let x := core s c
     let r := vceReel x (dReel d.bytes)
     (dKind d.bytes = 1 → r.conf = none → ∃ t, exec (.vprogApply c) s = .next (arriveRef t c d.id d.bytes (dDone d.bytes)) ∧
       vceReel (core t c) (dReel d.bytes) = { r with conf := some d.bytes }) ∧
     (dKind d.bytes = 1 → r.conf ≠ none → r.shadow = none → ∃ t, exec (.vprogApply c) s = .next t ∧ sameBytes s t ∧
       vceReel (core t c) (dReel d.bytes) = { r with shadow := some d }) ∧
     (dKind d.bytes = 1 → r.conf ≠ none → r.shadow ≠ none → exec (.vprogApply c) s = .next s) ∧
     (dKind d.bytes = 2 → x.vce.walks = [] → progsReady x [strm d.bytes 24] = true →
       let t := strm d.bytes 24
       let st := bits (fld d.bytes 16 1) 2 0
       let w0 := fld d.bytes 18 2
       let n := fld d.bytes 20 4
       let done := fun (s : State) (rs : List (Nat × Nat)) => arriveOut (modCore s c fun x => popHead x 1) c d.id d.bytes (dDone d.bytes) rs
       let scale := coarse s c t.fmt t.scale
       (fld d.bytes 17 1 = 0 → dataReady x t (List.range n) = true →
         let words := (List.range n).map fun i => strmElem s c n t scale 0 i i
         exec (.vcache c) s = .next (finishProgs (done (modCore s c fun x => modVce x fun v =>
           { v with caches := words.zipIdx.foldl (fun cs e => cachePut cs st (w0 + e.2) e.1) v.caches }) []) c [t] true fun _ => n)) ∧
       (fld d.bytes 17 1 = 0 → dataReady x t (List.range n) = false → exec (.vcache c) s = .next (agPostAll s c)) ∧
       (fld d.bytes 17 1 ≠ 0 →
         let raws := (List.range n).map fun i => encodeElem 0 true false scale 127 (cacheGet x.vce.caches st (w0 + i))
         exec (.vcache c) s = .next (feedProg (done (writeElems c t 0 0 0 raws s) (if t.agp then [] else [(t.addr, 4 * n)])) c t true n)))) ∧
  (∀ (c : Nat) (s : State), c < 208 → engineLive s c = true →
     let x := core s c
     (∀ reel d, reel < 8 → (vceReel x reel).shadow = some d →
       ((vceReel x reel).drained = true → (∀ w ∈ x.vce.walks, dReel w.desc.bytes ≠ reel) →
         ∃ t, exec (.reelGenSwitch c 0 reel) s = .next (arriveRef t c d.id d.bytes (dDone d.bytes)) ∧
           vceReel (core t c) reel = { conf := some d.bytes, gen := !(vceReel x reel).gen }) ∧
       ((vceReel x reel).drained = false → exec (.reelGenSwitch c 0 reel) s = .next s)) ∧
     (∀ unit reel d, 1 ≤ unit → unit < 9 → reel < 8 →
       let mu := (unit - 1) / 2
       let ag := (unit - 1) % 2
       let r : GenReel := tget {} x.agReels (agReelKey mu ag reel)
       r.shadow = some d →
       (r.drained = true → agReelDone x mu ag reel = true → threadsFree x mu d.bytes = true →
         let r' : GenReel := { conf := some d.bytes, gen := !r.gen }
         exec (.reelGenSwitch c unit reel) s =
           .next (agStart (setCore s c { x with agReels := tput (agReelKey mu ag reel) r' x.agReels }) c mu d)) ∧
       (r.drained = false → exec (.reelGenSwitch c unit reel) s = .next s)) ∧
     (x.share = .running → x.trapped = false →
       exec (.reelSwitch c 0) s = .next (setCore s c { x with running := (nextReel s c).getD x.running })) ∧
     (∀ r, x.share = .running → ((List.range 7).map fun i => (tget 0 x.unitReel 1 + 1 + i) % 8).find? (unitInput s c 1) = some r →
       exec (.reelSwitch c 1) s = .next (setCore s c { x with unitReel := tset 0 x.unitReel 1 r })) ∧
     ∀ mu ag r, mu < 4 → ag < 2 → x.share = .running → ((List.range 7).map fun i => (tget 0 x.unitReel (2 + 2 * mu + ag) + 1 + i) % 8).find?
         (unitInput s c (2 + 2 * mu + ag)) = some r →
       exec (.reelSwitch c (2 + 2 * mu + ag)) s = .next (agPostAll (bump
         (setCore s c { x with unitReel := tset 0 x.unitReel (2 + 2 * mu + ag) r }) (muBase c mu + 0x48) 1) c))

/-- A skip entry keeps its place: with nothing earlier of its engine under way it arrives on DONE, and a tile's on DRAINB, without
running its engine; a skipped EPILOGUE tile leaves a skip entry in the epilogue queue: no byte of memory changes (R247). -/
def Obligations.SkippedDescriptors : Prop :=
  (∀ (c sub eng : Nat) (d : QDesc) (s : State), c < 208 → engineLive s c = true → eng ∈ [2, 3, 4, 5, 6] →
    (if eng = 3 ∨ eng = 6 then sub < 4 else sub = 0) → readyHead (core s c) (queueOfEng eng sub) = some d → d.skip = true →
    (eng = 2 → (core s c).red.run = none) → (eng = 3 → threadsFree (core s c) sub d.bytes = true ∧
      (tget {} (core s c).agReels (agReelKey sub (agSel d.bytes) (dReel d.bytes))).shadow = none) →
    ∃ t, exec (.descSkipRun c eng sub) s = .next (arriveRef t c d.id d.bytes (dDone d.bytes)) ∧ sameBytes s t ∧
      (queueOf (core t c) (queueOfEng eng sub)).length + 1 = (queueOf (core s c) (queueOfEng eng sub)).length) ∧
  (∀ (c : Nat) (d : QDesc) (s : State), c < 208 → engineLive s c = true → readyHead (core s c) 0 = some d → d.skip = true →
    ((core s c).mxe.pass = none → (core s c).mxe.drains = [] →
      ∃ t, exec (.descSkipRun c 0 0) s = .next (arriveRef (arriveRef t c d.id d.bytes (dDone d.bytes)) c d.id d.bytes (bref d.bytes 116)) ∧
        sameBytes s t ∧ (core t c).vce.epi = (core s c).vce.epi ++ (if mDrain d.bytes = 0 then [none] else [])) ∧
    ((core s c).mxe.pass ≠ none ∨ (core s c).mxe.drains ≠ [] → exec (.descSkipRun c 0 0) s = .next s)) ∧
  ∀ (c : Nat) (d : QDesc) (s : State), c < 208 → engineLive s c = true → readyHead (core s c) 1 = some d → d.skip = true →
    (core s c).vce.epi ≠ [] → (vceReel (core s c) (dReel d.bytes)).shadow = none →
    (∀ w ∈ (core s c).vce.walks, dReel w.desc.bytes ≠ dReel d.bytes) → (tapOf d.bytes = true → redOpen (core s c) = true) →
    ∃ t, exec (.descSkipRun c 1 0) s = .next (walkDone (beginDrain t c) c d []) ∧ sameBytes s t ∧ (core t c).vce.walks = (core s c).vce.walks

/-- A reduction starts with its input in, or with the walk it taps; with every input in, the records of its outputs are written at its
destination, the program it read completes, and DONE is arrived on (R110 to R117, R244, R264). MERGE beside TAP, and the empty record of an output beyond
the extents, are the model's readings (log 40). -/
def Obligations.Reductions : Prop :=
  ∀ (c : Nat) (s : State), c < 208 → engineLive s c = true →
    let x := core s c
    (∀ d, readyHead x 2 = some d → d.skip = false → x.red.run = none → progsReady x [strm d.bytes 52] = true →
      (tapOf d.bytes = true → ∃ t, exec (.redReduce c) s = .next t ∧ sameBytes s t ∧
        (core t c).red.run = some { desc := d, walk := none, beats := [], closed := false }) ∧
      (tapOf d.bytes = false → redInput s c d = true → ∃ t, exec (.redReduce c) s = .next t ∧ sameBytes s t ∧
        (core t c).red.run = some
          { desc := d, walk := some d.bytes, beats := (if rMerge d.bytes then [] else (redStream s c d).1), closed := true } ∧
        cget t (redBase c + 0x10) = BitVec.ofNat 64 (((cget s (redBase c + 0x10)).toNat + (redCounts s c d).1) % 2 ^ 48) ∧
        cget t (redBase c + 0x18) = BitVec.ofNat 64 (((cget s (redBase c + 0x18)).toNat + (redCounts s c d).2) % 2 ^ 48)) ∧
      (tapOf d.bytes = false → redInput s c d = false → exec (.redReduce c) s = .next (agPostAll s c))) ∧
    (∀ r w, x.red.run = some r → r.closed = true → r.walk = some w →
      let l := if rMerge r.desc.bytes ∧ ¬ tapOf r.desc.bytes then mergeResults s c r.desc else results r.desc.bytes w r.beats
      let u := sramWrites s c (bits (fld r.desc.bytes 72 4) 23 0) l
      let u := modCore u c fun x => { x with red := { x.red with run := none } }
      exec (.redResult c) s = .next (arriveOut (finishProgs u c [strm r.desc.bytes 52] true fun _ => 0) c r.desc.id r.desc.bytes
        (dDone r.desc.bytes) [(bits (fld r.desc.bytes 72 4) 23 0, l.length)]))

-- Address generators and transfers (R126 to R129, R156 to R159, R266 to R268, R364)

/-- An address-generator program starts at once on a reel without a configuration, and otherwise waits in its shadow slot; a returned
read takes its place in its program's stream and leaves the table; a returned piece is moved, with its watch, and leaves the table, a
coded frame with its last piece; a piece puts its bytes, or what the converter makes of a slow-tier slice, at its destination, and every
byte outside is as before (R55, R126, R128, R156, R194, R262, R266, R268). Where converted codes and their scale bytes lie is the model's
choice (log 75). -/
def Obligations.MemoryStreams : Prop :=
  ((∀ (c mu : Nat) (d : QDesc) (s : State), c < 208 → mu < 4 → engineLive s c = true → readyHead (core s c) (8 + mu) = some d →
     d.skip = false →
     let x := core s c
     let k := agReelKey mu (agSel d.bytes) (dReel d.bytes)
     let r : GenReel := tget {} x.agReels k
     (r.conf = none → threadsFree x mu d.bytes = true →
       exec (.agProgram c mu) s = .next (agStart (setCore s c (popHead x (8 + mu))) c mu d)) ∧
     (r.conf = none → threadsFree x mu d.bytes = false → exec (.agProgram c mu) s = .next s) ∧
     (r.conf ≠ none → r.shadow = none → ∃ t, exec (.agProgram c mu) s = .next t ∧ sameBytes s t ∧
       tget {} (core t c).agReels k = { r with shadow := some d })) ∧
   (∀ (c k : Nat) (q : Req) (g : AgRun) (s : State), c < 208 → engineLive s c = true → (core s c).reqs[k]? = some q → q.xfr = false →
     findAg (core s c) q.id = some g → exec (.requestReturn c k) s =
       .next (agReturn (setCore s c { core s c with reqs := (core s c).reqs.eraseIdx k }) c g q)) ∧
   ∀ (c k : Nat) (q : Req) (r : XfrRun) (s : State), c < 208 → engineLive s c = true → (core s c).reqs[k]? = some q →
     q.xfr = true → findXfr (core s c) q.id = some r → xDir r.desc.bytes < 2 →
     let b := r.desc.bytes
     let watched := fun (t : State) (a len : Nat) => if xGuard b then modCore t c fun x => watchPiece x q.id a len else t
     (∀ t, xCodec b = false → movePiece s c b q = .ok t → exec (.requestReturn c k) s =
       .next (pieceDone (watched t (xSrc b + q.row * xSpitch b + q.off) q.len) c q)) ∧
     (xCodec b = true → frameIn (core s c) r q = false → exec (.requestReturn c k) s = .next (pieceDone s c q)) ∧
     (∀ t, xCodec b = true → frameIn (core s c) r q = true → xDir b = 0 → loadFrame s b (frameReq b q) = .ok t →
       exec (.requestReturn c k) s = .next (pieceDone (watched t (xSrc b + (xAux b + q.off / 65536) * frameSlot) frameSlot) c q)) ∧
     (∀ t, xCodec b = true → frameIn (core s c) r q = true → xDir b = 1 → storeFrame s b (frameReq b q) = .ok t →
       exec (.requestReturn c k) s = .next (pieceDone t c q))) ∧
  (∀ (s t : State) (c : Nat) (b : List Byte) (q : Req), movePiece s c b q = .ok t → q.off + q.len ≤ xLen b →
     let src := xSrc b + q.row * xSpitch b + q.off
     let row := xDst b + q.row * xDpitch b
     let raw := latched s c src (devReads s src q.len)
     (pieceKind s c b q = none → devReads t (row + q.off) raw.length = raw ∧
       ∀ a, a < row + q.off ∨ row + q.off + raw.length ≤ a → devByte t a = devByte s a) ∧
     ∀ k, pieceKind s c b q = some k →
       let codes := convertCodes k raw
       let scales := convertScales k raw
       devReads t (row + codesOff k q.off) codes.length = codes ∧ devReads t (row + scalesOff b q.off) scales.length = scales ∧
       ∀ a, (a < row + codesOff k q.off ∨ row + codesOff k q.off + codes.length ≤ a) →
         (a < row + scalesOff b q.off ∨ row + scalesOff b q.off + scales.length ≤ a) → devByte t a = devByte s a)

/-- A transfer starts: one whose address kinds are wrong fails; one that names a landing bound to another PEER or KEY is denied; a
remote one over a queue pair that is down times out; a first write to a landing opens it; a versioned read asks for its version word; a
guarded load takes an entry or is deferred; others post their pieces. A SEAL of an open landing sends its control record once, of none
completes at once, and of one that its dead queue pair lost ends the command (R156, R158, R159, R268, R358, R364). The last holds by the
model's reading also of a landing aborted before any SEAL (log 76). -/
def Obligations.TransfersStart : Prop :=
  ∀ (c : Nat) (d : QDesc) (k : Take) (s : State), c < 208 → engineLive s c = true → readyHead (core s c) 4 = some d →
    takeOfCore s c = some k →
    let x := core s c
    let b := d.bytes
    let taken := setCore s c (xfrTake x (xfrNew d false))
    (xDir b ≠ 4 → kindFault x b = none →
      (xDir b = 2 → otherLanding k b = true → exec (.xfrStart c) s = .next (remoteDenied s c b)) ∧
      (2 ≤ xDir b → (xDir b = 2 → otherLanding k b = false) → qpLive s (xPeer b) = false →
        exec (.xfrStart c) s = .next (remoteTimeout s c b)) ∧
      (xDir b = 2 → otherLanding k b = false → qpLive s (xPeer b) = true → boundTo k (xLanding b) = none →
        landingRoom s (xPeer b) = true → keyBusy s (xPeer b) (xKey b) = false →
        exec (.xfrStart c) s = .next (xfrPost tableSize (openLanding taken c k b) c d.id)) ∧
      (xDir b = 2 → otherLanding k b = false → qpLive s (xPeer b) = true → boundTo k (xLanding b) ≠ none →
        exec (.xfrStart c) s = .next (xfrPost tableSize taken c d.id)) ∧
      (xDir b = 3 → qpLive s (xPeer b) = true → xVers b = true → exec (.xfrStart c) s = .next (askVersion taken c 0 d)) ∧
      ((xDir b < 2 ∨ (xDir b = 3 ∧ qpLive s (xPeer b) = true ∧ xVers b = false)) → xGuard b = false →
        exec (.xfrStart c) s = .next (xfrPost tableSize taken c d.id)) ∧
      (xDir b < 2 → xGuard b = true →
        let lo := xSrc b + (if xCodec b then xAux b * frameSlot else 0)
        let len := if xCodec b then cdiv (xLen b) 65536 * frameSlot else (xRows b - 1) * xSpitch b + xLen b
        let g := guardFor s c (xfrMu b) d (dAuxb b) 0 lo len
        let y := xfrTake x (xfrNew d g.isNone)
        exec (.xfrStart c) s = .next (xfrPost tableSize
          (setCore s c { y with guards := y.guards ++ [g.getD (deferredNote s c d (dAuxb b) 0)] }) c d.id))) ∧
    (∀ e, xDir b ≠ 4 → kindFault x b = some e → exec (.xfrStart c) s = .next (accessFail s c e.2 e.1)) ∧
    (xDir b = 4 →
      let lost := fun (n peer : Nat) => endOfCore s c fun t => { landingLost t n peer with lcore := lcoreNo x }
      (otherLanding k b = true → exec (.xfrSeal c) s = .next (remoteDenied s c b)) ∧
      (otherLanding k b = false → landingNo s k (xLanding b) = none →
        (∀ l, boundTo k (xLanding b) = some l → l.done = false → qpLive s l.peer = false →
          exec (.xfrSeal c) s = .next (lost l.landing l.peer)) ∧
        ((∀ l, boundTo k (xLanding b) = some l → l.done = true ∨ qpLive s l.peer = true) → exec (.xfrSeal c) s =
          .next (arriveRef (setCore s c (popHead x 4)) c d.id b (dDone b)))) ∧
      (∀ l, otherLanding k b = false → landingNo s k (xLanding b) = some l →
        (qpLive s l.peer = false → exec (.xfrSeal c) s = .next (lost l.landing l.peer)) ∧
        (qpLive s l.peer = true → l.sealing = true → exec (.xfrSeal c) s = .next s) ∧
        (qpLive s l.peer = true → l.sealing = false → ∃ t, exec (.xfrSeal c) s = .next (sendControl t l 2) ∧
          ∃ l' ∈ t.net.landings, l'.landing = l.landing ∧ l'.peer = l.peer ∧ l'.key = l.key ∧ l'.sealing = true)))

/-- A transfer whose bytes are in place, and a versioned one whose second reading is there, leaves the running ones and arrives on DONE;
a released versioned read asks for its version word again, or ends its command with TIMEOUT_REMOTE over a dead queue pair; a stale
prefetch under way starts over, and one whose data had come is read again and then arrives; each is counted in MU_EVT_REISSUE (R157,
R159, R244, R358). That all of it is read again is the model's reading (log 41). -/
def Obligations.TransfersEnd : Prop :=
  ∀ (c : Nat) (s : State), c < 208 → engineLive s c = true →
    let x := core s c
    (∀ k r, x.xfrs[k]? = some r → r.moved = true → (xVers r.desc.bytes = false ∨ r.vers2 ≠ none) → exec (.xfrComplete c k) s =
      .next (arriveOut (setCore s c { x with xfrs := x.xfrs.eraseIdx k }) c r.desc.id r.desc.bytes (dDone r.desc.bytes) (outRanges r.desc))) ∧
    (∀ k r, x.xfrs[k]? = some r → xVers r.desc.bytes = true → r.moved = true → r.consumed = true → r.vers2 = none →
      qpLive s (xPeer r.desc.bytes) = true →
      (∀ m ∈ (qp s (xPeer r.desc.bytes)).sendq ++ (qp s (xPeer r.desc.bytes)).held, m.kind ≠ .readReq c r.desc.id versRow 1) →
      exec (.versionReread c k) s = .next (askVersion s c 1 r.desc)) ∧
    (∀ k r, x.xfrs[k]? = some r → xVers r.desc.bytes = true → r.moved = true → r.consumed = true → r.vers2 = none →
      qpLive s (xPeer r.desc.bytes) = false →
      (∀ m ∈ (qp s (xPeer r.desc.bytes)).sendq ++ (qp s (xPeer r.desc.bytes)).held, m.kind ≠ .readReq c r.desc.id versRow 1) →
      exec (.versionReread c k) s = .next (remoteTimeout s c r.desc.bytes)) ∧
    ∀ mu g e r, mu < 4 → g < 64 → (x.guards.filter fun e => e.home = mu ∧ e.len ≠ 0)[g]? = some e → e.stale = true →
      findXfr x e.desc.id = some r →
      (r.moved = true → ∀ t, reread (bump s (muBase c mu + 0x30) 1) c e = .ok t → ∃ u, exec (.staleNotice c mu g) s =
        .next (prefetchIn u c e.desc.id e.read e.desc.bytes) ∧ sameBytes t u) ∧
      (r.moved = false → ∃ t, exec (.staleNotice c mu g) s = .next (xfrPost tableSize t c e.desc.id) ∧
        cget t (muBase c mu + 0x30) = BitVec.ofNat 64 (((cget s (muBase c mu + 0x30)).toNat + 1) % 2 ^ 48) ∧
        ∃ r', findXfr (core t c) e.desc.id = some r' ∧ r'.row = 0 ∧ r'.off = 0)

-- The crossing fabric (R135 to R151, R270)

/-- A flit moves one hop toward its router in a packet slot, gives its arrival at that router's local port, and waits while its link has
no packet slot; the pending timetable bank becomes the active one when it changes no running take's slots, and not before; a circuit
with a slot carries the head item that waits on it, an arrival among them once the words before it have gone, or else a word of the
sending MU with the tags of its reel to its receiver (R133, R136, R139 to R141, R143, R154). Which circuit an arrival takes, and which
words go before it (log 72, log 42), and that the packet lane carries arrivals alone (log 37), is the model's reading. -/
def Obligations.FabricMoves : Prop :=
  (∀ (k : Nat) (f : Flit) (s : State), fast s = true → s.fab.flits[k]? = some f →
    let fab := s.fab
    (f.at_ = f.dst → hasPacketSlot s (.port f.at_ 4) = true → exec (.packetFlit k) s =
      .next { s with fab := { fab with flits := fab.flits.eraseIdx k, arrivals := fab.arrivals ++ [f.arrival] } }) ∧
    (f.at_ = f.dst → hasPacketSlot s (.port f.at_ 4) = false → exec (.packetFlit k) s = .next s) ∧
    ∀ h, f.at_ ≠ f.dst → nextHop s true f.at_ f.dst = some h →
      (hasPacketSlot s (.port f.at_ h.1) = true → exec (.packetFlit k) s =
        .next { s with fab := { fab with flits := fab.flits.set k { f with at_ := h.2 } } }) ∧
      (hasPacketSlot s (.port f.at_ h.1) = false → exec (.packetFlit k) s = .next s)) ∧
  (∀ s : State, fast s = true → s.fab.pending = true →
    ((∀ t ∈ s.intake.takes, bankSettled s t.slot = true) →
      exec .timetableSwitch s = .next { s with fab := { s.fab with activeB := !s.fab.activeB, pending := false } }) ∧
    ((∃ t ∈ s.intake.takes, bankSettled s t.slot = false) → exec .timetableSwitch s = .next s)) ∧
  ∀ (slot circuit srcOff dstOff reel : Nat) (gen mark : Bool) (r : List Byte) (src : Nat) (s : State),
    slot < 256 → reel < 8 → routeOf (slotOf s slot).img circuit = some r → coreAtIndex s slot (fld r 2 1) = some src →
    engineLive s src = true → hasSlot s slot circuit = true →
    let smu := bits (fld r 3 1) 1 0
    let key := 4096 * slot + circuit
    let waiting := tget [] s.fab.circ key
    let front := frontGoes waiting
    let word := sramReads s src (smu * muBytes + srcOff / 64 * 64 % muBytes) 64
    let own : Item := { data := word, reel := reel, gen := gen, mark := mark }
    let q : Item := if front then waiting.headD own else own
    let sent := if front then { s with fab := { s.fab with circ := tset [] s.fab.circ key waiting.tail } }
      else wordWent s key (srcOff / 64 % 65536) word
    let run := exec (.circuitWord slot circuit srcOff dstOff reel gen mark) s
    (front = false → tagsOk (core s src) smu reel gen mark = false → run = .next s) ∧
    ((front = false → tagsOk (core s src) smu reel gen mark = true) →
      (∀ a, q.arr = some a → run = .next { sent with fab := { sent.fab with arrivals := sent.fab.arrivals ++ [a] } }) ∧
      ∀ dst mu cd, q.arr = none → receiversOf (slotOf s slot).img r = [(dst, mu)] → coreAtIndex s slot dst = some cd →
        (∀ t, deliverItem sent cd mu circuit dstOff q = some t → run = .next t) ∧
        (deliverItem sent cd mu circuit dstOff q = none → run = .next s))

/-- A steering unit: the first op of a take is in force at once and a later one waits; the head token takes one item of its input to the
output that its op selects, once that output is free, and is used up after its count; markers of one generation at every head make one
on every output and bring the waiting op; a watchdog that expires on a head without its pair is reported once (R142 to R147, R270). That
one item may wait at an output is the model's choice (log 42). -/
def Obligations.SteeringUnits : Prop :=
  ∀ (c k : Nat) (s : State), c < 208 → k < 4 → engineLive s c = true →
    let x := core s c
    let u := stuOf x k
    (∀ d, readyHead x (16 + k) = some d → u.held = false → exec (.steerApply c k) s = .next
      (arriveRef (setCore s c (withStu (popHead x (16 + k)) k { u with desc := d.bytes, held := true })) c d.id d.bytes (dDone d.bytes))) ∧
    (∀ d, readyHead x (16 + k) = some d → u.held = true → u.next = none → exec (.steerApply c k) s =
      .next (setCore s c (withStu (popHead x (16 + k)) k { u with next := some d }))) ∧
    (∀ tok q, u.held = true → stuPair? u = some (tok, q) →
      let left := (if u.left = 0 then bits tok.toNat 15 8 + 1 else u.left) - 1
      let out := if sOp u.desc = 0 then sOut u.desc (tok.toNat % 4) else if sOp u.desc = 1 ∨ tok.toNat % 2 = 1 then sOut u.desc 0 else 0xFFFF
      (outFree s c out = true → ∃ u', exec (.stuPair c k) s = .next (emitItem (setCore s c (withStu x k u')) c out q) ∧
        u'.left = left ∧ u'.desc = u.desc ∧ u'.held = true ∧ u'.next = u.next ∧ u'.cq = (if left = 0 then u.cq.tail else u.cq) ∧
        tget [] u'.dq (stuInput u tok) = (tget [] u.dq (stuInput u tok)).tail ∧
        ∀ j, j ≠ stuInput u tok → tget [] u'.dq j = tget [] u.dq j) ∧
      (outFree s c out = false → exec (.stuPair c k) s = .next s)) ∧
    (∀ g, u.held = true → stuMarkers u = some g → (∀ j < 4, outFree s c (sOut u.desc j) = true) →
      let tok := (u.cq.headD 0).toNat
      let m : Item := { data := leBytes 4 tok ++ zeros 60, reel := bits tok 29 27, gen := g, mark := true }
      ∃ u', u'.cq = u.cq.tail ∧ u'.desc = (match u.next with | some d => d.bytes | none => u.desc) ∧ u'.next = none ∧
        let t := (List.range 4).foldl (fun t j => emitItem t c (sOut u.desc j) m) (setCore s c (withStu x k u'))
        exec (.stuDrainMarker c k) s =
          .next (match u.next with | some d => arriveRef t c d.id d.bytes (dDone d.bytes) | none => t)) ∧
    ∀ p, takeOfCore s c = some p → u.held = true → (u.cq ≠ [] ∨ ∃ e ∈ u.dq, e.2 ≠ []) → stuPair? u = none → stuMarkers u = none →
      (u.episode = false → exec (.steerStall c k) s = .next (interim
        (setCore s c (withStu x k { u with stalled := true, episode := true })) p.stream p.seq
        { status := 0x12, lcore := lcoreNo x, detail := k })) ∧
      (u.episode = true → exec (.steerStall c k) s = .next s)

/-- A multicast serves the receivers that lag, then sends its next tile; when every tile is sent it arrives on DONE, and when every
detached receiver has fetched its tiles it ends (R148 to R151). The place of a held tile (log 21), and that a detached
receiver fetches its tiles in this row (log 42), are the model's. -/
def Obligations.Multicast : Prop :=
  ∀ (c : Nat) (s : State), c < 208 → engineLive s c = true →
    let rs := fun (m : Mcast) => groupRecvs (imgOf s c) (bits (fld m.desc.bytes 16 1) 5 0)
    let fin := fun (m n : Mcast) (t : State) =>
      let t := if sentAll (rs m) n ∧ ¬ n.done then arriveRef t c n.desc.id m.desc.bytes (dDone m.desc.bytes) else t
      let n' : Mcast := { n with done := n.done || sentAll (rs m) n }
      modCore t c fun x => { x with mcasts := if sentAll (rs m) n ∧ fetchedAll n then [] else [n'] }
    (∀ m rest u n v t, (core s c).mcasts = m :: rest → serveLagging c (rs m) m (setCore s c (core s c)) = .ok (u, n) →
      sendTile c (rs m) n u = .ok (t, v) → exec (.mcastTileSend c) s = .next (fin m v t)) ∧
    ∀ d u n v t, (core s c).mcasts = [] → readyHead (core s c) 5 = some d →
      let m : Mcast := { desc := d, tile := 0, held := [], detached := [], done := false }
      serveLagging c (rs m) m (setCore s c (popHead (core s c) 5)) = .ok (u, n) → sendTile c (rs m) n u = .ok (t, v) →
        exec (.mcastTileSend c) s = .next (fin m v t)

-- Memory controllers and calibration (R173 to R201, R405 to R413, R426, R427)

/-- An access of a command through a controller completes, and takes its memory out of self-refresh: the bytes are written, with every
other byte as before, and a read changes nothing but what the ECC of its word shows; one that its test refuses meets no ECC and ends the
command. Background work of a Ready memory changes no byte, a fill ends poison and makes none, and a memory that nothing needs enters
self-refresh and leaves it again (R169, R173, R175, R176, R180, R188, R198, R199, R424, R426, R427). That an access and the exit it
waits for are one step (log 50), and what the ECC of its word shows (log 58), is the model's choice. -/
def Obligations.MemoryControllers : Prop :=
  (∀ (a : Nat) (data : List Byte) (ecc st k : Nat) (s : State), st < 256 → ctlOf a = some k → memRun s = true → data ≠ [] →
     a / 64 = (a + data.length - 1) / 64 →
     let n := data.length
     let u := readyCtl s k
     let put := ∃ t, exec (.ctrlAccess true a data ecc st) s = .next t ∧ devReads t a n = data ∧ (ctl t k).state ≠ .selfRefresh ∧
       ∀ b, b < a ∨ a + n ≤ b → devByte t b = devByte s b
     let seen := if unfilled u a then u else meetEcc u k a ecc
     (writeTest u a n = .done → wholeWords a n = true → put) ∧
     (writeTest u a n = .done → wholeWords a n = false → writeTest seen a n = .done → put) ∧
     (readTest u a n = .done → readTest seen a n = .done → exec (.ctrlAccess false a data ecc st) s = .next seen) ∧
     (∀ r, r ≠ .done → readTest u a n = r → exec (.ctrlAccess false a data ecc st) s = .next (streamAccessFail u st r a)) ∧
     (∀ r, r ≠ .done → writeTest u a n = r → exec (.ctrlAccess true a data ecc st) s = .next (streamAccessFail u st r a)) ∧
     meetEcc s k a 0 = s ∧ meetEcc s k a 1 = bump s (memBase k + 0x18) 1 ∧
     (a / 32 * 32 ∈ (meetEcc s k a 2).poison ∨ (ctl (meetEcc s k a 2) k).state = .failed)) ∧
  (∀ (write : Bool) (a : Nat) (data : List Byte) (ecc st : Nat) (s : State), st < 256 → ctlOf a = none → memRun s = true → data ≠ [] →
     a / 64 = (a + data.length - 1) / 64 → rangeMapped s a data.length = false →
     exec (.ctrlAccess write a data ecc st) s = .next (streamAccessFail s st .unmapped a)) ∧
  (∀ (k : Nat) (s : State), k < 80 →
     (backgroundOk s k = true →
       (∃ t, exec (.refresh k) s = .next t ∧ sameBytes s t ∧ t.poison = s.poison ∧ (ctl t k).refreshes = (ctl s k).refreshes + 1) ∧
       (∀ a ecc, ctlOf a = some k → (cget s (memBase k)).getLsbD 0 = true → ecc ≠ 2 → ∃ t, exec (.scrub k a ecc) s = .next t ∧
         sameBytes s t ∧ t.poison = s.poison) ∧
       (∀ a, ctlOf a = some k → (cget s (memBase k)).getLsbD 0 = true → a / 32 * 32 ∉ s.poison →
         exec (.scrub k a 2) s = .next (foundUncorr (bump (maybeSteal s k) (memBase k + 0x28) 1) k a 2)) ∧
       (∀ temp, ∃ t, exec (.telemetryRead k temp) s = .next t ∧ sameBytes s t ∧ t.poison = s.poison ∧
         ctl t k = { ctl s k with temp := temp }) ∧
       (16 ≤ k → (ctl s k).filling = true → ∃ t, exec (.lpcFill (k - 16)) s = .next t ∧ sameBytes s t ∧ (∀ w ∈ t.poison, w ∈ s.poison) ∧
         ((ctl s k).filled < pkgRegions → (ctl s k).filled < (ctl t k).filled) ∧
         ((ctl t k).filling = false ↔ pkgRegions ≤ (ctl t k).filled)) ∧
       (fast s = true → (cget s 0x140000).getLsbD 1 = true → heldByTake s k = false → keepsAwake s k = false →
         exec (.selfRefreshEnter k) s = .next (setCtl s k { ctl s k with state := .selfRefresh, exiting := false }))) ∧
     (fast s = true → (ctl s k).state = .selfRefresh → ((ctl s k).exiting = true ∨ heldByTake s k = true) →
       exec (.selfRefreshExit k) s = .next (setCtl s k { ctl s k with state := .ready, exiting := false })))

/-- Calibration completes: a step on an eye of a group that leaves its memory in use measures the eye's margin and moves its setting by at
most one tap, toward the eye's centre, when tracking is on or the interface retrains, and leaves the group's other eye as it is; a probe's
margin stands in the lane's register, and the third low one in a row makes the lane Retraining; a snapshot keeps every setting and the
module's identity, beside the one before it (R405 to R409, R412). How steps and probes come with their measurements is the model's form
(log 62), as is what the snapshot of final test holds. -/
def Obligations.Calibration : Prop :=
  (∀ (k g margin centre ecc : Nat) (write : Bool) (s : State), k < 80 → g < groupCount k → backgroundOk s k = true →
    (write = true ∨ commandGroup k g = false) → (channelRetrains s k g = false ∨ (groupOf s k g).retrain.isSome = true) →
    let t := calStep s k g write margin centre ecc
    let moves := channelRetrains s k g = true ∨ calCfg s 0 0 = 1
    let eye := fun (x : CalGroup) (w : Bool) => if w then x.write else x.read
    exec (.calStep k (2 * g + if write then 1 else 0) margin centre ecc) s = .next t ∧
    ((ctl t k).state ≠ .failed → (moves ∨ write = false) →
      eye (groupOf t k g) write = { setting := (eye (groupOf s k g) write).setting + (if moves then tapMove s centre else 0), margin := some margin } ∧
      eye (groupOf t k g) (!write) = eye (groupOf s k g) (!write)) ∧
    (¬ moves → write = true → t = s)) ∧
  (∀ (s : State) (centre : Nat), let c := signed 6 centre
    (c.natAbs < calCfg s 15 8 → tapMove s centre = 0) ∧
    (calCfg s 15 8 ≤ c.natAbs → (c - tapMove s centre).natAbs = c.natAbs - 1)) ∧
  (∀ (l margin : Nat) (s : State), l < 136 → fast s = true → calCfg s 1 1 = 1 → (port s (lanePort l)).state = .up → margin < 256 →
    ∃ t, exec (.serdesProbe l margin) s = .next t ∧ sameBytes s t ∧
      let low := if margin < calFloor s then tget 0 s.cal.laneLow l + 1 else 0
      let w := cget t (calIfAddr (80 + l))
      wbits w 47 40 = margin ∧ wbits w 39 32 = margin ∧ wbits w 63 62 = (if 3 ≤ low then 2 else 1) ∧ tget 0 t.cal.laneLow l = low) ∧
  ∀ s : State, fast s = true → calCfg s 2 2 = 1 → s.cal.changed = true → s.cal.lastSnapKc + 60 * secondKc ≤ s.kc →
    ∃ t, exec .calSnapshot s = .next t ∧ sameBytes s t ∧ t.cal.changed = false ∧ t.cal.lastSnapKc = s.kc ∧
      t.cal.snapOld = (if s.cal.snapFactory then { s.cal.snapshot with identity := moduleIdentity s } else s.cal.snapshot) ∧
      t.cal.snapFactory = false ∧ t.cal.snapArea = 1 - s.cal.snapArea ∧
      t.cal.snapshot = { valid := true, identity := moduleIdentity s, settings := eyeSettings s }

-- Power, SMBus and observability (R422 to R432, R444 to R447, R509, R510)

/-- A placed idle core naps, wakes and is then in Run where a take that has had its head moment wants it, and else Idle; a wake from Off
clears its SRAM; a power reading moves PWR_KC on by 250 and stands in the registers (R422, R423, R430; that PWR_KC moves with the readings is
the model's choice, log 3). SMBus completes while the keeper rail is up: SET_PTR, READ with its packet error code, CLR_ALERT and the alert
response (R444 to R447; the code's polynomial is taken from the SMBus specification, log 2). A sample of a die's enabled points, six to a record, enters
the staging buffer of its ring; with no point or no ring there is none, and one to a ring in a failed memory is dropped (R510 to R513). That a
READ of no register keeps the pointer (log 66), and in which state a wake ends (log 59), are the model's readings. -/
def Obligations.PowerAndSmbus : Prop :=
  ((∀ (c : Nat) (s : State), c < 208 → fast s = true →
     let x := core s c
     (x.power = .idle → x.place.isSome = true → x.waking = false → x.napping = false → (cget s 0x140000).getLsbD 0 = true →
       exec (.coreNap c) s = .next (setCore s c { x with napping := true })) ∧
     (x.napping = true → exec (.napEntryDone c) s = .next (setCore s c { x with napping := false, power := .nap })) ∧
     (x.waking = true → x.napping = false → x.fenced = false → ∃ t, exec (.coreWake c) s = .next t ∧
       core t c = { x with waking := false, power := if x.place.any fun p => slotWanted s p.slot then .run else .idle } ∧
       (x.power ≠ .off → sameBytes s t) ∧ (x.power = .off → ∀ o, o < 0x1000000 → memRead t.sram (sramKey c o) = 0))) ∧
   ∀ (watts : Nat) (temps : List Nat) (input bank : Nat) (s : State), temps.length = 10 → s.drl.rails = true →
     ∃ t, exec (.powerReading watts temps input bank) s = .next t ∧ t.kc = (s.kc + 250) % 2 ^ 64 ∧
       wbits (cget t 0x140020) 15 0 = watts % 65536 ∧ wbits (cget t 0x100020) 15 0 = input % 65536 ∧
       wbits (cget t 0x100020) 31 16 = bank % 65536) ∧
  ((∀ s : State, keeperUp s = true →
     (∀ v : W32, v.toNat % 8 = 0 → v.toNat < 2 ^ 28 → exec (.setPtr v) s = .next (modDrl s fun d => { d with smbPtr := v.toNat })) ∧
     (∀ v, smbAllowed s s.drl.smbPtr = true → csrRead s s.drl.smbPtr = some v → exec .smbRead s =
       .next (modDrl s fun d => { d with smbOut := leBytes 8 v.toNat, smbPec := pec (blockRead 0x02 (leBytes 8 v.toNat)),
                                         smbPtr := (s.drl.smbPtr + 8) % 2 ^ 28 })) ∧
     (smbAllowed s s.drl.smbPtr = false → exec .smbRead s = .next (modDrl s fun d => { d with smbOut := [], smbPec := pec (blockRead 0x02 []) })) ∧
     (∀ v, ∃ t, exec (.clrAlert v) s = .next t ∧ cget t 0x100010 = cget s 0x100010 &&& ~~~v ∧
       { t with csr := s.csr } = s) ∧
     exec .alertResponse s =
       .next (modDrl s fun d => { d with smbOut := if cget s 0x100010 &&& cget s 0x100018 ≠ 0 then [0x58] else [] }) ∧
     exec .smbusClockLowTimeout s = .next s) ∧
   ∀ (d : Nat) (s : State), d < 10 → fast s = true → (cget s (obsCfgReg d)).getLsbD 0 = true →
     (points s d = [] ∨ areaLen (cget s (obsRingReg d)) = 0 → exec (.obsSample d) s = .next s) ∧
     (points s d ≠ [] → areaLen (cget s (obsRingReg d)) ≠ 0 → ringLost s d = true → exec (.obsSample d) s = .next (dropSample s d)) ∧
     (points s d ≠ [] → areaLen (cget s (obsRingReg d)) ≠ 0 → ringLost s d = false →
       exec (.obsSample d) s = .next (stageRecords (takeFree s).2 d ((inSixes (sampleAll s d (points s d))).map fun e =>
         (1, e.2.length, e.1, e.2.flatten)))))

-- Command records and streams (R293, R298 to R312, R337, R378)

/-- A slot that a message touched is examined: what is no record stays as it is; a foreign one, one behind NEXT and one too far ahead
are counted; one ahead waits; the one at NEXT is taken when there is room (R293, R298). Taking it moves NEXT on and makes a logbook
entry; an illegal record ends with MALFORMED (R299); a legal one is ACCEPTED, a RUN or STEP with room reserved for its commit list
(R300, R302); a RESUME on a Halted stream acts at once (R311). The places of
the record store are the model's choice (log 78). -/
def Obligations.CommandRecords : Prop :=
  (∀ (st sl : Nat) (s : State), st < 256 → sl < 256 → ready s = true →
    let n := slotNo st sl
    (n ∈ s.intake.touched → exec (.commandRecord st sl) s =
      .next (examine (modIntake s fun x => { x with touched := x.touched.filter (· ≠ n) }) st sl)) ∧
    (n ∈ s.intake.waitingRec → sl = (stream s st).next % 256 → exec (.waitingRecordAccept st) s = .next (examine s st sl))) ∧
  (∀ (st sl : Nat) (s : State),
    let n := slotNo st sl
    let b := windowSlot s st sl
    let x := stream s st
    let seq := fld b 8 6
    let mine := fld b 0 1 = 1 ∧ fld b 1 1 = st ∧ seq % 256 = sl ∧ x.state ≠ .closed ∧ x.state ≠ .closing ∧ fld b 24 4 = x.skey
    (isRecord b = false → examine s st sl = noWait s n) ∧
    (isRecord b = true → ¬ mine → examine s st sl = bump (noWait s n) 0x200018 1) ∧
    (isRecord b = true → mine → seq < x.next → examine s st sl = bump (noWait s n) 0x200010 1) ∧
    (isRecord b = true → mine → x.next + 255 < seq → examine s st sl = bump (noWait s n) 0x200018 1) ∧
    (isRecord b = true → mine → x.next < seq → seq ≤ x.next + 255 → n ∈ (examine s st sl).intake.waitingRec ∧
      (examine s st sl).intake.log = s.intake.log) ∧
    (isRecord b = true → mine → seq = x.next → hasRoom s st b = true → examine s st sl = takeRecord (noWait s n) st b) ∧
    (isRecord b = true → mine → seq = x.next → hasRoom s st b = false → n ∈ (examine s st sl).intake.roomWait ∧
      (examine s st sl).intake.log = s.intake.log)) ∧
  ∀ (st : Nat) (b : List Byte) (s : State),
    let e := { newEntry s st b .accepted with bodyAt := storePlace s (fld b 3 1 - 1) }
    let u := setStream (modIntake s fun x => { x with log := x.log ++ [e], orders := x.orders + 1 }) st
      { stream s st with next := fld b 8 6 + 1 }
    (legal st b = false → takeRecord s st b = finish (bump u 0x200020 1) st (fld b 8 6) { status := 3 }) ∧
    (legal st b = true → fld b 2 1 ≠ 5 ∨ (stream s st).state ≠ .halted →
      let v := if fld b 2 1 = 1 ∨ fld b 2 1 = 2 then modIntake u fun x => { x with reserved := x.reserved + 130 } else u
      takeRecord s st b = settle (interim v st (fld b 8 6) { status := 1 }) st) ∧
    (legal st b = true → fld b 2 1 = 5 → (stream s st).state = .halted →
      takeRecord s st b = resumeNow (interim u st (fld b 8 6) { status := 1 }) st (fld b 8 6) (fld b 64 6))

/-- What the commands that need no take do at their turn completes: RUN and STEP have their head moment, which wakes their placement and
begins the exit of the memories that they need;
LOAD reads and places its image; UNLOAD empties its slot; MARK ends with DONE, and RESUME on a stream that is not Halted with
STATE_CONFLICT; OPEN opens its target, CLOSE closes it (R311, R312, R337, R424). Head
moments within one power reading (log 77), the order of LOADs (log 81) and of what waits at the loader (log 23) are the model's choice. -/
def Obligations.CommandTurns : Prop :=
  ∀ (st : Nat) (e : Entry) (s : State), st < 256 →
    (∀ cls, cls = 1 ∨ cls = 2 → turnOf s st cls = some e → e.head = false → headBar s e = none →
      let slot := slotOfHandle e.handle
      (slotOf s slot).state ≠ .moving → slotBusy s slot = false → waitersOf s slot = [] →
      exec (if cls = 1 then .run st else .stepCmd st) s =
        .next (modIntake (wakeFor (modEntry s e.stream e.seq fun q =>
          { q with head := true, headKc := s.kc, headNo := s.intake.orders + 1 }) e) fun x => { x with orders := s.intake.orders + 1 })) ∧
    (turnOf s st 3 = some e → waitsAtLoader s e = false → nextLoad s e = true → exec (.load st) s = .next (startLoad s e)) ∧
    (turnOf s st 4 = some e → handleOk s e.handle = true → slotBusy s (slotOfHandle e.handle) = false →
      waitersOf s (slotOfHandle e.handle) = [] → exec (.unload st) s = .next (done (emptySlot s (slotOfHandle e.handle)) e)) ∧
    (turnOf s st 5 = some e → exec (.resume st) s = .next (conflict s e 6)) ∧
    (turnOf s st 6 = some e → exec (.mark st) s = .next (done s e)) ∧
    (turnOf s st 7 = some e →
      let n := fld e.body 64 1
      let x := stream s n
      let y : Stream := { state := .idle, next := x.journal.getD (fld e.body 80 6), qp := fld e.body 68 4 - 0x100000,
                          skey := fld e.body 72 4, ckey := fld e.body 76 4 }
      (x.state = .closed → bit (fld e.body 65 1) 0 = false → exec (.openStream st) s =
        .next (done (journaledOutcomes (setStream s n y) n) e)) ∧
      (x.state ≠ .closed → bit (fld e.body 65 1) 0 = true → exec (.openStream st) s = .next (done (rewriteAll (setStream s n
        { x with qp := fld e.body 68 4 - 0x100000, skey := fld e.body 72 4, ckey := fld e.body 76 4 }) n x.qp) e))) ∧
    (turnOf s st 8 = some e →
      let n := fld e.body 64 1
      let x := stream s n
      x.state ≠ .closed → x.state ≠ .closing → x.state ≠ .halted → exec (.closeStream st) s =
        .next (tryCloseStream (setStream (modEntry s e.stream e.seq fun q => { q with state := .running }) n
          { x with state := .closing }) n)) ∧
    ∀ k w, s.loader.waiting[k]? = some w → ready s = true → (s.loader.due.head? = some w ∨
        (s.loader.due = [] ∧ s.intake.takes = [] ∧ (s.loader.waiting.find? (· ∈ s.loader.forLen)) = some w)) →
      let u := takeTurn s w
      (∀ n, w = .moving n → exec (.loadRetry k) s = .next (tryMoving u n)) ∧
      ∀ ld seq n img q, w = .load ld seq n img → findEntry u ld seq = some q → exec (.loadRetry k) s = .next (tryLoad u q n img)

-- Operations on stream 0 and of the pool (R355, R359, R368 to R375, R473, R491 to R501)

/-- An operation whose checks hold takes effect whole and ends with DONE: GIVE, TAKE, ADOPT, RELEASE, QPSET, KEYSET, EPOCH, SA. A region
that is given was Open and is Pool; one that is taken back was Pool and is Open; no other region changes (R189, R370, R374, R375). All or none of
its entries, in their order, is the model's choice (log 25). -/
def Obligations.StreamOperations : Prop :=
  (∀ (st op cls : Nat) (e : Entry) (s t : State), st < 256 → turnOf s st cls = some e → fld e.body 64 1 = op →
    (cls = 9 → op = 1 → allOrNone giveRegion s (poolRegions e.body) = some t → exec (.give st) s = .next (done t e)) ∧
    (cls = 9 → op = 2 → allOrNone takeBackRegion s (poolRegions e.body) = some t → exec (.takeBack st) s = .next (done t e)) ∧
    (cls = 9 → op = 3 → adoptRun s (fld e.body 72 8) = some t → s.cen.runs.length < 16 → exec (.adopt st) s = .next (done t e)) ∧
    (cls = 9 → op = 4 → ∀ r, (s.cen.runs.find? fun r => r.runtab = fld e.body 72 8) = some r → runBusy s r = false →
      exec (.release st) s = .next (done (releaseRun s r) e)) ∧
    (cls = 10 → op = 1 → allOrNone qpsetEntry s (manEntries e.body 64) = some t →
      (fld e.body 158 1 = 0 → exec (.qpsetSet st) s = .next (done t e)) ∧
      (fld e.body 158 1 = 1 → exec (.qpsetReset st) s = .next (done t e))) ∧
    (cls = 10 → op = 2 → allOrNone keysetEntry s (manEntries e.body 32) = some t →
      (bit (fld e.body 133 1) 7 = false → exec (.keyset st) s = .next (done t e)) ∧
      (bit (fld e.body 133 1) 7 = true → exec (.keyRevoke st) s = .next (done t e))) ∧
    (cls = 10 → op = 3 →
      let x : EpochSt :=
        { num := fld e.body 128 4, self := fld e.body 132 4, fromStep := fld e.body 136 8, members := bitmapMembers e.body }
      epochOk s x = true → exec (.epoch st) s = .next (done { s with net := { s.net with staged := some x } } e)) ∧
    (cls = 10 → op = 4 → allOrNone saEntry s (manEntries e.body 96) = some t → exec (.sa st) s = .next (done (wipeSak t e) e))) ∧
  ∀ (s t : State) (g : Nat),
    (giveRegion s g = some t → regionState s g = 0 ∧ ∀ h, regionState t h = if h = g then 1 else regionState s h) ∧
    (takeBackRegion s g = some t → regionState s g = 1 ∧ ∀ h, regionState t h = if h = g then 0 else regionState s h)

/-- Firmware, attestation, identity and freezes: FW_WRITE puts an image that passes its checks into the slot that does not run, FW_ACTIVATE
programs a record of one that does with the next generation (one that fails ends with the check that failed, or with FW_SLOT), ATTEST signs with the next leaf, IDSET writes its record, and FREEZE commits and begins its freeze (R473,
R491 to R501); that the clocks stop within that step is the model's choice (log 2). -/
def Obligations.SecurityOperations : Prop :=
  ∀ (st : Nat) (e : Entry) (s : State), st < 256 → e.stream = 0 →
    (turnOf s st 10 = some e → fld e.body 64 1 = 5 →
      let slot := fld e.body 128 1
      let src := fld e.body 136 8 % 2 ^ 48
      ∀ img, openRange s src (fld e.body 144 4) = true → readMem s src (fld e.body 144 4) = (.done, img) →
        fwLen img = fld e.body 144 4 → slot ≠ s.sec.slot → exec (.fwWrite st true) s =
          .next (if fwCheck s img = 0 then
              done (noteSlot (flashProg (flashErase (flashErase s (fwBase slot) 0x400000) (fwRecords slot) 0x10000)
                (fwBase slot) img) slot) e
            else imageConflict s e (fwCheck s img))) ∧
    (turnOf s st 10 = some e → fld e.body 64 1 = 6 →
      let slot := fld e.body 128 1
      let gen := max (slotGen s 0 % 2 ^ 31) (slotGen s 1 % 2 ^ 31) + 1
      let word := gen % 2 ^ 31 + 2 ^ 31 * b2n (bit (fld e.body 129 1) 0)
      ∀ i, freeRecord s slot = some i → exec (.fwActivate st true) s =
        .next (if fwCheck s (fwImage s slot) = 0 then
            done (noteSlot (flashProg (noteSlot s slot) (fwRecords slot + 64 * i)
              (withCrc (leBytes 4 word ++ leBytes 1 slot ++ zeros 55) 60)) slot) e
          else conflict (noteSlot s slot) e 0x62)) ∧
    (∀ ok, turnOf s st 10 = some e → fld e.body 64 1 = 7 → s.sec.leaf < s.sec.blockEnd →
      exec (.attest st ok) s = .next (attestSign s e) ∧
      (s.sec.leaf + 1 < s.sec.blockEnd → (attestSign s e).sec.leaf = s.sec.leaf + 1)) ∧
    (turnOf s st 10 = some e → fld e.body 64 1 = 8 → exec (.idset st true) s =
      .next (done (flashProg (flashErase s identBase 0x10000) identBase (identRecord (flashErase s identBase 0x10000)
        (slice e.body 128 92))) e)) ∧
    ∀ action, turnOf s st 11 = some e → fld e.body 64 1 = action → (action = 1 ∨ action = 2) →
      exec (if action = 1 then .freezeThaw st else .freezeReset st) s = .next (freezeCmd s e) ∧
      (freezeCmd s e).drl.frz = .reading ∧ (freezeCmd s e).drl.frzCmd = action ∧ (freezeCmd s e).drl.frzCause = 2

-- Takes (R304, R313 to R320, R334 to R347, R378)

/-- The head command of a stream, past its head moment, starts its take when its placement is placed, free and awake, its turn has come
and no switch of the timetable ahead changes its slots; a STEP latches its epoch and roots first (R141, R313, R339, R378, R424). A take
beyond the 65,535th ends the command with STATE_CONFLICT, and a retake whose cut cannot be read with DATA_LOSS (R176, R313). -/
def Obligations.TakesStart : Prop :=
  ∀ (st : Nat) (e : Entry) (s : State), headEntry s st = some e →
    let slot := slotOfHandle e.handle
    let x := slotOf s slot
    ready s = true → e.hasTake = true → e.head = true → (stream s st).state ≠ .halted → slotBusy s slot = false →
    x.state = .placed → isTurn s e = true → slotAwake s slot = true → memsAwake s e = true → bankSettled s slot = true →
    (65535 ≤ e.take → exec (.takeStart st) s = .next (finish s st e.seq { status := 2, reason := 8 })) ∧
    (∀ a, e.take < 65535 → cutLost s x slot e = some a →
      exec (.takeStart st) s = .next (finish (logLoss s .dataLoss a) st e.seq { status := 7, detail := a % 2 ^ 48 })) ∧
    (e.take < 65535 → cutLost s x slot e = none →
      (e.cls = 1 → exec (.takeStart st) s = .next (beginTake s e none none)) ∧
      (e.cls ≠ 1 → ∀ r y, stepRun s e = some r →
        let ep := latchEpoch s e.step
        stepChecks (adoptEpoch s ep) r (stepOf (adoptEpoch s ep) r e ep) = .ok y →
        exec (.takeStart st) s = .next (beginTake (adoptEpoch s ep) e ep (some y))))

/-- An ended take whose landings are all sealed commits: a RUN at once, a STEP with its verdict (and, for an update, every SIGNS and every
update that it publishes); a take that ended with a Final status ends its command with it (R317 to R319, R394). -/
def Obligations.TakesCommit : Prop :=
  ∀ (st : Nat) (e : Entry) (t : Take) (s : State), headEntry s st = some e → takeOfCmd s st e.seq = some t → ready s = true →
    t.ended = true → t.killed = false → landingsOf s st e.seq = [] →
    (∀ f, t.final = some f → exec (.commit st) s = .next (endFinal s t f)) ∧
    (t.final = none → e.cls = 1 → exec (.commit st) s = .next (commitTake s e t 0 [])) ∧
    (t.final = none → e.cls ≠ 1 → ∀ r x, runById s t.run = some r → stepSt s t.run e.step = some x →
      (x.verdict = 2 → exec (.commit st) s = .next (commitTake s e t 9 [])) ∧
      (∀ ups, x.verdict ≠ 2 → runLost s r = none → hasSigns r x = true → toPublish s r e.step = some ups →
        exec (.commit st) s = .next (commitTake s e t 0 ups)))

/-- What else happens to a take: a core's trap report reaches the intake, which kills the take and ends its command with STATE_CONFLICT and
the trap's cause and place, and has no effect after a kill or of a fenced core; a deadline that passes kills it and ends the command with reason 0x41; a killed take leaves once its cores
are clear, and a core that does not report clear is fenced; the oldest completion is written again; a waiting update's room is tested
again; a cut that every core has reached is recorded once its landings are sealed, with the take's tag, and every core goes on (R192,
R235, R237, R304, R334, R337, R344). -/
def Obligations.TakeEvents : Prop :=
  (∀ (c : Nat) (s : State), c < 208 → fast s = true →
    let x := core s c
    let w := cget s (csqBase c + 0x10)
    (x.trapped = true → x.fenced = false → (x.share = .running ∨ x.share = .ended) →
      exec (.trapReport c) s = .next (endOfCore s c fun _ =>
        { status := 2, reason := 1, lcore := lcoreNo x, pc := wbits (cget s (csqBase c + 0x18)) 14 0,
          detail := wbits w 7 0 + wbits w 31 16 * 65536, value := (cget s (csqBase c + 0x20)).toNat })) ∧
    (x.fenced = true ∨ x.share = .clearing → exec (.trapReport c) s = .next s)) ∧
  ((∀ (st : Nat) (e : Entry) (s : State), headEntry s st = some e → ready s = true → e.hasTake = true → e.head = true → e.deadline ≠ 0 →
     (∀ t, takeOfCmd s st e.seq = some t → t.ended = false) → exec (.deadlinePassed st) s =
       .next (killAndEnd (bump s 0x200048 1) st e.seq { status := 2, reason := 0x41 })) ∧
   (∀ (slot : Nat) (t : Take) (s : State), slot < 256 → (s.intake.takes.find? fun t => t.slot = slot ∧ t.killed) = some t →
     ready s = true → exec (.placementClear slot) s = .next (freeTake s t)) ∧
   (∀ (c : Nat) (s : State), c < 208 → fast s = true → (core s c).share = .clearing →
     exec (.coreClearTimeout c) s = .next (fenceCore s c 2)) ∧
   (∀ (st : Nat) (e : Entry) (s : State), st < 256 → ready s = true →
     let q := stream s st
     ((liveOf s st).find? fun e => ((qp s q.qp).sendq ++ (qp s q.qp).held).any fun m => m.kind = .completion st e.seq) = some e →
     exec (.completionRewrite st) s = .next (send s q.qp (.completion st e.seq) q.ckey (fld e.body 16 8) e.comp)) ∧
   ∀ (run shard : Nat) (r : Run) (u : Update) (s : State), s.cen.runs[run]? = some r → activeUpdate s r shard .waiting = some u →
     ready s = true → exec (.poolReservationRetry run shard) s = .next (reserveUpdate s u)) ∧
  (∀ (st k c : Nat) (cs : List Nat) (e : Entry) (t : Take) (s : State), headEntry s st = some e → takeOfCmd s st e.seq = some t →
     coresOf s t.slot = c :: cs → cutOf s c = some k → ready s = true → t.killed = false → allAtCut s t.slot k = true →
     landingsOf s st e.seq = [] →
     ∃ u, exec (.cutRecorded st) s = .next u ∧ sameBytes s u ∧ (∀ d ∈ c :: cs, (reelOf (core u d) 0).hold = .free) ∧
       ∀ q, findEntry s st e.seq = some q → findEntry u st e.seq = some { q with cut := k, cutHalf := nextHalf q, cutTag := t.tag })

-- The network (R348 to R368)

/-- A packet that passes the tests of R356, at its PSN: a write is performed and acknowledged, a read is answered, a control record
takes effect, an unknown opcode and a write that does not fit its message get a NAK Invalid Request, and an access that is refused a NAK
Remote Access Error; a packet that fails the tests is dropped and counted; a duplicate is not performed again; one ahead of its PSN gets
a NAK once (R351 to R353, R356, R361 to R363). That a duplicate is not performed again and that a read takes a PSN for each packet of
its answer are the model's choices (log 60, log 16), as is that the tests of access look at all that is still to come of a message (log
56). -/
def Obligations.InboundRequests : Prop :=
  ∀ (m : Pkt) (s : State), m.port < 20 → fast s = true → (port s m.port).state = .up →
    let f := noteFrame s m
    let u := followPort (answerCe f m) m
    let x := qp u m.qp
    let v := setQp u m.qp { x with nakOut := false }
    let d := psnFrom x.rcvPsn m.psn
    ((pktPasses s m = false ∨ 4352 ≤ m.qp) → ∀ op key va data len,
      exec (.rxRdmaWrite m op key va data) s = .next (bump f (netBase + 0x200) 1) ∧
      exec (.rxRdmaReadRequest m key va len) s = .next (bump f (netBase + 0x200) 1)) ∧
    (pktPasses s m = true → m.qp < 4352 →
      (∀ op key va data, d ≠ 0 → 2 ^ 23 ≤ d → exec (.rxRdmaWrite m op key va data) s = .next (sendAck u m.qp m.psn)) ∧
      (∀ op key va data, d ≠ 0 → d < 2 ^ 23 → x.nakOut = true → exec (.rxRdmaWrite m op key va data) s = .next u) ∧
      (∀ op key va data, d ≠ 0 → d < 2 ^ 23 → x.nakOut = false → exec (.rxRdmaWrite m op key va data) s =
        .next (sendNak (setQp u m.qp { x with nakOut := true }) m.qp x.rcvPsn 0)) ∧
      (d = 0 → ∀ op key va data,
        let first := op = 0x06 ∨ op = 0x0A
        let more := op = 0x06 ∨ op = 0x07
        let k := if first then key else x.rxKey
        let a := if first then va else x.rxVa
        let left := if first then m.dma else x.rxLeft
        (writeFits x op data.length left = false → exec (.rxRdmaWrite m op key va data) s = .next (nakInvalid v m)) ∧
        ∀ w, writeFits x op data.length left = true →
          (writeAccess v m.qp k a left data (decide (op = 0x0A)) = (false, w) → exec (.rxRdmaWrite m op key va data) s = .next (nakAccess w m)) ∧
          (writeAccess v m.qp k a left data (decide (op = 0x0A)) = (true, w) → exec (.rxRdmaWrite m op key va data) s = .next (sendAck
            (passPsn (wrote w m.qp (if more then some (k, a + data.length, left - data.length) else none)) m.qp 1) m.qp m.psn))) ∧
      (d = 0 → ∀ kind key rec w, fld rec 0 1 = kind → x.rxKey = 0 → rec.length ≤ qpMtu x → m.dma = rec.length →
        writeAccess v m.qp key 64 m.dma rec true = (true, w) →
        let t := sendAck (passPsn (wrote w m.qp none) m.qp 1) m.qp m.psn
        (kind = 1 → exec (.rxControlOpen m key rec) s = .next t) ∧ (kind = 2 → exec (.rxControlSeal m key rec) s = .next t) ∧
        (kind = 3 → exec (.rxControlAbort m key rec) s = .next t)) ∧
      (d = 0 → ∀ key va len t, x.rxKey = 0 → len ≤ 2 ^ 31 →
        (readAccess v m.qp key va len = (none, t) → exec (.rxRdmaReadRequest m key va len) s = .next (nakAccess t m)) ∧
        ∀ b, readAccess v m.qp key va len = (some b, t) → exec (.rxRdmaReadRequest m key va len) s =
          .next (answer (passPsn t m.qp (max 1 (cdiv len (qpMtu (qp t m.qp))))) m.qp
            { kind := .readResp, psn := m.psn, key := 0, va := va, data := b })) ∧
      (d = 0 → ∀ op, opcodeKnown op = false → exec (.rxInvalidRequest m op) s = .next (nakInvalid v m)))

/-- What an answer from a peer does: an ACK retires everything up to its PSN; a NAK goes back, or puts the queue pair into Error; a read
answer that is the next expected is taken; a CNP is counted and cuts the rate (R351, R358, R366). The
numbering of a read answer's packets (log 16) and how far a NAK goes back (log 26) are the model's readings. -/
def Obligations.InboundAnswers : Prop :=
  ∀ (m : Pkt) (s : State), m.port < 20 → m.qp < 4352 → fast s = true → (port s m.port).state = .up → pktPasses s m = true →
    let u := followPort (answerCe (noteFrame s m) m) m
    let x := qp u m.qp
    (∀ d, sentAt x m.psn = some d →
      let v := retireMsgs u m.qp (ackedBefore x d)
      exec (.rxAck m) s = .next (retireMsgs u m.qp (ackedBefore x (d + 1))) ∧
      exec (.rxNak m 0) s = .next (goBack v m.qp) ∧
      exec (.rxNak m 1) s = .next (errorQp v m.qp (some (nakMet (qp v m.qp) m.psn))) ∧
      exec (.rxNak m 2) s = .next (errorQp v m.qp (some (nakMet (qp v m.qp) m.psn))) ∧
      ∀ f l data, (qp v m.qp).sendq = f :: l → isRead f = true →
        m.psn = (f.psn + (qp v m.qp).rxData.length / qpMtu (qp v m.qp)) % 2 ^ 24 →
        exec (.rxReadResponse m data) s = .next (takeAnswer v m.qp f data)) ∧
    (sentAt x m.psn = none → ∀ kind data, exec (.rxAck m) s = .next u ∧ exec (.rxNak m kind) s = .next u ∧
      exec (.rxReadResponse m data) s = .next u) ∧
    (rateOn u = false → exec (.rxCnp m) s = .next (bump u (netBase + 0x218) 1)) ∧
    (rateOn u = true → exec (.rxCnp m) s =
      .next (setQp (bump u (netBase + 0x218) 1) m.qp (cnpCut (bump u (netBase + 0x218) 1) x)))

/-- Timers and ports: a queue pair whose ACK timer runs out sends again while it has retries, then moves to its other port once, and
then is in Error; the rate's timers act on it; a pause of the RoCE priority, and of no other, is obeyed until it ends: nothing that was
not sent before leaves on that port; a port falls and rises (R349, R357, R358, R366, R367). That a pause holds
retransmissions too (log 26), and what waits for a port's moves (log 55), is the model's reading. -/
def Obligations.NetworkTimers : Prop :=
  (∀ (q : Nat) (s : State), q < 4352 → fast s = true → qpLive s q = true →
    let x := qp s q
    (x.sendq ≠ [] →
      (x.tries < qpRetry x → exec (.ackTimeout q) s = .next (goBack (setQp s q { x with tries := x.tries + 1 }) q)) ∧
      (qpRetry x ≤ x.tries → x.other < 20 → (port s x.other).state = .up → (port s x.other).reinit = false → x.pathsTried = 0 →
        ∃ t, exec (.ackTimeout q) s = .next t ∧ (qp t q).port = x.other ∧ (qp t q).other = x.port ∧ (qp t q).pathsTried = 1) ∧
      (qpRetry x ≤ x.tries → x.pathsTried ≠ 0 → exec (.ackTimeout q) s = .next (errorQp s q none))) ∧
    (rateOn s = true →
      exec (.alphaTimer q) s = .next (setQp s q { x with alpha := (1 - rateG s) * x.alpha }) ∧
      exec (.rateTimer q) s = .next (setQp s q (rateStep s x)) ∧ exec (.rateBytesSent q) s = .next (setQp s q (rateStep s x)))) ∧
  ∀ (p : Nat) (s : State), p < 20 →
    let x := port s p
    (fast s = true → x.state = .up →
      exec (.rxPfcPause p (wbits (cget s netBase) 10 8)) s = .next (setPort s p { x with paused := true })) ∧
    (fast s = true → ∀ prio, prio ≠ wbits (cget s netBase) 10 8 → exec (.rxPfcPause p prio) s = .next s) ∧
    (x.paused = true → ∀ q, (qp s q).port = p → drainQp s q = s ∧
      ∀ kind key va data, (qp (send s q kind key va data) q).sendq = (qp s q).sendq) ∧
    (fast s = true → exec (.pfcPauseExpiry p) s =
      .next ((knownQps s).foldl (fun s q => if (qp s q).port = p then drainQp s q else s) (setPort s p { x with paused := false }))) ∧
    (s.drl.rails = true → x.state = .up → exec (.portDown p) s = .next (portFall (logFault s 7 (8 + portHub p) p 2) p)) ∧
    (portsRun s = true → x.enable = true → (x.state = .down ∨ x.state = .training) → saSpent x = false →
      exec (.portUp p) s = .next (finishMoves (setPort s p { x with state := .up }) p))

-- Votes, verdicts and updates (R381 to R401)

/-- A message of the collective engine is acted on in its step, once: REPORT, VERDICT and SIGNS; one that is broken or of another epoch is
discarded and counted (R381, R390 to R392). The close timer closes its step, and a command that still lacks its verdict or signs ends with
TIMEOUT_REMOTE (R388, R394). That each message acts in its own row, in the order of the queue, is the model's choice (log 44). -/
def Obligations.StepMessages : Prop :=
  (∀ (k : Nat) (m : InMsg) (s : State), s.cen.inbox[k]? = some m → ready s = true →
    let h := m.window.take 64
    let u := dropMsg s k
    (brokenMsg s m = true → exec (.report k) s = .next (cenRepeat u) ∧ exec (.verdict k) s = .next (cenRepeat u) ∧
      exec (.signs k) s = .next (cenRepeat u)) ∧
    ∀ r x, brokenMsg s m = false → runById s (hRun h) = some r → stepSt s (hRun h) (hStep h) = some x → (x.isOpen = true ∨ x.closed = true) →
      (hEpoch h = x.epoch → (hType h = 2 → exec (.report k) s = .next (holdReport u r x m)) ∧
        (hType h = 3 → exec (.verdict k) s = .next (holdVerdict u r x m)) ∧ (hType h = 4 → exec (.signs k) s = .next (holdSigns u r x m))) ∧
      (hEpoch h ≠ x.epoch → hType h = 2 → exec (.report k) s = .next (cenRepeat u))) ∧
  (∀ (run : Nat) (r : Run) (x : StepSt) (s : State), s.cen.runs[run]? = some r → ready s = true →
    (s.cen.steps.find? fun x => x.run = r.id ∧ x.isOpen ∧ x.self ∈ x.counted ∧ x.closeUs ≠ 0) = some x →
    exec (.stepCloseTimer run) s = .next (closeStep s r x)) ∧
  ∀ (st d : Nat) (e : Entry) (t : Take) (r : Run) (x : StepSt) (s : State), st < 256 → ready s = true → headEntry s st = some e →
    takeOfCmd s st e.seq = some t → t.ended = true → t.killed = false → stepRun s e = some r → stepSt s r.id e.step = some x →
    missingParty r x = some d → d ≠ x.self → exec (.verdictTimeout st) s =
      .next (endFinal (modStep s x.run x.step fun y => { y with timedOut := true }) t (0x0C, 0xFF, x.entryOf d, 0))

/-- An update of a shard starts once its step has its UPDATE verdict and every SIGNS: a synchronous one from the root that its take latched, a
slow one from the newest root, once its layer has its norms; a running one writes its slices and holds a pending root (R400, R401). -/
def Obligations.ShardUpdates : Prop :=
  ∀ (run shard : Nat) (r : Run) (s : State), s.cen.runs[run]? = some r → ready s = true →
    (∀ t e x b, (s.intake.takes.find? fun t => t.run = r.id ∧ t.ended ∧ ¬ t.killed ∧ t.roots.any (fun e => e.1 = shard)) = some t →
      findEntry s t.stream t.seq = some e → stepSt s r.id e.step = some x → (t.roots.find? fun e => e.1 = shard) = some (shard, b) →
      hasSigns r x = true → rtLag b = 0 → updateOf s r.id shard x.step = none →
      let u : Update := { run := r.id, shard := shard, step := x.step, stream := t.stream, seq := t.seq, state := .waiting,
                          base := b, root := [], fresh := [], reserve := [] }
      exec (.syncUpdate run shard) s = .next (startUpdate s u)) ∧
    (∀ x, nextSlow s r shard = some x → hasSigns r x = true → shard < r.nshards → 1 ≤ rtLag (newestRoot s r shard) →
      (∀ u ∈ s.upu.updates, u.run = r.id → u.shard = shard → u.state = .pending) → layerDone s r shard = true →
      let u : Update := { run := r.id, shard := shard, step := x.step, stream := 256, seq := 0, state := .waiting,
                          base := newestRoot s r shard, root := [], fresh := [], reserve := [] }
      exec (.slowUpdate run shard) s = .next (startUpdate s u)) ∧
    ∀ u x, activeUpdate s r shard .running = some u → stepSt s r.id u.step = some x → updateLost s u.base = none →
      let t := layerNorms (runUpdate s r x u) r x (rtLayer u.base)
      let t := if rtLag u.base = 0 then t else modRun t r.id fun r => { r with done := tset 0 r.done shard u.step }
      exec (.updateDone run shard) s = .next (if bit (fld x.sect 24 1) 2 then spendFree t (rtParams u.base) else t)

-- Power, resets and freezes (R321 to R327, R436 to R457, R472 to R477)

/-- A fall of PWR_FAIL_N or COLD_RESET_N, a thermal trip and a fault of a rail begin the flush, unless one runs or has run; the flush's
end writes the journal when ARMED, with the stream table and the live entries, into the area whose turn it is, and the device waits on
its keeper rail; as PWR_FAIL_N falls, every memory that the bank does not feed loses its data (R324, R325, R436, R438, R439, R454 to
R457). That memories without power read as zero is the model's choice (log 5), as are the journal's
form (log 32) and how a flush and the rails' return come as commands (log 53). -/
def Obligations.FlushAndRails : Prop :=
  (∀ s : State, s.drl.rails = true → s.drl.halted = false → s.drl.phase ≠ .flushing → s.drl.phase ≠ .flushed →
    (s.drl.pwrFailN = true → ∃ t, exec .pwrFail s = .next t ∧ t.drl.phase = .flushing ∧ t.drl.pwrFailN = false) ∧
    (s.drl.coldResetN = true → ∃ t, exec .coldResetAssert s = .next t ∧ t.drl.phase = .flushing ∧ t.drl.coldResetN = false) ∧
    (∀ d, d < 10 → s.drl.thermTripN = true → ∃ t, exec (.thermalTrip d) s = .next t ∧ t.drl.phase = .flushing ∧
      t.drl.thermTripN = false ∧ t.drl.pwrFailN = false) ∧
    ∀ part, (failPart s part).drl.halted = false → ∃ t, exec (.railFault part) s = .next t ∧ t.drl.phase = .flushing ∧
      t.drl.pwrFailN = false) ∧
  (∀ s : State, s.drl.phase = .flushing → s.drl.halted = false → ∃ t, exec .flushDone s = .next t ∧ t.drl.phase = .flushed ∧ t.drl.rails = false ∧
    (cget t 0x208000).getLsbD 1 = false ∧
    ((cget s 0x208000).getLsbD 1 = false → t.intake.journals = s.intake.journals) ∧
    ∀ a, (cget s 0x208000).getLsbD 1 = true → ([s.intake.turn, 1 - s.intake.turn].find? fun a => decide (area s a = 0)) = some a →
      (tget {} t.intake.journals a).valid = true ∧ (tget {} t.intake.journals a).entries = s.intake.log.map journalEntry ∧
      (tget {} t.intake.journals a).streams = streamTable s ∧ t.intake.turn = 1 - a ∧
      ∀ j ∈ s.intake.journals, j.2.order < (tget {} t.intake.journals a).order) ∧
  (∀ s : State, s.drl.pwrFailN = false → (s.drl.phase = .flushed ∨ s.drl.halted = true) → ∃ t, exec .keeperRailFall s = .next t ∧
    t.drl.rails = false ∧ t.flash = s.flash ∧ t.intake.journals = s.intake.journals ∧ t.mem = [] ∧ t.sram = [] ∧ t.csr = []) ∧
  (∀ s : State, s.drl.pwrFailN = true → s.drl.rails = true → ∃ t, exec .pwrFail s = .next t ∧ t.sram = [] ∧
    ∀ k, k < 80 → k ∉ bankCtls → ∀ a, ctlOf a = some k → devByte t a = 0) ∧
  ∀ (s : State) (cause : Nat), s.drl.rails = false →
    (s.drl.thermTripN = true → cause = 0 ∨ (cause = 1 ∧ s.drl.phase = .flushed ∧ s.drl.coldResetN = false)) →
    (s.drl.thermTripN = false → cause = 4) → ∃ t, exec (.railRestore cause) s = .next t ∧ t.drl.rails = true ∧ t.drl.phase = .rom ∧
      t.drl.pwrFailN = true ∧ wbits (cget t 0x100008) 7 0 = cause

/-- Cold start, warm reset and READY: the boot ends in the LOGBOOK phase or in BOOT_FAIL; a warm reset that begins, is released and finds no
core under test is finished; ARMED brings READY, which opens stream 0 (R321, R449 to R453). That SRAM reads zero after a warm reset is the
model's choice (log 53), and what a start finds of its parts comes with its command (log 53). -/
def Obligations.StartsAndResets : Prop :=
  (∀ (f : BootFacts) (s : State), (∀ d ∈ f.deadDies, d < 8) → (∀ k ∈ f.deadMems, k < 80) → (∀ c ∈ f.badCores, c < 208) →
    s.drl.rails = true → s.drl.started = false → s.drl.phase = .rom →
    exec (.coldStart f) s = .next (coldStart s f) ∧ ((coldStart s f).drl.phase = .logbook ∨ (coldStart s f).drl.phase = .bootFail)) ∧
  (∀ s : State, s.drl.rails = true → s.drl.started = true → s.drl.phase = .logbook → (cget s 0x208000).getLsbD 1 = true →
    s.drl.warmResetN = true → s.drl.warmDue = false → s.drl.freezeN = true → ∃ t, exec .coldReady s = .next t ∧ t.drl.phase = .ready ∧ t.drl.frz = .running ∧
      (stream t 0).state ≠ .closed ∧ (stream t 0).qp = 4096) ∧
  (∀ s : State, s.drl.warmResetN = true → s.drl.rails = true → s.drl.phase = .ready → s.drl.halted = false → ∃ t,
    exec .warmResetAssert s = .next t ∧ t.drl.phase = .warm ∧ t.drl.started = false ∧ t.drl.warmCause = 2 ∧ t.drl.warmResetN = false) ∧
  (∀ s : State, s.drl.phase = .warm → s.drl.started = false → s.drl.halted = false → ∃ t, exec .warmResetRelease s = .next t ∧
    t.drl.started = true ∧ t.sram = [] ∧ t.mem = s.mem ∧ t.fab.flits = [] ∧ t.fab.arrivals = [] ∧
    (∀ c, (core t c).share = .none) ∧ ∀ c, c < 208 → (pcoreOf t c).state ≠ .fenced) ∧
  ∀ s : State, s.drl.phase = .warm → s.drl.started = true → s.drl.halted = false → (∀ p ∈ s.drl.pcores, p.state ≠ .testing) →
    exec .warmReady s = .next (warmReady s)

/-- A freeze begins at the pin, holds until its causes end and its read-out has ended, and thaws, or ends with a warm reset, as it does when
the pin rises more than 25,000,000 kc after the clocks stopped (R472 to R477, R483). That the clocks stop and the read-out begins within one step is the model's choice (log 2). -/
def Obligations.Freezes : Prop :=
  ∀ s : State, s.drl.rails = true → s.drl.phase = .ready → s.drl.halted = false →
    (s.drl.freezeN = true → pinEnabled s = true → s.drl.frz = .running → ∃ t, exec .pinFreeze s = .next t ∧
      t.drl.frz = .reading ∧ t.drl.frzCause = 1 ∧ t.drl.freezeN = false ∧ t.drl.frzPin = true ∧
      ∀ k, k ∉ areaCtls s → (ctl t k).state ≠ .ready) ∧
    (s.drl.freezeN = true → pinEnabled s = true → s.drl.frz ≠ .running → exec .pinFreeze s =
      .next (modDrl s fun d => { d with freezeN := false, frzPin := true })) ∧
    (s.drl.freezeN = false → (s.drl.frzPin = false ∨ s.kc ≤ s.drl.frzStopKc + 25000000) → exec .freezePinRelease s =
      .next (tryThaw (modDrl s fun d => { d with freezeN := true, freezeSpent := false, frzPin := false }))) ∧
    (s.drl.freezeN = false → s.drl.frzPin = true → s.drl.frzStopKc + 25000000 < s.kc → exec .freezePinRelease s =
      .next (modDrl s fun d => { d with freezeN := true, freezeSpent := false, frzPin := true })) ∧
    (s.drl.frzHold = true → exec .freezeHoldExpiry s = .next (tryThaw (modDrl s fun d => { d with frzHold := false }))) ∧
    (∀ bad, s.drl.frz = .reading → (∀ m ∈ bad, m < 832) → exec (.readoutEnd bad) s =
      .next (tryThaw (modDrl (sleepArea (readOut s bad)) fun d => { d with frz := .frozen, frzRead := true, frzBad := bad }))) ∧
    (s.drl.frz = .frozen → s.drl.frzRead = true → (s.drl.frzPin = true ∨ s.drl.frzCmd = 2) → exec .freezeEnd s = .next (ownWarm s) ∧
      (ownWarm s).drl.phase = .warm ∧ (ownWarm s).drl.warmCause = 3) ∧
    (s.drl.frz = .frozen → s.drl.frzRead = true → s.drl.frzPin = false → s.drl.frzHold = false → s.drl.frzCmd ≠ 2 →
      tryThaw s = thaw s) ∧
    (s.drl.frz ≠ .frozen ∨ s.drl.frzRead = false ∨ s.drl.frzPin = true ∨ s.drl.frzHold = true ∨ s.drl.frzCmd = 2 → tryThaw s = s)

-- Faults and registers (R4 to R8, R459 to R471, R478, R511)

/-- What the device does about each fault completes: a core is fenced, tested, retired or placed again; a failed fence, link or watchdog
resets the device; a hub's failure halts it; an update unit starts its work again; a journal area fails, is retried and is ready
(R463 to R471). What a fence spares, and which position a tested core
fills, are the model's readings (log 51). -/
def Obligations.FaultResponses : Prop :=
  (∀ (c array : Nat) (s : State), c < 208 →
    (fast s = true → (pcoreOf s c).state = .mapped → exec (.coreArrayFault c array) s = .next (fenceCore (match arrayReg c array with
      | some e => corr s e.1 (BitVec.ofNat 64 e.2) | none => s) c 1) ∧
      exec (.fenceFail c) s = .next (ownWarm (logFault s 3 (c / 26) (c % 26) 3))) ∧
    (s.drl.rails = true → s.drl.halted = false → (pcoreOf s c).state = .testing → ∀ pass, exec (.coreTestDone c pass) s =
      .next (tested s c pass))) ∧
  (∀ (u : Nat) (s : State), u < 80 → fast s = true → exec (.upuArrayFault u) s = .next (restartUnit (logFault s 9 (dieOfUnit u) u 2) u)) ∧
  (∀ (d side : Nat) (s : State), d < 8 → (dieAcross d side).isSome = true → fast s = true → (d, side) ∉ s.fab.deadLinks →
    let t := cutLink (logFault s 0x0A d 0xFF 3) d side
    (hubCut t 0 = false → hubCut t 1 = false → exec (.linkD2dFault d side) s =
      .next (ownWarm { t with fab := { t.fab with reroute := true } })) ∧
    (hubCut t 0 = true → exec (.linkD2dFault d side) s = .next (failHub t 0))) ∧
  (∀ s : State, s.drl.rails = true → s.drl.phase = .ready → s.drl.halted = false →
    (s.drl.standby = false → exec .derlerWatchdog s = .next (ownWarm { logFault s 0x0B 8 0xFF 3 with
      drl := { (logFault s 0x0B 8 0xFF 3).drl with standby := true } })) ∧
    (s.drl.standby = true → exec .derlerWatchdog s = .next (haltDevice (logFault s 0x0B 9 0xFF 3))) ∧
    (∀ h, h < 2 → exec (.hubFailure h) s = .next (failHub s h) ∧ (failHub s h).drl.halted = true) ∧
    (areaReady s = false → ∃ t, exec .journalEraseRetry s = .next t ∧
      ∀ a, a < 2 → area t a = if area s a = 3 then 2 else area s a)) ∧
  (∀ (a : Nat) (s : State), a < 2 → s.drl.rails = true → s.drl.phase ≠ .flushing → s.drl.phase ≠ .flushed → area s a = 2 →
    exec (.journalFlashFail a) s = .next (rearm (eraseArea (setArea (logFault s 0x0F 0xFF 0xFF 4) a 3) (1 - a))) ∧
    (s.drl.halted = false → ∃ t, exec (.journalAreaErased a) s = .next t ∧ area t a = 0)) ∧
  ∀ (k : Nat) (s : State), s.intake.rebuild = some k → fast s = true → ∃ t, exec .logbookRebuildDone s = .next t ∧
    t.intake.rebuild = none ∧ (s.intake.copyA = k → t.intake.copyAok = true) ∧ (s.intake.copyB = k → t.intake.copyBok = true)

/-- Writes to registers complete at READY: an offset that is no register changes no register and ends with ADDR_UNMAPPED (R7; where a
write's end stands is the model's field, log 3), and the registers whose writes act beyond their own word act (R349, R463, R478, R483, R511). -/
def Obligations.RegisterWrites : Prop :=
  ∀ s : State, ready s = true →
    (∀ a v, regAt a = none → exec (.csrWrite a v) s = .next { s with csrEnd := 0x11 }) ∧
    (∀ a v t, writeCsr s a v = some t → exec (.csrWrite a v) s = .next { t with csrEnd := 0 }) ∧
    (∀ v, exec (.frzDailiesWrite v) s = .next (moveDailies s v)) ∧
    (∀ d v, d < 10 → exec (.obsRingWrite d v) s = .next (moveRing s d v)) ∧
    (∀ c, c < 208 → exec (.reinitCore c) s = .next (reinitCore s c) ∧
      ((pcoreOf s c).state = .fenced ∨ (pcoreOf s c).state = .retired → c < s.drl.pcores.length →
        pcoreOf (reinitCore s c) c = { pcoreOf s c with state := .testing })) ∧
    (∀ p, p < 20 → exec (.reinitPort p) s = .next (reinitPort s p) ∧
      ((port s p).enable = true → portMoving s p = true → reinitPort s p = setPort s p { port s p with reinit := true }) ∧
      ((port s p).enable = true → portMoving s p = false → reinitPort s p = holdPort s p ∧ (port (holdPort s p) p).state = .down)) ∧
    (∀ u, u < 80 → exec (.reinitUpu u) s = .next (restartUnit s u)) ∧
    (∀ k, k < 16 → exec (.reinitHbc k) s = .next (reinitMem s k)) ∧
    (∀ k, k < 64 → exec (.reinitLpc k) s = .next (reinitMem s (16 + k)))

/-- Reset leaves what the spec gives (R5, R14, R189, R308): registers at the values of their Reset columns, streams Closed, no command and no take;
the top 4 GiB of each package are Pool and no HBM3E region is. That physical cores 24 and 25 of a die are its spares is the model's choice
(log 6), and so are the values of what has no reset value (log 7). -/
def Obligations.ResetState : Prop :=
  let s := State.reset
  s.pending = [] ∧ s.intake.log = [] ∧ s.intake.takes = [] ∧ s.cores = [] ∧
  (∀ a, cget s a = regReset a) ∧ regReset 0 = 0x484A088001000000 ∧ regReset 0x100018 = 0xFF ∧ regReset 0x140008 = 3800 ∧
  regReset 0x400000 = 0x30B ∧ regReset 0x800000 = 0x60207 ∧
  (∀ st, (stream s st).state = .closed) ∧
  (∀ g k off, decodeAddr (g * 65536) = .lpddr k off → 0x1F00000000 ≤ off → regionState s g = 1) ∧
  (∀ g k off, decodeAddr (g * 65536) = .hbm k off → regionState s g = 0) ∧
  ∀ i, i < 208 → pcoreOf s i =
    (if i % 26 < 24 then { state := .mapped, lcore := 24 * (i / 26) + i % 26, fences := 0 } else
      { state := .spare, lcore := 255, fences := 0 })
end

