-- ==== Sys2Proof/Laws/State.lean ====
section
/-! SUPPORT. What each named update of the state, and of a core, leaves as it was: one lemma for each field. -/
namespace Sys2Proof.Machine

set_option Elab.async false

open Sys2Proof

-- setCore
@[simp] theorem setCore_pending (s : State) (c : Nat) (x : Core) : (setCore s c x).pending = s.pending := (rfl)
@[simp] theorem setCore_free (s : State) (c : Nat) (x : Core) : (setCore s c x).free = s.free := (rfl)
@[simp] theorem setCore_kc (s : State) (c : Nat) (x : Core) : (setCore s c x).kc = s.kc := (rfl)
@[simp] theorem setCore_mem (s : State) (c : Nat) (x : Core) : (setCore s c x).mem = s.mem := (rfl)
@[simp] theorem setCore_sram (s : State) (c : Nat) (x : Core) : (setCore s c x).sram = s.sram := (rfl)
@[simp] theorem setCore_flash (s : State) (c : Nat) (x : Core) : (setCore s c x).flash = s.flash := (rfl)
@[simp] theorem setCore_poison (s : State) (c : Nat) (x : Core) : (setCore s c x).poison = s.poison := (rfl)
@[simp] theorem setCore_csr (s : State) (c : Nat) (x : Core) : (setCore s c x).csr = s.csr := (rfl)
@[simp] theorem setCore_regions (s : State) (c : Nat) (x : Core) : (setCore s c x).regions = s.regions := (rfl)
@[simp] theorem setCore_fab (s : State) (c : Nat) (x : Core) : (setCore s c x).fab = s.fab := (rfl)
@[simp] theorem setCore_wkc (s : State) (c : Nat) (x : Core) : (setCore s c x).wkc = s.wkc := (rfl)
@[simp] theorem setCore_memctl (s : State) (c : Nat) (x : Core) : (setCore s c x).memctl = s.memctl := (rfl)
@[simp] theorem setCore_intake (s : State) (c : Nat) (x : Core) : (setCore s c x).intake = s.intake := (rfl)
@[simp] theorem setCore_loader (s : State) (c : Nat) (x : Core) : (setCore s c x).loader = s.loader := (rfl)
@[simp] theorem setCore_net (s : State) (c : Nat) (x : Core) : (setCore s c x).net = s.net := (rfl)
@[simp] theorem setCore_cen (s : State) (c : Nat) (x : Core) : (setCore s c x).cen = s.cen := (rfl)
@[simp] theorem setCore_upu (s : State) (c : Nat) (x : Core) : (setCore s c x).upu = s.upu := (rfl)
@[simp] theorem setCore_cal (s : State) (c : Nat) (x : Core) : (setCore s c x).cal = s.cal := (rfl)
@[simp] theorem setCore_pwr (s : State) (c : Nat) (x : Core) : (setCore s c x).pwr = s.pwr := (rfl)
@[simp] theorem setCore_drl (s : State) (c : Nat) (x : Core) : (setCore s c x).drl = s.drl := (rfl)
@[simp] theorem setCore_sec (s : State) (c : Nat) (x : Core) : (setCore s c x).sec = s.sec := (rfl)
@[simp] theorem setCore_obs (s : State) (c : Nat) (x : Core) : (setCore s c x).obs = s.obs := (rfl)
@[simp] theorem setCore_csrEnd (s : State) (c : Nat) (x : Core) : (setCore s c x).csrEnd = s.csrEnd := (rfl)

-- setQp
@[simp] theorem setQp_pending (s : State) (q : Nat) (x : Qp) : (setQp s q x).pending = s.pending := (rfl)
@[simp] theorem setQp_free (s : State) (q : Nat) (x : Qp) : (setQp s q x).free = s.free := (rfl)
@[simp] theorem setQp_kc (s : State) (q : Nat) (x : Qp) : (setQp s q x).kc = s.kc := (rfl)
@[simp] theorem setQp_mem (s : State) (q : Nat) (x : Qp) : (setQp s q x).mem = s.mem := (rfl)
@[simp] theorem setQp_sram (s : State) (q : Nat) (x : Qp) : (setQp s q x).sram = s.sram := (rfl)
@[simp] theorem setQp_flash (s : State) (q : Nat) (x : Qp) : (setQp s q x).flash = s.flash := (rfl)
@[simp] theorem setQp_poison (s : State) (q : Nat) (x : Qp) : (setQp s q x).poison = s.poison := (rfl)
@[simp] theorem setQp_csr (s : State) (q : Nat) (x : Qp) : (setQp s q x).csr = s.csr := (rfl)
@[simp] theorem setQp_regions (s : State) (q : Nat) (x : Qp) : (setQp s q x).regions = s.regions := (rfl)
@[simp] theorem setQp_cores (s : State) (q : Nat) (x : Qp) : (setQp s q x).cores = s.cores := (rfl)
@[simp] theorem setQp_fab (s : State) (q : Nat) (x : Qp) : (setQp s q x).fab = s.fab := (rfl)
@[simp] theorem setQp_wkc (s : State) (q : Nat) (x : Qp) : (setQp s q x).wkc = s.wkc := (rfl)
@[simp] theorem setQp_memctl (s : State) (q : Nat) (x : Qp) : (setQp s q x).memctl = s.memctl := (rfl)
@[simp] theorem setQp_intake (s : State) (q : Nat) (x : Qp) : (setQp s q x).intake = s.intake := (rfl)
@[simp] theorem setQp_loader (s : State) (q : Nat) (x : Qp) : (setQp s q x).loader = s.loader := (rfl)
@[simp] theorem setQp_cen (s : State) (q : Nat) (x : Qp) : (setQp s q x).cen = s.cen := (rfl)
@[simp] theorem setQp_upu (s : State) (q : Nat) (x : Qp) : (setQp s q x).upu = s.upu := (rfl)
@[simp] theorem setQp_cal (s : State) (q : Nat) (x : Qp) : (setQp s q x).cal = s.cal := (rfl)
@[simp] theorem setQp_pwr (s : State) (q : Nat) (x : Qp) : (setQp s q x).pwr = s.pwr := (rfl)
@[simp] theorem setQp_drl (s : State) (q : Nat) (x : Qp) : (setQp s q x).drl = s.drl := (rfl)
@[simp] theorem setQp_sec (s : State) (q : Nat) (x : Qp) : (setQp s q x).sec = s.sec := (rfl)
@[simp] theorem setQp_obs (s : State) (q : Nat) (x : Qp) : (setQp s q x).obs = s.obs := (rfl)
@[simp] theorem setQp_csrEnd (s : State) (q : Nat) (x : Qp) : (setQp s q x).csrEnd = s.csrEnd := (rfl)

-- setPort
@[simp] theorem setPort_pending (s : State) (p : Nat) (x : Port) : (setPort s p x).pending = s.pending := (rfl)
@[simp] theorem setPort_free (s : State) (p : Nat) (x : Port) : (setPort s p x).free = s.free := (rfl)
@[simp] theorem setPort_kc (s : State) (p : Nat) (x : Port) : (setPort s p x).kc = s.kc := (rfl)
@[simp] theorem setPort_mem (s : State) (p : Nat) (x : Port) : (setPort s p x).mem = s.mem := (rfl)
@[simp] theorem setPort_sram (s : State) (p : Nat) (x : Port) : (setPort s p x).sram = s.sram := (rfl)
@[simp] theorem setPort_flash (s : State) (p : Nat) (x : Port) : (setPort s p x).flash = s.flash := (rfl)
@[simp] theorem setPort_poison (s : State) (p : Nat) (x : Port) : (setPort s p x).poison = s.poison := (rfl)
@[simp] theorem setPort_csr (s : State) (p : Nat) (x : Port) : (setPort s p x).csr = s.csr := (rfl)
@[simp] theorem setPort_regions (s : State) (p : Nat) (x : Port) : (setPort s p x).regions = s.regions := (rfl)
@[simp] theorem setPort_cores (s : State) (p : Nat) (x : Port) : (setPort s p x).cores = s.cores := (rfl)
@[simp] theorem setPort_fab (s : State) (p : Nat) (x : Port) : (setPort s p x).fab = s.fab := (rfl)
@[simp] theorem setPort_wkc (s : State) (p : Nat) (x : Port) : (setPort s p x).wkc = s.wkc := (rfl)
@[simp] theorem setPort_memctl (s : State) (p : Nat) (x : Port) : (setPort s p x).memctl = s.memctl := (rfl)
@[simp] theorem setPort_intake (s : State) (p : Nat) (x : Port) : (setPort s p x).intake = s.intake := (rfl)
@[simp] theorem setPort_loader (s : State) (p : Nat) (x : Port) : (setPort s p x).loader = s.loader := (rfl)
@[simp] theorem setPort_cen (s : State) (p : Nat) (x : Port) : (setPort s p x).cen = s.cen := (rfl)
@[simp] theorem setPort_upu (s : State) (p : Nat) (x : Port) : (setPort s p x).upu = s.upu := (rfl)
@[simp] theorem setPort_cal (s : State) (p : Nat) (x : Port) : (setPort s p x).cal = s.cal := (rfl)
@[simp] theorem setPort_pwr (s : State) (p : Nat) (x : Port) : (setPort s p x).pwr = s.pwr := (rfl)
@[simp] theorem setPort_drl (s : State) (p : Nat) (x : Port) : (setPort s p x).drl = s.drl := (rfl)
@[simp] theorem setPort_sec (s : State) (p : Nat) (x : Port) : (setPort s p x).sec = s.sec := (rfl)
@[simp] theorem setPort_obs (s : State) (p : Nat) (x : Port) : (setPort s p x).obs = s.obs := (rfl)
@[simp] theorem setPort_csrEnd (s : State) (p : Nat) (x : Port) : (setPort s p x).csrEnd = s.csrEnd := (rfl)

-- setStream
@[simp] theorem setStream_pending (s : State) (n : Nat) (x : Stream) : (setStream s n x).pending = s.pending := (rfl)
@[simp] theorem setStream_free (s : State) (n : Nat) (x : Stream) : (setStream s n x).free = s.free := (rfl)
@[simp] theorem setStream_kc (s : State) (n : Nat) (x : Stream) : (setStream s n x).kc = s.kc := (rfl)
@[simp] theorem setStream_mem (s : State) (n : Nat) (x : Stream) : (setStream s n x).mem = s.mem := (rfl)
@[simp] theorem setStream_sram (s : State) (n : Nat) (x : Stream) : (setStream s n x).sram = s.sram := (rfl)
@[simp] theorem setStream_flash (s : State) (n : Nat) (x : Stream) : (setStream s n x).flash = s.flash := (rfl)
@[simp] theorem setStream_poison (s : State) (n : Nat) (x : Stream) : (setStream s n x).poison = s.poison := (rfl)
@[simp] theorem setStream_csr (s : State) (n : Nat) (x : Stream) : (setStream s n x).csr = s.csr := (rfl)
@[simp] theorem setStream_regions (s : State) (n : Nat) (x : Stream) : (setStream s n x).regions = s.regions := (rfl)
@[simp] theorem setStream_cores (s : State) (n : Nat) (x : Stream) : (setStream s n x).cores = s.cores := (rfl)
@[simp] theorem setStream_fab (s : State) (n : Nat) (x : Stream) : (setStream s n x).fab = s.fab := (rfl)
@[simp] theorem setStream_wkc (s : State) (n : Nat) (x : Stream) : (setStream s n x).wkc = s.wkc := (rfl)
@[simp] theorem setStream_memctl (s : State) (n : Nat) (x : Stream) : (setStream s n x).memctl = s.memctl := (rfl)
@[simp] theorem setStream_loader (s : State) (n : Nat) (x : Stream) : (setStream s n x).loader = s.loader := (rfl)
@[simp] theorem setStream_net (s : State) (n : Nat) (x : Stream) : (setStream s n x).net = s.net := (rfl)
@[simp] theorem setStream_cen (s : State) (n : Nat) (x : Stream) : (setStream s n x).cen = s.cen := (rfl)
@[simp] theorem setStream_upu (s : State) (n : Nat) (x : Stream) : (setStream s n x).upu = s.upu := (rfl)
@[simp] theorem setStream_cal (s : State) (n : Nat) (x : Stream) : (setStream s n x).cal = s.cal := (rfl)
@[simp] theorem setStream_pwr (s : State) (n : Nat) (x : Stream) : (setStream s n x).pwr = s.pwr := (rfl)
@[simp] theorem setStream_drl (s : State) (n : Nat) (x : Stream) : (setStream s n x).drl = s.drl := (rfl)
@[simp] theorem setStream_sec (s : State) (n : Nat) (x : Stream) : (setStream s n x).sec = s.sec := (rfl)
@[simp] theorem setStream_obs (s : State) (n : Nat) (x : Stream) : (setStream s n x).obs = s.obs := (rfl)
@[simp] theorem setStream_csrEnd (s : State) (n : Nat) (x : Stream) : (setStream s n x).csrEnd = s.csrEnd := (rfl)

-- setSlot
@[simp] theorem setSlot_pending (s : State) (n : Nat) (x : Slot) : (setSlot s n x).pending = s.pending := (rfl)
@[simp] theorem setSlot_free (s : State) (n : Nat) (x : Slot) : (setSlot s n x).free = s.free := (rfl)
@[simp] theorem setSlot_kc (s : State) (n : Nat) (x : Slot) : (setSlot s n x).kc = s.kc := (rfl)
@[simp] theorem setSlot_mem (s : State) (n : Nat) (x : Slot) : (setSlot s n x).mem = s.mem := (rfl)
@[simp] theorem setSlot_sram (s : State) (n : Nat) (x : Slot) : (setSlot s n x).sram = s.sram := (rfl)
@[simp] theorem setSlot_flash (s : State) (n : Nat) (x : Slot) : (setSlot s n x).flash = s.flash := (rfl)
@[simp] theorem setSlot_poison (s : State) (n : Nat) (x : Slot) : (setSlot s n x).poison = s.poison := (rfl)
@[simp] theorem setSlot_csr (s : State) (n : Nat) (x : Slot) : (setSlot s n x).csr = s.csr := (rfl)
@[simp] theorem setSlot_regions (s : State) (n : Nat) (x : Slot) : (setSlot s n x).regions = s.regions := (rfl)
@[simp] theorem setSlot_cores (s : State) (n : Nat) (x : Slot) : (setSlot s n x).cores = s.cores := (rfl)
@[simp] theorem setSlot_fab (s : State) (n : Nat) (x : Slot) : (setSlot s n x).fab = s.fab := (rfl)
@[simp] theorem setSlot_wkc (s : State) (n : Nat) (x : Slot) : (setSlot s n x).wkc = s.wkc := (rfl)
@[simp] theorem setSlot_memctl (s : State) (n : Nat) (x : Slot) : (setSlot s n x).memctl = s.memctl := (rfl)
@[simp] theorem setSlot_intake (s : State) (n : Nat) (x : Slot) : (setSlot s n x).intake = s.intake := (rfl)
@[simp] theorem setSlot_net (s : State) (n : Nat) (x : Slot) : (setSlot s n x).net = s.net := (rfl)
@[simp] theorem setSlot_cen (s : State) (n : Nat) (x : Slot) : (setSlot s n x).cen = s.cen := (rfl)
@[simp] theorem setSlot_upu (s : State) (n : Nat) (x : Slot) : (setSlot s n x).upu = s.upu := (rfl)
@[simp] theorem setSlot_cal (s : State) (n : Nat) (x : Slot) : (setSlot s n x).cal = s.cal := (rfl)
@[simp] theorem setSlot_pwr (s : State) (n : Nat) (x : Slot) : (setSlot s n x).pwr = s.pwr := (rfl)
@[simp] theorem setSlot_drl (s : State) (n : Nat) (x : Slot) : (setSlot s n x).drl = s.drl := (rfl)
@[simp] theorem setSlot_sec (s : State) (n : Nat) (x : Slot) : (setSlot s n x).sec = s.sec := (rfl)
@[simp] theorem setSlot_obs (s : State) (n : Nat) (x : Slot) : (setSlot s n x).obs = s.obs := (rfl)
@[simp] theorem setSlot_csrEnd (s : State) (n : Nat) (x : Slot) : (setSlot s n x).csrEnd = s.csrEnd := (rfl)

-- setWkc
@[simp] theorem setWkc_pending (s : State) (n : Nat) (x : Wkc) : (setWkc s n x).pending = s.pending := (rfl)
@[simp] theorem setWkc_free (s : State) (n : Nat) (x : Wkc) : (setWkc s n x).free = s.free := (rfl)
@[simp] theorem setWkc_kc (s : State) (n : Nat) (x : Wkc) : (setWkc s n x).kc = s.kc := (rfl)
@[simp] theorem setWkc_mem (s : State) (n : Nat) (x : Wkc) : (setWkc s n x).mem = s.mem := (rfl)
@[simp] theorem setWkc_sram (s : State) (n : Nat) (x : Wkc) : (setWkc s n x).sram = s.sram := (rfl)
@[simp] theorem setWkc_flash (s : State) (n : Nat) (x : Wkc) : (setWkc s n x).flash = s.flash := (rfl)
@[simp] theorem setWkc_poison (s : State) (n : Nat) (x : Wkc) : (setWkc s n x).poison = s.poison := (rfl)
@[simp] theorem setWkc_csr (s : State) (n : Nat) (x : Wkc) : (setWkc s n x).csr = s.csr := (rfl)
@[simp] theorem setWkc_regions (s : State) (n : Nat) (x : Wkc) : (setWkc s n x).regions = s.regions := (rfl)
@[simp] theorem setWkc_cores (s : State) (n : Nat) (x : Wkc) : (setWkc s n x).cores = s.cores := (rfl)
@[simp] theorem setWkc_fab (s : State) (n : Nat) (x : Wkc) : (setWkc s n x).fab = s.fab := (rfl)
@[simp] theorem setWkc_memctl (s : State) (n : Nat) (x : Wkc) : (setWkc s n x).memctl = s.memctl := (rfl)
@[simp] theorem setWkc_intake (s : State) (n : Nat) (x : Wkc) : (setWkc s n x).intake = s.intake := (rfl)
@[simp] theorem setWkc_loader (s : State) (n : Nat) (x : Wkc) : (setWkc s n x).loader = s.loader := (rfl)
@[simp] theorem setWkc_net (s : State) (n : Nat) (x : Wkc) : (setWkc s n x).net = s.net := (rfl)
@[simp] theorem setWkc_cen (s : State) (n : Nat) (x : Wkc) : (setWkc s n x).cen = s.cen := (rfl)
@[simp] theorem setWkc_upu (s : State) (n : Nat) (x : Wkc) : (setWkc s n x).upu = s.upu := (rfl)
@[simp] theorem setWkc_cal (s : State) (n : Nat) (x : Wkc) : (setWkc s n x).cal = s.cal := (rfl)
@[simp] theorem setWkc_pwr (s : State) (n : Nat) (x : Wkc) : (setWkc s n x).pwr = s.pwr := (rfl)
@[simp] theorem setWkc_drl (s : State) (n : Nat) (x : Wkc) : (setWkc s n x).drl = s.drl := (rfl)
@[simp] theorem setWkc_sec (s : State) (n : Nat) (x : Wkc) : (setWkc s n x).sec = s.sec := (rfl)
@[simp] theorem setWkc_obs (s : State) (n : Nat) (x : Wkc) : (setWkc s n x).obs = s.obs := (rfl)
@[simp] theorem setWkc_csrEnd (s : State) (n : Nat) (x : Wkc) : (setWkc s n x).csrEnd = s.csrEnd := (rfl)

-- setCtl
@[simp] theorem setCtl_pending (s : State) (k : Nat) (m : MemCtl) : (setCtl s k m).pending = s.pending := (rfl)
@[simp] theorem setCtl_free (s : State) (k : Nat) (m : MemCtl) : (setCtl s k m).free = s.free := (rfl)
@[simp] theorem setCtl_kc (s : State) (k : Nat) (m : MemCtl) : (setCtl s k m).kc = s.kc := (rfl)
@[simp] theorem setCtl_mem (s : State) (k : Nat) (m : MemCtl) : (setCtl s k m).mem = s.mem := (rfl)
@[simp] theorem setCtl_sram (s : State) (k : Nat) (m : MemCtl) : (setCtl s k m).sram = s.sram := (rfl)
@[simp] theorem setCtl_flash (s : State) (k : Nat) (m : MemCtl) : (setCtl s k m).flash = s.flash := (rfl)
@[simp] theorem setCtl_poison (s : State) (k : Nat) (m : MemCtl) : (setCtl s k m).poison = s.poison := (rfl)
@[simp] theorem setCtl_csr (s : State) (k : Nat) (m : MemCtl) : (setCtl s k m).csr = s.csr := (rfl)
@[simp] theorem setCtl_regions (s : State) (k : Nat) (m : MemCtl) : (setCtl s k m).regions = s.regions := (rfl)
@[simp] theorem setCtl_cores (s : State) (k : Nat) (m : MemCtl) : (setCtl s k m).cores = s.cores := (rfl)
@[simp] theorem setCtl_fab (s : State) (k : Nat) (m : MemCtl) : (setCtl s k m).fab = s.fab := (rfl)
@[simp] theorem setCtl_wkc (s : State) (k : Nat) (m : MemCtl) : (setCtl s k m).wkc = s.wkc := (rfl)
@[simp] theorem setCtl_intake (s : State) (k : Nat) (m : MemCtl) : (setCtl s k m).intake = s.intake := (rfl)
@[simp] theorem setCtl_loader (s : State) (k : Nat) (m : MemCtl) : (setCtl s k m).loader = s.loader := (rfl)
@[simp] theorem setCtl_net (s : State) (k : Nat) (m : MemCtl) : (setCtl s k m).net = s.net := (rfl)
@[simp] theorem setCtl_cen (s : State) (k : Nat) (m : MemCtl) : (setCtl s k m).cen = s.cen := (rfl)
@[simp] theorem setCtl_upu (s : State) (k : Nat) (m : MemCtl) : (setCtl s k m).upu = s.upu := (rfl)
@[simp] theorem setCtl_cal (s : State) (k : Nat) (m : MemCtl) : (setCtl s k m).cal = s.cal := (rfl)
@[simp] theorem setCtl_pwr (s : State) (k : Nat) (m : MemCtl) : (setCtl s k m).pwr = s.pwr := (rfl)
@[simp] theorem setCtl_drl (s : State) (k : Nat) (m : MemCtl) : (setCtl s k m).drl = s.drl := (rfl)
@[simp] theorem setCtl_sec (s : State) (k : Nat) (m : MemCtl) : (setCtl s k m).sec = s.sec := (rfl)
@[simp] theorem setCtl_obs (s : State) (k : Nat) (m : MemCtl) : (setCtl s k m).obs = s.obs := (rfl)
@[simp] theorem setCtl_csrEnd (s : State) (k : Nat) (m : MemCtl) : (setCtl s k m).csrEnd = s.csrEnd := (rfl)

-- setRegion
@[simp] theorem setRegion_pending (s : State) (r v : Nat) : (setRegion s r v).pending = s.pending := (rfl)
@[simp] theorem setRegion_free (s : State) (r v : Nat) : (setRegion s r v).free = s.free := (rfl)
@[simp] theorem setRegion_kc (s : State) (r v : Nat) : (setRegion s r v).kc = s.kc := (rfl)
@[simp] theorem setRegion_mem (s : State) (r v : Nat) : (setRegion s r v).mem = s.mem := (rfl)
@[simp] theorem setRegion_sram (s : State) (r v : Nat) : (setRegion s r v).sram = s.sram := (rfl)
@[simp] theorem setRegion_flash (s : State) (r v : Nat) : (setRegion s r v).flash = s.flash := (rfl)
@[simp] theorem setRegion_poison (s : State) (r v : Nat) : (setRegion s r v).poison = s.poison := (rfl)
@[simp] theorem setRegion_csr (s : State) (r v : Nat) : (setRegion s r v).csr = s.csr := (rfl)
@[simp] theorem setRegion_cores (s : State) (r v : Nat) : (setRegion s r v).cores = s.cores := (rfl)
@[simp] theorem setRegion_fab (s : State) (r v : Nat) : (setRegion s r v).fab = s.fab := (rfl)
@[simp] theorem setRegion_wkc (s : State) (r v : Nat) : (setRegion s r v).wkc = s.wkc := (rfl)
@[simp] theorem setRegion_memctl (s : State) (r v : Nat) : (setRegion s r v).memctl = s.memctl := (rfl)
@[simp] theorem setRegion_intake (s : State) (r v : Nat) : (setRegion s r v).intake = s.intake := (rfl)
@[simp] theorem setRegion_loader (s : State) (r v : Nat) : (setRegion s r v).loader = s.loader := (rfl)
@[simp] theorem setRegion_net (s : State) (r v : Nat) : (setRegion s r v).net = s.net := (rfl)
@[simp] theorem setRegion_cen (s : State) (r v : Nat) : (setRegion s r v).cen = s.cen := (rfl)
@[simp] theorem setRegion_upu (s : State) (r v : Nat) : (setRegion s r v).upu = s.upu := (rfl)
@[simp] theorem setRegion_cal (s : State) (r v : Nat) : (setRegion s r v).cal = s.cal := (rfl)
@[simp] theorem setRegion_pwr (s : State) (r v : Nat) : (setRegion s r v).pwr = s.pwr := (rfl)
@[simp] theorem setRegion_drl (s : State) (r v : Nat) : (setRegion s r v).drl = s.drl := (rfl)
@[simp] theorem setRegion_sec (s : State) (r v : Nat) : (setRegion s r v).sec = s.sec := (rfl)
@[simp] theorem setRegion_obs (s : State) (r v : Nat) : (setRegion s r v).obs = s.obs := (rfl)
@[simp] theorem setRegion_csrEnd (s : State) (r v : Nat) : (setRegion s r v).csrEnd = s.csrEnd := (rfl)

-- cset
@[simp] theorem cset_pending (s : State) (a : Nat) (v : W64) : (cset s a v).pending = s.pending := (rfl)
@[simp] theorem cset_free (s : State) (a : Nat) (v : W64) : (cset s a v).free = s.free := (rfl)
@[simp] theorem cset_kc (s : State) (a : Nat) (v : W64) : (cset s a v).kc = s.kc := (rfl)
@[simp] theorem cset_mem (s : State) (a : Nat) (v : W64) : (cset s a v).mem = s.mem := (rfl)
@[simp] theorem cset_sram (s : State) (a : Nat) (v : W64) : (cset s a v).sram = s.sram := (rfl)
@[simp] theorem cset_flash (s : State) (a : Nat) (v : W64) : (cset s a v).flash = s.flash := (rfl)
@[simp] theorem cset_poison (s : State) (a : Nat) (v : W64) : (cset s a v).poison = s.poison := (rfl)
@[simp] theorem cset_regions (s : State) (a : Nat) (v : W64) : (cset s a v).regions = s.regions := (rfl)
@[simp] theorem cset_cores (s : State) (a : Nat) (v : W64) : (cset s a v).cores = s.cores := (rfl)
@[simp] theorem cset_fab (s : State) (a : Nat) (v : W64) : (cset s a v).fab = s.fab := (rfl)
@[simp] theorem cset_wkc (s : State) (a : Nat) (v : W64) : (cset s a v).wkc = s.wkc := (rfl)
@[simp] theorem cset_memctl (s : State) (a : Nat) (v : W64) : (cset s a v).memctl = s.memctl := (rfl)
@[simp] theorem cset_intake (s : State) (a : Nat) (v : W64) : (cset s a v).intake = s.intake := (rfl)
@[simp] theorem cset_loader (s : State) (a : Nat) (v : W64) : (cset s a v).loader = s.loader := (rfl)
@[simp] theorem cset_net (s : State) (a : Nat) (v : W64) : (cset s a v).net = s.net := (rfl)
@[simp] theorem cset_cen (s : State) (a : Nat) (v : W64) : (cset s a v).cen = s.cen := (rfl)
@[simp] theorem cset_upu (s : State) (a : Nat) (v : W64) : (cset s a v).upu = s.upu := (rfl)
@[simp] theorem cset_cal (s : State) (a : Nat) (v : W64) : (cset s a v).cal = s.cal := (rfl)
@[simp] theorem cset_pwr (s : State) (a : Nat) (v : W64) : (cset s a v).pwr = s.pwr := (rfl)
@[simp] theorem cset_drl (s : State) (a : Nat) (v : W64) : (cset s a v).drl = s.drl := (rfl)
@[simp] theorem cset_sec (s : State) (a : Nat) (v : W64) : (cset s a v).sec = s.sec := (rfl)
@[simp] theorem cset_obs (s : State) (a : Nat) (v : W64) : (cset s a v).obs = s.obs := (rfl)
@[simp] theorem cset_csrEnd (s : State) (a : Nat) (v : W64) : (cset s a v).csrEnd = s.csrEnd := (rfl)

-- modCore
@[simp] theorem modCore_pending (s : State) (c : Nat) (f : Core → Core) : (modCore s c f).pending = s.pending := (rfl)
@[simp] theorem modCore_free (s : State) (c : Nat) (f : Core → Core) : (modCore s c f).free = s.free := (rfl)
@[simp] theorem modCore_kc (s : State) (c : Nat) (f : Core → Core) : (modCore s c f).kc = s.kc := (rfl)
@[simp] theorem modCore_mem (s : State) (c : Nat) (f : Core → Core) : (modCore s c f).mem = s.mem := (rfl)
@[simp] theorem modCore_sram (s : State) (c : Nat) (f : Core → Core) : (modCore s c f).sram = s.sram := (rfl)
@[simp] theorem modCore_flash (s : State) (c : Nat) (f : Core → Core) : (modCore s c f).flash = s.flash := (rfl)
@[simp] theorem modCore_poison (s : State) (c : Nat) (f : Core → Core) : (modCore s c f).poison = s.poison := (rfl)
@[simp] theorem modCore_csr (s : State) (c : Nat) (f : Core → Core) : (modCore s c f).csr = s.csr := (rfl)
@[simp] theorem modCore_regions (s : State) (c : Nat) (f : Core → Core) : (modCore s c f).regions = s.regions := (rfl)
@[simp] theorem modCore_fab (s : State) (c : Nat) (f : Core → Core) : (modCore s c f).fab = s.fab := (rfl)
@[simp] theorem modCore_wkc (s : State) (c : Nat) (f : Core → Core) : (modCore s c f).wkc = s.wkc := (rfl)
@[simp] theorem modCore_memctl (s : State) (c : Nat) (f : Core → Core) : (modCore s c f).memctl = s.memctl := (rfl)
@[simp] theorem modCore_intake (s : State) (c : Nat) (f : Core → Core) : (modCore s c f).intake = s.intake := (rfl)
@[simp] theorem modCore_loader (s : State) (c : Nat) (f : Core → Core) : (modCore s c f).loader = s.loader := (rfl)
@[simp] theorem modCore_net (s : State) (c : Nat) (f : Core → Core) : (modCore s c f).net = s.net := (rfl)
@[simp] theorem modCore_cen (s : State) (c : Nat) (f : Core → Core) : (modCore s c f).cen = s.cen := (rfl)
@[simp] theorem modCore_upu (s : State) (c : Nat) (f : Core → Core) : (modCore s c f).upu = s.upu := (rfl)
@[simp] theorem modCore_cal (s : State) (c : Nat) (f : Core → Core) : (modCore s c f).cal = s.cal := (rfl)
@[simp] theorem modCore_pwr (s : State) (c : Nat) (f : Core → Core) : (modCore s c f).pwr = s.pwr := (rfl)
@[simp] theorem modCore_drl (s : State) (c : Nat) (f : Core → Core) : (modCore s c f).drl = s.drl := (rfl)
@[simp] theorem modCore_sec (s : State) (c : Nat) (f : Core → Core) : (modCore s c f).sec = s.sec := (rfl)
@[simp] theorem modCore_obs (s : State) (c : Nat) (f : Core → Core) : (modCore s c f).obs = s.obs := (rfl)
@[simp] theorem modCore_csrEnd (s : State) (c : Nat) (f : Core → Core) : (modCore s c f).csrEnd = s.csrEnd := (rfl)

-- modRunning
@[simp] theorem modRunning_pending (s : State) (c : Nat) (f : Reel → Reel) : (modRunning s c f).pending = s.pending := (rfl)
@[simp] theorem modRunning_free (s : State) (c : Nat) (f : Reel → Reel) : (modRunning s c f).free = s.free := (rfl)
@[simp] theorem modRunning_kc (s : State) (c : Nat) (f : Reel → Reel) : (modRunning s c f).kc = s.kc := (rfl)
@[simp] theorem modRunning_mem (s : State) (c : Nat) (f : Reel → Reel) : (modRunning s c f).mem = s.mem := (rfl)
@[simp] theorem modRunning_sram (s : State) (c : Nat) (f : Reel → Reel) : (modRunning s c f).sram = s.sram := (rfl)
@[simp] theorem modRunning_flash (s : State) (c : Nat) (f : Reel → Reel) : (modRunning s c f).flash = s.flash := (rfl)
@[simp] theorem modRunning_poison (s : State) (c : Nat) (f : Reel → Reel) : (modRunning s c f).poison = s.poison := (rfl)
@[simp] theorem modRunning_csr (s : State) (c : Nat) (f : Reel → Reel) : (modRunning s c f).csr = s.csr := (rfl)
@[simp] theorem modRunning_regions (s : State) (c : Nat) (f : Reel → Reel) : (modRunning s c f).regions = s.regions := (rfl)
@[simp] theorem modRunning_fab (s : State) (c : Nat) (f : Reel → Reel) : (modRunning s c f).fab = s.fab := (rfl)
@[simp] theorem modRunning_wkc (s : State) (c : Nat) (f : Reel → Reel) : (modRunning s c f).wkc = s.wkc := (rfl)
@[simp] theorem modRunning_memctl (s : State) (c : Nat) (f : Reel → Reel) : (modRunning s c f).memctl = s.memctl := (rfl)
@[simp] theorem modRunning_intake (s : State) (c : Nat) (f : Reel → Reel) : (modRunning s c f).intake = s.intake := (rfl)
@[simp] theorem modRunning_loader (s : State) (c : Nat) (f : Reel → Reel) : (modRunning s c f).loader = s.loader := (rfl)
@[simp] theorem modRunning_net (s : State) (c : Nat) (f : Reel → Reel) : (modRunning s c f).net = s.net := (rfl)
@[simp] theorem modRunning_cen (s : State) (c : Nat) (f : Reel → Reel) : (modRunning s c f).cen = s.cen := (rfl)
@[simp] theorem modRunning_upu (s : State) (c : Nat) (f : Reel → Reel) : (modRunning s c f).upu = s.upu := (rfl)
@[simp] theorem modRunning_cal (s : State) (c : Nat) (f : Reel → Reel) : (modRunning s c f).cal = s.cal := (rfl)
@[simp] theorem modRunning_pwr (s : State) (c : Nat) (f : Reel → Reel) : (modRunning s c f).pwr = s.pwr := (rfl)
@[simp] theorem modRunning_drl (s : State) (c : Nat) (f : Reel → Reel) : (modRunning s c f).drl = s.drl := (rfl)
@[simp] theorem modRunning_sec (s : State) (c : Nat) (f : Reel → Reel) : (modRunning s c f).sec = s.sec := (rfl)
@[simp] theorem modRunning_obs (s : State) (c : Nat) (f : Reel → Reel) : (modRunning s c f).obs = s.obs := (rfl)
@[simp] theorem modRunning_csrEnd (s : State) (c : Nat) (f : Reel → Reel) : (modRunning s c f).csrEnd = s.csrEnd := (rfl)

-- bump
@[simp] theorem bump_pending (s : State) (a n : Nat) : (bump s a n).pending = s.pending := (rfl)
@[simp] theorem bump_free (s : State) (a n : Nat) : (bump s a n).free = s.free := (rfl)
@[simp] theorem bump_kc (s : State) (a n : Nat) : (bump s a n).kc = s.kc := (rfl)
@[simp] theorem bump_mem (s : State) (a n : Nat) : (bump s a n).mem = s.mem := (rfl)
@[simp] theorem bump_sram (s : State) (a n : Nat) : (bump s a n).sram = s.sram := (rfl)
@[simp] theorem bump_flash (s : State) (a n : Nat) : (bump s a n).flash = s.flash := (rfl)
@[simp] theorem bump_poison (s : State) (a n : Nat) : (bump s a n).poison = s.poison := (rfl)
@[simp] theorem bump_regions (s : State) (a n : Nat) : (bump s a n).regions = s.regions := (rfl)
@[simp] theorem bump_cores (s : State) (a n : Nat) : (bump s a n).cores = s.cores := (rfl)
@[simp] theorem bump_fab (s : State) (a n : Nat) : (bump s a n).fab = s.fab := (rfl)
@[simp] theorem bump_wkc (s : State) (a n : Nat) : (bump s a n).wkc = s.wkc := (rfl)
@[simp] theorem bump_memctl (s : State) (a n : Nat) : (bump s a n).memctl = s.memctl := (rfl)
@[simp] theorem bump_intake (s : State) (a n : Nat) : (bump s a n).intake = s.intake := (rfl)
@[simp] theorem bump_loader (s : State) (a n : Nat) : (bump s a n).loader = s.loader := (rfl)
@[simp] theorem bump_net (s : State) (a n : Nat) : (bump s a n).net = s.net := (rfl)
@[simp] theorem bump_cen (s : State) (a n : Nat) : (bump s a n).cen = s.cen := (rfl)
@[simp] theorem bump_upu (s : State) (a n : Nat) : (bump s a n).upu = s.upu := (rfl)
@[simp] theorem bump_cal (s : State) (a n : Nat) : (bump s a n).cal = s.cal := (rfl)
@[simp] theorem bump_pwr (s : State) (a n : Nat) : (bump s a n).pwr = s.pwr := (rfl)
@[simp] theorem bump_drl (s : State) (a n : Nat) : (bump s a n).drl = s.drl := (rfl)
@[simp] theorem bump_sec (s : State) (a n : Nat) : (bump s a n).sec = s.sec := (rfl)
@[simp] theorem bump_obs (s : State) (a n : Nat) : (bump s a n).obs = s.obs := (rfl)
@[simp] theorem bump_csrEnd (s : State) (a n : Nat) : (bump s a n).csrEnd = s.csrEnd := (rfl)

-- cput
@[simp] theorem cput_pending (s : State) (a hi lo v : Nat) : (cput s a hi lo v).pending = s.pending := (rfl)
@[simp] theorem cput_free (s : State) (a hi lo v : Nat) : (cput s a hi lo v).free = s.free := (rfl)
@[simp] theorem cput_kc (s : State) (a hi lo v : Nat) : (cput s a hi lo v).kc = s.kc := (rfl)
@[simp] theorem cput_mem (s : State) (a hi lo v : Nat) : (cput s a hi lo v).mem = s.mem := (rfl)
@[simp] theorem cput_sram (s : State) (a hi lo v : Nat) : (cput s a hi lo v).sram = s.sram := (rfl)
@[simp] theorem cput_flash (s : State) (a hi lo v : Nat) : (cput s a hi lo v).flash = s.flash := (rfl)
@[simp] theorem cput_poison (s : State) (a hi lo v : Nat) : (cput s a hi lo v).poison = s.poison := (rfl)
@[simp] theorem cput_regions (s : State) (a hi lo v : Nat) : (cput s a hi lo v).regions = s.regions := (rfl)
@[simp] theorem cput_cores (s : State) (a hi lo v : Nat) : (cput s a hi lo v).cores = s.cores := (rfl)
@[simp] theorem cput_fab (s : State) (a hi lo v : Nat) : (cput s a hi lo v).fab = s.fab := (rfl)
@[simp] theorem cput_wkc (s : State) (a hi lo v : Nat) : (cput s a hi lo v).wkc = s.wkc := (rfl)
@[simp] theorem cput_memctl (s : State) (a hi lo v : Nat) : (cput s a hi lo v).memctl = s.memctl := (rfl)
@[simp] theorem cput_intake (s : State) (a hi lo v : Nat) : (cput s a hi lo v).intake = s.intake := (rfl)
@[simp] theorem cput_loader (s : State) (a hi lo v : Nat) : (cput s a hi lo v).loader = s.loader := (rfl)
@[simp] theorem cput_net (s : State) (a hi lo v : Nat) : (cput s a hi lo v).net = s.net := (rfl)
@[simp] theorem cput_cen (s : State) (a hi lo v : Nat) : (cput s a hi lo v).cen = s.cen := (rfl)
@[simp] theorem cput_upu (s : State) (a hi lo v : Nat) : (cput s a hi lo v).upu = s.upu := (rfl)
@[simp] theorem cput_cal (s : State) (a hi lo v : Nat) : (cput s a hi lo v).cal = s.cal := (rfl)
@[simp] theorem cput_pwr (s : State) (a hi lo v : Nat) : (cput s a hi lo v).pwr = s.pwr := (rfl)
@[simp] theorem cput_drl (s : State) (a hi lo v : Nat) : (cput s a hi lo v).drl = s.drl := (rfl)
@[simp] theorem cput_sec (s : State) (a hi lo v : Nat) : (cput s a hi lo v).sec = s.sec := (rfl)
@[simp] theorem cput_obs (s : State) (a hi lo v : Nat) : (cput s a hi lo v).obs = s.obs := (rfl)
@[simp] theorem cput_csrEnd (s : State) (a hi lo v : Nat) : (cput s a hi lo v).csrEnd = s.csrEnd := (rfl)

-- corr
@[simp] theorem corr_pending (s : State) (a : Nat) (v : W64) : (corr s a v).pending = s.pending := (rfl)
@[simp] theorem corr_free (s : State) (a : Nat) (v : W64) : (corr s a v).free = s.free := (rfl)
@[simp] theorem corr_kc (s : State) (a : Nat) (v : W64) : (corr s a v).kc = s.kc := (rfl)
@[simp] theorem corr_mem (s : State) (a : Nat) (v : W64) : (corr s a v).mem = s.mem := (rfl)
@[simp] theorem corr_sram (s : State) (a : Nat) (v : W64) : (corr s a v).sram = s.sram := (rfl)
@[simp] theorem corr_flash (s : State) (a : Nat) (v : W64) : (corr s a v).flash = s.flash := (rfl)
@[simp] theorem corr_poison (s : State) (a : Nat) (v : W64) : (corr s a v).poison = s.poison := (rfl)
@[simp] theorem corr_regions (s : State) (a : Nat) (v : W64) : (corr s a v).regions = s.regions := (rfl)
@[simp] theorem corr_cores (s : State) (a : Nat) (v : W64) : (corr s a v).cores = s.cores := (rfl)
@[simp] theorem corr_fab (s : State) (a : Nat) (v : W64) : (corr s a v).fab = s.fab := (rfl)
@[simp] theorem corr_wkc (s : State) (a : Nat) (v : W64) : (corr s a v).wkc = s.wkc := (rfl)
@[simp] theorem corr_memctl (s : State) (a : Nat) (v : W64) : (corr s a v).memctl = s.memctl := (rfl)
@[simp] theorem corr_intake (s : State) (a : Nat) (v : W64) : (corr s a v).intake = s.intake := (rfl)
@[simp] theorem corr_loader (s : State) (a : Nat) (v : W64) : (corr s a v).loader = s.loader := (rfl)
@[simp] theorem corr_net (s : State) (a : Nat) (v : W64) : (corr s a v).net = s.net := (rfl)
@[simp] theorem corr_cen (s : State) (a : Nat) (v : W64) : (corr s a v).cen = s.cen := (rfl)
@[simp] theorem corr_upu (s : State) (a : Nat) (v : W64) : (corr s a v).upu = s.upu := (rfl)
@[simp] theorem corr_cal (s : State) (a : Nat) (v : W64) : (corr s a v).cal = s.cal := (rfl)
@[simp] theorem corr_pwr (s : State) (a : Nat) (v : W64) : (corr s a v).pwr = s.pwr := (rfl)
@[simp] theorem corr_drl (s : State) (a : Nat) (v : W64) : (corr s a v).drl = s.drl := (rfl)
@[simp] theorem corr_sec (s : State) (a : Nat) (v : W64) : (corr s a v).sec = s.sec := (rfl)
@[simp] theorem corr_obs (s : State) (a : Nat) (v : W64) : (corr s a v).obs = s.obs := (rfl)
@[simp] theorem corr_csrEnd (s : State) (a : Nat) (v : W64) : (corr s a v).csrEnd = s.csrEnd := (rfl)

-- modDrl
@[simp] theorem modDrl_pending (s : State) (f : Drl → Drl) : (modDrl s f).pending = s.pending := (rfl)
@[simp] theorem modDrl_free (s : State) (f : Drl → Drl) : (modDrl s f).free = s.free := (rfl)
@[simp] theorem modDrl_kc (s : State) (f : Drl → Drl) : (modDrl s f).kc = s.kc := (rfl)
@[simp] theorem modDrl_mem (s : State) (f : Drl → Drl) : (modDrl s f).mem = s.mem := (rfl)
@[simp] theorem modDrl_sram (s : State) (f : Drl → Drl) : (modDrl s f).sram = s.sram := (rfl)
@[simp] theorem modDrl_flash (s : State) (f : Drl → Drl) : (modDrl s f).flash = s.flash := (rfl)
@[simp] theorem modDrl_poison (s : State) (f : Drl → Drl) : (modDrl s f).poison = s.poison := (rfl)
@[simp] theorem modDrl_csr (s : State) (f : Drl → Drl) : (modDrl s f).csr = s.csr := (rfl)
@[simp] theorem modDrl_regions (s : State) (f : Drl → Drl) : (modDrl s f).regions = s.regions := (rfl)
@[simp] theorem modDrl_cores (s : State) (f : Drl → Drl) : (modDrl s f).cores = s.cores := (rfl)
@[simp] theorem modDrl_fab (s : State) (f : Drl → Drl) : (modDrl s f).fab = s.fab := (rfl)
@[simp] theorem modDrl_wkc (s : State) (f : Drl → Drl) : (modDrl s f).wkc = s.wkc := (rfl)
@[simp] theorem modDrl_memctl (s : State) (f : Drl → Drl) : (modDrl s f).memctl = s.memctl := (rfl)
@[simp] theorem modDrl_intake (s : State) (f : Drl → Drl) : (modDrl s f).intake = s.intake := (rfl)
@[simp] theorem modDrl_loader (s : State) (f : Drl → Drl) : (modDrl s f).loader = s.loader := (rfl)
@[simp] theorem modDrl_net (s : State) (f : Drl → Drl) : (modDrl s f).net = s.net := (rfl)
@[simp] theorem modDrl_cen (s : State) (f : Drl → Drl) : (modDrl s f).cen = s.cen := (rfl)
@[simp] theorem modDrl_upu (s : State) (f : Drl → Drl) : (modDrl s f).upu = s.upu := (rfl)
@[simp] theorem modDrl_cal (s : State) (f : Drl → Drl) : (modDrl s f).cal = s.cal := (rfl)
@[simp] theorem modDrl_pwr (s : State) (f : Drl → Drl) : (modDrl s f).pwr = s.pwr := (rfl)
@[simp] theorem modDrl_sec (s : State) (f : Drl → Drl) : (modDrl s f).sec = s.sec := (rfl)
@[simp] theorem modDrl_obs (s : State) (f : Drl → Drl) : (modDrl s f).obs = s.obs := (rfl)
@[simp] theorem modDrl_csrEnd (s : State) (f : Drl → Drl) : (modDrl s f).csrEnd = s.csrEnd := (rfl)

-- modIntake
@[simp] theorem modIntake_pending (s : State) (f : Intake → Intake) : (modIntake s f).pending = s.pending := (rfl)
@[simp] theorem modIntake_free (s : State) (f : Intake → Intake) : (modIntake s f).free = s.free := (rfl)
@[simp] theorem modIntake_kc (s : State) (f : Intake → Intake) : (modIntake s f).kc = s.kc := (rfl)
@[simp] theorem modIntake_mem (s : State) (f : Intake → Intake) : (modIntake s f).mem = s.mem := (rfl)
@[simp] theorem modIntake_sram (s : State) (f : Intake → Intake) : (modIntake s f).sram = s.sram := (rfl)
@[simp] theorem modIntake_flash (s : State) (f : Intake → Intake) : (modIntake s f).flash = s.flash := (rfl)
@[simp] theorem modIntake_poison (s : State) (f : Intake → Intake) : (modIntake s f).poison = s.poison := (rfl)
@[simp] theorem modIntake_csr (s : State) (f : Intake → Intake) : (modIntake s f).csr = s.csr := (rfl)
@[simp] theorem modIntake_regions (s : State) (f : Intake → Intake) : (modIntake s f).regions = s.regions := (rfl)
@[simp] theorem modIntake_cores (s : State) (f : Intake → Intake) : (modIntake s f).cores = s.cores := (rfl)
@[simp] theorem modIntake_fab (s : State) (f : Intake → Intake) : (modIntake s f).fab = s.fab := (rfl)
@[simp] theorem modIntake_wkc (s : State) (f : Intake → Intake) : (modIntake s f).wkc = s.wkc := (rfl)
@[simp] theorem modIntake_memctl (s : State) (f : Intake → Intake) : (modIntake s f).memctl = s.memctl := (rfl)
@[simp] theorem modIntake_loader (s : State) (f : Intake → Intake) : (modIntake s f).loader = s.loader := (rfl)
@[simp] theorem modIntake_net (s : State) (f : Intake → Intake) : (modIntake s f).net = s.net := (rfl)
@[simp] theorem modIntake_cen (s : State) (f : Intake → Intake) : (modIntake s f).cen = s.cen := (rfl)
@[simp] theorem modIntake_upu (s : State) (f : Intake → Intake) : (modIntake s f).upu = s.upu := (rfl)
@[simp] theorem modIntake_cal (s : State) (f : Intake → Intake) : (modIntake s f).cal = s.cal := (rfl)
@[simp] theorem modIntake_pwr (s : State) (f : Intake → Intake) : (modIntake s f).pwr = s.pwr := (rfl)
@[simp] theorem modIntake_drl (s : State) (f : Intake → Intake) : (modIntake s f).drl = s.drl := (rfl)
@[simp] theorem modIntake_sec (s : State) (f : Intake → Intake) : (modIntake s f).sec = s.sec := (rfl)
@[simp] theorem modIntake_obs (s : State) (f : Intake → Intake) : (modIntake s f).obs = s.obs := (rfl)
@[simp] theorem modIntake_csrEnd (s : State) (f : Intake → Intake) : (modIntake s f).csrEnd = s.csrEnd := (rfl)

-- clearPoison
@[simp] theorem clearPoison_pending (s : State) (a len : Nat) : (clearPoison s a len).pending = s.pending := (rfl)
@[simp] theorem clearPoison_free (s : State) (a len : Nat) : (clearPoison s a len).free = s.free := (rfl)
@[simp] theorem clearPoison_kc (s : State) (a len : Nat) : (clearPoison s a len).kc = s.kc := (rfl)
@[simp] theorem clearPoison_mem (s : State) (a len : Nat) : (clearPoison s a len).mem = s.mem := (rfl)
@[simp] theorem clearPoison_sram (s : State) (a len : Nat) : (clearPoison s a len).sram = s.sram := (rfl)
@[simp] theorem clearPoison_flash (s : State) (a len : Nat) : (clearPoison s a len).flash = s.flash := (rfl)
@[simp] theorem clearPoison_csr (s : State) (a len : Nat) : (clearPoison s a len).csr = s.csr := (rfl)
@[simp] theorem clearPoison_regions (s : State) (a len : Nat) : (clearPoison s a len).regions = s.regions := (rfl)
@[simp] theorem clearPoison_cores (s : State) (a len : Nat) : (clearPoison s a len).cores = s.cores := (rfl)
@[simp] theorem clearPoison_fab (s : State) (a len : Nat) : (clearPoison s a len).fab = s.fab := (rfl)
@[simp] theorem clearPoison_wkc (s : State) (a len : Nat) : (clearPoison s a len).wkc = s.wkc := (rfl)
@[simp] theorem clearPoison_memctl (s : State) (a len : Nat) : (clearPoison s a len).memctl = s.memctl := (rfl)
@[simp] theorem clearPoison_intake (s : State) (a len : Nat) : (clearPoison s a len).intake = s.intake := (rfl)
@[simp] theorem clearPoison_loader (s : State) (a len : Nat) : (clearPoison s a len).loader = s.loader := (rfl)
@[simp] theorem clearPoison_net (s : State) (a len : Nat) : (clearPoison s a len).net = s.net := (rfl)
@[simp] theorem clearPoison_cen (s : State) (a len : Nat) : (clearPoison s a len).cen = s.cen := (rfl)
@[simp] theorem clearPoison_upu (s : State) (a len : Nat) : (clearPoison s a len).upu = s.upu := (rfl)
@[simp] theorem clearPoison_cal (s : State) (a len : Nat) : (clearPoison s a len).cal = s.cal := (rfl)
@[simp] theorem clearPoison_pwr (s : State) (a len : Nat) : (clearPoison s a len).pwr = s.pwr := (rfl)
@[simp] theorem clearPoison_drl (s : State) (a len : Nat) : (clearPoison s a len).drl = s.drl := (rfl)
@[simp] theorem clearPoison_sec (s : State) (a len : Nat) : (clearPoison s a len).sec = s.sec := (rfl)
@[simp] theorem clearPoison_obs (s : State) (a len : Nat) : (clearPoison s a len).obs = s.obs := (rfl)
@[simp] theorem clearPoison_csrEnd (s : State) (a len : Nat) : (clearPoison s a len).csrEnd = s.csrEnd := (rfl)

-- flashProg
@[simp] theorem flashProg_pending (s : State) (a : Nat) (d : List Byte) : (flashProg s a d).pending = s.pending := (rfl)
@[simp] theorem flashProg_free (s : State) (a : Nat) (d : List Byte) : (flashProg s a d).free = s.free := (rfl)
@[simp] theorem flashProg_kc (s : State) (a : Nat) (d : List Byte) : (flashProg s a d).kc = s.kc := (rfl)
@[simp] theorem flashProg_mem (s : State) (a : Nat) (d : List Byte) : (flashProg s a d).mem = s.mem := (rfl)
@[simp] theorem flashProg_sram (s : State) (a : Nat) (d : List Byte) : (flashProg s a d).sram = s.sram := (rfl)
@[simp] theorem flashProg_poison (s : State) (a : Nat) (d : List Byte) : (flashProg s a d).poison = s.poison := (rfl)
@[simp] theorem flashProg_csr (s : State) (a : Nat) (d : List Byte) : (flashProg s a d).csr = s.csr := (rfl)
@[simp] theorem flashProg_regions (s : State) (a : Nat) (d : List Byte) : (flashProg s a d).regions = s.regions := (rfl)
@[simp] theorem flashProg_cores (s : State) (a : Nat) (d : List Byte) : (flashProg s a d).cores = s.cores := (rfl)
@[simp] theorem flashProg_fab (s : State) (a : Nat) (d : List Byte) : (flashProg s a d).fab = s.fab := (rfl)
@[simp] theorem flashProg_wkc (s : State) (a : Nat) (d : List Byte) : (flashProg s a d).wkc = s.wkc := (rfl)
@[simp] theorem flashProg_memctl (s : State) (a : Nat) (d : List Byte) : (flashProg s a d).memctl = s.memctl := (rfl)
@[simp] theorem flashProg_intake (s : State) (a : Nat) (d : List Byte) : (flashProg s a d).intake = s.intake := (rfl)
@[simp] theorem flashProg_loader (s : State) (a : Nat) (d : List Byte) : (flashProg s a d).loader = s.loader := (rfl)
@[simp] theorem flashProg_net (s : State) (a : Nat) (d : List Byte) : (flashProg s a d).net = s.net := (rfl)
@[simp] theorem flashProg_cen (s : State) (a : Nat) (d : List Byte) : (flashProg s a d).cen = s.cen := (rfl)
@[simp] theorem flashProg_upu (s : State) (a : Nat) (d : List Byte) : (flashProg s a d).upu = s.upu := (rfl)
@[simp] theorem flashProg_cal (s : State) (a : Nat) (d : List Byte) : (flashProg s a d).cal = s.cal := (rfl)
@[simp] theorem flashProg_pwr (s : State) (a : Nat) (d : List Byte) : (flashProg s a d).pwr = s.pwr := (rfl)
@[simp] theorem flashProg_drl (s : State) (a : Nat) (d : List Byte) : (flashProg s a d).drl = s.drl := (rfl)
@[simp] theorem flashProg_sec (s : State) (a : Nat) (d : List Byte) : (flashProg s a d).sec = s.sec := (rfl)
@[simp] theorem flashProg_obs (s : State) (a : Nat) (d : List Byte) : (flashProg s a d).obs = s.obs := (rfl)
@[simp] theorem flashProg_csrEnd (s : State) (a : Nat) (d : List Byte) : (flashProg s a d).csrEnd = s.csrEnd := (rfl)

-- flashErase
@[simp] theorem flashErase_pending (s : State) (a len : Nat) : (flashErase s a len).pending = s.pending := (rfl)
@[simp] theorem flashErase_free (s : State) (a len : Nat) : (flashErase s a len).free = s.free := (rfl)
@[simp] theorem flashErase_kc (s : State) (a len : Nat) : (flashErase s a len).kc = s.kc := (rfl)
@[simp] theorem flashErase_mem (s : State) (a len : Nat) : (flashErase s a len).mem = s.mem := (rfl)
@[simp] theorem flashErase_sram (s : State) (a len : Nat) : (flashErase s a len).sram = s.sram := (rfl)
@[simp] theorem flashErase_poison (s : State) (a len : Nat) : (flashErase s a len).poison = s.poison := (rfl)
@[simp] theorem flashErase_csr (s : State) (a len : Nat) : (flashErase s a len).csr = s.csr := (rfl)
@[simp] theorem flashErase_regions (s : State) (a len : Nat) : (flashErase s a len).regions = s.regions := (rfl)
@[simp] theorem flashErase_cores (s : State) (a len : Nat) : (flashErase s a len).cores = s.cores := (rfl)
@[simp] theorem flashErase_fab (s : State) (a len : Nat) : (flashErase s a len).fab = s.fab := (rfl)
@[simp] theorem flashErase_wkc (s : State) (a len : Nat) : (flashErase s a len).wkc = s.wkc := (rfl)
@[simp] theorem flashErase_memctl (s : State) (a len : Nat) : (flashErase s a len).memctl = s.memctl := (rfl)
@[simp] theorem flashErase_intake (s : State) (a len : Nat) : (flashErase s a len).intake = s.intake := (rfl)
@[simp] theorem flashErase_loader (s : State) (a len : Nat) : (flashErase s a len).loader = s.loader := (rfl)
@[simp] theorem flashErase_net (s : State) (a len : Nat) : (flashErase s a len).net = s.net := (rfl)
@[simp] theorem flashErase_cen (s : State) (a len : Nat) : (flashErase s a len).cen = s.cen := (rfl)
@[simp] theorem flashErase_upu (s : State) (a len : Nat) : (flashErase s a len).upu = s.upu := (rfl)
@[simp] theorem flashErase_cal (s : State) (a len : Nat) : (flashErase s a len).cal = s.cal := (rfl)
@[simp] theorem flashErase_pwr (s : State) (a len : Nat) : (flashErase s a len).pwr = s.pwr := (rfl)
@[simp] theorem flashErase_drl (s : State) (a len : Nat) : (flashErase s a len).drl = s.drl := (rfl)
@[simp] theorem flashErase_sec (s : State) (a len : Nat) : (flashErase s a len).sec = s.sec := (rfl)
@[simp] theorem flashErase_obs (s : State) (a len : Nat) : (flashErase s a len).obs = s.obs := (rfl)
@[simp] theorem flashErase_csrEnd (s : State) (a len : Nat) : (flashErase s a len).csrEnd = s.csrEnd := (rfl)

-- sramWrites
@[simp] theorem sramWrites_pending (s : State) (p off : Nat) (d : List Byte) : (sramWrites s p off d).pending = s.pending := (rfl)
@[simp] theorem sramWrites_free (s : State) (p off : Nat) (d : List Byte) : (sramWrites s p off d).free = s.free := (rfl)
@[simp] theorem sramWrites_kc (s : State) (p off : Nat) (d : List Byte) : (sramWrites s p off d).kc = s.kc := (rfl)
@[simp] theorem sramWrites_mem (s : State) (p off : Nat) (d : List Byte) : (sramWrites s p off d).mem = s.mem := (rfl)
@[simp] theorem sramWrites_flash (s : State) (p off : Nat) (d : List Byte) : (sramWrites s p off d).flash = s.flash := (rfl)
@[simp] theorem sramWrites_poison (s : State) (p off : Nat) (d : List Byte) : (sramWrites s p off d).poison = s.poison := (rfl)
@[simp] theorem sramWrites_csr (s : State) (p off : Nat) (d : List Byte) : (sramWrites s p off d).csr = s.csr := (rfl)
@[simp] theorem sramWrites_regions (s : State) (p off : Nat) (d : List Byte) : (sramWrites s p off d).regions = s.regions := (rfl)
@[simp] theorem sramWrites_cores (s : State) (p off : Nat) (d : List Byte) : (sramWrites s p off d).cores = s.cores := (rfl)
@[simp] theorem sramWrites_fab (s : State) (p off : Nat) (d : List Byte) : (sramWrites s p off d).fab = s.fab := (rfl)
@[simp] theorem sramWrites_wkc (s : State) (p off : Nat) (d : List Byte) : (sramWrites s p off d).wkc = s.wkc := (rfl)
@[simp] theorem sramWrites_memctl (s : State) (p off : Nat) (d : List Byte) : (sramWrites s p off d).memctl = s.memctl := (rfl)
@[simp] theorem sramWrites_intake (s : State) (p off : Nat) (d : List Byte) : (sramWrites s p off d).intake = s.intake := (rfl)
@[simp] theorem sramWrites_loader (s : State) (p off : Nat) (d : List Byte) : (sramWrites s p off d).loader = s.loader := (rfl)
@[simp] theorem sramWrites_net (s : State) (p off : Nat) (d : List Byte) : (sramWrites s p off d).net = s.net := (rfl)
@[simp] theorem sramWrites_cen (s : State) (p off : Nat) (d : List Byte) : (sramWrites s p off d).cen = s.cen := (rfl)
@[simp] theorem sramWrites_upu (s : State) (p off : Nat) (d : List Byte) : (sramWrites s p off d).upu = s.upu := (rfl)
@[simp] theorem sramWrites_cal (s : State) (p off : Nat) (d : List Byte) : (sramWrites s p off d).cal = s.cal := (rfl)
@[simp] theorem sramWrites_pwr (s : State) (p off : Nat) (d : List Byte) : (sramWrites s p off d).pwr = s.pwr := (rfl)
@[simp] theorem sramWrites_drl (s : State) (p off : Nat) (d : List Byte) : (sramWrites s p off d).drl = s.drl := (rfl)
@[simp] theorem sramWrites_sec (s : State) (p off : Nat) (d : List Byte) : (sramWrites s p off d).sec = s.sec := (rfl)
@[simp] theorem sramWrites_obs (s : State) (p off : Nat) (d : List Byte) : (sramWrites s p off d).obs = s.obs := (rfl)
@[simp] theorem sramWrites_csrEnd (s : State) (p off : Nat) (d : List Byte) : (sramWrites s p off d).csrEnd = s.csrEnd := (rfl)

-- withReel
@[simp] theorem withReel_running (x : Core) (r : Nat) (y : Reel) : (withReel x r y).running = x.running := (rfl)
@[simp] theorem withReel_trapped (x : Core) (r : Nat) (y : Reel) : (withReel x r y).trapped = x.trapped := (rfl)
@[simp] theorem withReel_issued (x : Core) (r : Nat) (y : Reel) : (withReel x r y).issued = x.issued := (rfl)
@[simp] theorem withReel_cfg (x : Core) (r : Nat) (y : Reel) : (withReel x r y).cfg = x.cfg := (rfl)
@[simp] theorem withReel_code (x : Core) (r : Nat) (y : Reel) : (withReel x r y).code = x.code := (rfl)
@[simp] theorem withReel_ctrReqs (x : Core) (r : Nat) (y : Reel) : (withReel x r y).ctrReqs = x.ctrReqs := (rfl)
@[simp] theorem withReel_place (x : Core) (r : Nat) (y : Reel) : (withReel x r y).place = x.place := (rfl)
@[simp] theorem withReel_take (x : Core) (r : Nat) (y : Reel) : (withReel x r y).take = x.take := (rfl)
@[simp] theorem withReel_share (x : Core) (r : Nat) (y : Reel) : (withReel x r y).share = x.share := (rfl)
@[simp] theorem withReel_queues (x : Core) (r : Nat) (y : Reel) : (withReel x r y).queues = x.queues := (rfl)
@[simp] theorem withReel_bars (x : Core) (r : Nat) (y : Reel) : (withReel x r y).bars = x.bars := (rfl)
@[simp] theorem withReel_mxe (x : Core) (r : Nat) (y : Reel) : (withReel x r y).mxe = x.mxe := (rfl)
@[simp] theorem withReel_vce (x : Core) (r : Nat) (y : Reel) : (withReel x r y).vce = x.vce := (rfl)
@[simp] theorem withReel_red (x : Core) (r : Nat) (y : Reel) : (withReel x r y).red = x.red := (rfl)
@[simp] theorem withReel_ags (x : Core) (r : Nat) (y : Reel) : (withReel x r y).ags = x.ags := (rfl)
@[simp] theorem withReel_agReels (x : Core) (r : Nat) (y : Reel) : (withReel x r y).agReels = x.agReels := (rfl)
@[simp] theorem withReel_reqs (x : Core) (r : Nat) (y : Reel) : (withReel x r y).reqs = x.reqs := (rfl)
@[simp] theorem withReel_xfrs (x : Core) (r : Nat) (y : Reel) : (withReel x r y).xfrs = x.xfrs := (rfl)
@[simp] theorem withReel_guards (x : Core) (r : Nat) (y : Reel) : (withReel x r y).guards = x.guards := (rfl)
@[simp] theorem withReel_stus (x : Core) (r : Nat) (y : Reel) : (withReel x r y).stus = x.stus := (rfl)
@[simp] theorem withReel_unitReel (x : Core) (r : Nat) (y : Reel) : (withReel x r y).unitReel = x.unitReel := (rfl)
@[simp] theorem withReel_mcasts (x : Core) (r : Nat) (y : Reel) : (withReel x r y).mcasts = x.mcasts := (rfl)
@[simp] theorem withReel_power (x : Core) (r : Nat) (y : Reel) : (withReel x r y).power = x.power := (rfl)
@[simp] theorem withReel_waking (x : Core) (r : Nat) (y : Reel) : (withReel x r y).waking = x.waking := (rfl)
@[simp] theorem withReel_napping (x : Core) (r : Nat) (y : Reel) : (withReel x r y).napping = x.napping := (rfl)
@[simp] theorem withReel_fenced (x : Core) (r : Nat) (y : Reel) : (withReel x r y).fenced = x.fenced := (rfl)

-- withBar
@[simp] theorem withBar_reels (x : Core) (m k : Nat) (y : Bar) : (withBar x m k y).reels = x.reels := (rfl)
@[simp] theorem withBar_running (x : Core) (m k : Nat) (y : Bar) : (withBar x m k y).running = x.running := (rfl)
@[simp] theorem withBar_trapped (x : Core) (m k : Nat) (y : Bar) : (withBar x m k y).trapped = x.trapped := (rfl)
@[simp] theorem withBar_issued (x : Core) (m k : Nat) (y : Bar) : (withBar x m k y).issued = x.issued := (rfl)
@[simp] theorem withBar_cfg (x : Core) (m k : Nat) (y : Bar) : (withBar x m k y).cfg = x.cfg := (rfl)
@[simp] theorem withBar_code (x : Core) (m k : Nat) (y : Bar) : (withBar x m k y).code = x.code := (rfl)
@[simp] theorem withBar_ctrReqs (x : Core) (m k : Nat) (y : Bar) : (withBar x m k y).ctrReqs = x.ctrReqs := (rfl)
@[simp] theorem withBar_place (x : Core) (m k : Nat) (y : Bar) : (withBar x m k y).place = x.place := (rfl)
@[simp] theorem withBar_take (x : Core) (m k : Nat) (y : Bar) : (withBar x m k y).take = x.take := (rfl)
@[simp] theorem withBar_share (x : Core) (m k : Nat) (y : Bar) : (withBar x m k y).share = x.share := (rfl)
@[simp] theorem withBar_queues (x : Core) (m k : Nat) (y : Bar) : (withBar x m k y).queues = x.queues := (rfl)
@[simp] theorem withBar_mxe (x : Core) (m k : Nat) (y : Bar) : (withBar x m k y).mxe = x.mxe := (rfl)
@[simp] theorem withBar_vce (x : Core) (m k : Nat) (y : Bar) : (withBar x m k y).vce = x.vce := (rfl)
@[simp] theorem withBar_red (x : Core) (m k : Nat) (y : Bar) : (withBar x m k y).red = x.red := (rfl)
@[simp] theorem withBar_ags (x : Core) (m k : Nat) (y : Bar) : (withBar x m k y).ags = x.ags := (rfl)
@[simp] theorem withBar_agReels (x : Core) (m k : Nat) (y : Bar) : (withBar x m k y).agReels = x.agReels := (rfl)
@[simp] theorem withBar_reqs (x : Core) (m k : Nat) (y : Bar) : (withBar x m k y).reqs = x.reqs := (rfl)
@[simp] theorem withBar_xfrs (x : Core) (m k : Nat) (y : Bar) : (withBar x m k y).xfrs = x.xfrs := (rfl)
@[simp] theorem withBar_guards (x : Core) (m k : Nat) (y : Bar) : (withBar x m k y).guards = x.guards := (rfl)
@[simp] theorem withBar_stus (x : Core) (m k : Nat) (y : Bar) : (withBar x m k y).stus = x.stus := (rfl)
@[simp] theorem withBar_unitReel (x : Core) (m k : Nat) (y : Bar) : (withBar x m k y).unitReel = x.unitReel := (rfl)
@[simp] theorem withBar_mcasts (x : Core) (m k : Nat) (y : Bar) : (withBar x m k y).mcasts = x.mcasts := (rfl)
@[simp] theorem withBar_power (x : Core) (m k : Nat) (y : Bar) : (withBar x m k y).power = x.power := (rfl)
@[simp] theorem withBar_waking (x : Core) (m k : Nat) (y : Bar) : (withBar x m k y).waking = x.waking := (rfl)
@[simp] theorem withBar_napping (x : Core) (m k : Nat) (y : Bar) : (withBar x m k y).napping = x.napping := (rfl)
@[simp] theorem withBar_fenced (x : Core) (m k : Nat) (y : Bar) : (withBar x m k y).fenced = x.fenced := (rfl)

-- withQueue
@[simp] theorem withQueue_reels (x : Core) (q : Nat) (l : List QDesc) : (withQueue x q l).reels = x.reels := (rfl)
@[simp] theorem withQueue_running (x : Core) (q : Nat) (l : List QDesc) : (withQueue x q l).running = x.running := (rfl)
@[simp] theorem withQueue_trapped (x : Core) (q : Nat) (l : List QDesc) : (withQueue x q l).trapped = x.trapped := (rfl)
@[simp] theorem withQueue_issued (x : Core) (q : Nat) (l : List QDesc) : (withQueue x q l).issued = x.issued := (rfl)
@[simp] theorem withQueue_cfg (x : Core) (q : Nat) (l : List QDesc) : (withQueue x q l).cfg = x.cfg := (rfl)
@[simp] theorem withQueue_code (x : Core) (q : Nat) (l : List QDesc) : (withQueue x q l).code = x.code := (rfl)
@[simp] theorem withQueue_ctrReqs (x : Core) (q : Nat) (l : List QDesc) : (withQueue x q l).ctrReqs = x.ctrReqs := (rfl)
@[simp] theorem withQueue_place (x : Core) (q : Nat) (l : List QDesc) : (withQueue x q l).place = x.place := (rfl)
@[simp] theorem withQueue_take (x : Core) (q : Nat) (l : List QDesc) : (withQueue x q l).take = x.take := (rfl)
@[simp] theorem withQueue_share (x : Core) (q : Nat) (l : List QDesc) : (withQueue x q l).share = x.share := (rfl)
@[simp] theorem withQueue_bars (x : Core) (q : Nat) (l : List QDesc) : (withQueue x q l).bars = x.bars := (rfl)
@[simp] theorem withQueue_mxe (x : Core) (q : Nat) (l : List QDesc) : (withQueue x q l).mxe = x.mxe := (rfl)
@[simp] theorem withQueue_vce (x : Core) (q : Nat) (l : List QDesc) : (withQueue x q l).vce = x.vce := (rfl)
@[simp] theorem withQueue_red (x : Core) (q : Nat) (l : List QDesc) : (withQueue x q l).red = x.red := (rfl)
@[simp] theorem withQueue_ags (x : Core) (q : Nat) (l : List QDesc) : (withQueue x q l).ags = x.ags := (rfl)
@[simp] theorem withQueue_agReels (x : Core) (q : Nat) (l : List QDesc) : (withQueue x q l).agReels = x.agReels := (rfl)
@[simp] theorem withQueue_reqs (x : Core) (q : Nat) (l : List QDesc) : (withQueue x q l).reqs = x.reqs := (rfl)
@[simp] theorem withQueue_xfrs (x : Core) (q : Nat) (l : List QDesc) : (withQueue x q l).xfrs = x.xfrs := (rfl)
@[simp] theorem withQueue_guards (x : Core) (q : Nat) (l : List QDesc) : (withQueue x q l).guards = x.guards := (rfl)
@[simp] theorem withQueue_stus (x : Core) (q : Nat) (l : List QDesc) : (withQueue x q l).stus = x.stus := (rfl)
@[simp] theorem withQueue_unitReel (x : Core) (q : Nat) (l : List QDesc) : (withQueue x q l).unitReel = x.unitReel := (rfl)
@[simp] theorem withQueue_mcasts (x : Core) (q : Nat) (l : List QDesc) : (withQueue x q l).mcasts = x.mcasts := (rfl)
@[simp] theorem withQueue_power (x : Core) (q : Nat) (l : List QDesc) : (withQueue x q l).power = x.power := (rfl)
@[simp] theorem withQueue_waking (x : Core) (q : Nat) (l : List QDesc) : (withQueue x q l).waking = x.waking := (rfl)
@[simp] theorem withQueue_napping (x : Core) (q : Nat) (l : List QDesc) : (withQueue x q l).napping = x.napping := (rfl)
@[simp] theorem withQueue_fenced (x : Core) (q : Nat) (l : List QDesc) : (withQueue x q l).fenced = x.fenced := (rfl)

end Sys2Proof.Machine
end

