-- ==== Sys2Proof/Laws/Access.lean ====
section
/-! SUPPORT. What each named update leaves of what the other accessors read. -/
namespace Sys2Proof.Machine

set_option Elab.async false

open Sys2Proof

-- setCore
@[simp] theorem stream_setCore (s : State) (c : Nat) (x : Core) (i : Nat) : stream (setCore s c x) i = stream s i := (rfl)
@[simp] theorem qp_setCore (s : State) (c : Nat) (x : Core) (i : Nat) : qp (setCore s c x) i = qp s i := (rfl)
@[simp] theorem port_setCore (s : State) (c : Nat) (x : Core) (i : Nat) : port (setCore s c x) i = port s i := (rfl)
@[simp] theorem slotOf_setCore (s : State) (c : Nat) (x : Core) (i : Nat) : slotOf (setCore s c x) i = slotOf s i := (rfl)
@[simp] theorem wkcOf_setCore (s : State) (c : Nat) (x : Core) (i : Nat) : wkcOf (setCore s c x) i = wkcOf s i := (rfl)
@[simp] theorem ctl_setCore (s : State) (c : Nat) (x : Core) (i : Nat) : ctl (setCore s c x) i = ctl s i := (rfl)
@[simp] theorem cget_setCore (s : State) (c : Nat) (x : Core) (i : Nat) : cget (setCore s c x) i = cget s i := (rfl)
@[simp] theorem regionState_setCore (s : State) (c : Nat) (x : Core) (i : Nat) : regionState (setCore s c x) i = regionState s i := (rfl)
@[simp] theorem fast_setCore (s : State) (c : Nat) (x : Core) : fast (setCore s c x) = fast s := (rfl)
@[simp] theorem ready_setCore (s : State) (c : Nat) (x : Core) : ready (setCore s c x) = ready s := (rfl)
@[simp] theorem findEntry_setCore (s : State) (c : Nat) (x : Core) (i j : Nat) : findEntry (setCore s c x) i j = findEntry s i j := (rfl)
@[simp] theorem takeOfCmd_setCore (s : State) (c : Nat) (x : Core) (i j : Nat) : takeOfCmd (setCore s c x) i j = takeOfCmd s i j := (rfl)
@[simp] theorem headEntry_setCore (s : State) (c : Nat) (x : Core) (i : Nat) : headEntry (setCore s c x) i = headEntry s i := (rfl)

-- setQp
@[simp] theorem core_setQp (s : State) (q : Nat) (x : Qp) (i : Nat) : core (setQp s q x) i = core s i := (rfl)
@[simp] theorem stream_setQp (s : State) (q : Nat) (x : Qp) (i : Nat) : stream (setQp s q x) i = stream s i := (rfl)
@[simp] theorem port_setQp (s : State) (q : Nat) (x : Qp) (i : Nat) : port (setQp s q x) i = port s i := (rfl)
@[simp] theorem slotOf_setQp (s : State) (q : Nat) (x : Qp) (i : Nat) : slotOf (setQp s q x) i = slotOf s i := (rfl)
@[simp] theorem wkcOf_setQp (s : State) (q : Nat) (x : Qp) (i : Nat) : wkcOf (setQp s q x) i = wkcOf s i := (rfl)
@[simp] theorem ctl_setQp (s : State) (q : Nat) (x : Qp) (i : Nat) : ctl (setQp s q x) i = ctl s i := (rfl)
@[simp] theorem cget_setQp (s : State) (q : Nat) (x : Qp) (i : Nat) : cget (setQp s q x) i = cget s i := (rfl)
@[simp] theorem regionState_setQp (s : State) (q : Nat) (x : Qp) (i : Nat) : regionState (setQp s q x) i = regionState s i := (rfl)
@[simp] theorem fast_setQp (s : State) (q : Nat) (x : Qp) : fast (setQp s q x) = fast s := (rfl)
@[simp] theorem ready_setQp (s : State) (q : Nat) (x : Qp) : ready (setQp s q x) = ready s := (rfl)
@[simp] theorem runningReel_setQp (s : State) (q : Nat) (x : Qp) (i : Nat) : runningReel (setQp s q x) i = runningReel s i := (rfl)
@[simp] theorem findEntry_setQp (s : State) (q : Nat) (x : Qp) (i j : Nat) : findEntry (setQp s q x) i j = findEntry s i j := (rfl)
@[simp] theorem takeOfCmd_setQp (s : State) (q : Nat) (x : Qp) (i j : Nat) : takeOfCmd (setQp s q x) i j = takeOfCmd s i j := (rfl)
@[simp] theorem headEntry_setQp (s : State) (q : Nat) (x : Qp) (i : Nat) : headEntry (setQp s q x) i = headEntry s i := (rfl)

-- setPort
@[simp] theorem core_setPort (s : State) (p : Nat) (x : Port) (i : Nat) : core (setPort s p x) i = core s i := (rfl)
@[simp] theorem stream_setPort (s : State) (p : Nat) (x : Port) (i : Nat) : stream (setPort s p x) i = stream s i := (rfl)
@[simp] theorem qp_setPort (s : State) (p : Nat) (x : Port) (i : Nat) : qp (setPort s p x) i = qp s i := (rfl)
@[simp] theorem slotOf_setPort (s : State) (p : Nat) (x : Port) (i : Nat) : slotOf (setPort s p x) i = slotOf s i := (rfl)
@[simp] theorem wkcOf_setPort (s : State) (p : Nat) (x : Port) (i : Nat) : wkcOf (setPort s p x) i = wkcOf s i := (rfl)
@[simp] theorem ctl_setPort (s : State) (p : Nat) (x : Port) (i : Nat) : ctl (setPort s p x) i = ctl s i := (rfl)
@[simp] theorem cget_setPort (s : State) (p : Nat) (x : Port) (i : Nat) : cget (setPort s p x) i = cget s i := (rfl)
@[simp] theorem regionState_setPort (s : State) (p : Nat) (x : Port) (i : Nat) : regionState (setPort s p x) i = regionState s i := (rfl)
@[simp] theorem fast_setPort (s : State) (p : Nat) (x : Port) : fast (setPort s p x) = fast s := (rfl)
@[simp] theorem ready_setPort (s : State) (p : Nat) (x : Port) : ready (setPort s p x) = ready s := (rfl)
@[simp] theorem runningReel_setPort (s : State) (p : Nat) (x : Port) (i : Nat) : runningReel (setPort s p x) i = runningReel s i := (rfl)
@[simp] theorem findEntry_setPort (s : State) (p : Nat) (x : Port) (i j : Nat) : findEntry (setPort s p x) i j = findEntry s i j := (rfl)
@[simp] theorem takeOfCmd_setPort (s : State) (p : Nat) (x : Port) (i j : Nat) : takeOfCmd (setPort s p x) i j = takeOfCmd s i j := (rfl)
@[simp] theorem headEntry_setPort (s : State) (p : Nat) (x : Port) (i : Nat) : headEntry (setPort s p x) i = headEntry s i := (rfl)

-- setStream
@[simp] theorem core_setStream (s : State) (n : Nat) (x : Stream) (i : Nat) : core (setStream s n x) i = core s i := (rfl)
@[simp] theorem qp_setStream (s : State) (n : Nat) (x : Stream) (i : Nat) : qp (setStream s n x) i = qp s i := (rfl)
@[simp] theorem port_setStream (s : State) (n : Nat) (x : Stream) (i : Nat) : port (setStream s n x) i = port s i := (rfl)
@[simp] theorem slotOf_setStream (s : State) (n : Nat) (x : Stream) (i : Nat) : slotOf (setStream s n x) i = slotOf s i := (rfl)
@[simp] theorem wkcOf_setStream (s : State) (n : Nat) (x : Stream) (i : Nat) : wkcOf (setStream s n x) i = wkcOf s i := (rfl)
@[simp] theorem ctl_setStream (s : State) (n : Nat) (x : Stream) (i : Nat) : ctl (setStream s n x) i = ctl s i := (rfl)
@[simp] theorem cget_setStream (s : State) (n : Nat) (x : Stream) (i : Nat) : cget (setStream s n x) i = cget s i := (rfl)
@[simp] theorem regionState_setStream (s : State) (n : Nat) (x : Stream) (i : Nat) : regionState (setStream s n x) i = regionState s i := (rfl)
@[simp] theorem fast_setStream (s : State) (n : Nat) (x : Stream) : fast (setStream s n x) = fast s := (rfl)
@[simp] theorem ready_setStream (s : State) (n : Nat) (x : Stream) : ready (setStream s n x) = ready s := (rfl)
@[simp] theorem runningReel_setStream (s : State) (n : Nat) (x : Stream) (i : Nat) : runningReel (setStream s n x) i = runningReel s i := (rfl)
@[simp] theorem findEntry_setStream (s : State) (n : Nat) (x : Stream) (i j : Nat) : findEntry (setStream s n x) i j = findEntry s i j := (rfl)
@[simp] theorem takeOfCmd_setStream (s : State) (n : Nat) (x : Stream) (i j : Nat) : takeOfCmd (setStream s n x) i j = takeOfCmd s i j := (rfl)

-- setSlot
@[simp] theorem core_setSlot (s : State) (n : Nat) (x : Slot) (i : Nat) : core (setSlot s n x) i = core s i := (rfl)
@[simp] theorem stream_setSlot (s : State) (n : Nat) (x : Slot) (i : Nat) : stream (setSlot s n x) i = stream s i := (rfl)
@[simp] theorem qp_setSlot (s : State) (n : Nat) (x : Slot) (i : Nat) : qp (setSlot s n x) i = qp s i := (rfl)
@[simp] theorem port_setSlot (s : State) (n : Nat) (x : Slot) (i : Nat) : port (setSlot s n x) i = port s i := (rfl)
@[simp] theorem wkcOf_setSlot (s : State) (n : Nat) (x : Slot) (i : Nat) : wkcOf (setSlot s n x) i = wkcOf s i := (rfl)
@[simp] theorem ctl_setSlot (s : State) (n : Nat) (x : Slot) (i : Nat) : ctl (setSlot s n x) i = ctl s i := (rfl)
@[simp] theorem cget_setSlot (s : State) (n : Nat) (x : Slot) (i : Nat) : cget (setSlot s n x) i = cget s i := (rfl)
@[simp] theorem regionState_setSlot (s : State) (n : Nat) (x : Slot) (i : Nat) : regionState (setSlot s n x) i = regionState s i := (rfl)
@[simp] theorem fast_setSlot (s : State) (n : Nat) (x : Slot) : fast (setSlot s n x) = fast s := (rfl)
@[simp] theorem ready_setSlot (s : State) (n : Nat) (x : Slot) : ready (setSlot s n x) = ready s := (rfl)
@[simp] theorem runningReel_setSlot (s : State) (n : Nat) (x : Slot) (i : Nat) : runningReel (setSlot s n x) i = runningReel s i := (rfl)
@[simp] theorem findEntry_setSlot (s : State) (n : Nat) (x : Slot) (i j : Nat) : findEntry (setSlot s n x) i j = findEntry s i j := (rfl)
@[simp] theorem takeOfCmd_setSlot (s : State) (n : Nat) (x : Slot) (i j : Nat) : takeOfCmd (setSlot s n x) i j = takeOfCmd s i j := (rfl)
@[simp] theorem headEntry_setSlot (s : State) (n : Nat) (x : Slot) (i : Nat) : headEntry (setSlot s n x) i = headEntry s i := (rfl)

-- setWkc
@[simp] theorem core_setWkc (s : State) (n : Nat) (x : Wkc) (i : Nat) : core (setWkc s n x) i = core s i := (rfl)
@[simp] theorem stream_setWkc (s : State) (n : Nat) (x : Wkc) (i : Nat) : stream (setWkc s n x) i = stream s i := (rfl)
@[simp] theorem qp_setWkc (s : State) (n : Nat) (x : Wkc) (i : Nat) : qp (setWkc s n x) i = qp s i := (rfl)
@[simp] theorem port_setWkc (s : State) (n : Nat) (x : Wkc) (i : Nat) : port (setWkc s n x) i = port s i := (rfl)
@[simp] theorem slotOf_setWkc (s : State) (n : Nat) (x : Wkc) (i : Nat) : slotOf (setWkc s n x) i = slotOf s i := (rfl)
@[simp] theorem ctl_setWkc (s : State) (n : Nat) (x : Wkc) (i : Nat) : ctl (setWkc s n x) i = ctl s i := (rfl)
@[simp] theorem cget_setWkc (s : State) (n : Nat) (x : Wkc) (i : Nat) : cget (setWkc s n x) i = cget s i := (rfl)
@[simp] theorem regionState_setWkc (s : State) (n : Nat) (x : Wkc) (i : Nat) : regionState (setWkc s n x) i = regionState s i := (rfl)
@[simp] theorem fast_setWkc (s : State) (n : Nat) (x : Wkc) : fast (setWkc s n x) = fast s := (rfl)
@[simp] theorem ready_setWkc (s : State) (n : Nat) (x : Wkc) : ready (setWkc s n x) = ready s := (rfl)
@[simp] theorem runningReel_setWkc (s : State) (n : Nat) (x : Wkc) (i : Nat) : runningReel (setWkc s n x) i = runningReel s i := (rfl)
@[simp] theorem findEntry_setWkc (s : State) (n : Nat) (x : Wkc) (i j : Nat) : findEntry (setWkc s n x) i j = findEntry s i j := (rfl)
@[simp] theorem takeOfCmd_setWkc (s : State) (n : Nat) (x : Wkc) (i j : Nat) : takeOfCmd (setWkc s n x) i j = takeOfCmd s i j := (rfl)
@[simp] theorem headEntry_setWkc (s : State) (n : Nat) (x : Wkc) (i : Nat) : headEntry (setWkc s n x) i = headEntry s i := (rfl)

-- setCtl
@[simp] theorem core_setCtl (s : State) (k : Nat) (m : MemCtl) (i : Nat) : core (setCtl s k m) i = core s i := (rfl)
@[simp] theorem stream_setCtl (s : State) (k : Nat) (m : MemCtl) (i : Nat) : stream (setCtl s k m) i = stream s i := (rfl)
@[simp] theorem qp_setCtl (s : State) (k : Nat) (m : MemCtl) (i : Nat) : qp (setCtl s k m) i = qp s i := (rfl)
@[simp] theorem port_setCtl (s : State) (k : Nat) (m : MemCtl) (i : Nat) : port (setCtl s k m) i = port s i := (rfl)
@[simp] theorem slotOf_setCtl (s : State) (k : Nat) (m : MemCtl) (i : Nat) : slotOf (setCtl s k m) i = slotOf s i := (rfl)
@[simp] theorem wkcOf_setCtl (s : State) (k : Nat) (m : MemCtl) (i : Nat) : wkcOf (setCtl s k m) i = wkcOf s i := (rfl)
@[simp] theorem cget_setCtl (s : State) (k : Nat) (m : MemCtl) (i : Nat) : cget (setCtl s k m) i = cget s i := (rfl)
@[simp] theorem regionState_setCtl (s : State) (k : Nat) (m : MemCtl) (i : Nat) : regionState (setCtl s k m) i = regionState s i := (rfl)
@[simp] theorem fast_setCtl (s : State) (k : Nat) (m : MemCtl) : fast (setCtl s k m) = fast s := (rfl)
@[simp] theorem ready_setCtl (s : State) (k : Nat) (m : MemCtl) : ready (setCtl s k m) = ready s := (rfl)
@[simp] theorem runningReel_setCtl (s : State) (k : Nat) (m : MemCtl) (i : Nat) : runningReel (setCtl s k m) i = runningReel s i := (rfl)
@[simp] theorem findEntry_setCtl (s : State) (k : Nat) (m : MemCtl) (i j : Nat) : findEntry (setCtl s k m) i j = findEntry s i j := (rfl)
@[simp] theorem takeOfCmd_setCtl (s : State) (k : Nat) (m : MemCtl) (i j : Nat) : takeOfCmd (setCtl s k m) i j = takeOfCmd s i j := (rfl)
@[simp] theorem headEntry_setCtl (s : State) (k : Nat) (m : MemCtl) (i : Nat) : headEntry (setCtl s k m) i = headEntry s i := (rfl)

-- setRegion
@[simp] theorem core_setRegion (s : State) (r v : Nat) (i : Nat) : core (setRegion s r v) i = core s i := (rfl)
@[simp] theorem stream_setRegion (s : State) (r v : Nat) (i : Nat) : stream (setRegion s r v) i = stream s i := (rfl)
@[simp] theorem qp_setRegion (s : State) (r v : Nat) (i : Nat) : qp (setRegion s r v) i = qp s i := (rfl)
@[simp] theorem port_setRegion (s : State) (r v : Nat) (i : Nat) : port (setRegion s r v) i = port s i := (rfl)
@[simp] theorem slotOf_setRegion (s : State) (r v : Nat) (i : Nat) : slotOf (setRegion s r v) i = slotOf s i := (rfl)
@[simp] theorem wkcOf_setRegion (s : State) (r v : Nat) (i : Nat) : wkcOf (setRegion s r v) i = wkcOf s i := (rfl)
@[simp] theorem ctl_setRegion (s : State) (r v : Nat) (i : Nat) : ctl (setRegion s r v) i = ctl s i := (rfl)
@[simp] theorem cget_setRegion (s : State) (r v : Nat) (i : Nat) : cget (setRegion s r v) i = cget s i := (rfl)
@[simp] theorem fast_setRegion (s : State) (r v : Nat) : fast (setRegion s r v) = fast s := (rfl)
@[simp] theorem ready_setRegion (s : State) (r v : Nat) : ready (setRegion s r v) = ready s := (rfl)
@[simp] theorem runningReel_setRegion (s : State) (r v : Nat) (i : Nat) : runningReel (setRegion s r v) i = runningReel s i := (rfl)
@[simp] theorem findEntry_setRegion (s : State) (r v : Nat) (i j : Nat) : findEntry (setRegion s r v) i j = findEntry s i j := (rfl)
@[simp] theorem takeOfCmd_setRegion (s : State) (r v : Nat) (i j : Nat) : takeOfCmd (setRegion s r v) i j = takeOfCmd s i j := (rfl)
@[simp] theorem headEntry_setRegion (s : State) (r v : Nat) (i : Nat) : headEntry (setRegion s r v) i = headEntry s i := (rfl)

-- cset
@[simp] theorem core_cset (s : State) (a : Nat) (v : W64) (i : Nat) : core (cset s a v) i = core s i := (rfl)
@[simp] theorem stream_cset (s : State) (a : Nat) (v : W64) (i : Nat) : stream (cset s a v) i = stream s i := (rfl)
@[simp] theorem qp_cset (s : State) (a : Nat) (v : W64) (i : Nat) : qp (cset s a v) i = qp s i := (rfl)
@[simp] theorem port_cset (s : State) (a : Nat) (v : W64) (i : Nat) : port (cset s a v) i = port s i := (rfl)
@[simp] theorem slotOf_cset (s : State) (a : Nat) (v : W64) (i : Nat) : slotOf (cset s a v) i = slotOf s i := (rfl)
@[simp] theorem wkcOf_cset (s : State) (a : Nat) (v : W64) (i : Nat) : wkcOf (cset s a v) i = wkcOf s i := (rfl)
@[simp] theorem ctl_cset (s : State) (a : Nat) (v : W64) (i : Nat) : ctl (cset s a v) i = ctl s i := (rfl)
@[simp] theorem regionState_cset (s : State) (a : Nat) (v : W64) (i : Nat) : regionState (cset s a v) i = regionState s i := (rfl)
@[simp] theorem fast_cset (s : State) (a : Nat) (v : W64) : fast (cset s a v) = fast s := (rfl)
@[simp] theorem ready_cset (s : State) (a : Nat) (v : W64) : ready (cset s a v) = ready s := (rfl)
@[simp] theorem runningReel_cset (s : State) (a : Nat) (v : W64) (i : Nat) : runningReel (cset s a v) i = runningReel s i := (rfl)
@[simp] theorem findEntry_cset (s : State) (a : Nat) (v : W64) (i j : Nat) : findEntry (cset s a v) i j = findEntry s i j := (rfl)
@[simp] theorem takeOfCmd_cset (s : State) (a : Nat) (v : W64) (i j : Nat) : takeOfCmd (cset s a v) i j = takeOfCmd s i j := (rfl)
@[simp] theorem headEntry_cset (s : State) (a : Nat) (v : W64) (i : Nat) : headEntry (cset s a v) i = headEntry s i := (rfl)

-- modCore
@[simp] theorem stream_modCore (s : State) (c : Nat) (f : Core → Core) (i : Nat) : stream (modCore s c f) i = stream s i := (rfl)
@[simp] theorem qp_modCore (s : State) (c : Nat) (f : Core → Core) (i : Nat) : qp (modCore s c f) i = qp s i := (rfl)
@[simp] theorem port_modCore (s : State) (c : Nat) (f : Core → Core) (i : Nat) : port (modCore s c f) i = port s i := (rfl)
@[simp] theorem slotOf_modCore (s : State) (c : Nat) (f : Core → Core) (i : Nat) : slotOf (modCore s c f) i = slotOf s i := (rfl)
@[simp] theorem wkcOf_modCore (s : State) (c : Nat) (f : Core → Core) (i : Nat) : wkcOf (modCore s c f) i = wkcOf s i := (rfl)
@[simp] theorem ctl_modCore (s : State) (c : Nat) (f : Core → Core) (i : Nat) : ctl (modCore s c f) i = ctl s i := (rfl)
@[simp] theorem cget_modCore (s : State) (c : Nat) (f : Core → Core) (i : Nat) : cget (modCore s c f) i = cget s i := (rfl)
@[simp] theorem regionState_modCore (s : State) (c : Nat) (f : Core → Core) (i : Nat) : regionState (modCore s c f) i = regionState s i := (rfl)
@[simp] theorem fast_modCore (s : State) (c : Nat) (f : Core → Core) : fast (modCore s c f) = fast s := (rfl)
@[simp] theorem ready_modCore (s : State) (c : Nat) (f : Core → Core) : ready (modCore s c f) = ready s := (rfl)
@[simp] theorem findEntry_modCore (s : State) (c : Nat) (f : Core → Core) (i j : Nat) : findEntry (modCore s c f) i j = findEntry s i j := (rfl)
@[simp] theorem takeOfCmd_modCore (s : State) (c : Nat) (f : Core → Core) (i j : Nat) : takeOfCmd (modCore s c f) i j = takeOfCmd s i j := (rfl)
@[simp] theorem headEntry_modCore (s : State) (c : Nat) (f : Core → Core) (i : Nat) : headEntry (modCore s c f) i = headEntry s i := (rfl)

-- modRunning
@[simp] theorem stream_modRunning (s : State) (c : Nat) (f : Reel → Reel) (i : Nat) : stream (modRunning s c f) i = stream s i := (rfl)
@[simp] theorem qp_modRunning (s : State) (c : Nat) (f : Reel → Reel) (i : Nat) : qp (modRunning s c f) i = qp s i := (rfl)
@[simp] theorem port_modRunning (s : State) (c : Nat) (f : Reel → Reel) (i : Nat) : port (modRunning s c f) i = port s i := (rfl)
@[simp] theorem slotOf_modRunning (s : State) (c : Nat) (f : Reel → Reel) (i : Nat) : slotOf (modRunning s c f) i = slotOf s i := (rfl)
@[simp] theorem wkcOf_modRunning (s : State) (c : Nat) (f : Reel → Reel) (i : Nat) : wkcOf (modRunning s c f) i = wkcOf s i := (rfl)
@[simp] theorem ctl_modRunning (s : State) (c : Nat) (f : Reel → Reel) (i : Nat) : ctl (modRunning s c f) i = ctl s i := (rfl)
@[simp] theorem cget_modRunning (s : State) (c : Nat) (f : Reel → Reel) (i : Nat) : cget (modRunning s c f) i = cget s i := (rfl)
@[simp] theorem regionState_modRunning (s : State) (c : Nat) (f : Reel → Reel) (i : Nat) : regionState (modRunning s c f) i = regionState s i := (rfl)
@[simp] theorem fast_modRunning (s : State) (c : Nat) (f : Reel → Reel) : fast (modRunning s c f) = fast s := (rfl)
@[simp] theorem ready_modRunning (s : State) (c : Nat) (f : Reel → Reel) : ready (modRunning s c f) = ready s := (rfl)
@[simp] theorem findEntry_modRunning (s : State) (c : Nat) (f : Reel → Reel) (i j : Nat) : findEntry (modRunning s c f) i j = findEntry s i j := (rfl)
@[simp] theorem takeOfCmd_modRunning (s : State) (c : Nat) (f : Reel → Reel) (i j : Nat) : takeOfCmd (modRunning s c f) i j = takeOfCmd s i j := (rfl)
@[simp] theorem headEntry_modRunning (s : State) (c : Nat) (f : Reel → Reel) (i : Nat) : headEntry (modRunning s c f) i = headEntry s i := (rfl)

-- bump
@[simp] theorem core_bump (s : State) (a n : Nat) (i : Nat) : core (bump s a n) i = core s i := (rfl)
@[simp] theorem stream_bump (s : State) (a n : Nat) (i : Nat) : stream (bump s a n) i = stream s i := (rfl)
@[simp] theorem qp_bump (s : State) (a n : Nat) (i : Nat) : qp (bump s a n) i = qp s i := (rfl)
@[simp] theorem port_bump (s : State) (a n : Nat) (i : Nat) : port (bump s a n) i = port s i := (rfl)
@[simp] theorem slotOf_bump (s : State) (a n : Nat) (i : Nat) : slotOf (bump s a n) i = slotOf s i := (rfl)
@[simp] theorem wkcOf_bump (s : State) (a n : Nat) (i : Nat) : wkcOf (bump s a n) i = wkcOf s i := (rfl)
@[simp] theorem ctl_bump (s : State) (a n : Nat) (i : Nat) : ctl (bump s a n) i = ctl s i := (rfl)
@[simp] theorem regionState_bump (s : State) (a n : Nat) (i : Nat) : regionState (bump s a n) i = regionState s i := (rfl)
@[simp] theorem fast_bump (s : State) (a n : Nat) : fast (bump s a n) = fast s := (rfl)
@[simp] theorem ready_bump (s : State) (a n : Nat) : ready (bump s a n) = ready s := (rfl)
@[simp] theorem runningReel_bump (s : State) (a n : Nat) (i : Nat) : runningReel (bump s a n) i = runningReel s i := (rfl)
@[simp] theorem findEntry_bump (s : State) (a n : Nat) (i j : Nat) : findEntry (bump s a n) i j = findEntry s i j := (rfl)
@[simp] theorem takeOfCmd_bump (s : State) (a n : Nat) (i j : Nat) : takeOfCmd (bump s a n) i j = takeOfCmd s i j := (rfl)
@[simp] theorem headEntry_bump (s : State) (a n : Nat) (i : Nat) : headEntry (bump s a n) i = headEntry s i := (rfl)

-- cput
@[simp] theorem core_cput (s : State) (a hi lo v : Nat) (i : Nat) : core (cput s a hi lo v) i = core s i := (rfl)
@[simp] theorem stream_cput (s : State) (a hi lo v : Nat) (i : Nat) : stream (cput s a hi lo v) i = stream s i := (rfl)
@[simp] theorem qp_cput (s : State) (a hi lo v : Nat) (i : Nat) : qp (cput s a hi lo v) i = qp s i := (rfl)
@[simp] theorem port_cput (s : State) (a hi lo v : Nat) (i : Nat) : port (cput s a hi lo v) i = port s i := (rfl)
@[simp] theorem slotOf_cput (s : State) (a hi lo v : Nat) (i : Nat) : slotOf (cput s a hi lo v) i = slotOf s i := (rfl)
@[simp] theorem wkcOf_cput (s : State) (a hi lo v : Nat) (i : Nat) : wkcOf (cput s a hi lo v) i = wkcOf s i := (rfl)
@[simp] theorem ctl_cput (s : State) (a hi lo v : Nat) (i : Nat) : ctl (cput s a hi lo v) i = ctl s i := (rfl)
@[simp] theorem regionState_cput (s : State) (a hi lo v : Nat) (i : Nat) : regionState (cput s a hi lo v) i = regionState s i := (rfl)
@[simp] theorem fast_cput (s : State) (a hi lo v : Nat) : fast (cput s a hi lo v) = fast s := (rfl)
@[simp] theorem ready_cput (s : State) (a hi lo v : Nat) : ready (cput s a hi lo v) = ready s := (rfl)
@[simp] theorem runningReel_cput (s : State) (a hi lo v : Nat) (i : Nat) : runningReel (cput s a hi lo v) i = runningReel s i := (rfl)
@[simp] theorem findEntry_cput (s : State) (a hi lo v : Nat) (i j : Nat) : findEntry (cput s a hi lo v) i j = findEntry s i j := (rfl)
@[simp] theorem takeOfCmd_cput (s : State) (a hi lo v : Nat) (i j : Nat) : takeOfCmd (cput s a hi lo v) i j = takeOfCmd s i j := (rfl)
@[simp] theorem headEntry_cput (s : State) (a hi lo v : Nat) (i : Nat) : headEntry (cput s a hi lo v) i = headEntry s i := (rfl)

-- corr
@[simp] theorem core_corr (s : State) (a : Nat) (v : W64) (i : Nat) : core (corr s a v) i = core s i := (rfl)
@[simp] theorem stream_corr (s : State) (a : Nat) (v : W64) (i : Nat) : stream (corr s a v) i = stream s i := (rfl)
@[simp] theorem qp_corr (s : State) (a : Nat) (v : W64) (i : Nat) : qp (corr s a v) i = qp s i := (rfl)
@[simp] theorem port_corr (s : State) (a : Nat) (v : W64) (i : Nat) : port (corr s a v) i = port s i := (rfl)
@[simp] theorem slotOf_corr (s : State) (a : Nat) (v : W64) (i : Nat) : slotOf (corr s a v) i = slotOf s i := (rfl)
@[simp] theorem wkcOf_corr (s : State) (a : Nat) (v : W64) (i : Nat) : wkcOf (corr s a v) i = wkcOf s i := (rfl)
@[simp] theorem ctl_corr (s : State) (a : Nat) (v : W64) (i : Nat) : ctl (corr s a v) i = ctl s i := (rfl)
@[simp] theorem regionState_corr (s : State) (a : Nat) (v : W64) (i : Nat) : regionState (corr s a v) i = regionState s i := (rfl)
@[simp] theorem fast_corr (s : State) (a : Nat) (v : W64) : fast (corr s a v) = fast s := (rfl)
@[simp] theorem ready_corr (s : State) (a : Nat) (v : W64) : ready (corr s a v) = ready s := (rfl)
@[simp] theorem runningReel_corr (s : State) (a : Nat) (v : W64) (i : Nat) : runningReel (corr s a v) i = runningReel s i := (rfl)
@[simp] theorem findEntry_corr (s : State) (a : Nat) (v : W64) (i j : Nat) : findEntry (corr s a v) i j = findEntry s i j := (rfl)
@[simp] theorem takeOfCmd_corr (s : State) (a : Nat) (v : W64) (i j : Nat) : takeOfCmd (corr s a v) i j = takeOfCmd s i j := (rfl)
@[simp] theorem headEntry_corr (s : State) (a : Nat) (v : W64) (i : Nat) : headEntry (corr s a v) i = headEntry s i := (rfl)

-- modDrl
@[simp] theorem core_modDrl (s : State) (f : Drl → Drl) (i : Nat) : core (modDrl s f) i = core s i := (rfl)
@[simp] theorem stream_modDrl (s : State) (f : Drl → Drl) (i : Nat) : stream (modDrl s f) i = stream s i := (rfl)
@[simp] theorem qp_modDrl (s : State) (f : Drl → Drl) (i : Nat) : qp (modDrl s f) i = qp s i := (rfl)
@[simp] theorem port_modDrl (s : State) (f : Drl → Drl) (i : Nat) : port (modDrl s f) i = port s i := (rfl)
@[simp] theorem slotOf_modDrl (s : State) (f : Drl → Drl) (i : Nat) : slotOf (modDrl s f) i = slotOf s i := (rfl)
@[simp] theorem wkcOf_modDrl (s : State) (f : Drl → Drl) (i : Nat) : wkcOf (modDrl s f) i = wkcOf s i := (rfl)
@[simp] theorem ctl_modDrl (s : State) (f : Drl → Drl) (i : Nat) : ctl (modDrl s f) i = ctl s i := (rfl)
@[simp] theorem cget_modDrl (s : State) (f : Drl → Drl) (i : Nat) : cget (modDrl s f) i = cget s i := (rfl)
@[simp] theorem regionState_modDrl (s : State) (f : Drl → Drl) (i : Nat) : regionState (modDrl s f) i = regionState s i := (rfl)
@[simp] theorem runningReel_modDrl (s : State) (f : Drl → Drl) (i : Nat) : runningReel (modDrl s f) i = runningReel s i := (rfl)
@[simp] theorem findEntry_modDrl (s : State) (f : Drl → Drl) (i j : Nat) : findEntry (modDrl s f) i j = findEntry s i j := (rfl)
@[simp] theorem takeOfCmd_modDrl (s : State) (f : Drl → Drl) (i j : Nat) : takeOfCmd (modDrl s f) i j = takeOfCmd s i j := (rfl)
@[simp] theorem headEntry_modDrl (s : State) (f : Drl → Drl) (i : Nat) : headEntry (modDrl s f) i = headEntry s i := (rfl)

-- modIntake
@[simp] theorem core_modIntake (s : State) (f : Intake → Intake) (i : Nat) : core (modIntake s f) i = core s i := (rfl)
@[simp] theorem qp_modIntake (s : State) (f : Intake → Intake) (i : Nat) : qp (modIntake s f) i = qp s i := (rfl)
@[simp] theorem port_modIntake (s : State) (f : Intake → Intake) (i : Nat) : port (modIntake s f) i = port s i := (rfl)
@[simp] theorem slotOf_modIntake (s : State) (f : Intake → Intake) (i : Nat) : slotOf (modIntake s f) i = slotOf s i := (rfl)
@[simp] theorem wkcOf_modIntake (s : State) (f : Intake → Intake) (i : Nat) : wkcOf (modIntake s f) i = wkcOf s i := (rfl)
@[simp] theorem ctl_modIntake (s : State) (f : Intake → Intake) (i : Nat) : ctl (modIntake s f) i = ctl s i := (rfl)
@[simp] theorem cget_modIntake (s : State) (f : Intake → Intake) (i : Nat) : cget (modIntake s f) i = cget s i := (rfl)
@[simp] theorem regionState_modIntake (s : State) (f : Intake → Intake) (i : Nat) : regionState (modIntake s f) i = regionState s i := (rfl)
@[simp] theorem fast_modIntake (s : State) (f : Intake → Intake) : fast (modIntake s f) = fast s := (rfl)
@[simp] theorem ready_modIntake (s : State) (f : Intake → Intake) : ready (modIntake s f) = ready s := (rfl)
@[simp] theorem runningReel_modIntake (s : State) (f : Intake → Intake) (i : Nat) : runningReel (modIntake s f) i = runningReel s i := (rfl)

-- clearPoison
@[simp] theorem core_clearPoison (s : State) (a len : Nat) (i : Nat) : core (clearPoison s a len) i = core s i := (rfl)
@[simp] theorem stream_clearPoison (s : State) (a len : Nat) (i : Nat) : stream (clearPoison s a len) i = stream s i := (rfl)
@[simp] theorem qp_clearPoison (s : State) (a len : Nat) (i : Nat) : qp (clearPoison s a len) i = qp s i := (rfl)
@[simp] theorem port_clearPoison (s : State) (a len : Nat) (i : Nat) : port (clearPoison s a len) i = port s i := (rfl)
@[simp] theorem slotOf_clearPoison (s : State) (a len : Nat) (i : Nat) : slotOf (clearPoison s a len) i = slotOf s i := (rfl)
@[simp] theorem wkcOf_clearPoison (s : State) (a len : Nat) (i : Nat) : wkcOf (clearPoison s a len) i = wkcOf s i := (rfl)
@[simp] theorem ctl_clearPoison (s : State) (a len : Nat) (i : Nat) : ctl (clearPoison s a len) i = ctl s i := (rfl)
@[simp] theorem cget_clearPoison (s : State) (a len : Nat) (i : Nat) : cget (clearPoison s a len) i = cget s i := (rfl)
@[simp] theorem regionState_clearPoison (s : State) (a len : Nat) (i : Nat) : regionState (clearPoison s a len) i = regionState s i := (rfl)
@[simp] theorem fast_clearPoison (s : State) (a len : Nat) : fast (clearPoison s a len) = fast s := (rfl)
@[simp] theorem ready_clearPoison (s : State) (a len : Nat) : ready (clearPoison s a len) = ready s := (rfl)
@[simp] theorem runningReel_clearPoison (s : State) (a len : Nat) (i : Nat) : runningReel (clearPoison s a len) i = runningReel s i := (rfl)
@[simp] theorem findEntry_clearPoison (s : State) (a len : Nat) (i j : Nat) : findEntry (clearPoison s a len) i j = findEntry s i j := (rfl)
@[simp] theorem takeOfCmd_clearPoison (s : State) (a len : Nat) (i j : Nat) : takeOfCmd (clearPoison s a len) i j = takeOfCmd s i j := (rfl)
@[simp] theorem headEntry_clearPoison (s : State) (a len : Nat) (i : Nat) : headEntry (clearPoison s a len) i = headEntry s i := (rfl)

-- flashProg
@[simp] theorem core_flashProg (s : State) (a : Nat) (d : List Byte) (i : Nat) : core (flashProg s a d) i = core s i := (rfl)
@[simp] theorem stream_flashProg (s : State) (a : Nat) (d : List Byte) (i : Nat) : stream (flashProg s a d) i = stream s i := (rfl)
@[simp] theorem qp_flashProg (s : State) (a : Nat) (d : List Byte) (i : Nat) : qp (flashProg s a d) i = qp s i := (rfl)
@[simp] theorem port_flashProg (s : State) (a : Nat) (d : List Byte) (i : Nat) : port (flashProg s a d) i = port s i := (rfl)
@[simp] theorem slotOf_flashProg (s : State) (a : Nat) (d : List Byte) (i : Nat) : slotOf (flashProg s a d) i = slotOf s i := (rfl)
@[simp] theorem wkcOf_flashProg (s : State) (a : Nat) (d : List Byte) (i : Nat) : wkcOf (flashProg s a d) i = wkcOf s i := (rfl)
@[simp] theorem ctl_flashProg (s : State) (a : Nat) (d : List Byte) (i : Nat) : ctl (flashProg s a d) i = ctl s i := (rfl)
@[simp] theorem cget_flashProg (s : State) (a : Nat) (d : List Byte) (i : Nat) : cget (flashProg s a d) i = cget s i := (rfl)
@[simp] theorem regionState_flashProg (s : State) (a : Nat) (d : List Byte) (i : Nat) : regionState (flashProg s a d) i = regionState s i := (rfl)
@[simp] theorem fast_flashProg (s : State) (a : Nat) (d : List Byte) : fast (flashProg s a d) = fast s := (rfl)
@[simp] theorem ready_flashProg (s : State) (a : Nat) (d : List Byte) : ready (flashProg s a d) = ready s := (rfl)
@[simp] theorem runningReel_flashProg (s : State) (a : Nat) (d : List Byte) (i : Nat) : runningReel (flashProg s a d) i = runningReel s i := (rfl)
@[simp] theorem findEntry_flashProg (s : State) (a : Nat) (d : List Byte) (i j : Nat) : findEntry (flashProg s a d) i j = findEntry s i j := (rfl)
@[simp] theorem takeOfCmd_flashProg (s : State) (a : Nat) (d : List Byte) (i j : Nat) : takeOfCmd (flashProg s a d) i j = takeOfCmd s i j := (rfl)
@[simp] theorem headEntry_flashProg (s : State) (a : Nat) (d : List Byte) (i : Nat) : headEntry (flashProg s a d) i = headEntry s i := (rfl)

-- sramWrites
@[simp] theorem core_sramWrites (s : State) (p off : Nat) (d : List Byte) (i : Nat) : core (sramWrites s p off d) i = core s i := (rfl)
@[simp] theorem stream_sramWrites (s : State) (p off : Nat) (d : List Byte) (i : Nat) : stream (sramWrites s p off d) i = stream s i := (rfl)
@[simp] theorem qp_sramWrites (s : State) (p off : Nat) (d : List Byte) (i : Nat) : qp (sramWrites s p off d) i = qp s i := (rfl)
@[simp] theorem port_sramWrites (s : State) (p off : Nat) (d : List Byte) (i : Nat) : port (sramWrites s p off d) i = port s i := (rfl)
@[simp] theorem slotOf_sramWrites (s : State) (p off : Nat) (d : List Byte) (i : Nat) : slotOf (sramWrites s p off d) i = slotOf s i := (rfl)
@[simp] theorem wkcOf_sramWrites (s : State) (p off : Nat) (d : List Byte) (i : Nat) : wkcOf (sramWrites s p off d) i = wkcOf s i := (rfl)
@[simp] theorem ctl_sramWrites (s : State) (p off : Nat) (d : List Byte) (i : Nat) : ctl (sramWrites s p off d) i = ctl s i := (rfl)
@[simp] theorem cget_sramWrites (s : State) (p off : Nat) (d : List Byte) (i : Nat) : cget (sramWrites s p off d) i = cget s i := (rfl)
@[simp] theorem regionState_sramWrites (s : State) (p off : Nat) (d : List Byte) (i : Nat) : regionState (sramWrites s p off d) i = regionState s i := (rfl)
@[simp] theorem fast_sramWrites (s : State) (p off : Nat) (d : List Byte) : fast (sramWrites s p off d) = fast s := (rfl)
@[simp] theorem ready_sramWrites (s : State) (p off : Nat) (d : List Byte) : ready (sramWrites s p off d) = ready s := (rfl)
@[simp] theorem runningReel_sramWrites (s : State) (p off : Nat) (d : List Byte) (i : Nat) : runningReel (sramWrites s p off d) i = runningReel s i := (rfl)
@[simp] theorem findEntry_sramWrites (s : State) (p off : Nat) (d : List Byte) (i j : Nat) : findEntry (sramWrites s p off d) i j = findEntry s i j := (rfl)
@[simp] theorem takeOfCmd_sramWrites (s : State) (p off : Nat) (d : List Byte) (i j : Nat) : takeOfCmd (sramWrites s p off d) i j = takeOfCmd s i j := (rfl)
@[simp] theorem headEntry_sramWrites (s : State) (p off : Nat) (d : List Byte) (i : Nat) : headEntry (sramWrites s p off d) i = headEntry s i := (rfl)

end Sys2Proof.Machine
end

