-- ==== Sys2Proof/Laws/Ops.lean ====
section
/-! SUPPORT. What the shared operations do, said once: sparse tables, memory, units, and the outcomes of a command. -/
namespace Sys2Proof.Machine

set_option Elab.async false

open Sys2Proof

-- Sparse tables

variable {α : Type}

/-- A table that lists no key as large as the one asked for answers the default. -/
theorem tget_of_lt (d : α) (k : Nat) : ∀ t : Tab α, (∀ e ∈ t, k < e.1) → tget d t k = d
  | [], _ => rfl
  | (k', v) :: t, h => by
    have h1 : k < k' := h (k', v) (List.mem_cons_self ..)
    have h2 := tget_of_lt d k t fun e he => h e (List.mem_cons_of_mem _ he)
    simp [tget, Nat.ne_of_lt h1, h2]

/-- Reading after an insertion. -/
theorem tget_tput (d v : α) (k k' : Nat) : ∀ t : Tab α, tget d (tput k v t) k' = if k' = k then v else tget d t k'
  | [] => by simp [tput, tget]
  | (j, w) :: t => by
    have ih := tget_tput d v k k' t
    unfold tput
    split
    · simp [tget]
    · split
      · next h => subst h; by_cases h' : k' = k <;> simp [tget, h']
      · by_cases hj : k' = j
        · subst hj
          have : k' ≠ k := by omega
          simp [tget, this]
        · simp [tget, hj, ih]

/-- Reading after entries are dropped by their keys. -/
theorem tget_filter (d : α) (p : Nat → Bool) (k : Nat) : ∀ t : Tab α, tget d (t.filter fun e => p e.1) k = if p k then tget d t k else d
  | [] => by simp [tget]
  | (j, w) :: t => by
    have ih := tget_filter d p k t
    cases hj : p j
    · rw [List.filter_cons_of_neg (by simp [hj]), ih]
      by_cases h : k = j
      · subst h; simp [hj]
      · simp [tget, h]
    · rw [List.filter_cons_of_pos (by simp [hj])]
      by_cases h : k = j
      · subst h; simp [tget, hj]
      · simp [tget, h, ih]

/-- Reading after a removal. -/
theorem tget_tdel (d : α) (k k' : Nat) (t : Tab α) : tget d (tdel k t) k' = if k' = k then d else tget d t k' := by
  have h := tget_filter d (fun j => decide (j ≠ k)) k' t
  unfold tdel
  rw [h]
  by_cases h' : k' = k <;> simp [h']

/-- Reading after a write: the value written, and elsewhere what was there. -/
@[simp] theorem tget_tset [DecidableEq α] (d v : α) (t : Tab α) (k k' : Nat) :
    tget d (tset d t k v) k' = if k' = k then v else tget d t k' := by
  unfold tset
  split
  · next h => rw [tget_tdel, h]
  · rw [tget_tput]

/-- An insertion lists only the new pair and old ones. -/
theorem mem_tput {v : α} {k : Nat} {e : Nat × α} : ∀ {t : Tab α}, e ∈ tput k v t → e = (k, v) ∨ e ∈ t
  | [], h => by simp [tput] at h; exact .inl h
  | (j, w) :: t, h => by
    unfold tput at h
    split at h
    · rcases List.mem_cons.1 h with h | h
      · exact .inl h
      · exact .inr h
    · split at h
      · rcases List.mem_cons.1 h with h | h
        · exact .inl h
        · exact .inr (List.mem_cons_of_mem _ h)
      · rcases List.mem_cons.1 h with h | h
        · exact .inr (by simp [h])
        · rcases mem_tput h with h | h
          · exact .inl h
          · exact .inr (List.mem_cons_of_mem _ h)

/-- An insertion keeps the keys strictly rising. -/
theorem tput_rising (v : α) (k : Nat) : ∀ t : Tab α, t.Pairwise (fun a b => a.1 < b.1) → (tput k v t).Pairwise (fun a b => a.1 < b.1)
  | [], _ => by simp [tput]
  | (j, w) :: t, h => by
    have hc := List.pairwise_cons.1 h
    have ih := tput_rising v k t hc.2
    unfold tput
    split
    · next hk =>
      refine List.pairwise_cons.2 ⟨fun e he => ?_, h⟩
      rcases List.mem_cons.1 he with rfl | he
      · exact hk
      · exact Nat.lt_trans hk (hc.1 e he)
    · split
      · next hk => subst hk; exact List.pairwise_cons.2 ⟨hc.1, hc.2⟩
      · refine List.pairwise_cons.2 ⟨fun e he => ?_, ih⟩
        rcases mem_tput he with rfl | he
        · show j < k; omega
        · exact hc.1 e he

/-- A write keeps the canonical form. -/
theorem tabWf_tset [DecidableEq α] {d : α} {t : Tab α} (k : Nat) (v : α) (h : tabWf d t) : tabWf d (tset d t k v) := by
  unfold tset
  split
  · exact ⟨h.1.filter _, fun e he => h.2 e (List.mem_of_mem_filter he)⟩
  · next hv =>
    refine ⟨tput_rising v k t h.1, fun e he => ?_⟩
    rcases mem_tput he with rfl | he
    · exact hv
    · exact h.2 e he

/-- Dropping entries keeps the canonical form. -/
theorem tabWf_filter [DecidableEq α] {d : α} {t : Tab α} (p : Nat × α → Bool) (h : tabWf d t) : tabWf d (t.filter p) :=
  ⟨h.1.filter _, fun e he => h.2 e (List.mem_of_mem_filter he)⟩

-- Memory

/-- Reading a byte after a write. -/
theorem memRead_memWrite (m : List Host.Cell) (a a' : Nat) (b : Byte) :
    memRead (memWrite m a b) a' = if a' = a then b else memRead m a' := tget_tset ..

/-- Reading a byte after a write of several: inside, the byte written; outside, what was there. -/
theorem memRead_memWrites (a' : Nat) : ∀ (d : List Byte) (m : List Host.Cell) (a : Nat),
    memRead (memWrites m a d) a' = if a ≤ a' ∧ a' < a + d.length then d.getD (a' - a) 0 else memRead m a'
  | [], m, a => by simp [memWrites]
  | b :: t, m, a => by
    rw [memWrites, memRead_memWrites a' t, memRead_memWrite]
    by_cases h : a' = a
    · subst h; simp
    · by_cases h2 : a + 1 ≤ a' ∧ a' < a + 1 + t.length
      · have h3 : a ≤ a' ∧ a' < a + (b :: t).length := by simp; omega
        obtain ⟨n, hn⟩ : ∃ n, a' - a = n + 1 := ⟨a' - a - 1, by omega⟩
        have h4 : a' - (a + 1) = n := by omega
        rw [if_pos h2, if_pos h3, hn, h4]; simp
      · have h3 : ¬(a ≤ a' ∧ a' < a + (b :: t).length) := by simp; omega
        rw [if_neg h2, if_neg h3, if_neg h]

/-- A write of one byte keeps the canonical form. -/
theorem memWf_memWrite {m : List Host.Cell} (a : Nat) (b : Byte) (h : memWf m) : memWf (memWrite m a b) := tabWf_tset a b h

/-- A write of several bytes keeps the canonical form. -/
theorem memWf_memWrites : ∀ (d : List Byte) {m : List Host.Cell} (a : Nat), memWf m → memWf (memWrites m a d)
  | [], _, _, h => h
  | b :: t, _, a, h => memWf_memWrites t (a + 1) (memWf_memWrite a b h)

/-- Clearing a range keeps the canonical form. -/
theorem memWf_memClear {m : List Host.Cell} (a len : Nat) (h : memWf m) : memWf (memClear m a len) := tabWf_filter _ h

/-- Reading a byte after a range has been cleared. -/
theorem memRead_memClear (a len a' : Nat) (m : List Host.Cell) :
    memRead (memClear m a len) a' = if a ≤ a' ∧ a' < a + len then 0 else memRead m a' := by
  have h := tget_filter (0 : Byte) (fun k => decide ¬(a ≤ k ∧ k < a + len)) a' m
  unfold memRead memClear
  rw [h]
  by_cases hk : a ≤ a' ∧ a' < a + len <;> simp [hk]

/-- Programming flash keeps its canonical form. -/
theorem flashForm_flashProg {s : State} (a : Nat) (d : List Byte) (h : tabWf (0xFF : Byte) s.flash) :
    tabWf (0xFF : Byte) (flashProg s a d).flash := by
  unfold flashProg
  simp only
  generalize d.zipIdx = l
  have : ∀ (l : List (Byte × Nat)) (f : List Host.Cell), tabWf (0xFF : Byte) f →
      tabWf (0xFF : Byte) (l.foldl (fun f e => tset 0xFF f (a + e.2) e.1) f) := by
    intro l
    induction l with
    | nil => intro f hf; exact hf
    | cons e t ih => intro f hf; exact ih _ (tabWf_tset _ _ hf)
  exact this l _ h

-- Units

@[simp] theorem core_setCore (s : State) (c d : Nat) (x : Core) : core (setCore s c x) d = if d = c then x else core s d :=
  tget_tset ..
@[simp] theorem core_modCore (s : State) (c d : Nat) (f : Core → Core) :
    core (modCore s c f) d = if d = c then f (core s c) else core s d := tget_tset ..
@[simp] theorem stream_setStream (s : State) (n m : Nat) (x : Stream) : stream (setStream s n x) m = if m = n then x else stream s m :=
  tget_tset ..
@[simp] theorem qp_setQp (s : State) (q r : Nat) (x : Qp) : qp (setQp s q x) r = if r = q then x else qp s r := tget_tset ..
@[simp] theorem port_setPort (s : State) (p q : Nat) (x : Port) : port (setPort s p x) q = if q = p then x else port s q := tget_tset ..
@[simp] theorem slotOf_setSlot (s : State) (n m : Nat) (x : Slot) : slotOf (setSlot s n x) m = if m = n then x else slotOf s m :=
  tget_tset ..
@[simp] theorem wkcOf_setWkc (s : State) (n m : Nat) (x : Wkc) : wkcOf (setWkc s n x) m = if m = n then x else wkcOf s m := tget_tset ..
@[simp] theorem ctl_setCtl (s : State) (k j : Nat) (x : MemCtl) : ctl (setCtl s k x) j = if j = k then x else ctl s j := tget_tset ..
@[simp] theorem cget_cset (s : State) (a b : Nat) (v : W64) : cget (cset s a v) b = if b = a then v else cget s b := by
  unfold cget cset
  by_cases h : b = a
  · subst h; simp
  · simp only [tset]
    split <;> simp [tget_tdel, tget_tput, h]
@[simp] theorem cget_bump (s : State) (a b n : Nat) :
    cget (bump s a n) b = if b = a then BitVec.ofNat 64 (((cget s a).toNat + n) % 2 ^ 48) else cget s b := cget_cset ..
@[simp] theorem cget_cput (s : State) (a b hi lo v : Nat) :
    cget (cput s a hi lo v) b = if b = a then wput (cget s a) hi lo v else cget s b := cget_cset ..
@[simp] theorem reelOf_withReel (x : Core) (r q : Nat) (y : Reel) : reelOf (withReel x r y) q = if q = r then y else reelOf x q :=
  tget_tset ..
@[simp] theorem queueOf_withQueue (x : Core) (q r : Nat) (l : List QDesc) :
    queueOf (withQueue x q l) r = if r = q then l else queueOf x r := tget_tset ..
/-- Reading a barrier counter after one of the 64 of an MU is written. -/
theorem barOf_withBar (x : Core) (m k m' k' : Nat) (y : Bar) (hk : k < 64) (hk' : k' < 64) :
    barOf (withBar x m k y) m' k' = if m' = m ∧ k' = k then y else barOf x m' k' := by
  unfold barOf withBar
  simp only [tget_tset]
  by_cases h : m' = m ∧ k' = k
  · obtain ⟨rfl, rfl⟩ := h; simp
  · have : 64 * m' + k' ≠ 64 * m + k := by omega
    simp [h, this]
/-- Reading a region's state after it is set. -/
@[simp] theorem regionState_setRegion (s : State) (r q v : Nat) :
    regionState (setRegion s r v) q = if q = r then v else regionState s q := by
  unfold regionState setRegion
  by_cases h : q = r
  · subst h; simp
  · simp only [tset]
    split <;> simp [tget_tdel, tget_tput, h]

/-- A byte of the device is in SRAM or DRAM at a place that Derler's map fixes. -/
theorem devByte_congr {s t : State} (hm : t.mem = s.mem) (hs : t.sram = s.sram) (hd : t.drl = s.drl) (a : Nat) :
    devByte t a = devByte s a := by
  have hp : ∀ l, physOf t l = physOf s l := fun l => by unfold physOf pcoreOf; rw [hd]
  have hl : locate t a = locate s a := by
    unfold locate
    split <;> simp [hp]
  simp only [devByte, hl, hm, hs]

-- Outcomes

/-- A command on a unit that exists. -/
@[simp] theorem onUnit_true (s : State) (o : Out) : onUnit true s o = o := rfl
/-- A command on a unit that the device has not changes nothing. -/
@[simp] theorem onUnit_false (s : State) (o : Out) : onUnit false s o = .next s := rfl
/-- An event whose condition holds. -/
@[simp] theorem when_true (s t : State) : when_ true s t = .next t := rfl
/-- An event whose condition does not hold does not happen. -/
@[simp] theorem when_false (s t : State) : when_ false s t = .next s := rfl
/-- An event on an existing unit whose condition holds. -/
@[simp] theorem event_true (s t : State) : event true true s t = .next t := rfl
/-- Everything an event can do. -/
theorem event_cases {u c : Bool} {s t r : State} (h : event u c s t = .next r) : r = if u && c then t else s := by
  cases u <;> cases c <;> simp_all [event, onUnit, when_]

-- Finlen

/-- s0 reads as zero. -/
@[simp] theorem Reel.get_zero (r : Reel) : r.get 0 = 0 := rfl
/-- A write to s0 is discarded. -/
@[simp] theorem Reel.set_zero (r : Reel) (v : W64) : r.set 0 v = r := rfl
/-- Reading a scalar register after a write. -/
theorem Reel.get_set (r : Reel) (n m : Nat) (v : W64) (h : n ≠ 0) : (r.set n v).get m = if m = n then v else r.get m := by
  unfold Reel.get Reel.set
  by_cases h0 : m = 0
  · have : m ≠ n := by omega
    simp [h0, Ne.symm h]
  · simp [h, h0]

/-- The running reel after it is changed. -/
@[simp] theorem runningReel_modRunning (s : State) (c : Nat) (f : Reel → Reel) :
    runningReel (modRunning s c f) c = f (runningReel s c) := by
  simp [runningReel, modRunning]

/-- A core after its running reel, or another core's, is changed. -/
@[simp] theorem core_modRunning (s : State) (c d : Nat) (f : Reel → Reel) : core (modRunning s c f) d =
    if d = c then withReel (core s c) (core s c).running (f (runningReel s c)) else core s d := by
  rw [modRunning, core_modCore]
  rfl

/-- Reading a register after bits of it are set. -/
@[simp] theorem cget_corr (s : State) (a b : Nat) (v : W64) : cget (corr s a v) b = if b = a then cget s a ||| v else cget s b :=
  cget_cset ..

end Sys2Proof.Machine
end

