-- ==== Sys2Proof/Laws/Finlen.lean ====
section
/-! SUPPORT. What an issue of a Finlen instruction does, and the frames of its effects. -/
namespace Sys2Proof.Machine

set_option Elab.async false

open Sys2Proof

/-- No register that an instruction names awaits an answer. -/
theorem issues_noPending {q : Issue} {i : Instr} {s : State} (h : issues q i s) :
    (i.uses.any fun n => pendingReg (core s q.core) (core s q.core).running n) = false := by
  simp only [List.any_eq_false]
  intro n hn
  simp [h.2.2.2.2.2.2.2 n hn]

/-- An instruction that issues and executes has its effect, and is counted. -/
theorem finlen_runs {q : Issue} {i : Instr} {s : State} {f g : State → State} (h : runs q i s) :
    finlen q i s f g = .next (f (bump s (csqBase q.core + 0x48) 1)) := by
  have hp := issues_noPending h.1
  obtain ⟨⟨h1, h2, h3, h4, h5, h6, h7, -⟩, h9⟩ := h
  have h6' : ¬ (core s q.core).code.length ≤ (runningReel s q.core).pc := by omega
  simp only [finlen, h1, h2, h3, h4, h5, h6', h7, hp, h9]
  simp

/-- An instruction that issues and does not execute only goes on, and is counted. -/
theorem finlen_skips {q : Issue} {i : Instr} {s : State} {f g : State → State} (h : issues q i s)
    (he : (runningReel s q.core).executes q = false) : finlen q i s f g = .next (g (bump s (csqBase q.core + 0x48) 1)) := by
  have hp := issues_noPending h
  obtain ⟨h1, h2, h3, h4, h5, h6, h7, -⟩ := h
  have h6' : ¬ (core s q.core).code.length ≤ (runningReel s q.core).pc := by omega
  simp only [finlen, h1, h2, h3, h4, h5, h6', h7, hp, he]
  simp

/-- A change of the running reel and of a register touches no other field. -/
theorem modRunning_bump_fields (s : State) (a c : Nat) (f : Reel → Reel) :
    { modRunning (bump s a 1) c f with cores := s.cores, csr := s.csr } = s := (rfl)

/-- A change of the running reel, with the issue counted, changes nothing else. -/
theorem frame_modRunning (s : State) (c : Nat) (f : Reel → Reel) :
    frameReel s (modRunning (bump s (csqBase c + 0x48) 1) c f) c := by
  refine ⟨⟨modRunning_bump_fields .., fun a => devByte_congr (by simp) (by simp) (by simp) a, fun d hd => by simp [hd], ?_⟩, ?_, ?_, ?_⟩
  · intro a ha
    simp only [cget_modRunning, cget_bump, if_neg (by simpa using ha)]
  · simp [withReel]
  · intro r hr
    simp [hr]
  · simp

/-- What a meaning on its own reel does, once its instruction issues and executes. -/
theorem reelOp_of {q : Issue} {i : Instr} {f : Reel → Reel} (h : ∀ s, exec i s = finlenReel q i s f) : reelOp q i f := by
  intro s hr
  refine ⟨_, ?_, ?_, frame_modRunning s q.core (fun r => (f r).next (wordsOf i))⟩
  · rw [h, finlenReel, finlenOp, finlen_runs hr]
  · rw [runningReel_modRunning, runningReel_bump]

/-- Two states that agree on every field but the cores and the registers. -/
theorem frame_fields {s t : State}
    (hpending : t.pending = s.pending)
    (hfree : t.free = s.free)
    (hkc : t.kc = s.kc)
    (hmem : t.mem = s.mem)
    (hsram : t.sram = s.sram)
    (hflash : t.flash = s.flash)
    (hpoison : t.poison = s.poison)
    (hregions : t.regions = s.regions)
    (hfab : t.fab = s.fab)
    (hwkc : t.wkc = s.wkc)
    (hmemctl : t.memctl = s.memctl)
    (hintake : t.intake = s.intake)
    (hloader : t.loader = s.loader)
    (hnet : t.net = s.net)
    (hcen : t.cen = s.cen)
    (hupu : t.upu = s.upu)
    (hcal : t.cal = s.cal)
    (hpwr : t.pwr = s.pwr)
    (hdrl : t.drl = s.drl)
    (hsec : t.sec = s.sec)
    (hobs : t.obs = s.obs)
    (hcsrEnd : t.csrEnd = s.csrEnd) :
    { t with cores := s.cores, csr := s.csr } = s := by
  cases s
  cases t
  simp only at *
  simp only [hpending, hfree, hkc, hmem, hsram, hflash, hpoison, hregions, hfab, hwkc, hmemctl, hintake, hloader, hnet, hcen, hupu, hcal, hpwr, hdrl, hsec, hobs, hcsrEnd]

/-- What a trap writes touches only the cores and the registers. -/
theorem trap_fields (s : State) (b c a1 a2 a3 : Nat) (v1 v2 v3 : W64) (f : Core → Core) :
    { cset (cset (cset (modCore (bump s b 1) c f) a1 v1) a2 v2) a3 v3 with cores := s.cores, csr := s.csr } = s := by
  apply frame_fields <;> simp

/-- A trap of a core that has not trapped (R235): its record, and its frame. -/
theorem trapsAt_of {q : Issue} {i : Instr} {s : State} {cause val detail : Nat} (ht : (core s q.core).trapped = false)
    (h : exec i s = .next (trapHere (bump s (csqBase q.core + 0x48) 1) q.core cause val detail)) :
    trapsAt q i s cause val detail := by
  refine ⟨_, h, ?_, ⟨?_, fun a => ?_, fun d hd => ?_, fun a ha => ?_⟩, ?_, ?_, ?_⟩
  · simp [trapHere, trapCore, ht]
  · simp only [trapHere, trapCore, core_bump, ht, Bool.false_eq_true, if_false]
    exact trap_fields ..
  · simp only [trapHere, trapCore, core_bump, ht, Bool.false_eq_true, if_false]
    exact devByte_congr (by simp) (by simp) (by simp) a
  · simp [trapHere, trapCore, ht, hd]
  · simp only [List.mem_cons, List.not_mem_nil, or_false, not_or] at ha
    simp [trapHere, trapCore, ht, ha]
  · simp [trapHere, trapCore, ht, pack]
  · simp [trapHere, trapCore, ht, runningReel]
  · simp [trapHere, trapCore, ht]

end Sys2Proof.Machine
end

