-- ==== Sys2Proof/Laws/Memory.lean ====
section
/-! SUPPORT. Every operation that writes memory, SRAM or module flash keeps their canonical form. -/
namespace Sys2Proof.Machine

set_option Elab.async false

open Sys2Proof

/-- The form depends on the three memories alone. -/
theorem memForm_congr {s t : State} (hm : t.mem = s.mem) (hs : t.sram = s.sram) (hf : t.flash = s.flash) (h : memForm s) : memForm t := by
  unfold memForm at *
  rwa [hm, hs, hf]

/-- Empty memories have it. -/
theorem memForm_of_empty {s t : State} (hm : t.mem = []) (hs : t.sram = []) (hf : t.flash = s.flash) (h : memForm s) : memForm t := by
  unfold memForm at *
  rw [hm, hs, hf]
  exact ⟨⟨.nil, by simp⟩, ⟨.nil, by simp⟩, h.2.2⟩

/-- A write of one byte at a device address. -/
theorem memForm_devPut {s : State} (a : Nat) (b : Byte) (h : memForm s) : memForm (devPut s a b) := by
  unfold devPut
  split
  · exact ⟨h.1, memWf_memWrite _ _ h.2.1, h.2.2⟩
  · exact ⟨memWf_memWrite _ _ h.1, h.2⟩
  · exact h

/-- A write of bytes at a device address. -/
theorem memForm_devWrites : ∀ (d : List Byte) {s : State} (a : Nat), memForm s → memForm (devWrites s a d)
  | [], _, _, h => h
  | b :: t, _, a, h => memForm_devWrites t (a + 1) (memForm_devPut a b h)

/-- A fold of changes that each keep the form keeps it. -/
theorem memForm_foldl {α : Type} {f : State → α → State} (hf : ∀ s x, memForm s → memForm (f s x)) :
    ∀ (l : List α) {s : State}, memForm s → memForm (l.foldl f s)
  | [], _, h => h
  | x :: t, _, h => memForm_foldl hf t (hf _ x h)

/-- An arrival that is taken back changes no memory. -/
theorem memForm_takeBack {s : State} (g : Nat × Guard) (h : memForm s) : memForm (takeBack s g) := by
  unfold takeBack
  dsimp only
  split
  · exact h
  · split
    · exact h
    · split
      · exact h
      · split <;> exact h

/-- Stale notices change no memory. -/
theorem memForm_notifyStale {s : State} (a len : Nat) (h : memForm s) : memForm (notifyStale s a len) := by
  unfold notifyStale
  split
  · exact h
  · exact memForm_congr (s := (staleHits s a len).foldl takeBack s) rfl rfl rfl (memForm_foldl (fun _ g hs => memForm_takeBack g hs) _ h)

/-- The fill's order changes no memory. -/
theorem memForm_fillRegion {s : State} (a : Nat) (h : memForm s) : memForm (fillRegion s a) := by
  unfold fillRegion
  split
  · split
    · exact h
    · exact h
  · exact h

/-- The regions of a write are filled first. -/
theorem memForm_fillFirst {s : State} (a len : Nat) (h : memForm s) : memForm (fillFirst s a len) :=
  memForm_foldl (fun _ r hs => memForm_fillRegion (r * 0x10000) hs) (regionsOf a len) h

/-- A write by an update unit, the logbook or Derler. -/
theorem memForm_ownWrite {s : State} (a : Nat) (d : List Byte) (h : memForm s) : memForm (ownWrite s a d) :=
  memForm_notifyStale _ _ (memForm_devWrites _ _ (memForm_congr (s := fillFirst s a d.length) rfl rfl rfl (memForm_fillFirst a d.length h)))

/-- A checked write, performed or not. -/
theorem memForm_writeMem {s : State} (a : Nat) (d : List Byte) (h : memForm s) : memForm (writeMem s a d).2 := by
  unfold writeMem
  split
  · exact memForm_ownWrite a d h
  · exact h

/-- A write of a physical core's SRAM. -/
theorem memForm_sramWrites {s : State} (phys off : Nat) (d : List Byte) (h : memForm s) : memForm (sramWrites s phys off d) :=
  ⟨h.1, memWf_memWrites _ _ h.2.1, h.2.2⟩

/-- A physical core's SRAM is cleared. -/
theorem memForm_clearSram {s : State} (c : Nat) (h : memForm s) : memForm (clearSram s c) :=
  ⟨h.1, memWf_memClear _ _ h.2.1, h.2.2⟩

/-- A range of memory is cleared. -/
theorem memForm_memClear {s : State} (a len : Nat) (h : memForm s) : memForm { s with mem := memClear s.mem a len } :=
  ⟨memWf_memClear _ _ h.1, h.2⟩

/-- Module flash is programmed. -/
theorem memForm_flashProg {s : State} (a : Nat) (d : List Byte) (h : memForm s) : memForm (flashProg s a d) :=
  ⟨h.1, h.2.1, flashForm_flashProg a d h.2.2⟩

/-- Module flash is erased. -/
theorem memForm_flashErase {s : State} (a len : Nat) (h : memForm s) : memForm (flashErase s a len) :=
  ⟨h.1, h.2.1, tabWf_filter _ h.2.2⟩

/-- The data of a stack or package are lost. -/
theorem memForm_dropMem {s : State} (k : Nat) (h : memForm s) : memForm (dropMem s k) :=
  ⟨memWf_memClear _ _ h.1, h.2⟩

/-- A core's test changes no memory. -/
theorem memForm_beginTest {s : State} (c : Nat) (h : memForm s) : memForm (beginTest s c) := h

/-- A warm reset's start clears the SRAM. -/
theorem memForm_warmLogic {s : State} (h : memForm s) : memForm (warmLogic s) := by
  unfold warmLogic
  refine memForm_congr (s := List.foldl beginTest _ _) rfl rfl rfl (memForm_foldl (fun _ c hs => memForm_beginTest c hs) _ ?_)
  exact ⟨h.1, ⟨.nil, by simp⟩, h.2.2⟩

/-- Clearing the ranges of several controllers keeps the form. -/
theorem memWf_clearCtls : ∀ (l : List Nat) {m : List Host.Cell}, memWf m →
    memWf (l.foldl (fun m k => memClear m (ctlBase k) (ctlSize k)) m)
  | [], _, h => h
  | _ :: t, _, h => memWf_clearCtls t (memWf_memClear _ _ h)

/-- The rails that the bank does not feed take memory and SRAM with them. -/
theorem memForm_dropRails {s : State} (h : memForm s) : memForm (dropRails s) := by
  unfold memForm dropRails at *
  dsimp only
  generalize List.filter (fun k => decide (k ∉ bankCtls)) (List.range 80) = l
  exact ⟨memWf_clearCtls l h.1, ⟨.nil, by simp⟩, h.2.2⟩

/-- What outlives the loss of every rail. -/
theorem memForm_keptInFlash {s : State} (h : memForm s) : memForm (keptInFlash s) := memForm_of_empty (s := s) rfl rfl rfl h

end Sys2Proof.Machine
end

