-- ==== Sys2Proof/Laws/PerInstr.lean ====
section
/-! SUPPORT. By constructor of the commands: which of them are Finlen instructions with words, and what a well-formed one names. -/
namespace Sys2Proof.Laws.FinlenWords

set_option Elab.async false

open Sys2Proof

/-- A command has Finlen words exactly when it is an instruction of a core (R206), and a well-formed instruction names an existing core
and one of the eight predicates (R13, R204). -/
def Statement (i : Instr) : Prop :=
  (finlenEncode i).isSome = i.issueOf.isSome ∧ (i.wf = true → ∀ q, i.issueOf = some q → q.core < 208 ∧ q.pr < 8)

/-- A command that is no instruction. -/
theorem of_none {i : Instr} (h : i.issueOf = none) (he : finlenEncode i = none) : Statement i :=
  ⟨by simp [h, he], fun _ q hq => by simp [h] at hq⟩

/-- An instruction whose well-formedness includes that of its issue. -/
theorem of_some {i : Instr} {q : Issue} (h : i.issueOf = some q) (he : (finlenEncode i).isSome = true) (hw : i.wf = true → q.ok = true) :
    Statement i := by
  refine ⟨by rw [h, he, Option.isSome_some], fun hi p hp => ?_⟩
  obtain rfl : q = p := by simpa [h] using hp
  simpa [Issue.ok, coreOk, predOk] using hw hi

theorem alu (q fn rd ra rb) : Statement (.alu q fn rd ra rb) := of_some rfl rfl fun h => by simp_all [Instr.wf]
theorem addi (q rd ra imm) : Statement (.addi q rd ra imm) := of_some rfl rfl fun h => by simp_all [Instr.wf]
theorem andi (q rd ra imm) : Statement (.andi q rd ra imm) := of_some rfl rfl fun h => by simp_all [Instr.wf]
theorem ori (q rd ra imm) : Statement (.ori q rd ra imm) := of_some rfl rfl fun h => by simp_all [Instr.wf]
theorem xori (q rd ra imm) : Statement (.xori q rd ra imm) := of_some rfl rfl fun h => by simp_all [Instr.wf]
theorem slli (q rd ra imm) : Statement (.slli q rd ra imm) := of_some rfl rfl fun h => by simp_all [Instr.wf]
theorem srli (q rd ra imm) : Statement (.srli q rd ra imm) := of_some rfl rfl fun h => by simp_all [Instr.wf]
theorem srai (q rd ra imm) : Statement (.srai q rd ra imm) := of_some rfl rfl fun h => by simp_all [Instr.wf]
theorem cmp (q fn pd ra rb) : Statement (.cmp q fn pd ra rb) := of_some rfl rfl fun h => by simp_all [Instr.wf]
theorem cmpi (q cond pd ra imm) : Statement (.cmpi q cond pd ra imm) := of_some rfl rfl fun h => by simp_all [Instr.wf]
theorem plog (q fn pd pa pb) : Statement (.plog q fn pd pa pb) := of_some rfl rfl fun h => by simp_all [Instr.wf]
theorem br (q off) : Statement (.br q off) := of_some rfl rfl fun h => by simp_all [Instr.wf]
theorem call (q off) : Statement (.call q off) := of_some rfl rfl fun h => by simp_all [Instr.wf]
theorem ret (q) : Statement (.ret q) := of_some rfl rfl fun h => by simp_all [Instr.wf]
theorem loop (q rd ra body) : Statement (.loop q rd ra body) := of_some rfl rfl fun h => by simp_all [Instr.wf]
theorem lbrk (q) : Statement (.lbrk q) := of_some rfl rfl fun h => by simp_all [Instr.wf]
theorem issue (q ra eng size off) : Statement (.issue q ra eng size off) := of_some rfl rfl fun h => by simp_all [Instr.wf]
theorem arrive (q ra mu ctr n rem) : Statement (.arrive q ra mu ctr n rem) := of_some rfl rfl fun h => by simp_all [Instr.wf]
theorem wait (q mu ctr n) : Statement (.wait q mu ctr n) := of_some rfl rfl fun h => by simp_all [Instr.wf]
theorem ldw (q rd ra imm) : Statement (.ldw q rd ra imm) := of_some rfl rfl fun h => by simp_all [Instr.wf]
theorem stw (q rd ra imm) : Statement (.stw q rd ra imm) := of_some rfl rfl fun h => by simp_all [Instr.wf]
theorem rstart (q z off) : Statement (.rstart q z off) := of_some rfl rfl fun h => by simp_all [Instr.wf]
theorem yieldReel (q) : Statement (.yieldReel q) := of_some rfl rfl fun h => by simp_all [Instr.wf]
theorem rexit (q) : Statement (.rexit q) := of_some rfl rfl fun h => by simp_all [Instr.wf]
theorem cut (q k) : Statement (.cut q k) := of_some rfl rfl fun h => by simp_all [Instr.wf]
theorem cutRecorded (stream) : Statement (.cutRecorded stream) := of_none rfl rfl
theorem tend (q) : Statement (.tend q) := of_some rfl rfl fun h => by simp_all [Instr.wf]
theorem fence (q fn) : Statement (.fence q fn) := of_some rfl rfl fun h => by simp_all [Instr.wf]
theorem fenceRelease (core reel) : Statement (.fenceRelease core reel) := of_none rfl rfl
theorem trap (q code) : Statement (.trap q code) := of_some rfl rfl fun h => by simp_all [Instr.wf]
theorem nop (q) : Statement (.nop q) := of_some rfl rfl fun h => by simp_all [Instr.wf]
theorem xalu (q fn rd ra imm) : Statement (.xalu q fn rd ra imm) := of_some rfl rfl fun h => by simp_all [Instr.wf]
theorem fetch (q rd ra rb dev num) : Statement (.fetch q rd ra rb dev num) := of_some rfl rfl fun h => by simp_all [Instr.wf]
theorem fetchAnswer (core reel rd) : Statement (.fetchAnswer core reel rd) := of_none rfl rfl
theorem counterResend (core reel rd) : Statement (.counterResend core reel rd) := of_none rfl rfl
theorem tcmt (q rd ra rb dev num) : Statement (.tcmt q rd ra rb dev num) := of_some rfl rfl fun h => by simp_all [Instr.wf]
theorem tcmtAnswer (core reel rd) : Statement (.tcmtAnswer core reel rd) := of_none rfl rfl
theorem tcmtCopyDone (core reel rd) : Statement (.tcmtCopyDone core reel rd) := of_none rfl rfl
theorem csrr (q rd imm) : Statement (.csrr q rd imm) := of_some rfl rfl fun h => by simp_all [Instr.wf]
theorem csrw (q ra imm) : Statement (.csrw q ra imm) := of_some rfl rfl fun h => by simp_all [Instr.wf]
theorem trapReport (core) : Statement (.trapReport core) := of_none rfl rfl
theorem barrierArrival (k) : Statement (.barrierArrival k) := of_none rfl rfl
theorem barrierWaitSatisfy (core mu ctr) : Statement (.barrierWaitSatisfy core mu ctr) := of_none rfl rfl
theorem mxePassStart (core) : Statement (.mxePassStart core) := of_none rfl rfl
theorem mxeRangeFail (core) : Statement (.mxeRangeFail core) := of_none rfl rfl
theorem zpMiss (core) : Statement (.zpMiss core) := of_none rfl rfl
theorem mxePassEnd (core) : Statement (.mxePassEnd core) := of_none rfl rfl
theorem mxeDrainEnd (core) : Statement (.mxeDrainEnd core) := of_none rfl rfl
theorem descSkipRun (core eng sub) : Statement (.descSkipRun core eng sub) := of_none rfl rfl
theorem vwalkStart (core) : Statement (.vwalkStart core) := of_none rfl rfl
theorem vceBeatIssue (core) : Statement (.vceBeatIssue core) := of_none rfl rfl
theorem vwalkEnd (core) : Statement (.vwalkEnd core) := of_none rfl rfl
theorem vprogApply (core) : Statement (.vprogApply core) := of_none rfl rfl
theorem vcache (core) : Statement (.vcache core) := of_none rfl rfl
theorem redReduce (core) : Statement (.redReduce core) := of_none rfl rfl
theorem redResult (core) : Statement (.redResult core) := of_none rfl rfl
theorem agProgram (core mu) : Statement (.agProgram core mu) := of_none rfl rfl
theorem requestReturn (core k) : Statement (.requestReturn core k) := of_none rfl rfl
theorem xfrStart (core) : Statement (.xfrStart core) := of_none rfl rfl
theorem xfrSeal (core) : Statement (.xfrSeal core) := of_none rfl rfl
theorem xfrComplete (core k) : Statement (.xfrComplete core k) := of_none rfl rfl
theorem versionReread (core k) : Statement (.versionReread core k) := of_none rfl rfl
theorem mcastTileSend (core) : Statement (.mcastTileSend core) := of_none rfl rfl
theorem steerApply (core stu) : Statement (.steerApply core stu) := of_none rfl rfl
theorem stuPair (core stu) : Statement (.stuPair core stu) := of_none rfl rfl
theorem stuDrainMarker (core stu) : Statement (.stuDrainMarker core stu) := of_none rfl rfl
theorem steerStall (core stu) : Statement (.steerStall core stu) := of_none rfl rfl
theorem reelSwitch (core unit) : Statement (.reelSwitch core unit) := of_none rfl rfl
theorem reelGenSwitch (core unit reel) : Statement (.reelGenSwitch core unit reel) := of_none rfl rfl
theorem circuitWord (slot circuit srcOff dstOff reel gen mark) : Statement (.circuitWord slot circuit srcOff dstOff reel gen mark) := of_none rfl rfl
theorem packetFlit (k) : Statement (.packetFlit k) := of_none rfl rfl
theorem timetableSwitch : Statement .timetableSwitch := of_none rfl rfl
theorem staleNotice (core mu g) : Statement (.staleNotice core mu g) := of_none rfl rfl
theorem wkcFetchAdd (core reel rd) : Statement (.wkcFetchAdd core reel rd) := of_none rfl rfl
theorem ledgerCommit (core reel rd) : Statement (.ledgerCommit core reel rd) := of_none rfl rfl
theorem ctrlAccess (write addr data ecc stream) : Statement (.ctrlAccess write addr data ecc stream) := of_none rfl rfl
theorem logbookRebuildDone : Statement .logbookRebuildDone := of_none rfl rfl
theorem refresh (ctl) : Statement (.refresh ctl) := of_none rfl rfl
theorem scrub (ctl addr ecc) : Statement (.scrub ctl addr ecc) := of_none rfl rfl
theorem lpcFill (pkg) : Statement (.lpcFill pkg) := of_none rfl rfl
theorem telemetryRead (ctl temp) : Statement (.telemetryRead ctl temp) := of_none rfl rfl
theorem calStep (ctl eye margin centre ecc) : Statement (.calStep ctl eye margin centre ecc) := of_none rfl rfl
theorem serdesProbe (lane margin) : Statement (.serdesProbe lane margin) := of_none rfl rfl
theorem calSnapshot : Statement .calSnapshot := of_none rfl rfl
theorem selfRefreshEnter (ctl) : Statement (.selfRefreshEnter ctl) := of_none rfl rfl
theorem selfRefreshExit (ctl) : Statement (.selfRefreshExit ctl) := of_none rfl rfl
theorem coreNap (core) : Statement (.coreNap core) := of_none rfl rfl
theorem coreWake (core) : Statement (.coreWake core) := of_none rfl rfl
theorem powerReading (watts temps inputDv bankDv) : Statement (.powerReading watts temps inputDv bankDv) := of_none rfl rfl
theorem commandRecord (stream slot) : Statement (.commandRecord stream slot) := of_none rfl rfl
theorem waitingRecordAccept (stream) : Statement (.waitingRecordAccept stream) := of_none rfl rfl
theorem run (stream) : Statement (.run stream) := of_none rfl rfl
theorem stepCmd (stream) : Statement (.stepCmd stream) := of_none rfl rfl
theorem load (stream) : Statement (.load stream) := of_none rfl rfl
theorem loadRetry (k) : Statement (.loadRetry k) := of_none rfl rfl
theorem unload (stream) : Statement (.unload stream) := of_none rfl rfl
theorem resume (stream) : Statement (.resume stream) := of_none rfl rfl
theorem mark (stream) : Statement (.mark stream) := of_none rfl rfl
theorem openStream (stream) : Statement (.openStream stream) := of_none rfl rfl
theorem closeStream (stream) : Statement (.closeStream stream) := of_none rfl rfl
theorem give (stream) : Statement (.give stream) := of_none rfl rfl
theorem takeBack (stream) : Statement (.takeBack stream) := of_none rfl rfl
theorem adopt (stream) : Statement (.adopt stream) := of_none rfl rfl
theorem release (stream) : Statement (.release stream) := of_none rfl rfl
theorem qpsetSet (stream) : Statement (.qpsetSet stream) := of_none rfl rfl
theorem qpsetReset (stream) : Statement (.qpsetReset stream) := of_none rfl rfl
theorem keyset (stream) : Statement (.keyset stream) := of_none rfl rfl
theorem keyRevoke (stream) : Statement (.keyRevoke stream) := of_none rfl rfl
theorem epoch (stream) : Statement (.epoch stream) := of_none rfl rfl
theorem sa (stream) : Statement (.sa stream) := of_none rfl rfl
theorem fwWrite (stream flashOk) : Statement (.fwWrite stream flashOk) := of_none rfl rfl
theorem fwActivate (stream flashOk) : Statement (.fwActivate stream flashOk) := of_none rfl rfl
theorem attest (stream flashOk) : Statement (.attest stream flashOk) := of_none rfl rfl
theorem idset (stream flashOk) : Statement (.idset stream flashOk) := of_none rfl rfl
theorem freezeThaw (stream) : Statement (.freezeThaw stream) := of_none rfl rfl
theorem freezeReset (stream) : Statement (.freezeReset stream) := of_none rfl rfl
theorem takeStart (stream) : Statement (.takeStart stream) := of_none rfl rfl
theorem commit (stream) : Statement (.commit stream) := of_none rfl rfl
theorem deadlinePassed (stream) : Statement (.deadlinePassed stream) := of_none rfl rfl
theorem placementClear (slot) : Statement (.placementClear slot) := of_none rfl rfl
theorem coreClearTimeout (core) : Statement (.coreClearTimeout core) := of_none rfl rfl
theorem completionRewrite (stream) : Statement (.completionRewrite stream) := of_none rfl rfl
theorem poolReservationRetry (run shard) : Statement (.poolReservationRetry run shard) := of_none rfl rfl
theorem portUp (p) : Statement (.portUp p) := of_none rfl rfl
theorem portDown (p) : Statement (.portDown p) := of_none rfl rfl
theorem rxRdmaWrite (m opcode rkey va data) : Statement (.rxRdmaWrite m opcode rkey va data) := of_none rfl rfl
theorem rxRdmaReadRequest (m rkey va len) : Statement (.rxRdmaReadRequest m rkey va len) := of_none rfl rfl
theorem rxReadResponse (m data) : Statement (.rxReadResponse m data) := of_none rfl rfl
theorem rxAck (m) : Statement (.rxAck m) := of_none rfl rfl
theorem rxNak (m kind) : Statement (.rxNak m kind) := of_none rfl rfl
theorem ackTimeout (qp) : Statement (.ackTimeout qp) := of_none rfl rfl
theorem rxCnp (m) : Statement (.rxCnp m) := of_none rfl rfl
theorem alphaTimer (qp) : Statement (.alphaTimer qp) := of_none rfl rfl
theorem rateTimer (qp) : Statement (.rateTimer qp) := of_none rfl rfl
theorem rateBytesSent (qp) : Statement (.rateBytesSent qp) := of_none rfl rfl
theorem rxPfcPause (port prio) : Statement (.rxPfcPause port prio) := of_none rfl rfl
theorem rxControlOpen (m rkey re) : Statement (.rxControlOpen m rkey re) := of_none rfl rfl
theorem rxControlSeal (m rkey re) : Statement (.rxControlSeal m rkey re) := of_none rfl rfl
theorem rxControlAbort (m rkey re) : Statement (.rxControlAbort m rkey re) := of_none rfl rfl
theorem stepCloseTimer (run) : Statement (.stepCloseTimer run) := of_none rfl rfl
theorem report (k) : Statement (.report k) := of_none rfl rfl
theorem verdict (k) : Statement (.verdict k) := of_none rfl rfl
theorem signs (k) : Statement (.signs k) := of_none rfl rfl
theorem verdictTimeout (stream) : Statement (.verdictTimeout stream) := of_none rfl rfl
theorem syncUpdate (run shard) : Statement (.syncUpdate run shard) := of_none rfl rfl
theorem slowUpdate (run shard) : Statement (.slowUpdate run shard) := of_none rfl rfl
theorem updateDone (run shard) : Statement (.updateDone run shard) := of_none rfl rfl
theorem pwrFail : Statement .pwrFail := of_none rfl rfl
theorem coldResetAssert : Statement .coldResetAssert := of_none rfl rfl
theorem flushDone : Statement .flushDone := of_none rfl rfl
theorem railRestore (cause) : Statement (.railRestore cause) := of_none rfl rfl
theorem thermalTrip (die) : Statement (.thermalTrip die) := of_none rfl rfl
theorem railFault (part) : Statement (.railFault part) := of_none rfl rfl
theorem coldStart (facts) : Statement (.coldStart facts) := of_none rfl rfl
theorem coldReady : Statement .coldReady := of_none rfl rfl
theorem warmResetAssert : Statement .warmResetAssert := of_none rfl rfl
theorem warmResetRelease : Statement .warmResetRelease := of_none rfl rfl
theorem warmReady : Statement .warmReady := of_none rfl rfl
theorem pinFreeze : Statement .pinFreeze := of_none rfl rfl
theorem freezePinRelease : Statement .freezePinRelease := of_none rfl rfl
theorem freezeHoldExpiry : Statement .freezeHoldExpiry := of_none rfl rfl
theorem freezeEnd : Statement .freezeEnd := of_none rfl rfl
theorem readoutEnd (badMus) : Statement (.readoutEnd badMus) := of_none rfl rfl
theorem coreArrayFault (core array) : Statement (.coreArrayFault core array) := of_none rfl rfl
theorem fenceFail (core) : Statement (.fenceFail core) := of_none rfl rfl
theorem coreTestDone (core pass) : Statement (.coreTestDone core pass) := of_none rfl rfl
theorem upuArrayFault (unit) : Statement (.upuArrayFault unit) := of_none rfl rfl
theorem linkD2dFault (die side) : Statement (.linkD2dFault die side) := of_none rfl rfl
theorem derlerWatchdog : Statement .derlerWatchdog := of_none rfl rfl
theorem hubFailure (hub) : Statement (.hubFailure hub) := of_none rfl rfl
theorem journalFlashFail (area) : Statement (.journalFlashFail area) := of_none rfl rfl
theorem journalEraseRetry : Statement .journalEraseRetry := of_none rfl rfl
theorem reinitCore (index) : Statement (.reinitCore index) := of_none rfl rfl
theorem reinitPort (index) : Statement (.reinitPort index) := of_none rfl rfl
theorem reinitUpu (index) : Statement (.reinitUpu index) := of_none rfl rfl
theorem reinitHbc (index) : Statement (.reinitHbc index) := of_none rfl rfl
theorem reinitLpc (index) : Statement (.reinitLpc index) := of_none rfl rfl
theorem frzDailiesWrite (v) : Statement (.frzDailiesWrite v) := of_none rfl rfl
theorem obsRingWrite (d v) : Statement (.obsRingWrite d v) := of_none rfl rfl
theorem csrWrite (addr v) : Statement (.csrWrite addr v) := of_none rfl rfl
theorem setPtr (v) : Statement (.setPtr v) := of_none rfl rfl
theorem smbRead : Statement .smbRead := of_none rfl rfl
theorem clrAlert (v) : Statement (.clrAlert v) := of_none rfl rfl
theorem alertResponse : Statement .alertResponse := of_none rfl rfl
theorem obsSample (d) : Statement (.obsSample d) := of_none rfl rfl
theorem keeperRailFall : Statement .keeperRailFall := of_none rfl rfl
theorem journalAreaErased (area) : Statement (.journalAreaErased area) := of_none rfl rfl
theorem pfcPauseExpiry (port) : Statement (.pfcPauseExpiry port) := of_none rfl rfl
theorem smbusClockLowTimeout : Statement .smbusClockLowTimeout := of_none rfl rfl
theorem rxInvalidRequest (m opcode) : Statement (.rxInvalidRequest m opcode) := of_none rfl rfl
theorem napEntryDone (core) : Statement (.napEntryDone core) := of_none rfl rfl

end Sys2Proof.Laws.FinlenWords
end

