-- ==== Sys2Proof/Tests/Slice0.lean ====
section
/-! SUPPORT. Small tests, and for each statement with hypotheses a witness: concrete states and operands that meet the hypotheses of its
clauses. Expected values come from the spec's tables or from arithmetic by hand. -/
namespace Sys2Proof.Tests

set_option Elab.async false

open Sys2Proof Sys2Proof.Machine

-- Small states

/-- An issue on core 0 under p0. -/
def iss : Issue := { core := 0, pn := false, pr := 0 }

/-- A core that runs a take of slot 0 alone in its rectangle. -/
def run0 : Core :=
  { share := .running, power := .run, take := some (1, 7), reels := [(0, { started := true })],
    place := some { slot := 0, rows := 1, cols := 1, row := 0, col := 0, lcore := 0, index := 0 } }

/-- READY, nothing running. -/
def up : State := { State.reset with drl := { phase := .ready, started := true, pcores := resetPcores } }

/-- READY with core 0 as given. -/
def at0 (x : Core) : State := { up with cores := [(0, x)] }

/-- A core with the words of an instruction at the PC of reel 0, and the registers of that reel. -/
def coreAt (i : Instr) (regs : Tab W64) (x : Core) : Core :=
  { x with
    code := match finlenEncode i with | some (w, v) => [w, v] | none => []
    reels := tput 0 { reelOf x 0 with regs := regs } x.reels }

/-- READY with that core as core 0. -/
def atInstr (i : Instr) (regs : Tab W64) (x : Core) : State := at0 (coreAt i regs x)

/-- What a next state shows. -/
def after {α : Type} (o : Out) (f : State → α) : Option α :=
  match o with
  | .next t => some (f t)
  | _ => none

/-- The fault of an outcome. -/
def faultOf (o : Out) : Option Fault :=
  match o with
  | .fault f => some f
  | _ => none

/-- A register of core 0's reel after an instruction, and the PC. -/
def regAfter (i : Instr) (regs : Tab W64) (n : Nat) : Option (W64 × Nat) :=
  after (exec i (atInstr i regs run0)) fun t => ((runningReel t 0).get n, (runningReel t 0).pc)

/-- A predicate after an instruction. -/
def predAfter (i : Instr) (regs : Tab W64) (n : Nat) : Option Bool :=
  after (exec i (atInstr i regs run0)) fun t => (runningReel t 0).pred n

-- Well-formedness: one ill-formed term for each check

/-- Ill-formed terms: each breaks one check. -/
def illFormed : List Instr :=
  [.mxePassStart 208, .fenceRelease 0 8, .addi iss 32 0 0, .cmp iss 0 8 0 0, .wait iss 4 0 1, .wait iss 0 64 1, .wait iss 0 0 0,
   .wait iss 0 0 256, .steerApply 0 4, .run 256, .commandRecord 0 256, .refresh 80, .lpcFill 64, .thermalTrip 10, .portUp 20,
   .ackTimeout 4352, .nop { iss with core := 208 }, .nop { iss with pr := 8 },
   .rxAck { port := 20, qp := 0, psn := 0, fcs := true, macsec := 0, an := 0, pn := 0, dip := [], sip := [], udp := 4791, icrc := true, dma := 0, ce := false },
   .rxAck { port := 0, qp := 0, psn := 2 ^ 24, fcs := true, macsec := 0, an := 0, pn := 0, dip := [], sip := [], udp := 4791, icrc := true, dma := 0, ce := false },
   .slli iss 1 1 64, .fence iss 0, .fence iss 8, .alu iss 0x13 1 2 3, .alu iss 0x11 1 2 3, .cmp iss 6 1 0 0, .cmpi iss 6 1 0 0,
   .plog iss 5 1 2 0, .plog iss 4 1 2 3, .br iss 0, .call iss 0, .loop iss 0 0 4096, .issue iss 0 7 false 0, .issue iss 0 0 false 4096,
   .arrive iss 1 0 0 1 false, .arrive iss 0 0 0 0 true, .rstart iss 0 0, .cut iss 0, .cut iss 256, .xalu iss 7 1 1 0, .xalu iss 0 1 1 0,
   .fetch iss 1 1 1 false 512, .csrr iss 1 4, .csrr iss 1 0x200000, .csrw iss 1 0x8078, .csrw iss 1 0x8100]

/-- More of them: the events. -/
def illFormed2 : List Instr :=
  [.descSkipRun 0 7 0, .descSkipRun 0 3 4, .descSkipRun 0 0 1, .agProgram 0 4, .requestReturn 208 0, .reelSwitch 0 10,
   .reelGenSwitch 0 9 0, .circuitWord 256 0 0 0 0 false false, .staleNotice 0 0 64, .ctrlAccess true 0 (zeros 65) 0 0,
   .ctrlAccess true 0 [] 3 0, .scrub 0 0 3, .telemetryRead 0 256, .calStep 16 13 0 0 0, .calStep 0 320 0 0 0, .serdesProbe 136 0,
   .serdesProbe 0 64, .powerReading 0 [] 0 0, .placementClear 256, .stepCloseTimer 16, .rxPfcPause 0 8, .railRestore 5,
   .coldStart { pllLock := true, hubLinks := true, deadDies := [8], deadMems := [], journalErase := true, bankOk := true, badCores := [] },
   .readoutEnd [832], .coreArrayFault 0 9, .upuArrayFault 80, .linkD2dFault 8 0, .linkD2dFault 0 4, .hubFailure 2,
   .journalFlashFail 2, .reinitHbc 16, .reinitLpc 64, .obsRingWrite 10 0, .fwWrite 256 true]

theorem test_wf_refuses : illFormed.all (fun i => !i.wf) = true := by decide
theorem test_wf_refuses_events : illFormed2.all (fun i => !i.wf) = true := by decide
/-- An ill-formed instruction faults; a number of no unit names nothing. -/
theorem test_ill_formed : faultOf (exec (.fence iss 0) up) = some .reservedField ∧ after (exec (.mxePassStart 208) up) (fun t => decide (t = up)) = some true ∧
    after (exec (.portUp 20) up) (fun t => decide (t = up)) = some true := by decide +kernel

-- Finlen words, bit by bit from R207 to R232

/-- The word 0 and the reserved opcode 0x09 spell nothing; an ALU word with FN 0 and one with FN 0x12. -/
theorem test_decode_alu : finlenDecode 0 0 0 = none ∧ finlenDecode 0 0x24000000 0 = none ∧
    finlenDecode 0 0x04221800 0 = some (.alu iss 0 1 2 3) ∧ finlenDecode 0 0x04220120 0 = some (.alu iss 0x12 1 2 0) := by decide
theorem test_decode_imm : finlenDecode 0 0x0822FFF0 0 = some (.addi iss 1 2 0xFFF) ∧
    finlenDecode 0 0x182203F0 0 = some (.slli iss 1 2 63) ∧ finlenDecode 0 0x18220400 0 = none := by decide
theorem test_decode_pred : finlenDecode 0 0x2860182A 0 = some (.cmp { iss with pn := true, pr := 2 } 2 3 0 3) ∧
    finlenDecode 0 0x8C000000 0 = some (.nop iss) ∧ finlenDecode 0 0x8C00000F 0 = some (.nop { iss with pn := true, pr := 7 }) := by decide
theorem test_decode_branch : finlenDecode 0 0x487FFFF0 0 = some (.br iss 0x7FFFF) ∧ finlenDecode 0 0x48000000 0 = none ∧
    finlenDecode 0 0x70800010 0 = some (.rstart iss 1 1) := by decide
theorem test_decode_desc : finlenDecode 0 0x5C290020 0 = some (.issue iss 1 4 true 2) ∧
    finlenDecode 0 0x6028A030 0 = some (.arrive iss 1 1 5 1 true) ∧ finlenDecode 0 0x6408A020 0 = some (.wait iss 1 5 1) := by decide
theorem test_decode_long : finlenDecode 0 0xE0200010 0xFFFFFFFF = some (.xalu iss 1 1 0 0xFFFFFFFF) ∧
    finlenDecode 0 0xE8221800 0x201 = some (.fetch iss 1 2 3 true 1) ∧ finlenDecode 0 0xE8221800 0x400 = none ∧
    finlenDecode 0 0xF0200000 8 = some (.csrr iss 1 8) ∧ finlenDecode 0 0xF4010000 0x8080 = some (.csrw iss 1 0x8080) := by decide

-- Finlen arithmetic (R210 to R214)

/-- s1 + s2 wraps modulo 2^64. -/
theorem test_alu_add : regAfter (.alu iss 0 3 1 2) [(1, -1), (2, 2)] 3 = some (1, 1) := by decide
/-- (-2) * 3 has the high word -1. -/
theorem test_alu_mulh : regAfter (.alu iss 0x09 3 1 2) [(1, -2), (2, 3)] 3 = some (-1, 1) := by decide
theorem test_addi : regAfter (.addi iss 1 1 0xFFF) [(1, 5)] 1 = some (4, 1) := by decide
theorem test_andi : regAfter (.andi iss 2 1 0xFF0) [(1, 0xABCD)] 2 = some (0xABC0, 1) := by decide
theorem test_ori : regAfter (.ori iss 2 1 0x800) [(1, 1)] 2 = some (0xFFFFFFFFFFFFF801, 1) := by decide
theorem test_xori : regAfter (.xori iss 2 1 0xFFF) [(1, 1)] 2 = some (0xFFFFFFFFFFFFFFFE, 1) := by decide
theorem test_slli : regAfter (.slli iss 2 1 63) [(1, 3)] 2 = some (0x8000000000000000, 1) := by decide
theorem test_srli : regAfter (.srli iss 2 1 63) [(1, -1)] 2 = some (1, 1) := by decide
theorem test_srai : regAfter (.srai iss 2 1 63) [(1, 0x8000000000000000)] 2 = some (-1, 1) := by decide
theorem test_cmp_signed : predAfter (.cmp iss 2 1 1 2) [(1, -1), (2, 1)] 1 = some true := by decide
theorem test_cmpi_unsigned : predAfter (.cmpi iss 4 1 1 0xFFF) [(1, 5)] 1 = some true := by decide
theorem test_plog_not : predAfter (.plog iss 4 1 0 0) [] 1 = some false := by decide
theorem test_xalu_high : regAfter (.xalu iss 2 1 0 0x12345678) [(1, 0xFFFFFFFF00000001)] 1 = some (0x1234567800000001, 2) := by decide
theorem test_nop : regAfter (.nop iss) [(1, 9)] 1 = some (9, 1) := by decide
/-- A write to s0 is discarded, and the PC moves on. -/
theorem test_write_s0 : regAfter (.addi iss 0 0 7) [] 0 = some (0, 1) := by decide

theorem witness_FinlenDecodeOfEncode : (Instr.csrw iss 31 0x80F8).wf = true ∧
    (finlenEncode (.csrw iss 31 0x80F8)).isSome = true ∧ (Instr.br iss 0x40000).wf = true ∧ (finlenEncode (.br iss 0x40000)).isSome = true := by
  decide
theorem witness_FinlenEncodeOfDecode : (finlenDecode 207 0x04221800 5).isSome = true ∧ (finlenDecode 0 0xE0200010 0xFFFFFFFF).isSome = true := by
  decide


theorem witness_FinlenArithmetic :
    ∀ i ∈ ([.alu iss 0x12 31 1 0, .addi iss 1 1 0, .andi iss 1 1 0, .ori iss 1 1 0, .xori iss 1 1 0, .slli iss 1 1 63, .srli iss 1 1 63,
      .srai iss 1 1 63, .xalu iss 6 1 1 0, .nop iss, .cmp iss 5 7 1 2, .cmpi iss 5 7 1 0, .plog iss 4 7 1 0] : List Instr),
      runs iss i (atInstr i [] run0) := by decide

/-- Writes to s0 and p0 issue too. -/
theorem witness_HardwiredRegisters :
    ∀ i ∈ ([.alu iss 0 0 1 2, .addi iss 0 1 0, .andi iss 0 1 0, .ori iss 0 1 0, .xori iss 0 1 0, .slli iss 0 1 63, .srli iss 0 1 63,
      .srai iss 0 1 63, .xalu iss 6 0 1 0, .cmp iss 5 0 1 2, .cmpi iss 5 0 1 0, .plog iss 4 0 1 0] : List Instr),
      runs iss i (atInstr i [] run0) := by decide

/-- An issue under not p0, which never executes. -/
def never : Issue := { iss with pn := true }

theorem witness_FinlenNotExecuted :
    ∀ i ∈ ([.nop never, .loop never 1 1 3, .tend never, .fetch never 1 1 1 false 0] : List Instr),
      i.issueOf = some never ∧ issues never i (atInstr i [] run0) ∧ (runningReel (atInstr i [] run0) 0).executes never = false := by decide
/-- A LOOP that does not execute goes past its body; a NOP moves on one word. -/
theorem test_not_executed : regAfter (.loop never 1 1 3) [(1, 9)] 1 = some (9, 5) ∧ regAfter (.nop never) [] 1 = some (0, 1) := by decide

-- Branches, loops, memory words (R215, R216, R218)

/-- Core 0 with a call stack and a loop stack. -/
def stacked (rets : List Nat) (loops : List LoopEnt) : Core :=
  { run0 with reels := [(0, { started := true, rets := rets, loops := loops })] }

/-- A loop whose last word is word 0. -/
def loop1 (iter : Nat) : LoopEnt := { count := 2, iter := iter, first := 0, last := 0, idx := 5 }

theorem witness_FinlenBranchesAndLoops :
    runs iss (.br iss 0x7FFFF) (atInstr (.br iss 0x7FFFF) [] run0) ∧
    (runs iss (.call iss 4) (atInstr (.call iss 4) [] (stacked [1, 2, 3, 4, 5, 6, 7] [])) ∧
      (runningReel (atInstr (.call iss 4) [] (stacked [1, 2, 3, 4, 5, 6, 7] [])) 0).rets.length = 7) ∧
    runs iss (.ret iss) (atInstr (.ret iss) [] (stacked [9] [])) ∧ (runningReel (atInstr (.ret iss) [] (stacked [9] [])) 0).rets = [9] := by
  decide
/-- BR with OFF19 = -1 from word 0 goes to the last of the 32,768 words. -/
theorem test_br : regAfter (.br iss 0x7FFFF) [] 1 = some (0, 32767) := by decide
theorem test_call_ret : after (exec (.call iss 4) (atInstr (.call iss 4) [] run0)) (fun t => ((runningReel t 0).pc, (runningReel t 0).rets)) =
    some (4, [1]) ∧
  after (exec (.ret iss) (atInstr (.ret iss) [] (stacked [9, 8] []))) (fun t => ((runningReel t 0).pc, (runningReel t 0).rets)) =
    some (9, [8]) := by decide

theorem witness_FinlenBranchesAndLoops_loops :
    (∀ v ∈ [0, 1, 0xFFFFFFFF], let s := atInstr (.loop iss 1 2 3) [(2, BitVec.ofNat 64 v)] (stacked [] [loop1 0, loop1 0, loop1 0])
      runs iss (.loop iss 1 2 3) s ∧ ((runningReel s 0).get 2).toNat = v ∧ (runningReel s 0).loops.length = 3) ∧
    runs iss (.lbrk iss) (atInstr (.lbrk iss) [] (stacked [] [loop1 0])) ∧
    (runningReel (atInstr (.lbrk iss) [] (stacked [] [loop1 0])) 0).loops = [loop1 0] ∧
    ((loop1 0).last = (reelOf (stacked [] [loop1 0]) 0).pc + 1 - 1 ∧ (loop1 0).iter + 1 < (loop1 0).count) ∧
    ((loop1 1).count ≤ (loop1 1).iter + 1) ∧ (loop1 0).last ≠ (reelOf (stacked [] [loop1 0]) 0).pc + 2 - 1 := by decide
/-- LOOP of two iterations writes 0 to its index and begins at the next word; a count of 0 skips the three words of the body and
one more. -/
theorem test_loop : after (exec (.loop iss 1 2 3) (atInstr (.loop iss 1 2 3) [(1, 7), (2, 2)] run0)) (fun t =>
    ((runningReel t 0).get 1, (runningReel t 0).pc, (runningReel t 0).loops)) =
      some (0, 1, [{ count := 2, iter := 0, first := 1, last := 4, idx := 1 }]) ∧
  regAfter (.loop iss 1 2 3) [(1, 7), (2, 0)] 1 = some (7, 5) := by decide
theorem test_loop_end : after (exec (.nop iss) (atInstr (.nop iss) [] (stacked [] [loop1 0]))) (fun t =>
    ((runningReel t 0).get 5, (runningReel t 0).pc, (runningReel t 0).loops)) = some (1, 0, [loop1 1]) ∧
  after (exec (.lbrk iss) (atInstr (.lbrk iss) [] (stacked [] [loop1 0, loop1 1]))) (fun t =>
    ((runningReel t 0).pc, (runningReel t 0).loops)) = some (1, [loop1 1]) := by decide

theorem witness_FinlenWordsOfMemory :
    ∀ i ∈ ([.ldw iss 3 1 0xFFF, .stw iss 3 1 0xFFF] : List Instr), ∀ v ∈ [8, 0xFFFFF8],
      runs iss i (atInstr i [(1, BitVec.ofNat 64 v)] run0) ∧
      (wordAddr (runningReel (atInstr i [(1, BitVec.ofNat 64 v)] run0) 0) 1 0xFFF).2 = true := by decide
/-- STW at base 16 with IMM12 = -1 stores at 8, the low byte first; LDW reads the eight bytes little-endian. -/
theorem test_stw : after (exec (.stw iss 3 1 0xFFF) (atInstr (.stw iss 3 1 0xFFF) [(1, 16), (3, 0x0102030405060708)] run0)) (fun t =>
    (memRead t.sram (sramKey 0 8), memRead t.sram (sramKey 0 15), memRead t.sram (sramKey 0 16))) = some (8, 1, 0) := by decide
theorem test_ldw : after (exec (.ldw iss 3 1 0) { atInstr (.ldw iss 3 1 0) [(1, 8)] run0 with sram := [(sramKey 0 8, 0x34), (sramKey 0 9, 0x12)] })
    (fun t => (runningReel t 0).get 3) = some 0x1234 := by decide

-- Traps (R235, R236)

/-- The valid bit, the cause and the value of core 0's trap. -/
def trapOf (i : Instr) (regs : Tab W64) (x : Core) : Option (Bool × Nat × Nat) :=
  after (exec i (atInstr i regs x)) fun t => ((cget t (csqBase 0 + 0x10)).getLsbD 63, wbits (cget t (csqBase 0 + 0x10)) 7 0,
    (cget t (csqBase 0 + 0x20)).toNat)

/-- Core 0 with reel 1 running. -/
def reel1 : Core := { run0 with running := 1, reels := [(0, { started := true }), (1, { started := true })] }

theorem witness_FinlenTraps :
    (∀ i ∈ ([.trap iss 0xFFF, .lbrk iss, .ret iss, .ldw iss 3 1 0, .stw iss 3 1 0, .loop iss 3 1 1] : List Instr),
      runs iss i (atInstr i [(1, 0x100000000)] run0)) ∧
    (wordAddr (runningReel (atInstr (.ldw iss 3 1 0) [(1, 0x1000000)] run0) 0) 1 0).2 = false ∧
    runs iss (.loop iss 3 1 1) (atInstr (.loop iss 3 1 1) [(1, 1)] (stacked [] [loop1 0, loop1 0, loop1 0, loop1 0])) ∧
    runs iss (.call iss 1) (atInstr (.call iss 1) [] (stacked [1, 2, 3, 4, 5, 6, 7, 8] [])) ∧
    (runs iss (.rstart iss 1 1) (atInstr (.rstart iss 1 1) [] { run0 with reels := [(0, { started := true }), (1, { started := true })] }) ∧
      (reelOf (Machine.core (atInstr (.rstart iss 1 1) [] { run0 with reels := [(0, { started := true }), (1, { started := true })] }) 0) 1).started = true) ∧
    runs iss (.rexit iss) (atInstr (.rexit iss) [] run0) ∧ (Machine.core (atInstr (.rexit iss) [] run0) 0).running = 0 := by decide
theorem test_trap_code : trapOf (.trap iss 0xABC) [] run0 = some (true, 1, 0) ∧
    after (exec (.trap iss 0xABC) (atInstr (.trap iss 0xABC) [] run0)) (fun t => wbits (cget t (csqBase 0 + 0x10)) 31 16) = some 0xABC := by
  decide
theorem test_trap_memory : trapOf (.ldw iss 3 1 0) [(1, 4)] run0 = some (true, 0x0A, 4) ∧
    trapOf (.stw iss 3 1 0) [(1, 0x1000000)] run0 = some (true, 0x0A, 0x1000000) := by decide
theorem test_trap_stacks : trapOf (.ret iss) [] run0 = some (true, 0x06, 0) ∧ trapOf (.lbrk iss) [] run0 = some (true, 0x04, 0) ∧
    trapOf (.loop iss 3 1 1) [(1, 0x100000000)] run0 = some (true, 0x03, 0x100000000) := by decide

-- Descriptors, barriers, reels, fences, counters (R220 to R232)

/-- Put fields `(offset, bytes, value)` into a block of zeros. -/
def block (n : Nat) (fs : List (Nat × Nat × Nat)) : List Byte :=
  fs.foldl (fun b f => putBytes b f.1 (leBytes f.2.1 f.2.2)) (zeros n)

/-- A legal LOAD of 64 bytes from LPDDR5X package 0 to core address 0x100. -/
def xfr0 : List Byte :=
  block 64 [(0, 1, 4), (24, 8, 0x80008000000), (32, 8, 0x100), (40, 4, 64), (44, 4, 1)]

/-- Memory cells that hold bytes from a key upward. -/
def cells (a : Nat) (b : List Byte) : List Host.Cell := (b.zipIdx.filter fun e => e.1 ≠ 0).map fun e => (a + e.2, e.1)

/-- A queued descriptor. -/
def qd (b : List Byte) (ext : List Nat) (skip : Bool) : QDesc :=
  { id := 1, bytes := b, ext := ext, skip := skip, joined := false, released := false }

/-- ISSUE of the transfer at core address 0x40. -/
def issXfr : Instr := .issue iss 1 4 false 0

/-- Core 0 about to issue it, with what stands in its SRAM and in its XFR queue. -/
def issueAt (base : W64) (b : List Byte) (n : Nat) : State :=
  { atInstr issXfr [(1, base)] { run0 with queues := if n = 0 then [] else [(4, List.replicate n (qd b [] false))] } with
    sram := cells 0x40 b }

theorem witness_IssueQueuesDescriptor : runs iss issXfr (issueAt 0x40 xfr0 15) ∧ sramReads (issueAt 0x40 xfr0 15) 0 0x40 64 = xfr0 ∧
    inMu 0x40 64 = true ∧ (queueOf (Machine.core (issueAt 0x40 xfr0 15) 0) (queueKey xfr0 0)).length < queueDepth 4 ∧
    dEng xfr0 = 4 ∧ dSize xfr0 = false ∧ typeOk xfr0 = true ∧
    descBad 0 1 0 ((cfgOf (issueAt 0x40 xfr0 15) 0 (vceBase 0)).getLsbD 0) xfr0 = none := by decide
theorem test_issue : after (exec issXfr (issueAt 0x40 xfr0 0)) (fun t => ((queueOf (Machine.core t 0) 4).map (·.bytes), (runningReel t 0).pc)) =
    some ([xfr0], 1) := by decide

theorem witness_FinlenTraps_issue :
    (runs iss issXfr (issueAt 0x48 xfr0 0) ∧ ((runningReel (issueAt 0x48 xfr0 0) 0).get 1 + 0).toNat % 64 ≠ 0) ∧
    (runs iss issXfr (issueAt 0x40 (putBytes xfr0 0 [5]) 0) ∧ dEng (putBytes xfr0 0 [5]) ≠ 4) ∧
    (runs iss issXfr (issueAt 0x40 (putBytes xfr0 44 [0]) 0) ∧ typeOk (putBytes xfr0 44 [0]) = true ∧
      descBad 0 1 0 false (putBytes xfr0 44 [0]) = some 44) ∧
    (runs iss issXfr (issueAt 0x40 xfr0 16) ∧ queueDepth 4 ≤ (queueOf (Machine.core (issueAt 0x40 xfr0 16) 0) (queueKey xfr0 0)).length) := by
  decide
theorem test_issue_traps : after (exec issXfr (issueAt 0x48 xfr0 0)) (fun t => wbits (cget t (csqBase 0 + 0x10)) 7 0) = some 7 ∧
    after (exec issXfr (issueAt 0x40 (putBytes xfr0 44 [0]) 0)) (fun t => (wbits (cget t (csqBase 0 + 0x10)) 7 0, cget t (csqBase 0 + 0x20))) =
      some (9, 44) := by decide

/-- An arrive with REM to the core of rectangle index s1, and one to the own core. -/
def arrRem : Instr := .arrive iss 1 3 63 255 true
/-- ARRIVE on the own core. -/
def arrOwn : Instr := .arrive iss 0 0 5 1 false

/-- Core 0 in a rectangle of two cores, and its neighbour. -/
def pair0 (i : Instr) (regs : Tab W64) : State :=
  { up with cores := [(0, coreAt i regs { run0 with place := some { slot := 0, rows := 1, cols := 2, row := 0, col := 0, lcore := 0, index := 0 } }),
                      (1, { run0 with place := some { slot := 0, rows := 1, cols := 2, row := 0, col := 1, lcore := 1, index := 1 } })],
            loader := { slots := [(0, { state := .running, row := 0, col := 0, img := block 64 [(8, 1, 1)] })] } }

/-- A counter with waiters. -/
def waited (n count : Nat) : Bar := { count := count, waiters := List.replicate n { who := .reel 0, n := 1 } }

theorem witness_BarrierInstructions : runs iss arrOwn (atInstr arrOwn [] run0) ∧
    (runs iss arrRem (pair0 arrRem [(1, 1)]) ∧ ((Machine.core (pair0 arrRem [(1, 1)]) 0).place.bind fun p =>
      coreAtIndex (pair0 arrRem [(1, 1)]) p.slot 1) = some 1 ∧ rectOf (Machine.core (pair0 arrRem [(1, 1)]) 0) = 2) ∧
    (runs iss arrRem (pair0 arrRem [(1, 2)])) ∧
    (∀ n ∈ [31, 32], runs iss (.wait iss 3 63 1) (atInstr (.wait iss 3 63 1) [] { run0 with bars := [(255, waited n 0)] }) ∧
      (barOf (Machine.core (atInstr (.wait iss 3 63 1) [] { run0 with bars := [(255, waited n 0)] }) 0) 3 63).waiters.length = n) := by decide
theorem test_arrive : after (exec arrOwn (atInstr arrOwn [] run0)) (fun t => t.fab.arrivals.map fun a => (a.dst, a.mu, a.ctr, a.n)) =
    some [(0, 0, 5, 1)] ∧
  after (exec arrRem (pair0 arrRem [(1, 1)])) (fun t => t.fab.flits.map fun f => (f.dst, f.arrival.mu, f.arrival.ctr, f.arrival.n)) =
    some [(1, 3, 63, 255)] ∧
  after (exec arrRem (pair0 arrRem [(1, 2)])) (fun t => (wbits (cget t (csqBase 0 + 0x10)) 7 0, cget t (csqBase 0 + 0x20))) = some (0x0C, 2) := by
  decide
theorem test_wait : after (exec (.wait iss 3 63 1) (atInstr (.wait iss 3 63 1) [] run0)) (fun t => (runningReel t 0).hold) =
    some (.bar 3 63) := by decide

theorem witness_ReelInstructions : runs iss (.rstart iss 7 1) (atInstr (.rstart iss 7 1) [(5, 9)] run0) ∧
    (reelOf (Machine.core (atInstr (.rstart iss 7 1) [(5, 9)] run0) 0) 7).started = false ∧
    runs iss (.yieldReel iss) (atInstr (.yieldReel iss) [] run0) ∧
    (runs iss (.rexit iss) (at0 { reel1 with code := [0x78000000] }) ∧ (Machine.core (at0 { reel1 with code := [0x78000000] }) 0).running ≠ 0) := by
  decide
theorem test_rstart : after (exec (.rstart iss 7 1) (atInstr (.rstart iss 7 1) [(5, 9)] run0)) (fun t =>
    ((reelOf (Machine.core t 0) 7).started, (reelOf (Machine.core t 0) 7).pc, (reelOf (Machine.core t 0) 7).get 5, (Machine.core t 0).running)) =
      some (true, 1, 9, 0) := by decide
/-- With no other reel that has input, YIELD keeps the reel. -/
theorem test_yield : after (exec (.yieldReel iss) (atInstr (.yieldReel iss) [] run0)) (fun t =>
    ((Machine.core t 0).running, (runningReel t 0).pc)) = some (0, 1) := by decide
theorem test_rexit : after (exec (.rexit iss) (at0 { reel1 with code := [0x78000000] })) (fun t =>
    ((reelOf (Machine.core t 0) 1).started, (Machine.core t 0).running)) = some (false, 0) := by decide

/-- A take of slot 0 with tag 7, and the record of its command. -/
def take7 : Take := { stream := 1, seq := 0, slot := 0, tag := 7, no := 1 }

/-- A state with core 0 and its take. -/
def taken (x : Core) : State := { at0 x with intake := { takes := [take7] }, loader := { slots := [(0, { state := .running, row := 0, col := 0, img := block 64 [(8, 1, 1)] })] } }

/-- Core 0 held. -/
def held (h : Hold) : Core := { run0 with reels := [(0, { started := true, hold := h })] }

theorem witness_FenceCutTend :
    runs iss (.fence iss 7) (atInstr (.fence iss 7) [] run0) ∧
    (runs iss (.cut iss 255) (atInstr (.cut iss 255) [] run0) ∧ cutLast (atInstr (.cut iss 255) [] run0) 0 = 0 ∧
      othersStarted (Machine.core (atInstr (.cut iss 255) [] run0) 0) = false ∧
      mateAtCut (atInstr (.cut iss 255) [] run0) 0 (· ≠ 255) = false) ∧
    (runs iss (.cut iss 1) (atInstr (.cut iss 1) [] (stacked [1] []))) ∧
    (runs iss (.tend iss) (atInstr (.tend iss) [] run0) ∧ mateAtCut (atInstr (.tend iss) [] run0) 0 (fun _ => true) = false) ∧
    (runs iss (.tend iss) (at0 { reel1 with code := [0x80000000] })) ∧
    (∀ h ∈ ([.fence 7 9, .cut 1 9, .tend 9] : List Hold), engineLive (taken (held h)) 0 = true ∧ (reelOf (Machine.core (taken (held h)) 0) 0).hold = h) ∧
    fenceDone (taken (held (.fence 7 9))) 0 7 9 = true ∧
    fenceDone { taken (held (.fence 4 9)) with
      fab := { arrivals := [{ src := 0, id := 1, csq := none, dst := 0, mu := 0, ctr := 0, n := 1 }] } } 0 7 9 = false ∧
    takeOfCore (taken (held (.tend 9))) 0 = some take7 ∧ coresOf (taken (held (.tend 9))) 0 = [0] := by decide
theorem test_fence : after (exec (.fence iss 7) (atInstr (.fence iss 7) [] run0)) (fun t => (runningReel t 0).hold) = some (.fence 7 1) := by decide
theorem test_cut : after (exec (.cut iss 255) (atInstr (.cut iss 255) [] run0)) (fun t => (runningReel t 0).hold) = some (.cut 255 1) ∧
    after (exec (.cut iss 1) (atInstr (.cut iss 1) [] (stacked [1] []))) (fun t => wbits (cget t (csqBase 0 + 0x10)) 7 0) = some 0x12 := by decide
theorem test_tend : after (exec (.tend iss) (atInstr (.tend iss) [] run0)) (fun t => (runningReel t 0).hold) = some (.tend 1) := by decide
/-- The only core of a take that ends its share ends the take; a fence lets its reel go on. -/
theorem test_fence_release : after (exec (.fenceRelease 0 0) (taken (held (.tend 9)))) (fun t => t.intake.takes.map (·.ended)) = some [true] ∧
    after (exec (.fenceRelease 0 0) (taken (held (.fence 7 9)))) (fun t => (reelOf (Machine.core t 0) 0).hold) = some .free := by decide

-- Work counters and commits (R160 to R163, R224 to R227)

/-- FETCH and TCMT of die counter 5 with increment or claim s1 and ID or record s2. -/
def fetch5 : Instr := .fetch iss 4 1 2 false 5
/-- TCMT. -/
def tcmt5 : Instr := .tcmt iss 4 1 2 false 5

/-- Core 0 about to issue `i`, its slot binding counter number 5 of its die to counter 7, with a VERSIONED buffer of 64 KiB at the
start of package 0's Open part. -/
def bound5 (i : Instr) (regs : Tab W64) : State :=
  let b : Buf := { id := 1, kind := 2, tier := 1, size := 0x10000, addr0 := 0x80008000000, addr1 := 0x80008010000, pub := 0 }
  let slot : Slot := { state := .running, img := block 64 [(8, 1, 1)], wkcs := [(5, 0, 7)], bufs := [b] }
  { taken (coreAt i regs run0) with loader := { slots := [(0, slot)] } }

/-- A commit record of one range, of 64 bytes at 0x1000 for a destination. -/
def commitRec (dst : Nat) : List Byte := block 64 [(0, 1, 1), (8, 4, 0x1000), (12, 4, 64), (16, 8, dst)]

/-- TCMT with the record at 0x40. -/
def commitAt (dst : Nat) : State := { bound5 tcmt5 [(1, 3), (2, 0x40)] with sram := cells 0x40 (commitRec dst) }

/-- A request under way. -/
def req (tcmt : Bool) (answer : Option Nat) (copying : Bool) : CtrReq :=
  { id := 1, reel := 0, pc := 0, rd := 4, tcmt := tcmt, ctr := 7, reqId := 9, arg := 3, ranges := [], resent := false, answer := answer,
    copying := copying, copied := false, killed := false }

/-- Core 0 with it. -/
def asked (r : CtrReq) : State := taken { run0 with ctrReqs := [r] }

/-- The instructions that write s0 and that have conditions of their own. -/
theorem witness_HardwiredRegisters_more :
    (runs iss (.ldw iss 0 1 0) (atInstr (.ldw iss 0 1 0) [(1, 0x1000)] run0) ∧
      (wordAddr (runningReel (atInstr (.ldw iss 0 1 0) [(1, 0x1000)] run0) 0) 1 0).2 = true) ∧
    (runs iss (.csrr iss 0 0x8008) (atInstr (.csrr iss 0 0x8008) [] run0) ∧
      (csrRead (bump (atInstr (.csrr iss 0 0x8008) [] run0) (csqBase 0 + 0x48) 1) (ownCsr 0 0x8008)).isSome = true) ∧
    (runs iss (.loop iss 0 1 2) (atInstr (.loop iss 0 1 2) [(1, 3)] run0) ∧ (runningReel (atInstr (.loop iss 0 1 2) [(1, 3)] run0) 0).loops.length < 4) ∧
    (let s := asked { req false (some 5) false with rd := 0 }
     fast s = true ∧ (Machine.core s 0).fenced = false ∧
     (findReq (Machine.core s 0) 0 0 fun e => !e.tcmt && e.answer.isSome && !e.killed).isSome = true) := by decide

theorem witness_CounterInstructions :
    (∀ n ∈ [0, 1, 65535, 65536], runs iss fetch5 (bound5 fetch5 [(1, BitVec.ofNat 64 n), (2, 9)])) ∧
    boundCtr (bound5 fetch5 [(1, 1), (2, 9)]) 0 false 5 = some 7 ∧
    (runs iss tcmt5 (commitAt 0x80008010000) ∧ commitBad (sramReads (commitAt 0x80008010000) 0 0x40 64) = false ∧
      commitRanges (commitRec 0x80008010000) = [(0x1000, 64, 0x80008010000)] ∧
      commitDst (commitAt 0x80008010000) 0 (0x1000, 64, 0x80008010000) = true) ∧
    (runs iss tcmt5 (commitAt 0x80008000000) ∧ commitDst (commitAt 0x80008000000) 0 (0x1000, 64, 0x80008000000) = false) ∧
    (runs iss tcmt5 (bound5 tcmt5 [(1, 3), (2, 0x44)])) ∧
    (∀ r ∈ [req false (some 5) false, req true (some 0) false, req true (some 0x0A) false], fast (asked r) = true ∧
      findReq (Machine.core (asked r) 0) 0 4 (fun r => r.answer.isSome && !r.copying && !r.killed) = some r) ∧
    findReq (Machine.core (asked (req true (some 0) true)) 0) 0 4 (fun r => r.copying) = some (req true (some 0) true) := by decide
theorem test_fetch : after (exec fetch5 (bound5 fetch5 [(1, 65535), (2, 9)])) (fun t =>
    ((Machine.core t 0).ctrReqs.map fun r => (r.ctr, r.reqId, r.arg), (runningReel t 0).pc)) = some ([(7, 9, 65535)], 2) ∧
  after (exec fetch5 (bound5 fetch5 [(1, 65536), (2, 9)])) (fun t => (wbits (cget t (csqBase 0 + 0x10)) 7 0, cget t (csqBase 0 + 0x20))) =
    some (0x0D, 65536) := by decide
theorem test_tcmt : after (exec tcmt5 (commitAt 0x80008010000)) (fun t => (Machine.core t 0).ctrReqs.map fun r => (r.tcmt, r.ctr, r.arg)) =
    some [(true, 7, 3)] ∧
  after (exec tcmt5 (commitAt 0x80008000000)) (fun t => (wbits (cget t (csqBase 0 + 0x10)) 7 0, cget t (csqBase 0 + 0x20))) =
    some (0x10, 0x80008000000) := by decide
theorem test_fetch_answer : after (exec (.fetchAnswer 0 0 4) (asked (req false (some 5) false))) (fun t =>
    ((runningReel t 0).get 4, (Machine.core t 0).ctrReqs)) = some (5, []) := by decide
theorem test_counter_resend : after (exec (.counterResend 0 0 4) (asked (req false none false))) (fun t =>
    (Machine.core t 0).ctrReqs.map (·.resent)) = some [true] := by decide
/-- A duplicate writes 0x0A; a claim out of range traps with cause 0x0E; a finished copy writes 0. -/
theorem test_tcmt_answer : after (exec (.tcmtAnswer 0 0 4) (asked (req true (some 0x0A) false))) (fun t => (runningReel t 0).get 4) = some 0x0A ∧
    after (exec (.tcmtAnswer 0 0 4) (asked (req true (some 0x0E) false))) (fun t => wbits (cget t (csqBase 0 + 0x10)) 7 0) = some 0x0E := by decide
theorem test_tcmt_copy_done : after (exec (.tcmtCopyDone 0 0 4) (asked (req true (some 0) true))) (fun t => (Machine.core t 0).ctrReqs) =
    some [] := by decide

theorem witness_FetchAddOnce : fast (asked (req false none false)) = true ∧
    findReq (Machine.core (asked (req false none false)) 0) 0 4 (fun r => !r.tcmt && (r.answer.isNone || r.resent) && !r.killed) =
      some (req false none false) ∧ (∀ e ∈ ({} : Wkc).window, ¬(e.tag = 7 ∧ e.lcore = 0 ∧ e.reqId = 9)) := by decide
/-- 0xFFFFFFFF + 3 wraps to 2, and the request receives the value before it; a repeat receives it again. -/
theorem test_fetch_add : (let w : Wkc := { value := 0xFFFFFFFF }
    let a := fetchAdd w 7 0 9 3
    (a.1, a.2.value, (fetchAdd a.2 7 0 9 3).1, (fetchAdd a.2 7 0 9 3).2.value)) = (0xFFFFFFFF, 2, 0xFFFFFFFF, 2) := by decide
theorem witness_ClaimOnce : findReq (Machine.core (asked (req true none false)) 0) 0 4 (fun r => r.tcmt && r.answer.isNone && !r.killed) =
    some (req true none false) ∧ findReq (Machine.core (asked (req true (some 0x0A) false)) 0) 0 4
      (fun r => r.tcmt && r.answer.isSome && !r.copying && !r.killed) = some (req true (some 0x0A) false) ∧
    ((65535 + 2 ^ 32 - 0) % 2 ^ 32 < 65536 ∧ ¬((65536 + 2 ^ 32 - 0) % 2 ^ 32 < 65536)) := by decide
theorem test_ledger : after (exec (.ledgerCommit 0 0 4) (asked (req true none false))) (fun t =>
    ((wkcOf t 7).ledger, (Machine.core t 0).ctrReqs.map (·.answer))) = some ([(3, 0)], [some 0]) ∧
  (claim { ledger := [(3, 0)] } 1 3).1 = 0x0A ∧ (claim {} 1 65536).1 = 0x0E ∧ (claim {} 1 65535).1 = 0 := by decide

-- Barriers and trap reports (R131, R132, R235)

/-- An arrival of n = 2 at counter 63 of MU 3 of core 0, whose COUNT is given. -/
def arriving (count : Nat) : State :=
  { taken { run0 with bars := [(255, waited 0 count)] } with
    fab := { arrivals := [{ src := 0, id := 1, csq := some (0, 0), dst := 0, mu := 3, ctr := 63, n := 2 }] } }

theorem witness_BarrierCounters : (∀ n ∈ [65533, 65534], fast (arriving n) = true ∧ (barOf (Machine.core (arriving n) 0) 3 63).count = n) ∧
    ((barOf (Machine.core (taken { run0 with bars := [(255, waited 1 1)] }) 0) 3 63).waiters = [{ who := .reel 0, n := 1 }]) := by decide
/-- 65,533 + 2 = 65,535 is held; 65,534 + 2 is not, and the sender traps with cause 0x0B. -/
theorem test_barrier_arrival : after (exec (.barrierArrival 0) (arriving 65533)) (fun t =>
    ((barOf (Machine.core t 0) 3 63).count, (Machine.core t 0).trapped)) = some (65535, false) ∧
  after (exec (.barrierArrival 0) (arriving 65534)) (fun t =>
    ((barOf (Machine.core t 0) 3 63).count, (Machine.core t 0).trapped, wbits (cget t (csqBase 0 + 0x10)) 7 0)) = some (65535, true, 0x0B) := by
  decide
theorem test_barrier_wait : after (exec (.barrierWaitSatisfy 0 3 63) (taken { run0 with
      reels := [(0, { started := true, hold := .bar 3 63 })], bars := [(255, waited 1 5)] })) (fun t =>
    ((barOf (Machine.core t 0) 3 63).count, (runningReel t 0).hold)) = some (4, .free) := by decide

/-- The logbook entry of take 7's command, a RUN. -/
def entry7 : Entry := { stream := 1, seq := 0, order := 1, cls := 1, state := .running, status := 1, body := block 128 [(0, 1, 1), (1, 1, 1), (2, 1, 1)] }

/-- A state with core 0, its take and its command at the head of stream 1. -/
def commanded (x : Core) (t : Take) (e : Entry) : State :=
  let s := taken x
  { s with intake := { s.intake with takes := [t], log := [e], streams := [(1, { state := .running, next := 1 })] } }

theorem witness_TakeEvents_trap : fast (commanded { run0 with trapped := true } take7 entry7) = true ∧
    (Machine.core (commanded { run0 with trapped := true } take7 entry7) 0).share = .running ∧
    (Machine.core (commanded { run0 with fenced := true } take7 entry7) 0).fenced = true := by decide
theorem test_trap_report : after (exec (.trapReport 0) (commanded { run0 with trapped := true } take7 entry7)) (fun t =>
    (t.intake.takes.map (·.killed), t.intake.log.map fun e => (e.state, e.status), (stream t 1).state)) =
      some ([true], [(.ended, 2)], .halted) := by decide

-- CSRs (R232)

theorem witness_CsrInstructions : runs iss (.csrr iss 4 0x8008) (atInstr (.csrr iss 4 0x8008) [] run0) ∧
    (csrRead (bump (atInstr (.csrr iss 4 0x8008) [] run0) (csqBase 0 + 0x48) 1) (ownCsr 0 0x8008)).isSome = true ∧
    runs iss (.csrw iss 1 0x80F8) (atInstr (.csrw iss 1 0x80F8) [(1, -1)] run0) := by decide
theorem test_csrw : after (exec (.csrw iss 1 0x80F8) (atInstr (.csrw iss 1 0x80F8) [(1, -1)] run0)) (fun t => cget t (coreBase 0 + 0x80F8)) =
    some 0xFFFFFFFF := by decide
/-- CSQ_AL[15] read back. -/
theorem test_csrr : after (exec (.csrr iss 4 0x80F8) { atInstr (.csrr iss 4 0x80F8) [] run0 with csr := [(coreBase 0 + 0x80F8, 77)] })
    (fun t => (runningReel t 0).get 4) = some 77 := by decide

-- The matrix engine (R57 to R84)

/-- A tile of one cell, INT8 by INT8 with K = 1, stored as FP32 at 0x3000: operands at 0x1000 and 0x2000, S = s mod 2^16. PRELOAD and
DRAIN, and more fields. -/
def tile (s mode : Nat) (fs : List (Nat × Nat × Nat)) : List Byte :=
  block 128 ([(0, 1, 0x10), (16, 1, 0x55), (18, 1, mode), (20, 2, s), (28, 4, 1), (32, 4, 1), (44, 1, 1), (45, 1, 1), (52, 4, 0x1000),
    (60, 4, 0x3F800000), (64, 2, 1), (68, 4, 0x2000), (76, 4, 0x3F800000), (80, 2, 1), (84, 4, 0x3000), (88, 2, 1), (92, 4, 0x3F800000)] ++ fs)

theorem test_tile_legal : descBad 0 1 0 false (tile 0 0x10 []) = none ∧ effExtents (fun _ => 0) (tile 0 0x10 []) = [1, 1, 1] ∧
    isSkip (tile 0 0x10 []) [1, 1, 1] = false := by decide +kernel

/-- Core 0 with the tile at the head of its MXE queue. -/
def mxeQueued (b : List Byte) : Core := { run0 with queues := [(0, [qd b [1, 1, 1] false])] }

/-- A pass of the tile. -/
def pass (b : List Byte) (s : Int) (repeats : Nat) (zp : Bool) : MxePass :=
  { desc := qd b [1, 1, 1] false, set := 1, s := s, repeats := repeats, zp := zp, checkOk := true }

/-- Core 0 in that pass, with operands 2 and 3. -/
def passing (p : MxePass) : State :=
  { commanded { run0 with mxe := { pass := some p, activeSet := 1 } } take7 entry7 with sram := [(0x1000, 2), (0x2000, 3)] }

theorem witness_MxePassStarts : engineLive (at0 (mxeQueued (tile 0 0x10 []))) 0 = true ∧
    readyHead (Machine.core (at0 (mxeQueued (tile 0 0x10 []))) 0) 0 = some (qd (tile 0 0x10 []) [1, 1, 1] false) ∧
    (Machine.core (at0 (mxeQueued (tile 0 0x10 []))) 0).mxe.pass = none ∧
    (Machine.core (at0 (mxeQueued (tile 0 0x10 []))) 0).mxe.drains = [] := by decide +kernel
theorem test_mxe_pass_start : after (exec (.mxePassStart 0) (at0 (mxeQueued (tile 0xFFFF 0x10 [])))) (fun t =>
    ((Machine.core t 0).mxe.pass.map fun p => (p.s, p.set), (queueOf (Machine.core t 0) 0).length)) = some (some (-1, 1), 0) := by decide +kernel

theorem witness_MxeRangeFailures :
    (∀ n ∈ [0, 2, 3], let p := pass (tile 0xFFF0 0x10 []) (-16) n false
      takeOfCore (passing p) 0 = some take7 ∧ checked (passing p) 0 p = true ∧ passInRange (passing p) 0 p = false ∧
      engineLive (passing p) 0 = true ∧ mChained p.desc.bytes = false) ∧
    (∀ n ∈ [2, 3], let p := pass (tile 0xFFF0 0x20 []) (-16) 0 false
      let s := passing p
      let s := { s with intake := { s.intake with log := [{ entry7 with raises := [(0, n)] }] } }
      passInRange s 0 p = false ∧ mChained p.desc.bytes = true ∧ raisesOf s 0 0 = n) := by decide +kernel
/-- 6 at S = -16 is 6 * 2^48, out of range: the tile runs again at S = -8; after three repeats the command ends with ACCUM_RANGE. -/
theorem test_range_fail : after (exec (.mxeRangeFail 0) (passing (pass (tile 0xFFF0 0x10 []) (-16) 0 false))) (fun t =>
    (Machine.core t 0).mxe.pass.map fun p => (p.s, p.repeats)) = some (some (-8, 1)) ∧
  after (exec (.mxeRangeFail 0) (passing (pass (tile 0xFFF0 0x10 []) (-16) 3 false))) (fun t => t.intake.log.map (·.status)) = some [0x10] := by
  decide +kernel

/-- A tile with prediction, whose one block is predicted zero, and a B operand that is infinite. -/
def predictedTile : List Byte := tile 0 0x90 [(16, 1, 0x11), (104, 4, 0x4000), (108, 4, 8)]
/-- Core 0 with its operands and its zero map. -/
def missing0 : State :=
  { passing (pass predictedTile 0 0 true) with sram := [(0x1000, 0x80), (0x1001, 0x3F), (0x2000, 0x80), (0x2001, 0x7F), (0x4000, 1)] }
/-- Its pass, with the schedule fixed. -/
def missPass : MxePass := fillPass missing0 0 (pass predictedTile 0 0 true)
/-- Core 0 in that pass. -/
def missing : State := modCore missing0 0 fun x => modMxe x fun m => { m with pass := some missPass }

/-- Core 0 with one drain of mode `m`: cell 0 holds 6 at S = 0. -/
def draining (m : Nat) : State :=
  commanded { run0 with mxe := { drains := [{ desc := qd (tile 0 m []) [1, 1, 1] false, set := 1, s := 0, acc := [6 * 2 ^ 32], spec := [0] }] } }
    take7 entry7

theorem witness_MxePassAndDrainEnd : (missPass.sched = [0] ∧ (Machine.core missing 0).mxe.pass = some missPass ∧ isMiss missing 0 missPass = true) ∧
    (settled (passing (pass (tile 0 0x10 []) 0 0 false)) 0 (pass (tile 0 0x10 []) 0 0 false) = true ∧
      passInRange (passing (pass (tile 0 0x10 []) 0 0 false)) 0 (pass (tile 0 0x10 []) 0 0 false) = true) ∧
    (∀ m ∈ [0x00, 0x10, 0x20], engineLive (draining m) 0 = true ∧ ((Machine.core (draining m) 0).mxe.drains.map fun d => mDrain d.desc.bytes) =
      [m / 16]) ∧ freeTb (Machine.core (draining 0) 0).vce = some 0 ∧
    freeTb { tbState := [(0, 1), (1, 1), (2, 1), (3, 1)] } = none := by decide +kernel
theorem test_zp_miss : after (exec (.zpMiss 0) missing) (fun t => (Machine.core t 0).mxe.pass.map fun p => (p.zp, p.s)) = some (some (false, 0)) := by
  decide +kernel
/-- 2 * 3 = 6 stands in cell (0, 0) as 6 * 2^32 at S = 0. -/
theorem test_mxe_cell : cellAcc (passing (pass (tile 0 0x10 []) 0 0 false)) 0 (pass (tile 0 0x10 []) 0 0 false) (0, 0) = (6 * 2 ^ 32, 0) := by
  decide +kernel
theorem test_mxe_pass_end : after (exec (.mxePassEnd 0) (passing (pass (tile 0 0x10 []) 0 0 false))) (fun t =>
    ((Machine.core t 0).mxe.pass.isSome, (Machine.core t 0).mxe.drains.length)) = some (false, 1) := by decide +kernel
/-- 6.0 is the FP32 code 0x40C00000. -/
theorem test_mxe_drain_store : after (exec (.mxeDrainEnd 0) (draining 0x10)) (fun t =>
    (leNat (sramReads t 0 0x3000 4), (Machine.core t 0).mxe.drains.length)) = some (0x40C00000, 0) := by decide +kernel

-- Number formats (R27 to R56, R62 to R69)

theorem witness_OrderFree : (47 ≤ 47 ∧ [(0 : Int)].length ≤ 2 ^ 47 ∧ inRange 47 0 = true) ∧
    ([2 ^ 46 - 1, -(2 ^ 46 - 1)] : List Int).length ≤ 2 ^ 1 ∧ inRange 1 (2 ^ 46 - 1) = true ∧ inRange 1 (-(2 ^ 46 - 1)) = true ∧
    inRange 1 (2 ^ 46) = false := by decide +kernel
/-- 5/2 lies halfway and goes to 2, 7/2 to 4, 8/3 to 3. -/
theorem witness_NearestEven : rneDiv 5 2 = 2 ∧ rneDiv 7 2 = 4 ∧ rneDiv 8 3 = 3 ∧ (0 < 2) := by decide +kernel
/-- 1.0 and the largest finite codes; E4M3 has a NaN at 0x7F and no infinity. -/
theorem witness_FormatRoundTrip : fp32 ∈ [fp32, fp64, bf16, fp16, e4m3, e5m2, w24, k4] ∧ fp32.value 0x3F800000 ≠ .nan ∧
    fp32.encode false (fp32.value 0x3F800000) = 0x3F800000 ∧ fp16.encode false (fp16.value 0x7BFF) = 0x7BFF ∧ e4m3.value 0x7F = .nan ∧
    e4m3.encode true (e4m3.value 0xFE) = 0xFE := by decide +kernel

-- The vector engine (R85 to R109)

/-- A walk over two elements: IN0 at 0x1000 to the output at 0x2000, FP32; and more fields. -/
def walk2 (fs : List (Nat × Nat × Nat)) : List Byte :=
  block 128 ([(0, 1, 0x11), (16, 1, 1), (20, 4, 2), (52, 4, 0x1000), (60, 4, 0x3F800000), (64, 1, 0x80), (100, 4, 0x2000),
    (108, 4, 0x3F800000), (112, 1, 0x80)] ++ fs)

/-- A stage program whose stage 0 reads the tile buffer; one whose stage 0 adds IN0 to X. -/
def progT : List Byte := block 128 [(0, 1, 0x31), (17, 2, 6)]
/-- ADD of X and IN0. -/
def progAdd : List Byte := block 128 [(0, 1, 0x31), (16, 1, 1), (17, 2, 8)]

theorem test_walk_legal : descBad 0 1 0 false (walk2 []) = none ∧ descBad 0 1 0 false progT = none ∧ descBad 0 1 0 false progAdd = none := by
  decide +kernel

/-- Core 0 with a walk at the head of its VCE queue. -/
def vceQueued (b : List Byte) (v : Vce) : State := taken { run0 with queues := [(1, [qd b [2] false])], vce := v }

/-- Core 0 in the walk at a beat; the inputs are 1.0 and 2.0. -/
def walking (prog : List Byte) (beat : Nat) : State :=
  { taken { run0 with vce := { walks := [{ desc := qd (walk2 []) [2] false, prog := prog, beat := beat, tb := none, scratch := [] }] } } with
    sram := cells 0x1000 (leBytes 4 0x3F800000 ++ leBytes 4 0x40000000) }

/-- The reel 0 of the VCE under a program. -/
def confT : Vce := { reels := [(0, { conf := some progT })] }

theorem witness_VceWalks :
    (engineLive (vceQueued (walk2 []) {}) 0 = true ∧ readyHead (Machine.core (vceQueued (walk2 []) {}) 0) 1 = some (qd (walk2 []) [2] false) ∧
      dKind (walk2 []) = 0 ∧ scratchOf (walk2 []) = [] ∧ tapOf (walk2 []) = false ∧ namesT (zeros 128) = false ∧
      ∀ v ∈ ([{}, confT] : List Vce), (vceReel (Machine.core (vceQueued (walk2 []) v) 0) 0).shadow = none) ∧
    namesT progT = true ∧ ((Machine.core (vceQueued (walk2 []) confT) 0).vce.epi = []) ∧
    ((Machine.core (vceQueued (walk2 []) { confT with epi := [some 0] }) 0).vce.epi = [some 0]) ∧
    ((Machine.core (vceQueued (walk2 []) { confT with epi := [none] }) 0).vce.epi = [none]) ∧
    (∀ k ∈ [0, 1], (Machine.core (walking progAdd k) 0).vce.walks.map (·.beat) = [k] ∧ beatCount (qd (walk2 []) [2] false) = 1) := by
  decide +kernel
theorem test_vwalk_start : after (exec (.vwalkStart 0) (vceQueued (walk2 []) {})) (fun t =>
    ((Machine.core t 0).vce.walks.map (·.beat), (queueOf (Machine.core t 0) 1).length)) = some ([0], 0) ∧
  after (exec (.vwalkStart 0) (vceQueued (walk2 []) { confT with epi := [some 2] })) (fun t => (Machine.core t 0).vce.walks.map (·.tb)) =
    some [some 2] := by decide +kernel
/-- 1.0 + 1.0 = 2.0 and 2.0 + 2.0 = 4.0. -/
theorem test_vce_beat : after (exec (.vceBeatIssue 0) (walking progAdd 0)) (fun t =>
    (leNat (sramReads t 0 0x2000 4), leNat (sramReads t 0 0x2004 4), (Machine.core t 0).vce.walks.map (·.beat))) =
      some (0x40000000, 0x40800000, [1]) := by decide +kernel
theorem test_vwalk_end : after (exec (.vwalkEnd 0) (walking progAdd 1)) (fun t => (Machine.core t 0).vce.walks.length) = some 0 := by
  decide +kernel

/-- A CLOAD of two words from 0x1000 into stage 3 at word 8. -/
def cload (store : Nat) : List Byte :=
  block 64 [(0, 1, 0x41), (16, 1, 3), (17, 1, store), (18, 2, 8), (20, 4, 2), (24, 4, 0x1000), (32, 4, 0x3F800000), (36, 1, 0x80)]

/-- Core 0 with it queued. -/
def cacheQueued (store : Nat) : State :=
  { taken { run0 with queues := [(1, [qd (cload store) [] false])], vce := { caches := [(8192 * 3 + 8, 0x40400000)] } } with
    sram := cells 0x1000 (leBytes 4 0x3F800000 ++ leBytes 4 0x40000000) }

theorem witness_ReelConfigurations :
    (∀ v ∈ ([{}, confT, { reels := [(0, { conf := some progT, shadow := some (qd progT [] false) })] }] : List Vce),
      engineLive (vceQueued progT v) 0 = true ∧ readyHead (Machine.core (vceQueued progT v) 0) 1 = some (qd progT [2] false) ∧ dKind progT = 1) ∧
    (∀ k ∈ [0, 1], descBad 0 1 0 false (cload k) = none ∧ dKind (cload k) = 2 ∧
      readyHead (Machine.core (cacheQueued k) 0) 1 = some (qd (cload k) [] false)) ∧
    (vceReel (Machine.core (taken { run0 with vce := { reels := [(7, { conf := some progT, shadow := some (qd progT [] false) })] } }) 0) 7).shadow =
      some (qd progT [] false) := by decide +kernel
theorem test_vprog : after (exec (.vprogApply 0) (vceQueued progT {})) (fun t => (vceReel (Machine.core t 0) 0).conf) = some (some progT) ∧
    after (exec (.vprogApply 0) (vceQueued progT confT)) (fun t => (vceReel (Machine.core t 0) 0).shadow.isSome) = some true := by decide +kernel
theorem test_cload : after (exec (.vcache 0) (cacheQueued 0)) (fun t =>
    (cacheGet (Machine.core t 0).vce.caches 3 8, cacheGet (Machine.core t 0).vce.caches 3 9)) = some (0x3F800000, 0x40000000) := by decide +kernel
theorem test_cstore : after (exec (.vcache 0) (cacheQueued 1)) (fun t => (leNat (sramReads t 0 0x1000 4), leNat (sramReads t 0 0x1004 4))) =
    some (0x40400000, 0) := by decide +kernel
/-- The shadow program takes effect with the other generation. -/
theorem test_gen_switch : after (exec (.reelGenSwitch 0 0 7) (taken { run0 with
      vce := { reels := [(7, { conf := some progT, shadow := some (qd progAdd [] false), marked := true })] } })) (fun t =>
    ((vceReel (Machine.core t 0) 7).conf, (vceReel (Machine.core t 0) 7).gen, (vceReel (Machine.core t 0) 7).shadow.isNone)) =
      some (some progAdd, true, true) := by decide +kernel
theorem test_reel_switch : after (exec (.reelSwitch 0 0) (taken { run0 with
      code := [0x8C000000], reels := [(0, { started := true }), (5, { started := true })] })) (fun t => (Machine.core t 0).running) = some 5 := by
  decide +kernel

-- Skip entries (R247)

theorem witness_SkippedDescriptors :
    (∀ k ∈ [0, 1, 4], let s := taken { run0 with queues := [(k, [qd (tile 0 0 []) [] true])], vce := { epi := [none] } }
      engineLive s 0 = true ∧ readyHead (Machine.core s 0) k = some (qd (tile 0 0 []) [] true) ∧ (Machine.core s 0).vce.epi ≠ [] ∧
      (vceReel (Machine.core s 0) (dReel (tile 0 0 []))).shadow = none) ∧
    queueOfEng 4 0 = 4 ∧ queueOfEng 3 3 = 11 ∧ queueOfEng 6 3 = 19 := by decide +kernel
/-- A skipped EPILOGUE tile puts a skip entry in the epilogue queue. -/
theorem test_skip_tile : after (exec (.descSkipRun 0 0 0) (taken { run0 with queues := [(0, [qd (tile 0 0 []) [] true])] })) (fun t =>
    ((Machine.core t 0).vce.epi, (queueOf (Machine.core t 0) 0).length)) = some ([none], 0) := by decide +kernel

-- The reduction engine (R110 to R117)

/-- A SUM of two FP32 elements at 0x1000, axis 0, as binary32, to 0x3000. -/
def red2 (fs : List (Nat × Nat × Nat)) : List Byte :=
  block 128 ([(0, 1, 0x12), (19, 1, 1), (20, 4, 2), (52, 4, 0x1000), (60, 4, 0x3F800000), (64, 1, 0x80), (72, 4, 0x3000)] ++ fs)

/-- Core 0 with it queued or running. -/
def reducing (b : List Byte) (r : Option RedRun) : State :=
  { taken { run0 with queues := [(2, [qd b [2] false])], red := { run := r } } with
    sram := cells 0x1000 (leBytes 4 0x3F800000 ++ leBytes 4 0x40000000) }

/-- A run whose elements are 1.0 and 2.0. -/
def red3 : RedRun :=
  { desc := qd (red2 []) [2] false, walk := some (red2 []), closed := true,
    beats := [[{ lane := 0, out := 0, pos := 0, v := 0x3F800000 }, { lane := 1, out := 0, pos := 1, v := 0x40000000 }]] }

theorem witness_Reductions : (descBad 0 1 0 false (red2 []) = none ∧ tapOf (red2 []) = false ∧ rMerge (red2 []) = false ∧
      (readyHead (Machine.core (reducing (red2 []) none) 0) 2).isSome = true) ∧
    tapOf (red2 [(18, 1, 2)]) = true ∧ rMerge (red2 [(16, 1, 0x40)]) = true ∧
    ((Machine.core (reducing (red2 []) (some red3)) 0).red.run = some red3 ∧ engineLive (reducing (red2 []) (some red3)) 0 = true) := by
  decide +kernel
theorem test_reduce : after (exec (.redReduce 0) (reducing (red2 []) none)) (fun t => (Machine.core t 0).red.run.map fun r => (r.closed, r.beats.length)) =
    some (some (true, 1)) := by decide +kernel
/-- 1.0 + 2.0 = 3.0 is 0x40400000. -/
theorem test_red_result : after (exec (.redResult 0) (reducing (red2 []) (some red3))) (fun t =>
    (leNat (sramReads t 0 0x3000 4), (Machine.core t 0).red.run.isNone)) = some (0x40400000, true) := by decide +kernel

-- Address generators and transfers

/-- An affine program of two rows of 64 bytes from package 0 into BUF at 0x1000. -/
def ag2 : List Byte :=
  block 128 [(0, 1, 0x13), (17, 1, 2), (18, 1, 6), (20, 6, 0x80008000000), (28, 4, 1), (32, 4, 2), (52, 4, 64), (56, 4, 64), (92, 4, 0x80001000)]

/-- Its run. -/
def agRun : AgRun := { desc := qd ag2 [1, 2] false, mu := 0, ag := 0, sent := [2], got := [], done := 1, deferred := false }

/-- Core 0 with it queued; running with a request out. -/
def agQueued (r : GenReel) : State := taken { run0 with queues := [(8, [qd ag2 [1, 2] false])], agReels := [(0, r)] }
/-- Running. -/
def agRunning : State :=
  { taken { run0 with ags := [agRun], reqs := [{ xfr := false, id := 1, row := 1, off := 0, len := 64, no := 2 }] } with
    mem := [(0x80008000000, 1), (0x80008000040, 9)], memctl := [(16, { state := .ready })] }

/-- The LOAD of core 0's window: 64 bytes to 0x100; fields may be replaced. -/
def load0 (fs : List (Nat × Nat × Nat)) : List Byte :=
  block 64 ([(0, 1, 4), (24, 8, 0x80008000000), (32, 8, 0x100000100), (40, 4, 64), (44, 4, 1)] ++ fs)

/-- The request of its one piece. -/
def piece0 : Req := { xfr := true, id := 1, row := 0, off := 0, len := 64, no := 2 }

/-- A transfer under way whose one request is out. -/
def xferring (b : List Byte) (r : XfrRun → XfrRun) : State :=
  { taken { run0 with
      xfrs := [r { xfrNew (qd b [] false) false with row := 1 }], reqs := [piece0] } with
    mem := [(0x80008000000, 7)], memctl := [(16, { state := .ready })] }

theorem witness_MemoryStreams :
    (descBad 0 1 0 false ag2 = none ∧ (∀ r ∈ ([{}, { conf := some ag2 }] : List GenReel), engineLive (agQueued r) 0 = true ∧
      (readyHead (Machine.core (agQueued r) 0) 8).isSome = true) ∧ threadsFree (Machine.core (agQueued {}) 0) 0 ag2 = true) ∧
    ((Machine.core agRunning 0).ags.find? (fun g => g.desc.id = 1)) = some agRun ∧
    (∀ b ∈ [load0 [], load0 [(16, 1, 0x10)], load0 [(16, 1, 0x11)]], (findXfr (Machine.core (xferring b id) 0) 1).isSome = true ∧ xDir b < 2) ∧
    ((movePiece (xferring (load0 []) id) 0 (load0 []) piece0).toOption.map fun t =>
      devByte t 0x100000100) = some 7 := by decide +kernel
theorem test_ag_program : after (exec (.agProgram 0 0) (agQueued {})) (fun t =>
    ((Machine.core t 0).ags.length, (Machine.core t 0).reqs.map fun r => (r.row, r.len))) = some (1, [(0, 64), (1, 64)]) := by decide +kernel
/-- Row 1 lands 64 bytes into BUF; a LOAD's piece lands at its destination and its transfer is moved. -/
theorem test_request_return : after (exec (.requestReturn 0 0) agRunning) (fun t => (leNat (sramReads t 0 0x1040 1), (Machine.core t 0).reqs.length)) =
    some (9, 0) ∧
  after (exec (.requestReturn 0 0) (xferring (load0 []) id)) (fun t => (leNat (sramReads t 0 0x100 1), (Machine.core t 0).xfrs.map (·.moved))) =
    some (7, [true]) := by decide +kernel

/-- A queue pair whose fields have their defaults. -/
def qpState (st : QpState) : Qp := { state := st, port := 0, conf := block 64 [(31, 1, 0x1F)] }

/-- Core 0 with a transfer queued and queue pair 3 in a state. -/
def xfrQueued (b : List Byte) (q : QpState) : State :=
  { taken { run0 with queues := [(4, [qd b [] false])] } with net := { qps := [(3, qpState q)] } }

/-- A remote write of 64 bytes to key 5 of queue pair 3, landing 2; a remote read; a seal. -/
def rwrite3 : List Byte := block 64 [(0, 1, 4), (16, 1, 2), (18, 2, 3), (20, 4, 5), (24, 8, 0x100000100), (40, 4, 64), (44, 4, 1), (56, 4, 2)]
/-- RREAD. -/
def rread3 (vers : Nat) : List Byte := block 64 [(0, 1, 4), (16, 1, 3 + vers), (18, 2, 3), (20, 4, 5), (32, 8, 0x100000100), (40, 4, 64), (44, 4, 1)]
/-- SEAL. -/
def seal3 : List Byte := block 64 [(0, 1, 4), (16, 1, 4), (18, 2, 3), (20, 4, 5), (56, 4, 2)]

/-- A landing 2 of take 7's command at queue pair 3. -/
def landing2 : Landing := { stream := 1, seq := 0, landing := 2, peer := 3, key := 5, tag := 7, epoch := 0, sealing := false, engine := false }

/-- With the landing open. -/
def landed (b : List Byte) : State :=
  let s := xfrQueued b .ready
  { s with net := { s.net with landings := [landing2] } }

theorem witness_TransfersStart :
    (∀ b ∈ [load0 [], rwrite3, rread3 0, rread3 0x40, seal3], descBad 0 1 0 false b = none ∧
      readyHead (Machine.core (xfrQueued b .ready) 0) 4 = some (qd b [] false) ∧ takeOfCore (xfrQueued b .ready) 0 = some take7 ∧
      engineLive (xfrQueued b .ready) 0 = true) ∧
    (∀ b ∈ [load0 [], rwrite3, rread3 0, rread3 0x40], kindFault (Machine.core (xfrQueued b .ready) 0) b = none) ∧
    qpLive (xfrQueued rwrite3 .ready) 3 = true ∧ qpLive (xfrQueued rwrite3 .error) 3 = false ∧ landingNo (xfrQueued rwrite3 .error) take7 2 = none ∧
    landingNo (xfrQueued rwrite3 .ready) take7 2 = none ∧ landingRoom (xfrQueued rwrite3 .ready) 3 = true ∧
    keyBusy (xfrQueued rwrite3 .ready) 3 5 = false ∧ landingNo (landed rwrite3) take7 2 = some landing2 ∧
    kindFault (Machine.core (xfrQueued (load0 [(32, 8, 0x80008000000)]) .ready) 0) (load0 [(32, 8, 0x80008000000)]) =
      some (0x80008000000, .unmapped) := by decide +kernel
/-- A load posts its one piece; a first write opens its landing with a control record and sends its data. -/
theorem test_xfr_start : after (exec (.xfrStart 0) (xfrQueued (load0 []) .ready)) (fun t => (Machine.core t 0).reqs.map fun r => (r.off, r.len)) =
    some [(0, 64)] ∧
  after (exec (.xfrStart 0) (xfrQueued rwrite3 .ready)) (fun t => (t.net.landings.map (·.landing), (qp t 3).sendq.map fun m => m.data.length)) =
    some ([2], [64, 64]) := by decide +kernel
theorem test_xfr_seal : after (exec (.xfrSeal 0) (landed seal3)) (fun t => (t.net.landings.map (·.sealing), (qp t 3).sendq.map fun m => fld m.data 0 1)) =
    some ([true], [2]) := by decide +kernel

/-- A moved versioned read, not yet read a second time. -/
def versioned : State :=
  let s := xferring (rread3 0x40) fun r => { r with moved := true, consumed := true }
  { s with net := { qps := [(3, qpState .ready)] } }

/-- A guard entry of a load under way, found stale. -/
def staleRun : State :=
  let s := xferring (load0 []) id
  let g : Guard := { desc := qd (load0 []) [] false, lo := 0x80008000000, len := 64, mu := 3, ctr := 63, n := 1, home := 3, bar := 0, arrived := false, stale := true }
  modCore s 0 fun x => { x with guards := [g] }

theorem witness_TransfersEnd :
    ((Machine.core (xferring (load0 []) fun r => { r with moved := true }) 0).xfrs.map fun r => (r.moved, xVers r.desc.bytes)) = [(true, false)] ∧
    ((Machine.core versioned 0).xfrs.map fun r => (r.moved, r.consumed, r.vers2, xVers r.desc.bytes)) = [(true, true, none, true)] ∧
    qpLive versioned 3 = true ∧ ((qp versioned 3).sendq ++ (qp versioned 3).held) = [] ∧
    (((Machine.core staleRun 0).guards.filter fun e => e.home = 3 ∧ e.len ≠ 0)[0]?.map (·.stale)) = some true ∧
    (findXfr (Machine.core staleRun 0) 1).map (·.moved) = some false := by decide +kernel
theorem test_xfr_complete : after (exec (.xfrComplete 0 0) (xferring (load0 []) fun r => { r with moved := true })) (fun t => (Machine.core t 0).xfrs.length) =
    some 0 := by decide +kernel
theorem test_version_reread : after (exec (.versionReread 0 0) versioned) (fun t => (qp t 3).sendq.map (·.kind)) =
    some [.readReq 0 1 versRow 1] := by decide +kernel
theorem test_stale : after (exec (.staleNotice 0 3 0) staleRun) (fun t => ((findXfr (Machine.core t 0) 1).map (·.row), cget t (muBase 0 3 + 0x30),
    (Machine.core t 0).guards.map (·.stale))) = some (some 1, 1, [false]) := by decide +kernel

-- Witnesses of further clauses

/-- Core 0 with an AG program on MU 0 that a stream of its own names. -/
def fed (b : List Byte) (q : Nat) (read : Bool) : State :=
  taken { run0 with queues := [(q, [qd b [2] false])],
                    ags := [{ agRun with sent := [0], done := 0, got := if read then [(0, zeros 64), (1, zeros 64)] else [] }] }

theorem witness_VceWalks_more :
    (progsReady (Machine.core (walking progAdd 0) 0) [strm (walk2 []) 52, strm (walk2 []) 68, strm (walk2 []) 84, strm (walk2 []) 100] = true ∧
      (∀ i ∈ walkIns (walk2 []), dataReady (Machine.core (walking progAdd 0) 0) i [0, 1] = true) ∧
      ∀ w ∈ (Machine.core (walking progAdd 0) 0).vce.walks, rowPending (Machine.core (walking progAdd 0) 0) w (beatPos w.desc 0) = false ∧
        beatWaits (Machine.core (walking progAdd 0) 0) w = 0) ∧
    (let s := vceQueued (walk2 [(18, 1, 0x10)]) {}
     tapOf (walk2 [(18, 1, 0x10)]) = false ∧ (readyHead (Machine.core s 0) 1).isSome = true) ∧
    (∀ w ∈ (Machine.core (walking progAdd 0) 0).vce.walks, dReel w.desc.bytes = dReel (walk2 [])) := by decide +kernel

/-- A reel of AG 0 of MU 0 whose old program has ended with or without its markers. -/
def agSwitching (marked : Bool) : State :=
  taken { run0 with agReels := [(agReelKey 0 0 0, { conf := some ag2, shadow := some (qd ag2 [1, 2] false), marked := marked })] }

/-- Core 0 whose VCE has a walk of reel 5, and AG 0 of MU 0 a program of reel 3. -/
def otherReels : State :=
  taken { run0 with vce := { walks := [{ desc := qd (walk2 [(1, 1, 5)]) [2] false, prog := progAdd, beat := 0, tb := none, scratch := [] }] },
                    ags := [{ agRun with desc := qd (putBytes ag2 1 [3]) [1, 2] false, sent := [1] }] }

theorem witness_ReelConfigurations_more :
    (∀ m ∈ [true, false], let r : GenReel := tget {} (Machine.core (agSwitching m) 0).agReels (agReelKey 0 0 0)
      r.shadow = some (qd ag2 [1, 2] false) ∧ r.drained = m ∧ agReelDone (Machine.core (agSwitching m) 0) 0 0 0 = true ∧
      threadsFree (Machine.core (agSwitching m) 0) 0 ag2 = true) ∧
    (dReel (walk2 [(1, 1, 5)]) = 5 ∧ dReel (putBytes ag2 1 [3]) = 3 ∧
      (((List.range 7).map fun i => (tget 0 (Machine.core otherReels 0).unitReel 1 + 1 + i) % 8).find? (unitInput otherReels 0 1)) = some 5 ∧
      (((List.range 7).map fun i => (tget 0 (Machine.core otherReels 0).unitReel 2 + 1 + i) % 8).find? (unitInput otherReels 0 2)) = some 3) ∧
    (∀ k ∈ [0, 1], (Machine.core (cacheQueued k) 0).vce.walks = [] ∧ progsReady (Machine.core (cacheQueued k) 0) [strm (cload k) 24] = true ∧
      dataReady (Machine.core (cacheQueued k) 0) (strm (cload k) 24) [0, 1] = true) ∧
    fld (cload 1) 17 1 ≠ 0 ∧
    (let t := strm (putBytes (cload 0) 24 [0, 0, 0, 0x80]) 24
     t.named = true ∧ dataReady (Machine.core (fed (putBytes (cload 0) 24 [0, 0, 0, 0x80]) 1 false) 0) t [0, 1] = false ∧
     dataReady (Machine.core (fed (putBytes (cload 0) 24 [0, 0, 0, 0x80]) 1 true) 0) t [0, 1] = true) := by decide +kernel
theorem test_ag_gen_switch : after (exec (.reelGenSwitch 0 1 0) (agSwitching true)) (fun t =>
    ((Machine.core t 0).ags.length, (tget {} (Machine.core t 0).agReels (agReelKey 0 0 0)).gen)) = some (1, true) ∧
  after (exec (.reelGenSwitch 0 1 0) (agSwitching false)) (fun t => (Machine.core t 0).ags.length) = some 0 := by decide +kernel

theorem witness_SkippedDescriptors_more :
    (∀ k ∈ [2, 8, 9, 10, 11, 4, 5, 16, 17, 18, 19], let s := taken { run0 with queues := [(k, [qd ag2 [0, 2] true])] }
      engineLive s 0 = true ∧ readyHead (Machine.core s 0) k = some (qd ag2 [0, 2] true) ∧ (Machine.core s 0).red.run = none ∧
      threadsFree (Machine.core s 0) (k - 8) ag2 = true) ∧
    (let s := taken { run0 with queues := [(0, [qd (tile 0 0 []) [] true])], mxe := { pass := some (pass (tile 0 0x10 []) 0 0 false) } }
     (readyHead (Machine.core s 0) 0).isSome = true ∧ (Machine.core s 0).mxe.pass ≠ none) := by decide +kernel

theorem witness_Reductions_more :
    redInput (reducing (red2 []) none) 0 (qd (red2 []) [2] false) = true ∧
    (let b := red2 [(52, 4, 0x80000000)]
     (strm b 52).named = true ∧ progsReady (Machine.core (fed b 2 false) 0) [strm b 52] = true ∧
     redInput (fed b 2 false) 0 (qd b [2] false) = false ∧ redInput (fed b 2 true) 0 (qd b [2] false) = true) ∧
    (let b := red2 [(18, 1, 2)]
     (Machine.core (reducing b none) 0).red.run = none ∧ tapOf b = true ∧ (readyHead (Machine.core (reducing b none) 0) 2).isSome = true) := by
  decide +kernel

/-- A guarded load; a coded load and store of one frame of 64 bytes. -/
def gload : List Byte := load0 [(16, 1, 0x20)]
/-- Coded, in a direction. -/
def coded (dir : Nat) : List Byte :=
  if dir = 0 then load0 [(16, 1, 0x10)] else load0 [(16, 1, 0x11), (24, 8, 0x100000100), (32, 8, 0x80008000000)]

theorem witness_MemoryStreams_more :
    (Machine.core (agQueued { conf := some ag2 }) 0).agReels = [(0, { conf := some ag2 })] ∧
    (xCodec (coded 1) = true ∧ frameIn (Machine.core (xferring (coded 1) fun r => { r with row := 1 }) 0)
      { xfrNew (qd (coded 1) [] false) false with row := 1 } piece0 = true) ∧
    frameIn (Machine.core (modCore (xferring (coded 0) id) 0 fun x => { x with reqs := [piece0, { piece0 with no := 3 }] }) 0)
      { xfrNew (qd (coded 0) [] false) false with row := 1 } piece0 = false ∧
    (xGuard gload = true ∧ (movePiece (xferring gload id) 0 gload piece0).isOk = true) := by decide +kernel

/-- A coded store of 64 zero bytes has its source and its slot. -/
theorem witness_storeFrame : ∃ t, storeFrame (xferring (coded 1) id) (coded 1) (frameReq (coded 1) piece0) = .ok t := by
  have h (s : State) (b : List Byte) (q : Req) (d : List Byte) (h1 : readMem s (xSrc b + q.off) q.len = (.done, d))
      (h2 : writeTest s (xDst b + (xAux b + q.off / 65536) * frameSlot) (encodeFrame (bits (fld b 17 1) 3 0)
        ((codecSize (bits (fld b 17 1) 3 0)).getD 4) (xAux b + q.off / 65536) d).length = .done) : ∃ t, storeFrame s b q = .ok t := by
    simp only [storeFrame, h1, writeMem, h2]; exact ⟨_, rfl⟩
  exact h _ _ _ (zeros 64) (by decide +kernel) (by decide +kernel)

/-- The frame of 64 zero bytes stands in its slot. -/
def framed : State := { xferring (coded 0) id with mem := cells 0x80008000000 (encodeFrame 0 4 0 (zeros 64)) }

theorem witness_loadFrame : (loadFrame framed (coded 0) (frameReq (coded 0) piece0)).isOk = true := by decide +kernel

/-- Take 7 with landing 2 bound. -/
def binding (b : List Byte) (key : Nat) (done : Bool) (q : QpState) : State :=
  let s := xfrQueued b q
  { s with intake := { s.intake with takes := [{ take7 with bound := [{ landing := 2, peer := 3, key := key, done := done }] }] } }

theorem witness_TransfersStart_more :
    (∀ b ∈ [rwrite3, seal3], let s := binding b 6 false .ready
      ∃ k ∈ s.intake.takes, takeOfCore s 0 = some k ∧ otherLanding k b = true ∧ (readyHead (Machine.core s 0) 4).isSome = true) ∧
    (let s := xfrQueued (rread3 0) .error
     (readyHead (Machine.core s 0) 4).isSome = true ∧ xDir (rread3 0) = 3 ∧ qpLive s 3 = false) ∧
    (xGuard gload = true ∧ xDir gload = 0 ∧ descBad 0 1 0 false gload = none ∧ (readyHead (Machine.core (xfrQueued gload .ready) 0) 4).isSome = true) ∧
    (∀ d ∈ [true, false], let s := binding seal3 5 d .error
      ∃ k ∈ s.intake.takes, takeOfCore s 0 = some k ∧ otherLanding k seal3 = false ∧ landingNo s k 2 = none ∧
        (boundTo k 2).map (·.done) = some d ∧ qpLive s 3 = false) ∧
    (boundTo take7 2 = none ∧ landingNo (xfrQueued seal3 .ready) take7 2 = none) ∧
    (∀ m ∈ [true, false], let s := xfrQueued seal3 (if m then .ready else .error)
      landingNo { s with net := { s.net with landings := [{ landing2 with sealing := m }] } } take7 2 = some { landing2 with sealing := m }) := by
  decide +kernel
theorem test_xfr_denied : after (exec (.xfrStart 0) (binding rwrite3 6 false .ready)) (fun t => t.intake.takes.map (·.killed)) = some [true] := by
  decide +kernel

/-- The stale load's data had come. -/
def staleIn : State :=
  modCore staleRun 0 fun x => { x with xfrs := x.xfrs.map fun r => { r with moved := true } }

theorem witness_TransfersEnd_more :
    ((findXfr (Machine.core staleIn 0) 1).map (·.moved) = some true ∧
      (Machine.core staleIn 0).guards.all (fun e => (reread (bump staleIn (muBase 0 3 + 0x30) 1) 0 e).isOk && e.stale) = true) ∧
    (let s := { versioned with net := { qps := [(3, qpState .error)] } }
     qpLive s 3 = false ∧ ((Machine.core s 0).xfrs.map fun r => (r.moved, r.consumed, r.vers2, xVers r.desc.bytes)) = [(true, true, none, true)] ∧
       (qp s 3).sendq ++ (qp s 3).held = []) := by decide +kernel
theorem test_stale_in : after (exec (.staleNotice 0 3 0) staleIn) (fun t => (leNat (sramReads t 0 0x100 1), t.fab.arrivals.length)) =
    some (7, 1) := by decide +kernel

-- The crossing fabric (R134 to R151)

/-- An arrival on its way from core 0 to core 1, at a router. -/
def flit (r : Nat) : Flit := { at_ := r, dst := 1, arrival := { src := 0, id := 1, csq := none, dst := 1, mu := 0, ctr := 5, n := 1 } }

/-- An image of one core with one section: type, count and records at 128. -/
def image (ty n : Nat) (recs : List (Nat × Nat × Nat)) : List Byte :=
  block 256 ([(6, 1, 1), (7, 1, 1), (14, 2, 1), (64, 2, ty), (68, 4, 128), (72, 4, 128), (76, 4, n)] ++ recs)

/-- Core 0 in slot 0 under an image. -/
def imaged (img : List Byte) (x : Core) : State :=
  { taken x with loader := { slots := [(0, { state := .running, row := 0, col := 0, img := img })] } }

/-- Circuit 2 goes from MU 0 of core 0 to its MU 1, and has a slot. -/
def routed : State :=
  { imaged (image 0x09 1 [(128, 2, 2), (130, 1, 0), (131, 1, 0), (132, 1, 0), (133, 1, 1)]) run0 with
    fab := { bankA := [(0, 3)] }, sram := [(0x40, 9)] }

theorem witness_FabricMoves :
    (∀ r ∈ [0, 1], fast { up with fab := { setA := true, flits := [flit r] } } = true ∧ ({ up with fab := { setA := true, flits := [flit r] } } : State).fab.flits[0]? =
      some (flit r)) ∧ (nextHop { up with fab := { setA := true, flits := [flit 0] } } true 0 1).isSome = true ∧
    (routeOf (slotOf routed 0).img 2).isSome = true ∧ coreAtIndex routed 0 0 = some 0 ∧ engineLive routed 0 = true ∧ hasSlot routed 0 2 = true ∧
    tget [] routed.fab.circ 2 = [] ∧ ((routeOf (slotOf routed 0).img 2).map (receiversOf (slotOf routed 0).img)) = some [(0, 1)] ∧
    (deliverItem { routed with fab := { routed.fab with circ := tset [] routed.fab.circ 2 [] } } 0 1 2 0
      { data := sramReads routed 0 0x40 64, reel := 0, gen := false, mark := false }).isSome = true := by decide +kernel
theorem test_packet_flit : after (exec (.packetFlit 0) { up with fab := { setA := true, flits := [flit 1] } }) (fun t => (t.fab.flits.length, t.fab.arrivals.length)) =
    some (0, 1) ∧
  after (exec (.packetFlit 0) { up with fab := { setA := true, flits := [flit 0] } }) (fun t => t.fab.flits.map (·.at_)) = some [1] := by decide +kernel
theorem test_timetable : after (exec .timetableSwitch { up with fab := { pending := true } }) (fun t => (t.fab.activeB, t.fab.pending)) =
    some (true, false) := by decide +kernel
/-- The word at 0x40 of MU 0 goes to offset 0x80 of MU 1, which begins at 4 MiB. -/
theorem test_circuit_word : after (exec (.circuitWord 0 2 0x40 0x80 0 false false) routed) (fun t => memRead t.sram (sramKey 0 0x400080)) = some 9 := by
  decide +kernel

-- Steering units (R142 to R147, R270)

/-- A SWITCH with control circuit 1, input 2 and outputs 3 and 4. -/
def steer : List Byte :=
  block 64 [(0, 1, 6), (16, 1, 0), (18, 2, 1), (20, 2, 2), (22, 2, 0xFFFF), (24, 2, 0xFFFF), (26, 2, 0xFFFF), (28, 2, 3), (30, 2, 4),
    (32, 2, 0xFFFF), (34, 2, 0xFFFF)]

/-- A data item. -/
def item (mark : Bool) : Item := { data := zeros 64, reel := 0, gen := false, mark := mark }

/-- Core 0 with an STU under that op. -/
def steering (cq : List W32) (dq : List Item) (next : Option QDesc) : State :=
  commanded { run0 with stus := [(0, { desc := steer, held := true, cq := cq, dq := [(0, dq)], next := next })] } take7 entry7

/-- Core 0 with the op queued, on an STU that holds one or none. -/
def steerQueued (held : Bool) : State := taken { run0 with queues := [(16, [qd steer [] false])], stus := [(0, { held := held, desc := steer })] }

theorem witness_SteeringUnits :
    (∀ h ∈ [true, false], readyHead (Machine.core (steerQueued h) 0) 16 = some (qd steer [] false) ∧ engineLive (steerQueued h) 0 = true ∧
      (stuOf (Machine.core (steerQueued h) 0) 0).held = h) ∧ descBad 0 1 0 false steer = none ∧
    stuPair? (stuOf (Machine.core (steering [0x101] [item false] none) 0) 0) = some (0x101, item false) ∧
    stuMarkers (stuOf (Machine.core (steering [0x80000000] [item true] none) 0) 0) = some false ∧
    (takeOfCore (steering [0x101] [] none) 0 = some take7 ∧ stuPair? (stuOf (Machine.core (steering [0x101] [] none) 0) 0) = none ∧
      stuMarkers (stuOf (Machine.core (steering [0x101] [] none) 0) 0) = none) := by decide +kernel
theorem test_steer_apply : after (exec (.steerApply 0 0) (steerQueued false)) (fun t => ((stuOf (Machine.core t 0) 0).desc, (stuOf (Machine.core t 0) 0).held)) =
    some (steer, true) ∧
  after (exec (.steerApply 0 0) (steerQueued true)) (fun t => (stuOf (Machine.core t 0) 0).next.isSome) = some true := by decide +kernel
/-- A token with SEL 1 and COUNT 1 (two items): the first item goes to output 1, circuit 4, and the token stays. -/
theorem test_stu_pair : after (exec (.stuPair 0 0) (steering [0x101] [item false] none)) (fun t =>
    ((tget [] t.fab.circ 4).length, (stuOf (Machine.core t 0) 0).cq, (stuOf (Machine.core t 0) 0).left)) = some (1, [0x101], 1) := by decide +kernel
/-- Markers at both heads: one marker on each output, and the waiting op is in force. -/
theorem test_stu_drain : after (exec (.stuDrainMarker 0 0) (steering [0x80000000] [item true] (some (qd xfr0 [] false)))) (fun t =>
    ((tget [] t.fab.circ 3).map (·.mark), (tget [] t.fab.circ 4).map (·.mark), (stuOf (Machine.core t 0) 0).desc, (stuOf (Machine.core t 0) 0).cq)) =
      some ([true], [true], xfr0, []) := by decide +kernel
/-- The stall is reported with STEER_STALL, 0x12. -/
theorem test_steer_stall : after (exec (.steerStall 0 0) (steering [0x101] [] none)) (fun t =>
    ((stuOf (Machine.core t 0) 0).stalled, t.intake.log.map fun e => fld e.comp 0 1)) = some (true, [0x12]) := by decide +kernel

-- Multicast (R148 to R151)

/-- One tile of 64 bytes from package 0 to group 1. -/
def cast : List Byte := block 64 [(0, 1, 5), (16, 1, 1), (20, 6, 0x80008000000), (28, 4, 64), (32, 4, 1), (36, 4, 64)]

/-- Group 1 has one receiver: core 0, MU 1, ring at 0x400000, two slots of 64 bytes, counters 8 and 9. -/
def casting : State :=
  let img := image 0x0A 1 [(129 - 1, 1, 1), (130, 1, 0), (131, 1, 4), (132, 4, 0x400000), (136, 4, 64), (140, 1, 2), (141, 1, 8), (142, 1, 9),
    (14, 2, 2), (80, 2, 9), (84, 4, 192), (88, 4, 16), (92, 4, 1), (192, 2, 2), (196, 1, 0xFF), (197, 1, 1)]
  { imaged img { run0 with queues := [(5, [qd cast [] false])], bars := [(64 + 8, { count := 1 })] } with
    mem := [(0x80008000000, 7)], memctl := [(16, { state := .ready })], fab := { bankA := [(0, 3)] } }

/-- The group as it starts. -/
def mcast0 : Mcast := { desc := qd cast [] false, tile := 0, held := [], detached := [], done := false }

theorem witness_Multicast : descBad 0 1 0 false cast = none ∧ engineLive casting 0 = true ∧ (Machine.core casting 0).mcasts = [] ∧
    readyHead (Machine.core casting 0) 5 = some (qd cast [] false) ∧ (groupRecvs (imgOf casting 0) 1).length = 1 ∧
    (serveLagging 0 (groupRecvs (imgOf casting 0) 1) mcast0 (setCore casting 0 (popHead (Machine.core casting 0) 5))).isOk = true ∧
    (sendTile 0 (groupRecvs (imgOf casting 0) 1) mcast0 (setCore casting 0 (popHead (Machine.core casting 0) 5))).isOk = true ∧
    (Machine.core (modCore casting 0 fun x => { x with mcasts := [mcast0] }) 0).mcasts = [mcast0] := by decide +kernel
/-- The tile lands in slot 0 of the ring, a credit is taken, FULL is arrived on, and the descriptor is done. -/
theorem test_mcast : after (exec (.mcastTileSend 0) casting) (fun t =>
    (memRead t.sram (sramKey 0 0x400000), (barOf (Machine.core t 0) 1 8).count, t.fab.arrivals.map fun a => (a.mu, a.ctr), (Machine.core t 0).mcasts.length)) =
      some (7, 0, [(1, 9)], 0) := by decide +kernel

-- Memory controllers and calibration (R173 to R201, R405 to R413)

/-- READY with package 0 in a state and CSR words. -/
def memUp (m : MemCtl) (csr : Tab W64) : State := { up with memctl := [(16, m)], csr := csr }

theorem witness_MemoryControllers :
    (let s := memUp { state := .ready } []
     ctlOf 0x80008000000 = some 16 ∧ fast s = true ∧ wholeWords 0x80008000000 32 = true ∧ writeTest s 0x80008000000 32 = .done ∧
     readTest (meetEcc s 16 0x80008000000 1) 0x80008000000 64 = .done ∧ backgroundOk s 16 = true ∧ heldByTake s 16 = false) ∧
    (cget (memUp { state := .ready } [(memBase 16, 1)]) (memBase 16)).getLsbD 0 = true ∧
    (ctl (memUp { state := .ready, filling := true, filled := 2097151 } []) 16).filling = true ∧
    ((cget (memUp { state := .ready } [(0x140000, 2)]) 0x140000).getLsbD 1 = true ∧
      keepsAwake { memUp { state := .ready } [(0x140000, 2)] with intake := { copyA := 2, copyB := 34 } } 16 = false) ∧
    ((ctl (memUp { state := .selfRefresh, exiting := true } []) 16).state = .selfRefresh ∧
      (ctl (memUp { state := .selfRefresh, exiting := true } []) 16).exiting = true) := by decide +kernel
/-- A write of a word is read back; a write to a Pool region changes nothing. -/
theorem test_ctrl_access : after (exec (.ctrlAccess true 0x80008000000 (zeros 31 ++ [5]) 0 0) (memUp { state := .ready } [])) (fun t =>
    (devByte t 0x8000800001F, devByte t 0x80008000020)) = some (5, 0) ∧
  after (exec (.ctrlAccess true 0x81F00000000 [5] 0 0) (memUp { state := .ready } [])) (fun t => devByte t 0x81F00000000) = some 0 := by decide +kernel
theorem test_refresh : after (exec (.refresh 16) (memUp { state := .ready } [])) (fun t => (ctl t 16).refreshes) = some 1 := by decide +kernel
/-- An uncorrectable word poisons its 32 B word. -/
theorem test_scrub : after (exec (.scrub 16 0x80008000005 2) (memUp { state := .ready } [(memBase 16, 1)])) (fun t => t.poison) =
    some [0x80008000000] := by decide +kernel
theorem test_lpc_fill : after (exec (.lpcFill 0) (memUp { state := .ready, filling := true, filled := 2097151 } [])) (fun t => (ctl t 16).filling) =
    some false := by decide +kernel
theorem test_telemetry : after (exec (.telemetryRead 16 80) (memUp { state := .ready } [])) (fun t => (ctl t 16).temp) = some 80 := by decide +kernel
theorem test_self_refresh : after (exec (.selfRefreshEnter 79) { up with memctl := [(79, { state := .ready })], csr := [(0x140000, 2)] })
    (fun t => (ctl t 79).state) = some .selfRefresh ∧
  after (exec (.selfRefreshExit 16) (memUp { state := .selfRefresh, exiting := true } [])) (fun t => (ctl t 16).state) = some .ready ∧
  after (exec (.ctrlAccess false 0x80008000000 [0] 0 0) (memUp { state := .selfRefresh } [])) (fun t => (ctl t 16).state) = some .ready := by decide +kernel

/-- Port 0 up. -/
def probed (csr : Tab W64) (low : Tab Nat) : State := { up with net := { ports := [(0, { state := .up })] }, csr := csr, cal := { laneLow := low } }

theorem witness_Calibration :
    (backgroundOk (memUp { state := .ready } []) 16 = true ∧ channelRetrains (memUp { state := .ready } []) 16 5 = false ∧ commandGroup 16 4 = false ∧ commandGroup 16 5 = true ∧
      channelRetrains { memUp { state := .ready } [] with cal := { groups := [(512 * 16, { retrain := some 0 })] } } 16 0 = true ∧ groupCount 16 = 6 ∧ groupCount 0 = 160) ∧
    (calCfg (probed [] []) 15 8 = 2 ∧ (signed 6 1).natAbs < 2 ∧ 2 ≤ (signed 6 62).natAbs) ∧
    (fast (probed [] []) = true ∧ calCfg (probed [] []) 1 1 = 1 ∧ (port (probed [] []) (lanePort 0)).state = .up) ∧
    (let s := { up with kc := 60 * secondKc, cal := { changed := true } }
     calCfg s 2 2 = 1 ∧ s.cal.lastSnapKc + 60 * secondKc ≤ s.kc) := by decide +kernel
/-- The eye's centre at +2 moves the setting one tap up; at -2 (62 of six bits) one down; at +1 it stays. -/
theorem test_tap : tapMove (probed [] []) 2 = 1 ∧ tapMove (probed [] []) 62 = -1 ∧ tapMove (probed [] []) 1 = 0 := by decide +kernel
theorem test_cal_step : (let t := moveGroup (memUp { state := .ready } []) 16 5 true 40 (tapMove up 2)
    ((groupOf t 16 5).write, (groupOf t 16 5).read, t.cal.changed)) = ({ setting := 1, margin := some 40 }, {}, true) := by decide +kernel
/-- The third margin below FLOOR makes the lane Retraining. -/
theorem test_probe : after (exec (.serdesProbe 0 5) (probed [] [(0, 2)])) (fun t => (wbits (cget t (calIfAddr 80)) 63 62, wbits (cget t (calIfAddr 80)) 47 40)) =
    some (2, 5) := by decide +kernel
theorem test_snapshot : after (exec .calSnapshot { up with kc := 60 * secondKc, cal := { changed := true, groups := [(3, { write := { setting := -4 } })] } })
    (fun t => (t.cal.snapshot.settings, t.cal.changed)) = some ([(7, -4)], false) := by decide +kernel

theorem witness_FabricMoves_more :
    (hasPacketSlot { up with fab := { setA := true, flits := [flit 1] } } (.port 1 4) = true ∧
      hasPacketSlot { up with fab := { flits := [flit 1] } } (.port 1 4) = false ∧
      (nextHop up true 0 1).map (fun h => (hasPacketSlot { up with fab := { setA := true } } (.port 0 h.1), hasPacketSlot up (.port 0 h.1))) =
        some (true, false)) ∧
    (let s := { taken run0 with fab := { pending := true, bankB := [(0, 3)] } }
     s.intake.takes = [take7] ∧ bankSettled s 0 = false ∧ bankSettled { s with fab := { pending := true } } 0 = true) ∧
    (tagsOk (Machine.core routed 0) 0 0 false false = true ∧ tagsOk (Machine.core routed 0) 0 0 true false = false) ∧
    (let a : Arrival := { src := 0, id := 1, csq := none, dst := 0, mu := 1, ctr := 3, n := 1 }
     let q : Item := { data := [], reel := 0, gen := false, mark := false, arr := some a }
     (tget [] ({ routed with fab := { routed.fab with circ := [(2, [q])] } } : State).fab.circ 2).head?.bind (·.arr) = some a) := by decide +kernel

theorem witness_SteeringUnits_more :
    outFree (steering [0x101] [item false] none) 0 4 = true ∧
    outFree { steering [0x101] [item false] none with fab := { circ := [(4, [item false])] } } 0 4 = false ∧
    (let s := commanded { run0 with stus := [(0, { desc := steer, held := true, cq := [0x101], episode := true, stalled := true })] } take7 entry7
     (stuOf (Machine.core s 0) 0).episode = true ∧ stuPair? (stuOf (Machine.core s 0) 0) = none ∧ takeOfCore s 0 = some take7) ∧
    (∀ j < 4, outFree (steering [0x80000000] [item true] none) 0 (sOut steer j) = true) := by decide +kernel

theorem witness_MemoryControllers_more :
    (let s := memUp { state := .ready } []
     writeTest s 0x80008000005 3 = .done ∧ wholeWords 0x80008000005 3 = false ∧ writeTest (meetEcc s 16 0x80008000005 1) 0x80008000005 3 = .done ∧
     readTest (memUp { state := .failed } []) 0x80008000000 8 ≠ .done ∧ writeTest s 0x81F00000000 1 ≠ .done ∧ ctlOf 0x700000000000 = none ∧
     rangeMapped s 0x700000000000 8 = false ∧ (0x80008000000 : Nat) / 32 * 32 ∉ s.poison) ∧
    (unfilled (memUp { state := .ready, filling := true } []) 0x80008000000 = true ∧
      readTest (memUp { state := .ready, filling := true } []) 0x80008000000 8 = .done) := by decide +kernel

-- Power, SMBus, observability (R422 to R447, R509 to R515)

/-- Core 0 idle in a placement. -/
def idle (p : PowerState) (waking napping : Bool) : State :=
  { at0 { run0 with share := .none, power := p, waking := waking, napping := napping } with csr := [(0x140000, 1)], sram := [(7, 9)] }

theorem witness_PowerAndSmbus :
    ((Machine.core (idle .idle false false) 0).power = .idle ∧ (Machine.core (idle .idle false false) 0).place.isSome = true ∧
      fast (idle .idle false false) = true ∧ (cget (idle .idle false false) 0x140000).getLsbD 0 = true) ∧
    (Machine.core (idle .idle false true) 0).napping = true ∧
    (∀ p ∈ [PowerState.off, .nap], (Machine.core (idle p true false) 0).waking = true ∧ (Machine.core (idle p true false) 0).power = p) ∧
    ((List.replicate 10 30).length = 10 ∧ up.drl.rails = true ∧ keeperUp up = true) ∧
    (smbAllowed up 0x1FFFF8 = true ∧ smbAllowed up 0x200000 = false ∧ smbAllowed up 0x800000 = true ∧ (csrRead up 0x100018).isSome = true) ∧
    (cget { up with csr := [(obsCfgReg 9, 1)] } (obsCfgReg 9)).getLsbD 0 = true := by decide +kernel
theorem test_nap : after (exec (.coreNap 0) (idle .idle false false)) (fun t => (Machine.core t 0).napping) = some true ∧
    after (exec (.napEntryDone 0) (idle .idle false true)) (fun t => ((Machine.core t 0).napping, (Machine.core t 0).power)) = some (false, .nap) := by
  decide +kernel
/-- A wake from Off clears the SRAM, one from Nap keeps it. -/
theorem test_wake : after (exec (.coreWake 0) (idle .off true false)) (fun t => ((Machine.core t 0).power, memRead t.sram 7)) = some (.idle, 0) ∧
    after (exec (.coreWake 0) (idle .nap true false)) (fun t => memRead t.sram 7) = some 9 := by decide +kernel
theorem test_power_reading : after (exec (.powerReading 500 (List.replicate 10 30) 540 540) up) (fun t =>
    (t.kc, wbits (cget t 0x140020) 15 0, wbits (cget t 0x100020) 31 16)) = some (250, 500, 540) := by decide +kernel
theorem test_smbus : after (exec (.setPtr 0x100018) up) (fun t => t.drl.smbPtr) = some 0x100018 ∧
    after (exec .smbRead { up with drl := { up.drl with smbPtr := 0x100018 } }) (fun t => (t.drl.smbOut, t.drl.smbPtr)) =
      some ([0xFF, 0, 0, 0, 0, 0, 0, 0], 0x100020) := by decide +kernel
theorem test_alerts : after (exec (.clrAlert 1) { up with csr := [(0x100010, 3)] }) (fun t => cget t 0x100010) = some 2 ∧
    after (exec .alertResponse { up with csr := [(0x100010, 3)] }) (fun t => t.drl.smbOut) = some [0x58] := by decide +kernel
theorem test_clock_low : exec .smbusClockLowTimeout up = .next up := rfl
/-- Die 9 with a ring of 1 MiB and its counter WKC[0] (0x8100), of value 5, as its one point. -/
def sampled : State :=
  { up with csr := [(obsCfgReg 9, 1), (obsRingReg 9, 0x0001080080000000), (0xB001000 + 512 * 9, 0x18100)], wkc := [(768, { value := 5 })] }

theorem witness_PowerAndSmbus_sample : points sampled 9 = [0x8100] ∧ points up 9 = [] ∧ areaLen (cget sampled (obsRingReg 9)) = 0x100000 ∧
    ringLost sampled 9 = false ∧ ringLost { sampled with memctl := [(16, { state := .failed })] } 9 = true ∧ fast sampled = true := by decide +kernel
theorem test_sample : sampleAll sampled 9 (points sampled 9) = [leBytes 2 0x8100 ++ leBytes 6 5] := by decide +kernel
/-- A record of that sample in the ring: SAMPLE, die 9, one entry, part 0, and OBS_HEAD moves on. -/
theorem test_record : (let t := putRecord sampled 9 1 1 0 7 (leBytes 2 0x8100 ++ leBytes 6 5)
    (devReads t 0x80080000000 4, leNat (devReads t 0x80080000010 8), (cget t (obsHeadReg 9)).toNat % 2 ^ 32)) =
      ([1, 9, 1, 0], 0x58100, 2) := by decide +kernel

-- Command records (R293 to R299)

/-- A record of 64-byte blocks with fields, and its CHECK at 60. -/
def record (blocks : Nat) (fs : List (Nat × Nat × Nat)) : List Byte :=
  let b := block (64 * blocks) (fs ++ [(0, 1, 1), (3, 1, blocks)])
  putBytes b 60 (leBytes 4 (crc32c b))

/-- A MARK of stream 1 with sequence number `seq` and SKEY 9. -/
def markRec (seq : Nat) : List Byte := record 1 [(1, 1, 1), (2, 1, 6), (4, 2, 0xFFFF), (8, 6, seq), (24, 4, 9)]
/-- A RUN without a legal length. -/
def badRun : List Byte := record 1 [(1, 1, 1), (2, 1, 1), (24, 4, 9)]

/-- Stream 1, at NEXT, with a record in slot `sl` of its window that has been written. -/
def windowed (next sl : Nat) (b : List Byte) : State :=
  { up with intake := { windows := [(256 + sl, b)], touched := [256 + sl], waitingRec := [256 + sl],
                        streams := [(1, { state := .idle, next := next, skey := 9, qp := 4096 })] } }

theorem witness_CommandRecords :
    (ready (windowed 0 0 (markRec 0)) = true ∧ slotNo 1 0 ∈ (windowed 0 0 (markRec 0)).intake.touched ∧
      slotNo 1 255 ∈ (windowed 255 255 (markRec 255)).intake.waitingRec ∧ 255 = (stream (windowed 255 255 (markRec 255)) 1).next % 256) ∧
    (isRecord (windowSlot (windowed 0 0 (markRec 0)) 1 0) = true ∧ fld (markRec 0) 0 1 = 1 ∧ fld (markRec 0) 1 1 = 1 ∧ fld (markRec 0) 24 4 = 9 ∧
      hasRoom (windowed 0 0 (markRec 0)) 1 (markRec 0) = true ∧ legal 1 (markRec 0) = true) ∧
    isRecord (zeros 4096) = false ∧ legal 1 badRun = false ∧
    hasRoom { windowed 0 0 (markRec 0) with intake := { (windowed 0 0 (markRec 0)).intake with areas := [(0, 1), (1, 2)] } } 1 (markRec 0) = false := by
  decide +kernel
/-- The MARK at NEXT is accepted, NEXT moves on, and ACCEPTED is sent. -/
theorem test_command_record : after (exec (.commandRecord 1 0) (windowed 0 0 (markRec 0))) (fun t =>
    (t.intake.log.map fun e => (e.stream, e.seq, e.cls, e.status), (stream t 1).next, (qp t 4096).held.map fun m => fld m.data 0 1)) =
      some ([(1, 0, 6, 1)], 1, [1]) := by decide +kernel
/-- One behind NEXT is counted at 0x200010; a foreign one (another SKEY) at 0x200018; an illegal one ends with MALFORMED. -/
theorem test_command_record_refused : after (exec (.commandRecord 1 0) (windowed 1 0 (markRec 0))) (fun t => (cget t 0x200010, t.intake.log.length)) =
    some (1, 0) ∧
  after (exec (.commandRecord 1 0) (windowed 0 0 (record 1 [(1, 1, 1), (2, 1, 6), (4, 2, 0xFFFF), (24, 4, 8)]))) (fun t => cget t 0x200018) = some 1 ∧
  after (exec (.commandRecord 1 0) (windowed 0 0 badRun)) (fun t => (t.intake.log.map (·.status), (stream t 1).state)) = some ([3], .halted) := by
  decide +kernel
/-- A record ahead of NEXT waits, and is taken when NEXT reaches it. -/
theorem test_waiting_record : after (exec (.commandRecord 1 5) (windowed 0 5 (markRec 5))) (fun t => (t.intake.waitingRec, t.intake.log.length)) =
    some ([261], 0) ∧
  after (exec (.waitingRecordAccept 1) (windowed 5 5 (markRec 5))) (fun t => (t.intake.waitingRec, t.intake.log.length)) = some ([], 1) := by
  decide +kernel

-- What commands do at their turn

/-- The command of a class at the head of a stream, with body fields. -/
def cmd (st cls : Nat) (fs : List (Nat × Nat × Nat)) : Entry :=
  { stream := st, seq := 0, order := 1, cls := cls, state := .accepted, status := 1, body := block 256 (fs ++ [(0, 1, 1), (1, 1, st), (2, 1, cls)]) }

/-- READY with it. -/
def turned (e : Entry) : State :=
  { up with intake := { log := [e], streams := [(e.stream, { state := .running, next := 1, qp := 4096 })] } }

/-- With a placed image in slot 3, whose core 0 is off. -/
def placed3 (e : Entry) : State :=
  let x : Slot := { state := .placed, img := block 64 [(6, 1, 1), (7, 1, 1)] }
  { turned e with loader := { slots := [(3, x)] },
                  cores := [(0, { place := some { slot := 3, rows := 1, cols := 1, row := 0, col := 0, lcore := 0, index := 0 } })] }

/-- A LOAD that waits at the loader and may be tried again. -/
def loadDue : State :=
  let w : LoadWait := .load 1 0 3 []
  { turned (cmd 1 3 []) with loader := { waiting := [w, .moving 3], due := [w] } }

theorem witness_CommandTurns :
    (let e := cmd 1 1 [(4, 2, 3)]
     turnOf (placed3 e) 1 1 = some e ∧ e.head = false ∧ headBar (placed3 e) e = none ∧ (slotOf (placed3 e) 3).state ≠ .moving ∧
     slotBusy (placed3 e) 3 = false ∧ waitersOf (placed3 e) 3 = []) ∧
    (let e := cmd 1 3 [(64, 8, 0x80008000000)]
     turnOf (turned e) 1 3 = some e ∧ waitsAtLoader (turned e) e = false ∧ nextLoad (turned e) e = true) ∧
    (let e := cmd 1 4 [(4, 2, 3)]
     turnOf (placed3 e) 1 4 = some e ∧ handleOk (placed3 e) e.handle = true ∧ slotOfHandle e.handle = 3) ∧
    (∀ k ∈ [5, 6, 7, 8], turnOf (turned (cmd 0 k [(64, 1, 2)])) 0 k = some (cmd 0 k [(64, 1, 2)])) ∧
    (∀ r ∈ [0, 1], bit (fld (cmd 0 7 [(64, 1, 2), (65, 1, r)]).body 65 1) 0 = decide (r = 1)) ∧
    (loadDue.loader.waiting[0]? = some (.load 1 0 3 []) ∧ loadDue.loader.due.head? = some (.load 1 0 3 []) ∧ (findEntry loadDue 1 0).isSome = true) := by
  decide +kernel
/-- The head moment of a STEP: a run of RUN_ID 0 whose table names it, and a LOCAL buffer. -/
theorem witness_CommandTurns_step :
    (let e := cmd 1 2 [(4, 2, 3), (192, 8, 1), (200, 8, 0x80009000000), (208, 2, 7)]
     let r : Run := { runtab := 0x80009000000, table := zeros 128 }
     let b : Buf := { id := 7, kind := 3, tier := 1, size := 4096, addr0 := 0x80008000000, addr1 := 0, pub := 0 }
     let s := placed3 e
     let s := { s with cen := { runs := [r] }, loader := { slots := [(3, { slotOf s 3 with bufs := [b] })] } }
     turnOf s 1 2 = some e ∧ headBar s e = none) := by decide +kernel
/-- RUN and STEP have their head moment, which wakes the core. -/
theorem test_run : after (exec (.run 1) (placed3 (cmd 1 1 [(4, 2, 3)]))) (fun t => (t.intake.log.map (·.head), (Machine.core t 0).waking)) =
    some ([true], true) ∧
  after (exec (.run 1) (placed3 (cmd 1 1 [(4, 2, 4)]))) (fun t => t.intake.log.map fun e => (e.status, fld e.comp 20 1)) = some [(2, 2)] := by
  decide +kernel
/-- A STEP that names no adopted run ends with reason 0x54. -/
theorem test_step : after (exec (.stepCmd 1) (placed3 (cmd 1 2 [(4, 2, 3)]))) (fun t => t.intake.log.map fun e => (e.status, fld e.comp 20 1)) =
    some [(2, 0x54)] := by decide +kernel
/-- A LOAD from outside the memories ends with ADDR_UNMAPPED. -/
theorem test_load : after (exec (.load 1) (turned (cmd 1 3 [(64, 8, 0x20000000), (72, 4, 4096)]))) (fun t => t.intake.log.map (·.status)) =
    some [0x11] := by decide +kernel
theorem test_unload : after (exec (.unload 1) (placed3 (cmd 1 4 [(4, 2, 3)]))) (fun t => ((slotOf t 3).state, (slotOf t 3).gen, t.intake.log.map (·.status))) =
    some (.empty, 1, [0]) := by decide +kernel
theorem test_resume_mark : after (exec (.resume 1) (turned (cmd 1 5 []))) (fun t => t.intake.log.map fun e => (e.status, fld e.comp 20 1)) = some [(2, 6)] ∧
    after (exec (.mark 1) (turned (cmd 1 6 []))) (fun t => t.intake.log.map (·.status)) = some [0] := by decide +kernel
/-- OPEN of stream 2 on host queue pair 1 (RQPN 0x101001) with its keys. -/
theorem test_open : after (exec (.openStream 0) (turned (cmd 0 7 [(64, 1, 2), (68, 4, 0x101001), (72, 4, 9), (76, 4, 8), (80, 6, 5)]))) (fun t =>
    ((stream t 2).state, (stream t 2).next, (stream t 2).qp, (stream t 2).skey, (stream t 2).ckey)) = some (.idle, 5, 4097, 9, 8) := by decide +kernel
/-- CLOSE of an idle stream with no live entry closes it. -/
theorem test_close : (let s := turned (cmd 0 8 [(64, 1, 2)])
    after (exec (.closeStream 0) { s with intake := { s.intake with streams := s.intake.streams ++ [(2, { state := .idle, next := 4 })] } }) fun t =>
      ((stream t 2).state, (stream t 2).next, t.intake.log.map (·.status))) = some (.closed, 4, [0]) := by decide +kernel
/-- Nothing is in the way of an empty image any more: the retry ends its LOAD. -/
theorem test_load_retry : after (exec (.loadRetry 0) loadDue) (fun t => (t.intake.log.map (·.status), t.loader.due.length)) = some ([0], 0) := by
  decide +kernel

-- Operations of stream 0 and of the pool (R355 to R375)

/-- An operation of a class on stream 0. -/
def op (cls o : Nat) (fs : List (Nat × Nat × Nat)) : Entry := cmd 0 cls (fs ++ [(64, 1, o), (66, 2, 1)])

/-- GIVE, TAKE of one region of package 0 at 128 MiB. -/
def poolOp (o : Nat) : Entry := op 9 o [(128, 8, 0x80008000000), (136, 8, 0x10000)]
/-- QPSET of queue pair 5 on port 4 with the defaults. -/
def qpsetOp (action : Nat) : Entry := op 10 1 [(128, 2, 5), (130, 1, 4), (131, 1, 0xFF), (132, 4, 77), (158, 1, action), (159, 1, 0x1F)]
/-- KEYSET of a memory key, or its revocation. -/
def keysetOp (rights : Nat) : Entry :=
  op 10 2 ([(128, 4, 0x10005), (133, 1, rights)] ++ if rights = 0x80 then [] else [(134, 2, 0x1FFF), (136, 8, 0x80008000000), (144, 8, 64)])
/-- EPOCH 3 from step 1, without members. -/
def epochOp : Entry := op 10 3 [(128, 4, 3), (132, 4, 9), (136, 8, 1)]
/-- SA: AN 2 of port 4, transmit. -/
def saOp : Entry := op 10 4 [(128, 1, 4), (130, 1, 2)]

theorem witness_StreamOperations :
    (∀ e ∈ [poolOp 1, poolOp 2, poolOp 3, poolOp 4], turnOf (turned e) 0 9 = some e) ∧
    (∀ e ∈ [qpsetOp 0, qpsetOp 1, keysetOp 1, keysetOp 0x80, epochOp, saOp], turnOf (turned e) 0 10 = some e) ∧
    (allOrNone giveRegion (turned (poolOp 1)) (poolRegions (poolOp 1).body)).isSome = true ∧
    (allOrNone takeBackRegion (setRegion (turned (poolOp 2)) 0x8000800 1) (poolRegions (poolOp 2).body)).isSome = true ∧
    (∀ k ∈ [0, 1], (allOrNone qpsetEntry (turned (qpsetOp k)) (manEntries (qpsetOp k).body 64)).isSome = true ∧ fld (qpsetOp k).body 158 1 = k) ∧
    (allOrNone keysetEntry (turned (keysetOp 1)) (manEntries (keysetOp 1).body 32)).isSome = true ∧
    (allOrNone saEntry (turned saOp) (manEntries saOp.body 96)).isSome = true ∧
    epochOk (turned epochOp) { num := 3, self := 9, fromStep := 1, members := bitmapMembers epochOp.body } = true ∧
    (giveRegion (turned (poolOp 1)) 0x8000800).isSome = true ∧ (takeBackRegion (turned (poolOp 1)) 0x81F0000).isSome = true := by decide +kernel
theorem test_give : after (exec (.give 0) (turned (poolOp 1))) (fun t => (regionState t 0x8000800, t.intake.log.map (·.status))) = some (1, [0]) := by
  decide +kernel
/-- TAKE of an Open region is refused with STATE_CONFLICT, of a Pool region done. -/
theorem test_take_back : after (exec (.takeBack 0) (setRegion (turned (poolOp 2)) 0x8000800 1)) (fun t => (regionState t 0x8000800, t.intake.log.map (·.status))) =
    some (0, [0]) ∧ after (exec (.takeBack 0) (turned (poolOp 2))) (fun t => (regionState t 0x8000800, t.intake.log.map (·.status))) = some (0, [2]) := by
  decide +kernel
theorem test_qpset : after (exec (.qpsetSet 0) (turned (qpsetOp 0))) (fun t => ((qp t 5).state, (qp t 5).port, (qp t 5).devId)) = some (.ready, 4, 77) ∧
    after (exec (.qpsetReset 0) (turned (qpsetOp 1))) (fun t => ((qp t 5).state, t.intake.log.map (·.status))) = some (.reset, [0]) := by decide +kernel
theorem test_keyset : after (exec (.keyset 0) (turned (keysetOp 1))) (fun t => t.intake.log.map (·.status)) = some [0] := by decide +kernel
theorem test_epoch : after (exec (.epoch 0) (turned epochOp)) (fun t => t.net.staged.map fun e => (e.num, e.self, e.fromStep)) = some (some (3, 9, 1)) := by
  decide +kernel
theorem test_sa : after (exec (.sa 0) (turned saOp)) (fun t => ((port t 4).sas.map (·.an), t.intake.log.map (·.status))) = some ([2], [0]) := by
  decide +kernel


-- Runs, and further clauses

/-- The table of run 4 with one shard, at 0x80009000000 in package 0. -/
def table4 : List Byte :=
  block 64 [(0, 4, 0x4B555254), (4, 4, 1), (8, 8, 0x80009010000), (16, 8, 0x80009100000), (24, 8, 0x10000), (32, 8, 0x80009200000),
    (40, 8, 0x10000), (48, 8, 0x80009050000), (56, 1, 2), (58, 2, 4), (60, 4, 3540767051)]

/-- The root of its shard: one parameter, LAG 1. -/
def root4 : List Byte := block 64 [(0, 8, 0x80009030000), (16, 4, 1), (28, 4, 2), (60, 4, 4005998847)]

/-- READY with that run in memory, not adopted: its directory, its root and its slice list. -/
def tabled (e : Entry) : State :=
  { turned e with
    mem := cells 0x80009000000 table4 ++ cells 0x80009010000 (leBytes 4 0x8000902) ++
      cells 0x80009020000 root4 ++ cells 0x80009030000 (leBytes 4 0x8000904),
    memctl := [(16, { state := .ready })] }

/-- ADOPT and RELEASE of the run. -/
def runOp (o : Nat) : Entry := op 9 o [(72, 8, 0x80009000000)]

theorem witness_StreamOperations_runs :
    turnOf (tabled (runOp 3)) 0 9 = some (runOp 3) ∧ (adoptRun (tabled (runOp 3)) 0x80009000000).isSome = true ∧
    (let s := { tabled (runOp 4) with cen := { runs := [{ runtab := 0x80009000000, table := table4 }] } }
     turnOf s 0 9 = some (runOp 4) ∧ (s.cen.runs.find? fun r => r.runtab = fld (runOp 4).body 72 8).map (runBusy s) = some false) := by decide +kernel
theorem test_adopt : after (exec (.adopt 0) (tabled (runOp 3))) (fun t => (t.cen.runs.map Run.id, regionState t 0x8000904, regionState t 0x8000910,
    t.intake.log.map (·.status))) = some ([4], 2, 3, [0]) := by decide +kernel
theorem test_release : after (exec (.release 0) { tabled (runOp 4) with cen := { runs := [{ runtab := 0x80009000000, table := table4 }] } }) (fun t =>
    (t.cen.runs.length, t.intake.log.map (·.status))) = some (0, [0]) := by decide +kernel

/-- A legal RUN, and a legal RESUME to the next number. -/
def runRec : List Byte := block 192 [(0, 1, 1), (1, 1, 1), (2, 1, 1), (3, 1, 3), (24, 4, 9)]
/-- RESUME. -/
def resumeRec : List Byte := block 128 [(0, 1, 1), (1, 1, 1), (2, 1, 5), (3, 1, 2), (4, 2, 0xFFFF), (8, 6, 1), (24, 4, 9), (64, 6, 1)]

theorem witness_CommandRecords_more : legal 1 runRec = true ∧ fld runRec 2 1 = 1 ∧ legal 1 resumeRec = true ∧ fld resumeRec 2 1 = 5 := by decide +kernel
/-- A RUN accepted reserves 130 granules for its commit list; its body begins at granule 1. -/
theorem test_record_run : ((takeRecord (windowed 0 0 []) 1 runRec).intake.reserved, (takeRecord (windowed 0 0 []) 1 runRec).intake.log.map fun e =>
    (e.cls, e.status, e.bodyAt)) = (130, [(1, 1, 1)]) := by decide +kernel

-- Security and freezes as commands (R473, R491 to R501)

/-- FW_WRITE of 4096 bytes of zeros to slot 1, FW_ACTIVATE of slot 1, ATTEST, IDSET. -/
def secOp (o : Nat) : Entry := op 10 o ([(128, 1, 1)] ++ if o = 5 then [(136, 8, 0x80008000000), (144, 4, 4096)] else [])
/-- READY with it, slot 0 running, and leaf 7 of a reserved block. -/
def secured (o : Nat) : State := { turned (secOp o) with sec := { slot := 0, leaf := 7, blockEnd := 256 } }
/-- FREEZE with that ACTION. -/
def freezeOp (a : Nat) : Entry := op 11 a []

theorem witness_SecurityOperations :
    (∀ o ∈ [5, 6, 7, 8], turnOf (secured o) 0 10 = some (secOp o) ∧ (secOp o).stream = 0 ∧ fld (secOp o).body 64 1 = o) ∧
    (let b := (secOp 5).body
     openRange (secured 5) (fld b 136 8 % 2 ^ 48) (fld b 144 4) = true ∧ (readMem (secured 5) (fld b 136 8 % 2 ^ 48) (fld b 144 4)).1 = .done ∧
     fwLen (readMem (secured 5) (fld b 136 8 % 2 ^ 48) (fld b 144 4)).2 = fld b 144 4 ∧ fld b 128 1 ≠ (secured 5).sec.slot) ∧
    freeRecord (secured 6) (fld (secOp 6).body 128 1) = some 0 ∧ (secured 7).sec.leaf < (secured 7).sec.blockEnd ∧
    (∀ a ∈ [1, 2], turnOf (turned (freezeOp a)) 0 11 = some (freezeOp a) ∧ fld (freezeOp a).body 64 1 = a) := by decide +kernel
/-- The image of zeros fails check 1 (FW_IMAGE, 0x61); an erased slot is not activated (FW_SLOT, 0x62). -/
theorem test_fw : after (exec (.fwWrite 0 true) (secured 5)) (fun t => t.intake.log.map fun e => (e.status, fld e.comp 20 1, fld e.comp 24 1)) =
    some [(2, 0x61, 1)] ∧
  after (exec (.fwActivate 0 true) (secured 6)) (fun t => t.intake.log.map fun e => (e.status, fld e.comp 20 1)) = some [(2, 0x62)] := by decide +kernel
theorem test_idset : after (exec (.idset 0 true) (secured 8)) (fun t => t.intake.log.map (·.status)) = some [0] := by decide +kernel
theorem test_freeze_command : after (exec (.freezeThaw 0) (turned (freezeOp 1))) (fun t => (t.drl.frz, t.drl.frzCmd, t.drl.frzHold)) =
    some (.reading, 1, true) ∧
  after (exec (.freezeReset 0) (turned (freezeOp 2))) (fun t => (t.drl.frz, t.drl.frzCmd, t.drl.frzHold)) = some (.reading, 2, false) := by decide +kernel

-- Takes (R304, R313 to R320, R334 to R347, R378)

/-- A RUN or STEP past its head moment, on slot 3. -/
def headed (cls : Nat) : Entry :=
  { cmd 1 cls [(4, 2, 3), (192, 8, 1), (200, 8, 0x80009000000), (208, 2, 7)] with head := true }

/-- READY with it, its core idle, and its run adopted, without shards. -/
def readyToStart (cls : Nat) : State :=
  let s := placed3 (headed cls)
  { s with cores := [(0, { Machine.core s 0 with power := .idle })], cen := { runs := [{ runtab := 0x80009000000, table := zeros 128 }] },
           net := { current := some { num := 3, self := 9, fromStep := 1, members := [] } } }

theorem witness_TakesStart :
    (∀ k ∈ [1, 2], let s := readyToStart k
     let e := headed k
     headEntry s 1 = some e ∧ ready s = true ∧ e.hasTake = true ∧ (stream s 1).state ≠ .halted ∧ slotBusy s 3 = false ∧ slotOfHandle e.handle = 3 ∧
     (slotOf s 3).state = .placed ∧ isTurn s e = true ∧ slotAwake s 3 = true ∧ memsAwake s e = true ∧ e.take < 65535 ∧ e.cls = k) ∧
    (let s := readyToStart 2
     let e := headed 2
     let ep := latchEpoch s e.step
     (match stepRun s e with
     | some r => match stepChecks (adoptEpoch s ep) r (stepOf (adoptEpoch s ep) r e ep) with
       | .ok y => some (y.2.epoch, y.2.self)
       | _ => none
     | none => none) = some (3, 9)) := by decide +kernel
/-- The take runs on slot 3 with tag 1, its core runs from the entry word. -/
theorem test_take_start : after (exec (.takeStart 1) (readyToStart 1)) (fun t =>
    (t.intake.takes.map fun k => (k.slot, k.tag, k.no), (Machine.core t 0).share, (slotOf t 3).state, (stream t 1).state)) =
      some ([(3, 1, 1)], .running, .running, .running) := by decide +kernel
/-- A STEP opens its step in the epoch that it latched. -/
theorem test_take_start_step : after (exec (.takeStart 1) (readyToStart 2)) (fun t =>
    (t.intake.takes.map fun k => (k.epoch, k.run), t.cen.steps.map fun x => (x.step, x.epoch, x.self, x.isOpen))) =
      some ([(3, 0)], [(1, 3, 9, true)]) := by decide +kernel

/-- The take of such a command on slot 3. -/
def take3 (cls : Nat) : Take :=
  { stream := 1, seq := 0, slot := 3, tag := 1, no := 1, ended := true, run := if cls = 1 then 65536 else 0, epoch := 3, self := 9 }

/-- It has ended; under a STEP its verdict is in hand. -/
def endedTake (cls v : Nat) (f : Option (Nat × Nat × Nat × Nat)) : State :=
  let s := readyToStart cls
  { s with intake := { s.intake with takes := [{ take3 cls with final := f }] },
           cores := [(0, { Machine.core s 0 with share := .ended, take := some (1, 1) })],
           cen := { s.cen with steps := [{ run := 0, step := 1, self := 9, epoch := 3, verdict := v, closed := true }] } }

theorem witness_TakesCommit :
    (∀ k ∈ [1, 2], headEntry (endedTake k 1 none) 1 = some (headed k) ∧ takeOfCmd (endedTake k 1 none) 1 0 = some (take3 k) ∧
      ready (endedTake k 1 none) = true ∧ landingsOf (endedTake k 1 none) 1 0 = []) ∧
    (takeOfCmd (endedTake 1 0 (some (8, 0xFF, 0, 0))) 1 0).map (·.final) = some (some (8, 0xFF, 0, 0)) ∧
    (∀ v ∈ [1, 2], (runById (endedTake 2 v none) 0).isSome = true ∧ ((stepSt (endedTake 2 v none) 0 1).map (·.verdict)) = some v) ∧
    (let s := endedTake 2 1 none
     (match runById s 0, stepSt s 0 1 with
     | some r, some x => (runLost s r).isNone && hasSigns r x && (toPublish s r 1).isSome
     | _, _ => false) = true) := by decide +kernel
/-- The RUN commits, its core idles and its slot is placed; an UPDATE verdict commits the STEP with DONE, a SKIP with SKIPPED_NONFINITE. -/
theorem test_commit : after (exec (.commit 1) (endedTake 1 0 none)) (fun t =>
    (t.intake.log.map (·.status), t.intake.takes.length, (slotOf t 3).state, (Machine.core t 0).power)) = some ([0], 0, .placed, .idle) ∧
  (∀ v ∈ [1, 2], after (exec (.commit 1) (endedTake 2 v none)) (fun t => t.intake.log.map (·.status)) = some [if v = 1 then 0 else 9]) := by
  decide +kernel

/-- A retake from cut 2, whose half lies in package 0, which has failed. -/
def cutGone : State :=
  let s := readyToStart 1
  let e := { headed 1 with cut := 2, retakeCut := true }
  { s with intake := { s.intake with log := [e] }, memctl := [(16, { state := .failed })],
           loader := { slots := [(3, { slotOf s 3 with cutBase := 0x80008000000, lastTake := cmdKey 1 0 })] } }

theorem witness_TakesStart_more :
    (∀ k ∈ [1, 2], bankSettled (readyToStart k) 3 = true ∧ cutLost (readyToStart k) (slotOf (readyToStart k) 3) 3 (headed k) = none) ∧
    (headEntry cutGone 1 = some { headed 1 with cut := 2, retakeCut := true } ∧ (slotOf cutGone 3).state = .placed ∧ bankSettled cutGone 3 = true ∧
      cutLost cutGone (slotOf cutGone 3) 3 { headed 1 with cut := 2, retakeCut := true } = some 0x80008000000) ∧
    (let e := { headed 1 with take := 65535 }
     headEntry { readyToStart 1 with intake := { (readyToStart 1).intake with log := [e] } } 1 = some e) := by decide +kernel
theorem test_cut_gone : after (exec (.takeStart 1) cutGone) (fun t => t.intake.log.map (·.status)) = some [7] := by decide +kernel

/-- A root of 4096 parameters with its LAG and FROZEN, and LIST in the tier of that lag. -/
def rootBytes (lag : Nat) : List Byte :=
  let b := block 64 [(0, 6, if lag = 0 then 0x10000010000 else 0x80020000000), (16, 4, 4096), (28, 4, 1 + 2 * lag)]
  putBytes b 60 (leBytes 4 (crc32c (b.take 60)))

/-- A run of RUN_ID 0 with one shard, whose root has that lag; step 1 has its UPDATE verdict and the device's own SIGNS. -/
def running1 (lag : Nat) (us : List Update) (s : State) : State :=
  let r : Run := { runtab := 0x80009000000, table := block 128 [(4, 4, 1), (8, 8, 0x80008000000)] }
  let x : StepSt := { run := 0, step := 1, self := 9, epoch := 3, verdict := 1, closed := true, signsFrom := [9], sect := zeros 64 }
  { s with cen := { runs := [r], steps := [x] }, upu := { updates := us }, memctl := [(16, { state := .ready }), (0, { state := .ready })],
           mem := cells 0x80008000000 [0, 0x10, 0, 8] ++ cells 0x80010000000 (rootBytes lag) }

/-- An update of shard 0 in a state, from that root. -/
def upd0 (lag : Nat) (st : UpdState) : Update :=
  { run := 0, shard := 0, step := 1, stream := 256, seq := 0, state := st, base := rootBytes lag, root := [], fresh := [], reserve := [] }

/-- A RUN with a DEADLINE, past its head moment. -/
def dueEntry : Entry := { cmd 1 1 [(4, 2, 3), (128, 8, 500)] with head := true }

/-- The core of slot 3 stands at CUT 2 with its record written. -/
def atCut2 : State :=
  let s := readyToStart 1
  { s with intake := { s.intake with takes := [{ take3 1 with ended := false }] },
           cores := [(0, { Machine.core s 0 with share := .running, take := some (1, 1), reels := [(0, { started := true, hold := .cut 2 0 })] })],
           csr := [(csqBase 0 + 0x40, 2)] }

/-- A completion of stream 1 waits for its acknowledgement. -/
def unacked : State :=
  let s := turned (cmd 1 6 [(16, 8, 0x4000)])
  { s with net := { qps := [(4096, { qpState .ready with sendq := [{ kind := .completion 1 0, psn := 0, key := 0, va := 0x4000, data := zeros 64 }] })] } }

theorem witness_TakeEvents :
    (headEntry (turned dueEntry) 1 = some dueEntry ∧ ready (turned dueEntry) = true ∧ dueEntry.hasTake = true ∧ dueEntry.deadline ≠ 0 ∧
      takeOfCmd (turned dueEntry) 1 0 = none) ∧
    (({ endedTake 1 0 none with intake := { (endedTake 1 0 none).intake with takes := [{ take3 1 with killed := true }] } } : State).intake.takes.find?
      fun t => t.slot = 3 ∧ t.killed) = some { take3 1 with killed := true } ∧
    ((Machine.core (at0 { run0 with share := .clearing }) 0).share = .clearing ∧ fast (at0 run0) = true) ∧
    (ready unacked = true ∧ ((liveOf unacked 1).find? fun e => ((qp unacked (stream unacked 1).qp).sendq ++ (qp unacked (stream unacked 1).qp).held).any
      fun m => m.kind = .completion 1 e.seq) = some (cmd 1 6 [(16, 8, 0x4000)])) ∧
    (match (running1 1 [upd0 1 .waiting] up).cen.runs[0]? with
      | some r => activeUpdate (running1 1 [upd0 1 .waiting] up) r 0 .waiting
      | none => none) = some (upd0 1 .waiting) ∧
    (headEntry atCut2 1 = some (headed 1) ∧ (takeOfCmd atCut2 1 0).isSome = true ∧ coresOf atCut2 3 = [0] ∧ cutOf atCut2 0 = some 2 ∧
      allAtCut atCut2 3 2 = true ∧ landingsOf atCut2 1 0 = [] ∧ ready atCut2 = true) := by decide +kernel
/-- Reason 0x41 of a deadline that passes. -/
theorem test_deadline : after (exec (.deadlinePassed 1) (turned dueEntry)) (fun t =>
    (cget t 0x200048, t.intake.log.map fun e => (e.status, fld e.comp 20 1))) = some (1, [(2, 0x41)]) := by decide +kernel
theorem test_placement_clear : after (exec (.placementClear 3)
    { endedTake 1 0 none with intake := { (endedTake 1 0 none).intake with takes := [{ take3 1 with killed := true }] } }) (fun t =>
      (t.intake.takes.length, (Machine.core t 0).share)) = some (0, .none) := by decide +kernel
theorem test_core_clear_timeout : after (exec (.coreClearTimeout 0) (at0 { run0 with share := .clearing })) (fun t =>
    ((pcoreOf t 0).state, (Machine.core t 0).fenced)) = some (.fenced, true) := by decide +kernel
theorem test_completion_rewrite : after (exec (.completionRewrite 1) unacked) (fun t => ((qp t 4096).sendq ++ (qp t 4096).held).length) = some 2 := by
  decide +kernel
/-- Both regions are free in the pool of package 0: the update runs. -/
theorem test_pool_retry : after (exec (.poolReservationRetry 0 0) (running1 1 [upd0 1 .waiting] up)) (fun t => t.upu.updates.map (·.state)) =
    some [.running] := by decide +kernel
theorem test_cut_recorded : after (exec (.cutRecorded 1) atCut2) (fun t => (t.intake.log.map fun e => (e.cut, e.cutTag), (reelOf (Machine.core t 0) 0).hold)) =
    some ([(2, 1)], .free) := by decide +kernel

-- The network (R348 to R368)

/-- A good packet on port 4 for queue pair 5, at a PSN, of a message of two bytes. -/
def pkt (psn : Nat) : Pkt :=
  { port := 4, qp := 5, psn := psn, fcs := true, macsec := 0, dip := zeros 16, sip := zeros 16, dma := 2 }

/-- The same, of a control record. -/
def ctlPkt (psn : Nat) : Pkt := { pkt psn with dma := 64 }

/-- A PLAIN key 0x10005 with every right over package 0 of LPDDR5X, and a LANDING key 0x10006 whose zone lies at 128 MiB. -/
def netKeys : Tab KeyEnt :=
  [(5, { key := 0x10005, kind := 0, rights := 3, scope := 5, base := 0x80000000000, len := 0x100000000 }),
   (6, { key := 0x10006, kind := 1, rights := 3, scope := 5, base := 0x80008000000, len := 0x10000, half := 4096 })]

/-- Queue pair 5 on port 4, with its expected PSN 10. -/
def networked (x : Qp) : State :=
  let y : Qp := { x with conf := block 64 [(31, 1, 0x1F)], port := 4, devId := 77, rcvPsn := 10, sndPsn := 30 }
  { up with net := { qps := [(5, y)], ports := [(4, { state := .up }), (8, { state := .up })], keys := netKeys },
            memctl := [(16, { state := .ready })] }

/-- Ready. -/
def netUp : State := networked { state := .ready }

/-- A control record of device 77 for stream 1, landing 2. -/
def ctlRec (kind : Nat) : List Byte :=
  let b := block 64 [(0, 1, kind), (1, 1, 1), (4, 4, 77), (16, 4, 2)]
  putBytes b 60 (leBytes 4 (crc32c (b.take 60)))

theorem witness_InboundRequests :
    (fast netUp = true ∧ (port netUp 4).state = .up ∧ pktPasses netUp (pkt 10) = true ∧ pktPasses netUp { pkt 10 with fcs := false } = false) ∧
    (let u := followPort (answerCe (noteFrame netUp (pkt 10)) (pkt 10)) (pkt 10)
     let v := setQp u 5 { qp u 5 with nakOut := false }
     psnFrom (qp u 5).rcvPsn 10 = 0 ∧ 2 ^ 23 ≤ psnFrom (qp u 5).rcvPsn 9 ∧ psnFrom (qp u 5).rcvPsn 11 < 2 ^ 23 ∧ psnFrom (qp u 5).rcvPsn 11 ≠ 0 ∧
     (qp u 5).nakOut = false ∧ (qp (networked { state := .ready, nakOut := true }) 5).nakOut = true ∧ (qp u 5).rxKey = 0 ∧
     writeFits (qp u 5) 0x0A 2 2 = true ∧ writeFits (qp u 5) 0x0A 2 3 = false ∧ writeFits (qp u 5) 0x07 2 2 = false ∧
     (writeAccess v 5 0x10005 0x80008000040 2 [1, 2] true).1 = true ∧ (writeAccess v 5 0x20005 0x80008000040 2 [1, 2] true).1 = false ∧
     (∀ k ∈ [1, 2, 3], (writeAccess v 5 0x10006 64 64 (ctlRec k) true).1 = true ∧ fld (ctlRec k) 0 1 = k ∧ (ctlRec k).length ≤ qpMtu (qp u 5)) ∧
     (readAccess v 5 0x10005 0x80008000040 2).1 = some [0, 0] ∧
     (readAccess v 5 0x20005 0x80008000040 2).1 = none ∧ (2 : Nat) ≤ 2 ^ 31) ∧ opcodeKnown 0x55 = false := by decide +kernel
/-- A write at its PSN lands and is acknowledged; a duplicate is acknowledged again; one of a bad FCS is dropped. -/
theorem test_rx_write : after (exec (.rxRdmaWrite (pkt 10) 0x0A 0x10005 0x80008000040 [1, 2]) netUp) (fun t =>
    (devReads t 0x80008000040 2, (qp t 5).rcvPsn, (qp t 5).answers.map (·.kind))) = some ([1, 2], 11, [.ack]) ∧
  after (exec (.rxRdmaWrite (pkt 9) 0x0A 0x10005 0x80008000040 [1, 2]) netUp) (fun t =>
    (devReads t 0x80008000040 2, (qp t 5).rcvPsn, (qp t 5).answers.map (·.kind))) = some ([0, 0], 10, [.ack]) := by decide +kernel
/-- A key that is not there gets Remote Access Error, and the queue pair is in Error; a packet ahead gets a Sequence Error once. -/
theorem test_rx_write_nak : after (exec (.rxRdmaWrite (pkt 10) 0x0A 0x20005 0x80008000040 [1, 2]) netUp) (fun t =>
    ((qp t 5).state, (qp t 5).answers.map (·.kind))) = some (.error, [.nak 2]) ∧
  after (exec (.rxRdmaWrite (pkt 12) 0x0A 0x10005 0x80008000040 [1, 2]) netUp) (fun t => ((qp t 5).nakOut, (qp t 5).answers.map (·.kind), (qp t 5).rcvPsn)) =
    some (true, [.nak 0], 10) := by decide +kernel
/-- OPEN opens the zone; SEAL then publishes the half that was not; ABORT leaves it as it was. -/
theorem test_rx_control :
    (let o := exec (.rxControlOpen (ctlPkt 10) 0x10006 (ctlRec 1)) netUp
     after o (fun t => (devByte t 0x80008000000, devByte t 0x80008000001)) = some (1, 0) ∧
     (match o with
      | .next t => after (exec (.rxControlSeal (ctlPkt 11) 0x10006 (ctlRec 2)) t) fun u => (devByte u 0x80008000000, devByte u 0x80008000001)
      | _ => none) = some (0, 1) ∧
     (match o with
      | .next t => after (exec (.rxControlAbort (ctlPkt 11) 0x10006 (ctlRec 3)) t) fun u => (devByte u 0x80008000000, devByte u 0x80008000001)
      | _ => none) = some (0, 0)) := by decide +kernel
theorem test_rx_read : after (exec (.rxRdmaReadRequest (pkt 10) 0x10005 0x80008000040 2) netUp) (fun t =>
    ((qp t 5).answers.map (·.data), (qp t 5).rcvPsn)) = some ([[0, 0]], 11) := by decide +kernel
theorem test_rx_invalid : after (exec (.rxInvalidRequest (pkt 10) 0x55) netUp) (fun t => ((qp t 5).answers.map (·.kind), cget t 0x400230)) =
    some ([.nak 1], 1) := by decide +kernel

/-- Two writes wait for their acknowledgement, PSNs 20 and 21; or a read of two bytes at 20. -/
def sending (read : Bool) : State :=
  let w (p : Nat) : Msg := { kind := .hostWrite, psn := p, key := 5, va := 0, data := [1] }
  let r : Msg := { kind := .readReq 0 1 0 0, psn := 20, key := 5, va := 0, data := leBytes 4 2 }
  networked { state := .ready, sendq := if read then [r] else [w 20, w 21], rate := 100, target := 100 }

theorem witness_InboundAnswers :
    (fast (sending false) = true ∧ pktPasses (sending false) (pkt 20) = true ∧ sentAt (qp (followPort (answerCe (noteFrame (sending false) (pkt 20)) (pkt 20)) (pkt 20)) 5) 20 =
      some 0 ∧ sentAt (qp (sending false) 5) 5 = none) ∧
    ((qp (sending true) 5).sendq.map isRead = [true] ∧ sentAt (qp (sending true) 5) 20 = some 0 ∧
      20 = (20 + (qp (sending true) 5).rxData.length / qpMtu (qp (sending true) 5)) % 2 ^ 24) ∧
    rateOn (sending false) = true ∧ rateOn { sending false with csr := [(netBase, 0)] } = false := by decide +kernel
theorem test_rx_ack : after (exec (.rxAck (pkt 20)) (sending false)) (fun t => (qp t 5).sendq.map (·.psn)) = some [21] ∧
    after (exec (.rxAck (pkt 21)) (sending false)) (fun t => (qp t 5).sendq.map (·.psn)) = some [] := by decide +kernel
theorem test_rx_nak : after (exec (.rxNak (pkt 21) 0) (sending false)) (fun t => ((qp t 5).sendq.map (·.psn), cget t 0x400208)) = some ([21], 1) ∧
    after (exec (.rxNak (pkt 20) 2) (sending false)) (fun t => (qp t 5).state) = some .error := by decide +kernel
theorem test_rx_read_response : after (exec (.rxReadResponse (pkt 20) [7, 8]) (sending true)) (fun t => (qp t 5).sendq.length) = some 0 ∧
    after (exec (.rxReadResponse (pkt 21) [7, 8]) (sending true)) (fun t => (qp t 5).sendq.length) = some 1 := by decide +kernel
/-- A CNP is counted and halves the rate: alpha is 1 at first. -/
theorem test_rx_cnp : after (exec (.rxCnp (pkt 0)) (sending false)) (fun t => (cget t 0x400218, (qp t 5).rate, (qp t 5).target)) = some (1, 50, 100) := by
  decide +kernel

/-- The same with its tries used, the other port, and paths tried. -/
def retried (tries other paths : Nat) : State :=
  modQp5 (sending false) fun x => { x with tries := tries, other := other, pathsTried := paths }
where
  /-- Change queue pair 5. -/
  modQp5 (s : State) (f : Qp → Qp) : State := setQp s 5 (f (qp s 5))

theorem witness_NetworkTimers :
    (fast (retried 0 255 0) = true ∧ qpLive (retried 0 255 0) 5 = true ∧ (qp (retried 0 255 0) 5).sendq ≠ [] ∧
      (qp (retried 0 255 0) 5).tries < qpRetry (qp (retried 0 255 0) 5) ∧ qpRetry (qp (retried 7 8 0) 5) ≤ 7 ∧
      (qp (retried 7 8 0) 5).other = 8 ∧ (port (retried 7 8 0) 8).state = .up ∧ (qp (retried 7 8 0) 5).pathsTried = 0 ∧
      (qp (retried 7 255 1) 5).pathsTried ≠ 0 ∧ rateOn (retried 0 255 0) = true) ∧
    (port netUp 4).state = .up ∧ netUp.drl.rails = true ∧ portsRun netUp = true ∧ (port netUp 9).enable = true ∧ (port netUp 9).state = .down ∧
    saSpent (port netUp 9) = false := by decide +kernel
/-- The same with port 4 paused. -/
def pausedNet : State := setPort netUp 4 { port netUp 4 with paused := true }
theorem witness_NetworkTimers_more : (port pausedNet 4).paused = true ∧ (qp pausedNet 5).port = 4 ∧
    wbits (cget netUp netBase) 10 8 ≠ 7 := by decide +kernel
/-- Nothing is sent while the port is paused; its end sends it. -/
theorem test_paused_send : (qp (send pausedNet 5 .hostWrite 5 0 [1]) 5).sendq = [] ∧
    after (exec (.pfcPauseExpiry 4) (send pausedNet 5 .hostWrite 5 0 [1])) (fun t => (qp t 5).sendq.map (·.data)) = some [[1]] := by decide +kernel
theorem test_ack_timeout : after (exec (.ackTimeout 5) (retried 0 255 0)) (fun t => ((qp t 5).tries, cget t 0x400208)) = some (1, 1) ∧
    after (exec (.ackTimeout 5) (retried 7 255 1)) (fun t => (qp t 5).state) = some .error := by decide +kernel
theorem test_rate_timers : after (exec (.alphaTimer 5) (sending false)) (fun t => decide ((qp t 5).alpha < 1)) = some true ∧
    after (exec (.rateTimer 5) (sending false)) (fun t => (qp t 5).stage) = some 1 ∧
    after (exec (.rateBytesSent 5) (sending false)) (fun t => (qp t 5).stage) = some 1 := by decide +kernel
theorem test_pause : after (exec (.rxPfcPause 4 (wbits (cget netUp netBase) 10 8)) netUp) (fun t => (port t 4).paused) = some true ∧
    after (exec (.rxPfcPause 4 7) netUp) (fun t => (port t 4).paused) = some false ∧
    after (exec (.pfcPauseExpiry 4) (setPort netUp 4 { port netUp 4 with paused := true })) (fun t => (port t 4).paused) = some false := by decide +kernel
theorem test_port : after (exec (.portDown 4) netUp) (fun t => (port t 4).state) = some .training ∧
    after (exec (.portUp 9) netUp) (fun t => (port t 9).state) = some .up := by decide +kernel

-- Votes, verdicts and updates (R381 to R401)

/-- A message of a step in hand, from device 9 in epoch 3. -/
def stepMsg (type a : Nat) : InMsg := { sender := 9, window := tallyHeader type 0 0 3 1 9 a 0 }

/-- READY with run 0 and its step 1 as given, the device alone, and messages in hand. -/
def voting (f : StepSt → StepSt) (ms : List InMsg) : State :=
  let s := running1 1 [] (readyToStart 2)
  let x : StepSt := { run := 0, step := 1, self := 9, epoch := 3, isOpen := true, sect := block 64 [(20, 4, 50)] }
  { s with cen := { s.cen with steps := [f x], inbox := ms } }

/-- The take of the STEP has ended, and its verdict is due from device 4, peer entry 5. -/
def verdictDue : State :=
  let s := voting (fun x => { x with closed := true, isOpen := false, members := [4096 * 4 + 5] }) []
  { s with intake := { s.intake with takes := [take3 2] } }

theorem witness_StepMessages :
    (∀ ty ∈ [2, 3, 4], let s := voting id [stepMsg ty 1]
     ready s = true ∧ brokenMsg s (stepMsg ty 1) = false ∧ (runById s (hRun ((stepMsg ty 1).window.take 64))).isSome = true ∧
     (stepSt s (hRun ((stepMsg ty 1).window.take 64)) (hStep ((stepMsg ty 1).window.take 64))).map (fun x => (x.isOpen, x.epoch)) = some (true, 3) ∧
     hEpoch ((stepMsg ty 1).window.take 64) = 3 ∧ hType ((stepMsg ty 1).window.take 64) = ty) ∧
    (let m : InMsg := { sender := 9, window := zeros 64 }
     (voting id [m]).cen.inbox[0]? = some m ∧ brokenMsg (voting id [m]) m = true) ∧
    (let m : InMsg := { sender := 9, window := tallyHeader 2 0 0 4 1 9 0 0 }
     brokenMsg (voting id [m]) m = false ∧ hEpoch (m.window.take 64) ≠ 3) ∧
    (let s := voting (fun x => { x with counted := [9] }) []
     ready s = true ∧ (s.cen.steps.find? fun x => x.run = 0 ∧ x.isOpen ∧ x.self ∈ x.counted ∧ x.closeUs ≠ 0).isSome = true ∧
     (s.cen.runs.map Run.id) = [0]) ∧
    (headEntry verdictDue 1 = some (headed 2) ∧ takeOfCmd verdictDue 1 0 = some (take3 2) ∧ ready verdictDue = true ∧
      (match stepRun verdictDue (headed 2), stepSt verdictDue 0 1 with
       | some r, some x => if r.id = 0 then missingParty r x else none
       | _, _ => none) = some 4) := by decide +kernel
/-- The only member's REPORT makes the verdict, UPDATE; it is sent to the device itself. -/
theorem test_report : after (exec (.report 0) (voting id [stepMsg 2 0])) (fun t => t.cen.inbox.map fun m => (hType m.window, fld m.window 24 8)) =
    some [(3, 1)] ∧ after (exec (.report 0) (voting id [stepMsg 2 1])) (fun t => t.cen.inbox.map fun m => (hType m.window, fld m.window 24 8)) =
    some [(3, 2)] := by decide +kernel
theorem test_verdict : after (exec (.verdict 0) (voting id [stepMsg 3 2])) (fun t => (t.cen.steps.map (·.verdict), cget t 0x420230)) = some ([2], 1) := by
  decide +kernel
theorem test_signs : after (exec (.signs 0) (voting id [stepMsg 4 0])) (fun t => t.cen.steps.map (·.signsFrom)) = some [[9]] := by decide +kernel
theorem test_verdict_timeout : after (exec (.verdictTimeout 1) verdictDue) (fun t => t.intake.log.map fun e => (e.status, fld e.comp 24 2)) =
    some [(0x0C, 5)] := by decide +kernel

/-- A frozen LAG-0 shard whose step's take has ended; nothing of it is updated yet, and its stack has one Pool region. -/
def syncDue : State :=
  let s := running1 0 [] (readyToStart 2)
  { s with intake := { s.intake with takes := [{ take3 2 with roots := [(0, rootBytes 0)] }] }, regions := [(0x1000005, 1)] }

theorem witness_ShardUpdates :
    (let e := headed 2
     ready syncDue = true ∧ (syncDue.intake.takes.find? fun t => t.run = 0 ∧ t.ended ∧ ¬ t.killed ∧ t.roots.any (fun e => e.1 = 0)) =
       some { take3 2 with roots := [(0, rootBytes 0)] } ∧ findEntry syncDue 1 0 = some e ∧ (stepSt syncDue 0 e.step).isSome = true ∧
     rtLag (rootBytes 0) = 0 ∧ updateOf syncDue 0 0 1 = none ∧
     (match syncDue.cen.runs[0]?, stepSt syncDue 0 1 with | some r, some x => hasSigns r x | _, _ => false) = true) ∧
    (let s := running1 1 [] up
     (match s.cen.runs[0]? with
      | some r => (nextSlow s r 0).map fun x => hasSigns r x && decide (0 < r.nshards ∧ 1 ≤ rtLag (newestRoot s r 0)) && layerDone s r 0
      | none => none) = some true) ∧
    (let s := running1 1 [upd0 1 .running] up
     (match s.cen.runs[0]? with | some r => activeUpdate s r 0 .running | none => none) = some (upd0 1 .running) ∧ (stepSt s 0 1).isSome = true ∧
     updateLost s (upd0 1 .running).base = none) := by decide +kernel
theorem test_updates_start : after (exec (.syncUpdate 0 0) syncDue) (fun t => t.upu.updates.map fun u => (u.stream, u.base)) = some [(1, rootBytes 0)] ∧
    after (exec (.slowUpdate 0 0) (running1 1 [] up)) (fun t => t.upu.updates.map fun u => (u.stream, u.state)) = some [(256, .running)] := by
  decide +kernel
/-- A FROZEN shard's update copies its root. -/
theorem test_update_done : after (exec (.updateDone 0 0) (running1 1 [upd0 1 .running] up)) (fun t =>
    (t.upu.updates.map fun u => (u.state, u.root), t.cen.runs.map fun r => tget 0 r.done 0)) = some ([(.pending, rootBytes 1)], [1]) := by
  decide +kernel
/-- The close timer closes the step: the REPORT goes to the verdict holder. -/
theorem test_close_timer : after (exec (.stepCloseTimer 0) (voting (fun x => { x with counted := [9] }) [])) (fun t =>
    (t.cen.steps.map (·.closed), t.cen.inbox.map fun m => hType m.window)) = some ([true], [2]) := by decide +kernel

-- Power, resets and freezes (R321 to R327, R436 to R457, R472 to R477)

/-- READY with pins and phases changed. -/
def drl (f : Drl → Drl) : State := { up with drl := f up.drl }

/-- The facts of a cold start at which everything works. -/
def goodBoot : BootFacts := { pllLock := true, hubLinks := true, deadDies := [], deadMems := [], journalErase := true, bankOk := true, badCores := [] }

/-- The flush runs, ARMED as given. -/
def flushing (armed : Nat) : State := { drl (fun d => { d with phase := .flushing }) with csr := [(0x208000, BitVec.ofNat 64 (2 * armed))] }

theorem witness_FlushAndRails :
    (up.drl.rails = true ∧ up.drl.halted = false ∧ up.drl.phase ≠ .flushing ∧ up.drl.phase ≠ .flushed ∧ up.drl.pwrFailN = true ∧ up.drl.coldResetN = true ∧
      up.drl.thermTripN = true ∧ (failPart up 2).drl.halted = false) ∧
    ((flushing 1).drl.phase = .flushing ∧ (cget (flushing 1) 0x208000).getLsbD 1 = true ∧ (cget (flushing 0) 0x208000).getLsbD 1 = false ∧
      ([(flushing 1).intake.turn, 1 - (flushing 1).intake.turn].find? fun a => decide (area (flushing 1) a = 0)) = some 0) ∧
    (let s := drl fun d => { d with phase := .flushed, pwrFailN := false, rails := false }
     s.drl.pwrFailN = false ∧ s.drl.phase = .flushed ∧ s.drl.rails = false ∧ s.drl.thermTripN = true) ∧
    (drl fun d => { d with phase := .flushed, coldResetN := false, rails := false }).drl.coldResetN = false ∧
    (let s := drl fun d => { d with phase := .flushed, rails := false, thermTripN := false }
     s.drl.rails = false ∧ s.drl.thermTripN = false) ∧ ((flushing 1).drl.halted = false ∧ 18 ∉ bankCtls ∧ ctlOf 0x84000000000 = some 18) := by decide +kernel
theorem test_flush : after (exec .pwrFail up) (fun t => (t.drl.phase, t.drl.pwrFailN)) = some (.flushing, false) ∧
    after (exec .coldResetAssert up) (fun t => (t.drl.phase, t.drl.coldResetN)) = some (.flushing, false) ∧
    after (exec (.thermalTrip 3) up) (fun t => (t.drl.phase, t.drl.thermTripN)) = some (.flushing, false) ∧
    after (exec (.railFault 9) up) (fun t => (t.drl.phase, t.drl.pwrFailN)) = some (.flushing, false) := by decide +kernel
/-- The flush writes the journal only when ARMED. -/
theorem test_flush_done : after (exec .flushDone (flushing 1)) (fun t => (t.drl.phase, (tget {} t.intake.journals 0).valid, t.intake.turn)) = some (.flushed, true, 1) ∧
    after (exec .flushDone (flushing 0)) (fun t => (t.drl.rails, (tget {} t.intake.journals 0).valid)) = some (false, false) := by decide +kernel
theorem test_keeper : after (exec .keeperRailFall { drl (fun d => { d with phase := .flushed, pwrFailN := false }) with mem := [(5, 1)], flash := [(7, 1)] })
    (fun t => (t.mem, t.flash)) = some ([], [(7, 1)]) := by decide +kernel
theorem test_rail_restore : after (exec (.railRestore 1) (drl fun d => { d with phase := .flushed, rails := false, coldResetN := false })) (fun t =>
    (t.drl.rails, wbits (cget t 0x100008) 7 0)) = some (true, 1) := by decide +kernel

/-- After a warm reset's start: the entries are gone through. -/
def warm (started : Bool) : State := drl fun d => { d with phase := .warm, started := started, warmCause := 2, warmResetN := false }

theorem witness_StartsAndResets :
    (State.reset.drl.rails = true ∧ State.reset.drl.started = false ∧ State.reset.drl.phase = .rom ∧ (∀ d ∈ goodBoot.deadDies, d < 8) ∧
      (∀ k ∈ goodBoot.deadMems, k < 80) ∧ ∀ c ∈ goodBoot.badCores, c < 208) ∧
    (let s := { drl fun d => { d with phase := .logbook } with csr := [(0x208000, 2)] }
     s.drl.rails = true ∧ s.drl.started = true ∧ (cget s 0x208000).getLsbD 1 = true ∧ s.drl.warmResetN = true ∧ s.drl.warmDue = false ∧ s.drl.freezeN = true) ∧
    (up.drl.warmResetN = true ∧ up.drl.rails = true ∧ up.drl.phase = .ready ∧ up.drl.halted = false) ∧
    ((warm false).drl.phase = .warm ∧ (warm false).drl.started = false ∧ (warm false).drl.halted = false) ∧
    ((warm true).drl.started = true ∧ ∀ p ∈ (warm true).drl.pcores.map (·.state), p ≠ .testing) := by decide +kernel
theorem test_cold_ready : after (exec .coldReady { drl (fun d => { d with phase := .logbook }) with csr := [(0x208000, 2)] }) (fun t =>
    (stream t 0).qp) = some 4096 := by decide +kernel
theorem test_warm : after (exec .warmResetAssert up) (fun t => (t.drl.phase, t.drl.warmCause)) = some (.warm, 2) ∧
    after (exec .warmResetRelease { warm false with sram := [(7, 1)], mem := [(7, 1)] }) (fun t => (t.drl.started, t.sram, t.mem)) =
      some (true, [], [(7, 1)]) := by decide +kernel

/-- READY with PIN_EN, and the freeze as given. -/
def frozen (f : Drl → Drl) : State := { drl f with csr := [(0xC000000, 1)] }

theorem witness_Freezes :
    (∀ z ∈ [FrzState.running, .frozen], let s := frozen fun d => { d with frz := z }
     s.drl.rails = true ∧ s.drl.phase = .ready ∧ s.drl.halted = false ∧ s.drl.freezeN = true ∧ pinEnabled s = true ∧ s.drl.frz = z) ∧
    (frozen fun d => { d with freezeN := false }).drl.freezeN = false ∧
    (let s := { frozen fun d => { d with freezeN := false, frzPin := true } with kc := 25000001 }
     s.drl.freezeN = false ∧ s.drl.frzPin = true ∧ s.drl.frzStopKc + 25000000 < s.kc) ∧ (frozen fun d => { d with frzHold := true }).drl.frzHold = true ∧
    (frozen fun d => { d with frz := .reading }).drl.frz = .reading ∧
    (let s := frozen fun d => { d with frz := .frozen, frzRead := true }
     s.drl.frzRead = true ∧ s.drl.frzPin = false ∧ s.drl.frzHold = false ∧ s.drl.frzCmd ≠ 2) ∧
    (let s := frozen fun d => { d with frz := .frozen, frzRead := true, frzPin := true }
     s.drl.frz = .frozen ∧ s.drl.frzPin = true) := by decide +kernel
theorem test_pin_freeze : after (exec .pinFreeze (frozen id)) (fun t => (t.drl.frz, t.drl.frzCause, t.drl.frzPin)) = some (.reading, 1, true) := by
  decide +kernel
/-- The pin's rise thaws once the read-out has ended; so does the end of HOLD_US. -/
theorem test_thaw : after (exec .freezePinRelease (frozen fun d => { d with frz := .frozen, frzRead := true, frzPin := true, freezeN := false })) (fun t => t.drl.frz) =
      some .running ∧
    after (exec .freezeHoldExpiry (frozen fun d => { d with frz := .frozen, frzRead := true, frzHold := true })) (fun t => t.drl.frz) = some .running := by
  decide +kernel
/-- One kc after the limit the pin's rise thaws nothing. -/
theorem test_late_pin : after (exec .freezePinRelease { frozen fun d => { d with frz := .frozen, frzRead := true, frzPin := true, freezeN := false }
    with kc := 25000001 }) (fun t => (t.drl.frz, t.drl.frzPin, t.drl.freezeN)) = some (.frozen, true, true) := by decide +kernel
theorem test_readout : after (exec (.readoutEnd []) (frozen fun d => { d with frz := .reading, frzPin := true })) (fun t => (t.drl.frz, t.drl.frzRead)) =
      some (.frozen, true) ∧
    after (exec .freezeEnd (frozen fun d => { d with frz := .frozen, frzRead := true, frzPin := true })) (fun t => (t.drl.phase, t.drl.warmCause)) =
      some (.warm, 3) := by decide +kernel

-- Faults and registers (R4 to R8, R459 to R471, R478, R511)

theorem witness_FaultResponses :
    (fast up = true ∧ (pcoreOf up 0).state = .mapped ∧ (pcoreOf up 24).state = .spare) ∧
    (pcoreOf { up with drl := { up.drl with pcores := [{ state := .testing, lcore := 255, fences := 1 }] } } 0).state = .testing ∧
    ((dieAcross 0 1).isSome = true ∧ up.fab.deadLinks = []) ∧
    (areaReady { up with intake := { areas := [(0, 3), (1, 3)] } } = false) ∧
    (area { up with intake := { areas := [(0, 2)] } } 0 = 2) ∧
    ({ up with intake := { rebuild := some 1, copyA := 1, copyAok := false } } : State).intake.rebuild = some 1 := by decide +kernel
theorem test_core_faults : after (exec (.coreArrayFault 0 0) up) (fun t => (pcoreOf t 0).state) = some .fenced ∧
    after (exec (.fenceFail 0) up) (fun t => t.drl.phase) = some .warm ∧
    after (exec (.coreTestDone 0 true) { up with drl := { up.drl with pcores := [{ state := .testing, lcore := 255, fences := 1 }] } }) (fun t =>
      decide ((pcoreOf t 0).state ≠ .testing)) = some true := by decide +kernel
/-- A hub that fails halts the device; the watchdog's standby acts through a warm reset; a link that fails resets the device. -/
theorem test_unit_faults : after (exec (.hubFailure 1) up) (fun t => t.drl.halted) = some true ∧
    after (exec .derlerWatchdog up) (fun t => (t.drl.phase, t.drl.standby)) = some (.warm, true) ∧
    after (exec (.linkD2dFault 0 1) up) (fun t => (t.drl.phase, t.fab.deadLinks)) = some (.warm, [(0, 1), (7, 0)]) ∧
    after (exec (.upuArrayFault 3) up) (fun t => t.drl.phase) = some .ready := by decide +kernel
theorem test_journal_areas : after (exec (.journalFlashFail 0) { up with intake := { areas := [(0, 2)] } }) (fun t => area t 0) = some 3 ∧
    after (exec .journalEraseRetry { up with intake := { areas := [(0, 3), (1, 3)] } }) (fun t => (area t 0, area t 1)) = some (2, 2) ∧
    after (exec (.journalAreaErased 0) { up with intake := { areas := [(0, 2)] } }) (fun t => area t 0) = some 0 := by decide +kernel
theorem test_rebuild_done : after (exec .logbookRebuildDone { up with intake := { rebuild := some 1, copyA := 1, copyAok := false } }) (fun t =>
    (t.intake.copyAok, t.intake.rebuild)) = some (true, none) := by decide +kernel

theorem test_csr_error : after (exec (.csrWrite 0x7FFFFF8 1) up) (fun t => t.csrEnd) = some 0x11 ∧
    after (exec (.csrWrite 0xC000000 1) up) (fun t => t.csrEnd) = some 0 := by decide +kernel
theorem witness_RegisterWrites : ready up = true ∧ regAt 0x7FFFFF8 = none ∧ (writeCsr up 0xC000000 1).isSome = true ∧
    (pcoreOf (setPcore up 3 { pcoreOf up 3 with state := .fenced }) 3).state = .fenced := by decide +kernel
/-- 0x7FFFFF8 is no register; FREEZE_CFG takes PIN_EN; a fenced core is tested again. -/
theorem test_csr_write : after (exec (.csrWrite 0x7FFFFF8 1) up) (fun t => cget t 0x7FFFFF8) = some (cget up 0x7FFFFF8) ∧
    after (exec (.csrWrite 0xC000000 1) up) (fun t => pinEnabled t) = some true ∧
    after (exec (.reinitCore 3) (setPcore up 3 { pcoreOf up 3 with state := .fenced })) (fun t => (pcoreOf t 3).state) = some .testing := by decide +kernel
/-- Queue pair 5 waits to move from port 4. -/
def movingNet : State := setPort (networked { state := .migrating, other := 8 }) 8 {}

theorem witness_reinit_waits : ready movingNet = true ∧ (port movingNet 4).enable = true ∧ portMoving movingNet 4 = true ∧ portMoving netUp 4 = false := by
  decide +kernel
/-- The move's end lets the re-initialisation begin. -/
theorem test_reinit_waits : after (exec (.reinitPort 4) movingNet) (fun t => ((port t 4).state, (port t 4).reinit)) = some (.up, true) ∧
    after (exec (.portUp 8) (reinitPort movingNet 4)) (fun t => ((port t 4).state, (port t 4).reinit, (qp t 5).port)) = some (.down, false, 8) := by decide +kernel
theorem test_reinit : after (exec (.reinitPort 4) netUp) (fun t => (port t 4).state) = some .down ∧
    after (exec (.reinitLpc 0) { up with memctl := [(16, { state := .ready })] }) (fun t => (groupOf t 16 0).retrain) = some (some 0) := by decide +kernel

-- Reset and the invariant of memory

theorem witness_StepKeepsMemoryForm : memForm State.reset := by simp [memForm, memWf, tabWf, State.reset]
/-- Division, its remainder and their corner at 0, as the ALU statement uses them. -/
theorem witness_AluResults : (0 : W64) = 0 ∧ (3 : W64) ≠ 0 ∧ regAfter (.alu iss 0x0F 3 1 2) [(1, 7), (2, 2)] 3 = some (3, 1) := by decide +kernel

-- The invariants of the cores

/-- Core 0 issues LOOP as its reel's fourth loop; a barrier counter and an issue queue stand at their bounds. -/
def nearLimits : State :=
  atInstr (.loop iss 1 2 3) [(1, 7), (2, 2)] { stacked [1, 2, 3, 4, 5, 6, 7] [loop1 0, loop1 0, loop1 0] with
    bars := [(255, waited 32 65535)], queues := [(4, List.replicate 16 (qd xfr0 [] false))] }

theorem witness_StepKeepsCoreLimits : (let s := { nearLimits with pending := [.loop iss 1 2 3] }
    (∀ e ∈ s.cores, (∀ r ∈ e.2.reels, r.2.loops.length ≤ 4 ∧ r.2.rets.length ≤ 8) ∧
      (∀ b ∈ e.2.bars, b.2.count ≤ 65535 ∧ b.2.waiters.length ≤ 32) ∧ ∀ q ∈ e.2.queues, q.2.length ≤ keyDepth q.1) ∧
    after (step s) (fun t => (runningReel t 0).loops.length) = some 4) := by decide +kernel
/-- The map after a cold start: logical position 24 d + i on the i-th core of die d. -/
theorem witness_StepKeepsCoreMap : (let s := { up with pending := [.thermalTrip 3] }
    s.drl.pcores.length = 208 ∧ (∀ i < 208, (pcoreOf s i).state = .mapped → (pcoreOf s i).lcore / 24 = i / 26 ∧
      ∀ j < 208, (pcoreOf s j).state = .mapped → (pcoreOf s j).lcore = (pcoreOf s i).lcore → j = i) ∧
    after (step s) (fun t => t.drl.pcores.length) = some 208) := by decide +kernel
/-- The PC of reel 0 is 5 in code of one word. -/
theorem witness_FinlenTraps_range : (let s := at0 { run0 with code := [0], reels := [(0, { started := true, pc := 5 })] }
    csqLive s 0 = true ∧ (runningReel s 0).started = true ∧ (runningReel s 0).hold = .free ∧ (Machine.core s 0).code.length ≤ (runningReel s 0).pc ∧
    after (exec (.nop iss) s) (fun t => ((Machine.core t 0).trapped, wbits (cget t (csqBase 0 + 0x10)) 7 0, (cget t (csqBase 0 + 0x20)).toNat)) =
      some (true, 0x14, 5)) := by decide +kernel

-- More witnesses of clauses

/-- A tile with prediction and a check wait for 2 at counter 9 of MU 1. -/
def checkedTile : List Byte := tile 0 0x90 [(16, 1, 0x11), (104, 4, 0x4000), (108, 4, 8), (10, 1, 0x49), (11, 1, 2), (12, 1, 0xFF)]

theorem witness_MxePassStarts_check : (let s := at0 (mxeQueued checkedTile)
    mZp checkedTile = true ∧ (dAuxb checkedTile).n ≠ 0 ∧ (cfgOf s 0 (mxeBase 0)).getLsbD 0 = true ∧
    (readyHead (Machine.core s 0) 0).isSome = true ∧ (barOf (Machine.core s 0) (dAuxb checkedTile).mu (dAuxb checkedTile).ctr).waiters.length < 32 ∧
    after (exec (.mxePassStart 0) s) (fun t => ((Machine.core t 0).mxe.pass.map (·.checkOk),
      (barOf (Machine.core t 0) (dAuxb checkedTile).mu (dAuxb checkedTile).ctr).waiters.map fun w => (w.who, w.n))) =
        some (some false, [(.mxeCheck, 2)])) := by decide +kernel
/-- An EPILOGUE drain that has begun, in tile buffer 2; `drop` says that its rows go nowhere. -/
def epilogued (drop : Bool) : State :=
  modCore (draining 0) 0 fun x => { modMxe x (fun m => { m with drains := m.drains.map fun d => { d with tb := some 2, drop := drop } }) with
    vce := { tbState := [(2, 1)] } }

theorem witness_MxePassAndDrainEnd_epilogue :
    (∀ p ∈ [true, false], ((Machine.core (epilogued p) 0).mxe.drains.map fun d => (mDrain d.desc.bytes, d.tb, d.drop)) = [(0, some 2, p)] ∧
      after (exec (.mxeDrainEnd 0) (epilogued p)) (fun t => ((Machine.core t 0).mxe.drains.length, freeTb (Machine.core t 0).vce)) = some (0, some 0)) ∧
    ((Machine.core (draining 0) 0).mxe.drains.map (·.tb)) = [none] ∧
    (Machine.core (beginDrain (draining 0) 0) 0).vce.epi = [some 0] := by decide +kernel
/-- The queued arrival waits for word 1 of MU 0, which the circuit has not brought. -/
theorem witness_FabricMoves_after :
    (let a : Arrival := { src := 0, id := 1, csq := none, dst := 0, mu := 1, ctr := 3, n := 1 }
     let q : Item := { data := [], reel := 0, gen := false, mark := false, arr := some a }
     frontGoes [q] = true ∧ frontGoes [{ q with after := [1] }] = false ∧ frontGoes [] = false ∧
     (let s := { routed with fab := { routed.fab with circ := [(2, [{ q with after := [1] }])] } }
      after (exec (.circuitWord 0 2 0x40 0x80 0 false false) s) (fun t => (memRead t.sram (sramKey 0 0x400080), (tget [] t.fab.circ 2).map (·.after))) =
        some (9, [[]]))) := by decide +kernel
/-- A load from a slice of the slow tier whose root the take latched. -/
def slowLoad : State :=
  let s := xferring (load0 []) id
  { s with intake := { s.intake with takes := [{ take7 with latch := [(0x80010000000, rootBytes 1)] }] },
           mem := [(0x80008000000, 7)] ++ cells 0x80020000000 [0, 8, 0, 8] }

theorem witness_MemoryStreams_slow : inSlowSlice slowLoad 0 0x80008000000 = true ∧ xDir (load0 []) = 0 ∧ piece0.off + piece0.len ≤ xLen (load0 []) ∧
    (∀ k < 3, (placePiece slowLoad (load0 []) piece0 (some k) (zeros 64)).isOk = true) ∧
    (readMem slowLoad 0x80008000000 64).1 = .done := by decide +kernel
/-- The converter's kind of that load is some kind, whatever the free value is. -/
theorem witness_pieceKind : (pieceKind slowLoad 0 (load0 []) piece0).isSome = true := by
  have h : xDir (load0 []) = 0 ∧ inSlowSlice slowLoad 0 (xSrc (load0 []) + piece0.row * xSpitch (load0 []) + piece0.off) = true := by decide +kernel
  simp [pieceKind, h]
/-- An L wait is tried without an event; a Moving image is not among those. -/
theorem witness_CommandTurns_retry :
    (let s := { loadDue with loader := { loadDue.loader with due := [], forLen := [.load 1 0 3 []] } }
     ready s = true ∧ s.intake.takes = [] ∧ s.loader.waiting.find? (· ∈ s.loader.forLen) = some (.load 1 0 3 [])) := by decide +kernel
/-- The CRC-8 of SMBus (x^8 + x^2 + x + 1): its published check value over the characters 1 to 9 is 0xF4. -/
theorem test_pec : pec [0x31, 0x32, 0x33, 0x34, 0x35, 0x36, 0x37, 0x38, 0x39] = 0xF4 := by decide +kernel
/-- The rails of package 2 fall with PWR_FAIL_N; package 0 keeps its bytes. -/
theorem test_rails_drop : after (exec .pwrFail { up with mem := [(0x80008000000, 7), (0x84000000000, 9)] }) (fun t =>
    (devByte t 0x80008000000, devByte t 0x84000000000)) = some (7, 0) := by decide +kernel
/-- A packet for a queue pair that the device does not have is dropped and counted. -/
theorem witness_InboundRequests_unknown : 4352 ≤ ({ pkt 10 with qp := 4352 } : Pkt).qp ∧
    after (exec (.rxRdmaWrite { pkt 10 with qp := 4352 } 0x0A 0x10005 0x80008000040 [1, 2]) netUp) (fun t => cget t (netBase + 0x200)) = some 1 := by
  decide +kernel
/-- An arrival from core 1 at core 0. -/
theorem witness_BarrierCounters_remote : (let s := { arriving 0 with fab := { arrivals := [{ src := 1, id := 1, csq := none, dst := 0, mu := 3, ctr := 63, n := 2 }] } }
    fast s = true ∧ s.fab.arrivals.map (fun a => decide (a.src ≠ a.dst)) = [true] ∧
    after (exec (.barrierArrival 0) s) (fun t => (barOf (Machine.core t 0) 3 63).count) = some 2) := by decide +kernel

end Sys2Proof.Tests
end

/-! PROOFS. The scope: the registers as a core's own instructions and the command port reach them, and the state that reset leaves. -/
namespace Sys2Proof.Machine

open Sys2Proof

-- CSRR and CSRW (R7, R232)

/-- The meaning of CSRR. -/
theorem exec_csrr (q : Issue) (rd : Nat) (imm : W32) (s : State) : exec (.csrr q rd imm) s = execCsrr q rd imm s := rfl

/-- The meaning of CSRW. -/
theorem exec_csrw (q : Issue) (ra : Nat) (imm : W32) (s : State) : exec (.csrw q ra imm) s = execCsrw q ra imm s := rfl

/-- A free value may be taken before or after an event is counted. -/
theorem takeFree_bump (s : State) (a n : Nat) : (takeFree (bump s a n)).2 = bump (takeFree s).2 a n := (rfl)

/-- CSRR of a register writes what the read shows to rd, and the reel goes on (R232). -/
theorem exec_csrr_of_some {q : Issue} {rd : Nat} {imm : W32} {v : W64} {s : State} (h : runs q (.csrr q rd imm) s)
    (hv : csrRead (bump s (csqBase q.core + 0x48) 1) (ownCsr q.core imm) = some v) : exec (.csrr q rd imm) s =
      .next (modRunning (bump (takeFree s).2 (csqBase q.core + 0x48) 1) q.core fun r => (r.set rd v).next 2) := by
  rw [exec_csrr, execCsrr, finlenOp, finlen_runs h]
  simp only [hv, takeFree_bump]

/-- CSRR of an offset without a register ends the core's command with ADDR_UNMAPPED (R7, R319). -/
theorem exec_csrr_of_none {q : Issue} {rd : Nat} {imm : W32} {s : State} (h : runs q (.csrr q rd imm) s)
    (hv : csrRead (bump s (csqBase q.core + 0x48) 1) (ownCsr q.core imm) = none) : exec (.csrr q rd imm) s =
      .next (accessFail (bump s (csqBase q.core + 0x48) 1) q.core .unmapped (ownCsr q.core imm)) := by
  rw [exec_csrr, execCsrr, finlenOp, finlen_runs h]
  simp only [hv]

/-- A well-formed CSRW names a register of its own core's block, never one of the die's common block (R232). -/
theorem ownCsr_of_csrw_wf {q : Issue} {ra : Nat} {imm : W32} (h : (Instr.csrw q ra imm).wf) :
    ownCsr q.core imm = coreBase q.core + imm.toNat := by
  have hle : imm.toNat ≤ 0x80F8 := by
    simp only [Instr.wf, Bool.and_eq_true, decide_eq_true_eq] at h
    exact h.2
  have hbit : imm.getLsbD 20 = false := Nat.testBit_lt_two_pow (by omega)
  simp only [ownCsr, hbit]
  rw [if_neg (by simp), Nat.mod_eq_of_lt (by omega)]

/-- Masking a word with 32 ones keeps its low half. -/
theorem and_low32_eq (v : W64) : v &&& 0xFFFFFFFF = BitVec.ofNat 64 (v.toNat % 2 ^ 32) := by
  apply BitVec.eq_of_toNat_eq
  rw [BitVec.toNat_and, BitVec.toNat_ofNat, show (0xFFFFFFFF : W64).toNat = 2 ^ 32 - 1 from rfl, Nat.and_two_pow_sub_one_eq_mod]
  omega

/-- Voiding a bound, or leaving it, changes only the intake, which records it (R289). -/
theorem voidBound_ite_eq_modIntake (p : Prop) [Decidable p] (s : State) (c : Nat) :
    (if p then voidBound s c else s) = modIntake s fun _ => (if p then voidBound s c else s).intake := by
  unfold voidBound
  split
  · split <;> rfl
  · rfl

/-- CSRW stores the low half of ra in the register it names, and the reel goes on; what else it may change is the intake's record of the
bound (R232, R289). -/
theorem exec_csrw_of_runs {q : Issue} {ra : Nat} {imm : W32} {s : State} (h : runs q (.csrw q ra imm) s) :
    ∃ f, exec (.csrw q ra imm) s =
      .next (modRunning (cset (modIntake (bump s (csqBase q.core + 0x48) 1) f) (coreBase q.core + imm.toNat)
        (BitVec.ofNat 64 (((runningReel s q.core).get ra).toNat % 2 ^ 32))) q.core (·.next 2)) := by
  have ⟨⟨_, hwf, _⟩, _⟩ := h
  rw [exec_csrw, execCsrw, finlenOp, finlen_runs h]
  simp only [ownCsr_of_csrw_wf hwf, runningReel_bump, and_low32_eq, stepPc, wordsOf, Instr.long, if_true]
  exact ⟨_, by rw [voidBound_ite_eq_modIntake]⟩

/-- Settles O20, by the state that each form of the two instructions ends in. -/
theorem csrInstructions : Obligations.CsrInstructions := by
  unfold Obligations.CsrInstructions
  refine ⟨fun q rd imm v s h hv => ?_, fun q rd imm s h hv => exec_csrr_of_none h hv, fun q ra imm s h => ?_⟩
  · obtain ⟨hframe, -⟩ := frame_modRunning (takeFree s).2 q.core fun r => (r.set rd v).next 2
    exact ⟨_, exec_csrr_of_some h hv, hframe, by rw [runningReel_modRunning]; rfl⟩
  · obtain ⟨f, hexec⟩ := exec_csrw_of_runs h
    refine ⟨_, hexec, fun a => devByte_congr (by simp) (by simp) (by simp) a, fun d hd => by simp [hd], by simp [withReel], by simp, ?_, ?_⟩
    · simp
    · intro a hal hevt
      simp [hal, hevt]

-- Writes to registers (R7, R463)

/-- An event on a unit that exists, under its condition, takes effect. -/
theorem event_of {u c : Bool} (hu : u = true) (hc : c = true) (s t : State) : event u c s t = .next t := by
  rw [hu, hc, event_true]

/-- A write to CSR space at READY ends as the write of a register does, or with ADDR_UNMAPPED (R7). -/
theorem exec_csrWrite {s : State} (h : ready s = true) (a : Nat) (v : W64) : exec (.csrWrite a v) s =
    .next ((writeCsr s a v).elim { s with csrEnd := 0x11 } fun t => { t with csrEnd := 0 }) := by
  rw [show exec (.csrWrite a v) s = execCsrWrite a v s from rfl, execCsrWrite, h, when_true]
  cases writeCsr s a v <;> rfl

/-- No register, no write (R7). -/
theorem writeCsr_of_regAt_none {a : Nat} (h : regAt a = none) (s : State) (v : W64) : writeCsr s a v = none := by
  simp only [writeCsr, h]

/-- Reading Derler's record of a core of the table after it is replaced. -/
theorem pcoreOf_setPcore {s : State} {c : Nat} (h : c < s.drl.pcores.length) (p : PCore) : pcoreOf (setPcore s c p) c = p := by
  simp [pcoreOf, setPcore, h]

/-- A core whose test begins is Testing, with the rest of its record as it was (R466). -/
theorem pcoreOf_beginTest {s : State} {c : Nat} (h : c < s.drl.pcores.length) :
    pcoreOf (beginTest s c) c = { pcoreOf s c with state := .testing } :=
  pcoreOf_setPcore h _

/-- A re-initialisation tests a core that is Fenced or Retired (R463). -/
theorem reinitCore_of_out {s : State} {c : Nat} (hc : c < 208) (h : (pcoreOf s c).state = .fenced ∨ (pcoreOf s c).state = .retired) :
    reinitCore s c = beginTest s c := if_pos ⟨hc, h⟩

/-- A re-initialisation of an enabled port waits while queue pairs move away from it, and else holds it Down (R463, R483). -/
theorem reinitPort_of_enable {s : State} {p : Nat} (hp : p < 20) (h : (port s p).enable = true) : reinitPort s p =
    if portMoving s p then setPort s p { port s p with reinit := true } else holdPort s p := by
  rw [reinitPort, if_neg (not_or.2 ⟨by omega, not_not.2 h⟩)]

/-- A port that is held Down is Down (R463). -/
theorem port_holdPort_state (s : State) (p : Nat) : (port (holdPort s p) p).state = .down := by
  simp [holdPort]

/-- Settles O59: at READY each write is the event that its name says, on a unit that exists. -/
theorem registerWrites : Obligations.RegisterWrites := by
  unfold Obligations.RegisterWrites
  intro s h
  refine ⟨fun a v ha => ?_, fun a v t ht => ?_, fun v => ?_, fun d v hd => ?_, fun c hc => ⟨?_, fun hout hlen => ?_⟩,
    fun p hp => ⟨?_, fun hon hmv => ?_, fun hon hmv => ?_⟩, fun u hu => ?_, fun k hk => ?_, fun k hk => ?_⟩
  · rw [exec_csrWrite h, writeCsr_of_regAt_none ha, Option.elim_none]
  · rw [exec_csrWrite h, ht, Option.elim_some]
  · show when_ (ready s) s _ = _
    rw [h, when_true]
  · exact event_of (decide_eq_true hd) h ..
  · exact event_of (decide_eq_true hc) h ..
  · rw [reinitCore_of_out hc hout, pcoreOf_beginTest hlen]
  · exact event_of (decide_eq_true hp) h ..
  · rw [reinitPort_of_enable hp hon, if_pos hmv]
  · rw [reinitPort_of_enable hp hon, if_neg (by simp [hmv])]
    exact ⟨rfl, port_holdPort_state s p⟩
  · rw [show restartUnit s u = reinitUpu s u from (if_pos hu).symm]
    exact event_of (decide_eq_true hu) h ..
  · rw [show reinitMem s k = writeReinit s 4 k from (if_pos hk).symm]
    exact event_of (decide_eq_true hk) h ..
  · rw [show reinitMem s (16 + k) = writeReinit s 5 k from (if_pos hk).symm]
    exact event_of (decide_eq_true hk) h ..

-- The state after reset (R5, R14, R189, R308)

/-- After reset every register holds the value of its Reset column. -/
@[simp] theorem cget_reset (a : Nat) : cget State.reset a = regReset a := rfl

/-- After reset every stream is as unlisted ones are. -/
@[simp] theorem stream_reset (n : Nat) : stream State.reset n = {} := rfl

/-- After reset every region is in its default state. -/
@[simp] theorem regionState_reset (g : Nat) : regionState State.reset g = regionDefault g := rfl

/-- The top 4 GiB of every package are Pool (R189): the device region lies below them. -/
theorem regionDefault_of_top {g k off : Nat} (h : decodeAddr (g * 0x10000) = .lpddr k off) (hoff : 0x1F00000000 ≤ off) :
    regionDefault g = 1 := by
  have hdev : deviceRegion k off = false := by
    simp only [deviceRegion, decide_eq_false_iff_not]
    omega
  simp [regionDefault, h, hdev, hoff]

/-- Every HBM3E region is Open (R189). -/
theorem regionDefault_of_hbm {g k off : Nat} (h : decodeAddr (g * 0x10000) = .hbm k off) : regionDefault g = 0 := by
  simp [regionDefault, h]

/-- After reset the first 24 cores of each die fill its row of logical positions, and the other two are its spares (R14; log 6). -/
theorem pcoreOf_reset {i : Nat} (h : i < 208) : pcoreOf State.reset i =
    if i % 26 < 24 then { state := .mapped, lcore := 24 * (i / 26) + i % 26, fences := 0 }
    else { state := .spare, lcore := 255, fences := 0 } := by
  simp [pcoreOf, State.reset, resetPcores, h]

/-- Settles O60, from the tables that reset leaves empty and the map that it fills. -/
theorem resetState : Obligations.ResetState := by
  unfold Obligations.ResetState
  refine ⟨rfl, rfl, rfl, rfl, cget_reset, by decide, by decide, by decide, by decide, by decide, fun st => ?_,
    fun g k off h hoff => ?_, fun g k off h => ?_, fun i hi => pcoreOf_reset hi⟩
  · rw [stream_reset]
  · rw [regionState_reset, regionDefault_of_top h hoff]
  · rw [regionState_reset, regionDefault_of_hbm h]

end Sys2Proof.Machine

/-! PROOFS. The device at work: what each operation leaves of Derler's part of the state, and the map of logical cores (R14, R15, R464 to R466),
which every command keeps in order. -/
namespace Sys2Proof.Machine

open Sys2Proof

-- Folds

/-- A choice between two states. -/
@[simp] theorem ite_drl (p : Prop) [Decidable p] (s t : State) : (if p then s else t).drl = if p then s.drl else t.drl := apply_ite ..

/-- Steps that leave Derler's part alone. -/
@[simp] theorem foldl_drl {α : Type} {f : State → α → State} (h : ∀ s a, (f s a).drl = s.drl) (l : List α) (s : State) :
    (l.foldl f s).drl = s.drl :=
  List.foldlRecOn l f (motive := fun t => t.drl = s.drl) rfl fun t ht a _ => (h t a).trans ht

/-- Steps that leave the table of the cores alone. -/
@[simp] theorem foldl_pcores {α : Type} {f : State → α → State} (h : ∀ s a, (f s a).drl.pcores = s.drl.pcores) (l : List α) (s : State) :
    (l.foldl f s).drl.pcores = s.drl.pcores :=
  List.foldlRecOn l f (motive := fun t => t.drl.pcores = s.drl.pcores) rfl fun t ht a _ => (h t a).trans ht

/-- Steps on a state beside what they gather. -/
theorem foldl_fst_drl {α β : Type} {f : State × β → α → State × β} (h : ∀ a x, (f a x).1.drl = a.1.drl) (l : List α) (a : State × β) :
    (l.foldl f a).1.drl = a.1.drl :=
  List.foldlRecOn l f (motive := fun b => b.1.drl = a.1.drl) rfl fun b hb x _ => (h b x).trans hb

/-- Steps, each of the list, on a state beside what they gather. -/
theorem foldl_snd_drl {α β : Type} {l : List α} {f : β × State → α → β × State} (h : ∀ x ∈ l, ∀ a, (f a x).2.drl = a.2.drl)
    (a : β × State) :
    (l.foldl f a).2.drl = a.2.drl :=
  List.foldlRecOn l f (motive := fun b => b.2.drl = a.2.drl) rfl fun b hb x hx => (h x hx b).trans hb

/-- Steps that may give nothing: a property that each keeps holds of the result. -/
theorem foldl_some {σ α : Type} {P : σ → Prop} {f : Option σ → α → Option σ} {l : List α} {o : Option σ} {t : σ}
    (hf : ∀ a o, (∀ s, o = some s → P s) → ∀ s, f o a = some s → P s) (ho : ∀ s, o = some s → P s) (h : l.foldl f o = some t) : P t :=
  List.foldlRecOn l f (motive := fun o => ∀ s, o = some s → P s) ho (fun o ho a _ => hf a o ho) t h

/-- Steps that may end in an error: a property that each keeps holds of the result. -/
theorem foldl_ok {ε σ α : Type} {P : σ → Prop} {f : σ → α → Except ε σ} {l : List α} {s t : σ}
    (hf : ∀ s a t, P s → f s a = .ok t → P t) (hs : P s) (h : l.foldl (fun o a => o >>= fun s => f s a) (.ok s) = .ok t) : P t := by
  refine List.foldlRecOn l _ (motive := fun o : Except ε σ => ∀ t, o = .ok t → P t) (fun t ht => ?_) (fun o ho a _ t ht => ?_) t h
  · cases ht
    exact hs
  · cases o with
    | error e => nomatch ht
    | ok u => exact hf u a t (ho u rfl) ht

/-- Steps that keep the map in order. -/
theorem coreMap_foldl {α : Type} {f : State → α → State} (hf : ∀ s a, coreMap s → coreMap (f s a)) (l : List α) {s : State}
    (h : coreMap s) : coreMap (l.foldl f s) :=
  List.foldlRecOn l f h fun t ht a _ => hf t a ht

-- Outcomes

/-- The record of a core is a matter of Derler's table alone. -/
theorem pcoreOf_congr {s t : State} (hd : t.drl.pcores = s.drl.pcores) (i : Nat) : pcoreOf t i = pcoreOf s i := by
  rw [pcoreOf, hd, pcoreOf]

/-- So is the map. -/
theorem coreMap_congr {s t : State} (hd : t.drl.pcores = s.drl.pcores) (h : coreMap s) : coreMap t := by
  simpa only [coreMap, pcoreOf_congr hd, hd] using h

/-- An outcome that keeps the map of logical cores in order: what a command has to do for O4. -/
def KeepsMap (s : State) (o : Out) : Prop := ∀ t, o = .next t → coreMap s → coreMap t

/-- A next state reached by steps that keep the map. -/
theorem keepsMap_next_of {s t : State} (h : coreMap s → coreMap t) : KeepsMap s (.next t) := by
  rintro _ ⟨⟩ hs
  exact h hs

/-- A next state with the same table. -/
@[simp] theorem keepsMap_next {s t : State} (hd : t.drl.pcores = s.drl.pcores) : KeepsMap s (.next t) :=
  keepsMap_next_of (coreMap_congr hd)

/-- A fault has no next state. -/
@[simp] theorem keepsMap_fault (s : State) (r : Fault) : KeepsMap s (.fault r) := fun _ h => nomatch h

/-- A unit that the device has not changes nothing. -/
@[simp] theorem keepsMap_onUnit {u : Bool} {s : State} {o : Out} (h : KeepsMap s o) : KeepsMap s (onUnit u s o) := by
  cases u
  · exact keepsMap_next rfl
  · exact h

/-- A condition that does not hold changes nothing. -/
theorem keepsMap_when_of {c : Bool} {s t : State} (h : coreMap s → coreMap t) : KeepsMap s (when_ c s t) := by
  cases c
  · exact keepsMap_next rfl
  · exact keepsMap_next_of h

@[simp] theorem keepsMap_when {c : Bool} {s t : State} (hd : t.drl.pcores = s.drl.pcores) : KeepsMap s (when_ c s t) :=
  keepsMap_when_of (coreMap_congr hd)

theorem keepsMap_event_of {u c : Bool} {s t : State} (h : coreMap s → coreMap t) : KeepsMap s (event u c s t) :=
  keepsMap_onUnit (keepsMap_when_of h)

@[simp] theorem keepsMap_event {u c : Bool} {s t : State} (hd : t.drl.pcores = s.drl.pcores) : KeepsMap s (event u c s t) :=
  keepsMap_event_of (coreMap_congr hd)

/-! What each operation of the model leaves of Derler's part, in the order of the model's files, so that no operation is unfolded twice:
`f_drl` says that `f` leaves it alone, `f_pcores` that `f` leaves its table of the cores alone, `drl_of_f` that a state `f` answers with has it
as it was, and `keepsMap_exec…` that a command keeps the map in order. -/

-- Memory, registers and the tables of the state (Machine/Ops)

@[simp] theorem devPut_drl (s : State) (a : Nat) (b : Byte) : (devPut s a b).drl = s.drl := by
  unfold devPut
  split <;> simp

@[simp] theorem devWrites_drl (s : State) (a : Nat) (d : List Byte) : (devWrites s a d).drl = s.drl := by
  induction d generalizing s a with
  | nil => rfl
  | cons b t ih => rw [devWrites, ih, devPut_drl]

@[simp] theorem setRegions_drl (s : State) (rs : List Nat) (v : Nat) : (setRegions s rs v).drl = s.drl := by simp [setRegions]

@[simp] theorem readyCtl_drl (s : State) (k : Nat) : (readyCtl s k).drl = s.drl := by simp [readyCtl]

@[simp] theorem wakeAt_drl (s : State) (a : Nat) : (wakeAt s a).drl = s.drl := by
  unfold wakeAt
  split <;> simp

@[simp] theorem cleanRegion_drl (s : State) (r : Nat) : (cleanRegion s r).drl = s.drl := by simp [cleanRegion]

@[simp] theorem fillRegion_drl (s : State) (a : Nat) : (fillRegion s a).drl = s.drl := by
  unfold fillRegion
  split <;> simp

@[simp] theorem fillFirst_drl (s : State) (a len : Nat) : (fillFirst s a len).drl = s.drl := by simp [fillFirst]

@[simp] theorem takeBack_drl (s : State) (h : Nat × Guard) : (takeBack s h).drl = s.drl := by simp [takeBack]

@[simp] theorem notifyStale_drl (s : State) (a len : Nat) : (notifyStale s a len).drl = s.drl := by simp [notifyStale]

@[simp] theorem ownWrite_drl (s : State) (a : Nat) (d : List Byte) : (ownWrite s a d).drl = s.drl := by simp [ownWrite]

@[simp] theorem writeMem_drl (s : State) (a : Nat) (d : List Byte) : (writeMem s a d).2.drl = s.drl := by
  unfold writeMem
  split <;> simp

/-- The state that a write to memory ends in. -/
theorem drl_of_writeMem {s t : State} {a : Nat} {d : List Byte} {r : Access} (h : writeMem s a d = (r, t)) : t.drl = s.drl := by
  simpa [h] using writeMem_drl s a d

@[simp] theorem takeFree_drl (s : State) : (takeFree s).2.drl = s.drl := by simp [takeFree]

-- Registers (Machine/Csr)

@[simp] theorem csrStore_drl (s : State) (a : Nat) (v : W64) : (csrStore s a v).drl = s.drl := by
  unfold csrStore
  split <;> simp

@[simp] theorem csrWarm_drl (s : State) : (csrWarm s).drl = s.drl := by simp [csrWarm]

-- Messages, completions, kills and the ends of commands (Machine/Control)

@[simp] theorem alert_drl (s : State) (b : Nat) : (alert s b).drl = s.drl := (rfl)

@[simp] theorem logFault_drl (s : State) (cls die unit rung : Nat) : (logFault s cls die unit rung).drl = s.drl := by
  simp only [logFault, cset_drl]

@[simp] theorem countFrames_drl (s : State) (p n : Nat) : (countFrames s p n).drl = s.drl := by
  simp only [countFrames]
  split <;> simp

@[simp] theorem sentOn_drl (s : State) (q : Nat) (x y : Qp) : (sentOn s q x y).drl = s.drl := by simp [sentOn]

@[simp] theorem send_drl (s : State) (q : Nat) (kind : MsgKind) (key va : Nat) (data : List Byte) : (send s q kind key va data).drl = s.drl := by
  simp [send]

@[simp] theorem modEntry_drl (s : State) (st seq : Nat) (f : Entry → Entry) : (modEntry s st seq f).drl = s.drl := by simp [modEntry]

@[simp] theorem modTake_drl (s : State) (st seq : Nat) (f : Take → Take) : (modTake s st seq f).drl = s.drl := by simp [modTake]

@[simp] theorem dropTake_drl (s : State) (st seq : Nat) : (dropTake s st seq).drl = s.drl := by simp [dropTake]

@[simp] theorem complete_drl (s : State) (st seq : Nat) (c : CInfo) : (complete s st seq c).drl = s.drl := by
  unfold complete
  (repeat' split) <;> simp

@[simp] theorem settle_drl (s : State) (st : Nat) : (settle s st).drl = s.drl := by
  simp only [settle]
  split <;> simp

@[simp] theorem haltStream_drl (s : State) (st seq : Nat) : (haltStream s st seq).drl = s.drl := by
  simp only [haltStream]
  split <;> simp

@[simp] theorem freeUpdate_drl (s : State) (u : Update) : (freeUpdate s u).drl = s.drl := by simp [freeUpdate]

@[simp] theorem abandonUpdates_drl (s : State) (st seq : Nat) : (abandonUpdates s st seq).drl = s.drl := by simp [abandonUpdates]

@[simp] theorem dropUpdates_drl (s : State) (st seq : Nat) : (dropUpdates s st seq).drl = s.drl := by simp [dropUpdates]

@[simp] theorem leaveLoader_drl (s : State) (e : Entry) : (leaveLoader s e).drl = s.drl := by simp [leaveLoader]

@[simp] theorem restCores_drl (s : State) (slot : Nat) : (restCores s slot).drl = s.drl := by simp [restCores]

@[simp] theorem reportLoad_drl (s : State) (e : Entry) (report : List Byte) : (reportLoad s e report).drl = s.drl := by simp [reportLoad]

@[simp] theorem finishCore_drl (s : State) (st seq : Nat) (c : CInfo) : (finishCore s st seq c).drl = s.drl := by
  unfold finishCore
  split <;> simp

@[simp] theorem finish_drl (s : State) (st seq : Nat) (c : CInfo) : (finish s st seq c).drl = s.drl := by
  unfold finish
  split <;> simp

@[simp] theorem interim_drl (s : State) (st seq : Nat) (c : CInfo) : (interim s st seq c).drl = s.drl := by simp [interim]

@[simp] theorem turnStream_drl (s : State) (st : Nat) (next : StreamState) : (turnStream s st next).drl = s.drl := by
  simp only [turnStream]
  split <;> simp

@[simp] theorem waitFor_drl (s : State) (st seq reason : Nat) : (waitFor s st seq reason).drl = s.drl := by
  unfold waitFor
  split <;> simp

@[simp] theorem voidBound_drl (s : State) (c : Nat) : (voidBound s c).drl = s.drl := by
  unfold voidBound
  split <;> simp

@[simp] theorem sendControl_drl (s : State) (l : Landing) (kind : Nat) : (sendControl s l kind).drl = s.drl := by simp [sendControl]

@[simp] theorem modCen_drl (s : State) (f : Cen → Cen) : (modCen s f).drl = s.drl := (rfl)

@[simp] theorem postOut_drl (s : State) (m : OutMsg) : (postOut s m).drl = s.drl := by simp [postOut]

@[simp] theorem flushOut_drl (l : List OutMsg) (s : State) : (flushOut l s).drl = s.drl := by
  induction l generalizing s with
  | nil => rfl
  | cons m t ih => simp [flushOut, ih]

@[simp] theorem flushOutbox_drl (s : State) : (flushOutbox s).drl = s.drl := by simp [flushOutbox]

@[simp] theorem abortLandings_drl (s : State) (st seq : Nat) : (abortLandings s st seq).drl = s.drl := by simp [abortLandings]

@[simp] theorem killTake_drl (s : State) (t : Take) : (killTake s t).drl = s.drl := by simp [killTake]

@[simp] theorem killAndEnd_drl (s : State) (st seq : Nat) (c : CInfo) : (killAndEnd s st seq c).drl = s.drl := by
  unfold killAndEnd
  split <;> simp

@[simp] theorem killForRetake_drl (s : State) (t : Take) (c : CInfo) (keepCut : Bool) : (killForRetake s t c keepCut).drl = s.drl := by
  simp [killForRetake]

@[simp] theorem endOfCore_drl (s : State) (c : Nat) (f : Take → CInfo) : (endOfCore s c f).drl = s.drl := by
  unfold endOfCore
  split <;> simp

@[simp] theorem logLoss_drl (s : State) (r : Access) (a : Nat) : (logLoss s r a).drl = s.drl := by
  unfold logLoss
  split <;> simp

@[simp] theorem accessFail_drl (s : State) (c : Nat) (r : Access) (addr : Nat) : (accessFail s c r addr).drl = s.drl := by simp [accessFail]

@[simp] theorem modRun_drl (s : State) (id : Nat) (f : Run → Run) : (modRun s id f).drl = s.drl := by simp [modRun]

@[simp] theorem trapCore_drl (s : State) (c cause val detail reel pc : Nat) : (trapCore s c cause val detail reel pc).drl = s.drl := by
  simp [trapCore]

@[simp] theorem trapHere_drl (s : State) (c cause val detail : Nat) : (trapHere s c cause val detail).drl = s.drl := by simp [trapHere]

-- Finlen: arithmetic, branches, loops and words of memory (Machine/Finlen)

/-- An instruction whose effect, executed or not, leaves Derler's part alone. -/
theorem keepsMap_finlen {q : Issue} {i : Instr} {s : State} {run skip : State → State} (hr : ∀ t, t.drl = s.drl → (run t).drl = s.drl)
    (hs : ∀ t, t.drl = s.drl → (skip t).drl = s.drl) : KeepsMap s (finlen q i s run skip) := by
  have hr' := hr _ (bump_drl s (csqBase q.core + 0x48) 1)
  have hs' := hs _ (bump_drl s (csqBase q.core + 0x48) 1)
  simp only [finlen]
  (repeat' split) <;> simp [hr', hs']

@[simp] theorem keepsMap_finlenOp {q : Issue} {i : Instr} {s : State} {run : State → State} (hr : ∀ t, (run t).drl = t.drl) :
    KeepsMap s (finlenOp q i s run) :=
  keepsMap_finlen (fun t ht => (hr t).trans ht) fun t ht => by simp [ht]

@[simp] theorem keepsMap_finlenReel (q : Issue) (i : Instr) (s : State) (f : Reel → Reel) : KeepsMap s (finlenReel q i s f) := by
  simp [finlenReel]

@[simp] theorem keepsMap_execAlu (q : Issue) (fn rd ra rb : Nat) (s : State) : KeepsMap s (execAlu q fn rd ra rb s) :=
  keepsMap_finlenReel _ _ _ _

@[simp] theorem keepsMap_execAddi (q : Issue) (rd ra : Nat) (imm : BitVec 12) (s : State) : KeepsMap s (execAddi q rd ra imm s) :=
  keepsMap_finlenReel _ _ _ _

@[simp] theorem keepsMap_execAndi (q : Issue) (rd ra : Nat) (imm : BitVec 12) (s : State) : KeepsMap s (execAndi q rd ra imm s) :=
  keepsMap_finlenReel _ _ _ _

@[simp] theorem keepsMap_execOri (q : Issue) (rd ra : Nat) (imm : BitVec 12) (s : State) : KeepsMap s (execOri q rd ra imm s) :=
  keepsMap_finlenReel _ _ _ _

@[simp] theorem keepsMap_execXori (q : Issue) (rd ra : Nat) (imm : BitVec 12) (s : State) : KeepsMap s (execXori q rd ra imm s) :=
  keepsMap_finlenReel _ _ _ _

@[simp] theorem keepsMap_execSlli (q : Issue) (rd ra : Nat) (imm : BitVec 12) (s : State) : KeepsMap s (execSlli q rd ra imm s) :=
  keepsMap_finlenReel _ _ _ _

@[simp] theorem keepsMap_execSrli (q : Issue) (rd ra : Nat) (imm : BitVec 12) (s : State) : KeepsMap s (execSrli q rd ra imm s) :=
  keepsMap_finlenReel _ _ _ _

@[simp] theorem keepsMap_execSrai (q : Issue) (rd ra : Nat) (imm : BitVec 12) (s : State) : KeepsMap s (execSrai q rd ra imm s) :=
  keepsMap_finlenReel _ _ _ _

@[simp] theorem keepsMap_execXalu (q : Issue) (fn rd ra : Nat) (imm : W32) (s : State) : KeepsMap s (execXalu q fn rd ra imm s) :=
  keepsMap_finlenReel _ _ _ _

@[simp] theorem keepsMap_execNop (q : Issue) (s : State) : KeepsMap s (execNop q s) :=
  keepsMap_finlenReel _ _ _ _

@[simp] theorem keepsMap_execCmp (q : Issue) (fn pd ra rb : Nat) (s : State) : KeepsMap s (execCmp q fn pd ra rb s) :=
  keepsMap_finlenReel _ _ _ _

@[simp] theorem keepsMap_execCmpi (q : Issue) (cond pd ra : Nat) (imm : BitVec 12) (s : State) : KeepsMap s (execCmpi q cond pd ra imm s) :=
  keepsMap_finlenReel _ _ _ _

@[simp] theorem keepsMap_execPlog (q : Issue) (fn pd pa pb : Nat) (s : State) : KeepsMap s (execPlog q fn pd pa pb s) :=
  keepsMap_finlenReel _ _ _ _

@[simp] theorem keepsMap_execBr (q : Issue) (off : BitVec 19) (s : State) : KeepsMap s (execBr q off s) := by simp [execBr]

@[simp] theorem keepsMap_execCall (q : Issue) (off : BitVec 19) (s : State) : KeepsMap s (execCall q off s) := by simp [execCall]

@[simp] theorem keepsMap_execRet (q : Issue) (s : State) : KeepsMap s (execRet q s) :=
  keepsMap_finlenOp fun t => by split <;> simp

@[simp] theorem keepsMap_execLoop (q : Issue) (rd ra body : Nat) (s : State) : KeepsMap s (execLoop q rd ra body s) := by
  simp only [execLoop]
  exact keepsMap_finlen (fun t ht => by simp [ht]) fun t ht => by simp [ht]

@[simp] theorem keepsMap_execLbrk (q : Issue) (s : State) : KeepsMap s (execLbrk q s) :=
  keepsMap_finlenOp fun t => by split <;> simp

@[simp] theorem keepsMap_execLdw (q : Issue) (rd ra : Nat) (imm : BitVec 12) (s : State) : KeepsMap s (execLdw q rd ra imm s) := by simp [execLdw]

@[simp] theorem keepsMap_execStw (q : Issue) (rd ra : Nat) (imm : BitVec 12) (s : State) : KeepsMap s (execStw q rd ra imm s) := by simp [execStw]

@[simp] theorem keepsMap_execTrap (q : Issue) (code : BitVec 12) (s : State) : KeepsMap s (execTrap q code s) := by simp [execTrap]

-- Barrier counters and arrivals (Machine/Barrier)

@[simp] theorem sendArrival_drl (s : State) (circuit : Option Nat) (after : List Nat) (a : Arrival) :
    (sendArrival s circuit after a).drl = s.drl := by
  unfold sendArrival
  (repeat' split) <;> simp

@[simp] theorem arriveOut_drl (s : State) (c id : Nat) (b : List Byte) (r : BRef) (rs : List (Nat × Nat)) :
    (arriveOut s c id b r rs).drl = s.drl := by
  unfold arriveOut
  (repeat' split) <;> simp

@[simp] theorem arriveRef_drl (s : State) (c id : Nat) (b : List Byte) (r : BRef) : (arriveRef s c id b r).drl = s.drl := by simp [arriveRef]

@[simp] theorem notePrefetch_drl (s : State) (a : Arrival) : (notePrefetch s a).drl = s.drl := by simp [notePrefetch]

@[simp] theorem applyArrival_drl (s : State) (a : Arrival) : (applyArrival s a).drl = s.drl := by
  unfold applyArrival
  split <;> simp

@[simp] theorem keepsMap_execBarrierArrival (k : Nat) (s : State) : KeepsMap s (execBarrierArrival k s) := by
  unfold execBarrierArrival
  split <;> simp

@[simp] theorem consume_drl (s : State) (c mu ctr w : Nat) : (consume s c mu ctr w).drl = s.drl := by simp [consume]

-- Finlen: descriptors, barriers, commits, reels and CSRs (Machine/FinlenSys)

@[simp] theorem keepsMap_finlenWait {q : Issue} {i : Instr} {s : State} {ready : Bool} {run : State → State} (hr : ∀ t, (run t).drl = t.drl) :
    KeepsMap s (finlenWait q i s ready run) := by
  unfold finlenWait finlenOp
  exact keepsMap_finlen (fun t ht => by simp [hr, ht]) fun t ht => by simp [ht]

@[simp] theorem stepPc_drl (s : State) (c : Nat) (i : Instr) : (stepPc s c i).drl = s.drl := (rfl)

@[simp] theorem enqueue_drl (s : State) (c key : Nat) (b : List Byte) : (enqueue s c key b).drl = s.drl := by simp [enqueue]

@[simp] theorem keepsMap_execIssue (q : Issue) (ra eng : Nat) (size : Bool) (off : Nat) (s : State) :
    KeepsMap s (execIssue q ra eng size off s) :=
  keepsMap_finlenWait fun t => by (repeat' split) <;> simp

@[simp] theorem keepsMap_execArrive (q : Issue) (ra mu ctr n : Nat) (rem : Bool) (s : State) :
    KeepsMap s (execArrive q ra mu ctr n rem s) := by
  simp only [execArrive]
  exact keepsMap_finlenOp fun t => by (repeat' split) <;> simp

@[simp] theorem keepsMap_execWait (q : Issue) (mu ctr n : Nat) (s : State) : KeepsMap s (execWait q mu ctr n s) := by simp [execWait]

@[simp] theorem keepsMap_execRstart (q : Issue) (z : Nat) (off : BitVec 19) (s : State) : KeepsMap s (execRstart q z off s) := by simp [execRstart]

@[simp] theorem switchReel_drl (s : State) (c : Nat) : (switchReel s c).drl = s.drl := (rfl)

@[simp] theorem keepsMap_execYieldReel (q : Issue) (s : State) : KeepsMap s (execYieldReel q s) := by simp [execYieldReel]

@[simp] theorem keepsMap_execRexit (q : Issue) (s : State) : KeepsMap s (execRexit q s) := by simp [execRexit]

@[simp] theorem keepsMap_execFence (q : Issue) (fn : Nat) (s : State) : KeepsMap s (execFence q fn s) := by simp [execFence]

@[simp] theorem sendCtr_drl (s : State) (c : Nat) (f : Nat → Nat → Nat → CtrReq) : (sendCtr s c f).drl = s.drl := by simp [sendCtr]

@[simp] theorem keepsMap_execFetch (q : Issue) (rd ra rb : Nat) (dev : Bool) (num : Nat) (s : State) :
    KeepsMap s (execFetch q rd ra rb dev num s) := by
  simp [execFetch]

@[simp] theorem keepsMap_execFetchAnswer (c reel rd : Nat) (s : State) : KeepsMap s (execFetchAnswer c reel rd s) := by
  simp only [execFetchAnswer]
  split <;> simp

@[simp] theorem keepsMap_execCounterResend (c reel rd : Nat) (s : State) : KeepsMap s (execCounterResend c reel rd s) := by
  simp only [execCounterResend]
  split <;> simp

@[simp] theorem keepsMap_execTcmt (q : Issue) (rd ra rb : Nat) (dev : Bool) (num : Nat) (s : State) :
    KeepsMap s (execTcmt q rd ra rb dev num s) := by
  simp only [execTcmt]
  exact keepsMap_finlenWait fun t => by (repeat' split) <;> simp

@[simp] theorem commitCopies_drl (s : State) (c : Nat) (l : List (Nat × Nat × Nat)) : (commitCopies s c l).drl = s.drl := by
  induction l generalizing s with
  | nil => rfl
  | cons g t ih =>
    rw [commitCopies]
    split <;> simp [ih, drl_of_writeMem ‹_›]

@[simp] theorem keepsMap_execTcmtAnswer (c reel rd : Nat) (s : State) : KeepsMap s (execTcmtAnswer c reel rd s) := by
  simp only [execTcmtAnswer]
  (repeat' split) <;> simp

@[simp] theorem keepsMap_execTcmtCopyDone (c reel rd : Nat) (s : State) : KeepsMap s (execTcmtCopyDone c reel rd s) := by
  simp only [execTcmtCopyDone]
  split <;> simp

@[simp] theorem keepsMap_execCsrr (q : Issue) (rd : Nat) (imm : W32) (s : State) : KeepsMap s (execCsrr q rd imm s) :=
  keepsMap_finlenOp fun t => by split <;> simp

@[simp] theorem keepsMap_execCsrw (q : Issue) (ra : Nat) (imm : W32) (s : State) : KeepsMap s (execCsrw q ra imm s) := by simp [execCsrw]

@[simp] theorem keepsMap_execTrapReport (c : Nat) (s : State) : KeepsMap s (execTrapReport c s) := by simp [execTrapReport]

-- Work counters (Machine/Wkc)

@[simp] theorem keepsMap_execWkcFetchAdd (c reel rd : Nat) (s : State) : KeepsMap s (execWkcFetchAdd c reel rd s) := by
  simp only [execWkcFetchAdd]
  split <;> simp

@[simp] theorem keepsMap_execLedgerCommit (c reel rd : Nat) (s : State) : KeepsMap s (execLedgerCommit c reel rd s) := by
  simp only [execLedgerCommit]
  split <;> simp

-- The matrix engine (Machine/Mxe)

@[simp] theorem keepsMap_execMxePassStart (c : Nat) (s : State) : KeepsMap s (execMxePassStart c s) := by
  simp only [execMxePassStart]
  (repeat' split) <;> simp

@[simp] theorem keepsMap_execZpMiss (c : Nat) (s : State) : KeepsMap s (execZpMiss c s) := by
  unfold execZpMiss
  split <;> simp

@[simp] theorem markTags_drl (s : State) (st seq : Nat) (b : List Byte) : (markTags s st seq b).drl = s.drl := by simp [markTags]

@[simp] theorem accumRange_drl (s : State) (c : Nat) (b : List Byte) : (accumRange s c b).drl = s.drl := by simp [accumRange]

@[simp] theorem keepsMap_execMxeRangeFail (c : Nat) (s : State) : KeepsMap s (execMxeRangeFail c s) := by
  simp only [execMxeRangeFail]
  (repeat' split) <;> simp

@[simp] theorem drainStore_drl (s : State) (c : Nat) (d : MxeDrain) : (drainStore s c d).drl = s.drl := by simp [drainStore]

@[simp] theorem drainCarry_drl (s : State) (c : Nat) (d : MxeDrain) : (drainCarry s c d).drl = s.drl := (rfl)

@[simp] theorem drainEpilogue_drl (s : State) (c : Nat) (d : MxeDrain) (tb : Nat) : (drainEpilogue s c d tb).drl = s.drl := by simp [drainEpilogue]

@[simp] theorem beginDrain_drl (s : State) (c : Nat) : (beginDrain s c).drl = s.drl := by
  unfold beginDrain
  (repeat' split) <;> simp

@[simp] theorem keepsMap_execMxePassEnd (c : Nat) (s : State) : KeepsMap s (execMxePassEnd c s) := by
  unfold execMxePassEnd
  (repeat' split) <;> simp

@[simp] theorem keepsMap_execMxeDrainEnd (c : Nat) (s : State) : KeepsMap s (execMxeDrainEnd c s) := by
  simp only [execMxeDrainEnd]
  (repeat' split) <;> simp

-- AG programs (Machine/Ag)

theorem drl_of_agWrite {s t : State} {c r j : Nat} {d : QDesc} {v : List Byte} (h : agWrite s c d r j v = .ok t) : t.drl = s.drl := by
  unfold agWrite at h
  split at h
  · cases h; rfl
  · split at h
    · cases h; exact drl_of_writeMem ‹_›
    · nomatch h

@[simp] theorem agFinish_drl (s : State) (c : Nat) (g : AgRun) : (agFinish s c g).drl = s.drl := by simp [agFinish]

@[simp] theorem prefetchIn_drl (s : State) (c id k : Nat) (b : List Byte) : (prefetchIn s c id k b).drl = s.drl := by
  unfold prefetchIn
  split <;> simp

@[simp] theorem agDeliver_drl (n : Nat) (s : State) (c id : Nat) : (agDeliver n s c id).drl = s.drl := by
  induction n generalizing s with
  | zero => rfl
  | succ n ih =>
    rw [agDeliver]
    (repeat' split) <;> simp [ih]

@[simp] theorem agArrive_drl (s : State) (c id k : Nat) (v : List Byte) : (agArrive s c id k v).drl = s.drl := by simp [agArrive]

@[simp] theorem served_drl (s : State) (c : Nat) (g : AgRun) (t : Nat) (f : AgRun → AgRun) : (served s c g t f).drl = s.drl := by simp [served]

@[simp] theorem takeRead_drl (s : State) (c : Nat) (g : AgRun) (t : Nat) (r : Nat × Nat × Nat) (noted : Bool) :
    (takeRead s c g t r noted).drl = s.drl := by
  simp only [takeRead]
  (repeat' split) <;> simp

@[simp] theorem agWrote_drl (s : State) (c id : Nat) : (agWrote s c id).drl = s.drl := by
  unfold agWrote
  split <;> simp

@[simp] theorem takeWrite_drl (s : State) (c : Nat) (g : AgRun) (t : Nat) : (takeWrite s c g t).drl = s.drl := by
  unfold takeWrite
  split
  · rfl
  · next row j0 _ =>
    dsimp only
    split
    · simp
    · next u hu =>
      have h : u.drl = s.drl := foldl_ok (P := fun u => u.drl = s.drl) (fun s a t hs ht => (drl_of_agWrite ht).trans hs) rfl hu
      split <;> simp [h]

@[simp] theorem agPost_drl (n : Nat) (s : State) (c mu ag : Nat) : (agPost n s c mu ag).drl = s.drl := by
  induction n generalizing s with
  | zero => rfl
  | succ n ih =>
    rw [agPost]
    split <;> simp [ih]

@[simp] theorem agPostAll_drl (s : State) (c : Nat) : (agPostAll s c).drl = s.drl := by simp [agPostAll]

@[simp] theorem agPut_drl (s : State) (c : Nat) (g : AgRun) (n : Nat) (v : List Byte) : (agPut s c g n v).drl = s.drl := by
  unfold agPut
  split <;> simp

@[simp] theorem agClose_drl (s : State) (c id : Nat) : (agClose s c id).drl = s.drl := by simp [agClose]

@[simp] theorem agStart_drl (s : State) (c mu : Nat) (d : QDesc) : (agStart s c mu d).drl = s.drl := by simp [agStart]

@[simp] theorem keepsMap_execAgProgram (c mu : Nat) (s : State) : KeepsMap s (execAgProgram c mu s) := by
  simp only [execAgProgram]
  (repeat' split) <;> simp

@[simp] theorem keepsMap_execReelSwitch (c unit : Nat) (s : State) : KeepsMap s (execReelSwitch c unit s) := by
  simp only [execReelSwitch]
  (repeat' split) <;> simp

-- The vector engine (Machine/Vce)

@[simp] theorem putElem_drl (s : State) (c : Nat) (t : Strm) (lin j raw : Nat) : (putElem s c t lin j raw).drl = s.drl := by simp [putElem]

@[simp] theorem writeElem_drl (s : State) (c : Nat) (t : Strm) (lin n j raw : Nat) : (writeElem s c t lin n j raw).drl = s.drl := by
  unfold writeElem
  (repeat' split) <;> simp

@[simp] theorem writeElems_drl (c : Nat) (t : Strm) (lin n j : Nat) (l : List Nat) (s : State) : (writeElems c t lin n j l s).drl = s.drl := by
  induction l generalizing n j s with
  | nil => rfl
  | cons raw l ih => rw [writeElems, ih, writeElem_drl]

@[simp] theorem putBlock_drl (c : Nat) (d : QDesc) (t : Strm) (p : BeatPos) (xs : List W32) (l0 : Nat) (s : State) :
    (putBlock c d t p xs l0 s).1.drl = s.drl := by
  simp only [putBlock]
  split <;> simp

@[simp] theorem putVote_drl (c : Nat) (d : QDesc) (t : Strm) (absurd : W32) (n prev : Nat) (first last : Bool) (x : W32) (s : State) :
    (putVote c d t absurd n prev first last x s).drl = s.drl := by
  simp [putVote]

@[simp] theorem putVotes_drl (c : Nat) (d : QDesc) (t : Strm) (p : BeatPos) (xs : List W32) (s : State) : (putVotes c d t p xs s).drl = s.drl := by
  simp [putVotes]

@[simp] theorem putBeat_drl (s : State) (c : Nat) (d : QDesc) (p : BeatPos) (xs : List W32) : (putBeat s c d p xs).1.drl = s.drl := by
  simp only [putBeat]
  (repeat' split) <;> simp

@[simp] theorem zpClear_drl (s : State) (c a : Nat) (b : List Byte) (u v : Nat) : (zpClear s c a b u v).drl = s.drl := by simp [zpClear]

@[simp] theorem zpInit_drl (s : State) (c : Nat) (b : List Byte) (allow : Bool) : (zpInit s c b allow).drl = s.drl := by simp [zpInit]

@[simp] theorem zeroMap_drl (s : State) (c : Nat) (d : QDesc) (p : BeatPos) (mags : List Nat) (allow : Bool) :
    (zeroMap s c d p mags allow).drl = s.drl := by
  simp [zeroMap]

@[simp] theorem redTake_drl (s : State) (c : Nat) (r : RedRun) (d : QDesc) (p : BeatPos) (xs : List W32) : (redTake s c r d p xs).drl = s.drl := by
  simp [redTake]

@[simp] theorem walkDone_drl (s : State) (c : Nat) (d : QDesc) (rs : List (Nat × Nat)) : (walkDone s c d rs).drl = s.drl := by simp [walkDone]

@[simp] theorem keepsMap_execVwalkStart (c : Nat) (s : State) : KeepsMap s (execVwalkStart c s) := by
  simp only [execVwalkStart]
  (repeat' split) <;> simp

@[simp] theorem finishProgs_drl (s : State) (c : Nat) (ts : List Strm) (ended : Bool) (upTo : AgRun → Nat) :
    (finishProgs s c ts ended upTo).drl = s.drl :=
  foldl_drl (fun s t => by (repeat' split) <;> simp) ts s

@[simp] theorem feedProg_drl (s : State) (c : Nat) (t : Strm) (ended : Bool) (upTo : Nat) : (feedProg s c t ended upTo).drl = s.drl := by
  unfold feedProg
  (repeat' split) <;> simp

@[simp] theorem beatOut_drl (s : State) (c : Nat) (w : Walk) (p : BeatPos) (r : BeatState) : (beatOut s c w p r).drl = s.drl := by
  simp only [beatOut]
  split <;> simp

@[simp] theorem keepsMap_execVceBeatIssue (c : Nat) (s : State) : KeepsMap s (execVceBeatIssue c s) := by
  simp only [execVceBeatIssue]
  split <;> simp

@[simp] theorem keepsMap_execVwalkEnd (c : Nat) (s : State) : KeepsMap s (execVwalkEnd c s) := by
  simp only [execVwalkEnd]
  split <;> simp

@[simp] theorem keepsMap_execVprogApply (c : Nat) (s : State) : KeepsMap s (execVprogApply c s) := by
  simp only [execVprogApply]
  (repeat' split) <;> simp

@[simp] theorem keepsMap_execVcache (c : Nat) (s : State) : KeepsMap s (execVcache c s) := by
  simp only [execVcache]
  (repeat' split) <;> simp

@[simp] theorem keepsMap_execReelGenSwitch (c unit reel : Nat) (s : State) : KeepsMap s (execReelGenSwitch c unit reel s) := by
  simp only [execReelGenSwitch]
  (repeat' split) <;> simp

@[simp] theorem keepsMap_execDescSkipRun (c eng sub : Nat) (s : State) : KeepsMap s (execDescSkipRun c eng sub s) := by
  simp only [execDescSkipRun]
  (repeat' split) <;> simp

-- The reduction engine (Machine/Red)

@[simp] theorem keepsMap_execRedReduce (c : Nat) (s : State) : KeepsMap s (execRedReduce c s) := by
  simp only [execRedReduce]
  (repeat' split) <;> simp

@[simp] theorem keepsMap_execRedResult (c : Nat) (s : State) : KeepsMap s (execRedResult c s) := by
  unfold execRedResult
  (repeat' split) <;> simp

-- Transfers and prefetches (Machine/Xfr)

@[simp] theorem remoteTimeout_drl (s : State) (c : Nat) (b : List Byte) : (remoteTimeout s c b).drl = s.drl := by simp [remoteTimeout]

@[simp] theorem remoteDenied_drl (s : State) (c : Nat) (b : List Byte) : (remoteDenied s c b).drl = s.drl := by simp [remoteDenied]

@[simp] theorem openLanding_drl (s : State) (c : Nat) (t : Take) (b : List Byte) : (openLanding s c t b).drl = s.drl := by simp [openLanding]

@[simp] theorem xfrPost_drl (n : Nat) (s : State) (c id : Nat) : (xfrPost n s c id).drl = s.drl := by
  induction n generalizing s with
  | zero => rfl
  | succ n ih =>
    rw [xfrPost]
    split
    · rfl
    · next r _ => cases h : pieceCtl r.desc.bytes r.row r.off <;> simp [h, ih]

@[simp] theorem postAll_drl (s : State) : (postAll s).drl = s.drl := by simp [postAll]

@[simp] theorem pieceDone_drl (s : State) (c : Nat) (q : Req) : (pieceDone s c q).drl = s.drl := by
  simp only [pieceDone]
  split <;> simp

theorem drl_of_placePiece {s t : State} {b d : List Byte} {q : Req} {kind : Option Nat} (h : placePiece s b q kind d = .ok t) :
    t.drl = s.drl := by
  simp only [placePiece] at h
  split at h
  · split at h
    · cases h; exact drl_of_writeMem ‹_›
    · nomatch h
  · split at h
    · next hw =>
      split at h
      · cases h; exact drl_of_writeMem hw
      · split at h
        · next hv => cases h; exact (drl_of_writeMem hv).trans (drl_of_writeMem hw)
        · nomatch h
    · nomatch h

theorem drl_of_movePiece {s t : State} {c : Nat} {b : List Byte} {q : Req} (h : movePiece s c b q = .ok t) : t.drl = s.drl := by
  simp only [movePiece] at h
  split at h
  · exact drl_of_placePiece h
  · nomatch h

theorem drl_of_storeFrame {s t : State} {b : List Byte} {q : Req} (h : storeFrame s b q = .ok t) : t.drl = s.drl := by
  simp only [storeFrame] at h
  split at h
  · split at h
    · cases h; exact drl_of_writeMem ‹_›
    · nomatch h
  · nomatch h

theorem drl_of_loadFrame {s t : State} {b : List Byte} {q : Req} (h : loadFrame s b q = .ok t) : t.drl = s.drl := by
  simp only [loadFrame] at h
  (repeat' split at h) <;> cases h
  exact drl_of_writeMem ‹_›

@[simp] theorem frameFail_drl (s : State) (c a : Nat) : (frameFail s c a).drl = s.drl := by simp [frameFail]

@[simp] theorem xfrReturn_drl (s : State) (c : Nat) (r : XfrRun) (q : Req) : (xfrReturn s c r q).drl = s.drl := by
  simp only [xfrReturn]
  split
  · split
    · simp [drl_of_movePiece ‹_›]
    · simp
  · split
    · simp
    · split
      · split
        · simp [drl_of_loadFrame ‹_›]
        · simp
        · simp
      · split
        · simp [drl_of_storeFrame ‹_›]
        · simp

@[simp] theorem agReturn_drl (s : State) (c : Nat) (g : AgRun) (q : Req) : (agReturn s c g q).drl = s.drl := by
  unfold agReturn
  (repeat' split) <;> simp

@[simp] theorem keepsMap_execRequestReturn (c k : Nat) (s : State) : KeepsMap s (execRequestReturn c k s) := by
  simp only [execRequestReturn]
  (repeat' split) <;> simp

@[simp] theorem askVersion_drl (s : State) (c n : Nat) (d : QDesc) : (askVersion s c n d).drl = s.drl := by simp [askVersion]

@[simp] theorem keepsMap_execXfrStart (c : Nat) (s : State) : KeepsMap s (execXfrStart c s) := by
  simp only [execXfrStart]
  (repeat' split) <;> simp

@[simp] theorem keepsMap_execXfrSeal (c : Nat) (s : State) : KeepsMap s (execXfrSeal c s) := by
  simp only [execXfrSeal]
  (repeat' split) <;> simp

@[simp] theorem keepsMap_execXfrComplete (c k : Nat) (s : State) : KeepsMap s (execXfrComplete c k s) := by
  simp only [execXfrComplete]
  split <;> simp

@[simp] theorem keepsMap_execVersionReread (c k : Nat) (s : State) : KeepsMap s (execVersionReread c k s) := by
  simp only [execVersionReread]
  (repeat' split) <;> simp

theorem drl_of_reread {s t : State} {c : Nat} {e : Guard} (h : reread s c e = .ok t) : t.drl = s.drl := by
  simp only [reread] at h
  split at h
  · split at h
    · cases h; simp
    · nomatch h
  · split at h
    · refine foldl_ok (P := fun u => u.drl = s.drl) (fun u q v hu hv => ?_) rfl h
      split at hv
      · exact (drl_of_loadFrame hv).trans hu
      · split at hv
        · cases hv; exact (drl_of_movePiece ‹_›).trans hu
        · nomatch hv
    · (repeat' split at h) <;> cases h <;> simp

@[simp] theorem keepsMap_execStaleNotice (c mu g : Nat) (s : State) : KeepsMap s (execStaleNotice c mu g s) := by
  simp only [execStaleNotice]
  refine keepsMap_onUnit ?_
  split
  · simp
  · split
    · simp
    · split
      · split
        · simp
        · split
          · simp [drl_of_reread ‹_›]
          · simp
          · simp
      · split
        · simp [drl_of_reread ‹_›]
        · simp
        · simp

@[simp] theorem releaseOne_drl (s : State) (c id : Nat) : (releaseOne s c id).drl = s.drl := by
  simp only [releaseOne]
  (repeat' split) <;> simp

@[simp] theorem releaseDeferred_drl (k : Nat) (s : State) (c mu ctr need : Nat) : (releaseDeferred k s c mu ctr need).drl = s.drl := by
  induction k generalizing s need with
  | zero => rfl
  | succ k ih =>
    rw [releaseDeferred]
    (repeat' split) <;> simp [ih]

@[simp] theorem keepsMap_execBarrierWaitSatisfy (c mu ctr : Nat) (s : State) : KeepsMap s (execBarrierWaitSatisfy c mu ctr s) := by
  simp only [execBarrierWaitSatisfy]
  (repeat' split) <;> simp

-- The crossing fabric and multicast (Machine/Fabric)

@[simp] theorem keepsMap_execPacketFlit (k : Nat) (s : State) : KeepsMap s (execPacketFlit k s) := by
  unfold execPacketFlit
  (repeat' split) <;> simp

@[simp] theorem keepsMap_execTimetableSwitch (s : State) : KeepsMap s (execTimetableSwitch s) := by simp [execTimetableSwitch]

theorem drl_of_deliverItem {s t : State} {c mu circuit off : Nat} {q : Item} (h : deliverItem s c mu circuit off q = some t) :
    t.drl = s.drl := by
  simp only [deliverItem] at h
  split at h
  · split at h
    · cases h; simp
    · nomatch h
  · split at h
    · split at h
      · cases h; simp
      · nomatch h
    · obtain ⟨y, -, rfl⟩ := Option.map_eq_some_iff.1 h
      simp

@[simp] theorem wordWent_drl (s : State) (key w : Nat) (d : List Byte) : (wordWent s key w d).drl = s.drl := by simp [wordWent]

@[simp] theorem keepsMap_execCircuitWord (slot circuit srcOff dstOff reel : Nat) (gen mark : Bool) (s : State) :
    KeepsMap s (execCircuitWord slot circuit srcOff dstOff reel gen mark s) := by
  simp only [execCircuitWord]
  refine keepsMap_onUnit ?_
  split
  · simp
  · split
    · simp
    · split
      · simp
      · split
        · exact keepsMap_next (by split <;> simp)
        · split
          · next ht =>
            refine keepsMap_next (congrArg Drl.pcores ?_)
            refine foldl_some (P := fun u => u.drl = s.drl) (fun e o ho u hu => ?_) (fun _ hs => ?_) ht
            · split at hu
              · exact (drl_of_deliverItem hu).trans (ho _ rfl)
              · nomatch hu
            · cases hs; split <;> simp
          · simp

@[simp] theorem keepsMap_execSteerApply (c k : Nat) (s : State) : KeepsMap s (execSteerApply c k s) := by
  simp only [execSteerApply]
  (repeat' split) <;> simp

@[simp] theorem emitItem_drl (s : State) (c circuit : Nat) (q : Item) : (emitItem s c circuit q).drl = s.drl := by
  unfold emitItem
  split <;> simp

@[simp] theorem keepsMap_execStuPair (c k : Nat) (s : State) : KeepsMap s (execStuPair c k s) := by
  simp only [execStuPair]
  (repeat' split) <;> simp

@[simp] theorem keepsMap_execStuDrainMarker (c k : Nat) (s : State) : KeepsMap s (execStuDrainMarker c k s) := by
  simp only [execStuDrainMarker]
  refine keepsMap_onUnit ?_
  (repeat' split) <;> simp

@[simp] theorem keepsMap_execSteerStall (c k : Nat) (s : State) : KeepsMap s (execSteerStall c k s) := by
  unfold execSteerStall
  split <;> simp

@[simp] theorem landTile_drl (s : State) (c id : Nat) (r : Recv) (t : Nat) (d : List Byte) : (landTile s c id r t d).drl = s.drl := by
  unfold landTile
  split <;> simp

theorem drl_of_fetchDetached {s : State} {c n : Nat} {m : Mcast} {r : Recv} {t : State × Bool} (h : fetchDetached s c m r n = .ok t) :
    t.1.drl = s.drl := by
  simp only [fetchDetached] at h
  (repeat' split at h) <;> cases h <;> simp

theorem drl_of_serveLagging {c : Nat} {rs : List Recv} {m : Mcast} {s : State} {t : State × Mcast} (h : serveLagging c rs m s = .ok t) :
    t.1.drl = s.drl := by
  refine foldl_ok (P := fun u => u.1.drl = s.drl) (fun u e v hu hv => ?_) rfl h
  dsimp only at hv
  split at hv
  · cases hv; exact hu
  · split at hv
    · cases hv; exact hu
    · split at hv
      · cases hw : fetchDetached u.1 c u.2 e.1 ‹_› with
        | error e => rw [hw] at hv; nomatch hv
        | ok w => rw [hw] at hv; cases hv; exact (drl_of_fetchDetached hw).trans hu
      · split at hv <;> cases hv
        · exact hu
        · simpa using hu

theorem drl_of_sendTile {c : Nat} {rs : List Recv} {m : Mcast} {s : State} {t : State × Mcast} (h : sendTile c rs m s = .ok t) :
    t.1.drl = s.drl := by
  simp only [sendTile] at h
  split at h
  · cases h; rfl
  · split at h
    · nomatch h
    · split at h
      · cases h
        rw [foldl_fst_drl fun a e => ?_]
        · simp
        · (repeat' split) <;> simp
      · nomatch h

@[simp] theorem keepsMap_execMcastTileSend (c : Nat) (s : State) : KeepsMap s (execMcastTileSend c s) := by
  simp only [execMcastTileSend]
  refine keepsMap_onUnit ?_
  split
  · simp
  · split
    · simp
    · split
      · simp
      · next ht =>
        split at ht
        · next hr =>
          have h := (drl_of_sendTile ht).trans (drl_of_serveLagging hr)
          simp only [setCore_drl] at h
          simp [h]
        · nomatch ht

-- The collective engines (Machine/Cen)

@[simp] theorem modStep_drl (s : State) (run n : Nat) (f : StepSt → StepSt) : (modStep s run n f).drl = s.drl := by simp [modStep]

@[simp] theorem cenRepeat_drl (s : State) : (cenRepeat s).drl = s.drl := (rfl)

@[simp] theorem addTally_drl (s : State) (r : Run) (l : Nat) (w : Int) : (addTally s r l w).drl = s.drl := by simp [addTally]

@[simp] theorem setTouch_drl (s : State) (r : Run) (total : Nat) (on : Bool) (g : Nat) : (setTouch s r total on g).drl = s.drl := by simp [setTouch]

@[simp] theorem addVotes_drl (s : State) (r : Run) (total : Nat) (weight : Int) (ws : List (Nat × List Byte)) :
    (addVotes s r total weight ws).drl = s.drl := by
  simp [addVotes]

@[simp] theorem touchWrites_drl (s : State) (r : Run) (full : Bool) (total : Nat) (ws : List (Nat × List Byte)) :
    (touchWrites s r full total ws).drl = s.drl := by
  simp [touchWrites]

@[simp] theorem addWrites_drl (s : State) (r : Run) (x : StepSt) (total weight : Nat) (sgn : Int) (ws : List (Nat × List Byte)) :
    (addWrites s r x total weight sgn ws).drl = s.drl := by
  simp [addWrites]

@[simp] theorem modContrib_drl (s : State) (c : Contrib) (f : Contrib → Contrib) : (modContrib s c f).drl = s.drl := by simp [modContrib]

@[simp] theorem dropContrib_drl (s : State) (c : Contrib) : (dropContrib s c).drl = s.drl := by simp [dropContrib]

@[simp] theorem removeVotes_drl (s : State) (r : Run) (x : StepSt) (c : Contrib) : (removeVotes s r x c).drl = s.drl := by simp [removeVotes]

@[simp] theorem discard_drl (s : State) (c : Contrib) : (discard s c).drl = s.drl := by
  unfold discard
  split <;> simp

@[simp] theorem countContrib_drl (s : State) (r : Run) (x : StepSt) (c : Contrib) : (countContrib s r x c).drl = s.drl := by simp [countContrib]

@[simp] theorem sendStep_drl (s : State) (r : Run) (x : StepSt) (landing dev : Nat) (window : List Byte) :
    (sendStep s r x landing dev window).drl = s.drl := by
  simp [sendStep]

@[simp] theorem lateOpen_drl (s : State) (r : Run) (x : StepSt) : (lateOpen s r x).drl = s.drl := by simp [lateOpen]

@[simp] theorem closeOwned_drl (s : State) (r : Run) (x : StepSt) : (closeOwned s r x).drl = s.drl := by simp [closeOwned]

@[simp] theorem loseStep_drl (s : State) (x : StepSt) (a : Nat) : (loseStep s x a).drl = s.drl := by
  unfold loseStep
  split <;> simp

@[simp] theorem closeStep_drl (s : State) (r : Run) (x : StepSt) : (closeStep s r x).drl = s.drl := by
  unfold closeStep
  split <;> simp

@[simp] theorem tryClose_drl (s : State) (run n : Nat) : (tryClose s run n).drl = s.drl := by
  unfold tryClose
  split <;> simp

@[simp] theorem addCarry_drl (s : State) (r : Run) (x : StepSt) (c : Carry) : (addCarry s r x c).drl = s.drl := by simp [addCarry]

@[simp] theorem lateContrib_drl (s : State) (r : Run) (x : StepSt) (c : Contrib) : (lateContrib s r x c).drl = s.drl := by
  simp only [lateContrib]
  (repeat' split) <;> simp

@[simp] theorem sealContrib_drl (s : State) (c : Contrib) : (sealContrib s c).drl = s.drl := by
  simp only [sealContrib]
  (repeat' split) <;> simp

@[simp] theorem abortContrib_drl (s : State) (c : Contrib) : (abortContrib s c).drl = s.drl := by simp [abortContrib]

@[simp] theorem addContrib_drl (s : State) (c : Contrib) (w : Nat × List Byte) : (addContrib s c w).drl = s.drl := by
  simp only [addContrib]
  (repeat' split) <;> simp

@[simp] theorem openStep_drl (s : State) (run n : Nat) : (openStep s run n).drl = s.drl := by
  unfold openStep
  split <;> simp

@[simp] theorem countLocal_drl (s : State) (run n addr : Nat) : (countLocal s run n addr).drl = s.drl := by
  simp only [countLocal]
  (repeat' split) <;> simp

-- The update units (Machine/Upu)

@[simp] theorem spendFree_drl (s : State) (n : Nat) : (spendFree s n).drl = s.drl := (rfl)

@[simp] theorem modUpdate_drl (s : State) (run shard n : Nat) (f : Update → Update) : (modUpdate s run shard n f).drl = s.drl := by simp [modUpdate]

theorem drl_of_takeRegion {s t : State} {u : Update} {k g : Nat} (h : takeRegion s u k = some (g, t)) : t.drl = s.drl := by
  obtain ⟨_, -, he⟩ := Option.map_eq_some_iff.1 h
  cases he
  simp

@[simp] theorem runUpdate_drl (s : State) (r : Run) (x : StepSt) (u : Update) : (runUpdate s r x u).drl = s.drl := by
  simp only [runUpdate]
  split
  · simp
  · generalize hgo : List.foldl _ _ _ = a
    have ha : a.1.drl = s.drl := by
      rw [← hgo, foldl_fst_drl fun b i => ?_]
      split
      · rfl
      · split
        · rfl
        · simp [drl_of_takeRegion ‹_›]
    split
    · simp [ha]
    · split
      · simp [ha]
      · simp [drl_of_takeRegion ‹_›, ha]

@[simp] theorem layerNorms_drl (s : State) (r : Run) (x : StepSt) (layer : Nat) : (layerNorms s r x layer).drl = s.drl := by simp [layerNorms]

@[simp] theorem endPoolWait_drl (s : State) (p : Option (Nat × Nat)) : (endPoolWait s p).drl = s.drl := by
  unfold endPoolWait
  (repeat' split) <;> simp

@[simp] theorem reserveUpdate_drl (s : State) (u : Update) : (reserveUpdate s u).drl = s.drl := by
  unfold reserveUpdate
  split <;> simp

@[simp] theorem startUpdate_drl (s : State) (u : Update) : (startUpdate s u).drl = s.drl := by simp [startUpdate]

@[simp] theorem dropSlow_drl (s : State) (u : Update) : (dropSlow s u).drl = s.drl := by simp [dropSlow]

@[simp] theorem keepsMap_execSyncUpdate (run shard : Nat) (s : State) : KeepsMap s (execSyncUpdate run shard s) := by
  unfold execSyncUpdate
  (repeat' split) <;> simp

@[simp] theorem keepsMap_execSlowUpdate (run shard : Nat) (s : State) : KeepsMap s (execSlowUpdate run shard s) := by
  unfold execSlowUpdate
  (repeat' split) <;> simp

@[simp] theorem keepsMap_execPoolReservationRetry (run shard : Nat) (s : State) : KeepsMap s (execPoolReservationRetry run shard s) := by
  unfold execPoolReservationRetry
  (repeat' split) <;> simp

@[simp] theorem keepsMap_execUpdateDone (run shard : Nat) (s : State) : KeepsMap s (execUpdateDone run shard s) := by
  unfold execUpdateDone
  (repeat' split) <;> simp

@[simp] theorem releaseOld_drl (s : State) : (releaseOld s).drl = s.drl := by simp [releaseOld]

@[simp] theorem publishUpdate_drl (s : State) (r : Run) (u : Update) : (publishUpdate s r u).drl = s.drl := by simp [publishUpdate]

-- What an image writes into its placement (Machine/Place)

@[simp] theorem writeS_drl (s : State) (c : Nat) (img : List Byte) (idx : Nat) : (writeS s c img idx).drl = s.drl := by simp [writeS]

@[simp] theorem writeRelocs_drl (s : State) (c : Nat) (img : List Byte) (bufs : List Buf) (idx lcore : Nat) :
    (writeRelocs s c img bufs idx lcore).drl = s.drl :=
  foldl_drl (fun s o => by (repeat' split) <;> simp) _ s

@[simp] theorem initSram_drl (s : State) (c : Nat) (img : List Byte) (bufs : List Buf) (idx lcore : Nat) :
    (initSram s c img bufs idx lcore).drl = s.drl := by
  simp [initSram]

@[simp] theorem clearSram_drl (s : State) (c : Nat) : (clearSram s c).drl = s.drl := (rfl)

@[simp] theorem initWkc_drl (s : State) (x : Slot) : (initWkc s x).drl = s.drl := by simp [initWkc]

theorem drl_of_copyRanges {l : List (Nat × Nat × Nat)} {s t : State} (h : copyRanges l s = .ok t) : t.drl = s.drl := by
  induction l generalizing s with
  | nil => cases h; rfl
  | cons g l ih =>
    rw [copyRanges] at h
    split at h
    · split at h
      · exact (ih h).trans (drl_of_writeMem ‹_›)
      · nomatch h
    · nomatch h

-- Takes (Machine/Take)

@[simp] theorem keepsMap_execCut (q : Issue) (k : Nat) (s : State) : KeepsMap s (execCut q k s) := by simp [execCut]

@[simp] theorem keepsMap_execTend (q : Issue) (s : State) : KeepsMap s (execTend q s) := by simp [execTend]

@[simp] theorem sealTake_drl (s : State) (t : Take) : (sealTake s t).drl = s.drl := by
  unfold sealTake
  split <;> simp

@[simp] theorem cutCopy_drl (s : State) (t : Take) (e : Entry) (k : Nat) : (cutCopy s t e k).drl = s.drl := by
  simp only [cutCopy]
  split
  · simp
  · simp [drl_of_copyRanges ‹_›]

@[simp] theorem reachCut_drl (s : State) (c k : Nat) : (reachCut s c k).drl = s.drl := by
  simp only [reachCut]
  split
  · split
    · rfl
    · split <;> simp [drl_of_writeMem ‹_›]
  · rfl

@[simp] theorem keepsMap_execCutRecorded (st : Nat) (s : State) : KeepsMap s (execCutRecorded st s) := by
  simp only [execCutRecorded]
  (repeat' split) <;> simp

@[simp] theorem freeCores_drl (s : State) (slot : Nat) : (freeCores s slot).drl = s.drl := by simp [freeCores]

@[simp] theorem freeTake_drl (s : State) (t : Take) : (freeTake s t).drl = s.drl := by simp [freeTake]

@[simp] theorem endFinal_drl (s : State) (t : Take) (f : Nat × Nat × Nat × Nat) : (endFinal s t f).drl = s.drl := by simp [endFinal]

@[simp] theorem endTake_countStep_drl (s : State) (t : Take) (e : Entry) : (endTake.countStep t s e).drl = s.drl := by
  unfold endTake.countStep
  split <;> simp

@[simp] theorem endTake_drl (s : State) (t : Take) : (endTake s t).drl = s.drl := by
  simp only [endTake]
  split <;> simp

@[simp] theorem keepsMap_execFenceRelease (c reel : Nat) (s : State) : KeepsMap s (execFenceRelease c reel s) := by
  simp only [execFenceRelease]
  (repeat' split) <;> simp

@[simp] theorem adoptEpoch_drl (s : State) (x : Option EpochSt) : (adoptEpoch s x).drl = s.drl := by simp [adoptEpoch]

@[simp] theorem startCore_drl (s : State) (x : Slot) (e : Entry) (tk : Nat × Nat) (cut : Option Nat) (ep : Nat) (c : Nat) :
    (startCore s x e tk cut ep c).drl = s.drl := by
  unfold startCore
  (repeat' split) <;> simp

@[simp] theorem restoreCut_drl (s : State) (x : Slot) (slot : Nat) (e : Entry) : (restoreCut s x slot e).drl = s.drl := by simp [restoreCut]

@[simp] theorem beginTake_drl (s : State) (e : Entry) (ep : Option EpochSt) (sx : Option (List (Nat × List Byte) × StepSt)) :
    (beginTake s e ep sx).drl = s.drl := by
  simp only [beginTake]
  split <;> simp

@[simp] theorem keepsMap_execTakeStart (st : Nat) (s : State) : KeepsMap s (execTakeStart st s) := by
  simp only [execTakeStart]
  (repeat' split) <;> simp

@[simp] theorem addHist_drl (s : State) (marks : List Nat) (e : Nat × W32) : (addHist s marks e).drl = s.drl := by simp [addHist]

@[simp] theorem writePub_drl (s : State) (e : Entry) (bufs : List Buf) : (writePub s e bufs).drl = s.drl := by simp [writePub]

@[simp] theorem commitTake_drl (s : State) (e : Entry) (t : Take) (status : Nat) (ups : List Update) :
    (commitTake s e t status ups).drl = s.drl := by
  simp only [commitTake]
  (repeat' split) <;> simp

@[simp] theorem keepsMap_execCommit (st : Nat) (s : State) : KeepsMap s (execCommit st s) := by
  unfold execCommit
  (repeat' split) <;> simp

@[simp] theorem keepsMap_execDeadlinePassed (st : Nat) (s : State) : KeepsMap s (execDeadlinePassed st s) := by
  unfold execDeadlinePassed
  split <;> simp

@[simp] theorem keepsMap_execPlacementClear (slot : Nat) (s : State) : KeepsMap s (execPlacementClear slot s) := by
  unfold execPlacementClear
  split <;> simp

@[simp] theorem keepsMap_execCompletionRewrite (st : Nat) (s : State) : KeepsMap s (execCompletionRewrite st s) := by
  simp only [execCompletionRewrite]
  split <;> simp

-- The command intake (Machine/Intake)

@[simp] theorem windowWrite_drl (s : State) (st off : Nat) (d : List Byte) : (windowWrite s st off d).drl = s.drl := by simp [windowWrite]

@[simp] theorem noWait_drl (s : State) (n : Nat) : (noWait s n).drl = s.drl := by simp [noWait]

@[simp] theorem resumeNow_drl (s : State) (st seq next : Nat) : (resumeNow s st seq next).drl = s.drl := by simp [resumeNow]

@[simp] theorem takeRecord_drl (s : State) (st : Nat) (b : List Byte) : (takeRecord s st b).drl = s.drl := by simp [takeRecord]

@[simp] theorem examine_drl (s : State) (st sl : Nat) : (examine s st sl).drl = s.drl := by simp [examine]

@[simp] theorem keepsMap_execCommandRecord (st sl : Nat) (s : State) : KeepsMap s (execCommandRecord st sl s) := by simp [execCommandRecord]

@[simp] theorem keepsMap_execWaitingRecordAccept (st : Nat) (s : State) : KeepsMap s (execWaitingRecordAccept st s) := by
  simp [execWaitingRecordAccept]

@[simp] theorem tryCloseStream_drl (s : State) (st : Nat) : (tryCloseStream s st).drl = s.drl := by
  simp only [tryCloseStream]
  (repeat' split) <;> simp

@[simp] theorem eraseSpent_drl (s : State) : (eraseSpent s).drl = s.drl := by simp [eraseSpent]

@[simp] theorem retire_drl (s : State) (st seq : Nat) : (retire s st seq).drl = s.drl := by
  unfold retire
  split <;> simp

-- Commands at their turn (Machine/Records)

@[simp] theorem keepsMap_atTurn {s : State} {st cls : Nat} {f : Entry → State} (hf : ∀ e, (f e).drl.pcores = s.drl.pcores) :
    KeepsMap s (atTurn s st cls f) := by
  unfold atTurn
  split <;> simp [hf]

@[simp] theorem done_drl (s : State) (e : Entry) : (done s e).drl = s.drl := by simp [done]

@[simp] theorem conflict_drl (s : State) (e : Entry) (reason : Nat) : (conflict s e reason).drl = s.drl := by simp [conflict]

@[simp] theorem wakeSlot_drl (s : State) (slot : Nat) : (wakeSlot s slot).drl = s.drl := by simp [wakeSlot]

@[simp] theorem beginExit_drl (s : State) (k : Nat) : (beginExit s k).drl = s.drl := by simp [beginExit]

@[simp] theorem wakeFor_drl (s : State) (e : Entry) : (wakeFor s e).drl = s.drl := by simp [wakeFor]

@[simp] theorem headMoment_drl (s : State) (e : Entry) : (headMoment s e).drl = s.drl := by
  simp only [headMoment]
  (repeat' split) <;> simp

@[simp] theorem headOnce_drl (s : State) (e : Entry) : (headOnce s e).drl = s.drl := by simp [headOnce]

@[simp] theorem keepsMap_execRun (st : Nat) (s : State) : KeepsMap s (execRun st s) := by simp [execRun]

@[simp] theorem keepsMap_execStepCmd (st : Nat) (s : State) : KeepsMap s (execStepCmd st s) := by simp [execStepCmd]

@[simp] theorem keepsMap_execResume (st : Nat) (s : State) : KeepsMap s (execResume st s) := by simp [execResume]

@[simp] theorem keepsMap_execMark (st : Nat) (s : State) : KeepsMap s (execMark st s) := by simp [execMark]

@[simp] theorem journaledOutcomes_drl (s : State) (st : Nat) : (journaledOutcomes s st).drl = s.drl := by simp [journaledOutcomes]

@[simp] theorem rewriteAll_drl (s : State) (st old : Nat) : (rewriteAll s st old).drl = s.drl := by simp [rewriteAll]

@[simp] theorem openTarget_drl (s : State) (e : Entry) : (openTarget s e).drl = s.drl := by simp [openTarget]

@[simp] theorem keepsMap_execOpenStream (st : Nat) (s : State) : KeepsMap s (execOpenStream st s) := by simp [execOpenStream]

@[simp] theorem closeTarget_drl (s : State) (e : Entry) : (closeTarget s e).drl = s.drl := by simp [closeTarget]

@[simp] theorem keepsMap_execCloseStream (st : Nat) (s : State) : KeepsMap s (execCloseStream st s) := by simp [execCloseStream]

-- Circuits and the timetable (Machine/Route)

@[simp] theorem writeBank_drl (s : State) (t : Table) (len : Nat) : (writeBank s t len).drl = s.drl := by simp [writeBank]

-- The loader (Machine/Loader)

@[simp] theorem unbindWkcs_drl (s : State) (n : Nat) : (unbindWkcs s n).drl = s.drl := by simp [unbindWkcs]

theorem drl_of_bindIn {s : State} {n lo size : Nat} {t : State × Nat} (h : bindIn s n lo size = some t) : t.1.drl = s.drl := by
  obtain ⟨_, -, rfl⟩ := Option.map_eq_some_iff.1 h
  simp

theorem drl_of_bindWkcs {s : State} {n r : Nat} {img : List Byte} {t : State × List (Nat × Nat × Nat)} (h : bindWkcs s n img r = some t) :
    t.1.drl = s.drl := by
  have bind {o : Option (State × List (Nat × Nat × Nat))} {lo size w k} (ho : ∀ u, o = some u → u.1.drl = s.drl) (u)
      (hu : (o.bind fun a => (bindIn a.1 n lo size).map fun q => (q.1, a.2 ++ [(w, k, q.2)])) = some u) : u.1.drl = s.drl := by
    obtain ⟨a, ha, hq⟩ := Option.bind_eq_some_iff.1 hu
    obtain ⟨q, hb, rfl⟩ := Option.map_eq_some_iff.1 hq
    exact (drl_of_bindIn hb).trans (ho a ha)
  refine foldl_some (P := fun u => u.1.drl = s.drl) (fun o acc hacc u hu => ?_) (fun _ hs => by cases hs; rfl) h
  dsimp only at hu
  split at hu
  · exact bind hacc u hu
  · exact foldl_some (P := fun u => u.1.drl = s.drl) (fun _ _ hb => bind hb) hacc hu

@[simp] theorem placeCore_drl (s : State) (n : Nat) (x : Slot) (idx : Nat) : (placeCore s n x idx).drl = s.drl := by
  simp only [placeCore]
  split <;> simp

@[simp] theorem offCore_drl (s : State) (c : Nat) : (offCore s c).drl = s.drl := (rfl)

@[simp] theorem unplace_drl (s : State) (n : Nat) : (unplace s n).drl = s.drl := by simp [unplace]

@[simp] theorem reboundAll_drl (s : State) (t : Table) (len : Nat) : (reboundAll s t len).drl = s.drl := by simp [reboundAll]

@[simp] theorem renewBounds_drl (s : State) (n : Nat) (t : Table) (len : Nat) : (renewBounds s n t len).drl = s.drl := by simp [renewBounds]

@[simp] theorem dropWait_drl (s : State) (w : LoadWait) : (dropWait s w).drl = s.drl := (rfl)

@[simp] theorem noteForLen_drl (s : State) (w : LoadWait) : (noteForLen s w).drl = s.drl := (rfl)

@[simp] theorem emptySlot_drl (s : State) (n : Nat) : (emptySlot s n).drl = s.drl := by simp [emptySlot]

@[simp] theorem keepsMap_execUnload (st : Nat) (s : State) : KeepsMap s (execUnload st s) := by simp [execUnload]

@[simp] theorem endWaiters_drl (s : State) (n reason : Nat) : (endWaiters s n reason).drl = s.drl := by simp [endWaiters]

theorem drl_of_settleImage {s t : State} {n : Nat} {x : Slot} (h : settleImage s n x = .placed t) : t.drl = s.drl := by
  simp only [settleImage] at h
  split at h
  · nomatch h
  · cases h; simp

theorem drl_of_fitLoad {s t : State} {n : Nat} {img : List Byte} (h : fitLoad s n img = .placed t) : t.drl = s.drl := by
  simp only [fitLoad] at h
  split at h
  · nomatch h
  · split at h
    · nomatch h
    · split at h
      · nomatch h
      · split at h
        · nomatch h
        · exact (drl_of_settleImage h).trans (drl_of_bindWkcs ‹_›)

theorem drl_of_fitMoving {s t : State} {n : Nat} (h : fitMoving s n = .placed t) : t.drl = s.drl := by
  simp only [fitMoving] at h
  split at h
  · nomatch h
  · split at h
    · nomatch h
    · split at h
      · nomatch h
      · exact (drl_of_settleImage h).trans (drl_of_bindWkcs (s := unbindWkcs s n) ‹_›)

@[simp] theorem tryMoving_drl (s : State) (n : Nat) : (tryMoving s n).drl = s.drl := by
  unfold tryMoving
  split
  · simp [drl_of_fitMoving ‹_›]
  · rfl
  · simp
  · simp

@[simp] theorem endLoad_drl (s : State) (e : Entry) (report : List Byte) (c : CInfo) : (endLoad s e report c).drl = s.drl := by simp [endLoad]

@[simp] theorem failLoad_drl (s : State) (e : Entry) (c : CInfo) : (failLoad s e c).drl = s.drl := by simp [failLoad]

@[simp] theorem rejectLoad_drl (s : State) (e : Entry) (f : ImgFail) : (rejectLoad s e f).drl = s.drl := by simp [rejectLoad]

@[simp] theorem doneLoad_drl (s : State) (e : Entry) (n : Nat) : (doneLoad s e n).drl = s.drl := by simp [doneLoad]

@[simp] theorem waitLoad_drl (s : State) (e : Entry) (n reason : Nat) (img : List Byte) : (waitLoad s e n reason img).drl = s.drl := by
  simp [waitLoad]

@[simp] theorem tryLoad_drl (s : State) (e : Entry) (kept : Nat) (img : List Byte) : (tryLoad s e kept img).drl = s.drl := by
  unfold tryLoad
  split
  · simp
  · split
    · simp
    · simp
    · simp
    · simp [drl_of_fitLoad ‹_›]

@[simp] theorem startLoad_drl (s : State) (e : Entry) : (startLoad s e).drl = s.drl := by
  simp only [startLoad]
  (repeat' split) <;> simp

@[simp] theorem keepsMap_execLoad (st : Nat) (s : State) : KeepsMap s (execLoad st s) := by simp [execLoad]

@[simp] theorem takeTurn_drl (s : State) (w : LoadWait) : (takeTurn s w).drl = s.drl := (rfl)

@[simp] theorem keepsMap_execLoadRetry (k : Nat) (s : State) : KeepsMap s (execLoadRetry k s) := by
  simp only [execLoadRetry]
  (repeat' split) <;> simp

@[simp] theorem refence_drl (s : State) (n lcore : Nat) : (refence s n lcore).drl = s.drl := by
  simp only [refence]
  split
  · next u hu =>
    split at hu
    · nomatch hu
    · obtain ⟨t, -, rfl⟩ := Option.map_eq_some_iff.1 hu
      simp
  · simp

-- Queue pairs and zones (Machine/Qp)

@[simp] theorem putZone_drl (s : State) (e : KeyEnt) (z : List Byte) : (putZone s e z).drl = s.drl := by
  unfold putZone
  split <;> simp

@[simp] theorem abortZone_drl (s : State) (e : KeyEnt) : (abortZone s e).drl = s.drl := by
  simp only [abortZone]
  (repeat' split) <;> simp

@[simp] theorem abortZones_drl (s : State) (q : Nat) : (abortZones s q).drl = s.drl := by simp [abortZones]

@[simp] theorem drainQp_drl (s : State) (q : Nat) : (drainQp s q).drl = s.drl := by simp [drainQp]

@[simp] theorem resend_drl (s : State) (q : Nat) : (resend s q).drl = s.drl := by simp [resend]

@[simp] theorem goBack_drl (s : State) (q : Nat) : (goBack s q).drl = s.drl := by simp [goBack]

@[simp] theorem moveQp_drl (s : State) (q : Nat) : (moveQp s q).drl = s.drl := by simp [moveQp]

@[simp] theorem migrateQp_drl (s : State) (q : Nat) : (migrateQp s q).drl = s.drl := by simp [migrateQp]

@[simp] theorem portFall_drl (s : State) (p : Nat) : (portFall s p).drl = s.drl := by simp [portFall]

@[simp] theorem holdPort_drl (s : State) (p : Nat) : (holdPort s p).drl = s.drl := by simp [holdPort]

@[simp] theorem dueReinits_drl (s : State) : (dueReinits s).drl = s.drl := by simp [dueReinits]

@[simp] theorem landingFail_drl (s : State) (st seq landing q : Nat) (denied : Bool) : (landingFail s st seq landing q denied).drl = s.drl := by
  unfold landingFail
  split <;> simp

@[simp] theorem failMsg_drl (s : State) (q : Nat) (denied : Bool) (m : Msg) : (failMsg s q denied m).drl = s.drl := by
  unfold failMsg
  (repeat' split) <;> simp

@[simp] theorem downQp_drl (s : State) (q : Nat) (dest : QpState) (denied : Option Nat) : (downQp s q dest denied).drl = s.drl := by simp [downQp]

@[simp] theorem errorQp_drl (s : State) (q : Nat) (denied : Option Nat) : (errorQp s q denied).drl = s.drl := by simp [errorQp]

@[simp] theorem answer_drl (s : State) (q : Nat) (m : Msg) : (answer s q m).drl = s.drl := by simp [answer]

@[simp] theorem sendAck_drl (s : State) (q psn : Nat) : (sendAck s q psn).drl = s.drl := by simp [sendAck]

@[simp] theorem sendNak_drl (s : State) (q psn code : Nat) : (sendNak s q psn code).drl = s.drl := by simp [sendNak]

-- POOL and the network operations of MANIFEST (Machine/NetCmd)

@[simp] theorem keepsMap_opTurn {s : State} {st cls op : Nat} {f : Entry → State} (hf : ∀ e, (f e).drl.pcores = s.drl.pcores) :
    KeepsMap s (opTurn s st cls op f) :=
  keepsMap_atTurn fun e => by split <;> simp [hf]

theorem drl_of_allOrNone {α : Type} {f : State → α → Option State} (hf : ∀ s a t, f s a = some t → t.drl = s.drl)
    {l : List α} {s t : State} (h : allOrNone f s l = some t) : t.drl = s.drl := by
  induction l generalizing s with
  | nil => cases h; rfl
  | cons a l ih =>
    obtain ⟨u, hu, ht⟩ := Option.bind_eq_some_iff.1 h
    exact (ih ht).trans (hf _ _ _ hu)

theorem doneOr_drl {s : State} {t : Option State} (h : ∀ u, t = some u → u.drl = s.drl) (e : Entry) (reason : Nat) :
    (doneOr s e reason t).drl = s.drl := by
  cases t with
  | none => simp [doneOr]
  | some u => simp [doneOr, h]

theorem drl_of_giveRegion {s t : State} {g : Nat} (h : giveRegion s g = some t) : t.drl = s.drl := by
  unfold giveRegion at h
  split at h
  · cases h; simp
  · nomatch h

theorem drl_of_takeBackRegion {s t : State} {g : Nat} (h : takeBackRegion s g = some t) : t.drl = s.drl := by
  unfold takeBackRegion at h
  split at h
  · split at h
    · cases h; simp
    · nomatch h
  · nomatch h

@[simp] theorem keepsMap_execGive (st : Nat) (s : State) : KeepsMap s (execGive st s) :=
  keepsMap_opTurn fun e => by rw [doneOr_drl (fun u => drl_of_allOrNone fun _ _ _ => drl_of_giveRegion)]

@[simp] theorem keepsMap_execTakeBack (st : Nat) (s : State) : KeepsMap s (execTakeBack st s) :=
  keepsMap_opTurn fun e => by rw [doneOr_drl (fun u => drl_of_allOrNone fun _ _ _ => drl_of_takeBackRegion)]

theorem drl_of_adoptRun {s t : State} {a : Nat} (h : adoptRun s a = some t) : t.drl = s.drl := by
  simp only [adoptRun] at h
  (repeat' split at h) <;> cases h
  simp

@[simp] theorem keepsMap_execAdopt (st : Nat) (s : State) : KeepsMap s (execAdopt st s) :=
  keepsMap_opTurn fun e => by
    split
    · simp
    · simp [drl_of_adoptRun ‹_›]

@[simp] theorem releaseRun_drl (s : State) (r : Run) : (releaseRun s r).drl = s.drl := by simp [releaseRun]

@[simp] theorem keepsMap_execRelease (st : Nat) (s : State) : KeepsMap s (execRelease st s) :=
  keepsMap_opTurn fun e => by split <;> simp

@[simp] theorem setQpair_drl (s : State) (b : List Byte) : (setQpair s b).drl = s.drl := by simp [setQpair]

theorem drl_of_qpsetEntry {s t : State} {b : List Byte} (h : qpsetEntry s b = some t) : t.drl = s.drl := by
  simp only [qpsetEntry] at h
  (repeat' split at h) <;> cases h <;> simp

@[simp] theorem qpsetWhole_drl (s : State) (e : Entry) : (qpsetWhole s e).drl = s.drl :=
  doneOr_drl (fun _ => drl_of_allOrNone fun _ _ _ => drl_of_qpsetEntry) e _

@[simp] theorem keepsMap_execQpsetSet (st : Nat) (s : State) : KeepsMap s (execQpsetSet st s) := by simp [execQpsetSet]

@[simp] theorem keepsMap_execQpsetReset (st : Nat) (s : State) : KeepsMap s (execQpsetReset st s) := by simp [execQpsetReset]

@[simp] theorem setKey_drl (s : State) (k : Nat) (e : KeyEnt) : (setKey s k e).drl = s.drl := by simp [setKey]

theorem drl_of_keysetEntry {s t : State} {b : List Byte} (h : keysetEntry s b = some t) : t.drl = s.drl := by
  simp only [keysetEntry] at h
  (repeat' split at h) <;> cases h <;> simp

@[simp] theorem keysetWhole_drl (s : State) (e : Entry) : (keysetWhole s e).drl = s.drl :=
  doneOr_drl (fun _ => drl_of_allOrNone fun _ _ _ => drl_of_keysetEntry) e _

@[simp] theorem keepsMap_execKeyset (st : Nat) (s : State) : KeepsMap s (execKeyset st s) := by simp [execKeyset]

@[simp] theorem keepsMap_execKeyRevoke (st : Nat) (s : State) : KeepsMap s (execKeyRevoke st s) := by simp [execKeyRevoke]

@[simp] theorem keepsMap_execEpoch (st : Nat) (s : State) : KeepsMap s (execEpoch st s) :=
  keepsMap_opTurn fun e => by
    rw [doneOr_drl fun u hu => ?_]
    split at hu <;> cases hu
    rfl

@[simp] theorem wipeSak_drl (s : State) (e : Entry) : (wipeSak s e).drl = s.drl := by simp [wipeSak]

theorem drl_of_saEntry {s t : State} {b : List Byte} (h : saEntry s b = some t) : t.drl = s.drl := by
  simp only [saEntry] at h
  (repeat' split at h) <;> cases h <;> simp

@[simp] theorem keepsMap_execSa (st : Nat) (s : State) : KeepsMap s (execSa st s) :=
  keepsMap_opTurn fun e => by
    split
    · next ht => simp [drl_of_allOrNone (fun _ _ _ => drl_of_saEntry) ht]
    · simp

-- Firmware, attestation and identity (Machine/Sec)

@[simp] theorem noteSlot_drl (s : State) (slot : Nat) : (noteSlot s slot).drl = s.drl := by simp [noteSlot]

@[simp] theorem onStream0_drl {s t : State} (h : t.drl = s.drl) (e : Entry) : (onStream0 s e t).drl = s.drl := by
  simp [onStream0, h]

@[simp] theorem imageConflict_drl (s : State) (e : Entry) (n : Nat) : (imageConflict s e n).drl = s.drl := by simp [imageConflict]

@[simp] theorem fwWrite_drl (s : State) (e : Entry) (flashOk : Bool) : (fwWrite s e flashOk).drl = s.drl := by
  simp only [fwWrite]
  (repeat' split) <;> simp

@[simp] theorem keepsMap_execFwWrite (st : Nat) (flashOk : Bool) (s : State) : KeepsMap s (execFwWrite st flashOk s) := by simp [execFwWrite]

@[simp] theorem fwActivate_drl (s : State) (e : Entry) (flashOk : Bool) : (fwActivate s e flashOk).drl = s.drl := by
  simp only [fwActivate]
  (repeat' split) <;> simp

@[simp] theorem keepsMap_execFwActivate (st : Nat) (flashOk : Bool) (s : State) : KeepsMap s (execFwActivate st flashOk s) := by
  simp [execFwActivate]

@[simp] theorem restLeaves_drl (s : State) : (restLeaves s).drl = s.drl := by rw [restLeaves]

@[simp] theorem reserveBlock_drl (s : State) (b : Nat) : (reserveBlock s b).drl = s.drl := by simp [reserveBlock]

@[simp] theorem attestSign_drl (s : State) (e : Entry) : (attestSign s e).drl = s.drl := by simp [attestSign]

@[simp] theorem attest_drl (s : State) (e : Entry) (flashOk : Bool) : (attest s e flashOk).drl = s.drl := by
  unfold attest
  (repeat' split) <;> simp

@[simp] theorem keepsMap_execAttest (st : Nat) (flashOk : Bool) (s : State) : KeepsMap s (execAttest st flashOk s) := by simp [execAttest]

@[simp] theorem idset_drl (s : State) (e : Entry) (flashOk : Bool) : (idset s e flashOk).drl = s.drl := by simp [idset]

@[simp] theorem keepsMap_execIdset (st : Nat) (flashOk : Bool) (s : State) : KeepsMap s (execIdset st flashOk s) := by simp [execIdset]

@[simp] theorem blowFuses_drl (s : State) (slot : Nat) : (blowFuses s slot).drl = s.drl := by simp [blowFuses]

@[simp] theorem noteOther_drl (s : State) (slot : Nat) : (noteOther s slot).drl = s.drl := by simp [noteOther]

@[simp] theorem noteDigest_drl (s : State) (slot : Nat) : (noteDigest s slot).drl = s.drl := by simp [noteDigest]

@[simp] theorem bootFrom_drl (s : State) (slot : Nat) : (bootFrom s slot).drl = s.drl := by simp [bootFrom]

-- The dailies, and how freezes, halts and warm resets begin (Machine/Dailies)

@[simp] theorem freeBytes_drl (s : State) (n : Nat) : (freeBytes s n).2.drl = s.drl := by simp [freeBytes]

@[simp] theorem freeLen_drl (s : State) (bound : Nat) : (freeLen s bound).2.drl = s.drl := by simp [freeLen]

@[simp] theorem moveDailies_drl (s : State) (v : W64) : (moveDailies s v).drl = s.drl := by simp [moveDailies]

@[simp] theorem queueSect_drl (s : State) (c key depth : Nat) : (queueSect s c key depth).2.drl = s.drl := by simp [queueSect]

theorem joinSects_drl {l : List (State → List Byte × State)} (hl : ∀ f ∈ l, ∀ s, (f s).2.drl = s.drl) (s : State) :
    (joinSects l s).2.drl = s.drl := by
  induction l generalizing s with
  | nil => rfl
  | cons f t ih =>
    have ht := fun s => ih (fun g hg => hl g (.tail _ hg)) s
    simp [joinSects, ht, hl f]

@[simp] theorem csqSect_drl (s : State) (c : Nat) : (csqSect s c).2.drl = s.drl := by
  simp only [csqSect]
  rw [joinSects_drl fun f hf s => ?_]
  obtain ⟨e, -, rfl⟩ := List.mem_map.1 hf
  exact queueSect_drl ..

@[simp] theorem mxeSetSect_drl (c set : Nat) (s : State) : (mxeSetSect c set s).2.drl = s.drl := by
  unfold mxeSetSect
  split <;> simp

@[simp] theorem mxeSect_drl (s : State) (c : Nat) : (mxeSect s c).2.drl = s.drl :=
  joinSects_drl (by simp) s

@[simp] theorem redSect_drl (s : State) (c : Nat) : (redSect s c).2.drl = s.drl :=
  joinSects_drl (by simp) s

@[simp] theorem vceSect_drl (s : State) (c : Nat) : (vceSect s c).2.drl = s.drl :=
  joinSects_drl (by simp) s

@[simp] theorem muSect_drl (s : State) (c m : Nat) : (muSect s c m).2.drl = s.drl := by
  refine joinSects_drl (fun f hf s => ?_) s
  simp only [List.mem_append, List.mem_cons, List.mem_map, List.not_mem_nil, or_false] at hf
  obtain ((rfl | rfl | rfl | rfl) | ⟨i, -, rfl⟩) | rfl := hf
  case inl.inr => dsimp only; split <;> simp
  all_goals simp

@[simp] theorem routerSect_drl (s : State) (c : Nat) : (routerSect s c).2.drl = s.drl := by simp [routerSect]

@[simp] theorem coreSects_drl (scope c : Nat) (bad : List Nat) (s : State) : (coreSects scope c bad s).2.drl = s.drl := by
  refine foldl_snd_drl (fun f hf a => ?_) _
  simp only [List.mem_append, List.mem_cons, List.mem_map, List.not_mem_nil, or_false] at hf
  obtain (((rfl | rfl | rfl | rfl) | ⟨m, -, rfl⟩) | hf) | rfl := hf
  case inl.inr =>
    split at hf
    · obtain ⟨m, -, rfl⟩ := List.mem_map.1 hf
      rfl
    · nomatch hf
  all_goals simp

@[simp] theorem dieSect_drl (s : State) (d : Nat) : (dieSect s d).2.drl = s.drl := by simp [dieSect]

@[simp] theorem hubSect_drl (s : State) (h : Nat) : (hubSect s h).2.drl = s.drl := by
  unfold hubSect
  split <;> simp

@[simp] theorem allSects_drl (s : State) (scope : Nat) (bad : List Nat) : (allSects s scope bad).2.drl = s.drl := by
  simp only [allSects]
  split
  · rfl
  · refine foldl_snd_drl (fun f hf a => ?_) _
    simp only [List.mem_append, List.mem_flatMap, List.mem_cons, List.mem_map] at hf
    obtain ⟨h, -, rfl⟩ | ⟨d, -, rfl | ⟨p, -, rfl⟩⟩ := hf
    · simp
    · simp
    · dsimp only
      split <;> simp

@[simp] theorem putHeader_drl (s : State) (status nsect bytes : Nat) : (putHeader s status nsect bytes).drl = s.drl := by simp [putHeader]

@[simp] theorem openHeader_drl (s : State) (status : Nat) : (openHeader s status).drl = s.drl := by simp [openHeader]

@[simp] theorem placeSects_drl (base len : Nat) (l : List Sect) (a : State × Nat × List Byte × Nat × Bool) :
    (placeSects base len l a).1.drl = a.1.drl := by
  induction l generalizing a with
  | nil => rfl
  | cons x t ih => simp [placeSects, ih]

@[simp] theorem readOut_drl (s : State) (bad : List Nat) : (readOut s bad).drl = s.drl := by simp [readOut]

@[simp] theorem sleepMemories_drl (s : State) : (sleepMemories s).drl = s.drl := by simp [sleepMemories]

@[simp] theorem wakeMemories_drl (s : State) : (wakeMemories s).drl = s.drl := by simp [wakeMemories]

@[simp] theorem wakeArea_drl (s : State) : (wakeArea s).drl = s.drl := by simp [wakeArea]

@[simp] theorem sleepArea_drl (s : State) : (sleepArea s).drl = s.drl := by simp [sleepArea]

@[simp] theorem wakeNapped_pcores (s : State) : (wakeNapped s).drl.pcores = s.drl.pcores := by simp [wakeNapped]

@[simp] theorem napAgain_pcores (s : State) : (napAgain s).drl.pcores = s.drl.pcores := by simp [napAgain]

@[simp] theorem stopClocks_pcores (s : State) (frz : FrzState) (cause scope : Nat) :
    (stopClocks s frz cause scope).drl.pcores = s.drl.pcores := (rfl)

@[simp] theorem beginFreeze_pcores (s : State) (cause scope : Nat) : (beginFreeze s cause scope).drl.pcores = s.drl.pcores := by simp [beginFreeze]

@[simp] theorem beginPinFreeze_pcores (s : State) : (beginPinFreeze s).drl.pcores = s.drl.pcores := by simp [beginPinFreeze]

@[simp] theorem eraseJournals_drl (s : State) : (eraseJournals s).drl = s.drl := by simp [eraseJournals]

@[simp] theorem haltDevice_pcores (s : State) : (haltDevice s).drl.pcores = s.drl.pcores := by simp [haltDevice]

@[simp] theorem beginWarm_pcores (s : State) (cause : Nat) : (beginWarm s cause).drl.pcores = s.drl.pcores := by simp [beginWarm]

@[simp] theorem ownWarm_pcores (s : State) : (ownWarm s).drl.pcores = s.drl.pcores := by
  unfold ownWarm
  (repeat' split) <;> simp

-- Faults (Machine/Fault)

@[simp] theorem fenceTake_drl (s : State) (c lcore : Nat) : (fenceTake s c lcore).drl = s.drl := by
  unfold fenceTake
  split <;> simp

@[simp] theorem keepsMap_execFenceFail (c : Nat) (s : State) : KeepsMap s (execFenceFail c s) := by simp [execFenceFail]

@[simp] theorem logbookLost_pcores (s : State) : (logbookLost s).drl.pcores = s.drl.pcores := by simp [logbookLost]

@[simp] theorem loseCopy_pcores (s : State) (k : Nat) : (loseCopy s k).drl.pcores = s.drl.pcores := by
  simp only [loseCopy]
  (repeat' split) <;> simp

@[simp] theorem dropMem_drl (s : State) (k : Nat) : (dropMem s k).drl = s.drl := by simp [dropMem]

@[simp] theorem failMem_pcores (s : State) (k : Nat) : (failMem s k).drl.pcores = s.drl.pcores := by
  unfold failMem
  (repeat' split) <;> simp

@[simp] theorem keepsMap_execLogbookRebuildDone (s : State) : KeepsMap s (execLogbookRebuildDone s) := by
  unfold execLogbookRebuildDone
  split <;> simp

@[simp] theorem restartUnit_drl (s : State) (u : Nat) : (restartUnit s u).drl = s.drl := by simp [restartUnit]

@[simp] theorem keepsMap_execUpuArrayFault (u : Nat) (s : State) : KeepsMap s (execUpuArrayFault u s) := by simp [execUpuArrayFault]

@[simp] theorem failHub_pcores (s : State) (h : Nat) : (failHub s h).drl.pcores = s.drl.pcores := by simp [failHub]

@[simp] theorem cutLink_drl (s : State) (d side : Nat) : (cutLink s d side).drl = s.drl := by simp [cutLink]

@[simp] theorem keepsMap_execLinkD2dFault (d side : Nat) (s : State) : KeepsMap s (execLinkD2dFault d side s) := by
  simp only [execLinkD2dFault]
  split <;> simp

@[simp] theorem keepsMap_execDerlerWatchdog (s : State) : KeepsMap s (execDerlerWatchdog s) := by
  unfold execDerlerWatchdog
  split <;> simp

@[simp] theorem keepsMap_execHubFailure (h : Nat) (s : State) : KeepsMap s (execHubFailure h s) := by simp [execHubFailure]

@[simp] theorem setArea_drl (s : State) (a v : Nat) : (setArea s a v).drl = s.drl := by simp [setArea]

@[simp] theorem rearm_drl (s : State) : (rearm s).drl = s.drl := (rfl)

@[simp] theorem eraseArea_drl (s : State) (a : Nat) : (eraseArea s a).drl = s.drl := by simp [eraseArea]

@[simp] theorem keepsMap_execJournalFlashFail (a : Nat) (s : State) : KeepsMap s (execJournalFlashFail a s) := by simp [execJournalFlashFail]

@[simp] theorem keepsMap_execJournalEraseRetry (s : State) : KeepsMap s (execJournalEraseRetry s) := by simp [execJournalEraseRetry]

@[simp] theorem keepsMap_execJournalAreaErased (a : Nat) (s : State) : KeepsMap s (execJournalAreaErased a s) := by simp [execJournalAreaErased]

@[simp] theorem keepsMap_execPortDown (p : Nat) (s : State) : KeepsMap s (execPortDown p s) := by simp [execPortDown]

@[simp] theorem finishMoves_drl (s : State) (p : Nat) : (finishMoves s p).drl = s.drl := by simp [finishMoves]

@[simp] theorem keepsMap_execPortUp (p : Nat) (s : State) : KeepsMap s (execPortUp p s) := by simp [execPortUp]

@[simp] theorem reinitPort_drl (s : State) (p : Nat) : (reinitPort s p).drl = s.drl := by simp [reinitPort]

@[simp] theorem reinitUpu_drl (s : State) (u : Nat) : (reinitUpu s u).drl = s.drl := by simp [reinitUpu]

@[simp] theorem setGroup_drl (s : State) (k g : Nat) (x : CalGroup) : (setGroup s k g x).drl = s.drl := (rfl)

@[simp] theorem enterRetrain_drl (s : State) (k : Nat) : (enterRetrain s k).drl = s.drl := by simp [enterRetrain]

@[simp] theorem reinitMem_drl (s : State) (k : Nat) : (reinitMem s k).drl = s.drl := by simp [reinitMem]

-- Freezes (Machine/Freeze)

@[simp] theorem modDrl_drl (s : State) (f : Drl → Drl) : (modDrl s f).drl = f s.drl := rfl

@[simp] theorem tellFrozen_drl (s : State) : (tellFrozen s).drl = s.drl := by simp [tellFrozen]

@[simp] theorem endFreezeCmd_drl (s : State) : (endFreezeCmd s).drl = s.drl := by simp [endFreezeCmd]

@[simp] theorem keepsMap_execPinFreeze (s : State) : KeepsMap s (execPinFreeze s) := by
  simp only [execPinFreeze]
  (repeat' split) <;> exact keepsMap_next (by simp)

@[simp] theorem freezeCmd_pcores (s : State) (e : Entry) : (freezeCmd s e).drl.pcores = s.drl.pcores := by simp [freezeCmd]

@[simp] theorem keepsMap_execFreezeThaw (st : Nat) (s : State) : KeepsMap s (execFreezeThaw st s) := by simp [execFreezeThaw]

@[simp] theorem keepsMap_execFreezeReset (st : Nat) (s : State) : KeepsMap s (execFreezeReset st s) := by simp [execFreezeReset]

@[simp] theorem keepsMap_execFreezeEnd (s : State) : KeepsMap s (execFreezeEnd s) := by simp [execFreezeEnd]

-- Power, power-up and resets (Machine/Board)

@[simp] theorem writeJournal_drl (s : State) : (writeJournal s).drl = s.drl := by
  simp only [writeJournal]
  split <;> simp

@[simp] theorem dropRails_drl (s : State) : (dropRails s).drl = s.drl := by simp [dropRails]

@[simp] theorem failPower_pcores (s : State) : (failPower s).drl.pcores = s.drl.pcores := by simp [failPower]

@[simp] theorem startFlush_pcores (s : State) : (startFlush s).drl.pcores = s.drl.pcores := by
  simp only [startFlush]
  split <;> simp

@[simp] theorem keepsMap_execPwrFail (s : State) : KeepsMap s (execPwrFail s) := by
  unfold execPwrFail
  (repeat' split) <;> simp

@[simp] theorem keepsMap_execColdResetAssert (s : State) : KeepsMap s (execColdResetAssert s) := by simp [execColdResetAssert]

@[simp] theorem keepsMap_execFlushDone (s : State) : KeepsMap s (execFlushDone s) := by
  unfold execFlushDone
  split <;> simp

@[simp] theorem keepsMap_execRailRestore (cause : Nat) (s : State) : KeepsMap s (execRailRestore cause s) := by simp [execRailRestore]

@[simp] theorem keepsMap_execThermalTrip (d : Nat) (s : State) : KeepsMap s (execThermalTrip d s) := by
  unfold execThermalTrip
  split <;> simp

@[simp] theorem failPart_pcores (s : State) (part : Nat) : (failPart s part).drl.pcores = s.drl.pcores := by
  unfold failPart
  split <;> simp

@[simp] theorem keepsMap_execRailFault (part : Nat) (s : State) : KeepsMap s (execRailFault part s) := by
  simp only [execRailFault]
  (repeat' split) <;> simp

@[simp] theorem bootFail_pcores (s : State) (code : Nat) : (bootFail s code).drl.pcores = s.drl.pcores := by simp [bootFail]

@[simp] theorem readJournal_drl (s : State) : (readJournal s).drl = s.drl := by
  unfold readJournal
  split <;> simp

@[simp] theorem readyMem_drl (s : State) (k : Nat) : (readyMem s k).drl = s.drl := (rfl)

@[simp] theorem trainMems_drl (s : State) : (trainMems s).drl = s.drl := by simp [trainMems]

@[simp] theorem confirmMems_drl (s : State) : (confirmMems s).drl = s.drl := by simp [confirmMems]

@[simp] theorem placeCopies_drl (s : State) : (placeCopies s).drl = s.drl := by simp [placeCopies]

@[simp] theorem openStream0_drl (s : State) : (openStream0 s).drl = s.drl := by simp [openStream0]

@[simp] theorem enterReady_pcores (s : State) : (enterReady s).drl.pcores = s.drl.pcores := by
  simp only [enterReady]
  (repeat' split) <;> simp

@[simp] theorem beginFill_drl (s : State) : (beginFill s).drl = s.drl := by simp [beginFill]

@[simp] theorem keepsMap_execColdReady (s : State) : KeepsMap s (execColdReady s) := by simp [execColdReady]

@[simp] theorem keepsMap_execWarmResetAssert (s : State) : KeepsMap s (execWarmResetAssert s) := by
  simp only [execWarmResetAssert]
  split
  · simp
  · refine keepsMap_next ?_
    split <;> simp

@[simp] theorem retakeWarm_drl (s : State) (t : Take) : (retakeWarm s t).drl = s.drl := by simp [retakeWarm]

@[simp] theorem rewriteRoots_drl (s : State) (e : Entry) (c : CommitList) : (rewriteRoots s e c).drl = s.drl := by
  unfold rewriteRoots
  split <;> simp

@[simp] theorem repeatCommit_drl (s : State) (e : Entry) : (repeatCommit s e).drl = s.drl := by
  unfold repeatCommit
  split <;> simp

@[simp] theorem rewriteEnded_drl (s : State) : (rewriteEnded s).drl = s.drl := by simp [rewriteEnded]

@[simp] theorem rerouteAll_drl (s : State) : (rerouteAll s).drl = s.drl := by simp [rerouteAll]

@[simp] theorem rewake_drl (s : State) : (rewake s).drl = s.drl := by simp [rewake]

@[simp] theorem resendAll_drl (s : State) : (resendAll s).drl = s.drl := by simp [resendAll]

-- Writes to CSR space (Machine/CsrWrite)

@[simp] theorem moveRing_drl (s : State) (d : Nat) (v : W64) : (moveRing s d v).drl = s.drl := by simp [moveRing]

@[simp] theorem noteHot_drl (was : Bool) (s : State) : (noteHot was s).drl = s.drl := by simp [noteHot]

@[simp] theorem enablePort_drl (s : State) (p : Nat) (on : Bool) : (enablePort s p on).drl = s.drl := by simp [enablePort]

@[simp] theorem keepsMap_execFrzDailiesWrite (v : W64) (s : State) : KeepsMap s (execFrzDailiesWrite v s) := by simp [execFrzDailiesWrite]

@[simp] theorem keepsMap_execObsRingWrite (d : Nat) (v : W64) (s : State) : KeepsMap s (execObsRingWrite d v s) := by simp [execObsRingWrite]

-- The network at the receiver (Machine/Net)

@[simp] theorem noteFrame_drl (s : State) (m : Pkt) : (noteFrame s m).drl = s.drl := by simp [noteFrame]

@[simp] theorem answerCe_drl (s : State) (m : Pkt) : (answerCe s m).drl = s.drl := by simp [answerCe]

@[simp] theorem followPort_drl (s : State) (m : Pkt) : (followPort s m).drl = s.drl := by simp [followPort]

theorem keepsMap_received {s : State} {m : Pkt} {f : State → State} (hf : ∀ t, coreMap t → coreMap (f t)) : KeepsMap s (received s m f) := by
  unfold received
  refine keepsMap_onUnit ?_
  split
  · simp
  · split
    · simp
    · exact keepsMap_next_of fun h => hf _ (coreMap_congr (by simp) h)

@[simp] theorem keepsMap_received_of_drl {s : State} {m : Pkt} {f : State → State} (hf : ∀ t, (f t).drl = t.drl) :
    KeepsMap s (received s m f) :=
  keepsMap_received fun t => coreMap_congr (by rw [hf])

@[simp] theorem atPsn_drl {s : State} {m : Pkt} {dup f : State → State} (hdup : ∀ t, (dup t).drl = t.drl) (hf : ∀ t, (f t).drl = t.drl) :
    (atPsn s m dup f).drl = s.drl := by
  simp [atPsn, hdup, hf]

@[simp] theorem nakInvalid_drl (s : State) (m : Pkt) : (nakInvalid s m).drl = s.drl := by simp [nakInvalid]

@[simp] theorem nakAccess_drl (s : State) (m : Pkt) : (nakAccess s m).drl = s.drl := by simp [nakAccess]

@[simp] theorem ackAgain_drl (s : State) (m : Pkt) : (ackAgain s m).drl = s.drl := by simp [ackAgain]

@[simp] theorem passPsn_drl (s : State) (q n : Nat) : (passPsn s q n).drl = s.drl := (rfl)

@[simp] theorem tryWrite_drl (s : State) (a : Nat) (d : List Byte) : (tryWrite s a d).2.drl = s.drl := by
  unfold tryWrite
  split <;> simp [drl_of_writeMem ‹_›]

@[simp] theorem hostWindow_drl (s : State) (q key st off left : Nat) (d : List Byte) : (hostWindow s q key st off left d).2.drl = s.drl := by
  simp only [hostWindow]
  split <;> simp

@[simp] theorem zoneOpen_drl (s : State) (e : KeyEnt) (z : List Byte) (id : Nat × Nat × Nat) : (zoneOpen s e z id).drl = s.drl := by simp [zoneOpen]

@[simp] theorem takeMsg_drl (s : State) (c : Contrib) : (takeMsg s c).drl = s.drl := by
  unfold takeMsg
  split <;> simp

@[simp] theorem sealTally_drl (s : State) (c : Contrib) : (sealTally s c).drl = s.drl := by simp [sealTally]

@[simp] theorem zoneSeal_drl (s : State) (e : KeyEnt) (z : List Byte) : (zoneSeal s e z).drl = s.drl := by
  simp only [zoneSeal]
  split <;> simp

@[simp] theorem zoneRecord_drl (s : State) (e : KeyEnt) (b : List Byte) : (zoneRecord s e b).2.drl = s.drl := by
  simp only [zoneRecord]
  (repeat' split) <;> simp

@[simp] theorem zoneControl_drl (s : State) (e : KeyEnt) (b : List Byte) : (zoneControl s e b).2.drl = s.drl := by
  unfold zoneControl
  split <;> simp

@[simp] theorem zoneData_drl (s : State) (e : KeyEnt) (o : Nat) (d : List Byte) : (zoneData s e o d).2.drl = s.drl := by
  simp only [zoneData]
  (repeat' split) <;> simp

@[simp] theorem zoneWrite_drl (s : State) (e : KeyEnt) (q va left : Nat) (d : List Byte) (only : Bool) :
    (zoneWrite s e q va left d only).2.drl = s.drl := by
  unfold zoneWrite
  (repeat' split) <;> simp

@[simp] theorem wrote_drl (s : State) (q : Nat) (goesOn : Option (Nat × Nat × Nat)) : (wrote s q goesOn).drl = s.drl := by
  unfold wrote
  split <;> simp

@[simp] theorem keepsMap_execRxInvalidRequest (m : Pkt) (opcode : Nat) (s : State) : KeepsMap s (execRxInvalidRequest m opcode s) := by
  unfold execRxInvalidRequest
  split
  · simp
  · exact keepsMap_received fun _ => coreMap_congr (congrArg Drl.pcores (atPsn_drl (ackAgain_drl · m) (nakInvalid_drl · m)))

@[simp] theorem tryRead_drl (s : State) (a len : Nat) : (tryRead s a len).2.drl = s.drl := by
  unfold tryRead
  split <;> simp

@[simp] theorem plainRead_drl (s : State) (a len : Nat) : (plainRead s a len).2.drl = s.drl := by
  unfold plainRead
  split <;> simp

@[simp] theorem zoneRead_drl (s : State) (e : KeyEnt) (va len : Nat) : (zoneRead s e va len).2.drl = s.drl := by
  unfold zoneRead
  (repeat' split) <;> simp

@[simp] theorem readAccess_drl (s : State) (q key va len : Nat) : (readAccess s q key va len).2.drl = s.drl := by
  unfold readAccess
  (repeat' split) <;> simp

@[simp] theorem inRead_drl (s : State) (m : Pkt) (key va len : Nat) (again : Bool) : (inRead s m key va len again).drl = s.drl := by
  have h := readAccess_drl s m.qp key va len
  unfold inRead
  split
  · simp
  · split <;> simp_all

@[simp] theorem keepsMap_execRxRdmaReadRequest (m : Pkt) (rkey va len : Nat) (s : State) :
    KeepsMap s (execRxRdmaReadRequest m rkey va len s) :=
  keepsMap_received fun _ => coreMap_congr <| congrArg Drl.pcores <|
    atPsn_drl (inRead_drl · m rkey va len true) fun _ => by split <;> simp

-- The network at the sender (Machine/NetAck)

@[simp] theorem ackCompletion_drl (s : State) (st seq : Nat) (b : List Byte) : (ackCompletion s st seq b).drl = s.drl := by
  unfold ackCompletion
  split <;> simp

@[simp] theorem ackWrite_drl (s : State) (c no : Nat) : (ackWrite s c no).drl = s.drl := by
  unfold ackWrite
  split <;> simp

@[simp] theorem ackSeal_drl (s : State) (q st seq landing : Nat) : (ackSeal s q st seq landing).drl = s.drl := by
  simp only [ackSeal]
  (repeat' split) <;> simp

@[simp] theorem ackMsg_drl (s : State) (q : Nat) (m : Msg) : (ackMsg s q m).drl = s.drl := by
  unfold ackMsg
  split <;> simp

@[simp] theorem retireMsgs_drl (s : State) (q : Nat) (ms : List Msg) : (retireMsgs s q ms).drl = s.drl := by simp [retireMsgs]

@[simp] theorem keepsMap_execRxAck (m : Pkt) (s : State) : KeepsMap s (execRxAck m s) :=
  keepsMap_received_of_drl fun t => by split <;> simp

@[simp] theorem versionRead_drl (s : State) (c id second : Nat) (v : W64) : (versionRead s c id second v).drl = s.drl := by
  unfold versionRead
  (repeat' split) <;> simp

@[simp] theorem deliverRead_drl (s : State) (c id row off : Nat) (d : List Byte) : (deliverRead s c id row off d).drl = s.drl := by
  unfold deliverRead
  split
  · rfl
  · split
    · simp
    · dsimp only
      split <;> simp [drl_of_writeMem ‹_›]

@[simp] theorem takeAnswer_drl (s : State) (q : Nat) (f : Msg) (d : List Byte) : (takeAnswer s q f d).drl = s.drl := by
  unfold takeAnswer
  split <;> simp

@[simp] theorem keepsMap_execRxReadResponse (m : Pkt) (data : List Byte) (s : State) : KeepsMap s (execRxReadResponse m data s) := by
  simp only [execRxReadResponse]
  exact keepsMap_received_of_drl fun t => by (repeat' split) <;> simp

@[simp] theorem keepsMap_execRxNak (m : Pkt) (kind : Nat) (s : State) : KeepsMap s (execRxNak m kind s) := by
  simp only [execRxNak]
  exact keepsMap_received_of_drl fun t => by (repeat' split) <;> simp

@[simp] theorem ackTimedOut_drl (s : State) (q : Nat) : (ackTimedOut s q).drl = s.drl := by simp [ackTimedOut]

@[simp] theorem keepsMap_execAckTimeout (q : Nat) (s : State) : KeepsMap s (execAckTimeout q s) := by simp [execAckTimeout]

@[simp] theorem keepsMap_execRxCnp (m : Pkt) (s : State) : KeepsMap s (execRxCnp m s) := by simp [execRxCnp]

@[simp] theorem keepsMap_rateEvent (q : Nat) (s : State) (f : Qp → Qp) : KeepsMap s (rateEvent q s f) := by simp [rateEvent]

@[simp] theorem keepsMap_execAlphaTimer (q : Nat) (s : State) : KeepsMap s (execAlphaTimer q s) := by simp [execAlphaTimer]

@[simp] theorem keepsMap_execRateTimer (q : Nat) (s : State) : KeepsMap s (execRateTimer q s) := by simp [execRateTimer]

@[simp] theorem keepsMap_execRateBytesSent (q : Nat) (s : State) : KeepsMap s (execRateBytesSent q s) := by simp [execRateBytesSent]

@[simp] theorem keepsMap_execRxPfcPause (p prio : Nat) (s : State) : KeepsMap s (execRxPfcPause p prio s) := by simp [execRxPfcPause]

@[simp] theorem keepsMap_execPfcPauseExpiry (p : Nat) (s : State) : KeepsMap s (execPfcPauseExpiry p s) := by simp [execPfcPauseExpiry]

-- The messages of a step (Machine/Votes)

@[simp] theorem keepsMap_execStepCloseTimer (run : Nat) (s : State) : KeepsMap s (execStepCloseTimer run s) := by
  unfold execStepCloseTimer
  (repeat' split) <;> simp

@[simp] theorem dropMsg_drl (s : State) (k : Nat) : (dropMsg s k).drl = s.drl := by simp [dropMsg]

@[simp] theorem keepsMap_onMsg {s : State} {k type : Nat} {early : State → Run → List Byte → State}
    {f : State → Run → StepSt → InMsg → State} (he : ∀ t r b, (early t r b).drl = t.drl) (hf : ∀ t r x m, (f t r x m).drl = t.drl) :
    KeepsMap s (onMsg s k type early f) := by
  simp only [onMsg]
  (repeat' split) <;> simp [he, hf]

@[simp] theorem sendVerdict_drl (s : State) (r : Run) (x : StepSt) : (sendVerdict s r x).drl = s.drl := by simp [sendVerdict]

@[simp] theorem holdReport_drl (s : State) (r : Run) (x : StepSt) (m : InMsg) : (holdReport s r x m).drl = s.drl := by simp [holdReport]

@[simp] theorem keepsMap_execReport (k : Nat) (s : State) : KeepsMap s (execReport k s) := by simp [execReport]

@[simp] theorem sendSigns_drl (s : State) (r : Run) (x : StepSt) (d : Nat) : (sendSigns s r x d).drl = s.drl := by simp [sendSigns]

@[simp] theorem countSkip_drl (s : State) (v : Nat) : (countSkip s v).drl = s.drl := by simp [countSkip]

@[simp] theorem holdVerdict_drl (s : State) (r : Run) (x : StepSt) (m : InMsg) : (holdVerdict s r x m).drl = s.drl := by simp [holdVerdict]

@[simp] theorem earlyVerdict_drl (k : Nat) (s : State) (r : Run) (h : List Byte) : (earlyVerdict k s r h).drl = s.drl := by
  simp only [earlyVerdict]
  (repeat' split) <;> simp

@[simp] theorem keepsMap_execVerdict (k : Nat) (s : State) : KeepsMap s (execVerdict k s) := by simp [execVerdict]

@[simp] theorem writeSigns_drl (s : State) (r : Run) (x : StepSt) (owner : Nat) (codes : List Byte) :
    (writeSigns s r x owner codes).drl = s.drl := by
  simp [writeSigns]

@[simp] theorem recordNotices_drl (s : State) (m : InMsg) : (recordNotices s m).drl = s.drl := by simp [recordNotices]

@[simp] theorem holdSigns_drl (s : State) (r : Run) (x : StepSt) (m : InMsg) : (holdSigns s r x m).drl = s.drl := by simp [holdSigns]

@[simp] theorem keepsMap_execSigns (k : Nat) (s : State) : KeepsMap s (execSigns k s) := by simp [execSigns]

@[simp] theorem partyDetail_drl (s : State) (x : StepSt) (d : Nat) : (partyDetail s x d).2.drl = s.drl := by
  unfold partyDetail
  split <;> simp

@[simp] theorem keepsMap_execVerdictTimeout (st : Nat) (s : State) : KeepsMap s (execVerdictTimeout st s) := by
  unfold execVerdictTimeout
  (repeat' split) <;> simp

-- The memory controllers (Machine/MemCtl)

@[simp] theorem foundUncorr_pcores (s : State) (k a errBit : Nat) : (foundUncorr s k a errBit).drl.pcores = s.drl.pcores := by
  simp only [foundUncorr]
  (repeat' split) <;> simp

@[simp] theorem corrected_drl (s : State) (k : Nat) : (corrected s k).drl = s.drl := (rfl)

@[simp] theorem meetEcc_pcores (s : State) (k a ecc : Nat) : (meetEcc s k a ecc).drl.pcores = s.drl.pcores := by
  unfold meetEcc
  (repeat' split) <;> simp

@[simp] theorem streamAccessFail_drl (s : State) (st : Nat) (r : Access) (a : Nat) : (streamAccessFail s st r a).drl = s.drl := by
  simp only [streamAccessFail]
  (repeat' split) <;> simp

@[simp] theorem keepsMap_execCtrlAccess (write : Bool) (a : Nat) (data : List Byte) (ecc st : Nat) (s : State) :
    KeepsMap s (execCtrlAccess write a data ecc st s) := by
  simp only [execCtrlAccess]
  refine keepsMap_onUnit ?_
  split
  · simp
  · split
    · split <;> simp
    · next k _ =>
      generalize hu : (if meetsEcc (readyCtl s k) write a data.length = true then _ else _) = u
      have hd : u.drl.pcores = s.drl.pcores := by
        rw [← hu]
        split <;> simp
      have ht : (if write then writeMem u a data else ((readMem u a data.length).1, u)).2.drl = u.drl := by
        split <;> simp
      split <;> simp_all

@[simp] theorem maybeSteal_drl (s : State) (k : Nat) : (maybeSteal s k).drl = s.drl := (rfl)

@[simp] theorem keepsMap_execRefresh (k : Nat) (s : State) : KeepsMap s (execRefresh k s) := by simp [execRefresh]

@[simp] theorem keepsMap_execScrub (k a ecc : Nat) (s : State) : KeepsMap s (execScrub k a ecc s) := by
  unfold execScrub
  (repeat' split) <;> simp

@[simp] theorem keepsMap_execLpcFill (k : Nat) (s : State) : KeepsMap s (execLpcFill k s) := by simp [execLpcFill]

@[simp] theorem keepsMap_execTelemetryRead (k temp : Nat) (s : State) : KeepsMap s (execTelemetryRead k temp s) := by simp [execTelemetryRead]

@[simp] theorem keepsMap_execSelfRefreshEnter (k : Nat) (s : State) : KeepsMap s (execSelfRefreshEnter k s) := by simp [execSelfRefreshEnter]

@[simp] theorem keepsMap_execSelfRefreshExit (k : Nat) (s : State) : KeepsMap s (execSelfRefreshExit k s) := by simp [execSelfRefreshExit]

-- Calibration (Machine/Cal)

@[simp] theorem worstMargin_drl (s : State) (k : Nat) : (worstMargin s k).2.drl = s.drl := by
  unfold worstMargin
  split <;> simp

@[simp] theorem reportMargin_drl (s : State) (k : Nat) : (reportMargin s k).drl = s.drl := by simp [reportMargin]

@[simp] theorem countStep_drl (s : State) (i : Nat) : (countStep s i).drl = s.drl := (rfl)

@[simp] theorem moveGroup_drl (s : State) (k g : Nat) (write : Bool) (margin : Nat) (tap : Int) :
    (moveGroup s k g write margin tap).drl = s.drl := by
  simp [moveGroup]

@[simp] theorem judgeGroup_pcores (s : State) (k g : Nat) : (judgeGroup s k g).drl.pcores = s.drl.pcores := by
  simp only [judgeGroup]
  (repeat' split) <;> simp

@[simp] theorem calStep_pcores (s : State) (k g : Nat) (write : Bool) (margin centre ecc : Nat) :
    (calStep s k g write margin centre ecc).drl.pcores = s.drl.pcores := by
  simp only [calStep]
  (repeat' split) <;> simp

@[simp] theorem keepsMap_execCalStep (k y margin centre ecc : Nat) (s : State) : KeepsMap s (execCalStep k y margin centre ecc s) := by
  simp [execCalStep]

@[simp] theorem keepsMap_execSerdesProbe (l margin : Nat) (s : State) : KeepsMap s (execSerdesProbe l margin s) := by simp [execSerdesProbe]

@[simp] theorem keepsMap_execCalSnapshot (s : State) : KeepsMap s (execCalSnapshot s) := by simp [execCalSnapshot]

-- Observability (Machine/Obs)

@[simp] theorem putRecord_drl (s : State) (d kind count part kc : Nat) (rest : List Byte) :
    (putRecord s d kind count part kc rest).drl = s.drl := by
  simp [putRecord]

@[simp] theorem addRecord_drl (s : State) (d kind count part kc : Nat) (rest : List Byte) :
    (addRecord s d kind count part kc rest).drl = s.drl := by
  simp [addRecord]

@[simp] theorem dropSample_drl (s : State) (d : Nat) : (dropSample s d).drl = s.drl := (rfl)

@[simp] theorem stagedNow_drl (s : State) (d : Nat) : (stagedNow s d).2.drl = s.drl := by simp [stagedNow]

@[simp] theorem stageRecords_drl (s : State) (d : Nat) (recs : List (Nat × Nat × Nat × List Byte)) : (stageRecords s d recs).drl = s.drl := by
  simp [stageRecords]

@[simp] theorem sample_drl (s : State) (d : Nat) : (sample s d).drl = s.drl := by simp [sample]

@[simp] theorem keepsMap_execObsSample (d : Nat) (s : State) : KeepsMap s (execObsSample d s) := by simp [execObsSample]

-- The power manager and SMBus (Machine/Power)

@[simp] theorem keepsMap_execCoreNap (c : Nat) (s : State) : KeepsMap s (execCoreNap c s) := by simp [execCoreNap]

@[simp] theorem keepsMap_execNapEntryDone (c : Nat) (s : State) : KeepsMap s (execNapEntryDone c s) := by simp [execNapEntryDone]

@[simp] theorem keepsMap_execCoreWake (c : Nat) (s : State) : KeepsMap s (execCoreWake c s) := by simp [execCoreWake]

@[simp] theorem modPwr_drl (s : State) (f : Pwr → Pwr) : (modPwr s f).drl = s.drl := (rfl)

@[simp] theorem raiseDie_drl (s : State) (d : Nat) : (raiseDie s d).drl = s.drl := by
  unfold raiseDie
  split <;> simp

@[simp] theorem lowerDie_drl (s : State) (d : Nat) : (lowerDie s d).drl = s.drl := by
  unfold lowerDie
  split <;> simp

@[simp] theorem setUnmet_drl (s : State) (on : Bool) : (setUnmet s on).drl = s.drl := by simp [setUnmet]

@[simp] theorem capLevels_drl (s : State) (watts : Nat) : (capLevels s watts).drl = s.drl := by simp [capLevels]

@[simp] theorem supplyReading_pcores (s : State) (input bank : Nat) : (supplyReading s input bank).drl.pcores = s.drl.pcores := by
  simp [supplyReading]

@[simp] theorem addPower_drl (s : State) (b : List Byte) : (addPower s b).drl = s.drl := by simp [addPower]

@[simp] theorem putTemps_drl (s : State) (temps : List Nat) : (putTemps s temps).drl = s.drl := by simp [putTemps]

@[simp] theorem keepsMap_execPowerReading (watts : Nat) (temps : List Nat) (input bank : Nat) (s : State) :
    KeepsMap s (execPowerReading watts temps input bank s) := by
  simp [execPowerReading]

@[simp] theorem keepsMap_execSetPtr (v : W32) (s : State) : KeepsMap s (execSetPtr v s) := keepsMap_when (by simp)

@[simp] theorem keepsMap_execSmbRead (s : State) : KeepsMap s (execSmbRead s) := by
  refine keepsMap_when ?_
  split <;> simp

@[simp] theorem keepsMap_execClrAlert (v : W64) (s : State) : KeepsMap s (execClrAlert v s) := by simp [execClrAlert]

@[simp] theorem keepsMap_execAlertResponse (s : State) : KeepsMap s (execAlertResponse s) := keepsMap_when (by simp)

@[simp] theorem keepsMap_execSmbusClockLowTimeout (s : State) : KeepsMap s (execSmbusClockLowTimeout s) := by simp [execSmbusClockLowTimeout]

-- The map where it changes (R14, R15, R464 to R466)

/-- No physical core fills a logical position. -/
def vacant (s : State) (l : Nat) : Prop := ∀ j, j < 208 → (pcoreOf s j).state = .mapped → (pcoreOf s j).lcore ≠ l

/-- Replacing one core's record leaves the others. -/
theorem pcoreOf_setPcore_ne {s : State} {c i : Nat} (h : i ≠ c) (p : PCore) : pcoreOf (setPcore s c p) i = pcoreOf s i := by
  simp [pcoreOf, setPcore, h.symm]

/-- A number outside the table has no record to replace. -/
theorem setPcore_of_le {s : State} {c : Nat} (h : s.drl.pcores.length ≤ c) (p : PCore) : setPcore s c p = s := by
  rw [setPcore, List.set_eq_of_length_le h]

/-- A core that is not mapped after its record is replaced leaves its position, and the map stays in order. -/
theorem coreMap_setPcore_out {s : State} {c : Nat} {p : PCore} (hp : p.state ≠ .mapped) (h : coreMap s) : coreMap (setPcore s c p) := by
  obtain ⟨hlen, hmap⟩ := h
  have keep {i : Nat} (hi : i < 208) (hm : (pcoreOf (setPcore s c p) i).state = .mapped) : pcoreOf (setPcore s c p) i = pcoreOf s i := by
    by_cases hic : i = c
    · subst hic
      rw [pcoreOf_setPcore (by omega)] at hm
      exact absurd hm hp
    · exact pcoreOf_setPcore_ne hic p
  refine ⟨by simp [setPcore, hlen], fun i hi hm => ?_⟩
  have hi' := keep hi hm
  rw [hi'] at hm ⊢
  refine ⟨(hmap i hi hm).1, fun j hj hmj hl => ?_⟩
  have hj' := keep hj hmj
  rw [hj'] at hmj hl
  exact (hmap i hi hm).2 j hj hmj hl

/-- A core that takes a vacant position of its own die keeps the map in order. -/
theorem coreMap_setPcore_in {s : State} {c : Nat} {p : PCore} (hd : p.lcore / 24 = c / 26) (hv : vacant s p.lcore) (h : coreMap s) :
    coreMap (setPcore s c p) := by
  obtain ⟨hlen, hmap⟩ := h
  by_cases hc : c < 208
  case neg => rw [setPcore_of_le (by omega)]; exact ⟨hlen, hmap⟩
  have hself : pcoreOf (setPcore s c p) c = p := pcoreOf_setPcore (by omega) p
  refine ⟨by simp [setPcore, hlen], fun i hi hm => ?_⟩
  by_cases hic : i = c
  · subst hic
    rw [hself]
    refine ⟨hd, fun j hj hmj hl => by_contra fun hji => ?_⟩
    rw [pcoreOf_setPcore_ne hji] at hmj hl
    exact hv j hj hmj hl
  · rw [pcoreOf_setPcore_ne hic] at hm ⊢
    refine ⟨(hmap i hi hm).1, fun j hj hmj hl => ?_⟩
    by_cases hjc : j = c
    · subst hjc
      rw [hself] at hl
      exact absurd hl.symm (hv i hi hm)
    · rw [pcoreOf_setPcore_ne hjc] at hmj hl
      exact (hmap i hi hm).2 j hj hmj hl

/-- The cores of a die lie in it. -/
theorem die_of_mem_dieCores {d i : Nat} (h : i ∈ dieCores d) : i / 26 = d := by
  obtain ⟨k, hk, rfl⟩ := List.mem_map.1 h
  have := List.mem_range.1 hk
  omega

/-- A position that no core of its die fills is vacant: no core of another die fills it either. -/
theorem vacant_of_physOf_none {s : State} {l : Nat} (h : coreMap s) (hl : physOf s l = none) : vacant s l := by
  rintro j hj hm rfl
  have hdie := (h.2 j hj hm).1
  refine List.find?_eq_none.1 hl j (List.mem_map.2 ⟨j % 26, ?_, ?_⟩) (by simp [hm])
  · exact List.mem_range.2 (Nat.mod_lt _ (by omega))
  · rw [hdie]
    omega

/-- The lowest open position of a die lies in it and is vacant. -/
theorem lowestOpen_spec {s : State} {d l : Nat} (h : coreMap s) (hl : lowestOpen s d = some l) : l / 24 = d ∧ vacant s l := by
  obtain ⟨k, hk, rfl⟩ := List.mem_map.1 (List.mem_of_find?_eq_some hl)
  have hnone := List.find?_some hl
  have := List.mem_range.1 hk
  exact ⟨by omega, vacant_of_physOf_none h (Option.isNone_iff_eq_none.1 hnone)⟩

/-- The record of a core that has been fenced once more (R464). -/
def fencedRecord (p : PCore) : PCore := { state := .fenced, lcore := 255, fences := p.fences + 1 }

/-- Blocking a core fences its record, and leaves the others. -/
theorem blockCore_pcores (s : State) (c : Nat) : (blockCore s c).drl.pcores = (setPcore s c (fencedRecord (pcoreOf s c))).drl.pcores := by
  simp [blockCore, fencedRecord]

/-- A blocked core has left its position (R464). -/
theorem coreMap_blockCore {s : State} (c : Nat) (h : coreMap s) : coreMap (blockCore s c) :=
  coreMap_congr (blockCore_pcores s c) (coreMap_setPcore_out (by simp [fencedRecord]) h)

/-- The position of a core that is blocked is vacant then: it alone filled it. -/
theorem vacant_blockCore {s : State} {c : Nat} (h : coreMap s) (hc : c < 208) (hm : (pcoreOf s c).state = .mapped) :
    vacant (blockCore s c) (pcoreOf s c).lcore := by
  obtain ⟨hlen, hmap⟩ := h
  have hp := pcoreOf_congr (blockCore_pcores s c)
  intro j hj hmj hl
  rw [hp] at hmj hl
  by_cases hjc : j = c
  · subst hjc
    rw [pcoreOf_setPcore (by omega)] at hmj
    nomatch hmj
  · rw [pcoreOf_setPcore_ne hjc] at hmj hl
    exact hjc ((hmap c hc hm).2 j hj hmj hl)

/-- A spare that fills a vacant position of its die (R15, R465). -/
theorem coreMap_fillPosition {s : State} {d l : Nat} (hd : l / 24 = d) (hv : vacant s l) (h : coreMap s) : coreMap (fillPosition s d l) := by
  unfold fillPosition
  split
  · next i hi =>
    have hdie := die_of_mem_dieCores (List.mem_of_find?_eq_some hi)
    exact coreMap_setPcore_in (p := { pcoreOf s i with state := .mapped, lcore := l }) (hd.trans hdie.symm) hv h
  · exact h

/-- Only a core of the table is mapped. -/
theorem lt_of_mapped {s : State} {c : Nat} (h : coreMap s) (hm : (pcoreOf s c).state = .mapped) : c < 208 := by
  by_contra hc
  rw [pcoreOf, List.getD_eq_default _ _ (by rw [h.1]; omega)] at hm
  nomatch hm

/-- A fence: the core leaves its position, and a spare of its die fills it (R464, R465). -/
theorem coreMap_fenceCore {s : State} (c cls : Nat) (h : coreMap s) : coreMap (fenceCore s c cls) := by
  simp only [fenceCore]
  split
  · exact h
  · next hm =>
    have hm : (pcoreOf s c).state = .mapped := not_not.1 hm
    generalize hu : fenceTake _ c _ = u
    have hd : u.drl = s.drl := by simp [← hu]
    have hp := pcoreOf_congr (congrArg Drl.pcores hd)
    have hmap : coreMap u := coreMap_congr (by rw [hd]) h
    have hc := lt_of_mapped h hm
    have hv := vacant_blockCore hmap hc ((congrArg _ (hp c)).trans hm)
    rw [hp] at hv
    have hfill := coreMap_fillPosition (h.2 c hc hm).1 hv (coreMap_blockCore c hmap)
    split
    · exact coreMap_congr (by simp) hfill
    · exact hfill

/-- A core under test fills no position (R466). -/
theorem coreMap_beginTest {s : State} (c : Nat) (h : coreMap s) : coreMap (beginTest s c) :=
  coreMap_congr (s := setPcore s c { pcoreOf s c with state := .testing }) (by simp [beginTest]) (coreMap_setPcore_out (by simp) h)

/-- A core that passes its test fills the lowest open position of its die, or is a spare; one that fails is retired (R466). -/
theorem coreMap_tested {s : State} (c : Nat) (pass : Bool) (h : coreMap s) : coreMap (tested s c pass) := by
  simp only [tested]
  generalize hu : modCore s c _ = u
  have hmap : coreMap u := coreMap_congr (by simp [← hu]) h
  split
  · exact coreMap_setPcore_out (by simp) hmap
  · split
    · next l hl =>
      obtain ⟨hdie, hv⟩ := lowestOpen_spec hmap hl
      exact coreMap_setPcore_in hdie hv hmap
    · exact coreMap_setPcore_out (by simp) hmap

-- Re-initialisation and the writes that reach it (R463)

theorem coreMap_reinitCore {s : State} (c : Nat) (h : coreMap s) : coreMap (reinitCore s c) := by
  simp only [reinitCore]
  split
  · exact coreMap_beginTest c h
  · exact h

theorem coreMap_writeReinit {s : State} (kind index : Nat) (h : coreMap s) : coreMap (writeReinit s kind index) := by
  unfold writeReinit
  split
  · exact coreMap_reinitCore index h
  all_goals exact coreMap_congr (by simp) h

theorem coreMap_of_writeCsr {s t : State} {a : Nat} {v : W64} (ht : writeCsr s a v = some t) (h : coreMap s) : coreMap t := by
  unfold writeCsr at ht
  split at ht
  case h_2 => cases ht; exact coreMap_writeReinit _ _ h
  all_goals cases ht
  all_goals exact coreMap_congr (by simp) h

theorem coreMap_plainWrite {s : State} (a left : Nat) (d : List Byte) (h : coreMap s) : coreMap (plainWrite s a left d).2 := by
  unfold plainWrite
  split
  · split
    · exact h
    · split
      · next ht => exact coreMap_of_writeCsr ht h
      · exact h
  · exact coreMap_congr (by simp) h

theorem coreMap_writeAccess {s : State} (q key va left : Nat) (d : List Byte) (only : Bool) (h : coreMap s) :
    coreMap (writeAccess s q key va left d only).2 := by
  unfold writeAccess
  split
  · exact h
  · split
    · exact coreMap_congr (by simp) h
    · split
      · exact h
      · split
        · exact h
        · split
          · exact coreMap_plainWrite va left d h
          · exact coreMap_congr (by simp) h

theorem coreMap_inWrite {s : State} (m : Pkt) (opcode rkey va : Nat) (data : List Byte) (h : coreMap s) :
    coreMap (inWrite s m opcode rkey va data) := by
  unfold inWrite
  extract_lets x first key a left w more t
  split
  · exact coreMap_congr (by rw [nakInvalid_drl]) h
  · have hw : coreMap w.2 := coreMap_writeAccess _ _ _ _ _ _ h
    split
    · exact coreMap_congr (by rw [nakAccess_drl]) hw
    · exact coreMap_congr (by simp [t]) hw

theorem coreMap_atPsn {s : State} {m : Pkt} {dup f : State → State} (hdup : ∀ t, coreMap t → coreMap (dup t))
    (hf : ∀ t, coreMap t → coreMap (f t)) (h : coreMap s) : coreMap (atPsn s m dup f) := by
  simp only [atPsn]
  split
  · exact hf _ (coreMap_congr (by simp) h)
  · split
    · exact hdup s h
    · exact coreMap_congr (by split <;> simp) h

theorem coreMap_ackAgain {s : State} (m : Pkt) (h : coreMap s) : coreMap (ackAgain s m) := coreMap_congr (by simp) h

-- The thaw and the boots (R451, R453, R466, R470, R477)

theorem coreMap_fenceBad (bad : List Nat) {s : State} (c : Nat) (h : coreMap s) : coreMap (fenceBad bad s c) := by
  simp only [fenceBad]
  split
  · exact h
  · exact coreMap_fenceCore c 1 (coreMap_congr (by simp) h)

theorem coreMap_thaw {s : State} (h : coreMap s) : coreMap (thaw s) := by
  simp only [thaw]
  refine coreMap_congr ?_ (coreMap_foldl (fun _ c => coreMap_fenceBad s.drl.frzBad c) (badCores s) (s := tellFrozen (wakeMemories s)) ?_)
  · simp
  · exact coreMap_congr (by simp) h

theorem coreMap_tryThaw {s : State} (h : coreMap s) : coreMap (tryThaw s) := by
  simp only [tryThaw]
  split
  · exact coreMap_thaw h
  · exact h

/-- The manufactured map is in order (R14). -/
theorem coreMap_reset : coreMap State.reset := by
  refine ⟨by simp [State.reset, resetPcores], fun i hi hm => ?_⟩
  have mapped {j : Nat} (hj : j < 208) (hm : (pcoreOf State.reset j).state = .mapped) :
      j % 26 < 24 ∧ (pcoreOf State.reset j).lcore = 24 * (j / 26) + j % 26 := by
    rw [pcoreOf_reset hj] at hm ⊢
    split at hm
    · next h => simp [h]
    · nomatch hm
  obtain ⟨hp, hl⟩ := mapped hi hm
  refine ⟨by omega, fun j hj hmj hlj => ?_⟩
  obtain ⟨hpj, hl'⟩ := mapped hj hmj
  omega

theorem coreMap_keptInFlash (s : State) : coreMap (keptInFlash s) := coreMap_congr rfl coreMap_reset

theorem coreMap_dropDie {s : State} (d : Nat) (h : coreMap s) : coreMap (dropDie s d) := by
  unfold dropDie
  extract_lets s1 s2 cut
  have h1 : coreMap s1 := coreMap_foldl (fun s c hs => coreMap_setPcore_out (by simp) (coreMap_congr (by simp) hs)) (dieCores d) h
  refine coreMap_congr (foldl_pcores (fun s k => ?_) _ _) (coreMap_congr (t := s2) (by simp [s2]) h1)
  dsimp only [cut]
  split <;> simp

theorem coreMap_testCores {s : State} (bad : List Nat) (h : coreMap s) : coreMap (testCores s bad) := by
  simp only [testCores]
  refine coreMap_foldl (fun s c hs => ?_) _ (coreMap_foldl (fun s c hs => coreMap_setPcore_out (by simp) hs) bad h)
  split
  · exact coreMap_tested c true hs
  · exact hs

theorem coreMap_coldStart (s : State) (f : BootFacts) : coreMap (coldStart s f) := by
  unfold coldStart
  extract_lets cause warmN freezeN s1 s2
  have h2 : coreMap s2 := coreMap_congr (by simp [s2, s1]) (coreMap_keptInFlash s)
  split
  · exact coreMap_congr (by simp) h2
  · extract_lets s3 s4 s5 s6 s7 net s8 s9 s10 s11
    have h3 : coreMap s3 := coreMap_congr (by simp [s3]) h2
    have h5 : coreMap s5 := coreMap_foldl (fun _ d => coreMap_dropDie d) f.deadDies (coreMap_congr (by simp [s4]) h3)
    have h7 : coreMap s7 := coreMap_testCores f.badCores (coreMap_congr (by simp [s6]) h5)
    have h11 : coreMap s11 := coreMap_congr (by simp [s11, s10, s9, s8]) h7
    split
    · exact coreMap_congr (by simp) h3
    · split
      · exact coreMap_congr (by simp) h3
      · split
        · exact coreMap_congr (by simp [s8]) h7
        · split
          · exact coreMap_congr (by simp) h11
          · split <;> exact coreMap_congr (by simp) h11

theorem coreMap_warmLogic {s : State} (h : coreMap s) : coreMap (warmLogic s) := by
  unfold warmLogic
  extract_lets
  refine coreMap_congr (by rw [confirmMems_drl, wakeMemories_drl, modDrl_drl]) (coreMap_foldl (fun _ c => coreMap_beginTest c) _ ?_)
  exact coreMap_congr (congrArg Drl.pcores (csrWarm_drl s)) h

theorem coreMap_warmReady {s : State} (h : coreMap s) : coreMap (warmReady s) := by
  unfold warmReady
  split
  · exact coreMap_congr (by simp) h
  · extract_lets s1 s2 accepted s3 reason s4 dies s5 fab s6 s7 w s8
    have h4 : coreMap s4 := coreMap_congr (by simp [s4, s3, s2, s1]) h
    have h5 : coreMap s5 := coreMap_foldl (fun _ d => coreMap_dropDie d) dies h4
    exact coreMap_congr (by simp [s8, s7, s6]) h5

@[simp] theorem keepsMap_execColdStart (f : BootFacts) (s : State) : KeepsMap s (execColdStart f s) :=
  keepsMap_event_of fun _ => coreMap_coldStart s f

-- Commands that change the map

@[simp] theorem keepsMap_execCoreArrayFault (c array : Nat) (s : State) : KeepsMap s (execCoreArrayFault c array s) := by
  refine keepsMap_event_of fun h => coreMap_fenceCore c 1 ?_
  split
  · exact coreMap_congr (by simp) h
  · exact h

@[simp] theorem keepsMap_execCoreClearTimeout (c : Nat) (s : State) : KeepsMap s (execCoreClearTimeout c s) :=
  keepsMap_event_of (coreMap_fenceCore c 2)

@[simp] theorem keepsMap_execCoreTestDone (c : Nat) (pass : Bool) (s : State) : KeepsMap s (execCoreTestDone c pass s) :=
  keepsMap_event_of (coreMap_tested c pass)

@[simp] theorem keepsMap_execReinitCore (c : Nat) (s : State) : KeepsMap s (execReinitCore c s) :=
  keepsMap_event_of (coreMap_writeReinit _ c)

@[simp] theorem keepsMap_execReinitPort (c : Nat) (s : State) : KeepsMap s (execReinitPort c s) :=
  keepsMap_event_of (coreMap_writeReinit _ c)

@[simp] theorem keepsMap_execReinitUpu (c : Nat) (s : State) : KeepsMap s (execReinitUpu c s) :=
  keepsMap_event_of (coreMap_writeReinit _ c)

@[simp] theorem keepsMap_execReinitHbc (c : Nat) (s : State) : KeepsMap s (execReinitHbc c s) :=
  keepsMap_event_of (coreMap_writeReinit _ c)

@[simp] theorem keepsMap_execReinitLpc (c : Nat) (s : State) : KeepsMap s (execReinitLpc c s) :=
  keepsMap_event_of (coreMap_writeReinit _ c)

@[simp] theorem keepsMap_execFreezePinRelease (s : State) : KeepsMap s (execFreezePinRelease s) :=
  keepsMap_when_of fun h => coreMap_tryThaw (coreMap_congr (by simp) h)

@[simp] theorem keepsMap_execFreezeHoldExpiry (s : State) : KeepsMap s (execFreezeHoldExpiry s) :=
  keepsMap_when_of fun h => coreMap_tryThaw (coreMap_congr (by simp) h)

@[simp] theorem keepsMap_execReadoutEnd (bad : List Nat) (s : State) : KeepsMap s (execReadoutEnd bad s) := by
  unfold execReadoutEnd
  refine keepsMap_onUnit ?_
  split
  · simp
  · split
    · exact keepsMap_next_of fun h => coreMap_tryThaw (coreMap_congr (by simp) h)
    · exact keepsMap_when (by simp)

@[simp] theorem keepsMap_execKeeperRailFall (s : State) : KeepsMap s (execKeeperRailFall s) :=
  keepsMap_when_of fun _ => coreMap_congr (by simp) (coreMap_keptInFlash s)

@[simp] theorem keepsMap_execWarmResetRelease (s : State) : KeepsMap s (execWarmResetRelease s) := by
  unfold execWarmResetRelease
  split
  · exact keepsMap_next_of fun h => coreMap_warmLogic (coreMap_congr (by simp) h)
  · exact keepsMap_next (by simp)

@[simp] theorem keepsMap_execWarmReady (s : State) : KeepsMap s (execWarmReady s) := keepsMap_when_of coreMap_warmReady

@[simp] theorem keepsMap_execCsrWrite (a : Nat) (v : W64) (s : State) : KeepsMap s (execCsrWrite a v s) := by
  refine keepsMap_when_of fun h => ?_
  split
  · next t ht => exact coreMap_congr (s := t) rfl (coreMap_of_writeCsr ht h)
  · exact coreMap_congr rfl h

@[simp] theorem keepsMap_execRxRdmaWrite (m : Pkt) (opcode rkey va : Nat) (data : List Byte) (s : State) :
    KeepsMap s (execRxRdmaWrite m opcode rkey va data s) :=
  keepsMap_received fun _ => coreMap_atPsn (fun _ => coreMap_ackAgain m) fun _ => coreMap_inWrite m _ _ _ _

@[simp] theorem keepsMap_inControl (m : Pkt) (kind rkey : Nat) (b : List Byte) (s : State) : KeepsMap s (inControl m kind rkey b s) := by
  unfold inControl
  split
  · simp
  · exact keepsMap_received fun _ => coreMap_atPsn (fun _ => coreMap_ackAgain m) fun _ => coreMap_inWrite m _ _ _ _

@[simp] theorem keepsMap_execRxControlOpen (m : Pkt) (rkey : Nat) (b : List Byte) (s : State) : KeepsMap s (execRxControlOpen m rkey b s) :=
  keepsMap_inControl m 1 rkey b s

@[simp] theorem keepsMap_execRxControlSeal (m : Pkt) (rkey : Nat) (b : List Byte) (s : State) : KeepsMap s (execRxControlSeal m rkey b s) :=
  keepsMap_inControl m 2 rkey b s

@[simp] theorem keepsMap_execRxControlAbort (m : Pkt) (rkey : Nat) (b : List Byte) (s : State) : KeepsMap s (execRxControlAbort m rkey b s) :=
  keepsMap_inControl m 3 rkey b s

-- Every command

/-- Every command keeps the map in order. -/
theorem keepsMap_exec (i : Instr) (s : State) : KeepsMap s (exec i s) := by
  cases i
  all_goals
    rw [exec]
    simp

/-- Settles O4: the command at the front of the queue keeps the map, and the queue is no part of it. -/
theorem stepKeepsCoreMap : Obligations.StepKeepsCoreMap := by
  unfold Obligations.StepKeepsCoreMap
  intro s t h hstep
  unfold step at hstep
  split at hstep
  · cases hstep
    exact h
  · exact keepsMap_exec _ _ t hstep (coreMap_congr rfl h)

end Sys2Proof.Machine

/-! PROOFS. Number formats: rounding to the nearest, ties to even, and the codes of the floating-point layouts (R29, R31, R48 to R51). -/
namespace Sys2Proof.Machine

open Sys2Proof

-- Rounding to nearest even (R31, R48, R49, R51)

/-- Rounding goes to the floor below the half, to the next integer above it, and to the even one of the two at the half. -/
theorem rneDiv_cases (n d : Nat) : (2 * (n % d) < d ∧ rneDiv n d = n / d) ∨ (d < 2 * (n % d) ∧ rneDiv n d = n / d + 1) ∨
    (2 * (n % d) = d ∧ (rneDiv n d = n / d ∨ rneDiv n d = n / d + 1) ∧ rneDiv n d % 2 = 0) := by
  unfold rneDiv
  dsimp only
  split
  · next h => exact .inl ⟨h, rfl⟩
  · split
    · next h => exact .inr (.inl ⟨h, rfl⟩)
    · exact .inr (.inr (by omega))

/-- How far a multiple of `d` lies from `n`: the remainder at the floor, what is left of `d` at the next integer, and `d` or more elsewhere. -/
theorem natAbs_mul_sub_cases {n d : Nat} (hd : 0 < d) (k : Nat) :
    (k = n / d ∧ ((k : Int) * d - n).natAbs = n % d) ∨ (k = n / d + 1 ∧ ((k : Int) * d - n).natAbs = d - n % d) ∨
    (k ≠ n / d ∧ k ≠ n / d + 1 ∧ d ≤ ((k : Int) * d - n).natAbs) := by
  have hn : n / d * d + n % d = n := Nat.div_add_mod' n d
  have hr : n % d < d := Nat.mod_lt n hd
  have hk : (k : Int) * d = (k * d : Nat) := (Int.natCast_mul k d).symm
  have hs : ∀ a, (a + 1) * d = a * d + d := fun a => Nat.succ_mul a d
  rw [hk]
  rcases Nat.lt_trichotomy k (n / d) with hlt | heq | hgt
  · have hle : (k + 1) * d ≤ n / d * d := Nat.mul_le_mul_right d hlt
    rw [hs] at hle
    omega
  · rw [← heq] at hn ⊢
    omega
  · rcases Nat.eq_or_lt_of_le hgt with heq | hgt
    · rw [← heq, hs]
      omega
    · have hle : (n / d + 1 + 1) * d ≤ k * d := Nat.mul_le_mul_right d hgt
      rw [hs, hs] at hle
      omega

/-- Settles O28: only the two integers around the ratio lie less than one unit from it, and the remainder decides between them. -/
theorem nearestEven : Obligations.NearestEven := by
  unfold Obligations.NearestEven
  intro n d hd
  have hround := rneDiv_cases n d
  have hres := natAbs_mul_sub_cases (n := n) hd (rneDiv n d)
  have hr : n % d < d := Nat.mod_lt n hd
  refine ⟨fun k => ?_, fun k hne heq => ?_⟩
  · have hk := natAbs_mul_sub_cases (n := n) hd k
    omega
  · have hk := natAbs_mul_sub_cases (n := n) hd k
    omega

-- Codes of floating-point layouts (R29, R31)

/-- A ratio that is an integer rounds to it. -/
theorem rneDiv_mul (m : Nat) {d : Nat} (hd : 0 < d) : rneDiv (m * d) d = m := by
  simp [rneDiv, Nat.mul_div_cancel m hd, hd]

/-- The numerator of `m * 2^e`. -/
def dyNum (m : Nat) (e : Int) : Nat := m * 2 ^ e.toNat

/-- The denominator of `m * 2^e`. -/
def dyDen (e : Int) : Nat := 2 ^ (-e).toNat

/-- A dyadic value by its numerator and denominator. -/
theorem dyadic_eq (neg : Bool) (m : Nat) (e : Int) : dyadic neg m e = .fin neg (dyNum m e) (dyDen e) := by
  unfold dyadic dyNum dyDen
  split
  · rw [show (-e).toNat = 0 by omega, Nat.pow_zero]
  · rw [show e.toNat = 0 by omega, Nat.pow_zero, Nat.mul_one]

/-- The exponent of a ratio over a power of two is that of its numerator, less the power's. -/
theorem ilog2_two_pow {n : Nat} (hn : n ≠ 0) (k : Nat) : ilog2 n (2 ^ k) = (Nat.log2 n : Int) - k := by
  have hle : 2 ^ Nat.log2 n ≤ n := Nat.log2_self_le hn
  unfold ilog2
  rw [Nat.log2_two_pow]
  dsimp only
  split
  · rw [if_pos]
    rwa [← Nat.pow_add, show k + ((Nat.log2 n : Int) - k).toNat = Nat.log2 n by omega]
  · rw [if_pos]
    calc 2 ^ k = 2 ^ Nat.log2 n * 2 ^ (-((Nat.log2 n : Int) - k)).toNat := by rw [← Nat.pow_add]; congr 1; omega
      _ ≤ n * 2 ^ (-((Nat.log2 n : Int) - k)).toNat := Nat.mul_le_mul_right _ hle

/-- The exponent of `m * 2^e`. -/
theorem ilog2_dyadic {m : Nat} (hm : m ≠ 0) (e : Int) : ilog2 (dyNum m e) (dyDen e) = Nat.log2 m + e := by
  have hp : 2 ^ e.toNat ≠ 0 := by positivity
  have hlog : Nat.log2 (m * 2 ^ e.toNat) = Nat.log2 m + e.toNat := by
    refine (Nat.log2_eq_iff (Nat.mul_ne_zero hm hp)).2 ⟨?_, ?_⟩
    · rw [Nat.pow_add]
      exact Nat.mul_le_mul_right _ (Nat.log2_self_le hm)
    · rw [Nat.add_right_comm, Nat.pow_add]
      exact Nat.mul_lt_mul_of_pos_right Nat.lt_log2_self (Nat.pos_of_ne_zero hp)
  rw [dyNum, dyDen, ilog2_two_pow (Nat.mul_ne_zero hm hp), hlog]
  omega

/-- A value whose last significant bit has the weight that its exponent gives codes is coded without rounding. -/
theorem Fp.mag_dyadic (f : Fp) {m : Nat} {e : Int} (hm : m ≠ 0) (he : max (Nat.log2 m + e) (1 - (f.bias : Int)) = e + f.fbits) :
    f.mag (dyNum m e) (dyDen e) = (e + f.fbits + f.bias - 1).toNat * 2 ^ f.fbits + m := by
  have hn : dyNum m e ≠ 0 := Nat.mul_ne_zero hm (by positivity)
  unfold Fp.mag Fp.magWith
  rw [if_neg hn, ilog2_dyadic hm]
  dsimp only
  rw [he, show e + f.fbits - f.fbits = e by omega]
  congr 1
  split
  · rw [dyNum, dyDen, show (-e).toNat = 0 by omega, Nat.pow_zero, Nat.one_mul]
    exact rneDiv_mul m (by positivity)
  · rw [dyNum, dyDen, show e.toNat = 0 by omega, Nat.pow_zero, Nat.mul_one]
    exact rneDiv_mul m (by positivity)

/-- A zero has the code zero. -/
theorem Fp.mag_zero (f : Fp) (d : Nat) : f.mag 0 d = 0 := rfl

/-- A subnormal significand is its own code. -/
theorem Fp.mag_subnormal (f : Fp) {m : Nat} (hm : m < 2 ^ f.fbits) :
    f.mag (dyNum m (1 - (f.bias : Int) - f.fbits)) (dyDen (1 - (f.bias : Int) - f.fbits)) = m := by
  by_cases h0 : m = 0
  · rw [h0, dyNum, Nat.zero_mul, Fp.mag_zero]
  · have hlog : Nat.log2 m < f.fbits := (Nat.log2_lt h0).2 hm
    rw [f.mag_dyadic h0 (by omega), show 1 - (f.bias : Int) - f.fbits + f.fbits + f.bias - 1 = 0 by omega]
    simp

/-- A normal significand with its exponent is coded by the two fields. -/
theorem Fp.mag_normal (f : Fp) {m e : Nat} (hm : m < 2 ^ f.fbits) (he : e ≠ 0) :
    f.mag (dyNum (m + 2 ^ f.fbits) ((e : Int) - f.bias - f.fbits)) (dyDen ((e : Int) - f.bias - f.fbits)) = e * 2 ^ f.fbits + m := by
  have h0 : m + 2 ^ f.fbits ≠ 0 := by positivity
  have hlog : Nat.log2 (m + 2 ^ f.fbits) = f.fbits :=
    (Nat.log2_eq_iff h0).2 ⟨by omega, by rw [Nat.pow_succ]; omega⟩
  obtain ⟨k, rfl⟩ := Nat.exists_eq_succ_of_ne_zero he
  rw [f.mag_dyadic h0 (by omega), show ((k.succ : Nat) : Int) - f.bias - f.fbits + f.fbits + f.bias - 1 = k by omega, Int.toNat_natCast,
    Nat.succ_mul]
  omega

/-- The magnitude bits of a code of a layout. -/
def Fp.magBits (f : Fp) (code : Nat) : Nat := code % 2 ^ (f.fbits + f.ebits)

/-- The sign of a code of a layout. -/
def Fp.isNeg (f : Fp) (code : Nat) : Bool := bit code (f.fbits + f.ebits)

/-- A code is its sign and its magnitude bits. -/
theorem Fp.sign_add_magBits (f : Fp) {code : Nat} (h : code < 2 ^ (f.fbits + f.ebits + 1)) :
    f.sign (f.isNeg code) + f.magBits code = code := by
  have hsplit := Nat.div_add_mod' code (2 ^ (f.fbits + f.ebits))
  have hq : code / 2 ^ (f.fbits + f.ebits) < 2 := by
    rw [Nat.div_lt_iff_lt_mul (by positivity)]
    rwa [Nat.pow_succ, Nat.mul_comm] at h
  unfold Fp.sign Fp.isNeg Fp.magBits bit
  interval_cases hk : code / 2 ^ (f.fbits + f.ebits)
  · simpa using hsplit
  · simpa using hsplit

/-- A code up to the largest finite one has a finite value, whose magnitude has its magnitude bits as code. -/
theorem Fp.value_of_le (f : Fp) {code : Nat} (h : f.magBits code ≤ f.maxCode) :
    ∃ n d, f.value code = .fin (f.isNeg code) n d ∧ f.mag n d = f.magBits code := by
  have hm : f.magBits code % 2 ^ f.fbits < 2 ^ f.fbits := Nat.mod_lt _ (by positivity)
  have hsplit := Nat.div_add_mod' (f.magBits code) (2 ^ f.fbits)
  unfold Fp.value
  dsimp only
  rw [← Fp.magBits, ← Fp.isNeg, if_pos h]
  split
  · next he =>
    refine ⟨_, _, dyadic_eq .., ?_⟩
    rw [f.mag_subnormal hm]
    rwa [he, Nat.zero_mul, Nat.zero_add] at hsplit
  · next he => exact ⟨_, _, dyadic_eq .., by rw [f.mag_normal hm he, hsplit]⟩

/-- A code beyond the largest finite one is an infinity or a NaN. -/
theorem Fp.value_of_lt (f : Fp) {code : Nat} (h : f.maxCode < f.magBits code) :
    f.value code = if f.infCode = some (f.magBits code) then .inf (f.isNeg code) else .nan := by
  unfold Fp.value
  dsimp only
  rw [← Fp.magBits, ← Fp.isNeg, if_neg (by omega)]

/-- A code is a NaN exactly beyond the finite ones and the infinity. -/
theorem Fp.value_eq_nan_iff (f : Fp) (code : Nat) :
    f.value code = .nan ↔ f.maxCode < f.magBits code ∧ f.infCode ≠ some (f.magBits code) := by
  by_cases h : f.magBits code ≤ f.maxCode
  · obtain ⟨n, d, hv, -⟩ := f.value_of_le h
    simp [hv, h]
  · rw [f.value_of_lt (by omega)]
    split <;> simp_all

/-- A finite value whose magnitude the layout holds has its sign and the code of its magnitude. -/
theorem Fp.encode_fin_of_le (f : Fp) (sat neg : Bool) {n d : Nat} (h : f.mag n d ≤ f.maxCode) :
    f.encode sat (.fin neg n d) = f.sign neg + f.mag n d := if_pos h

/-- Without saturation an infinity has the layout's code of it. -/
theorem Fp.encode_inf_of_some (f : Fp) (neg : Bool) {c : Nat} (h : f.infCode = some c) : f.encode false (.inf neg) = f.sign neg + c := by
  simp [Fp.encode, h]

/-- A code that is no NaN is the code of its value; saturation leaves the finite ones. -/
theorem Fp.encode_value (f : Fp) {code : Nat} {sat : Bool} (hcode : code < 2 ^ (f.fbits + f.ebits + 1)) (hnan : f.value code ≠ .nan)
    (hsat : sat = false ∨ f.magBits code ≤ f.maxCode) : f.encode sat (f.value code) = code := by
  by_cases h : f.magBits code ≤ f.maxCode
  · obtain ⟨n, d, hv, hmag⟩ := f.value_of_le h
    rw [hv, f.encode_fin_of_le _ _ (hmag ▸ h), hmag, f.sign_add_magBits hcode]
  · have hinf : f.infCode = some (f.magBits code) := by
      by_contra hne
      exact hnan ((f.value_eq_nan_iff code).2 ⟨by omega, hne⟩)
    obtain rfl : sat = false := hsat.resolve_right h
    rw [f.value_of_lt (by omega), if_pos hinf, f.encode_inf_of_some _ hinf, f.sign_add_magBits hcode]

/-- Settles O29: coding undoes decoding in every layout. -/
theorem formatRoundTrip : Obligations.FormatRoundTrip := by
  unfold Obligations.FormatRoundTrip
  intro f _ code hcode
  exact ⟨fun hnan _ hsat => f.encode_value hcode hnan hsat, f.value_eq_nan_iff code⟩

end Sys2Proof.Machine

/-! PROOFS. Streams from memory: where a device address is kept, what a checked write leaves, and what a piece of a LOAD and a returned request
do with their bytes (R55, R126, R128, R169, R266, R268). -/
namespace Sys2Proof.Machine

open Sys2Proof

-- Where a device address lies (R168, R169)

/-- An address in an SRAM window is the window's base and an offset of less than 16 MiB. -/
theorem addr_of_decodeAddr_sram {a l off : Nat} (h : decodeAddr a = .sram l off) : a = 0x100000000 + l * 0x1000000 + off ∧ off < 0x1000000 := by
  unfold decodeAddr at h
  split_ifs at h
  injection h with hl ho
  omega

/-- The registers and the command windows end at 0x2000_0000. -/
theorem decodeAddr_low {a : Nat} (h : a < 0x20000000) : decodeAddr a = .csr ∨ ∃ i off, decodeAddr a = .window i off := by
  unfold decodeAddr
  by_cases hc : a < 0x10000000
  · exact .inl (if_pos hc)
  · exact .inr ⟨_, _, by rw [if_neg hc, if_pos h]⟩

/-- Above them lies memory, or nothing. -/
theorem decodeAddr_high {a : Nat} (h : 0x20000000 ≤ a) : decodeAddr a ≠ .csr ∧ ∀ i off, decodeAddr a ≠ .window i off := by
  unfold decodeAddr
  rw [if_neg (by omega), if_neg (by omega)]
  split_ifs <;> simp

/-- The pieces of the map are made of whole blocks of 16 MiB, so one byte of a block says whether it is mapped. -/
theorem mapped_of_same_block {s : State} {a b : Nat} (h : a / 0x1000000 = b / 0x1000000) : mapped s a = mapped s b := by
  have hcsr : a < 0x10000000 ↔ b < 0x10000000 := by omega
  have hwin : a < 0x20000000 ↔ b < 0x20000000 := by omega
  have hgap : a < 0x100000000 ↔ b < 0x100000000 := by omega
  have hsram : a < 0x100000000 + 192 * 0x1000000 ↔ b < 0x100000000 + 192 * 0x1000000 := by omega
  have hbase : a < 0x10000000000 ↔ b < 0x10000000000 := by omega
  have hhbm : a < 0x30000000000 ↔ b < 0x30000000000 := by omega
  have hstack : (a - 0x10000000000) % 0x2000000000 < 0x1400000000 ↔ (b - 0x10000000000) % 0x2000000000 < 0x1400000000 := by omega
  have hlow : a < 0x80000000000 ↔ b < 0x80000000000 := by omega
  have hend : a < 0x100000000000 ↔ b < 0x100000000000 := by omega
  have hwindow : (a - 0x100000000) / 0x1000000 = (b - 0x100000000) / 0x1000000 := by omega
  unfold mapped decodeAddr
  simp only [hcsr, hwin, hgap, hsram, hbase, hhbm, hstack, hlow, hend, hwindow]
  split_ifs <;> rfl

/-- A range whose ends and one byte per MiB are mapped is mapped throughout (R169). -/
theorem mapped_of_rangeMapped {s : State} {a len x : Nat} (h : rangeMapped s a len = true) (hlo : a ≤ x) (hhi : x < a + len) :
    mapped s x = true := by
  simp only [rangeMapped, Bool.and_eq_true, List.all_eq_true, List.mem_range] at h
  obtain ⟨⟨hfirst, hlast⟩, hmid⟩ := h
  by_cases ha : x / 0x1000000 = a / 0x1000000
  · rwa [mapped_of_same_block ha]
  · by_cases hb : x / 0x1000000 = (a + len - 1) / 0x1000000
    · rwa [mapped_of_same_block hb]
    · have hin : x / 0x1000000 = (a + (x / 0x1000000 * 0x1000000 - a + 0xFFFFF) / 0x100000 * 0x100000) / 0x1000000 := by omega
      rw [mapped_of_same_block hin]
      exact hmid _ (by omega)

-- Where a byte of the device is kept

/-- A place depends on Derler's map alone. -/
theorem locate_congr {s t : State} (hd : t.drl = s.drl) (a : Nat) : locate t a = locate s a := by
  have hpos : ∀ l, physOf t l = physOf s l := fun l => by unfold physOf pcoreOf; rw [hd]
  simp only [locate, hpos]

/-- A byte of DRAM is kept under its own address, one of SRAM under its offset in the core that fills the window's position. -/
theorem locate_cases {s : State} {a : Nat} {e : Bool × Nat} (h : locate s a = some e) : e = (false, a) ∨
    ∃ l off p, e = (true, sramKey p off) ∧ physOf s l = some p ∧ a = 0x100000000 + l * 0x1000000 + off ∧ off < 0x1000000 := by
  unfold locate at h
  split at h
  · next l off hdec =>
    obtain ⟨p, hp, he⟩ := Option.map_eq_some_iff.1 h
    exact .inr ⟨l, off, p, he.symm, hp, addr_of_decodeAddr_sram hdec⟩
  · exact .inl (Option.some.inj h).symm
  · exact .inl (Option.some.inj h).symm
  · cases h

/-- The core that fills a position has that position's number. -/
theorem lcore_of_physOf {s : State} {l p : Nat} (h : physOf s l = some p) : (pcoreOf s p).lcore = l := by
  have hp := List.find?_some h
  simp only [decide_eq_true_eq] at hp
  exact hp.2

/-- Two addresses that are kept in one place are one address. -/
theorem locate_inj {s : State} {a b : Nat} {e : Bool × Nat} (ha : locate s a = some e) (hb : locate s b = some e) : a = b := by
  rcases locate_cases ha with rfl | ⟨l, off, p, rfl, hp, rfl, ho⟩
  · rcases locate_cases hb with he | ⟨_, _, _, he, _⟩
    · exact congrArg Prod.snd he
    · cases he
  · rcases locate_cases hb with he | ⟨l', off', p', he, hp', rfl, ho'⟩
    · cases he
    · have hkey : p * 0x1000000 + off = p' * 0x1000000 + off' := congrArg Prod.snd he
      obtain rfl : p = p' := by omega
      have hl : l = l' := (lcore_of_physOf hp).symm.trans (lcore_of_physOf hp')
      omega

/-- A mapped address above the registers and windows is kept somewhere. -/
theorem locate_isSome_of_mapped {s : State} {a : Nat} (h : mapped s a = true) (hlow : 0x20000000 ≤ a) : (locate s a).isSome = true := by
  obtain ⟨hcsr, hwin⟩ := decodeAddr_high hlow
  cases hdec : decodeAddr a with
  | csr => exact absurd hdec hcsr
  | window i off => exact absurd hdec (hwin i off)
  | reserved => simp [mapped, hdec] at h
  | sram l off => simpa [mapped, locate, hdec] using h
  | hbm _ _ | lpddr _ _ => simp [locate, hdec]

/-- A write that passes its test lies in memory (R169, R188). -/
theorem locate_isSome_of_writeTest {s : State} {a len x : Nat} (h : writeTest s a len = .done) (hlo : a ≤ x) (hhi : x < a + len) :
    (locate s x).isSome = true := by
  unfold writeTest at h
  split at h
  · cases h
  · next hmap =>
    have hlow : 0x20000000 ≤ a := by
      by_contra hlt
      rcases decodeAddr_low (by omega : a < 0x20000000) with hdec | ⟨i, off, hdec⟩ <;> simp [hdec] at h
    exact locate_isSome_of_mapped (mapped_of_rangeMapped (not_not.1 hmap) hlo hhi) (by omega)

-- Reading the device after a write

/-- The byte kept at a place: of SRAM where the flag is set, else of DRAM. -/
def byteAt (s : State) (e : Bool × Nat) : Byte := if e.1 then memRead s.sram e.2 else memRead s.mem e.2

/-- A byte of the device is the one at its place. -/
theorem devByte_of_locate {s : State} {a : Nat} {e : Bool × Nat} (h : locate s a = some e) : devByte s a = byteAt s e := by
  obtain ⟨sram, k⟩ := e
  unfold devByte byteAt
  rw [h]
  cases sram <;> rfl

/-- An address that is kept nowhere reads as zero. -/
theorem devByte_of_locate_none {s : State} {a : Nat} (h : locate s a = none) : devByte s a = 0 := by
  unfold devByte
  rw [h]

/-- A place after a byte is written at an address. -/
theorem byteAt_devPut {s : State} {a : Nat} {e : Bool × Nat} (h : locate s a = some e) (b : Byte) (e' : Bool × Nat) :
    byteAt (devPut s a b) e' = if e' = e then b else byteAt s e' := by
  obtain ⟨sram, k⟩ := e
  obtain ⟨sram', k'⟩ := e'
  unfold devPut byteAt
  rw [h]
  cases sram <;> cases sram' <;> simp [memRead_memWrite]

/-- A byte after one is written at an address that is kept somewhere. -/
theorem devByte_devPut {s : State} {a : Nat} (h : (locate s a).isSome = true) (b : Byte) (x : Nat) :
    devByte (devPut s a b) x = if x = a then b else devByte s x := by
  obtain ⟨e, ha⟩ := Option.isSome_iff_exists.1 h
  have hloc : locate (devPut s a b) x = locate s x := locate_congr (devPut_drl s a b) x
  cases hx : locate s x with
  | none =>
    have hne : x ≠ a := by rintro rfl; simp [hx] at ha
    rw [devByte_of_locate_none (hloc.trans hx), if_neg hne, devByte_of_locate_none hx]
  | some e' =>
    have hiff : e' = e ↔ x = a := ⟨fun he => locate_inj (he ▸ hx) ha, fun he => Option.some.inj (hx.symm.trans (he ▸ ha))⟩
    rw [devByte_of_locate (hloc.trans hx), byteAt_devPut ha, devByte_of_locate hx]
    simp only [hiff]

/-- A byte after several are written: inside, the byte written; outside, what was there. -/
theorem devByte_devWrites (x : Nat) : ∀ (d : List Byte) (s : State) (a : Nat), (∀ i, i < d.length → (locate s (a + i)).isSome = true) →
    devByte (devWrites s a d) x = if a ≤ x ∧ x < a + d.length then d.getD (x - a) 0 else devByte s x
  | [], s, a, _ => by rw [devWrites, if_neg (by simp)]
  | b :: t, s, a, h => by
    have hloc : ∀ i, i < t.length → (locate (devPut s a b) (a + 1 + i)).isSome = true := fun i hi => by
      rw [locate_congr (devPut_drl s a b), show a + 1 + i = a + (i + 1) by omega]
      exact h (i + 1) (by simpa using hi)
    rw [devWrites, devByte_devWrites x t _ (a + 1) hloc, devByte_devPut (a := a) (h 0 (by simp)), List.length_cons]
    by_cases hxa : x = a
    · rw [if_neg (by omega), if_pos hxa, if_pos (by omega), hxa, Nat.sub_self, List.getD_cons_zero]
    · by_cases hin : a + 1 ≤ x ∧ x < a + 1 + t.length
      · rw [if_pos hin, if_pos (by omega), show x - a = x - (a + 1) + 1 by omega, List.getD_cons_succ]
      · rw [if_neg hin, if_neg hxa, if_neg (by omega)]

/-- Bytes are read one by one. -/
theorem devReads_eq_of_devByte {s : State} : ∀ (d : List Byte) (a : Nat), (∀ x, a ≤ x → x < a + d.length →
    devByte s x = d.getD (x - a) 0) → devReads s a d.length = d
  | [], _, _ => rfl
  | b :: t, a, h => by
    have hrest : devReads s (a + 1) t.length = t := devReads_eq_of_devByte t (a + 1) fun x hlo hhi => by
      rw [h x (by omega) (by rw [List.length_cons]; omega), show x - a = x - (a + 1) + 1 by omega, List.getD_cons_succ]
    rw [List.length_cons, devReads, hrest, h a (by omega) (by simp), Nat.sub_self, List.getD_cons_zero]

/-- A range is as many bytes as were asked for. -/
@[simp] theorem length_devReads (s : State) : ∀ (n a : Nat), (devReads s a n).length = n
  | 0, _ => rfl
  | n + 1, a => by rw [devReads, List.length_cons, length_devReads s n]

-- What a write does beside its bytes

/-- An arrival that is taken back changes no byte. -/
theorem devByte_takeBack (s : State) (h : Nat × Guard) (x : Nat) : devByte (takeBack s h) x = devByte s x := by
  unfold takeBack
  dsimp only
  split_ifs <;> exact devByte_congr rfl rfl rfl x

/-- Stale notices change no byte. -/
theorem devByte_notifyStale (s : State) (a len x : Nat) : devByte (notifyStale s a len) x = devByte s x := by
  unfold notifyStale
  split
  · rfl
  · exact List.foldlRecOn (motive := fun t => devByte t x = devByte s x) (staleHits s a len) takeBack rfl
      fun t ht g _ => (devByte_takeBack t g x).trans ht

/-- A region that is filled first changes no byte. -/
theorem devByte_fillRegion (s : State) (a x : Nat) : devByte (fillRegion s a) x = devByte s x := by
  unfold fillRegion
  split
  · split
    · exact devByte_congr rfl rfl rfl x
    · rfl
  · rfl

/-- The regions that are filled first change no byte. -/
theorem devByte_fillFirst (s : State) (a len x : Nat) : devByte (fillFirst s a len) x = devByte s x :=
  List.foldlRecOn (motive := fun t => devByte t x = devByte s x) (regionsOf a len) _ rfl
    fun t ht r _ => (devByte_fillRegion t (r * 0x10000) x).trans ht

/-- A byte after a checked write that was performed: inside, the byte written; outside, what was there. -/
theorem devByte_of_writeMem {s t : State} {a : Nat} {d : List Byte} (h : writeMem s a d = (.done, t)) (x : Nat) :
    devByte t x = if a ≤ x ∧ x < a + d.length then d.getD (x - a) 0 else devByte s x := by
  unfold writeMem at h
  split at h
  · next htest =>
    obtain rfl : ownWrite s a d = t := congrArg Prod.snd h
    have hloc : ∀ i, i < d.length → (locate (clearPoison (fillFirst s a d.length) a d.length) (a + i)).isSome = true := fun i hi => by
      rw [locate_congr (s := s) (by simp)]
      exact locate_isSome_of_writeTest htest (by omega) (by omega)
    rw [ownWrite, devByte_notifyStale, devByte_devWrites x d _ a hloc, devByte_congr (s := fillFirst s a d.length) (by simp) (by simp) (by simp),
      devByte_fillFirst]
  · next hne => exact absurd (congrArg Prod.fst h) hne

/-- A checked write that was performed reads back, and leaves every byte outside as it was. -/
theorem writeMem_reads {s t : State} {a : Nat} {d : List Byte} (h : writeMem s a d = (.done, t)) :
    devReads t a d.length = d ∧ ∀ x, x < a ∨ a + d.length ≤ x → devByte t x = devByte s x :=
  ⟨devReads_eq_of_devByte d a fun x hlo hhi => by rw [devByte_of_writeMem h, if_pos ⟨hlo, hhi⟩],
    fun x hx => by rw [devByte_of_writeMem h, if_neg (by omega)]⟩

/-- Ranges that agree byte for byte read alike. -/
theorem devReads_congr {s t : State} : ∀ (n a : Nat), (∀ x, a ≤ x → x < a + n → devByte t x = devByte s x) →
    devReads t a n = devReads s a n
  | 0, _, _ => rfl
  | n + 1, a, h => by
    rw [devReads, devReads, h a (by omega) (by omega), devReads_congr n (a + 1) fun x hlo hhi => h x (by omega) (by omega)]

-- Pieces of a LOAD (R55, R268)

/-- A root laid over bytes leaves their number. -/
theorem length_layRoot (a : Nat) (d : List Byte) (e : Nat × List Byte) : (layRoot a d e).length = d.length := by
  unfold layRoot
  split <;> simp

/-- A take sees as many bytes as it reads. -/
theorem length_latched (s : State) (c a : Nat) (d : List Byte) : (latched s c a d).length = d.length := by
  unfold latched
  split
  · rfl
  · next t _ =>
    exact List.foldlRecOn (motive := fun l => l.length = d.length) t.latch _ rfl fun l hl e _ => (length_layRoot a l e).trans hl

/-- Blocks of 32, one after the other, are the weights. -/
theorem flatten_blocks32 (ws : List W32) : (blocks32 ws).flatten = ws := by
  have htake : ∀ n, ((List.range n).map fun i => (ws.drop (32 * i)).take 32).flatten = ws.take (32 * n) := fun n => by
    induction n with
    | zero => simp
    | succ n ih => rw [List.range_succ, List.map_append, List.flatten_append, ih, Nat.mul_succ, List.take_add]; simp
  unfold blocks32
  rw [htake, List.take_of_length_le]
  unfold cdiv
  omega

/-- The FP8 conversions make one byte of each record of 4 B (R55). -/
theorem length_convertCodes {k : Nat} (hk : k ≠ 0) (d : List Byte) : (convertCodes k d).length = d.length / 4 := by
  have hblock : ∀ (ws : List W32) (f : W32 → Nat), (ws.flatMap fun w => leBytes (if k = 0 then 2 else 1) (f w)).length = ws.length := by
    intro ws f
    rw [if_neg hk]
    simp [List.length_flatMap, leBytes]
  unfold convertCodes
  rw [List.length_flatMap]
  simp only [hblock]
  rw [← List.length_flatten, flatten_blocks32]
  simp [recordWeights]

/-- A piece that needs no conversion is written as it was read. -/
theorem placePiece_none {s t : State} {b : List Byte} {q : Req} {d : List Byte} (h : placePiece s b q none d = .ok t) :
    writeMem s (xDst b + q.row * xDpitch b + q.off) d = (.done, t) := by
  unfold placePiece at h
  dsimp only at h
  split at h
  · next hw => cases h; exact hw
  · cases h

/-- A converted piece is two writes: its codes, and its scale bytes where it has any. -/
theorem placePiece_some {s t : State} {b : List Byte} {q : Req} {k : Nat} {d : List Byte} (h : placePiece s b q (some k) d = .ok t) :
    ∃ u, writeMem s (xDst b + q.row * xDpitch b + codesOff k q.off) (convertCodes k d) = (.done, u) ∧
      (k = 0 ∧ t = u ∨ k ≠ 0 ∧ writeMem u (xDst b + q.row * xDpitch b + scalesOff b q.off) (convertScales k d) = (.done, t)) := by
  unfold placePiece at h
  dsimp only at h
  split at h
  · next u hw =>
    refine ⟨u, hw, ?_⟩
    split at h
    · next hk => cases h; exact .inl ⟨hk, rfl⟩
    · next hk =>
      split at h
      · next hw' => cases h; exact .inr ⟨hk, hw'⟩
      · cases h
  · cases h

/-- A piece is moved by a read that passes its test. -/
theorem placePiece_of_movePiece {s t : State} {c : Nat} {b : List Byte} {q : Req} (h : movePiece s c b q = .ok t) :
    placePiece s b q (pieceKind s c b q) (latched s c (xSrc b + q.row * xSpitch b + q.off)
      (devReads s (xSrc b + q.row * xSpitch b + q.off) q.len)) = .ok t := by
  unfold movePiece readMem at h
  dsimp only at h
  generalize readTest s (xSrc b + q.row * xSpitch b + q.off) q.len = r at h
  cases r with
  | done => exact h
  | unmapped | keyDenied | dataLoss => cases h

/-- The codes of a row end before its scale bytes begin (log 75). -/
theorem codesOff_add_le_scalesOff {k off n : Nat} {b : List Byte} (hk : k ≠ 0) (h : off + n ≤ xLen b) :
    codesOff k off + n / 4 ≤ scalesOff b off := by
  rw [codesOff, if_neg hk, scalesOff]
  omega

/-- What a converted piece leaves: codes and scale bytes at their places, and every other byte as it was. -/
theorem placePiece_some_reads {s t : State} {b : List Byte} {q : Req} {k : Nat} {d : List Byte} (h : placePiece s b q (some k) d = .ok t)
    (hlen : q.off + d.length ≤ xLen b) :
    devReads t (xDst b + q.row * xDpitch b + codesOff k q.off) (convertCodes k d).length = convertCodes k d ∧
    devReads t (xDst b + q.row * xDpitch b + scalesOff b q.off) (convertScales k d).length = convertScales k d ∧
    ∀ a, (a < xDst b + q.row * xDpitch b + codesOff k q.off ∨
        xDst b + q.row * xDpitch b + codesOff k q.off + (convertCodes k d).length ≤ a) →
      (a < xDst b + q.row * xDpitch b + scalesOff b q.off ∨
        xDst b + q.row * xDpitch b + scalesOff b q.off + (convertScales k d).length ≤ a) → devByte t a = devByte s a := by
  obtain ⟨u, hcodes, hscales⟩ := placePiece_some h
  obtain ⟨hc, hcframe⟩ := writeMem_reads hcodes
  rcases hscales with ⟨rfl, rfl⟩ | ⟨hk, hscales⟩
  · exact ⟨hc, rfl, fun a ha _ => hcframe a ha⟩
  · obtain ⟨hs, hsframe⟩ := writeMem_reads hscales
    have hsep := codesOff_add_le_scalesOff hk hlen
    rw [← length_convertCodes hk] at hsep
    refine ⟨?_, hs, fun a ha ha' => (hsframe a ha').trans (hcframe a ha)⟩
    rw [devReads_congr _ _ fun x _ hx => hsframe x (.inl (by omega)), hc]

-- Address-generator programs and returned requests (R128, R266)

/-- A head that joins its START counter leaves the reels of the address generators. -/
theorem joinHead_agReels (x : Core) (key : Nat) : (joinHead x key).agReels = x.agReels := by
  unfold joinHead joinBar
  dsimp only
  split
  · split_ifs <;> rfl
  · rfl

/-- Heads that join leave the reels of the address generators. -/
theorem foldl_joinHead_agReels (l : List Nat) (x : Core) : (l.foldl joinHead x).agReels = x.agReels := by
  induction l generalizing x with
  | nil => rfl
  | cons k t ih => rw [List.foldl_cons, ih, joinHead_agReels]

/-- A queue's head that is taken leaves the reels of the address generators. -/
@[simp] theorem popHead_agReels (x : Core) (key : Nat) : (popHead x key).agReels = x.agReels :=
  foldl_joinHead_agReels queueKeys (withQueue x key (queueOf x key).tail)

/-- A program at its queue's head starts on a reel without a configuration, and else takes the shadow slot. -/
theorem exec_agProgram_of_readyHead {c mu : Nat} {d : QDesc} {s : State} (hc : c < 208) (hmu : mu < 4) (hlive : engineLive s c = true)
    (hd : readyHead (core s c) (8 + mu) = some d) (hskip : d.skip = false) :
    exec (.agProgram c mu) s =
      let k := agReelKey mu (agSel d.bytes) (dReel d.bytes)
      let r : GenReel := tget {} (core s c).agReels k
      if r.conf.isNone then when_ (threadsFree (core s c) mu d.bytes) s (agStart (setCore s c (popHead (core s c) (8 + mu))) c mu d)
      else when_ r.shadow.isNone s (modCore s c fun x => let x := popHead x (8 + mu)
        { x with agReels := tput k { r with shadow := some d } x.agReels }) := by
  rw [show exec (.agProgram c mu) s = execAgProgram c mu s from rfl]
  simp [execAgProgram, coreOk, muOk, hc, hmu, hlive, hd, hskip]

/-- A returned read of a program is the program's. -/
theorem exec_requestReturn_of_findAg {c k : Nat} {q : Req} {g : AgRun} {s : State} (hc : c < 208) (hlive : engineLive s c = true)
    (hq : (core s c).reqs[k]? = some q) (hx : q.xfr = false) (hg : findAg (core s c) q.id = some g) : exec (.requestReturn c k) s =
      .next (agReturn (setCore s c { core s c with reqs := (core s c).reqs.eraseIdx k }) c g q) := by
  rw [show exec (.requestReturn c k) s = execRequestReturn c k s from rfl]
  simp [execRequestReturn, coreOk, hc, hlive, hq, hx, hg, modCore]

/-- A returned piece of a LOAD or a STORE is the transfer's. -/
theorem exec_requestReturn_of_findXfr {c k : Nat} {q : Req} {r : XfrRun} {s : State} (hc : c < 208) (hlive : engineLive s c = true)
    (hq : (core s c).reqs[k]? = some q) (hx : q.xfr = true) (hr : findXfr (core s c) q.id = some r) (hdir : xDir r.desc.bytes < 2) :
    exec (.requestReturn c k) s = .next (xfrReturn s c r q) := by
  rw [show exec (.requestReturn c k) s = execRequestReturn c k s from rfl]
  simp [execRequestReturn, coreOk, hc, hlive, hq, hx, hr, hdir]

/-- Settles O34: the commands by the lemma of each, the bytes by what a performed write leaves. -/
theorem memoryStreams : Obligations.MemoryStreams := by
  unfold Obligations.MemoryStreams
  refine ⟨⟨fun c mu d s hc hmu hlive hd hskip => ?_, fun c k q g s hc hlive hq hx hg => exec_requestReturn_of_findAg hc hlive hq hx hg,
    fun c k q r s hc hlive hq hx hr hdir => ?_⟩, fun s t c b q h hlen => ?_⟩
  · have hexec := exec_agProgram_of_readyHead hc hmu hlive hd hskip
    dsimp only at hexec ⊢
    rw [hexec]
    refine ⟨fun hconf hfree => ?_, fun hconf hfree => ?_, fun hconf hshadow => ?_⟩
    · simp [hconf, hfree]
    · simp [hconf, hfree]
    · rw [if_neg (by simpa using hconf), hshadow]
      exact ⟨_, rfl, fun a => devByte_congr (by simp [modCore]) (by simp [modCore]) (by simp [modCore]) a, by simp [tget_tput]⟩
  · rw [exec_requestReturn_of_findXfr hc hlive hq hx hr hdir]
    refine ⟨fun t hcod hmove => ?_, fun hcod hframe => ?_, fun t hcod hframe h0 hload => ?_, fun t hcod hframe h1 hstore => ?_⟩
    · simp [xfrReturn, hcod, hmove]
    · simp [xfrReturn, hcod, hframe]
    · simp [xfrReturn, hcod, hframe, h0, hload]
    · simp [xfrReturn, hcod, hframe, h1, hstore]
  · have hplace := placePiece_of_movePiece h
    refine ⟨fun hkind => ?_, fun k hkind => ?_⟩
    · rw [hkind] at hplace
      exact writeMem_reads (placePiece_none hplace)
    · rw [hkind] at hplace
      exact placePiece_some_reads hplace (by rw [length_latched, length_devReads]; exact hlen)

end Sys2Proof.Machine

/-! PROOFS. The matrix engine: sums that do not depend on their order (R62, R65, R69), and how its passes and drains start, repeat and end
(R66 to R78, R97). -/
namespace Sys2Proof.Machine

open Sys2Proof

-- Order-free accumulation (R62, R65, R69)

/-- The magnitude of a sum is at most its number of terms times a bound on theirs. -/
theorem natAbs_sum_le {B : Nat} : ∀ {l : List Int}, (∀ a ∈ l, a.natAbs ≤ B) → l.sum.natAbs ≤ l.length * B
  | [], _ => by simp
  | a :: t, h => by
    have ha := h a (List.mem_cons_self ..)
    have ht := natAbs_sum_le fun b hb => h b (List.mem_cons_of_mem _ hb)
    calc (a :: t).sum.natAbs ≤ a.natAbs + t.sum.natAbs := by rw [List.sum_cons]; exact Int.natAbs_add_le ..
      _ ≤ (a :: t).length * B := by rw [List.length_cons, Nat.succ_mul]; omega

/-- The bound on the entries and the bound on their number multiply to less than 2^47 (R65). -/
theorem natAbs_sum_lt_of_inRange {r : Nat} {l : List Int} (hr : r ≤ 47) (hlen : l.length ≤ 2 ^ r) (h : ∀ a ∈ l, inRange r a = true) :
    l.sum.natAbs < 2 ^ 47 :=
  calc l.sum.natAbs ≤ l.length * (2 ^ (47 - r) - 1) := natAbs_sum_le fun a ha => of_decide_eq_true (h a ha)
    _ ≤ 2 ^ r * (2 ^ (47 - r) - 1) := Nat.mul_le_mul_right _ hlen
    _ < 2 ^ r * 2 ^ (47 - r) := Nat.mul_lt_mul_of_pos_left (Nat.sub_lt (Nat.two_pow_pos _) Nat.one_pos) (Nat.two_pow_pos _)
    _ = 2 ^ 47 := by rw [← pow_add, Nat.add_sub_cancel' hr]

/-- Joining special states does not depend on their order. -/
theorem specJoin_comm (a b : Nat) : specJoin a b = specJoin b a := by
  unfold specJoin
  split_ifs <;> omega

/-- A special state joined with itself. -/
@[simp] theorem specJoin_self (a : Nat) : specJoin a a = a := by simp [specJoin]

/-- Finite is neutral. -/
@[simp] theorem specJoin_zero_left (a : Nat) : specJoin 0 a = a := rfl

/-- Finite is neutral on the right too. -/
@[simp] theorem specJoin_zero_right (a : Nat) : specJoin a 0 = a := specJoin_comm a 0

/-- NaN absorbs. -/
@[simp] theorem specJoin_three_left (a : Nat) : specJoin 3 a = 3 := by simp [specJoin]

/-- NaN absorbs on the right too. -/
@[simp] theorem specJoin_three_right (a : Nat) : specJoin a 3 = 3 := by rw [specJoin_comm, specJoin_three_left]

/-- Two different special states that are not Finite make NaN. -/
theorem specJoin_of_ne {a b : Nat} (ha : a ≠ 0) (hb : b ≠ 0) (h : a ≠ b) : specJoin a b = 3 := by simp [specJoin, ha, hb, h]

/-- Joining special states does not depend on their grouping. -/
theorem specJoin_assoc (a b c : Nat) : specJoin (specJoin a b) c = specJoin a (specJoin b c) := by
  rcases eq_or_ne a 0 with rfl | ha
  · simp
  rcases eq_or_ne b 0 with rfl | hb
  · simp
  rcases eq_or_ne c 0 with rfl | hc
  · simp
  rcases eq_or_ne a b with rfl | hab
  · rcases eq_or_ne a c with rfl | hac
    · simp
    · simp [specJoin_of_ne ha hc hac]
  · rcases eq_or_ne b c with rfl | hbc
    · simp [specJoin_of_ne ha hb hab]
    · simp [specJoin_of_ne ha hb hab, specJoin_of_ne hb hc hbc]

/-- Settles O27: every partial sum is a sum of entries in range, no more of them than 2^r, and a sum is the same in every order. -/
theorem orderFree : Obligations.OrderFree := by
  unfold Obligations.OrderFree
  refine ⟨fun r l m hr hlen hin hperm => ⟨fun k => ?_, ?_⟩, fun a b c _ _ _ => ?_⟩
  · rw [← List.sum_eq_foldl]
    refine natAbs_sum_lt_of_inRange hr ?_ fun a ha => hin a (hperm.mem_iff.1 (List.mem_of_mem_take ha))
    exact (List.length_take_le' k m).trans (hperm.length_eq.trans_le hlen)
  · rw [← List.sum_eq_foldl, ← List.sum_eq_foldl]
    exact hperm.sum_eq
  · exact ⟨specJoin_comm a b, specJoin_assoc a b c, specJoin_self a, specJoin_zero_left a, specJoin_three_left a, rfl⟩

-- The heads of queues join their START counters (R131, R222)

/-- What heads that join leave of a core: the matrix engine, the bytes that are queued, and the waiters of every counter, behind which
those that join stand. -/
structure HeadsJoined (x y : Core) : Prop where
  mxe : y.mxe = x.mxe
  bytes : ∀ k, (queueOf y k).map (·.bytes) = (queueOf x k).map (·.bytes)
  waiters : ∀ m k, (barOf x m k).waiters <+: (barOf y m k).waiters

/-- No head joins. -/
theorem HeadsJoined.refl (x : Core) : HeadsJoined x x := ⟨rfl, fun _ => rfl, fun _ _ => List.prefix_refl _⟩

/-- Some heads join, and then others. -/
theorem HeadsJoined.trans {x y z : Core} (h : HeadsJoined x y) (h' : HeadsJoined y z) : HeadsJoined x z :=
  ⟨h'.mxe.trans h.mxe, fun k => (h'.bytes k).trans (h.bytes k), fun m k => (h.waiters m k).trans (h'.waiters m k)⟩

/-- A waiter joins exactly where fewer than 32 wait, and stands last. -/
theorem joinBar_eq_some_iff {x y : Core} {m k : Nat} {w : Waiter} :
    joinBar x m k w = some y ↔ (barOf x m k).waiters.length < 32 ∧ y = withBar x m k (joined (barOf x m k) w) := by
  simp only [joinBar, joined, Option.ite_none_right_eq_some, Option.some.injEq, eq_comm (a := y)]

/-- One waiter more leaves the waiters of every counter before it. -/
theorem waiters_prefix_withBar_joined (x : Core) (m k : Nat) (w : Waiter) (m' k' : Nat) :
    (barOf x m' k').waiters <+: (barOf (withBar x m k (joined (barOf x m k) w)) m' k').waiters := by
  simp only [barOf, withBar, tget_tset]
  split
  · next h => rw [h]; exact List.prefix_append ..
  · exact List.prefix_refl _

/-- The mark that a head has joined changes no bytes. -/
theorem map_bytes_setHead_joined {x : Core} {key : Nat} {d : QDesc} {rest : List QDesc} (hq : queueOf x key = d :: rest) (k : Nat) :
    (queueOf (setHead x key { d with joined := true }) k).map (·.bytes) = (queueOf x k).map (·.bytes) := by
  rw [setHead, queueOf_withQueue]
  split
  · next h => subst h; simp [hq]
  · rfl

/-- The head of one queue. -/
theorem headsJoined_joinHead (x : Core) (key : Nat) : HeadsJoined x (joinHead x key) := by
  unfold joinHead
  split
  · next d rest hq =>
    dsimp only
    split
    · exact .refl x
    · split
      · next y hy =>
        obtain ⟨-, rfl⟩ := joinBar_eq_some_iff.1 hy
        exact ⟨rfl, map_bytes_setHead_joined hq, waiters_prefix_withBar_joined x _ _ _⟩
      · exact .refl x
  · exact .refl x

/-- The heads of several queues. -/
theorem headsJoined_foldl : ∀ (l : List Nat) (x : Core), HeadsJoined x (l.foldl joinHead x)
  | [], x => .refl x
  | k :: t, x => (headsJoined_joinHead x k).trans (headsJoined_foldl t (joinHead x k))

/-- Once a queue's head is off, the heads of all queues join. -/
theorem headsJoined_popHead (x : Core) (key : Nat) : HeadsJoined (withQueue x key (queueOf x key).tail) (popHead x key) :=
  headsJoined_foldl queueKeys _

/-- Taking a queue's head off leaves the matrix engine. -/
@[simp] theorem popHead_mxe (x : Core) (key : Nat) : (popHead x key).mxe = x.mxe := (headsJoined_popHead x key).mxe

/-- Taking a queue's head off leaves every waiter in its place. -/
theorem waiters_prefix_popHead (x : Core) (key m k : Nat) : (barOf x m k).waiters <+: (barOf (popHead x key) m k).waiters :=
  (headsJoined_popHead x key).waiters m k

/-- The queue after its head is taken off holds the bytes of the rest. -/
theorem map_bytes_popHead (x : Core) (key : Nat) :
    (queueOf (popHead x key) key).map (·.bytes) = ((queueOf x key).map (·.bytes)).tail := by
  rw [(headsJoined_popHead x key).bytes, queueOf_withQueue, if_pos rfl, List.map_tail]

-- A pass starts (R66, R67, R74, R78)

/-- The matrix engine is not part of a barrier counter. -/
@[simp] theorem barOf_modMxe (x : Core) (f : Mxe → Mxe) (m k : Nat) : barOf (modMxe x f) m k = barOf x m k := rfl

/-- The matrix engine is not part of an issue queue. -/
@[simp] theorem queueOf_modMxe (x : Core) (f : Mxe → Mxe) (k : Nat) : queueOf (modMxe x f) k = queueOf x k := rfl

/-- Whether a tile uses prediction on a core: its own flag, and the setting that the take latched. -/
def usesPrediction (s : State) (c : Nat) (b : List Byte) : Bool := mZp b && (cfgOf s c (mxeBase c)).getLsbD 0

/-- Whether the pass of a tile joins a check barrier. -/
def needsCheck (s : State) (c : Nat) (b : List Byte) : Bool := usesPrediction s c b && decide ((dAuxb b).n ≠ 0)

/-- The pass that the tile at the head of the queue starts. -/
def startPass (s : State) (c : Nat) (d : QDesc) : MxePass :=
  let raises := if mChained d.bytes then raisesOf s c (fld d.bytes 22 2) else 0
  fillPass s c { desc := d, set := 1 - (core s c).mxe.activeSet, s := signed 16 (fld d.bytes 20 2) + 8 * raises, repeats := 0,
                 zp := usesPrediction s c d.bytes, checkOk := !needsCheck s c d.bytes }

/-- The core once the pass of a tile has joined its check barrier, where it needs one. -/
def joinCheck (x : Core) (b : List Byte) (chk : Bool) : Core :=
  let r := dAuxb b
  if chk then withBar x r.mu r.ctr (joined (barOf x r.mu r.ctr) { who := .mxeCheck, n := r.n }) else x

/-- A check barrier that is joined leaves the matrix engine. -/
@[simp] theorem joinCheck_mxe (x : Core) (b : List Byte) (chk : Bool) : (joinCheck x b chk).mxe = x.mxe := by
  cases chk <;> rfl

/-- A check barrier that is joined leaves the issue queues. -/
@[simp] theorem queueOf_joinCheck (x : Core) (b : List Byte) (chk : Bool) (k : Nat) : queueOf (joinCheck x b chk) k = queueOf x k := by
  cases chk <;> rfl

/-- The counter of a check barrier that a pass has joined. -/
theorem barOf_joinCheck (x : Core) (b : List Byte) : barOf (joinCheck x b true) (dAuxb b).mu (dAuxb b).ctr =
    joined (barOf x (dAuxb b).mu (dAuxb b).ctr) { who := .mxeCheck, n := (dAuxb b).n } := by
  simp [joinCheck, barOf, withBar]

/-- A pass joins the check barrier that it needs where fewer than 32 wait. -/
theorem joinBar_eq_joinCheck {x : Core} {b : List Byte} {chk : Bool}
    (h : chk = true → (barOf x (dAuxb b).mu (dAuxb b).ctr).waiters.length < 32) :
    (if chk then joinBar x (dAuxb b).mu (dAuxb b).ctr { who := .mxeCheck, n := (dAuxb b).n } else some x) = some (joinCheck x b chk) := by
  cases chk
  · rfl
  · exact joinBar_eq_some_iff.2 ⟨h rfl, rfl⟩

/-- The schedule of a pass is the predicted blocks, where it uses prediction. -/
theorem mem_sched_fillPass {s : State} {c g t : Nat} {p : MxePass} (hg : g < groupsOf p) (ht : t < 8) :
    8 * g + t ∈ (fillPass s c p).sched ↔ p.zp = true ∧ predicted s c p.desc.bytes g t = true := by
  have hblock : ∀ g' t', t' < 8 → (8 * g' + t' = 8 * g + t ↔ g' = g ∧ t' = t) := by omega
  cases hz : p.zp
  · simp [fillPass, hz]
  · simp only [fillPass, hz, if_true, List.mem_map, List.mem_filter, List.mem_flatMap, List.mem_range, true_and]
    constructor
    · rintro ⟨_, ⟨⟨g', -, t', ht', rfl⟩, hp⟩, he⟩
      obtain ⟨rfl, rfl⟩ := (hblock g' t' ht').1 he
      exact hp
    · exact fun hp => ⟨(g, t), ⟨⟨g, hg, t, ht, rfl⟩, hp⟩, rfl⟩

/-- A tile at the head of the queue starts where no pass runs and its set is free, with room at the check barrier that it needs. -/
theorem exec_mxePassStart_of_readyHead {c : Nat} {d : QDesc} {s : State} (hc : c < 208) (hlive : engineLive s c = true)
    (hd : readyHead (core s c) 0 = some d) (hskip : d.skip = false) (hpass : (core s c).mxe.pass = none)
    (hset : ∀ q ∈ (core s c).mxe.drains, q.set ≠ 1 - (core s c).mxe.activeSet)
    (hroom : needsCheck s c d.bytes = true → (barOf (core s c) (dAuxb d.bytes).mu (dAuxb d.bytes).ctr).waiters.length < 32) :
    exec (.mxePassStart c) s = .next (bump (setCore s c (modMxe (popHead (joinCheck (core s c) d.bytes (needsCheck s c d.bytes)) 0) fun m =>
      { m with pass := some (startPass s c d), activeSet := 1 - (core s c).mxe.activeSet }))
      (mxeBase c + 0x28) (omitted (startPass s c d))) := by
  have hfree : ((core s c).mxe.drains.any fun q => decide (q.set = 1 - (core s c).mxe.activeSet)) = false := by simpa using hset
  have hjoin := joinBar_eq_joinCheck (chk := mZp d.bytes && (cfgOf s c (mxeBase c)).getLsbD 0 && decide ((dAuxb d.bytes).n ≠ 0)) hroom
  rw [show exec (.mxePassStart c) s = execMxePassStart c s from rfl]
  simp only [execMxePassStart, coreOk, hc, decide_true, onUnit_true, hd, hlive, hskip, hpass, hfree, hjoin, Option.isSome_none,
    not_true, Bool.false_eq_true, or_self, if_false]
  rfl

/-- Settles O24: the pass, its set and its schedule by `startPass`, the waiters and the queue by what taking off a head leaves. -/
theorem mxePassStarts : Obligations.MxePassStarts := by
  unfold Obligations.MxePassStarts
  intro c d s hc hlive hd hskip
  dsimp only
  intro hpass hset hroom
  refine ⟨_, startPass s c d, exec_mxePassStart_of_readyHead hc hlive hd hskip hpass hset hroom,
    fun a => devByte_congr (by simp) (by simp) (by simp) a, ?_, ?_, rfl, rfl, rfl, rfl, rfl, fun hchk => ?_, ?_, rfl,
    fun g t hg ht => mem_sched_fillPass hg ht, ?_⟩
  · simp [modMxe]
  · simp [modMxe]
  · obtain ⟨l, hl⟩ := waiters_prefix_popHead (joinCheck (core s c) d.bytes (needsCheck s c d.bytes)) 0
      (dAuxb d.bytes).mu (dAuxb d.bytes).ctr
    refine ⟨l, ?_⟩
    rw [← barOf_joinCheck, ← show needsCheck s c d.bytes = true from hchk, hl, core_bump, core_setCore, if_pos rfl, barOf_modMxe]
  · simp [startPass, fillPass]
  · rw [core_bump, core_setCore, if_pos rfl, queueOf_modMxe, map_bytes_popHead, queueOf_joinCheck]

-- A failed range test (R66, R67, R74)

/-- The first entry that passes a test, after that entry is changed and passes it still. -/
theorem find?_updFirst {α : Type} {p : α → Bool} {f : α → α} (hf : ∀ x, p (f x) = p x) :
    ∀ l : List α, (updFirst p f l).find? p = (l.find? p).map f
  | [] => rfl
  | x :: t => by
    cases hx : p x
    · simp [updFirst, hx, find?_updFirst hf t]
    · simp [updFirst, hx, hf]

/-- The entry of a command after it is changed, and keeps the command's number. -/
theorem findEntry_modEntry {f : Entry → Entry} (hf : ∀ e, (f e).stream = e.stream ∧ (f e).seq = e.seq) (s : State) (st seq : Nat) :
    findEntry (modEntry s st seq f) st seq = (findEntry s st seq).map f :=
  find?_updFirst (fun e => by simp [hf e]) s.intake.log

/-- The raises recorded for all chains of a command. -/
def chainRaises (s : State) (k : Take) : Nat := (((findEntry s k.stream k.seq).elim [] (·.raises)).map (·.2)).sum

/-- The state in which a chain's tile has failed the range test: one event, its tags marked, and one raise more of its chain. -/
def recordRaise (s : State) (c : Nat) (k : Take) (b : List Byte) : State :=
  modEntry (markTags (bump s (mxeBase c + 0x18) 1) k.stream k.seq b) k.stream k.seq fun e =>
    { e with raises := tset 0 e.raises (fld b 22 2) (tget 0 e.raises (fld b 22 2) + 1) }

/-- A recorded raise is one more of its chain. -/
theorem findEntry_recordRaise {s : State} {c : Nat} {k : Take} {b : List Byte} {e : Entry} (h : findEntry s k.stream k.seq = some e) :
    ∃ e', findEntry (recordRaise s c k b) k.stream k.seq = some e' ∧
      tget 0 e'.raises (fld b 22 2) = tget 0 e.raises (fld b 22 2) + 1 := by
  rw [recordRaise, findEntry_modEntry, markTags, findEntry_modEntry, findEntry_bump, h]
  · exact ⟨_, rfl, by simp⟩
  all_goals exact fun _ => ⟨rfl, rfl⟩

/-- Everything a failed range test can do. -/
theorem exec_mxeRangeFail_of_failed {c : Nat} {p : MxePass} {k : Take} {s : State} (hc : c < 208) (hlive : engineLive s c = true)
    (hp : (core s c).mxe.pass = some p) (hk : takeOfCore s c = some k) (hchk : checked s c p = true) (hrange : passInRange s c p = false) :
    exec (.mxeRangeFail c) s =
      let b := p.desc.bytes
      let q := fillPass s c { p with s := p.s + 8, repeats := p.repeats + 1 }
      .next (if mChained b then
          if 3 ≤ raisesOf s c (fld b 22 2) ∨ 64 ≤ chainRaises s k then accumRange s c b
          else killForRetake (recordRaise s c k b) k { status := 5, reason := 2 } false
        else if p.repeats < 3 then
          modCore (markTags (bump (bump s (mxeBase c + 0x18) 1) (mxeBase c + 0x28) (omitted q)) k.stream k.seq b) c fun x =>
            modMxe x fun m => { m with pass := some q }
        else accumRange s c b) := by
  rw [show exec (.mxeRangeFail c) s = execMxeRangeFail c s from rfl]
  simp only [execMxeRangeFail, coreOk, hc, decide_true, onUnit_true, hp, hk, hlive, hchk, hrange, and_self, not_true, Bool.false_eq_true,
    or_self, if_false]
  cases hchain : mChained p.desc.bytes
  · simp only [Bool.false_eq_true, not_false_eq_true, if_true, if_false]
    split <;> rfl
  · unfold chainRaises
    simp only [not_true, if_true, if_false]
    cases findEntry s k.stream k.seq
    · simp only [Option.elim, List.map_nil, List.sum_nil]
      split <;> rfl
    · simp only [Option.elim, List.sum_eq_foldl]
      split <;> rfl

/-- Settles O25: an unchained tile by its repeats, a chained one by the raises recorded. -/
theorem mxeRangeFailures : Obligations.MxeRangeFailures := by
  unfold Obligations.MxeRangeFailures
  intro c p k s hc hlive hp hk hchk hrange
  dsimp only
  rw [exec_mxeRangeFail_of_failed hc hlive hp hk hchk hrange]
  refine ⟨fun hchain hrep => ?_, fun hchain hrep => ?_, fun hchain hraise htotal => ?_, fun hchain hfull => ?_⟩
  · simp [hchain, hrep]
  · simp [hchain, Nat.not_lt.2 hrep]
  · have hroom : ¬(3 ≤ raisesOf s c (fld p.desc.bytes 22 2) ∨ 64 ≤ chainRaises s k) := by
      rw [not_or]
      exact ⟨Nat.not_le.2 hraise, Nat.not_le.2 htotal⟩
    exact ⟨recordRaise s c k p.desc.bytes, by simp only [hchain, if_true, if_neg hroom], fun e he => findEntry_recordRaise he⟩
  · simp only [hchain, if_true]
    exact congrArg _ (if_pos hfull)

-- Passes and drains end (R72, R73, R78, R97)

/-- Reading a table after the keys from `b` on are written. -/
theorem tget_foldl_tset_range {α : Type} [DecidableEq α] (d : α) (b : Nat) (f : Nat → α) (t : Tab α) (q : Nat) : ∀ n,
    tget d (((List.range n).map fun i => (b + i, f i)).foldl (fun t e => tset d t e.1 e.2) t) q =
      if b ≤ q ∧ q < b + n then f (q - b) else tget d t q
  | 0 => by simp
  | n + 1 => by
    rw [List.range_succ, List.map_append, List.foldl_append, List.map_singleton, List.foldl_cons, List.foldl_nil, tget_tset,
      tget_foldl_tset_range d b f t q n]
    rcases eq_or_ne q (b + n) with rfl | hq
    · simp
    · have hkeys : (b ≤ q ∧ q < b + n) ↔ (b ≤ q ∧ q < b + (n + 1)) := by omega
      simp only [if_neg hq, hkeys]

/-- An EPILOGUE drain begins in the lowest free tile buffer. -/
theorem beginDrain_of_freeTb {s : State} {c tb : Nat} {d : MxeDrain} {rest : List MxeDrain} (hd : (core s c).mxe.drains = d :: rest)
    (hmode : mDrain d.desc.bytes = 0) (htb : d.tb = none) (hfree : freeTb (core s c).vce = some tb) :
    beginDrain s c = modCore (drainEpilogue s c d tb) c fun x =>
      modMxe x fun m => { m with drains := { d with tb := some tb } :: rest } := by
  simp [beginDrain, hd, hmode, htb, hfree]

/-- The core in which an EPILOGUE drain has begun. -/
theorem core_drainEpilogue (s : State) (c : Nat) (d : MxeDrain) (tb c' : Nat) : core (drainEpilogue s c d tb) c' =
    if c' = c then { core s c with vce := { (core s c).vce with
      tiles := ((List.range 8192).map fun q => (8192 * tb + q, r32 (drainValue s c d q))).foldl (fun t e => tset 0 t e.1 e.2)
        (core s c).vce.tiles,
      tbState := tset 0 (core s c).vce.tbState tb 1, epi := (core s c).vce.epi ++ [some tb] } } else core s c' := by
  rw [drainEpilogue, core_modCore]

/-- Cell (i, j) in row-major order. -/
theorem getElem?_tileCells {i j : Nat} (hi : i < 128) (hj : j < 64) : tileCells[64 * i + j]? = some (i, j) := by
  rw [tileCells, List.getElem?_map, List.getElem?_range (by omega), Option.map_some]
  congr 2 <;> omega

/-- A prediction miss under its condition. -/
theorem exec_zpMiss_of_isMiss {c : Nat} {p : MxePass} {s : State} (hc : c < 208) (hlive : engineLive s c = true)
    (hp : (core s c).mxe.pass = some p) (hmiss : isMiss s c p = true) : exec (.zpMiss c) s = .next (bump (modCore s c fun x =>
      modMxe x fun m => { m with pass := some (fillPass s c { p with zp := false }) }) (mxeBase c + 0x20) 1) := by
  rw [show exec (.zpMiss c) s = execZpMiss c s from rfl]
  simp [execZpMiss, coreOk, hc, hp, hlive, hmiss]

/-- The set of a pass that has ended: what its cells hold, with nothing written yet. -/
def endedPass (s : State) (c : Nat) (p : MxePass) : MxeDrain :=
  { desc := p.desc, set := p.set, s := p.s, acc := (tileCells.map (cellAcc s c p)).map (·.1),
    spec := (tileCells.map (cellAcc s c p)).map (·.2) }

/-- A set has 128 × 64 cells. -/
theorem length_endedPass_acc (s : State) (c : Nat) (p : MxePass) : (endedPass s c p).acc.length = 8192 := by
  simp only [endedPass, tileCells, List.length_map, List.length_range]

/-- A set holds cell (i, j) at its place in row-major order. -/
theorem endedPass_cell (s : State) (c : Nat) (p : MxePass) {i j : Nat} (hi : i < 128) (hj : j < 64) :
    ((endedPass s c p).acc.getD (64 * i + j) 0, (endedPass s c p).spec.getD (64 * i + j) 0) = cellAcc s c p (i, j) := by
  simp only [endedPass, List.getD_eq_getElem?_getD, List.getElem?_map, getElem?_tileCells hi hj, Option.map_some, Option.getD_some]

/-- A pass whose checks have reported and whose entries are in range ends. -/
theorem exec_mxePassEnd_of_settled {c : Nat} {p : MxePass} {s : State} (hc : c < 208) (hlive : engineLive s c = true)
    (hp : (core s c).mxe.pass = some p) (hset : settled s c p = true) (hrange : passInRange s c p = true) :
    exec (.mxePassEnd c) s = .next (arriveRef (beginDrain { modCore s c (fun x => modMxe x fun m =>
      { m with pass := none, drains := m.drains ++ [endedPass s c p], lastRepeats := p.repeats }) with
        free := s.free + if mPreload p.desc.bytes = 3 then 8192 else 0 } c) c p.desc.id p.desc.bytes (dDone p.desc.bytes)) := by
  rw [show exec (.mxePassEnd c) s = execMxePassEnd c s from rfl]
  simp only [execMxePassEnd, coreOk, hc, decide_true, onUnit_true, hp, hlive, hset, hrange, and_self, not_true, if_false]
  rfl

/-- What the end of the oldest drain leaves of the state in which its rows are written: its set is free, a tile buffer that it drops is
free, the next drain begins, and DRAINB is arrived on. -/
def finishDrain (t : State) (c : Nat) (d : MxeDrain) (rest : List MxeDrain) : State :=
  let u := modCore t c fun x => modMxe x fun m => { m with drains := rest, sLast := d.s }
  let v := if d.drop then modCore u c fun x => freeTbs x d.tb.toList else u
  arriveOut (beginDrain v c) c d.desc.id d.desc.bytes (bref d.desc.bytes 116) (outRanges d.desc)

/-- Everything the end of a drain can do. -/
theorem exec_mxeDrainEnd_of_cons {c : Nat} {d : MxeDrain} {rest : List MxeDrain} {s : State} (hc : c < 208) (hlive : engineLive s c = true)
    (hd : (core s c).mxe.drains = d :: rest) : exec (.mxeDrainEnd c) s =
      if mDrain d.desc.bytes = 0 then when_ d.tb.isSome s (finishDrain s c d rest)
      else if mDrain d.desc.bytes = 1 then .next (finishDrain (drainStore s c d) c d rest)
      else .next (finishDrain (drainCarry s c d) c d rest) := by
  rw [show exec (.mxeDrainEnd c) s = execMxeDrainEnd c s from rfl]
  simp only [execMxeDrainEnd, coreOk, hc, decide_true, onUnit_true, hd, hlive, not_true, if_false]
  split
  · next h => simp [h, finishDrain]
  · next h => simp [h, finishDrain]
  · next h0 h1 => rw [if_neg h0, if_neg h1]; rfl

/-- Settles O26: each event by what it does under its condition, and the tiles of an EPILOGUE drain by what a table holds once a range of
its keys is written. -/
theorem mxePassAndDrainEnd : Obligations.MxePassAndDrainEnd := by
  unfold Obligations.MxePassAndDrainEnd
  refine fun c s hc hlive => ⟨fun p hp hmiss => exec_zpMiss_of_isMiss hc hlive hp hmiss, fun p hp hset hrange => ?_, fun d rest hd => ?_,
    fun d rest tb hd hmode htb hfree => ?_⟩
  · exact ⟨_, endedPass s c p, exec_mxePassEnd_of_settled hc hlive hp hset hrange, rfl, rfl, rfl, rfl, rfl, length_endedPass_acc s c p,
      fun i j hi hj => endedPass_cell s c p hi hj⟩
  · rw [exec_mxeDrainEnd_of_cons hc hlive hd]
    refine ⟨fun hmode htb => ?_, fun hmode htb => ?_, fun hmode => ?_, fun hmode => ?_⟩
    · simp [hmode, htb, finishDrain]
    · simp [hmode, htb]
    · simp [hmode, finishDrain]
    · simp [hmode, finishDrain]
  · rw [beginDrain_of_freeTb hd hmode htb hfree]
    dsimp only
    refine ⟨fun a => devByte_congr (by simp [drainEpilogue]) (by simp [drainEpilogue]) (by simp [drainEpilogue]) a,
      fun c' hne => by simp [hne, core_drainEpilogue], ?_, ?_, fun i => ?_, fun q hq => ?_⟩
    · simp [core_drainEpilogue, modMxe]
    · simp [core_drainEpilogue, modMxe]
    · simp [core_drainEpilogue, modMxe]
    · have hkey : (8192 * tb ≤ q ∧ q < 8192 * tb + 8192) ↔ q / 8192 = tb := by omega
      simp only [core_modCore, if_true, core_drainEpilogue, modMxe, tget_foldl_tset_range, hkey]
      split
      · next h => rw [show q - 8192 * tb = q % 8192 by omega]
      · rfl

end Sys2Proof.Machine

/-! PROOFS. The vector and reduction engines: walks, configurations and reductions, each command by what it does on a core whose engines
run (R85 to R117, R152 to R155, R261 to R264). -/
namespace Sys2Proof.Machine

open Sys2Proof

-- Taking off a queue's head (R131, R222)

/-- A head that joins changes nothing but the queues and the barrier counters. -/
theorem exists_joinHead_eq (x : Core) (key : Nat) : ∃ q b, joinHead x key = { x with queues := q, bars := b } := by
  unfold joinHead joinBar
  dsimp only
  split
  · split_ifs
    · exact ⟨_, _, rfl⟩
    · exact ⟨_, _, rfl⟩
    · exact ⟨_, _, rfl⟩
  · exact ⟨_, _, rfl⟩

/-- Heads that join change nothing else either. -/
theorem exists_foldl_joinHead_eq (l : List Nat) (x : Core) : ∃ q b, l.foldl joinHead x = { x with queues := q, bars := b } := by
  induction l generalizing x with
  | nil => exact ⟨_, _, rfl⟩
  | cons k t ih =>
    obtain ⟨q, b, h⟩ := exists_joinHead_eq x k
    rw [List.foldl_cons, h]
    exact ih _

/-- Taking off a queue's head changes nothing but the queues and the barrier counters. -/
theorem exists_popHead_eq (x : Core) (key : Nat) : ∃ q b, popHead x key = { x with queues := q, bars := b } :=
  exists_foldl_joinHead_eq queueKeys (withQueue x key (queueOf x key).tail)

/-- Taking off a queue's head leaves the vector engine. -/
@[simp] theorem popHead_vce (x : Core) (key : Nat) : (popHead x key).vce = x.vce := by
  obtain ⟨q, b, h⟩ := exists_popHead_eq x key
  rw [h]

-- Walks start (R97 to R99, R155, R247)

/-- The stage program under which a walk runs: its reel's, or eight empty stages. -/
def walkProg (x : Core) (b : List Byte) : List Byte := ((vceReel x (dReel b)).conf).getD (zeros 128)

/-- Whether a walk takes an epilogue entry: its program names T, and it claims no scratch buffers. -/
def takesEpi (x : Core) (b : List Byte) : Bool := namesT (walkProg x b) && (scratchOf b).isEmpty

/-- A walk fits exactly where each of its five conditions holds. -/
theorem walkFits_eq_true_iff (x : Core) (d : QDesc) : walkFits x d = true ↔
    (∀ w ∈ x.vce.walks, dReel w.desc.bytes ≠ dReel d.bytes) ∧ (vceReel x (dReel d.bytes)).shadow = none ∧
      (∀ i ∈ scratchOf d.bytes, tget 0 x.vce.tbState i = 0) ∧ (takesEpi x d.bytes = true → x.vce.epi ≠ []) ∧
      (tapOf d.bytes = true → redOpen x = true) := by
  have himp : ∀ p q : Bool, (!p || q) = true ↔ (p = true → q = true) := by decide
  rw [show walkFits x d = ((x.vce.walks.all fun w => decide (dReel w.desc.bytes ≠ dReel d.bytes)) &&
    (vceReel x (dReel d.bytes)).shadow.isNone && ((scratchOf d.bytes).all fun i => decide (tget 0 x.vce.tbState i = 0)) &&
    (!takesEpi x d.bytes || !x.vce.epi.isEmpty) && (!tapOf d.bytes || redOpen x)) from rfl]
  simp only [Bool.and_eq_true, List.all_eq_true, decide_eq_true_eq, Option.isNone_iff_eq_none, himp, Bool.not_eq_true',
    List.isEmpty_eq_false_iff, and_assoc]

/-- The core whose VCE has taken the walk's epilogue entry, kept for it or freed, and paired the reduction that it taps. -/
def takeWalk (x : Core) (b : List Byte) (keep closed : Bool) : Core :=
  let y := if takesEpi x b then takeEpi (popHead x 1) keep else popHead x 1
  if tapOf b then redPair y b closed else y

/-- The walk that starts, with the buffer that it reads as T. -/
def newWalk (x : Core) (d : QDesc) : Walk :=
  { desc := d, prog := walkProg x d.bytes, beat := 0, scratch := scratchOf d.bytes,
    tb := if takesEpi x d.bytes then x.vce.epi.headD none
      else if namesT (walkProg x d.bytes) then (scratchOf d.bytes).head? else none }

/-- The core on which a walk has started. -/
def startWalk (x : Core) (d : QDesc) : Core :=
  modVce (takeWalk x d.bytes true false) fun v =>
    { setTbs v (scratchOf d.bytes) 2 with walks := v.walks ++ [newWalk x d] }

/-- Everything the start of a walk can do. -/
theorem exec_vwalkStart_of_readyHead {c : Nat} {d : QDesc} {s : State} (hc : c < 208) (hlive : engineLive s c = true)
    (hd : readyHead (core s c) 1 = some d) (hskip : d.skip = false) (hkind : dKind d.bytes = 0) :
    exec (.vwalkStart c) s =
      if walkFits (core s c) d = true then
        if takesEpi (core s c) d.bytes = true ∧ (core s c).vce.epi.head? = some none then
          .next (walkDone (beginDrain (setCore s c (takeWalk (core s c) d.bytes false true)) c) c d [])
        else .next (agPostAll (setCore s c (startWalk (core s c) d)) c)
      else .next s := by
  rw [show exec (.vwalkStart c) s = execVwalkStart c s from rfl, execVwalkStart, show coreOk c = true from decide_eq_true hc, onUnit_true, hd]
  dsimp only
  by_cases hfit : walkFits (core s c) d = true
  · rw [if_neg (by simp [hlive, hskip, hkind, hfit]), if_pos hfit]
    by_cases hskips : takesEpi (core s c) d.bytes = true ∧ (core s c).vce.epi.head? = some none
    · rw [if_pos hskips, takeWalk, if_pos hskips.1]
      exact if_pos hskips
    · rw [if_neg hskips]
      exact if_neg hskips
  · rw [if_pos (.inr (.inr (.inr hfit))), if_neg hfit]

/-- An epilogue entry that a walk keeps leaves its queue, and nothing else changes. -/
theorem takeEpi_keep (x : Core) : takeEpi x true = modVce x fun v => { v with epi := v.epi.tail } := by
  unfold takeEpi
  split <;> rfl

/-- The vector engine once a walk's epilogue entry is kept for it. -/
theorem takeWalk_keep_vce (x : Core) (b : List Byte) (closed : Bool) : (takeWalk x b true closed).vce =
    { x.vce with epi := if takesEpi x b then x.vce.epi.tail else x.vce.epi } := by
  unfold takeWalk
  dsimp only
  rw [show ∀ (p : Bool) (y : Core), (if p then redPair y b closed else y).vce = y.vce from fun p _ => by cases p <;> rfl]
  split
  · rw [takeEpi_keep, modVce, popHead_vce]
  · rw [popHead_vce]

/-- Reading a table after one value is written at several keys. -/
theorem tget_foldl_tset_const {α : Type} [DecidableEq α] (d v : α) (i : Nat) : ∀ (l : List Nat) (t : Tab α),
    tget d (l.foldl (fun t k => tset d t k v) t) i = if i ∈ l then v else tget d t i
  | [], _ => by simp
  | k :: l, t => by
    rw [List.foldl_cons, tget_foldl_tset_const d v i l, tget_tset]
    by_cases hl : i ∈ l <;> simp [hl]

-- Beats (R89)

/-- A beat whose inputs have arrived, with its row written and its output's program running, waits for nothing. -/
theorem beatWaits_eq_zero {x : Core} {w : Walk} (hins : progsReady x (walkIns w.desc.bytes) = true)
    (hdata : ∀ i ∈ walkIns w.desc.bytes, dataReady x i (beatLins w.desc (beatPos w.desc w.beat)) = true)
    (hrow : rowPending x w (beatPos w.desc w.beat) = false) (hout : progsReady x [strm w.desc.bytes 100] = true) : beatWaits x w = 0 := by
  have hall : ((walkIns w.desc.bytes).all fun t => dataReady x t (beatLins w.desc (beatPos w.desc w.beat))) = true := List.all_eq_true.2 hdata
  simp [beatWaits, hins, hall, hrow, hout]

/-- The next beat of the running reel's walk issues exactly where it waits for nothing. -/
theorem exec_vceBeatIssue_of_find {c : Nat} {w : Walk} {s : State} (hc : c < 208) (hlive : engineLive s c = true)
    (hw : ((core s c).vce.walks.find? fun w => dReel w.desc.bytes = tget 0 (core s c).unitReel 1) = some w)
    (hbeat : w.beat < beatCount w.desc) : exec (.vceBeatIssue c) s =
      when_ (decide (beatWaits (core s c) w = 0)) s (beatOut s c w (beatPos w.desc w.beat)
        (runStages w.prog (beatEnv s c w (beatPos w.desc w.beat)) (core s c).vce.caches)) := by
  rw [show exec (.vceBeatIssue c) s = execVceBeatIssue c s from rfl]
  simp [execVceBeatIssue, coreOk, hc, hw, hlive, hbeat]

-- Walks end (R97, R99, R247)

/-- A tile buffer that is Free, or that the drain which writes it frees at its end. -/
def tbFreed (x : Core) (i : Nat) : Prop :=
  tget 0 x.vce.tbState i = 0 ∨ ∃ e, x.mxe.drains.head? = some e ∧ e.tb = some i ∧ e.drop = true

/-- One tile buffer set free. -/
def freeTbOf (x : Core) (t : Nat) : Core :=
  match x.mxe.drains with
  | d :: rest => if d.tb = some t then modMxe x fun m => { m with drains := { d with drop := true } :: rest }
      else { x with vce := { x.vce with tbState := tset 0 x.vce.tbState t 0 } }
  | [] => { x with vce := { x.vce with tbState := tset 0 x.vce.tbState t 0 } }

/-- Tile buffers are set free one by one. -/
theorem freeTbs_cons (x : Core) (t : Nat) (l : List Nat) : freeTbs x (t :: l) = freeTbs (freeTbOf x t) l := rfl

/-- What one buffer set free does: it frees it now, or has the drain that writes it do so. -/
theorem freeTbOf_cases (x : Core) (t : Nat) :
    freeTbOf x t = { x with vce := { x.vce with tbState := tset 0 x.vce.tbState t 0 } } ∨
      ∃ d rest, x.mxe.drains = d :: rest ∧ d.tb = some t ∧
        freeTbOf x t = modMxe x fun m => { m with drains := { d with drop := true } :: rest } := by
  unfold freeTbOf
  split
  · next d rest hd =>
    split
    · next htb => exact .inr ⟨d, rest, hd, htb, rfl⟩
    · exact .inl rfl
  · exact .inl rfl

/-- The buffer that is set free is freed. -/
theorem tbFreed_freeTbOf_self (x : Core) (t : Nat) : tbFreed (freeTbOf x t) t := by
  rcases freeTbOf_cases x t with h | ⟨d, rest, -, htb, h⟩
  · rw [h]; exact .inl (by simp)
  · rw [h]; exact .inr ⟨_, rfl, htb, rfl⟩

/-- A buffer that is freed stays freed while another is set free. -/
theorem tbFreed_freeTbOf {x : Core} {i : Nat} (h : tbFreed x i) (t : Nat) : tbFreed (freeTbOf x t) i := by
  rcases freeTbOf_cases x t with ht | ⟨d, rest, hd, -, ht⟩
  · rw [ht]
    exact h.imp (fun hz => by simp [hz]) id
  · rw [ht]
    refine h.imp id fun ⟨e, he, htb, _⟩ => ⟨_, rfl, ?_, rfl⟩
    rw [hd] at he
    exact (Option.some.inj he) ▸ htb

/-- Freed buffers stay freed while others are set free. -/
theorem tbFreed_freeTbs_of_tbFreed {x : Core} {i : Nat} (l : List Nat) (h : tbFreed x i) : tbFreed (freeTbs x l) i := by
  induction l generalizing x with
  | nil => exact h
  | cons t l ih => exact freeTbs_cons x t l ▸ ih (tbFreed_freeTbOf h t)

/-- Every buffer that is set free is freed. -/
theorem tbFreed_freeTbs {l : List Nat} {i : Nat} (x : Core) (h : i ∈ l) : tbFreed (freeTbs x l) i := by
  induction l generalizing x with
  | nil => cases h
  | cons t l ih =>
    rw [freeTbs_cons]
    rcases List.mem_cons.1 h with rfl | h
    · exact tbFreed_freeTbs_of_tbFreed l (tbFreed_freeTbOf_self x i)
    · exact ih (freeTbOf x t) h

/-- Buffers that are set free leave the walks. -/
@[simp] theorem freeTbs_walks (l : List Nat) (x : Core) : (freeTbs x l).vce.walks = x.vce.walks := by
  induction l generalizing x with
  | nil => rfl
  | cons t l ih =>
    rw [freeTbs_cons, ih]
    rcases freeTbOf_cases x t with h | ⟨_, _, _, _, h⟩
    · rw [h]
    · rw [h]; rfl

/-- The tile buffers that a walk frees at its end: its scratch, or the buffer that it has not read to the last row. -/
def ownedTbs (w : Walk) : List Nat := if w.scratch ≠ [] then w.scratch else if w.desc.rows < 128 then w.tb.toList else []

/-- The core on which a walk has ended. -/
def endWalk (x : Core) (w : Walk) : Core :=
  let y := freeTbs (modVce x fun v => { v with walks := delFirst (fun q => q.desc.id = w.desc.id) v.walks }) (ownedTbs w)
  if tapOf w.desc.bytes then redClose y else y

/-- The first walk that has issued its last beat ends. -/
theorem exec_vwalkEnd_of_find {c : Nat} {w : Walk} {s : State} (hc : c < 208) (hlive : engineLive s c = true)
    (hw : ((core s c).vce.walks.find? fun w => beatCount w.desc ≤ w.beat) = some w) : exec (.vwalkEnd c) s =
      .next (walkDone (beginDrain (setCore s c (endWalk (core s c) w)) c) c w.desc (outRanges w.desc)) := by
  rw [show exec (.vwalkEnd c) s = execVwalkEnd c s from rfl]
  simp only [execVwalkEnd, coreOk, hc, decide_true, onUnit_true, hw, hlive, when_true]
  rfl

/-- A walk that has ended is gone, and the buffers that it owned are freed. -/
theorem endWalk_spec (x : Core) (w : Walk) : (endWalk x w).vce.walks = delFirst (fun q => q.desc.id = w.desc.id) x.vce.walks ∧
    ∀ i ∈ ownedTbs w, tbFreed (endWalk x w) i := by
  have htap : ∀ (p : Bool) (y : Core), (if p then redClose y else y).vce = y.vce ∧ (if p then redClose y else y).mxe = y.mxe :=
    fun p y => by cases p <;> exact ⟨rfl, rfl⟩
  obtain ⟨hvce, hmxe⟩ := htap (tapOf w.desc.bytes)
    (freeTbs (modVce x fun v => { v with walks := delFirst (fun q => q.desc.id = w.desc.id) v.walks }) (ownedTbs w))
  refine ⟨?_, fun i hi => ?_⟩
  · rw [endWalk, hvce, freeTbs_walks]
    rfl
  · rw [endWalk, tbFreed, hvce, hmxe]
    exact tbFreed_freeTbs _ hi

/-- Settles O30: a walk that starts by `startWalk`, its beats by what they wait for, its end by the buffers that are freed. -/
theorem vceWalks : Obligations.VceWalks := by
  unfold Obligations.VceWalks
  intro c s hc hlive
  refine ⟨fun d hd hskip hkind => ?_, fun w hw hbeat => ?_, fun w hw => ?_⟩
  · have hexec := exec_vwalkStart_of_readyHead hc hlive hd hskip hkind
    have hfits := walkFits_eq_true_iff (core s c) d
    refine ⟨fun hfit hskips => ?_, fun hfit hepi hhead => ?_, fun hfit => ?_⟩
    · rw [if_pos (hfits.2 hfit), if_neg fun h => hskips h.1 h.2] at hexec
      obtain ⟨-, -, -, hepi, -⟩ := hfit
      have hvce := takeWalk_keep_vce (core s c) d.bytes false
      refine ⟨_, newWalk (core s c) d, hexec, fun a => devByte_congr (by simp) (by simp) (by simp) a, ?_, rfl, rfl, rfl, rfl,
        fun i hi => ?_, fun huse => ⟨?_, ?_⟩⟩
      · simp [startWalk, modVce, setTbs, hvce]
      · simp [startWalk, modVce, setTbs, tget_foldl_tset_const, hi]
      · obtain ⟨e, l, hl⟩ := List.exists_cons_of_ne_nil (hepi huse)
        rw [newWalk, if_pos (show takesEpi (core s c) d.bytes = true from huse)]
        simp [hl]
      · have hown : takesEpi (core s c) d.bytes = true := huse
        simp [startWalk, modVce, setTbs, hvce, hown]
    · rw [hexec, if_pos (hfits.2 hfit), if_pos ⟨hepi, hhead⟩, takeWalk, if_pos (show takesEpi (core s c) d.bytes = true from hepi)]
    · rw [hexec, if_neg fun h => hfit (hfits.1 h)]
  · have hexec := exec_vceBeatIssue_of_find hc hlive hw hbeat
    refine ⟨fun hins hdata hrow hout => ?_, fun hwait => ?_⟩
    · simp [hexec, beatWaits_eq_zero hins hdata hrow hout]
    · simp [hexec, hwait]
  · obtain ⟨hwalks, hfreed⟩ := endWalk_spec (core s c) w
    refine ⟨_, exec_vwalkEnd_of_find hc hlive hw, ?_⟩
    rw [core_setCore, if_pos rfl]
    exact ⟨hwalks, hfreed⟩

-- Configurations (R89, R94, R152 to R155, R261, R262)

/-- The core whose VCE has taken a stage program off its queue and put its reel as given. -/
def putReel (x : Core) (reel : Nat) (g : GenReel) : Core := modVce (popHead x 1) fun v => { v with reels := tput reel g v.reels }

/-- A reel of the VCE that is put is as it was given. -/
@[simp] theorem vceReel_putReel (x : Core) (reel : Nat) (g : GenReel) : vceReel (putReel x reel g) reel = g := by
  simp [vceReel, putReel, modVce, tget_tput]

/-- Everything a stage program at the head of the queue can do. -/
theorem exec_vprogApply_of_readyHead {c : Nat} {d : QDesc} {s : State} (hc : c < 208) (hlive : engineLive s c = true)
    (hd : readyHead (core s c) 1 = some d) (hkind : dKind d.bytes = 1) :
    exec (.vprogApply c) s =
      let r := vceReel (core s c) (dReel d.bytes)
      if r.conf = none then .next (arriveRef (setCore s c (putReel (core s c) (dReel d.bytes) { r with conf := some d.bytes })) c d.id d.bytes
        (dDone d.bytes))
      else when_ r.shadow.isNone s (setCore s c (putReel (core s c) (dReel d.bytes) { r with shadow := some d })) := by
  rw [show exec (.vprogApply c) s = execVprogApply c s from rfl]
  simp [execVprogApply, coreOk, hc, hd, hlive, hkind, putReel]

/-- A CLOAD or a CSTORE whose writes lie in `rs` leaves the queue and arrives on DONE. -/
def cacheDone (s : State) (c : Nat) (d : QDesc) (rs : List (Nat × Nat)) : State :=
  arriveOut (modCore s c fun x => popHead x 1) c d.id d.bytes (dDone d.bytes) rs

/-- A CLOAD: the words of its stream are in the stage's cache, and the program it read completes. -/
def cacheLoad (s : State) (c : Nat) (d : QDesc) : State :=
  let t := strm d.bytes 24
  let n := fld d.bytes 20 4
  let words := (List.range n).map fun i => strmElem s c n t (coarse s c t.fmt t.scale) 0 i i
  let put := fun (cs : Tab W32) (e : W32 × Nat) => cachePut cs (bits (fld d.bytes 16 1) 2 0) (fld d.bytes 18 2 + e.2) e.1
  finishProgs (cacheDone (modCore s c fun x => modVce x fun v => { v with caches := words.zipIdx.foldl put v.caches }) c d []) c [t] true
    fun _ => n

/-- A CSTORE: the words of the stage's cache are written to its stream, whose program is closed. -/
def cacheStore (s : State) (c : Nat) (d : QDesc) : State :=
  let t := strm d.bytes 24
  let n := fld d.bytes 20 4
  let raws := (List.range n).map fun i => encodeElem 0 true false (coarse s c t.fmt t.scale) 127
    (cacheGet (core s c).vce.caches (bits (fld d.bytes 16 1) 2 0) (fld d.bytes 18 2 + i))
  feedProg (cacheDone (writeElems c t 0 0 0 raws s) c d (if t.agp then [] else [(t.addr, 4 * n)])) c t true n

/-- Everything a move between a stage cache and an MU can do once no walk runs and its program does. -/
theorem exec_vcache_of_readyHead {c : Nat} {d : QDesc} {s : State} (hc : c < 208) (hlive : engineLive s c = true)
    (hd : readyHead (core s c) 1 = some d) (hkind : dKind d.bytes = 2) (hwalks : (core s c).vce.walks = [])
    (hready : progsReady (core s c) [strm d.bytes 24] = true) :
    exec (.vcache c) s = .next (
      if fld d.bytes 17 1 = 0 then
        if dataReady (core s c) (strm d.bytes 24) (List.range (fld d.bytes 20 4)) = true then cacheLoad s c d else agPostAll s c
      else cacheStore s c d) := by
  rw [show exec (.vcache c) s = execVcache c s from rfl, execVcache, show coreOk c = true from decide_eq_true hc, onUnit_true, hd]
  dsimp only
  rw [if_neg (by simp [hlive, hkind, hwalks, hready])]
  by_cases hload : fld d.bytes 17 1 = 0
  · by_cases hdata : dataReady (core s c) (strm d.bytes 24) (List.range (fld d.bytes 20 4)) = true
    · simp only [hload, hdata, decide_true, not_true, and_false, if_true, if_false]; rfl
    · simp [hload, hdata]
  · simp only [hload, decide_false, Bool.false_eq_true, false_and, if_false]; rfl

/-- A reel of the VCE with a configuration in its shadow slot: everything the switch can do. -/
theorem exec_reelGenSwitch_vce {c reel : Nat} {d : QDesc} {s : State} (hc : c < 208) (hreel : reel < 8) (hlive : engineLive s c = true)
    (hd : (vceReel (core s c) reel).shadow = some d) :
    exec (.reelGenSwitch c 0 reel) s =
      let r := vceReel (core s c) reel
      when_ (r.drained && (core s c).vce.walks.all fun w => decide (dReel w.desc.bytes ≠ reel)) s
        (arriveRef (setCore s c (modVce (core s c) fun v => { v with reels := tput reel (r.switch d) v.reels })) c d.id d.bytes
          (dDone d.bytes)) := by
  rw [show exec (.reelGenSwitch c 0 reel) s = execReelGenSwitch c 0 reel s from rfl]
  simp [execReelGenSwitch, coreOk, reelOk, hc, hreel, hlive, hd]

/-- A reel of an address generator with a program in its shadow slot: everything the switch can do. -/
theorem exec_reelGenSwitch_ag {c unit reel : Nat} {d : QDesc} {s : State} (hc : c < 208) (h1 : 1 ≤ unit) (h9 : unit < 9) (hreel : reel < 8)
    (hlive : engineLive s c = true)
    (hd : (tget {} (core s c).agReels (agReelKey ((unit - 1) / 2) ((unit - 1) % 2) reel)).shadow = some d) :
    exec (.reelGenSwitch c unit reel) s =
      let mu := (unit - 1) / 2
      let ag := (unit - 1) % 2
      let r : GenReel := tget {} (core s c).agReels (agReelKey mu ag reel)
      when_ (r.drained && agReelDone (core s c) mu ag reel && threadsFree (core s c) mu d.bytes) s
        (agStart (setCore s c { core s c with agReels := tput (agReelKey mu ag reel) (r.switch d) (core s c).agReels }) c mu d) := by
  have h0 : unit ≠ 0 := by omega
  rw [show exec (.reelGenSwitch c unit reel) s = execReelGenSwitch c unit reel s from rfl]
  simp [execReelGenSwitch, coreOk, reelOk, hc, h9, hreel, hlive, h0, hd]

/-- Where its engines run, a core's clocks run and it is not fenced. -/
theorem fast_of_engineLive {s : State} {c : Nat} (h : engineLive s c = true) : fast s = true ∧ (core s c).fenced = false := by
  simp only [engineLive, Bool.and_eq_true, Bool.not_eq_true'] at h
  obtain ⟨⟨⟨⟨hfast, hfence⟩, -⟩, -⟩, -⟩ := h
  exact ⟨hfast, hfence⟩

/-- The issue of the CSQ passes to the next reel with input. -/
theorem exec_reelSwitch_csq {c : Nat} {s : State} (hc : c < 208) (hlive : engineLive s c = true) (hshare : (core s c).share = .running)
    (htrap : (core s c).trapped = false) : exec (.reelSwitch c 0) s = .next (switchReel s c) := by
  obtain ⟨hfast, hfence⟩ := fast_of_engineLive hlive
  rw [show exec (.reelSwitch c 0) s = execReelSwitch c 0 s from rfl]
  simp [execReelSwitch, coreOk, hc, hfast, hfence, hshare, htrap]

/-- The issue of the VCE or of an address generator passes to the next reel with input. -/
theorem exec_reelSwitch_of_find {c unit r : Nat} {s : State} (hc : c < 208) (h1 : 1 ≤ unit) (h10 : unit < 10)
    (hlive : engineLive s c = true) (hshare : (core s c).share = .running)
    (hr : ((List.range 7).map fun i => (tget 0 (core s c).unitReel unit + 1 + i) % 8).find? (unitInput s c unit) = some r) :
    exec (.reelSwitch c unit) s =
      let t := setCore s c { core s c with unitReel := tset 0 (core s c).unitReel unit r }
      .next (if unit = 1 then t else agPostAll (bump t (muBase c ((unit - 2) / 2) + 0x48) 1) c) := by
  obtain ⟨hfast, hfence⟩ := fast_of_engineLive hlive
  have h0 : unit ≠ 0 := by omega
  rw [show exec (.reelSwitch c unit) s = execReelSwitch c unit s from rfl]
  simp only [execReelSwitch, coreOk, hc, h10, decide_true, Bool.and_self, onUnit_true, hfast, hfence, hshare, h0, hr, not_true,
    Bool.false_eq_true, ne_eq, or_self, if_false]

/-- Settles O31: each command by the lemma of what it can do. -/
theorem reelConfigurations : Obligations.ReelConfigurations := by
  unfold Obligations.ReelConfigurations
  refine ⟨fun c d s hc hlive hd => ⟨fun hkind hconf => ?_, fun hkind hconf hshadow => ?_, fun hkind hconf hshadow => ?_,
      fun hkind hwalks hready => ?_⟩,
    fun c s hc hlive => ⟨fun reel d hreel hd => ⟨fun hdrained hwalks => ?_, fun hdrained => ?_⟩,
      fun unit reel d h1 h9 hreel hd => ⟨fun hdrained hdone hfree => ?_, fun hdrained => ?_⟩,
      fun hshare htrap => exec_reelSwitch_csq hc hlive hshare htrap,
      fun r hshare hr => exec_reelSwitch_of_find hc le_rfl (by omega) hlive hshare hr, fun mu ag r hmu hag hshare hr => ?_⟩⟩
  · have hexec := exec_vprogApply_of_readyHead hc hlive hd hkind
    dsimp only at hexec
    rw [if_pos hconf] at hexec
    exact ⟨_, hexec, by simp⟩
  · have hexec := exec_vprogApply_of_readyHead hc hlive hd hkind
    dsimp only at hexec
    rw [if_neg hconf, hshadow] at hexec
    exact ⟨_, hexec, fun a => devByte_congr (by simp) (by simp) (by simp) a, by simp⟩
  · simp [exec_vprogApply_of_readyHead hc hlive hd hkind, if_neg hconf, Option.isNone_eq_false_iff.2 (Option.isSome_iff_ne_none.2 hshadow)]
  · have hexec := exec_vcache_of_readyHead hc hlive hd hkind hwalks hready
    refine ⟨fun hload hdata => ?_, fun hload hdata => ?_, fun hstore => ?_⟩
    · rw [hexec, if_pos hload, if_pos hdata]; rfl
    · rw [hexec, if_pos hload, if_neg (by simp [hdata])]
    · rw [hexec, if_neg hstore]; rfl
  · have hall : ((core s c).vce.walks.all fun w => decide (dReel w.desc.bytes ≠ reel)) = true := by simpa using hwalks
    have hexec := exec_reelGenSwitch_vce hc hreel hlive hd
    dsimp only at hexec
    rw [hdrained, hall, Bool.and_self, when_true] at hexec
    exact ⟨_, hexec, by simp [vceReel, modVce, tget_tput, GenReel.switch]⟩
  · simp [exec_reelGenSwitch_vce hc hreel hlive hd, hdrained]
  · rw [exec_reelGenSwitch_ag hc h1 h9 hreel hlive hd]
    dsimp only at hdrained hdone hfree ⊢
    rw [hdrained, hdone, hfree, Bool.and_self, Bool.and_self, when_true]
    rfl
  · rw [exec_reelGenSwitch_ag hc h1 h9 hreel hlive hd]
    dsimp only at hdrained ⊢
    rw [hdrained, Bool.false_and, Bool.false_and, when_false]
  · have hmu : (2 + 2 * mu + ag - 2) / 2 = mu := by omega
    rw [exec_reelSwitch_of_find hc (by omega) (by omega) hlive hshare hr]
    dsimp only
    rw [if_neg (by omega), hmu]

-- Reductions (R110 to R117, R244, R264)

/-- The core on which the reduction at the head of the queue runs as given. -/
def startRed (x : Core) (d : QDesc) (r : RedRun) : Core :=
  let y := popHead x 2
  { y with red := { y.red with run := some r, kind := rKind d.bytes } }

/-- A reduction that taps no walk, with its input in. -/
def redOwn (s : State) (c : Nat) (d : QDesc) : RedRun :=
  { desc := d, walk := some d.bytes, beats := if rMerge d.bytes then [] else (redStream s c d).1, closed := true }

/-- Everything a reduction at the head of the queue can do where none runs and its program does. -/
theorem exec_redReduce_of_readyHead {c : Nat} {d : QDesc} {s : State} (hc : c < 208) (hlive : engineLive s c = true)
    (hd : readyHead (core s c) 2 = some d) (hskip : d.skip = false) (hrun : (core s c).red.run = none)
    (hready : progsReady (core s c) [strm d.bytes 52] = true) :
    exec (.redReduce c) s = .next (
      if tapOf d.bytes then modCore s c fun x => startRed x d { desc := d, walk := none, beats := [], closed := false }
      else if redInput s c d then
        modCore (bump (bump s (redBase c + 0x10) (redCounts s c d).1) (redBase c + 0x18) (redCounts s c d).2) c fun x =>
          startRed x d (redOwn s c d)
      else agPostAll s c) := by
  rw [show exec (.redReduce c) s = execRedReduce c s from rfl, execRedReduce, show coreOk c = true from decide_eq_true hc, onUnit_true, hd]
  dsimp only
  rw [if_neg (by simp [hlive, hskip, hrun, hready])]
  cases tapOf d.bytes
  · cases redInput s c d
    · rfl
    · rfl
  · rfl

/-- A running reduction with every input in writes its records and completes. -/
theorem exec_redResult_of_closed {c : Nat} {r : RedRun} {w : List Byte} {s : State} (hc : c < 208) (hlive : engineLive s c = true)
    (hr : (core s c).red.run = some r) (hclosed : r.closed = true) (hw : r.walk = some w) :
    exec (.redResult c) s =
      let l := if rMerge r.desc.bytes ∧ ¬ tapOf r.desc.bytes then mergeResults s c r.desc else results r.desc.bytes w r.beats
      let u := sramWrites s c (bits (fld r.desc.bytes 72 4) 23 0) l
      let u := modCore u c fun x => { x with red := { x.red with run := none } }
      .next (arriveOut (finishProgs u c [strm r.desc.bytes 52] true fun _ => 0) c r.desc.id r.desc.bytes
        (dDone r.desc.bytes) [(bits (fld r.desc.bytes 72 4) 23 0, l.length)]) := by
  rw [show exec (.redResult c) s = execRedResult c s from rfl]
  simp [execRedResult, coreOk, hc, hlive, hr, hclosed, hw]

/-- Settles O33: a reduction starts by `startRed`, its two event counters are registers of their own, and its result is what the command
does. -/
theorem reductions : Obligations.Reductions := by
  unfold Obligations.Reductions
  refine fun c s hc hlive => ⟨fun d hd hskip hrun hready => ?_, fun r w hr hclosed hw => exec_redResult_of_closed hc hlive hr hclosed hw⟩
  have hexec := exec_redReduce_of_readyHead hc hlive hd hskip hrun hready
  refine ⟨fun htap => ?_, fun htap hin => ?_, fun htap hin => ?_⟩
  · rw [htap, if_pos rfl] at hexec
    exact ⟨_, hexec, fun a => devByte_congr (by simp) (by simp) (by simp) a, by simp [startRed]⟩
  · rw [htap, hin, if_neg Bool.false_ne_true, if_pos rfl] at hexec
    exact ⟨_, hexec, fun a => devByte_congr (by simp) (by simp) (by simp) a, by simp [startRed, redOwn], by simp, by simp⟩
  · rw [hexec, htap, hin]
    rfl

end Sys2Proof.Machine

/-! PROOFS. The limits of the cores' stacks, barrier counters and issue queues (R131, R132, R215, R216, R221), which every command keeps. -/
namespace Sys2Proof.Machine

open Sys2Proof

-- The limits, table by table

/-- Every entry of a table has a property. -/
def tabIn {α : Type} (P : Nat → α → Prop) (t : Tab α) : Prop := ∀ e ∈ t, P e.1 e.2

/-- The stacks of a reel are within their depths (R215, R216). -/
def reelIn (r : Reel) : Prop := r.loops.length ≤ 4 ∧ r.rets.length ≤ 8

/-- A barrier counter is within its limits (R131, R132). -/
def barIn (b : Bar) : Prop := b.count ≤ 65535 ∧ b.waiters.length ≤ 32

/-- The reels of a core are within their limits. -/
def reelsIn (t : Tab Reel) : Prop := tabIn (fun _ => reelIn) t

/-- The barrier counters of a core are within their limits. -/
def barsIn (t : Tab Bar) : Prop := tabIn (fun _ => barIn) t

/-- The issue queues of a core are within their depths. -/
def queuesIn (t : Tab (List QDesc)) : Prop := tabIn (fun k l => l.length ≤ keyDepth k) t

/-- The cores of the block are within their limits. -/
def coresIn (t : Tab Core) : Prop := tabIn (fun _ => coreLimits) t

theorem tabIn_nil {α : Type} (P : Nat → α → Prop) : tabIn P [] := fun _ h => nomatch h

theorem tabIn_tget {α : Type} {P : Nat → α → Prop} {d : α} {t : Tab α} (h : tabIn P t) (hd : ∀ k, P k d) (k : Nat) : P k (tget d t k) := by
  induction t with
  | nil => exact hd k
  | cons e t ih =>
    rw [tget]
    split
    · next hk => exact hk ▸ h e List.mem_cons_self
    · exact ih fun e he => h e (List.mem_cons_of_mem _ he)

theorem tabIn_tset {α : Type} [DecidableEq α] {P : Nat → α → Prop} {d v : α} {t : Tab α} {k : Nat} (h : tabIn P t) (hv : P k v) :
    tabIn P (tset d t k v) := by
  unfold tset
  split
  · exact fun e he => h e (List.mem_of_mem_filter he)
  · intro e he
    obtain rfl | he := mem_tput he
    · exact hv
    · exact h e he

theorem tabIn_map {α : Type} {P : Nat → α → Prop} {f : α → α} {t : Tab α} (h : tabIn P t) (hf : ∀ k v, P k v → P k (f v)) :
    tabIn P (t.map fun e => (e.1, f e.2)) := by
  intro e' he'
  obtain ⟨e, he, rfl⟩ := List.mem_map.1 he'
  exact hf _ _ (h e he)

theorem barsIn_map {t : Tab Bar} {f : Bar → Bar} (h : barsIn t) (hf : ∀ b, barIn b → barIn (f b)) : barsIn (t.map fun e => (e.1, f e.2)) :=
  tabIn_map (P := fun _ => barIn) h fun _ => hf

theorem queuesIn_map {t : Tab (List QDesc)} (h : queuesIn t) (f : QDesc → QDesc) : queuesIn (t.map fun e => (e.1, e.2.map f)) :=
  tabIn_map (P := fun k (l : List QDesc) => l.length ≤ keyDepth k) h fun _ _ hl => by simpa using hl

/-- The limits of a core, table by table. -/
@[simp] theorem coreLimits_iff (x : Core) : coreLimits x ↔ reelsIn x.reels ∧ barsIn x.bars ∧ queuesIn x.queues := Iff.rfl

theorem coreLimits_of {x : Core} (hr : reelsIn x.reels) (hb : barsIn x.bars) (hq : queuesIn x.queues) : coreLimits x := ⟨hr, hb, hq⟩

/-- A core with reels, barrier counters and queues as they were. -/
theorem coreLimits_of_fields {x y : Core} (h : coreLimits x) (hr : y.reels = x.reels) (hb : y.bars = x.bars) (hq : y.queues = x.queues) :
    coreLimits y := by
  rwa [coreLimits_iff, hr, hb, hq]

/-- The limits of all cores are a matter of the table of the cores alone. -/
theorem coreForm_iff (s : State) : coreForm s ↔ coresIn s.cores := Iff.rfl

@[simp] theorem reelsIn_nil : reelsIn [] := tabIn_nil _

@[simp] theorem barsIn_nil : barsIn [] := tabIn_nil _

@[simp] theorem queuesIn_nil : queuesIn [] := tabIn_nil _

@[simp] theorem coresIn_nil : coresIn [] := tabIn_nil _

@[simp] theorem reelsIn_single (k : Nat) (r : Reel) : reelsIn [(k, r)] ↔ reelIn r := by simp [reelsIn, tabIn]

@[simp] theorem reelIn_mk (st : Bool) (hold : Hold) (regs : Tab W64) (preds : BitVec 8) (pc : Nat) (loops : List LoopEnt)
    (rets : List Nat) :
    reelIn ⟨st, hold, regs, preds, pc, loops, rets⟩ ↔ loops.length ≤ 4 ∧ rets.length ≤ 8 := Iff.rfl

@[simp] theorem barIn_mk (n : Nat) (l : List Waiter) (rest : Nat) : barIn ⟨n, l, rest⟩ ↔ n ≤ 65535 ∧ l.length ≤ 32 := Iff.rfl

-- What is within its limits is read so

/-- A core is within its limits, listed or not. -/
theorem coreLimits_core {s : State} (h : coresIn s.cores) (c : Nat) : coreLimits (core s c) :=
  tabIn_tget (P := fun _ => coreLimits) h (fun _ => by simp) c

@[simp] theorem reelsIn_core {s : State} (h : coresIn s.cores) (c : Nat) : reelsIn (core s c).reels := (coreLimits_core h c).1

@[simp] theorem barsIn_core {s : State} (h : coresIn s.cores) (c : Nat) : barsIn (core s c).bars := (coreLimits_core h c).2.1

@[simp] theorem queuesIn_core {s : State} (h : coresIn s.cores) (c : Nat) : queuesIn (core s c).queues := (coreLimits_core h c).2.2

@[simp] theorem reelIn_reelOf {x : Core} (h : reelsIn x.reels) (r : Nat) : reelIn (reelOf x r) :=
  tabIn_tget (P := fun _ => reelIn) h (fun _ => by simp) r

@[simp] theorem barIn_barOf {x : Core} (h : barsIn x.bars) (m k : Nat) : barIn (barOf x m k) :=
  tabIn_tget (P := fun _ => barIn) h (fun _ => by simp) _

@[simp] theorem count_barOf_le {x : Core} (h : barsIn x.bars) (m k : Nat) : (barOf x m k).count ≤ 65535 := (barIn_barOf h m k).1

@[simp] theorem waiters_barOf_le {x : Core} (h : barsIn x.bars) (m k : Nat) : (barOf x m k).waiters.length ≤ 32 := (barIn_barOf h m k).2

theorem length_queueOf_le {x : Core} (h : queuesIn x.queues) (k : Nat) : (queueOf x k).length ≤ keyDepth k :=
  tabIn_tget (P := fun k (l : List QDesc) => l.length ≤ keyDepth k) h (fun _ => by simp) k

/-- A counter from which something is taken away. -/
theorem barIn_sub {b : Bar} (h : barIn b) (n : Nat) : barIn { b with count := b.count - n } := ⟨(Nat.sub_le _ _).trans h.1, h.2⟩

-- What is put back within its limits leaves all within theirs

@[simp] theorem reelsIn_withReel {x : Core} {y : Reel} (h : reelsIn x.reels) (hy : reelIn y) (r : Nat) : reelsIn (withReel x r y).reels :=
  tabIn_tset h hy

@[simp] theorem barsIn_withBar {x : Core} {b : Bar} (h : barsIn x.bars) (hb : barIn b) (m k : Nat) : barsIn (withBar x m k b).bars :=
  tabIn_tset h hb

@[simp] theorem queuesIn_withQueue {x : Core} {l : List QDesc} {k : Nat} (h : queuesIn x.queues) (hl : l.length ≤ keyDepth k) :
    queuesIn (withQueue x k l).queues :=
  tabIn_tset (P := fun k (l : List QDesc) => l.length ≤ keyDepth k) h hl

theorem coreLimits_withReel {x : Core} {y : Reel} (h : coreLimits x) (hy : reelIn y) (r : Nat) : coreLimits (withReel x r y) :=
  ⟨reelsIn_withReel h.1 hy r, h.2.1, h.2.2⟩

theorem coreLimits_withBar {x : Core} {b : Bar} (h : coreLimits x) (hb : barIn b) (m k : Nat) : coreLimits (withBar x m k b) :=
  ⟨h.1, barsIn_withBar h.2.1 hb m k, h.2.2⟩

theorem coreLimits_withQueue {x : Core} {l : List QDesc} {k : Nat} (h : coreLimits x) (hl : l.length ≤ keyDepth k) :
    coreLimits (withQueue x k l) :=
  ⟨h.1, h.2.1, queuesIn_withQueue h.2.2 hl⟩

@[simp] theorem coresIn_setCore {s : State} {x : Core} (h : coresIn s.cores) (hx : coreLimits x) (c : Nat) :
    coresIn (setCore s c x).cores :=
  tabIn_tset (P := fun _ => coreLimits) h hx

@[simp] theorem coresIn_modCore {s : State} {f : Core → Core} {c : Nat} (h : coresIn s.cores) (hf : coreLimits (f (core s c))) :
    coresIn (modCore s c f).cores :=
  coresIn_setCore h hf c

/-- A core put back with its reels, barrier counters and queues as they were. -/
@[simp] theorem coresIn_setCore_fields {s : State} {x : Core} {c : Nat} (h : coresIn s.cores) (hr : x.reels = (core s c).reels)
    (hb : x.bars = (core s c).bars) (hq : x.queues = (core s c).queues) : coresIn (setCore s c x).cores :=
  coresIn_setCore h (coreLimits_of_fields (coreLimits_core h c) hr hb hq) c

@[simp] theorem coresIn_modCore_fields {s : State} {f : Core → Core} {c : Nat} (h : coresIn s.cores) (hr : ∀ x, (f x).reels = x.reels)
    (hb : ∀ x, (f x).bars = x.bars) (hq : ∀ x, (f x).queues = x.queues) : coresIn (modCore s c f).cores :=
  coresIn_setCore_fields h (hr _) (hb _) (hq _)

/-- A choice between two states. -/
@[simp] theorem ite_cores (p : Prop) [Decidable p] (s t : State) :
    (if p then s else t).cores = if p then s.cores else t.cores := apply_ite ..

@[simp] theorem coresIn_ite {p : Prop} [Decidable p] {t u : Tab Core} :
    coresIn (if p then t else u) ↔ (p → coresIn t) ∧ (¬ p → coresIn u) := by
  split <;> simp [*]

/-- A reel with its stacks as they were. -/
theorem reelIn_of_stacks {r y : Reel} (hl : y.loops = r.loops) (hr : y.rets = r.rets) (h : reelIn r) : reelIn y := by
  rwa [reelIn, hl, hr]

@[simp] theorem reelIn_set {r : Reel} (h : reelIn r) (n : Nat) (v : W64) : reelIn (r.set n v) := by
  unfold Reel.set
  split <;> exact h

@[simp] theorem reelIn_setPred {r : Reel} (h : reelIn r) (n : Nat) (v : Bool) : reelIn (r.setPred n v) := by
  unfold Reel.setPred
  split <;> exact h

/-- The end of an instruction goes on with the innermost loop or pops it (R216). -/
@[simp] theorem reelIn_next {r : Reel} (h : reelIn r) (n : Nat) : reelIn (r.next n) := by
  have hset : ∀ k v, (r.set k v).rets = r.rets := fun k v => by unfold Reel.set; split <;> rfl
  obtain ⟨hl, hr⟩ := h
  unfold Reel.next
  split
  · next l t heq =>
    rw [heq, List.length_cons] at hl
    split
    · split
      · exact ⟨hl, by rw [hset]; exact hr⟩
      · exact ⟨(Nat.le_succ _).trans hl, hr⟩
    · exact ⟨by rw [heq]; exact hl, hr⟩
  · exact ⟨hl, hr⟩

@[simp] theorem reelIn_runningReel {s : State} (h : coresIn s.cores) (c : Nat) :
    reelIn (runningReel s c) := reelIn_reelOf (reelsIn_core h c) _

@[simp] theorem coresIn_modRunning {s : State} {f : Reel → Reel} {c : Nat} (h : coresIn s.cores) (hf : reelIn (f (runningReel s c))) :
    coresIn (modRunning s c f).cores :=
  coresIn_modCore h (coreLimits_withReel (coreLimits_core h c) hf _)

@[simp] theorem coresIn_modRunning_next {s : State} (h : coresIn s.cores) (c n : Nat) : coresIn (modRunning s c (·.next n)).cores :=
  coresIn_modRunning h (reelIn_next (reelIn_runningReel h c) n)

@[simp] theorem coresIn_modRunning_set_next {s : State} (h : coresIn s.cores) (c n rd : Nat) (v : W64) :
    coresIn (modRunning s c fun r => (r.set rd v).next n).cores :=
  coresIn_modRunning h (reelIn_next (reelIn_set (reelIn_runningReel h c) rd v) n)

-- What the operations on a core leave of what is limited

@[simp] theorem modReq_reels (x : Core) (id : Nat) (f : CtrReq → CtrReq) : (modReq x id f).reels = x.reels := (rfl)

@[simp] theorem modReq_bars (x : Core) (id : Nat) (f : CtrReq → CtrReq) : (modReq x id f).bars = x.bars := (rfl)

@[simp] theorem modReq_queues (x : Core) (id : Nat) (f : CtrReq → CtrReq) : (modReq x id f).queues = x.queues := (rfl)

@[simp] theorem dropReq_reels (x : Core) (id : Nat) : (dropReq x id).reels = x.reels := (rfl)

@[simp] theorem dropReq_bars (x : Core) (id : Nat) : (dropReq x id).bars = x.bars := (rfl)

@[simp] theorem dropReq_queues (x : Core) (id : Nat) : (dropReq x id).queues = x.queues := (rfl)

@[simp] theorem modMxe_reels (x : Core) (f : Mxe → Mxe) : (modMxe x f).reels = x.reels := (rfl)

@[simp] theorem modMxe_bars (x : Core) (f : Mxe → Mxe) : (modMxe x f).bars = x.bars := (rfl)

@[simp] theorem modMxe_queues (x : Core) (f : Mxe → Mxe) : (modMxe x f).queues = x.queues := (rfl)

@[simp] theorem modVce_reels (x : Core) (f : Vce → Vce) : (modVce x f).reels = x.reels := (rfl)

@[simp] theorem modVce_bars (x : Core) (f : Vce → Vce) : (modVce x f).bars = x.bars := (rfl)

@[simp] theorem modVce_queues (x : Core) (f : Vce → Vce) : (modVce x f).queues = x.queues := (rfl)

@[simp] theorem modAg_reels (x : Core) (id : Nat) (f : AgRun → AgRun) : (modAg x id f).reels = x.reels := (rfl)

@[simp] theorem modAg_bars (x : Core) (id : Nat) (f : AgRun → AgRun) : (modAg x id f).bars = x.bars := (rfl)

@[simp] theorem modAg_queues (x : Core) (id : Nat) (f : AgRun → AgRun) : (modAg x id f).queues = x.queues := (rfl)

@[simp] theorem modXfr_reels (x : Core) (id : Nat) (f : XfrRun → XfrRun) : (modXfr x id f).reels = x.reels := (rfl)

@[simp] theorem modXfr_bars (x : Core) (id : Nat) (f : XfrRun → XfrRun) : (modXfr x id f).bars = x.bars := (rfl)

@[simp] theorem modXfr_queues (x : Core) (id : Nat) (f : XfrRun → XfrRun) : (modXfr x id f).queues = x.queues := (rfl)

@[simp] theorem putReq_reels (x : Core) (ctl : Option Nat) (xfr write : Bool) (id row off len : Nat) :
    (putReq x ctl xfr write id row off len).reels = x.reels := (rfl)

@[simp] theorem putReq_bars (x : Core) (ctl : Option Nat) (xfr write : Bool) (id row off len : Nat) :
    (putReq x ctl xfr write id row off len).bars = x.bars := (rfl)

@[simp] theorem putReq_queues (x : Core) (ctl : Option Nat) (xfr write : Bool) (id row off len : Nat) :
    (putReq x ctl xfr write id row off len).queues = x.queues := (rfl)

@[simp] theorem watchPiece_reels (x : Core) (id a len : Nat) : (watchPiece x id a len).reels = x.reels := (rfl)

@[simp] theorem watchPiece_bars (x : Core) (id a len : Nat) : (watchPiece x id a len).bars = x.bars := (rfl)

@[simp] theorem watchPiece_queues (x : Core) (id a len : Nat) : (watchPiece x id a len).queues = x.queues := (rfl)

@[simp] theorem redClose_reels (x : Core) : (redClose x).reels = x.reels := (rfl)

@[simp] theorem redClose_bars (x : Core) : (redClose x).bars = x.bars := (rfl)

@[simp] theorem redClose_queues (x : Core) : (redClose x).queues = x.queues := (rfl)

@[simp] theorem redPair_reels (x : Core) (walk : List Byte) (closed : Bool) : (redPair x walk closed).reels = x.reels := (rfl)

@[simp] theorem redPair_bars (x : Core) (walk : List Byte) (closed : Bool) : (redPair x walk closed).bars = x.bars := (rfl)

@[simp] theorem redPair_queues (x : Core) (walk : List Byte) (closed : Bool) : (redPair x walk closed).queues = x.queues := (rfl)

@[simp] theorem withStu_reels (x : Core) (k : Nat) (u : Stu) : (withStu x k u).reels = x.reels := (rfl)

@[simp] theorem withStu_bars (x : Core) (k : Nat) (u : Stu) : (withStu x k u).bars = x.bars := (rfl)

@[simp] theorem withStu_queues (x : Core) (k : Nat) (u : Stu) : (withStu x k u).queues = x.queues := (rfl)

@[simp] theorem sealMoved_reels (l : Landing) (x : Core) : (sealMoved l x).reels = x.reels := (rfl)

@[simp] theorem sealMoved_bars (l : Landing) (x : Core) : (sealMoved l x).bars = x.bars := (rfl)

@[simp] theorem sealMoved_queues (l : Landing) (x : Core) : (sealMoved l x).queues = x.queues := (rfl)

@[simp] theorem ite_reels (p : Prop) [Decidable p] (x y : Core) :
    (if p then x else y).reels = if p then x.reels else y.reels := apply_ite ..

@[simp] theorem ite_bars (p : Prop) [Decidable p] (x y : Core) : (if p then x else y).bars = if p then x.bars else y.bars := apply_ite ..

@[simp] theorem ite_queues (p : Prop) [Decidable p] (x y : Core) :
    (if p then x else y).queues = if p then x.queues else y.queues := apply_ite ..

@[simp] theorem reelsIn_ite {p : Prop} [Decidable p] {t u : Tab Reel} :
    reelsIn (if p then t else u) ↔ (p → reelsIn t) ∧ (¬ p → reelsIn u) := by
  split <;> simp [*]

@[simp] theorem barsIn_ite {p : Prop} [Decidable p] {t u : Tab Bar} : barsIn (if p then t else u) ↔ (p → barsIn t) ∧ (¬ p → barsIn u) := by
  split <;> simp [*]

@[simp] theorem queuesIn_ite {p : Prop} [Decidable p] {t u : Tab (List QDesc)} :
    queuesIn (if p then t else u) ↔ (p → queuesIn t) ∧ (¬ p → queuesIn u) := by
  split <;> simp [*]

/-- What leaves the limited parts of a core alone, step by step. -/
theorem foldl_fields {α : Type} {f : Core → α → Core} (hr : ∀ x a, (f x a).reels = x.reels) (hb : ∀ x a, (f x a).bars = x.bars)
    (hq : ∀ x a, (f x a).queues = x.queues) (l : List α) (x : Core) :
    (l.foldl f x).reels = x.reels ∧ (l.foldl f x).bars = x.bars ∧ (l.foldl f x).queues = x.queues :=
  List.foldlRecOn l f (motive := fun y => y.reels = x.reels ∧ y.bars = x.bars ∧ y.queues = x.queues) ⟨rfl, rfl, rfl⟩
    fun y hy a _ => ⟨(hr y a).trans hy.1, (hb y a).trans hy.2.1, (hq y a).trans hy.2.2⟩

@[simp] theorem recordExpo_reels (x : Core) (tag : Nat) (vs : List W32) : (recordExpo x tag vs).reels = x.reels := by
  unfold recordExpo
  split <;> rfl

@[simp] theorem recordExpo_bars (x : Core) (tag : Nat) (vs : List W32) : (recordExpo x tag vs).bars = x.bars := by
  unfold recordExpo
  split <;> rfl

@[simp] theorem recordExpo_queues (x : Core) (tag : Nat) (vs : List W32) : (recordExpo x tag vs).queues = x.queues := by
  unfold recordExpo
  split <;> rfl

/-- Buffers that are freed. -/
theorem freeTbs_fields (x : Core) (l : List Nat) :
    (freeTbs x l).reels = x.reels ∧ (freeTbs x l).bars = x.bars ∧ (freeTbs x l).queues = x.queues := by
  refine foldl_fields ?_ ?_ ?_ l x <;>
  · intro x t
    dsimp only
    (repeat' split) <;> rfl

@[simp] theorem freeTbs_reels (x : Core) (l : List Nat) : (freeTbs x l).reels = x.reels := (freeTbs_fields x l).1

@[simp] theorem freeTbs_bars (x : Core) (l : List Nat) : (freeTbs x l).bars = x.bars := (freeTbs_fields x l).2.1

@[simp] theorem freeTbs_queues (x : Core) (l : List Nat) : (freeTbs x l).queues = x.queues := (freeTbs_fields x l).2.2

@[simp] theorem takeEpi_reels (x : Core) (keep : Bool) : (takeEpi x keep).reels = x.reels := by
  unfold takeEpi
  (repeat' split) <;> simp

@[simp] theorem takeEpi_bars (x : Core) (keep : Bool) : (takeEpi x keep).bars = x.bars := by
  unfold takeEpi
  (repeat' split) <;> simp

@[simp] theorem takeEpi_queues (x : Core) (keep : Bool) : (takeEpi x keep).queues = x.queues := by
  unfold takeEpi
  (repeat' split) <;> simp

-- Folds

/-- Steps that leave the cores alone. -/
@[simp] theorem foldl_cores {α : Type} {f : State → α → State} (h : ∀ s a, (f s a).cores = s.cores) (l : List α) (s : State) :
    (l.foldl f s).cores = s.cores :=
  List.foldlRecOn l f (motive := fun t => t.cores = s.cores) rfl fun t ht a _ => (h t a).trans ht

/-- Steps that keep the cores within their limits. -/
theorem coresIn_foldl {α : Type} {f : State → α → State} (hf : ∀ s a, coresIn s.cores → coresIn (f s a).cores) (l : List α) {s : State}
    (h : coresIn s.cores) : coresIn (l.foldl f s).cores :=
  List.foldlRecOn l f h fun t ht a _ => hf t a ht

-- Outcomes

/-- An outcome whose cores are within their limits: what a command has to end in for O3. -/
def EndsWithin (o : Out) : Prop := ∀ t, o = .next t → coresIn t.cores

@[simp] theorem endsWithin_next (t : State) : EndsWithin (.next t) ↔ coresIn t.cores := by simp [EndsWithin]

@[simp] theorem endsWithin_fault (r : Fault) : EndsWithin (.fault r) := fun _ h => nomatch h

@[simp] theorem endsWithin_onUnit {u : Bool} {s : State} {o : Out} :
    EndsWithin (onUnit u s o) ↔ (u = false → coresIn s.cores) ∧ (u = true → EndsWithin o) := by
  cases u <;> simp

@[simp] theorem endsWithin_when {c : Bool} {s t : State} :
    EndsWithin (when_ c s t) ↔ (c = false → coresIn s.cores) ∧ (c = true → coresIn t.cores) := by
  cases c <;> simp

@[simp] theorem endsWithin_event {u c : Bool} {s t : State} :
    EndsWithin (event u c s t) ↔ (u = false ∨ c = false → coresIn s.cores) ∧ (u = true → c = true → coresIn t.cores) := by
  cases u <;> cases c <;> simp [event]

-- Memory, registers and the tables of the state (Machine/Ops)

@[simp] theorem devPut_cores (s : State) (a : Nat) (b : Byte) : (devPut s a b).cores = s.cores := by
  unfold devPut
  split <;> simp

@[simp] theorem devWrites_cores (s : State) (a : Nat) (d : List Byte) : (devWrites s a d).cores = s.cores := by
  induction d generalizing s a with
  | nil => rfl
  | cons b t ih => rw [devWrites, ih, devPut_cores]

@[simp] theorem setRegions_cores (s : State) (rs : List Nat) (v : Nat) : (setRegions s rs v).cores = s.cores := by simp [setRegions]

@[simp] theorem readyCtl_cores (s : State) (k : Nat) : (readyCtl s k).cores = s.cores := by simp [readyCtl]

@[simp] theorem wakeAt_cores (s : State) (a : Nat) : (wakeAt s a).cores = s.cores := by
  unfold wakeAt
  split <;> simp

@[simp] theorem cleanRegion_cores (s : State) (r : Nat) : (cleanRegion s r).cores = s.cores := by simp [cleanRegion]

@[simp] theorem fillRegion_cores (s : State) (a : Nat) : (fillRegion s a).cores = s.cores := by
  unfold fillRegion
  split <;> simp

@[simp] theorem fillFirst_cores (s : State) (a len : Nat) : (fillFirst s a len).cores = s.cores := by simp [fillFirst]

@[simp] theorem coresIn_takeBack {s : State} (h : coresIn s.cores) (g : Nat × Guard) : coresIn (takeBack s g).cores := by
  simp only [takeBack]
  (repeat' split)
  · have hb := barIn_sub (barIn_barOf (barsIn_core h g.2.bar) g.2.mu g.2.ctr) g.2.n
    exact coresIn_modCore h (coreLimits_withBar (coreLimits_core h _) hb _ _)
  all_goals exact h

@[simp] theorem coresIn_notifyStale {s : State} (h : coresIn s.cores) (a len : Nat) : coresIn (notifyStale s a len).cores := by
  unfold notifyStale
  split
  · exact h
  · exact tabIn_map (coresIn_foldl (fun _ g ht => coresIn_takeBack ht g) _ h) fun _ _ hx => hx

@[simp] theorem coresIn_ownWrite {s : State} (h : coresIn s.cores) (a : Nat) (d : List Byte) : coresIn (ownWrite s a d).cores := by
  simp [h, ownWrite]

@[simp] theorem coresIn_writeMem {s : State} (h : coresIn s.cores) (a : Nat) (d : List Byte) : coresIn (writeMem s a d).2.cores := by
  unfold writeMem
  split <;> simp [h]

/-- The state that a write to memory ends in. -/
theorem coresIn_of_writeMem {s t : State} (hs : coresIn s.cores) {a : Nat} {d : List Byte} {r : Access} (h : writeMem s a d = (r, t)) :
    coresIn t.cores := by
  simpa [h] using coresIn_writeMem hs a d

@[simp] theorem takeFree_cores (s : State) : (takeFree s).2.cores = s.cores := by simp [takeFree]

-- Registers (Machine/Csr)

@[simp] theorem coresIn_csrStore {s : State} (h : coresIn s.cores) (a : Nat) (v : W64) : coresIn (csrStore s a v).cores := by
  unfold csrStore
  split <;> simp [h]

@[simp] theorem csrWarm_cores (s : State) : (csrWarm s).cores = s.cores := by simp [csrWarm]

-- Messages, completions, kills and the ends of commands (Machine/Control)

@[simp] theorem alert_cores (s : State) (b : Nat) : (alert s b).cores = s.cores := (rfl)

@[simp] theorem logFault_cores (s : State) (cls die unit rung : Nat) : (logFault s cls die unit rung).cores = s.cores := by
  simp only [logFault, cset_cores]

@[simp] theorem countFrames_cores (s : State) (p n : Nat) : (countFrames s p n).cores = s.cores := by
  simp only [countFrames]
  split <;> simp

@[simp] theorem sentOn_cores (s : State) (q : Nat) (x y : Qp) : (sentOn s q x y).cores = s.cores := by simp [sentOn]

@[simp] theorem send_cores (s : State) (q : Nat) (kind : MsgKind) (key va : Nat) (data : List Byte) :
    (send s q kind key va data).cores = s.cores := by
  simp [send]

@[simp] theorem modEntry_cores (s : State) (st seq : Nat) (f : Entry → Entry) : (modEntry s st seq f).cores = s.cores := by simp [modEntry]

@[simp] theorem modTake_cores (s : State) (st seq : Nat) (f : Take → Take) : (modTake s st seq f).cores = s.cores := by simp [modTake]

@[simp] theorem dropTake_cores (s : State) (st seq : Nat) : (dropTake s st seq).cores = s.cores := by simp [dropTake]

@[simp] theorem complete_cores (s : State) (st seq : Nat) (c : CInfo) : (complete s st seq c).cores = s.cores := by
  unfold complete
  (repeat' split) <;> simp

@[simp] theorem settle_cores (s : State) (st : Nat) : (settle s st).cores = s.cores := by
  simp only [settle]
  split <;> simp

@[simp] theorem haltStream_cores (s : State) (st seq : Nat) : (haltStream s st seq).cores = s.cores := by
  simp only [haltStream]
  split <;> simp

@[simp] theorem freeUpdate_cores (s : State) (u : Update) : (freeUpdate s u).cores = s.cores := by simp [freeUpdate]

@[simp] theorem abandonUpdates_cores (s : State) (st seq : Nat) : (abandonUpdates s st seq).cores = s.cores := by simp [abandonUpdates]

@[simp] theorem dropUpdates_cores (s : State) (st seq : Nat) : (dropUpdates s st seq).cores = s.cores := by simp [dropUpdates]

@[simp] theorem leaveLoader_cores (s : State) (e : Entry) : (leaveLoader s e).cores = s.cores := by simp [leaveLoader]

@[simp] theorem coresIn_restCores {s : State} (h : coresIn s.cores) (slot : Nat) : coresIn (restCores s slot).cores := by
  unfold restCores
  split
  · exact h
  · exact coresIn_foldl (fun _ _ ht => by simp [ht]) _ h

@[simp] theorem reportLoad_cores (s : State) (e : Entry) (report : List Byte) : (reportLoad s e report).cores = s.cores := by
  simp [reportLoad]

@[simp] theorem coresIn_finishCore {s : State} (h : coresIn s.cores) (st seq : Nat) (c : CInfo) :
    coresIn (finishCore s st seq c).cores := by
  unfold finishCore
  split <;> simp [h]

@[simp] theorem coresIn_finish {s : State} (h : coresIn s.cores) (st seq : Nat) (c : CInfo) : coresIn (finish s st seq c).cores := by
  unfold finish
  split <;> simp [h]

@[simp] theorem interim_cores (s : State) (st seq : Nat) (c : CInfo) : (interim s st seq c).cores = s.cores := by simp [interim]

@[simp] theorem turnStream_cores (s : State) (st : Nat) (next : StreamState) : (turnStream s st next).cores = s.cores := by
  simp only [turnStream]
  split <;> simp

@[simp] theorem waitFor_cores (s : State) (st seq reason : Nat) : (waitFor s st seq reason).cores = s.cores := by
  unfold waitFor
  split <;> simp

@[simp] theorem voidBound_cores (s : State) (c : Nat) : (voidBound s c).cores = s.cores := by
  unfold voidBound
  split <;> simp

@[simp] theorem sendControl_cores (s : State) (l : Landing) (kind : Nat) : (sendControl s l kind).cores = s.cores := by simp [sendControl]

@[simp] theorem modCen_cores (s : State) (f : Cen → Cen) : (modCen s f).cores = s.cores := (rfl)

@[simp] theorem postOut_cores (s : State) (m : OutMsg) : (postOut s m).cores = s.cores := by simp [postOut]

@[simp] theorem flushOut_cores (l : List OutMsg) (s : State) : (flushOut l s).cores = s.cores := by
  induction l generalizing s with
  | nil => rfl
  | cons m t ih => simp [flushOut, ih]

@[simp] theorem flushOutbox_cores (s : State) : (flushOutbox s).cores = s.cores := by simp [flushOutbox]

@[simp] theorem abortLandings_cores (s : State) (st seq : Nat) : (abortLandings s st seq).cores = s.cores := by simp [abortLandings]

/-- A killed core keeps its barrier counts alone of what is limited. -/
theorem coreLimits_killCore {x : Core} (h : coreLimits x) : coreLimits (killCore x) :=
  ⟨reelsIn_nil, barsIn_map (f := fun b => { b with waiters := [] }) h.2.1 fun _ hb => ⟨hb.1, Nat.zero_le _⟩, queuesIn_nil⟩

@[simp] theorem coresIn_killTake {s : State} (h : coresIn s.cores) (t : Take) : coresIn (killTake s t).cores := by
  have hs := coresIn_foldl (f := fun s c => modCore s c killCore)
    (fun _ c ht => coresIn_modCore ht (coreLimits_killCore (coreLimits_core ht c))) (coresOf s t.slot) h
  simpa [killTake] using hs

@[simp] theorem coresIn_killAndEnd {s : State} (h : coresIn s.cores) (st seq : Nat) (c : CInfo) :
    coresIn (killAndEnd s st seq c).cores := by
  unfold killAndEnd
  refine coresIn_finish ?_ _ _ _
  (repeat' split) <;> simp [h]

@[simp] theorem coresIn_killForRetake {s : State} (h : coresIn s.cores) (t : Take) (c : CInfo) (keepCut : Bool) :
    coresIn (killForRetake s t c keepCut).cores := by
  simp [h, killForRetake]

@[simp] theorem coresIn_endOfCore {s : State} (h : coresIn s.cores) (c : Nat) (f : Take → CInfo) : coresIn (endOfCore s c f).cores := by
  unfold endOfCore
  split <;> simp [h]

@[simp] theorem logLoss_cores (s : State) (r : Access) (a : Nat) : (logLoss s r a).cores = s.cores := by
  unfold logLoss
  split <;> simp

@[simp] theorem coresIn_accessFail {s : State} (h : coresIn s.cores) (c : Nat) (r : Access) (addr : Nat) :
    coresIn (accessFail s c r addr).cores := by simp [h, accessFail]

@[simp] theorem modRun_cores (s : State) (id : Nat) (f : Run → Run) : (modRun s id f).cores = s.cores := by simp [modRun]

@[simp] theorem coresIn_trapCore {s : State} (h : coresIn s.cores) (c cause val detail reel pc : Nat) :
    coresIn (trapCore s c cause val detail reel pc).cores := by
  simp [h, trapCore]

@[simp] theorem coresIn_trapHere {s : State} (h : coresIn s.cores) (c cause val detail : Nat) :
    coresIn (trapHere s c cause val detail).cores := by simp [h, trapHere]

-- Finlen: arithmetic, branches, loops and words of memory (Machine/Finlen)

/-- An instruction whose effect, executed or not, ends within the limits; what it starts from has the cores as they were. -/
theorem endsWithin_finlen {s : State} (h : coresIn s.cores) {q : Issue} {i : Instr} {run skip : State → State}
    (hr : ∀ t, t.cores = s.cores → coresIn (run t).cores) (hs : ∀ t, coresIn t.cores → coresIn (skip t).cores) :
    EndsWithin (finlen q i s run skip) := by
  have hb := bump_cores s (csqBase q.core + 0x48) 1
  have hskip : coresIn (skip (bump s (csqBase q.core + 0x48) 1)).cores := hs _ (by rwa [hb])
  simp only [finlen]
  (repeat' split) <;> simp [h, hr _ hb, hskip]

theorem endsWithin_finlenOp {s : State} (h : coresIn s.cores) {q : Issue} {i : Instr} {run : State → State}
    (hr : ∀ t, coresIn t.cores → coresIn (run t).cores) : EndsWithin (finlenOp q i s run) :=
  endsWithin_finlen h (fun _ ht => hr _ (ht ▸ h)) fun _ ht => coresIn_modRunning_next ht _ _

theorem endsWithin_finlenReel {s : State} (h : coresIn s.cores) {q : Issue} {i : Instr} {f : Reel → Reel}
    (hf : ∀ r, reelIn r → reelIn (f r)) : EndsWithin (finlenReel q i s f) :=
  endsWithin_finlenOp h fun _ ht => coresIn_modRunning ht (reelIn_next (hf _ (reelIn_runningReel ht _)) _)

@[simp] theorem endsWithin_execAlu {s : State} (h : coresIn s.cores) (q : Issue) (fn rd ra rb : Nat) :
    EndsWithin (execAlu q fn rd ra rb s) :=
  endsWithin_finlenReel h fun _ hr => by simp [hr]

@[simp] theorem endsWithin_execAddi {s : State} (h : coresIn s.cores) (q : Issue) (rd ra : Nat) (imm : BitVec 12) :
    EndsWithin (execAddi q rd ra imm s) :=
  endsWithin_finlenReel h fun _ hr => by simp [hr]

@[simp] theorem endsWithin_execAndi {s : State} (h : coresIn s.cores) (q : Issue) (rd ra : Nat) (imm : BitVec 12) :
    EndsWithin (execAndi q rd ra imm s) :=
  endsWithin_finlenReel h fun _ hr => by simp [hr]

@[simp] theorem endsWithin_execOri {s : State} (h : coresIn s.cores) (q : Issue) (rd ra : Nat) (imm : BitVec 12) :
    EndsWithin (execOri q rd ra imm s) :=
  endsWithin_finlenReel h fun _ hr => by simp [hr]

@[simp] theorem endsWithin_execXori {s : State} (h : coresIn s.cores) (q : Issue) (rd ra : Nat) (imm : BitVec 12) :
    EndsWithin (execXori q rd ra imm s) :=
  endsWithin_finlenReel h fun _ hr => by simp [hr]

@[simp] theorem endsWithin_execSlli {s : State} (h : coresIn s.cores) (q : Issue) (rd ra : Nat) (imm : BitVec 12) :
    EndsWithin (execSlli q rd ra imm s) :=
  endsWithin_finlenReel h fun _ hr => by simp [hr]

@[simp] theorem endsWithin_execSrli {s : State} (h : coresIn s.cores) (q : Issue) (rd ra : Nat) (imm : BitVec 12) :
    EndsWithin (execSrli q rd ra imm s) :=
  endsWithin_finlenReel h fun _ hr => by simp [hr]

@[simp] theorem endsWithin_execSrai {s : State} (h : coresIn s.cores) (q : Issue) (rd ra : Nat) (imm : BitVec 12) :
    EndsWithin (execSrai q rd ra imm s) :=
  endsWithin_finlenReel h fun _ hr => by simp [hr]

@[simp] theorem endsWithin_execXalu {s : State} (h : coresIn s.cores) (q : Issue) (fn rd ra : Nat) (imm : W32) :
    EndsWithin (execXalu q fn rd ra imm s) :=
  endsWithin_finlenReel h fun _ hr => by simp [hr]

@[simp] theorem endsWithin_execNop {s : State} (h : coresIn s.cores) (q : Issue) : EndsWithin (execNop q s) :=
  endsWithin_finlenReel h fun _ hr => hr

@[simp] theorem endsWithin_execCmp {s : State} (h : coresIn s.cores) (q : Issue) (fn pd ra rb : Nat) :
    EndsWithin (execCmp q fn pd ra rb s) :=
  endsWithin_finlenReel h fun _ hr => by simp [hr]

@[simp] theorem endsWithin_execCmpi {s : State} (h : coresIn s.cores) (q : Issue) (cond pd ra : Nat) (imm : BitVec 12) :
    EndsWithin (execCmpi q cond pd ra imm s) :=
  endsWithin_finlenReel h fun _ hr => by simp [hr]

@[simp] theorem endsWithin_execPlog {s : State} (h : coresIn s.cores) (q : Issue) (fn pd pa pb : Nat) :
    EndsWithin (execPlog q fn pd pa pb s) :=
  endsWithin_finlenReel h fun _ hr => by simp [hr]

/-- A running reel is a matter of the table of the cores alone. -/
theorem runningReel_congr {s t : State} (h : t.cores = s.cores) (c : Nat) : runningReel t c = runningReel s c := by
  simp only [runningReel, core, h]

@[simp] theorem endsWithin_execBr {s : State} (h : coresIn s.cores) (q : Issue) (off : BitVec 19) : EndsWithin (execBr q off s) :=
  endsWithin_finlenOp h fun _ ht => coresIn_modRunning ht (reelIn_runningReel ht _)

@[simp] theorem endsWithin_execCall {s : State} (h : coresIn s.cores) (q : Issue) (off : BitVec 19) : EndsWithin (execCall q off s) := by
  refine endsWithin_finlenOp h fun t ht => ?_
  dsimp only
  split
  · simp [ht]
  · next hroom =>
    exact coresIn_modRunning ht ⟨(reelIn_runningReel ht _).1, by rw [List.length_cons]; omega⟩

@[simp] theorem endsWithin_execRet {s : State} (h : coresIn s.cores) (q : Issue) : EndsWithin (execRet q s) := by
  refine endsWithin_finlenOp h fun t ht => ?_
  have hr := reelIn_runningReel ht q.core
  split
  · simp [ht]
  · next heq =>
    refine coresIn_modRunning ht ⟨hr.1, ?_⟩
    have := heq ▸ hr.2
    exact (Nat.le_succ _).trans this

@[simp] theorem endsWithin_execLoop {s : State} (h : coresIn s.cores) (q : Issue) (rd ra body : Nat) :
    EndsWithin (execLoop q rd ra body s) := by
  have hskip : ∀ t, coresIn t.cores → coresIn (modRunning t q.core fun r => { r with pc := r.pc + 2 + body }).cores :=
    fun _ ht => coresIn_modRunning ht (reelIn_runningReel ht _)
  simp only [execLoop]
  refine endsWithin_finlen h (fun t hts => ?_) hskip
  have ht : coresIn t.cores := hts ▸ h
  (repeat' split)
  · simp [ht]
  · exact hskip t ht
  · simp [ht]
  · next hroom hmax =>
    refine coresIn_modRunning (by simp [ht]) ⟨?_, ?_⟩
    · rw [List.length_cons, runningReel_congr (voidBound_cores t q.core)]
      omega
    · exact (reelIn_set (reelIn_runningReel (by simp [ht]) _) _ _).2
  · next hroom hmax =>
    exact coresIn_modRunning ht ⟨by rw [List.length_cons]; omega, (reelIn_set (reelIn_runningReel ht _) _ _).2⟩

@[simp] theorem endsWithin_execLbrk {s : State} (h : coresIn s.cores) (q : Issue) : EndsWithin (execLbrk q s) := by
  refine endsWithin_finlenOp h fun t ht => ?_
  have hr := reelIn_runningReel ht q.core
  split
  · simp [ht]
  · next heq =>
    refine coresIn_modRunning ht ⟨?_, hr.2⟩
    have := heq ▸ hr.1
    exact (Nat.le_succ _).trans this

@[simp] theorem endsWithin_execLdw {s : State} (h : coresIn s.cores) (q : Issue) (rd ra : Nat) (imm : BitVec 12) :
    EndsWithin (execLdw q rd ra imm s) := by
  refine endsWithin_finlenOp h fun t ht => ?_
  dsimp only
  split <;> simp [ht]

@[simp] theorem endsWithin_execStw {s : State} (h : coresIn s.cores) (q : Issue) (rd ra : Nat) (imm : BitVec 12) :
    EndsWithin (execStw q rd ra imm s) := by
  refine endsWithin_finlenOp h fun t ht => ?_
  dsimp only
  split <;> simp [ht]

@[simp] theorem endsWithin_execTrap {s : State} (h : coresIn s.cores) (q : Issue) (code : BitVec 12) : EndsWithin (execTrap q code s) :=
  endsWithin_finlenOp h fun _ ht => coresIn_trapHere ht _ _ _ _

-- Barrier counters and arrivals (Machine/Barrier)

@[simp] theorem sendArrival_cores (s : State) (circuit : Option Nat) (after : List Nat) (a : Arrival) :
    (sendArrival s circuit after a).cores = s.cores := by
  unfold sendArrival
  (repeat' split) <;> simp

@[simp] theorem arriveOut_cores (s : State) (c id : Nat) (b : List Byte) (r : BRef) (rs : List (Nat × Nat)) :
    (arriveOut s c id b r rs).cores = s.cores := by
  unfold arriveOut
  (repeat' split) <;> simp

@[simp] theorem arriveRef_cores (s : State) (c id : Nat) (b : List Byte) (r : BRef) : (arriveRef s c id b r).cores = s.cores := by
  simp [arriveRef]

/-- A waiter that a counter has a place for. -/
theorem coreLimits_of_joinBar {x y : Core} {mu ctr : Nat} {w : Waiter} (h : coreLimits x) (hy : joinBar x mu ctr w = some y) :
    coreLimits y := by
  simp only [joinBar] at hy
  split at hy
  · next hroom =>
    cases hy
    have hb : barIn { barOf x mu ctr with waiters := (barOf x mu ctr).waiters ++ [w] } :=
      ⟨(barIn_barOf h.2.1 mu ctr).1, by simpa using hroom⟩
    exact coreLimits_withBar h hb _ _
  · nomatch hy

theorem queues_of_joinBar {x y : Core} {mu ctr : Nat} {w : Waiter} (hy : joinBar x mu ctr w = some y) : y.queues = x.queues := by
  simp only [joinBar] at hy
  split at hy <;> cases hy
  rfl

theorem coreLimits_joinHead {x : Core} (h : coreLimits x) (key : Nat) : coreLimits (joinHead x key) := by
  unfold joinHead
  split
  · next d t heq =>
    dsimp only
    split
    · exact h
    · split
      · next y hy =>
        have hlen := length_queueOf_le h.2.2 key
        have hq : queueOf y key = d :: t := by rw [queueOf, queues_of_joinBar hy]; exact heq
        rw [heq] at hlen
        exact coreLimits_withQueue (coreLimits_of_joinBar h hy) (by rw [hq]; exact hlen)
      · exact h
  · exact h

theorem coreLimits_joinHeads {x : Core} (h : coreLimits x) : coreLimits (joinHeads x) :=
  List.foldlRecOn queueKeys joinHead h fun _ hy key _ => coreLimits_joinHead hy key

theorem coreLimits_popHead {x : Core} (h : coreLimits x) (key : Nat) : coreLimits (popHead x key) :=
  coreLimits_joinHeads (coreLimits_withQueue h ((List.length_tail ▸ Nat.sub_le _ _).trans (length_queueOf_le h.2.2 key)))

@[simp] theorem reelsIn_popHead {x : Core} (h : coreLimits x) (key : Nat) : reelsIn (popHead x key).reels := (coreLimits_popHead h key).1

@[simp] theorem barsIn_popHead {x : Core} (h : coreLimits x) (key : Nat) : barsIn (popHead x key).bars := (coreLimits_popHead h key).2.1

@[simp] theorem queuesIn_popHead {x : Core} (h : coreLimits x) (key : Nat) :
    queuesIn (popHead x key).queues := (coreLimits_popHead h key).2.2

@[simp] theorem coresIn_notePrefetch {s : State} (h : coresIn s.cores) (a : Arrival) : coresIn (notePrefetch s a).cores := by
  unfold notePrefetch
  split
  · exact h
  · exact coresIn_modCore h (coreLimits_of_fields (coreLimits_core h _) rfl rfl rfl)

@[simp] theorem coresIn_applyArrival {s : State} (h : coresIn s.cores) (a : Arrival) : coresIn (applyArrival s a).cores := by
  have hb := barIn_barOf (barsIn_core h a.dst) a.mu a.ctr
  have hput : ∀ b, barIn b → coresIn (setCore s a.dst (withBar (core s a.dst) a.mu a.ctr b)).cores := fun b hb =>
    coresIn_setCore h (coreLimits_withBar (coreLimits_core h _) hb _ _) _
  unfold applyArrival
  dsimp only
  split
  · have hfull := hput { barOf (core s a.dst) a.mu a.ctr with count := 65535 } ⟨Nat.le_refl _, hb.2⟩
    split <;> simp [hfull]
  · next hle =>
    exact coresIn_notePrefetch (hput { barOf (core s a.dst) a.mu a.ctr with count := _ } ⟨Nat.le_of_not_lt hle, hb.2⟩) a

@[simp] theorem endsWithin_execBarrierArrival {s : State} (h : coresIn s.cores) (k : Nat) : EndsWithin (execBarrierArrival k s) := by
  unfold execBarrierArrival
  split <;> simp [h]

@[simp] theorem coresIn_consume {s : State} (h : coresIn s.cores) (c mu ctr w : Nat) : coresIn (consume s c mu ctr w).cores := by
  have hrest : ∀ n, coresIn (modCore s c fun x => withBar x mu ctr { barOf (core s c) mu ctr with rest := n }).cores := fun n =>
    coresIn_modCore h (coreLimits_withBar (b := { barOf (core s c) mu ctr with rest := n }) (coreLimits_core h c)
      (barIn_barOf (barsIn_core h c) mu ctr) _ _)
  simp only [consume]
  split
  · exact hrest _
  · exact coresIn_foldl (fun _ d ht => coresIn_modCore ht (coreLimits_of_fields (coreLimits_core ht d) rfl rfl rfl)) _ (hrest _)

-- Finlen: descriptors, barriers, commits, reels and CSRs (Machine/FinlenSys)

/-- What waits to issue stays as it is. -/
theorem endsWithin_finlenWait {s : State} (h : coresIn s.cores) {q : Issue} {i : Instr} {ready : Bool} {run : State → State}
    (hr : ready = true → ∀ t, t.cores = s.cores → coresIn (run t).cores) : EndsWithin (finlenWait q i s ready run) := by
  unfold finlenWait finlenOp
  refine endsWithin_finlen h (fun t ht => ?_) fun _ ht => coresIn_modRunning_next ht _ _
  split
  · next hready => exact hr hready t ht
  · exact h

@[simp] theorem coresIn_stepPc {s : State} (h : coresIn s.cores) (c : Nat) (i : Instr) : coresIn (stepPc s c i).cores :=
  coresIn_modRunning_next h c _

@[simp] theorem coresIn_setCore_popHead {s : State} (h : coresIn s.cores) (c key : Nat) :
    coresIn (setCore s c (popHead (core s c) key)).cores :=
  coresIn_setCore h (coreLimits_popHead (coreLimits_core h c) key) c

/-- A core put back with a head taken off a queue, and what is not limited changed. -/
theorem coresIn_setCore_popped {s : State} {x : Core} {c key : Nat} (h : coresIn s.cores) (hr : x.reels = (popHead (core s c) key).reels)
    (hb : x.bars = (popHead (core s c) key).bars) (hq : x.queues = (popHead (core s c) key).queues) : coresIn (setCore s c x).cores :=
  coresIn_setCore h (coreLimits_of_fields (coreLimits_popHead (coreLimits_core h c) key) hr hb hq) c

theorem coresIn_modCore_popped {s : State} {f : Core → Core} {c key : Nat} (h : coresIn s.cores) (hr : ∀ x, (f x).reels = (popHead x key).reels)
    (hb : ∀ x, (f x).bars = (popHead x key).bars) (hq : ∀ x, (f x).queues = (popHead x key).queues) : coresIn (modCore s c f).cores :=
  coresIn_setCore_popped h (hr _) (hb _) (hq _)

/-- The queue that an accepted ISSUE names has the depth of its engine (R221). -/
theorem keyDepth_issueQueue {s : State} {c eng a : Nat} {size : Bool} (ha : isCoreAddr a = true)
    (heng : dEng (sramReads s c a (if size then 128 else 64)) = eng) (hok : typeOk (sramReads s c a (if size then 128 else 64)) = true) :
    keyDepth (issueQueue s c eng a size) = queueDepth eng := by
  unfold issueQueue
  generalize sramReads s c a (if size then 128 else 64) = b at *
  have hmu : a / muBytes < 4 := by
    have := of_decide_eq_true ha
    unfold muBytes
    omega
  generalize a / muBytes = mu at *
  have hle : eng ≤ 6 := by
    unfold typeOk at hok
    rw [heng] at hok
    split at hok <;> simp_all
  by_cases h6 : eng = 6
  · have hkey : queueKey b mu = 16 + fld b 16 1 := by
      unfold queueKey
      rw [heng, h6]
      rfl
    rw [if_pos h6, hkey, keyDepth, if_neg (by omega), if_neg (by omega), h6]
  · have hbyte : dEng [BitVec.ofNat 8 eng] = eng := by
      subst heng
      simp [dEng, fld, slice, leNat, bits, zeros]
    rw [if_neg h6]
    by_cases h3 : eng = 3
    · have hkey : queueKey [BitVec.ofNat 8 eng] mu = 8 + mu := by
        unfold queueKey
        rw [hbyte, h3]
        rfl
      have hge : ¬ 8 + mu < 8 := by omega
      have hlt : 8 + mu < 16 := by omega
      rw [hkey, keyDepth, if_neg hge, if_pos hlt, h3]
    · have hkey : queueKey [BitVec.ofNat 8 eng] mu = eng := by
        unfold queueKey
        rw [hbyte]
        split
        · exact absurd rfl h3
        · exact absurd rfl h6
        · rfl
      have hlt : eng < 8 := by omega
      rw [hkey, keyDepth, if_pos hlt]

/-- A descriptor that its queue has a place for. -/
theorem coresIn_enqueue {s : State} (h : coresIn s.cores) {c key : Nat} (b : List Byte) (hroom : (queueOf
    (core s c) key).length < keyDepth key) :
    coresIn (enqueue s c key b).cores := by
  have hx : coreLimits (nextId (core s c)).2 := coreLimits_of_fields (coreLimits_core h c) rfl rfl rfl
  have hq : queueOf (nextId (core s c)).2 key = queueOf (core s c) key := rfl
  unfold enqueue
  refine coresIn_modCore h (coreLimits_joinHeads (coreLimits_withQueue hx ?_))
  rw [hq, List.length_append, List.length_singleton]
  exact hroom

@[simp] theorem endsWithin_execIssue {s : State} (h : coresIn s.cores) (q : Issue) (ra eng : Nat) (size : Bool) (off : Nat) :
    EndsWithin (execIssue q ra eng size off s) := by
  simp only [execIssue]
  refine endsWithin_finlenWait h fun hready t hts => ?_
  have ht : coresIn t.cores := hts ▸ h
  have hcore : core t q.core = core s q.core := by simp only [core, hts]
  generalize hlen : (if size then 128 else 64) = len
  split
  · simp [ht]
  · next hgood =>
    split
    · simp [ht]
    · next htype =>
      split
      · simp [ht]
      · subst hlen
        obtain ⟨heng, -, hok⟩ : _ ∧ _ ∧ _ := by simpa only [not_or, not_not] using htype
        have hkey := keyDepth_issueQueue (not_not.1 hgood).1 heng hok
        have hroom := (of_decide_eq_true hready).resolve_left hgood
        exact coresIn_stepPc (coresIn_enqueue ht _ (by rw [hcore, hkey]; exact hroom)) _ _

@[simp] theorem endsWithin_execArrive {s : State} (h : coresIn s.cores) (q : Issue) (ra mu ctr n : Nat) (rem : Bool) :
    EndsWithin (execArrive q ra mu ctr n rem s) := by
  simp only [execArrive]
  refine endsWithin_finlenOp h fun t ht => ?_
  have hid : coresIn (setCore t q.core (nextId (core t q.core)).2).cores :=
    coresIn_setCore_fields ht rfl rfl rfl
  (repeat' split) <;> simp [ht, hid]

@[simp] theorem endsWithin_execWait {s : State} (h : coresIn s.cores) (q : Issue) (mu ctr n : Nat) :
    EndsWithin (execWait q mu ctr n s) := by
  simp only [execWait]
  refine endsWithin_finlenWait h fun _ t hts => ?_
  have ht : coresIn (stepPc t q.core (.wait q mu ctr n)).cores := coresIn_stepPc (hts ▸ h) _ _
  refine coresIn_modCore ht ?_
  split
  · next hy =>
    have hy := coreLimits_of_joinBar (coreLimits_core ht _) hy
    refine coreLimits_withReel hy ?_ _
    exact reelIn_of_stacks rfl rfl (reelIn_reelOf hy.1 _)
  · exact coreLimits_core ht _

@[simp] theorem endsWithin_execRstart {s : State} (h : coresIn s.cores) (q : Issue) (z : Nat) (off : BitVec 19) :
    EndsWithin (execRstart q z off s) := by
  simp only [execRstart]
  refine endsWithin_finlenOp h fun t ht => ?_
  split
  · simp [ht]
  · exact coresIn_stepPc (coresIn_modCore ht (coreLimits_withReel (coreLimits_core ht _) (by simp) _)) _ _

@[simp] theorem coresIn_switchReel {s : State} (h : coresIn s.cores) (c : Nat) : coresIn (switchReel s c).cores := by
  unfold switchReel
  exact coresIn_setCore_fields h rfl rfl rfl

@[simp] theorem endsWithin_execYieldReel {s : State} (h : coresIn s.cores) (q : Issue) : EndsWithin (execYieldReel q s) :=
  endsWithin_finlenOp h fun _ ht => coresIn_switchReel (coresIn_stepPc ht _ _) _

@[simp] theorem endsWithin_execRexit {s : State} (h : coresIn s.cores) (q : Issue) : EndsWithin (execRexit q s) := by
  simp only [execRexit]
  refine endsWithin_finlenOp h fun t ht => ?_
  split
  · simp [ht]
  · exact coresIn_switchReel (coresIn_modCore ht (coreLimits_withReel (coreLimits_of_fields (coreLimits_core ht _) rfl rfl rfl) (by simp) _)) _

@[simp] theorem endsWithin_execFence {s : State} (h : coresIn s.cores) (q : Issue) (fn : Nat) : EndsWithin (execFence q fn s) := by
  refine endsWithin_finlenOp h fun t ht => ?_
  have ht := coresIn_stepPc ht q.core (.fence q fn)
  exact coresIn_modRunning ht (reelIn_of_stacks rfl rfl (reelIn_runningReel ht _))

@[simp] theorem coresIn_sendCtr {s : State} (h : coresIn s.cores) (c : Nat) (f : Nat → Nat → Nat → CtrReq) :
    coresIn (sendCtr s c f).cores :=
  coresIn_modCore h (coreLimits_of_fields (coreLimits_core h c) rfl rfl rfl)

@[simp] theorem endsWithin_execFetch {s : State} (h : coresIn s.cores) (q : Issue) (rd ra rb : Nat) (dev : Bool) (num : Nat) :
    EndsWithin (execFetch q rd ra rb dev num s) := by
  simp only [execFetch]
  refine endsWithin_finlenWait h fun _ t hts => ?_
  have ht : coresIn t.cores := hts ▸ h
  split <;> simp [ht]

/-- A result written to a reel leaves the stacks alone. -/
theorem coreLimits_setReg {x : Core} (h : coreLimits x) (reel rd : Nat) (v : W64) : coreLimits (setReg x reel rd v) :=
  coreLimits_withReel h (reelIn_set (reelIn_reelOf h.1 reel) rd v) reel

/-- A counter request changed leaves what is limited alone. -/
@[simp] theorem coresIn_setCore_modReq {s : State} (h : coresIn s.cores) (c id : Nat) (f : CtrReq → CtrReq) :
    coresIn (setCore s c (modReq (core s c) id f)).cores :=
  coresIn_setCore_fields h rfl rfl rfl

@[simp] theorem coresIn_setCore_dropReq {s : State} (h : coresIn s.cores) (c id : Nat) :
    coresIn (setCore s c (dropReq (core s c) id)).cores :=
  coresIn_setCore_fields h rfl rfl rfl

/-- A result that comes back is written to its reel. -/
theorem coresIn_answered {s : State} (h : coresIn s.cores) (c reel rd id : Nat) (v : W64) :
    coresIn (setCore s c (dropReq (setReg (core s c) reel rd v) id)).cores := by
  refine coresIn_setCore h ?_ c
  exact coreLimits_of_fields (coreLimits_setReg (coreLimits_core h c) reel rd v) rfl rfl rfl

@[simp] theorem endsWithin_execFetchAnswer {s : State} (h : coresIn s.cores) (c reel rd : Nat) :
    EndsWithin (execFetchAnswer c reel rd s) := by
  simp only [execFetchAnswer]
  split
  · simp [h]
  · simp [h, coresIn_answered]

@[simp] theorem endsWithin_execCounterResend {s : State} (h : coresIn s.cores) (c reel rd : Nat) :
    EndsWithin (execCounterResend c reel rd s) := by
  simp only [execCounterResend]
  split <;> simp [h]

@[simp] theorem endsWithin_execTcmt {s : State} (h : coresIn s.cores) (q : Issue) (rd ra rb : Nat) (dev : Bool) (num : Nat) :
    EndsWithin (execTcmt q rd ra rb dev num s) := by
  simp only [execTcmt]
  refine endsWithin_finlenWait h fun _ t hts => ?_
  have ht : coresIn t.cores := hts ▸ h
  (repeat' split) <;> simp [ht]

@[simp] theorem coresIn_commitCopies {s : State} (h : coresIn s.cores) (c : Nat) (l : List (Nat × Nat × Nat)) :
    coresIn (commitCopies s c l).cores := by
  induction l generalizing s with
  | nil => exact h
  | cons g t ih =>
    rw [commitCopies]
    split
    · exact ih (coresIn_of_writeMem h ‹_›)
    · exact coresIn_accessFail (coresIn_of_writeMem h ‹_›) _ _ _

@[simp] theorem endsWithin_execTcmtAnswer {s : State} (h : coresIn s.cores) (c reel rd : Nat) :
    EndsWithin (execTcmtAnswer c reel rd s) := by
  simp only [execTcmtAnswer]
  (repeat' split) <;> simp [h, coresIn_answered]

@[simp] theorem endsWithin_execTcmtCopyDone {s : State} (h : coresIn s.cores) (c reel rd : Nat) :
    EndsWithin (execTcmtCopyDone c reel rd s) := by
  simp only [execTcmtCopyDone]
  split
  · simp [h]
  · split <;> simp [h, coresIn_answered]

@[simp] theorem endsWithin_execCsrr {s : State} (h : coresIn s.cores) (q : Issue) (rd : Nat) (imm : W32) :
    EndsWithin (execCsrr q rd imm s) := by
  refine endsWithin_finlenOp h fun t ht => ?_
  split <;> simp [ht]

@[simp] theorem endsWithin_execCsrw {s : State} (h : coresIn s.cores) (q : Issue) (ra : Nat) (imm : W32) :
    EndsWithin (execCsrw q ra imm s) :=
  endsWithin_finlenOp h fun t ht => coresIn_stepPc (by simp [ht]) _ _

@[simp] theorem endsWithin_execTrapReport {s : State} (h : coresIn s.cores) (c : Nat) : EndsWithin (execTrapReport c s) := by
  simp [h, execTrapReport]

-- Work counters (Machine/Wkc)

@[simp] theorem endsWithin_execWkcFetchAdd {s : State} (h : coresIn s.cores) (c reel rd : Nat) :
    EndsWithin (execWkcFetchAdd c reel rd s) := by
  simp only [execWkcFetchAdd]
  split <;> simp [h]

@[simp] theorem endsWithin_execLedgerCommit {s : State} (h : coresIn s.cores) (c reel rd : Nat) :
    EndsWithin (execLedgerCommit c reel rd s) := by
  simp only [execLedgerCommit]
  split <;> simp [h]

-- The matrix engine (Machine/Mxe)

@[simp] theorem endsWithin_execMxePassStart {s : State} (h : coresIn s.cores) (c : Nat) : EndsWithin (execMxePassStart c s) := by
  simp only [execMxePassStart]
  refine endsWithin_onUnit.2 ⟨fun _ => h, fun _ => ?_⟩
  split
  · simp [h]
  · split
    · simp [h]
    · split
      · simp [h]
      · next y hy =>
        have hy : coreLimits y := by
          split at hy
          · exact coreLimits_of_joinBar (coreLimits_core h c) hy
          · cases hy
            exact coreLimits_core h c
        have hpop := coreLimits_popHead hy 0
        rw [endsWithin_next, bump_cores]
        exact coresIn_setCore h (by simpa using hpop) c

@[simp] theorem endsWithin_execZpMiss {s : State} (h : coresIn s.cores) (c : Nat) : EndsWithin (execZpMiss c s) := by
  unfold execZpMiss
  split <;> simp [h]

@[simp] theorem markTags_cores (s : State) (st seq : Nat) (b : List Byte) : (markTags s st seq b).cores = s.cores := by simp [markTags]

@[simp] theorem coresIn_accumRange {s : State} (h : coresIn s.cores) (c : Nat) (b : List Byte) : coresIn (accumRange s c b).cores := by
  simp [h, accumRange]

@[simp] theorem endsWithin_execMxeRangeFail {s : State} (h : coresIn s.cores) (c : Nat) : EndsWithin (execMxeRangeFail c s) := by
  simp only [execMxeRangeFail]
  (repeat' split) <;> simp [h]

@[simp] theorem coresIn_drainStore {s : State} (h : coresIn s.cores) (c : Nat) (d : MxeDrain) : coresIn (drainStore s c d).cores := by
  simp [h, drainStore]

@[simp] theorem drainCarry_cores (s : State) (c : Nat) (d : MxeDrain) : (drainCarry s c d).cores = s.cores := (rfl)

@[simp] theorem coresIn_drainEpilogue {s : State} (h : coresIn s.cores) (c : Nat) (d : MxeDrain) (tb : Nat) :
    coresIn (drainEpilogue s c d tb).cores := by simp [h, drainEpilogue]

@[simp] theorem coresIn_beginDrain {s : State} (h : coresIn s.cores) (c : Nat) : coresIn (beginDrain s c).cores := by
  unfold beginDrain
  (repeat' split) <;> simp [h]

@[simp] theorem endsWithin_execMxePassEnd {s : State} (h : coresIn s.cores) (c : Nat) : EndsWithin (execMxePassEnd c s) := by
  unfold execMxePassEnd
  (repeat' split) <;> simp [h]

/-- A drain that has ended leaves the list, and frees its buffer where it is dropped. -/
theorem coresIn_drained {s : State} (h : coresIn s.cores) (c : Nat) (d : MxeDrain) (rest : List MxeDrain) :
    coresIn (if d.drop then
        modCore (modCore s c fun x => modMxe x fun m => { m with drains := rest, sLast := d.s }) c fun x => freeTbs x d.tb.toList
      else modCore s c fun x => modMxe x fun m => { m with drains := rest, sLast := d.s }).cores := by
  split <;> simp [h]

@[simp] theorem endsWithin_execMxeDrainEnd {s : State} (h : coresIn s.cores) (c : Nat) : EndsWithin (execMxeDrainEnd c s) := by
  simp only [execMxeDrainEnd]
  refine endsWithin_onUnit.2 ⟨fun _ => h, fun _ => ?_⟩
  split
  · simp [h]
  · next d rest heq =>
    have hfin : ∀ t : State, coresIn t.cores → _ := fun t ht => coresIn_beginDrain (coresIn_drained ht c d rest) c
    split
    · simp [h]
    · split
      · exact endsWithin_when.2 ⟨fun _ => h, fun _ => by rw [arriveOut_cores]; exact hfin s h⟩
      · rw [endsWithin_next, arriveOut_cores]
        exact hfin _ (coresIn_drainStore h c d)
      · rw [endsWithin_next, arriveOut_cores]
        exact hfin _ (by simp [h])

-- AG programs (Machine/Ag)

theorem coresIn_of_agWrite {s t : State} (hs : coresIn s.cores) {c r j : Nat} {d : QDesc} {v : List Byte}
    (h : agWrite s c d r j v = .ok t) :
    coresIn t.cores := by
  unfold agWrite at h
  split at h
  · cases h
    exact hs
  · split at h
    · cases h
      exact coresIn_of_writeMem hs ‹_›
    · nomatch h

@[simp] theorem coresIn_agFinish {s : State} (h : coresIn s.cores) (c : Nat) (g : AgRun) : coresIn (agFinish s c g).cores := by
  simp [h, agFinish]

@[simp] theorem coresIn_prefetchIn {s : State} (h : coresIn s.cores) (c id k : Nat) (b : List Byte) :
    coresIn (prefetchIn s c id k b).cores := by
  unfold prefetchIn
  split <;> simp [h]

@[simp] theorem coresIn_agDeliver {s : State} (h : coresIn s.cores) (n : Nat) (c id : Nat) : coresIn (agDeliver n s c id).cores := by
  induction n generalizing s with
  | zero => exact h
  | succ n ih =>
    rw [agDeliver]
    split
    · exact h
    · split
      · exact h
      · split
        · exact h
        · dsimp only
          split
          · split
            · exact coresIn_agFinish (coresIn_prefetchIn (by simp [h]) _ _ _ _) _ _
            · exact coresIn_agFinish (by simp [h]) _ _
          · split
            · exact ih (coresIn_prefetchIn (by simp [h]) _ _ _ _)
            · exact ih (by simp [h])

@[simp] theorem coresIn_agArrive {s : State} (h : coresIn s.cores) (c id k : Nat) (v : List Byte) :
    coresIn (agArrive s c id k v).cores := by
  simp [h, agArrive]

@[simp] theorem coresIn_served {s : State} (h : coresIn s.cores) (c : Nat) (g : AgRun) (t : Nat) (f : AgRun → AgRun) :
    coresIn (served s c g t f).cores := by simp [h, served]

@[simp] theorem coresIn_takeRead {s : State} (h : coresIn s.cores) (c : Nat) (g : AgRun) (t : Nat) (r : Nat × Nat × Nat) (noted : Bool) :
    coresIn (takeRead s c g t r noted).cores := by
  simp only [takeRead]
  split
  · split
    · refine coresIn_agArrive (coresIn_modCore_fields (coresIn_served h _ _ _ _) ?_ ?_ ?_) _ _ _ _ <;>
      · intro x
        split <;> rfl
    · simp [h]
  · (repeat' split) <;> simp [h]

@[simp] theorem coresIn_agWrote {s : State} (h : coresIn s.cores) (c id : Nat) : coresIn (agWrote s c id).cores := by
  unfold agWrote
  split <;> simp [h]

@[simp] theorem coresIn_takeWrite {s : State} (h : coresIn s.cores) (c : Nat) (g : AgRun) (t : Nat) :
    coresIn (takeWrite s c g t).cores := by
  unfold takeWrite
  split
  · exact h
  · dsimp only
    split
    · simp [h]
    · next u hu =>
      have hu : coresIn u.cores := foldl_ok (P := fun u => coresIn u.cores) (fun s a t hs ht => coresIn_of_agWrite hs ht) h hu
      refine coresIn_agWrote ?_ _ _
      split <;> simp [hu]

@[simp] theorem coresIn_agPost {s : State} (h : coresIn s.cores) (n : Nat) (c mu ag : Nat) : coresIn (agPost n s c mu ag).cores := by
  induction n generalizing s with
  | zero => exact h
  | succ n ih =>
    rw [agPost]
    split
    · exact h
    · exact ih (coresIn_takeRead h _ _ _ _ _)
    · exact ih (coresIn_takeWrite h _ _ _)

@[simp] theorem coresIn_agPostAll {s : State} (h : coresIn s.cores) (c : Nat) : coresIn (agPostAll s c).cores :=
  coresIn_foldl (fun _ _ ht => coresIn_agPost ht _ _ _ _) _ h

@[simp] theorem coresIn_agPut {s : State} (h : coresIn s.cores) (c : Nat) (g : AgRun) (n : Nat) (v : List Byte) :
    coresIn (agPut s c g n v).cores := by
  unfold agPut
  split <;> simp [h]

@[simp] theorem coresIn_agClose {s : State} (h : coresIn s.cores) (c id : Nat) : coresIn (agClose s c id).cores :=
  coresIn_agWrote (coresIn_agPostAll (by simp [h]) c) c id

@[simp] theorem coresIn_agStart {s : State} (h : coresIn s.cores) (c mu : Nat) (d : QDesc) : coresIn (agStart s c mu d).cores := by
  simp [h, agStart]

@[simp] theorem endsWithin_execAgProgram {s : State} (h : coresIn s.cores) (c mu : Nat) : EndsWithin (execAgProgram c mu s) := by
  simp only [execAgProgram]
  (repeat' split) <;> simp [h, coresIn_modCore_popped (key := 8 + mu)]

@[simp] theorem endsWithin_execReelSwitch {s : State} (h : coresIn s.cores) (c unit : Nat) : EndsWithin (execReelSwitch c unit s) := by
  simp only [execReelSwitch]
  (repeat' split) <;> simp [h]

-- The vector engine (Machine/Vce)

@[simp] theorem putElem_cores (s : State) (c : Nat) (t : Strm) (lin j raw : Nat) : (putElem s c t lin j raw).cores = s.cores := by
  simp [putElem]

@[simp] theorem coresIn_writeElem {s : State} (h : coresIn s.cores) (c : Nat) (t : Strm) (lin n j raw : Nat) :
    coresIn (writeElem s c t lin n j raw).cores := by
  unfold writeElem
  (repeat' split) <;> simp [h]

@[simp] theorem coresIn_writeElems {s : State} (h : coresIn s.cores) (c : Nat) (t : Strm) (lin n j : Nat) (l : List Nat) :
    coresIn (writeElems c t lin n j l s).cores := by
  induction l generalizing n j s with
  | nil => exact h
  | cons raw l ih => exact ih (coresIn_writeElem h _ _ _ _ _ _) _ _

@[simp] theorem coresIn_putBlock {s : State} (h : coresIn s.cores) (c : Nat) (d : QDesc) (t : Strm) (p : BeatPos) (xs : List W32)
    (l0 : Nat) :
    coresIn (putBlock c d t p xs l0 s).1.cores := by
  simp only [putBlock]
  split <;> simp [h]

@[simp] theorem putVote_cores (c : Nat) (d : QDesc) (t : Strm) (absurd : W32) (n prev : Nat) (first last : Bool) (x : W32) (s : State) :
    (putVote c d t absurd n prev first last x s).cores = s.cores := by
  simp [putVote]

@[simp] theorem putVotes_cores (c : Nat) (d : QDesc) (t : Strm) (p : BeatPos) (xs : List W32) (s : State) :
    (putVotes c d t p xs s).cores = s.cores := by
  simp [putVotes]

@[simp] theorem coresIn_putBeat {s : State} (h : coresIn s.cores) (c : Nat) (d : QDesc) (p : BeatPos) (xs : List W32) :
    coresIn (putBeat s c d p xs).1.cores := by
  simp only [putBeat]
  (repeat' split) <;> simp [h]

@[simp] theorem zpClear_cores (s : State) (c a : Nat) (b : List Byte) (u v : Nat) : (zpClear s c a b u v).cores = s.cores := by
  simp [zpClear]

@[simp] theorem zpInit_cores (s : State) (c : Nat) (b : List Byte) (allow : Bool) : (zpInit s c b allow).cores = s.cores := by simp [zpInit]

@[simp] theorem zeroMap_cores (s : State) (c : Nat) (d : QDesc) (p : BeatPos) (mags : List Nat) (allow : Bool) :
    (zeroMap s c d p mags allow).cores = s.cores := by
  simp [zeroMap]

@[simp] theorem coresIn_redTake {s : State} (h : coresIn s.cores) (c : Nat) (r : RedRun) (d : QDesc) (p : BeatPos) (xs : List W32) :
    coresIn (redTake s c r d p xs).cores := by
  simp [h, redTake]

@[simp] theorem coresIn_walkDone {s : State} (h : coresIn s.cores) (c : Nat) (d : QDesc) (rs : List (Nat × Nat)) :
    coresIn (walkDone s c d rs).cores := by simp [h, walkDone]

@[simp] theorem endsWithin_execVwalkStart {s : State} (h : coresIn s.cores) (c : Nat) : EndsWithin (execVwalkStart c s) := by
  simp only [execVwalkStart]
  refine endsWithin_onUnit.2 ⟨fun _ => h, fun _ => ?_⟩
  split
  · simp [h]
  · split
    · simp [h]
    · split
      · rw [endsWithin_next]
        refine coresIn_walkDone (coresIn_beginDrain ?_ c) c _ _
        split <;> simp [h, coresIn_setCore_popped (key := 1)]
      · rw [endsWithin_next]
        refine coresIn_agPostAll ?_ c
        (repeat' split) <;> simp [h, coresIn_setCore_popped (key := 1)]

@[simp] theorem coresIn_finishProgs {s : State} (h : coresIn s.cores) (c : Nat) (ts : List Strm) (ended : Bool) (upTo : AgRun → Nat) :
    coresIn (finishProgs s c ts ended upTo).cores :=
  coresIn_foldl (fun s t ht => by (repeat' split) <;> simp [ht]) ts h

@[simp] theorem coresIn_feedProg {s : State} (h : coresIn s.cores) (c : Nat) (t : Strm) (ended : Bool) (upTo : Nat) :
    coresIn (feedProg s c t ended upTo).cores := by
  unfold feedProg
  (repeat' split) <;> simp [h]

@[simp] theorem coresIn_beatOut {s : State} (h : coresIn s.cores) (c : Nat) (w : Walk) (p : BeatPos) (r : BeatState) :
    coresIn (beatOut s c w p r).cores := by
  have hput : ∀ (allow : Bool) (f : Core → Core), (∀ x, (f x).reels = x.reels) → (∀ x, (f x).bars = x.bars) → (∀ x, (f x).queues = x.queues) →
      coresIn (modCore (zeroMap (putBeat s c w.desc p r.x).1 c w.desc p (putBeat s c w.desc p r.x).2 allow) c f).cores :=
    fun allow f hr hb hq => coresIn_modCore_fields (by simp [h]) hr hb hq
  simp only [beatOut]
  refine coresIn_feedProg (coresIn_finishProgs ?_ _ _ _ _) _ _ _ _
  rw [bump_cores]
  refine coresIn_beginDrain ?_ c
  (repeat' split) <;> simp [hput]

@[simp] theorem endsWithin_execVceBeatIssue {s : State} (h : coresIn s.cores) (c : Nat) : EndsWithin (execVceBeatIssue c s) := by
  simp only [execVceBeatIssue]
  split <;> simp [h]

@[simp] theorem endsWithin_execVwalkEnd {s : State} (h : coresIn s.cores) (c : Nat) : EndsWithin (execVwalkEnd c s) := by
  simp only [execVwalkEnd]
  refine endsWithin_onUnit.2 ⟨fun _ => h, fun _ => ?_⟩
  split
  · simp [h]
  · refine endsWithin_when.2 ⟨fun _ => h, fun _ => coresIn_walkDone (coresIn_beginDrain ?_ c) c _ _⟩
    (repeat' split) <;> simp [h]

@[simp] theorem endsWithin_execVprogApply {s : State} (h : coresIn s.cores) (c : Nat) : EndsWithin (execVprogApply c s) := by
  simp only [execVprogApply]
  (repeat' split) <;> simp [h, coresIn_setCore_popped (key := 1)]

@[simp] theorem endsWithin_execVcache {s : State} (h : coresIn s.cores) (c : Nat) : EndsWithin (execVcache c s) := by
  have hdone : ∀ (t : State) (id : Nat) (b : List Byte) (e : BRef) (rs : List (Nat × Nat)), coresIn t.cores →
      coresIn (arriveOut (modCore t c fun x => popHead x 1) c id b e rs).cores := fun t id b e rs ht => by
    rw [arriveOut_cores]
    exact coresIn_setCore_popHead ht c 1
  simp only [execVcache]
  refine endsWithin_onUnit.2 ⟨fun _ => h, fun _ => ?_⟩
  split
  · simp [h]
  · split
    · simp [h]
    · split
      · simp [h]
      · split
        · exact (endsWithin_next _).2 (coresIn_finishProgs (hdone _ _ _ _ _ (by simp [h])) _ _ _ _)
        · exact (endsWithin_next _).2 (coresIn_feedProg (hdone _ _ _ _ _ (by simp [h])) _ _ _ _)

@[simp] theorem endsWithin_execReelGenSwitch {s : State} (h : coresIn s.cores) (c unit reel : Nat) :
    EndsWithin (execReelGenSwitch c unit reel s) := by
  simp only [execReelGenSwitch]
  (repeat' split) <;> simp [h]

@[simp] theorem endsWithin_execDescSkipRun {s : State} (h : coresIn s.cores) (c eng sub : Nat) :
    EndsWithin (execDescSkipRun c eng sub s) := by
  simp only [execDescSkipRun]
  refine endsWithin_onUnit.2 ⟨fun _ => h, fun _ => ?_⟩
  split
  · simp [h]
  · split
    · simp [h]
    · split
      · refine endsWithin_when.2 ⟨fun _ => h, fun _ => ?_⟩
        split <;> simp [h, coresIn_setCore_popped (key := 0)]
      · split
        · refine endsWithin_when.2 ⟨fun _ => h, fun _ => coresIn_walkDone (coresIn_beginDrain ?_ c) c _ _⟩
          (repeat' split) <;> simp [h, coresIn_setCore_popped (key := 1)]
        · refine endsWithin_when.2 ⟨fun _ => h, fun _ => ?_⟩
          split <;> simp [h, coresIn_setCore_popped (key := queueOfEng eng sub)]

-- The reduction engine (Machine/Red)

@[simp] theorem endsWithin_execRedReduce {s : State} (h : coresIn s.cores) (c : Nat) : EndsWithin (execRedReduce c s) := by
  simp only [execRedReduce]
  (repeat' split) <;> simp [h, coresIn_modCore_popped (key := 2)]

@[simp] theorem endsWithin_execRedResult {s : State} (h : coresIn s.cores) (c : Nat) : EndsWithin (execRedResult c s) := by
  simp only [execRedResult]
  refine endsWithin_onUnit.2 ⟨fun _ => h, fun _ => ?_⟩
  split
  · simp [h]
  · split
    · split
      · simp [h]
      · rw [endsWithin_next, arriveOut_cores]
        exact coresIn_finishProgs (by simp [h]) _ _ _ _
    · simp [h]

-- Transfers and prefetches (Machine/Xfr)

@[simp] theorem coresIn_remoteTimeout {s : State} (h : coresIn s.cores) (c : Nat) (b : List Byte) :
    coresIn (remoteTimeout s c b).cores := by
  simp [h, remoteTimeout]

@[simp] theorem coresIn_remoteDenied {s : State} (h : coresIn s.cores) (c : Nat) (b : List Byte) : coresIn (remoteDenied s c b).cores := by
  simp [h, remoteDenied]

@[simp] theorem openLanding_cores (s : State) (c : Nat) (t : Take) (b : List Byte) : (openLanding s c t b).cores = s.cores := by
  simp [openLanding]

@[simp] theorem coresIn_xfrPost {s : State} (h : coresIn s.cores) (n : Nat) (c id : Nat) : coresIn (xfrPost n s c id).cores := by
  induction n generalizing s with
  | zero => exact h
  | succ n ih =>
    rw [xfrPost]
    split
    · exact h
    · next r _ =>
      dsimp only
      split
      · exact h
      · have hctl : ∀ o : Option Nat, (o.elim s (readyCtl s)).cores = s.cores := fun o => by cases o <;> simp
        generalize pieceCtl r.desc.bytes r.row r.off = ctl
        have hput : ∀ f : Core → Core, (∀ x, (f x).reels = x.reels) → (∀ x, (f x).bars = x.bars) → (∀ x, (f x).queues = x.queues) →
            coresIn (modCore (ctl.elim s (readyCtl s)) c f).cores :=
          fun f hr hb hq => coresIn_modCore_fields ((hctl ctl).symm ▸ h) hr hb hq
        (repeat' split) <;> exact ih (by simp [hput])

@[simp] theorem coresIn_postAll {s : State} (h : coresIn s.cores) : coresIn (postAll s).cores := by
  refine coresIn_foldl (fun t c ht => ?_) _ h
  split
  · exact coresIn_foldl (fun _ _ hu => coresIn_xfrPost hu _ _ _) _ (coresIn_agPostAll ht c)
  · exact ht

@[simp] theorem coresIn_pieceDone {s : State} (h : coresIn s.cores) (c : Nat) (q : Req) : coresIn (pieceDone s c q).cores := by
  simp only [pieceDone]
  split <;> simp [h]

theorem coresIn_of_placePiece {s : State} (hs : coresIn s.cores) {t : State} {b d : List Byte} {q : Req} {kind : Option Nat}
    (h : placePiece s b q kind d = .ok t) :
    coresIn t.cores := by
  simp only [placePiece] at h
  split at h
  · split at h
    · cases h
      exact coresIn_of_writeMem hs ‹_›
    · nomatch h
  · split at h
    · next hw =>
      split at h
      · cases h
        exact coresIn_of_writeMem hs hw
      · split at h
        · next hv =>
          cases h
          exact coresIn_of_writeMem (coresIn_of_writeMem hs hw) hv
        · nomatch h
    · nomatch h

theorem coresIn_of_movePiece {s : State} (hs : coresIn s.cores) {t : State} {c : Nat} {b : List Byte} {q : Req}
    (h : movePiece s c b q = .ok t) :
    coresIn t.cores := by
  simp only [movePiece] at h
  split at h
  · exact coresIn_of_placePiece (by simp [hs]) h
  · nomatch h

theorem coresIn_of_storeFrame {s : State} (hs : coresIn s.cores) {t : State} {b : List Byte} {q : Req} (h : storeFrame s b q = .ok t) :
    coresIn t.cores := by
  simp only [storeFrame] at h
  split at h
  · split at h
    · cases h
      exact coresIn_of_writeMem hs ‹_›
    · nomatch h
  · nomatch h

theorem coresIn_of_loadFrame {s : State} (hs : coresIn s.cores) {t : State} {b : List Byte} {q : Req} (h : loadFrame s b q = .ok t) :
    coresIn t.cores := by
  simp only [loadFrame] at h
  (repeat' split at h) <;> cases h
  exact coresIn_of_writeMem hs ‹_›

@[simp] theorem coresIn_frameFail {s : State} (h : coresIn s.cores) (c a : Nat) : coresIn (frameFail s c a).cores := by simp [h, frameFail]

@[simp] theorem coresIn_xfrReturn {s : State} (h : coresIn s.cores) (c : Nat) (r : XfrRun) (q : Req) :
    coresIn (xfrReturn s c r q).cores := by
  simp only [xfrReturn]
  split
  · split
    · simp [coresIn_of_movePiece h ‹_›]
    · simp [h]
  · split
    · simp [h]
    · split
      · split
        · simp [coresIn_of_loadFrame h ‹_›]
        · simp [h]
        · simp [h]
      · split
        · simp [coresIn_of_storeFrame h ‹_›]
        · simp [h]

@[simp] theorem coresIn_agReturn {s : State} (h : coresIn s.cores) (c : Nat) (g : AgRun) (q : Req) : coresIn (agReturn s c g q).cores := by
  simp only [agReturn]
  split
  · simp [h]
  · split
    · simp [h]
    · exact coresIn_postAll (coresIn_agArrive (by simp [h]) _ _ _ _)

@[simp] theorem endsWithin_execRequestReturn {s : State} (h : coresIn s.cores) (c k : Nat) : EndsWithin (execRequestReturn c k s) := by
  simp only [execRequestReturn]
  (repeat' split) <;> simp [h]

@[simp] theorem askVersion_cores (s : State) (c n : Nat) (d : QDesc) : (askVersion s c n d).cores = s.cores := by simp [askVersion]

/-- A transfer that is taken off its queue. -/
theorem coresIn_setCore_xfrTake {s : State} (h : coresIn s.cores) (c : Nat) (r : XfrRun) :
    coresIn (setCore s c (xfrTake (core s c) r)).cores :=
  coresIn_setCore h (by simp [xfrTake, h]) c

theorem coresIn_setCore_xfrTake_guards {s : State} (h : coresIn s.cores) (c : Nat) (r : XfrRun) (l : List Guard) :
    coresIn (setCore s c { xfrTake (core s c) r with guards := l }).cores :=
  coresIn_setCore h (by simp [xfrTake, h]) c

@[simp] theorem endsWithin_execXfrStart {s : State} (h : coresIn s.cores) (c : Nat) : EndsWithin (execXfrStart c s) := by
  simp only [execXfrStart]
  (repeat' split) <;> simp [h, coresIn_setCore_xfrTake, coresIn_setCore_xfrTake_guards]

@[simp] theorem endsWithin_execXfrSeal {s : State} (h : coresIn s.cores) (c : Nat) : EndsWithin (execXfrSeal c s) := by
  simp only [execXfrSeal]
  (repeat' split) <;> simp [h, coresIn_setCore_xfrTake]

@[simp] theorem endsWithin_execXfrComplete {s : State} (h : coresIn s.cores) (c k : Nat) : EndsWithin (execXfrComplete c k s) := by
  simp only [execXfrComplete]
  split <;> simp [h]

@[simp] theorem endsWithin_execVersionReread {s : State} (h : coresIn s.cores) (c k : Nat) : EndsWithin (execVersionReread c k s) := by
  simp only [execVersionReread]
  (repeat' split) <;> simp [h]

theorem coresIn_of_reread {s : State} (hs : coresIn s.cores) {t : State} {c : Nat} {e : Guard} (h : reread s c e = .ok t) :
    coresIn t.cores := by
  simp only [reread] at h
  split at h
  · split at h
    · cases h
      simp [hs]
    · nomatch h
  · split at h
    · refine foldl_ok (P := fun u => coresIn u.cores) (fun u q v hu hv => ?_) hs h
      split at hv
      · exact coresIn_of_loadFrame hu hv
      · split at hv
        · cases hv
          exact coresIn_of_movePiece hu ‹_›
        · nomatch hv
    · (repeat' split at h) <;> cases h <;> simp [hs]

@[simp] theorem endsWithin_execStaleNotice {s : State} (h : coresIn s.cores) (c mu g : Nat) : EndsWithin (execStaleNotice c mu g s) := by
  simp only [execStaleNotice]
  refine endsWithin_onUnit.2 ⟨fun _ => h, fun _ => ?_⟩
  have hb := (bump_cores s (muBase c mu + 0x30) 1).symm ▸ h
  split
  · simp [h]
  · split
    · simp [h]
    · split
      · split
        · exact (endsWithin_next _).2 (coresIn_xfrPost (by simp [h]) _ _ _)
        · split
          · next hr => exact (endsWithin_next _).2 (coresIn_prefetchIn (by simp [coresIn_of_reread hb hr]) _ _ _ _)
          · simp [h]
          · simp [h]
      · split
        · next hr =>
          have ht := coresIn_of_reread hb hr
          rw [endsWithin_next]
          split
          · exact coresIn_prefetchIn (by simp [ht]) _ _ _ _
          · simp [ht]
        · simp [h]
        · simp [h]

@[simp] theorem coresIn_releaseOne {s : State} (h : coresIn s.cores) (c id : Nat) : coresIn (releaseOne s c id).cores := by
  simp only [releaseOne]
  split
  · simp [h]
  · split
    · simp [h]
    · split
      · exact coresIn_agPostAll (coresIn_takeRead (by simp [h]) _ _ _ _ _) _
      · simp [h]

@[simp] theorem coresIn_releaseDeferred {s : State} (h : coresIn s.cores) (k : Nat) (c mu ctr need : Nat) :
    coresIn (releaseDeferred k s c mu ctr need).cores := by
  induction k generalizing s need with
  | zero => exact h
  | succ k ih =>
    rw [releaseDeferred]
    (repeat' split) <;> simp [h, ih]

/-- What a satisfied waiter changes is not limited. -/
theorem coreLimits_satisfied {x : Core} (h : coreLimits x) (w : Who) : coreLimits (satisfied x w) := by
  unfold satisfied
  split
  · next r =>
    have hr := reelIn_of_stacks (y := { reelOf x r with hold := .free }) rfl rfl (reelIn_reelOf h.1 r)
    exact coreLimits_withReel h hr r
  · next q => exact ⟨h.1, h.2.1, queuesIn_map h.2.2 fun d => if d.id = q then { d with released := true } else d⟩
  · exact coreLimits_of_fields h rfl rfl rfl

@[simp] theorem endsWithin_execBarrierWaitSatisfy {s : State} (h : coresIn s.cores) (c mu ctr : Nat) :
    EndsWithin (execBarrierWaitSatisfy c mu ctr s) := by
  have hb := barIn_barOf (barsIn_core h c) mu ctr
  simp only [execBarrierWaitSatisfy]
  refine endsWithin_onUnit.2 ⟨fun _ => h, fun _ => ?_⟩
  split
  · simp [h]
  · next w t heq =>
    split
    · simp [h]
    · split
      · have hw : barIn { barOf (core s c) mu ctr with count := (barOf (core s c) mu ctr).count - w.n, waiters := t } :=
          ⟨(Nat.sub_le _ _).trans hb.1, (Nat.le_succ _).trans (by simpa [heq] using hb.2)⟩
        have hs := coresIn_consume (coresIn_setCore h (coreLimits_withBar (coreLimits_core h c) hw mu ctr) c) c mu ctr w.n
        exact (endsWithin_next _).2 (coresIn_modCore hs (coreLimits_joinHeads (coreLimits_satisfied (coreLimits_core hs c) _)))
      · simp [h]

-- The crossing fabric and multicast (Machine/Fabric)

@[simp] theorem endsWithin_execPacketFlit {s : State} (h : coresIn s.cores) (k : Nat) : EndsWithin (execPacketFlit k s) := by
  unfold execPacketFlit
  (repeat' split) <;> simp [h]

@[simp] theorem endsWithin_execTimetableSwitch {s : State} (h : coresIn s.cores) : EndsWithin (execTimetableSwitch s) := by
  simp [h, execTimetableSwitch]

/-- Tags handed to a generator's reel leave what is limited alone. -/
theorem coreLimits_of_handReel {circuit k : Nat} {q : Item} {x y : Core} (h : coreLimits x) (hy : handReel circuit q k x = some y) :
    coreLimits y := by
  simp only [handReel] at hy
  (repeat' split at hy) <;> cases hy
  · exact h
  all_goals exact coreLimits_of_fields h rfl rfl rfl

theorem coresIn_of_deliverItem {s : State} (hs : coresIn s.cores) {t : State} {c mu circuit off : Nat} {q : Item}
    (h : deliverItem s c mu circuit off q = some t) : coresIn t.cores := by
  simp only [deliverItem] at h
  split at h
  · split at h
    · cases h
      simp [hs]
    · nomatch h
  · split at h
    · split at h
      · cases h
        simp [hs]
      · nomatch h
    · obtain ⟨y, hy, rfl⟩ := Option.map_eq_some_iff.1 h
      obtain ⟨z, hz, hy⟩ := Option.bind_eq_some_iff.1 hy
      have hy := coreLimits_of_handReel (coreLimits_of_handReel (coreLimits_core hs c) hz) hy
      have ht := coresIn_setCore hs hy c
      split
      · exact ht
      · rwa [sramWrites_cores]

@[simp] theorem wordWent_cores (s : State) (key w : Nat) (d : List Byte) : (wordWent s key w d).cores = s.cores := by simp [wordWent]

@[simp] theorem endsWithin_execCircuitWord {s : State} (h : coresIn s.cores) (slot circuit srcOff dstOff reel : Nat) (gen mark : Bool) :
    EndsWithin (execCircuitWord slot circuit srcOff dstOff reel gen mark s) := by
  simp only [execCircuitWord]
  refine endsWithin_onUnit.2 ⟨fun _ => h, fun _ => ?_⟩
  split
  · simp [h]
  · split
    · simp [h]
    · split
      · simp [h]
      · split
        · exact (endsWithin_next _).2 (by split <;> simp [h])
        · split
          · next ht =>
            refine (endsWithin_next _).2 (foldl_some (P := fun u => coresIn u.cores) (fun e o ho u hu => ?_) (fun _ hs => ?_) ht)
            · split at hu
              · exact coresIn_of_deliverItem (ho _ rfl) hu
              · nomatch hu
            · cases hs
              split <;> simp [h]
          · simp [h]

@[simp] theorem endsWithin_execSteerApply {s : State} (h : coresIn s.cores) (c k : Nat) : EndsWithin (execSteerApply c k s) := by
  have hput : ∀ u, coresIn (setCore s c (withStu (popHead (core s c) (16 + k)) k u)).cores :=
    fun u => coresIn_setCore_popped (key := 16 + k) h (by simp) (by simp) (by simp)
  simp only [execSteerApply]
  (repeat' split) <;> simp [h, hput]

@[simp] theorem emitItem_cores (s : State) (c circuit : Nat) (q : Item) : (emitItem s c circuit q).cores = s.cores := by
  unfold emitItem
  split <;> simp

@[simp] theorem endsWithin_execStuPair {s : State} (h : coresIn s.cores) (c k : Nat) : EndsWithin (execStuPair c k s) := by
  simp only [execStuPair]
  (repeat' split) <;> simp [h]

@[simp] theorem endsWithin_execStuDrainMarker {s : State} (h : coresIn s.cores) (c k : Nat) : EndsWithin (execStuDrainMarker c k s) := by
  simp only [execStuDrainMarker]
  refine (endsWithin_onUnit.2 ⟨fun _ => h, fun _ => ?_⟩)
  (repeat' split) <;> simp [h]

@[simp] theorem endsWithin_execSteerStall {s : State} (h : coresIn s.cores) (c k : Nat) : EndsWithin (execSteerStall c k s) := by
  unfold execSteerStall
  split <;> simp [h]

/-- A credit that a multicast takes leaves the counter within its limits. -/
theorem coreLimits_takeCredit {x : Core} (h : coreLimits x) (mu k : Nat) :
    coreLimits (withBar x mu k { barOf x mu k with count := (barOf x mu k).count - 1 }) :=
  coreLimits_withBar h (barIn_sub (barIn_barOf h.2.1 mu k) 1) mu k

@[simp] theorem coresIn_landTile {s : State} (h : coresIn s.cores) (c id : Nat) (r : Recv) (t : Nat) (d : List Byte) :
    coresIn (landTile s c id r t d).cores := by
  simp only [landTile]
  split
  · exact h
  · rw [sramWrites_cores]
    exact coresIn_modCore h (coreLimits_takeCredit (coreLimits_core h _) _ _)

theorem coresIn_of_fetchDetached {s : State} (hs : coresIn s.cores) {c n : Nat} {m : Mcast} {r : Recv} {t : State × Bool}
    (h : fetchDetached s c m r n = .ok t) : coresIn t.1.cores := by
  simp only [fetchDetached] at h
  split at h
  · cases h
    exact hs
  · next e _ =>
    split at h
    · cases h
      exact hs
    · split at h
      · cases h
        have hw : coresIn (wakeAt s (tileAddr m.desc.bytes n)).cores := by simp [hs]
        refine coresIn_prefetchIn ?_ _ _ _ _
        rw [sramWrites_cores]
        exact coresIn_modCore hw (coreLimits_of_fields (coreLimits_takeCredit (coreLimits_core hw e) r.mu r.credit) rfl rfl rfl)
      · nomatch h

theorem coresIn_of_serveLagging {s : State} (hs : coresIn s.cores) {c : Nat} {rs : List Recv} {m : Mcast} {t : State × Mcast}
    (h : serveLagging c rs m s = .ok t) : coresIn t.1.cores := by
  refine foldl_ok (P := fun u : State × Mcast => coresIn u.1.cores) (fun u e v hu hv => ?_) (s := (s, m)) hs h
  dsimp only at hv
  split at hv
  · cases hv
    exact hu
  · split at hv
    · cases hv
      exact hu
    · split at hv
      · cases hw : fetchDetached u.1 c u.2 e.1 ‹_› with
        | error e =>
          rw [hw] at hv
          nomatch hv
        | ok w =>
          rw [hw] at hv
          cases hv
          exact coresIn_of_fetchDetached hu hw
      · split at hv <;> cases hv
        · exact hu
        · exact coresIn_landTile hu _ _ _ _ _

/-- Steps on a state beside what they gather, that keep the cores within their limits. -/
theorem coresIn_foldl_fst {α β : Type} {f : State × β → α → State × β} (hf : ∀ a x, coresIn a.1.cores → coresIn (f a x).1.cores)
    (l : List α) {a : State × β} (h : coresIn a.1.cores) : coresIn (l.foldl f a).1.cores :=
  List.foldlRecOn l f (motive := fun b => coresIn b.1.cores) h fun b hb x _ => hf b x hb

theorem coresIn_of_sendTile {s : State} (hs : coresIn s.cores) {c : Nat} {rs : List Recv} {m : Mcast} {t : State × Mcast}
    (h : sendTile c rs m s = .ok t) : coresIn t.1.cores := by
  simp only [sendTile] at h
  split at h
  · cases h
    exact hs
  · split at h
    · nomatch h
    · split at h
      · cases h
        refine coresIn_foldl_fst (fun a e ha => ?_) _ (by simp [hs])
        (repeat' split) <;> simp [ha]
      · nomatch h

@[simp] theorem endsWithin_execMcastTileSend {s : State} (h : coresIn s.cores) (c : Nat) : EndsWithin (execMcastTileSend c s) := by
  simp only [execMcastTileSend]
  refine endsWithin_onUnit.2 ⟨fun _ => h, fun _ => ?_⟩
  split
  · simp [h]
  · next m y hy =>
    have hstart : coresIn (setCore s c y).cores := by
      split at hy
      · cases hy
        exact coresIn_setCore h (coreLimits_core h c) c
      · obtain ⟨d, -, hd⟩ := Option.map_eq_some_iff.1 hy
        cases hd
        exact coresIn_setCore_popHead h c 5
    split
    · simp [h]
    · split
      · simp [h]
      · next ht =>
        split at ht
        · next hr =>
          have ht := coresIn_of_sendTile (coresIn_of_serveLagging hstart hr) ht
          rw [endsWithin_next]
          refine coresIn_modCore_fields ?_ (fun _ => rfl) (fun _ => rfl) (fun _ => rfl)
          split <;> simp [ht]
        · nomatch ht

-- The collective engines (Machine/Cen)

@[simp] theorem modStep_cores (s : State) (run n : Nat) (f : StepSt → StepSt) : (modStep s run n f).cores = s.cores := by simp [modStep]

@[simp] theorem cenRepeat_cores (s : State) : (cenRepeat s).cores = s.cores := (rfl)

@[simp] theorem coresIn_addTally {s : State} (h : coresIn s.cores) (r : Run) (l : Nat) (w : Int) : coresIn (addTally s r l w).cores := by
  simp [h, addTally]

@[simp] theorem coresIn_setTouch {s : State} (h : coresIn s.cores) (r : Run) (total : Nat) (on : Bool) (g : Nat) :
    coresIn (setTouch s r total on g).cores := by simp [h, setTouch]

@[simp] theorem coresIn_addVotes {s : State} (h : coresIn s.cores) (r : Run) (total : Nat) (weight : Int) (ws : List (Nat × List Byte)) :
    coresIn (addVotes s r total weight ws).cores :=
  coresIn_foldl (fun _ _ ht => coresIn_foldl (fun _ _ hu => coresIn_addTally hu _ _ _) _ ht) _ h

@[simp] theorem coresIn_touchWrites {s : State} (h : coresIn s.cores) (r : Run) (full : Bool) (total : Nat) (ws : List (Nat × List Byte)) :
    coresIn (touchWrites s r full total ws).cores :=
  coresIn_foldl (fun _ _ ht => coresIn_foldl (fun _ _ hu => coresIn_setTouch hu _ _ _ _) _ ht) _ h

@[simp] theorem coresIn_addWrites {s : State} (h : coresIn s.cores) (r : Run) (x : StepSt) (total weight : Nat) (sgn : Int) (ws : List
    (Nat × List Byte)) :
    coresIn (addWrites s r x total weight sgn ws).cores := by
  simp [h, addWrites]

@[simp] theorem modContrib_cores (s : State) (c : Contrib) (f : Contrib → Contrib) : (modContrib s c f).cores = s.cores := by
  simp [modContrib]

@[simp] theorem dropContrib_cores (s : State) (c : Contrib) : (dropContrib s c).cores = s.cores := by simp [dropContrib]

@[simp] theorem coresIn_removeVotes {s : State} (h : coresIn s.cores) (r : Run) (x : StepSt) (c : Contrib) :
    coresIn (removeVotes s r x c).cores := by
  unfold removeVotes
  split
  · exact h
  · exact coresIn_foldl (fun _ _ ht => coresIn_setTouch ht _ _ _ _) _ (coresIn_addWrites h _ _ _ _ _ _)

@[simp] theorem coresIn_discard {s : State} (h : coresIn s.cores) (c : Contrib) : coresIn (discard s c).cores := by
  unfold discard
  split <;> simp [h]

@[simp] theorem coresIn_countContrib {s : State} (h : coresIn s.cores) (r : Run) (x : StepSt) (c : Contrib) :
    coresIn (countContrib s r x c).cores := by simp [h, countContrib]

@[simp] theorem sendStep_cores (s : State) (r : Run) (x : StepSt) (landing dev : Nat) (window : List Byte) :
    (sendStep s r x landing dev window).cores = s.cores := by
  simp [sendStep]

@[simp] theorem coresIn_lateOpen {s : State} (h : coresIn s.cores) (r : Run) (x : StepSt) : coresIn (lateOpen s r x).cores :=
  coresIn_foldl (fun _ _ ht => by simp [ht]) _ h

@[simp] theorem coresIn_closeOwned {s : State} (h : coresIn s.cores) (r : Run) (x : StepSt) : coresIn (closeOwned s r x).cores := by
  simp [h, closeOwned]

@[simp] theorem coresIn_loseStep {s : State} (h : coresIn s.cores) (x : StepSt) (a : Nat) : coresIn (loseStep s x a).cores := by
  unfold loseStep
  split <;> simp [h]

@[simp] theorem coresIn_closeStep {s : State} (h : coresIn s.cores) (r : Run) (x : StepSt) : coresIn (closeStep s r x).cores := by
  unfold closeStep
  split <;> simp [h]

@[simp] theorem coresIn_tryClose {s : State} (h : coresIn s.cores) (run n : Nat) : coresIn (tryClose s run n).cores := by
  unfold tryClose
  split <;> simp [h]

@[simp] theorem coresIn_addCarry {s : State} (h : coresIn s.cores) (r : Run) (x : StepSt) (c : Carry) :
    coresIn (addCarry s r x c).cores := by
  simp [h, addCarry]

@[simp] theorem coresIn_lateContrib {s : State} (h : coresIn s.cores) (r : Run) (x : StepSt) (c : Contrib) :
    coresIn (lateContrib s r x c).cores := by
  simp only [lateContrib]
  (repeat' split) <;> simp [h]

@[simp] theorem coresIn_sealContrib {s : State} (h : coresIn s.cores) (c : Contrib) : coresIn (sealContrib s c).cores := by
  simp only [sealContrib]
  (repeat' split) <;> simp [h]

@[simp] theorem coresIn_abortContrib {s : State} (h : coresIn s.cores) (c : Contrib) : coresIn (abortContrib s c).cores := by
  simp [h, abortContrib]

@[simp] theorem coresIn_addContrib {s : State} (h : coresIn s.cores) (c : Contrib) (w : Nat × List Byte) :
    coresIn (addContrib s c w).cores := by
  simp only [addContrib]
  (repeat' split) <;> simp [h]

@[simp] theorem coresIn_openStep {s : State} (h : coresIn s.cores) (run n : Nat) : coresIn (openStep s run n).cores := by
  simp only [openStep]
  split
  · split
    · exact h
    · refine coresIn_foldl (fun _ _ ht => by split <;> simp [ht]) _ (coresIn_foldl (fun _ _ ht => by simp [ht]) _ (by simp [h]))
  · exact h

@[simp] theorem coresIn_countLocal {s : State} (h : coresIn s.cores) (run n addr : Nat) : coresIn (countLocal s run n addr).cores := by
  simp only [countLocal]
  (repeat' split) <;> simp [h]

-- The update units (Machine/Upu)

@[simp] theorem spendFree_cores (s : State) (n : Nat) : (spendFree s n).cores = s.cores := (rfl)

@[simp] theorem modUpdate_cores (s : State) (run shard n : Nat) (f : Update → Update) : (modUpdate s run shard n f).cores = s.cores := by
  simp [modUpdate]

theorem cores_of_takeRegion {s t : State} {u : Update} {k g : Nat} (h : takeRegion s u k = some (g, t)) : t.cores = s.cores := by
  obtain ⟨_, -, he⟩ := Option.map_eq_some_iff.1 h
  cases he
  simp

@[simp] theorem coresIn_runUpdate {s : State} (h : coresIn s.cores) (r : Run) (x : StepSt) (u : Update) :
    coresIn (runUpdate s r x u).cores := by
  simp only [runUpdate]
  split
  · simp [h]
  · generalize hgo : List.foldl _ _ _ = a
    have ha : coresIn a.1.cores := by
      rw [← hgo]
      refine coresIn_foldl_fst (fun b i hb => ?_) _ h
      split
      · exact hb
      · split
        · exact hb
        · simp [cores_of_takeRegion ‹_›, hb]
    split
    · simp [ha]
    · split
      · simp [ha]
      · simp [cores_of_takeRegion ‹_›, ha]

@[simp] theorem layerNorms_cores (s : State) (r : Run) (x : StepSt) (layer : Nat) : (layerNorms s r x layer).cores = s.cores := by
  simp [layerNorms]

@[simp] theorem endPoolWait_cores (s : State) (p : Option (Nat × Nat)) : (endPoolWait s p).cores = s.cores := by
  unfold endPoolWait
  (repeat' split) <;> simp

@[simp] theorem coresIn_reserveUpdate {s : State} (h : coresIn s.cores) (u : Update) : coresIn (reserveUpdate s u).cores := by
  unfold reserveUpdate
  split <;> simp [h]

@[simp] theorem coresIn_startUpdate {s : State} (h : coresIn s.cores) (u : Update) : coresIn (startUpdate s u).cores := by
  simp [h, startUpdate]

@[simp] theorem dropSlow_cores (s : State) (u : Update) : (dropSlow s u).cores = s.cores := by simp [dropSlow]

@[simp] theorem endsWithin_execSyncUpdate {s : State} (h : coresIn s.cores) (run shard : Nat) :
    EndsWithin (execSyncUpdate run shard s) := by
  unfold execSyncUpdate
  (repeat' split) <;> simp [h]

@[simp] theorem endsWithin_execSlowUpdate {s : State} (h : coresIn s.cores) (run shard : Nat) :
    EndsWithin (execSlowUpdate run shard s) := by
  unfold execSlowUpdate
  (repeat' split) <;> simp [h]

@[simp] theorem endsWithin_execPoolReservationRetry {s : State} (h : coresIn s.cores) (run shard : Nat) :
    EndsWithin (execPoolReservationRetry run shard s) := by
  unfold execPoolReservationRetry
  (repeat' split) <;> simp [h]

@[simp] theorem endsWithin_execUpdateDone {s : State} (h : coresIn s.cores) (run shard : Nat) :
    EndsWithin (execUpdateDone run shard s) := by
  unfold execUpdateDone
  (repeat' split) <;> simp [h]

@[simp] theorem releaseOld_cores (s : State) : (releaseOld s).cores = s.cores := by simp [releaseOld]

@[simp] theorem coresIn_publishUpdate {s : State} (h : coresIn s.cores) (r : Run) (u : Update) : coresIn (publishUpdate s r u).cores := by
  simp [h, publishUpdate]

-- What an image writes into its placement (Machine/Place)

@[simp] theorem writeS_cores (s : State) (c : Nat) (img : List Byte) (idx : Nat) : (writeS s c img idx).cores = s.cores := by simp [writeS]

@[simp] theorem writeRelocs_cores (s : State) (c : Nat) (img : List Byte) (bufs : List Buf) (idx lcore : Nat) :
    (writeRelocs s c img bufs idx lcore).cores = s.cores :=
  foldl_cores (fun s o => by (repeat' split) <;> simp) _ s

@[simp] theorem initSram_cores (s : State) (c : Nat) (img : List Byte) (bufs : List Buf) (idx lcore : Nat) :
    (initSram s c img bufs idx lcore).cores = s.cores := by
  simp [initSram]

@[simp] theorem clearSram_cores (s : State) (c : Nat) : (clearSram s c).cores = s.cores := (rfl)

@[simp] theorem initWkc_cores (s : State) (x : Slot) : (initWkc s x).cores = s.cores := by simp [initWkc]

theorem coresIn_of_copyRanges {s : State} (hs : coresIn s.cores) {l : List (Nat × Nat × Nat)} {t : State} (h : copyRanges l s = .ok t) :
    coresIn t.cores := by
  induction l generalizing s with
  | nil =>
    cases h
    exact hs
  | cons g l ih =>
    rw [copyRanges] at h
    split at h
    · split at h
      · exact ih (coresIn_of_writeMem hs ‹_›) h
      · nomatch h
    · nomatch h

-- Takes (Machine/Take)

@[simp] theorem endsWithin_execCut {s : State} (h : coresIn s.cores) (q : Issue) (k : Nat) : EndsWithin (execCut q k s) := by
  refine endsWithin_finlenOp h fun t ht => ?_
  have hstep := coresIn_stepPc ht q.core (.cut q k)
  dsimp only
  (repeat' split)
  · simp [ht]
  · simp [ht]
  · exact coresIn_modRunning hstep (reelIn_of_stacks rfl rfl (reelIn_runningReel hstep _))

@[simp] theorem endsWithin_execTend {s : State} (h : coresIn s.cores) (q : Issue) : EndsWithin (execTend q s) := by
  simp only [execTend]
  refine endsWithin_finlenWait h fun _ t hts => ?_
  have ht : coresIn t.cores := hts ▸ h
  have hstep := coresIn_stepPc ht q.core (.tend q)
  (repeat' split)
  · simp [ht]
  · simp [ht]
  · exact coresIn_modRunning hstep (reelIn_of_stacks rfl rfl (reelIn_runningReel hstep _))

@[simp] theorem coresIn_sealTake {s : State} (h : coresIn s.cores) (t : Take) : coresIn (sealTake s t).cores := by
  unfold sealTake
  split
  · simp [h]
  · rw [foldl_cores fun s l => by split <;> simp]
    exact h

@[simp] theorem coresIn_cutCopy {s : State} (h : coresIn s.cores) (t : Take) (e : Entry) (k : Nat) : coresIn (cutCopy s t e k).cores := by
  simp only [cutCopy]
  split
  · simp [h]
  · refine coresIn_sealTake (coresIn_foldl (fun u w hu => ?_) _ (coresIn_of_copyRanges h ‹_›)) t
    simp [hu]

@[simp] theorem coresIn_reachCut {s : State} (h : coresIn s.cores) (c k : Nat) : coresIn (reachCut s c k).cores := by
  simp only [reachCut]
  split
  · split
    · exact h
    · split
      · next hw =>
        have ht := coresIn_of_writeMem h hw
        split <;> simp [ht]
      · simp [coresIn_of_writeMem h ‹_›]
  · exact h

/-- A reel that no longer waits keeps its stacks. -/
theorem coreLimits_hold {x : Core} (h : coreLimits x) (r : Nat) (hold : Hold) :
    coreLimits (withReel x r { reelOf x r with hold := hold }) := by
  have hr := reelIn_of_stacks (y := { reelOf x r with hold := hold }) rfl rfl (reelIn_reelOf h.1 r)
  exact coreLimits_withReel h hr r

@[simp] theorem endsWithin_execCutRecorded {s : State} (h : coresIn s.cores) (st : Nat) : EndsWithin (execCutRecorded st s) := by
  simp only [execCutRecorded]
  split
  · simp [h]
  · split
    · simp [h]
    · split
      · simp [h]
      · refine endsWithin_when.2 ⟨fun _ => h, fun _ => coresIn_foldl (fun t c ht => ?_) _ (by simp [h])⟩
        have ht : ∀ k, coresIn (cput t (csqBase c + 0x40) 15 8 k).cores := fun k => by simp [ht]
        exact coresIn_modCore (ht _) (coreLimits_hold (coreLimits_core (ht _) c) _ _)

@[simp] theorem coresIn_freeCores {s : State} (h : coresIn s.cores) (slot : Nat) : coresIn (freeCores s slot).cores := by
  have hs := coresIn_foldl (f := fun s c => modCore s c fun x => { x with share := .none, take := none }) (fun _ _ ht => by simp [ht])
    (coresOf s slot) h
  simpa [freeCores] using hs

@[simp] theorem coresIn_freeTake {s : State} (h : coresIn s.cores) (t : Take) : coresIn (freeTake s t).cores := by
  refine coresIn_postAll ?_
  rw [releaseOld_cores]
  exact coresIn_restCores (by simp [h]) _

@[simp] theorem coresIn_endFinal {s : State} (h : coresIn s.cores) (t : Take) (f : Nat × Nat × Nat × Nat) :
    coresIn (endFinal s t f).cores := by
  simp [h, endFinal]

@[simp] theorem coresIn_endTake_countStep {s : State} (h : coresIn s.cores) (t : Take) (e : Entry) :
    coresIn (endTake.countStep t s e).cores := by
  unfold endTake.countStep
  split <;> simp [h]

@[simp] theorem coresIn_endTake {s : State} (h : coresIn s.cores) (t : Take) : coresIn (endTake s t).cores := by
  simp only [endTake]
  split <;> simp [h]

@[simp] theorem endsWithin_execFenceRelease {s : State} (h : coresIn s.cores) (c reel : Nat) : EndsWithin (execFenceRelease c reel s) := by
  simp only [execFenceRelease]
  refine endsWithin_onUnit.2 ⟨fun _ => h, fun _ => ?_⟩
  split
  · simp [h]
  · split
    · exact endsWithin_when.2 ⟨fun _ => h, fun _ => coresIn_setCore h (coreLimits_hold (coreLimits_core h c) _ _) c⟩
    · simp [h]
    · refine endsWithin_when.2 ⟨fun _ => h, fun _ => ?_⟩
      (repeat' split) <;> simp [h]
    · simp [h]

@[simp] theorem adoptEpoch_cores (s : State) (x : Option EpochSt) : (adoptEpoch s x).cores = s.cores := by simp [adoptEpoch]

-- What a start of a take puts into a core

theorem leNat_lt (b : List Byte) : leNat b < 256 ^ b.length := by
  induction b with
  | nil => simp [leNat]
  | cons x b ih =>
    have hx : x.toNat < 256 := x.isLt
    rw [leNat, List.length_cons, pow_succ]
    omega

/-- A field of n bytes is below 256 to the n. -/
theorem fld_lt (b : List Byte) (off n : Nat) : fld b off n < 256 ^ n := by
  have hlen : (slice b off n).length = n := by
    simp [slice, zeros]
  have hlt := leNat_lt (slice b off n)
  rwa [hlen] at hlt

theorem fld_two_le (b : List Byte) (off : Nat) : fld b off 2 ≤ 65535 := Nat.le_of_lt_succ (fld_lt b off 2)

theorem fld_one_le (b : List Byte) (off : Nat) : fld b off 1 ≤ 65535 := (Nat.le_of_lt_succ (fld_lt b off 1)).trans (by decide)

/-- A table of barrier counters into which counts of two bytes are put. -/
theorem barsIn_tset_count {t : Tab Bar} (h : barsIn t) (k : Nat) {n : Nat} (hn : n ≤ 65535) : barsIn (tset {} t k { count := n }) :=
  tabIn_tset (P := fun _ => barIn) h ⟨hn, Nat.zero_le _⟩

@[simp] theorem barsIn_initBars (img : List Byte) (idx : Nat) : barsIn (initBars img idx) := by
  unfold initBars
  refine List.foldlRecOn _ _ (motive := barsIn) (List.foldlRecOn _ _ (motive := barsIn) barsIn_nil fun t ht o _ => ?_) fun t ht o _ => ?_
  · exact barsIn_tset_count ht _ (fld_two_le _ _)
  · dsimp only
    split
    · exact ht
    · exact barsIn_tset_count (barsIn_tset_count ht _ (fld_one_le _ _)) _ (Nat.zero_le _)

@[simp] theorem barsIn_cutBars (b : List Byte) : barsIn (cutBars b) :=
  List.foldlRecOn _ _ (motive := barsIn) barsIn_nil fun _ ht _ _ => barsIn_tset_count ht _ (fld_two_le _ _)

theorem reelIn_cutReel (b : List Byte) : reelIn (cutReel b) := ⟨Nat.zero_le _, Nat.zero_le _⟩

/-- A core that starts a take. -/
theorem coreLimits_freshCore (s : State) (c : Nat) (p : Place) (img : List Byte) (tk : Nat × Nat) : coreLimits (freshCore s c p img tk) :=
  ⟨(reelsIn_single _ _).2 ⟨Nat.zero_le _, Nat.zero_le _⟩, barsIn_initBars _ _, queuesIn_nil⟩

@[simp] theorem coresIn_startCore {s : State} (h : coresIn s.cores) (x : Slot) (e : Entry) (tk : Nat × Nat) (cut : Option Nat)
    (ep : Nat) (c : Nat) :
    coresIn (startCore s x e tk cut ep c).cores := by
  simp only [startCore]
  split
  · exact h
  · next p _ =>
    have hfresh := coresIn_setCore (s := initSram s c x.img x.bufs p.index p.lcore) (by simp [h]) (coreLimits_freshCore s c p x.img tk) c
    split
    · simp [hfresh]
    · rw [cset_cores]
      refine coresIn_setCore ?_ ?_ c
      · rw [foldl_cores fun _ _ => cset_cores _ _ _]
        simp [hfresh]
      · simp [reelIn_cutReel, freshCore]

@[simp] theorem coresIn_restoreCut {s : State} (h : coresIn s.cores) (x : Slot) (slot : Nat) (e : Entry) :
    coresIn (restoreCut s x slot e).cores := by
  simp only [restoreCut]
  rw [foldl_cores fun s w => by simp]
  exact coresIn_foldl (fun u w hu => by simp [hu]) _ h

/-- The cores of a placement start. -/
theorem coresIn_startCores {s : State} (h : coresIn s.cores) (x : Slot) (e : Entry) (tk : Nat × Nat) (cut : Option Nat) (ep : Nat)
    (l : List Nat) :
    coresIn (l.foldl (fun s c => startCore s x e tk cut ep c) s).cores :=
  coresIn_foldl (fun _ _ ht => coresIn_startCore ht _ _ _ _ _ _) l h

@[simp] theorem coresIn_beginTake {s : State} (h : coresIn s.cores) (e : Entry) (ep : Option EpochSt) (sx : Option (List
    (Nat × List Byte) × StepSt)) :
    coresIn (beginTake s e ep sx).cores := by
  unfold beginTake
  extract_lets slot x cut tag step epw t s1 s2 beyond s3 intake s4 s5 s6 s7 s8 s9
  have h7 : coresIn s7.cores := by simp [s7, s6, s5, s4, s3, s2, s1, h]
  have h8 : coresIn s8.cores := coresIn_startCores h7 _ _ _ _ _ _
  have h9 : coresIn s9.cores := by
    unfold s9
    split <;> simp [h8]
  clear_value s9 step
  split
  · exact h9
  · exact coresIn_openStep (by simp [h9]) _ _

@[simp] theorem endsWithin_execTakeStart {s : State} (h : coresIn s.cores) (st : Nat) : EndsWithin (execTakeStart st s) := by
  simp only [execTakeStart]
  (repeat' split) <;> simp [h]

@[simp] theorem addHist_cores (s : State) (marks : List Nat) (e : Nat × W32) : (addHist s marks e).cores = s.cores := by simp [addHist]

@[simp] theorem writePub_cores (s : State) (e : Entry) (bufs : List Buf) : (writePub s e bufs).cores = s.cores := by simp [writePub]

@[simp] theorem coresIn_commitTake {s : State} (h : coresIn s.cores) (e : Entry) (t : Take) (status : Nat) (ups : List Update) :
    coresIn (commitTake s e t status ups).cores := by
  unfold commitTake
  extract_lets x bufs cl place s1 s2 s3 net s4 s5
  have h2 : coresIn s2.cores := by simp [s2, s1, h]
  have h3 : coresIn s3.cores := by
    unfold s3
    split
    · next r _ =>
      have hu := coresIn_foldl (f := fun s u => publishUpdate s r u) (fun _ _ ht => coresIn_publishUpdate ht _ _) ups h2
      dsimp only
      split <;> simp [hu]
    · exact h2
  have h5 : coresIn s5.cores := by
    unfold s5 s4
    rw [foldl_cores fun _ _ => addHist_cores _ _ _]
    split <;> exact h3
  refine coresIn_finish ?_ _ _ _
  simp [h5]

@[simp] theorem endsWithin_execCommit {s : State} (h : coresIn s.cores) (st : Nat) : EndsWithin (execCommit st s) := by
  unfold execCommit
  (repeat' split) <;> simp [h]

@[simp] theorem endsWithin_execDeadlinePassed {s : State} (h : coresIn s.cores) (st : Nat) : EndsWithin (execDeadlinePassed st s) := by
  unfold execDeadlinePassed
  split <;> simp [h]

@[simp] theorem endsWithin_execPlacementClear {s : State} (h : coresIn s.cores) (slot : Nat) : EndsWithin (execPlacementClear slot s) := by
  unfold execPlacementClear
  split <;> simp [h]

@[simp] theorem endsWithin_execCompletionRewrite {s : State} (h : coresIn s.cores) (st : Nat) :
    EndsWithin (execCompletionRewrite st s) := by
  simp only [execCompletionRewrite]
  split <;> simp [h]

-- The command intake (Machine/Intake)

@[simp] theorem windowWrite_cores (s : State) (st off : Nat) (d : List Byte) : (windowWrite s st off d).cores = s.cores := by
  simp [windowWrite]

@[simp] theorem noWait_cores (s : State) (n : Nat) : (noWait s n).cores = s.cores := by simp [noWait]

@[simp] theorem coresIn_resumeNow {s : State} (h : coresIn s.cores) (st seq next : Nat) : coresIn (resumeNow s st seq next).cores := by
  simp only [resumeNow]
  split
  · simp [h]
  · refine coresIn_finish ?_ _ _ _
    rw [settle_cores, setStream_cores]
    exact coresIn_foldl (fun _ _ ht => coresIn_finish ht _ _ _) _ h

@[simp] theorem coresIn_takeRecord {s : State} (h : coresIn s.cores) (st : Nat) (b : List Byte) : coresIn (takeRecord s st b).cores := by
  simp [h, takeRecord]

@[simp] theorem coresIn_examine {s : State} (h : coresIn s.cores) (st sl : Nat) : coresIn (examine s st sl).cores := by simp [h, examine]

@[simp] theorem endsWithin_execCommandRecord {s : State} (h : coresIn s.cores) (st sl : Nat) : EndsWithin (execCommandRecord st sl s) := by
  simp [h, execCommandRecord]

@[simp] theorem endsWithin_execWaitingRecordAccept {s : State} (h : coresIn s.cores) (st : Nat) :
    EndsWithin (execWaitingRecordAccept st s) := by
  simp [h, execWaitingRecordAccept]

@[simp] theorem coresIn_tryCloseStream {s : State} (h : coresIn s.cores) (st : Nat) : coresIn (tryCloseStream s st).cores := by
  simp only [tryCloseStream]
  (repeat' split) <;> simp [h]

@[simp] theorem eraseSpent_cores (s : State) : (eraseSpent s).cores = s.cores := by simp [eraseSpent]

@[simp] theorem coresIn_retire {s : State} (h : coresIn s.cores) (st seq : Nat) : coresIn (retire s st seq).cores := by
  unfold retire
  split <;> simp [h]

-- Commands at their turn (Machine/Records)

@[simp] theorem endsWithin_atTurn {s : State} (h : coresIn s.cores) {st cls : Nat} {f : Entry → State} (hf : ∀ e, coresIn (f e).cores) :
    EndsWithin (atTurn s st cls f) := by
  unfold atTurn
  split <;> simp [h, hf]

@[simp] theorem coresIn_done {s : State} (h : coresIn s.cores) (e : Entry) : coresIn (done s e).cores := by simp [h, done]

@[simp] theorem coresIn_conflict {s : State} (h : coresIn s.cores) (e : Entry) (reason : Nat) : coresIn (conflict s e reason).cores := by
  simp [h, conflict]

@[simp] theorem coresIn_wakeSlot {s : State} (h : coresIn s.cores) (slot : Nat) : coresIn (wakeSlot s slot).cores :=
  coresIn_foldl (fun _ _ ht => coresIn_modCore_fields ht (fun x => by unfold wakeCore; split <;> rfl) (fun x => by unfold wakeCore; split <;> rfl)
    fun x => by unfold wakeCore; split <;> rfl) _ h

@[simp] theorem beginExit_cores (s : State) (k : Nat) : (beginExit s k).cores = s.cores := by simp [beginExit]

@[simp] theorem coresIn_wakeFor {s : State} (h : coresIn s.cores) (e : Entry) : coresIn (wakeFor s e).cores := by simp [h, wakeFor]

@[simp] theorem coresIn_headMoment {s : State} (h : coresIn s.cores) (e : Entry) : coresIn (headMoment s e).cores := by
  simp only [headMoment]
  (repeat' split) <;> simp [h]

@[simp] theorem coresIn_headOnce {s : State} (h : coresIn s.cores) (e : Entry) : coresIn (headOnce s e).cores := by simp [h, headOnce]

@[simp] theorem endsWithin_execRun {s : State} (h : coresIn s.cores) (st : Nat) : EndsWithin (execRun st s) := by simp [h, execRun]

@[simp] theorem endsWithin_execStepCmd {s : State} (h : coresIn s.cores) (st : Nat) : EndsWithin (execStepCmd st s) := by
  simp [h, execStepCmd]

@[simp] theorem endsWithin_execResume {s : State} (h : coresIn s.cores) (st : Nat) : EndsWithin (execResume st s) := by simp [h, execResume]

@[simp] theorem endsWithin_execMark {s : State} (h : coresIn s.cores) (st : Nat) : EndsWithin (execMark st s) := by simp [h, execMark]

@[simp] theorem journaledOutcomes_cores (s : State) (st : Nat) : (journaledOutcomes s st).cores = s.cores := by simp [journaledOutcomes]

@[simp] theorem rewriteAll_cores (s : State) (st old : Nat) : (rewriteAll s st old).cores = s.cores := by simp [rewriteAll]

@[simp] theorem coresIn_openTarget {s : State} (h : coresIn s.cores) (e : Entry) : coresIn (openTarget s e).cores := by simp [h, openTarget]

@[simp] theorem endsWithin_execOpenStream {s : State} (h : coresIn s.cores) (st : Nat) : EndsWithin (execOpenStream st s) := by
  simp [h, execOpenStream]

@[simp] theorem coresIn_closeTarget {s : State} (h : coresIn s.cores) (e : Entry) : coresIn (closeTarget s e).cores := by
  simp only [closeTarget]
  split
  · simp [h]
  · split
    · exact h
    · refine coresIn_tryCloseStream (coresIn_foldl (fun _ _ ht => coresIn_finish ht _ _ _) _ ?_) _
      simp [h]

@[simp] theorem endsWithin_execCloseStream {s : State} (h : coresIn s.cores) (st : Nat) : EndsWithin (execCloseStream st s) := by
  simp [h, execCloseStream]

-- Circuits and the timetable (Machine/Route)

@[simp] theorem writeBank_cores (s : State) (t : Table) (len : Nat) : (writeBank s t len).cores = s.cores := by simp [writeBank]

-- The loader (Machine/Loader)

@[simp] theorem unbindWkcs_cores (s : State) (n : Nat) : (unbindWkcs s n).cores = s.cores := by simp [unbindWkcs]

theorem cores_of_bindIn {s : State} {n lo size : Nat} {t : State × Nat} (h : bindIn s n lo size = some t) : t.1.cores = s.cores := by
  obtain ⟨_, -, rfl⟩ := Option.map_eq_some_iff.1 h
  simp

theorem cores_of_bindWkcs {s : State} {n r : Nat} {img : List Byte} {t : State × List (Nat × Nat × Nat)} (h : bindWkcs s n img r = some t) :
    t.1.cores = s.cores := by
  have bind {o : Option (State × List (Nat × Nat × Nat))} {lo size w k} (ho : ∀ u, o = some u → u.1.cores = s.cores) (u)
      (hu : (o.bind fun a => (bindIn a.1 n lo size).map fun q => (q.1, a.2 ++ [(w, k, q.2)])) = some u) : u.1.cores = s.cores := by
    obtain ⟨a, ha, hq⟩ := Option.bind_eq_some_iff.1 hu
    obtain ⟨q, hb, rfl⟩ := Option.map_eq_some_iff.1 hq
    exact (cores_of_bindIn hb).trans (ho a ha)
  refine foldl_some (P := fun u => u.1.cores = s.cores) (fun o acc hacc u hu => ?_) (fun _ hs => by cases hs; rfl) h
  dsimp only at hu
  split at hu
  · exact bind hacc u hu
  · exact foldl_some (P := fun u => u.1.cores = s.cores) (fun _ _ hb => bind hb) hacc hu

@[simp] theorem coresIn_placeCore {s : State} (h : coresIn s.cores) (n : Nat) (x : Slot) (idx : Nat) :
    coresIn (placeCore s n x idx).cores := by
  simp only [placeCore]
  split <;> simp [h]

@[simp] theorem coresIn_offCore {s : State} (h : coresIn s.cores) (c : Nat) : coresIn (offCore s c).cores := by
  rw [offCore, clearSram_cores]
  exact coresIn_setCore h (coreLimits_of reelsIn_nil barsIn_nil queuesIn_nil) c

@[simp] theorem coresIn_unplace {s : State} (h : coresIn s.cores) (n : Nat) : coresIn (unplace s n).cores :=
  coresIn_foldl (fun _ _ ht => coresIn_offCore ht _) _ h

@[simp] theorem reboundAll_cores (s : State) (t : Table) (len : Nat) : (reboundAll s t len).cores = s.cores := by simp [reboundAll]

@[simp] theorem renewBounds_cores (s : State) (n : Nat) (t : Table) (len : Nat) : (renewBounds s n t len).cores = s.cores := by
  simp [renewBounds]

@[simp] theorem dropWait_cores (s : State) (w : LoadWait) : (dropWait s w).cores = s.cores := (rfl)

@[simp] theorem noteForLen_cores (s : State) (w : LoadWait) : (noteForLen s w).cores = s.cores := (rfl)

@[simp] theorem coresIn_emptySlot {s : State} (h : coresIn s.cores) (n : Nat) : coresIn (emptySlot s n).cores := by simp [h, emptySlot]

@[simp] theorem endsWithin_execUnload {s : State} (h : coresIn s.cores) (st : Nat) : EndsWithin (execUnload st s) :=
  endsWithin_atTurn h fun e => by (repeat' split) <;> simp [h]

@[simp] theorem coresIn_endWaiters {s : State} (h : coresIn s.cores) (n reason : Nat) : coresIn (endWaiters s n reason).cores :=
  coresIn_foldl (fun _ _ ht => coresIn_killAndEnd ht _ _ _) _ h

theorem coresIn_of_settleImage {s : State} (hs : coresIn s.cores) {t : State} {n : Nat} {x : Slot} (h : settleImage s n x = .placed t) :
    coresIn t.cores := by
  simp only [settleImage] at h
  split at h
  · nomatch h
  · cases h
    rw [writeBank_cores]
    exact coresIn_foldl (fun _ _ ht => coresIn_placeCore ht _ _ _) _ (by simp [hs])

theorem coresIn_of_fitLoad {s : State} (hs : coresIn s.cores) {t : State} {n : Nat} {img : List Byte} (h : fitLoad s n img = .placed t) :
    coresIn t.cores := by
  simp only [fitLoad] at h
  split at h
  · nomatch h
  · split at h
    · nomatch h
    · split at h
      · nomatch h
      · next hw =>
        split at h
        · nomatch h
        · exact coresIn_of_settleImage (cores_of_bindWkcs hw ▸ hs) h

theorem coresIn_of_fitMoving {s : State} (hs : coresIn s.cores) {t : State} {n : Nat} (h : fitMoving s n = .placed t) :
    coresIn t.cores := by
  simp only [fitMoving] at h
  split at h
  · nomatch h
  · split at h
    · nomatch h
    · split at h
      · nomatch h
      · next hw =>
        have hw := (cores_of_bindWkcs hw).trans (unbindWkcs_cores s n)
        exact coresIn_of_settleImage (hw ▸ hs) h

@[simp] theorem coresIn_tryMoving {s : State} (h : coresIn s.cores) (n : Nat) : coresIn (tryMoving s n).cores := by
  unfold tryMoving
  split
  · simp [coresIn_of_fitMoving h ‹_›]
  · exact h
  · simp [h]
  · simp [h]

@[simp] theorem coresIn_endLoad {s : State} (h : coresIn s.cores) (e : Entry) (report : List Byte) (c : CInfo) :
    coresIn (endLoad s e report c).cores := by simp [h, endLoad]

@[simp] theorem coresIn_failLoad {s : State} (h : coresIn s.cores) (e : Entry) (c : CInfo) : coresIn (failLoad s e c).cores := by
  simp [h, failLoad]

@[simp] theorem coresIn_rejectLoad {s : State} (h : coresIn s.cores) (e : Entry) (f : ImgFail) : coresIn (rejectLoad s e f).cores := by
  simp [h, rejectLoad]

@[simp] theorem coresIn_doneLoad {s : State} (h : coresIn s.cores) (e : Entry) (n : Nat) : coresIn (doneLoad s e n).cores := by
  simp [h, doneLoad]

@[simp] theorem waitLoad_cores (s : State) (e : Entry) (n reason : Nat) (img : List Byte) :
    (waitLoad s e n reason img).cores = s.cores := by
  simp [waitLoad]

@[simp] theorem coresIn_tryLoad {s : State} (h : coresIn s.cores) (e : Entry) (kept : Nat) (img : List Byte) :
    coresIn (tryLoad s e kept img).cores := by
  unfold tryLoad
  split
  · simp [h]
  · split
    · simp [h]
    · simp [h]
    · simp [h]
    · simp [coresIn_of_fitLoad h ‹_›]

@[simp] theorem coresIn_startLoad {s : State} (h : coresIn s.cores) (e : Entry) : coresIn (startLoad s e).cores := by
  simp only [startLoad]
  (repeat' split) <;> simp [h]

@[simp] theorem endsWithin_execLoad {s : State} (h : coresIn s.cores) (st : Nat) : EndsWithin (execLoad st s) := by simp [h, execLoad]

@[simp] theorem takeTurn_cores (s : State) (w : LoadWait) : (takeTurn s w).cores = s.cores := (rfl)

@[simp] theorem endsWithin_execLoadRetry {s : State} (h : coresIn s.cores) (k : Nat) : EndsWithin (execLoadRetry k s) := by
  simp only [execLoadRetry]
  (repeat' split) <;> simp [h]

@[simp] theorem coresIn_refence {s : State} (h : coresIn s.cores) (n lcore : Nat) : coresIn (refence s n lcore).cores := by
  simp only [refence]
  split
  · next u hu =>
    split at hu
    · nomatch hu
    · obtain ⟨t, -, rfl⟩ := Option.map_eq_some_iff.1 hu
      simp [h]
  · simp [h]

-- Queue pairs and zones (Machine/Qp)

@[simp] theorem coresIn_putZone {s : State} (h : coresIn s.cores) (e : KeyEnt) (z : List Byte) : coresIn (putZone s e z).cores := by
  unfold putZone
  split <;> simp [h]

@[simp] theorem coresIn_abortZone {s : State} (h : coresIn s.cores) (e : KeyEnt) : coresIn (abortZone s e).cores := by
  simp only [abortZone]
  split
  · exact h
  · split
    · split
      · exact coresIn_foldl (fun _ _ ht => by simp [ht]) _ h
      · exact h
    · (repeat' split) <;> simp [h]

@[simp] theorem coresIn_abortZones {s : State} (h : coresIn s.cores) (q : Nat) : coresIn (abortZones s q).cores :=
  coresIn_foldl (fun _ _ ht => by split <;> simp [ht]) _ h

@[simp] theorem drainQp_cores (s : State) (q : Nat) : (drainQp s q).cores = s.cores := by simp [drainQp]

@[simp] theorem resend_cores (s : State) (q : Nat) : (resend s q).cores = s.cores := by simp [resend]

@[simp] theorem goBack_cores (s : State) (q : Nat) : (goBack s q).cores = s.cores := by simp [goBack]

@[simp] theorem moveQp_cores (s : State) (q : Nat) : (moveQp s q).cores = s.cores := by simp [moveQp]

@[simp] theorem migrateQp_cores (s : State) (q : Nat) : (migrateQp s q).cores = s.cores := by simp [migrateQp]

@[simp] theorem portFall_cores (s : State) (p : Nat) : (portFall s p).cores = s.cores := by simp [portFall]

@[simp] theorem holdPort_cores (s : State) (p : Nat) : (holdPort s p).cores = s.cores := by simp [holdPort]

@[simp] theorem dueReinits_cores (s : State) : (dueReinits s).cores = s.cores := by simp [dueReinits]

@[simp] theorem coresIn_landingFail {s : State} (h : coresIn s.cores) (st seq landing q : Nat) (denied : Bool) :
    coresIn (landingFail s st seq landing q denied).cores := by
  unfold landingFail
  split <;> simp [h]

@[simp] theorem coresIn_failMsg {s : State} (h : coresIn s.cores) (q : Nat) (denied : Bool) (m : Msg) :
    coresIn (failMsg s q denied m).cores := by
  unfold failMsg
  (repeat' split) <;> simp [h]

@[simp] theorem coresIn_downQp {s : State} (h : coresIn s.cores) (q : Nat) (dest : QpState) (denied : Option Nat) :
    coresIn (downQp s q dest denied).cores := by
  unfold downQp
  rw [dueReinits_cores, flushOutbox_cores]
  refine coresIn_abortZones (coresIn_foldl (fun _ _ ht => coresIn_failMsg ht _ _ _) _ ?_) q
  simp [h]

@[simp] theorem coresIn_errorQp {s : State} (h : coresIn s.cores) (q : Nat) (denied : Option Nat) : coresIn (errorQp s q denied).cores := by
  simp [h, errorQp]

@[simp] theorem answer_cores (s : State) (q : Nat) (m : Msg) : (answer s q m).cores = s.cores := by simp [answer]

@[simp] theorem sendAck_cores (s : State) (q psn : Nat) : (sendAck s q psn).cores = s.cores := by simp [sendAck]

@[simp] theorem coresIn_sendNak {s : State} (h : coresIn s.cores) (q psn code : Nat) : coresIn (sendNak s q psn code).cores := by
  simp [h, sendNak]

-- POOL and the network operations of MANIFEST (Machine/NetCmd)

@[simp] theorem endsWithin_opTurn {s : State} (h : coresIn s.cores) {st cls op : Nat} {f : Entry → State} (hf : ∀ e, coresIn (f e).cores) :
    EndsWithin (opTurn s st cls op f) :=
  endsWithin_atTurn h fun e => by split <;> simp [h, hf]

theorem coresIn_of_allOrNone {α : Type} {f : State → α → Option State} (hf : ∀ s a t, coresIn s.cores → f s a = some t → coresIn t.cores)
    {l : List α} {s t : State} (hs : coresIn s.cores) (h : allOrNone f s l = some t) : coresIn t.cores := by
  induction l generalizing s with
  | nil =>
    cases h
    exact hs
  | cons a l ih =>
    obtain ⟨u, hu, ht⟩ := Option.bind_eq_some_iff.1 h
    exact ih (hf _ _ _ hs hu) ht

theorem coresIn_doneOr {s : State} (h : coresIn s.cores) {t : Option State} (ht : ∀ u, t = some u → coresIn u.cores) (e : Entry)
    (reason : Nat) :
    coresIn (doneOr s e reason t).cores := by
  cases t with
  | none => simp [h, doneOr]
  | some u => simp [doneOr, ht]

theorem cores_of_giveRegion {s t : State} {g : Nat} (h : giveRegion s g = some t) : t.cores = s.cores := by
  unfold giveRegion at h
  split at h
  · cases h
    simp
  · nomatch h

theorem cores_of_takeBackRegion {s t : State} {g : Nat} (h : takeBackRegion s g = some t) : t.cores = s.cores := by
  unfold takeBackRegion at h
  split at h
  · split at h
    · cases h
      simp
    · nomatch h
  · nomatch h

@[simp] theorem endsWithin_execGive {s : State} (h : coresIn s.cores) (st : Nat) : EndsWithin (execGive st s) :=
  endsWithin_opTurn h fun e => coresIn_doneOr h (fun _ => coresIn_of_allOrNone (fun _ _ _ hs ht => cores_of_giveRegion ht ▸ hs) h) e _

@[simp] theorem endsWithin_execTakeBack {s : State} (h : coresIn s.cores) (st : Nat) : EndsWithin (execTakeBack st s) :=
  endsWithin_opTurn h fun e => coresIn_doneOr h (fun _ => coresIn_of_allOrNone (fun _ _ _ hs ht => cores_of_takeBackRegion ht ▸ hs) h) e _

theorem coresIn_of_adoptRun {s : State} (hs : coresIn s.cores) {t : State} {a : Nat} (h : adoptRun s a = some t) : coresIn t.cores := by
  simp only [adoptRun] at h
  (repeat' split at h) <;> cases h
  simp [hs]

@[simp] theorem endsWithin_execAdopt {s : State} (h : coresIn s.cores) (st : Nat) : EndsWithin (execAdopt st s) :=
  endsWithin_opTurn h fun e => by
    split
    · simp [h]
    · simp [h, coresIn_of_adoptRun h ‹_›]

@[simp] theorem releaseRun_cores (s : State) (r : Run) : (releaseRun s r).cores = s.cores := by simp [releaseRun]

@[simp] theorem endsWithin_execRelease {s : State} (h : coresIn s.cores) (st : Nat) : EndsWithin (execRelease st s) :=
  endsWithin_opTurn h fun e => by split <;> simp [h]

@[simp] theorem setQpair_cores (s : State) (b : List Byte) : (setQpair s b).cores = s.cores := by simp [setQpair]

theorem coresIn_of_qpsetEntry {s : State} (hs : coresIn s.cores) {t : State} {b : List Byte} (h : qpsetEntry s b = some t) :
    coresIn t.cores := by
  simp only [qpsetEntry] at h
  (repeat' split at h) <;> cases h <;> simp [hs]

@[simp] theorem coresIn_qpsetWhole {s : State} (h : coresIn s.cores) (e : Entry) : coresIn (qpsetWhole s e).cores :=
  coresIn_doneOr h (fun _ => coresIn_of_allOrNone (fun _ _ _ hs ht => coresIn_of_qpsetEntry hs ht) h) e _

@[simp] theorem endsWithin_execQpsetSet {s : State} (h : coresIn s.cores) (st : Nat) : EndsWithin (execQpsetSet st s) := by
  simp [h, execQpsetSet]

@[simp] theorem endsWithin_execQpsetReset {s : State} (h : coresIn s.cores) (st : Nat) : EndsWithin (execQpsetReset st s) := by
  simp [h, execQpsetReset]

@[simp] theorem coresIn_setKey {s : State} (h : coresIn s.cores) (k : Nat) (e : KeyEnt) : coresIn (setKey s k e).cores := by
  simp [h, setKey]

theorem coresIn_of_keysetEntry {s : State} (hs : coresIn s.cores) {t : State} {b : List Byte} (h : keysetEntry s b = some t) :
    coresIn t.cores := by
  simp only [keysetEntry] at h
  (repeat' split at h) <;> cases h <;> simp [hs]

@[simp] theorem coresIn_keysetWhole {s : State} (h : coresIn s.cores) (e : Entry) : coresIn (keysetWhole s e).cores :=
  coresIn_doneOr h (fun _ => coresIn_of_allOrNone (fun _ _ _ hs ht => coresIn_of_keysetEntry hs ht) h) e _

@[simp] theorem endsWithin_execKeyset {s : State} (h : coresIn s.cores) (st : Nat) : EndsWithin (execKeyset st s) := by simp [h, execKeyset]

@[simp] theorem endsWithin_execKeyRevoke {s : State} (h : coresIn s.cores) (st : Nat) : EndsWithin (execKeyRevoke st s) := by
  simp [h, execKeyRevoke]

@[simp] theorem endsWithin_execEpoch {s : State} (h : coresIn s.cores) (st : Nat) : EndsWithin (execEpoch st s) :=
  endsWithin_opTurn h fun e => coresIn_doneOr h (fun u hu => by split at hu <;> cases hu; exact h) e _

@[simp] theorem wipeSak_cores (s : State) (e : Entry) : (wipeSak s e).cores = s.cores := by simp [wipeSak]

theorem cores_of_saEntry {s t : State} {b : List Byte} (h : saEntry s b = some t) : t.cores = s.cores := by
  simp only [saEntry] at h
  (repeat' split at h) <;> cases h <;> simp

@[simp] theorem endsWithin_execSa {s : State} (h : coresIn s.cores) (st : Nat) : EndsWithin (execSa st s) :=
  endsWithin_opTurn h fun e => by
    split
    · next ht => simp [coresIn_of_allOrNone (fun _ _ _ hs ht => cores_of_saEntry ht ▸ hs) h ht]
    · simp [h]

-- Firmware, attestation and identity (Machine/Sec)

@[simp] theorem noteSlot_cores (s : State) (slot : Nat) : (noteSlot s slot).cores = s.cores := by simp [noteSlot]

@[simp] theorem coresIn_onStream0 {s : State} (h : coresIn s.cores) {t : State} (ht : coresIn t.cores) (e : Entry) :
    coresIn (onStream0 s e t).cores := by
  simp [h, onStream0, ht]

@[simp] theorem coresIn_imageConflict {s : State} (h : coresIn s.cores) (e : Entry) (n : Nat) : coresIn (imageConflict s e n).cores := by
  simp [h, imageConflict]

@[simp] theorem coresIn_fwWrite {s : State} (h : coresIn s.cores) (e : Entry) (flashOk : Bool) : coresIn (fwWrite s e flashOk).cores := by
  simp only [fwWrite]
  (repeat' split) <;> simp [h]

@[simp] theorem endsWithin_execFwWrite {s : State} (h : coresIn s.cores) (st : Nat) (flashOk : Bool) :
    EndsWithin (execFwWrite st flashOk s) :=
  endsWithin_opTurn h fun _ => coresIn_onStream0 h (coresIn_fwWrite h _ _) _

@[simp] theorem coresIn_fwActivate {s : State} (h : coresIn s.cores) (e : Entry) (flashOk : Bool) :
    coresIn (fwActivate s e flashOk).cores := by
  simp only [fwActivate]
  (repeat' split) <;> simp [h]

@[simp] theorem endsWithin_execFwActivate {s : State} (h : coresIn s.cores) (st : Nat) (flashOk : Bool) :
    EndsWithin (execFwActivate st flashOk s) :=
  endsWithin_opTurn h fun _ => coresIn_onStream0 h (coresIn_fwActivate h _ _) _

@[simp] theorem restLeaves_cores (s : State) : (restLeaves s).cores = s.cores := by rw [restLeaves]

@[simp] theorem reserveBlock_cores (s : State) (b : Nat) : (reserveBlock s b).cores = s.cores := by simp [reserveBlock]

@[simp] theorem coresIn_attestSign {s : State} (h : coresIn s.cores) (e : Entry) : coresIn (attestSign s e).cores := by simp [h, attestSign]

@[simp] theorem coresIn_attest {s : State} (h : coresIn s.cores) (e : Entry) (flashOk : Bool) : coresIn (attest s e flashOk).cores := by
  unfold attest
  (repeat' split) <;> simp [h]

@[simp] theorem endsWithin_execAttest {s : State} (h : coresIn s.cores) (st : Nat) (flashOk : Bool) :
    EndsWithin (execAttest st flashOk s) := by
  simp [h, execAttest]

@[simp] theorem coresIn_idset {s : State} (h : coresIn s.cores) (e : Entry) (flashOk : Bool) : coresIn (idset s e flashOk).cores := by
  simp [h, idset]

@[simp] theorem endsWithin_execIdset {s : State} (h : coresIn s.cores) (st : Nat) (flashOk : Bool) : EndsWithin (execIdset st flashOk s) :=
  endsWithin_opTurn h fun _ => coresIn_onStream0 h (coresIn_idset h _ _) _

@[simp] theorem blowFuses_cores (s : State) (slot : Nat) : (blowFuses s slot).cores = s.cores := by simp [blowFuses]

@[simp] theorem noteOther_cores (s : State) (slot : Nat) : (noteOther s slot).cores = s.cores := by simp [noteOther]

@[simp] theorem noteDigest_cores (s : State) (slot : Nat) : (noteDigest s slot).cores = s.cores := by simp [noteDigest]

@[simp] theorem bootFrom_cores (s : State) (slot : Nat) : (bootFrom s slot).cores = s.cores := by simp [bootFrom]

-- The dailies, and how freezes, halts and warm resets begin (Machine/Dailies)

@[simp] theorem freeBytes_cores (s : State) (n : Nat) : (freeBytes s n).2.cores = s.cores := by simp [freeBytes]

@[simp] theorem freeLen_cores (s : State) (bound : Nat) : (freeLen s bound).2.cores = s.cores := by simp [freeLen]

@[simp] theorem moveDailies_cores (s : State) (v : W64) : (moveDailies s v).cores = s.cores := by simp [moveDailies]

@[simp] theorem queueSect_cores (s : State) (c key depth : Nat) : (queueSect s c key depth).2.cores = s.cores := by simp [queueSect]

theorem joinSects_cores {l : List (State → List Byte × State)} (hl : ∀ f ∈ l, ∀ s, (f s).2.cores = s.cores) (s : State) :
    (joinSects l s).2.cores = s.cores := by
  induction l generalizing s with
  | nil => rfl
  | cons f t ih =>
    have ht := fun s => ih (fun g hg => hl g (.tail _ hg)) s
    simp [joinSects, ht, hl f]

@[simp] theorem csqSect_cores (s : State) (c : Nat) : (csqSect s c).2.cores = s.cores := by
  simp only [csqSect]
  rw [joinSects_cores fun f hf s => ?_]
  obtain ⟨e, -, rfl⟩ := List.mem_map.1 hf
  exact queueSect_cores ..

@[simp] theorem mxeSetSect_cores (c set : Nat) (s : State) : (mxeSetSect c set s).2.cores = s.cores := by
  unfold mxeSetSect
  split <;> simp

@[simp] theorem mxeSect_cores (s : State) (c : Nat) : (mxeSect s c).2.cores = s.cores :=
  joinSects_cores (by simp) s

@[simp] theorem redSect_cores (s : State) (c : Nat) : (redSect s c).2.cores = s.cores :=
  joinSects_cores (by simp) s

@[simp] theorem vceSect_cores (s : State) (c : Nat) : (vceSect s c).2.cores = s.cores :=
  joinSects_cores (by simp) s

@[simp] theorem muSect_cores (s : State) (c m : Nat) : (muSect s c m).2.cores = s.cores := by
  refine joinSects_cores (fun f hf s => ?_) s
  simp only [List.mem_append, List.mem_cons, List.mem_map, List.not_mem_nil, or_false] at hf
  obtain ((rfl | rfl | rfl | rfl) | ⟨i, -, rfl⟩) | rfl := hf
  case inl.inr => dsimp only; split <;> simp
  all_goals simp

@[simp] theorem routerSect_cores (s : State) (c : Nat) : (routerSect s c).2.cores = s.cores := by simp [routerSect]

/-- Steps, each of the list, on a state beside what they gather. -/
theorem foldl_snd_cores {α β : Type} {l : List α} {f : β × State → α → β × State} (h : ∀ x ∈ l, ∀ a, (f a x).2.cores = a.2.cores)
    (a : β × State) : (l.foldl f a).2.cores = a.2.cores :=
  List.foldlRecOn l f (motive := fun b => b.2.cores = a.2.cores) rfl fun b hb x hx => (h x hx b).trans hb

@[simp] theorem coreSects_cores (scope c : Nat) (bad : List Nat) (s : State) : (coreSects scope c bad s).2.cores = s.cores := by
  refine foldl_snd_cores (fun f hf a => ?_) _
  simp only [List.mem_append, List.mem_cons, List.mem_map, List.not_mem_nil, or_false] at hf
  obtain (((rfl | rfl | rfl | rfl) | ⟨m, -, rfl⟩) | hf) | rfl := hf
  case inl.inr =>
    split at hf
    · obtain ⟨m, -, rfl⟩ := List.mem_map.1 hf
      rfl
    · nomatch hf
  all_goals simp

@[simp] theorem dieSect_cores (s : State) (d : Nat) : (dieSect s d).2.cores = s.cores := by simp [dieSect]

@[simp] theorem hubSect_cores (s : State) (h : Nat) : (hubSect s h).2.cores = s.cores := by
  unfold hubSect
  split <;> simp

@[simp] theorem allSects_cores (s : State) (scope : Nat) (bad : List Nat) : (allSects s scope bad).2.cores = s.cores := by
  simp only [allSects]
  split
  · rfl
  · refine foldl_snd_cores (fun f hf a => ?_) _
    simp only [List.mem_append, List.mem_flatMap, List.mem_cons, List.mem_map] at hf
    obtain ⟨h, -, rfl⟩ | ⟨d, -, rfl | ⟨p, -, rfl⟩⟩ := hf
    · simp
    · simp
    · dsimp only
      split <;> simp

@[simp] theorem coresIn_putHeader {s : State} (h : coresIn s.cores) (status nsect bytes : Nat) :
    coresIn (putHeader s status nsect bytes).cores := by simp [h, putHeader]

@[simp] theorem coresIn_openHeader {s : State} (h : coresIn s.cores) (status : Nat) : coresIn (openHeader s status).cores := by
  simp [h, openHeader]

@[simp] theorem coresIn_placeSects (base len : Nat) (l : List Sect) {a : State × Nat × List Byte × Nat × Bool} (h : coresIn a.1.cores) :
    coresIn (placeSects base len l a).1.cores := by
  induction l generalizing a with
  | nil => exact h
  | cons x t ih =>
    rw [placeSects]
    refine ih ?_
    split <;> simp [h]

@[simp] theorem coresIn_readOut {s : State} (h : coresIn s.cores) (bad : List Nat) : coresIn (readOut s bad).cores := by
  simp only [readOut]
  split
  · exact h
  · rw [cput_cores]
    refine coresIn_putHeader ?_ _ _ _
    have hw := coresIn_placeSects (areaBase (cget s dailiesReg)) (areaLen (cget s dailiesReg)) (allSects s s.drl.frzScope bad).1
      (a := ((allSects s s.drl.frzScope bad).2, page (4096 + 32 * (allSects s s.drl.frzScope bad).1.length), [], 0, false)) (by simp [h])
    split
    · exact hw
    · simp [hw]

@[simp] theorem sleepMemories_cores (s : State) : (sleepMemories s).cores = s.cores := by simp [sleepMemories]

@[simp] theorem wakeMemories_cores (s : State) : (wakeMemories s).cores = s.cores := by simp [wakeMemories]

@[simp] theorem wakeArea_cores (s : State) : (wakeArea s).cores = s.cores := by simp [wakeArea]

@[simp] theorem sleepArea_cores (s : State) : (sleepArea s).cores = s.cores := by simp [sleepArea]

@[simp] theorem coresIn_wakeNapped {s : State} (h : coresIn s.cores) : coresIn (wakeNapped s).cores := by
  simp only [wakeNapped]
  rw [bump_cores]
  exact coresIn_foldl (fun _ _ ht => by simp [ht]) _ h

@[simp] theorem coresIn_napAgain {s : State} (h : coresIn s.cores) : coresIn (napAgain s).cores := by
  simp only [napAgain]
  exact coresIn_foldl (fun _ _ ht => coresIn_modCore_fields ht (fun x => by split <;> rfl) (fun x => by split <;> rfl) fun x => by split <;> rfl) _ h

@[simp] theorem stopClocks_cores (s : State) (frz : FrzState) (cause scope : Nat) : (stopClocks s frz cause scope).cores = s.cores := (rfl)

@[simp] theorem coresIn_beginFreeze {s : State} (h : coresIn s.cores) (cause scope : Nat) : coresIn (beginFreeze s cause scope).cores := by
  simp [h, beginFreeze]

@[simp] theorem coresIn_beginPinFreeze {s : State} (h : coresIn s.cores) : coresIn (beginPinFreeze s).cores := by simp [h, beginPinFreeze]

@[simp] theorem eraseJournals_cores (s : State) : (eraseJournals s).cores = s.cores := by simp [eraseJournals]

@[simp] theorem coresIn_haltDevice {s : State} (h : coresIn s.cores) : coresIn (haltDevice s).cores := by simp [h, haltDevice]

@[simp] theorem coresIn_beginWarm {s : State} (h : coresIn s.cores) (cause : Nat) : coresIn (beginWarm s cause).cores := by
  simp [h, beginWarm]

@[simp] theorem coresIn_ownWarm {s : State} (h : coresIn s.cores) : coresIn (ownWarm s).cores := by
  unfold ownWarm
  (repeat' split) <;> simp [h]

-- Faults (Machine/Fault)

@[simp] theorem coresIn_fenceTake {s : State} (h : coresIn s.cores) (c lcore : Nat) : coresIn (fenceTake s c lcore).cores := by
  unfold fenceTake
  split <;> simp [h]

@[simp] theorem endsWithin_execFenceFail {s : State} (h : coresIn s.cores) (c : Nat) : EndsWithin (execFenceFail c s) := by
  simp [h, execFenceFail]

@[simp] theorem coresIn_logbookLost {s : State} (h : coresIn s.cores) : coresIn (logbookLost s).cores := by simp [h, logbookLost]

@[simp] theorem coresIn_loseCopy {s : State} (h : coresIn s.cores) (k : Nat) : coresIn (loseCopy s k).cores := by
  simp only [loseCopy]
  (repeat' split) <;> simp [h]

@[simp] theorem dropMem_cores (s : State) (k : Nat) : (dropMem s k).cores = s.cores := by simp [dropMem]

@[simp] theorem coresIn_failMem {s : State} (h : coresIn s.cores) (k : Nat) : coresIn (failMem s k).cores := by
  unfold failMem
  (repeat' split) <;> simp [h]

@[simp] theorem endsWithin_execLogbookRebuildDone {s : State} (h : coresIn s.cores) : EndsWithin (execLogbookRebuildDone s) := by
  unfold execLogbookRebuildDone
  split <;> simp [h]

@[simp] theorem restartUnit_cores (s : State) (u : Nat) : (restartUnit s u).cores = s.cores := by simp [restartUnit]

@[simp] theorem endsWithin_execUpuArrayFault {s : State} (h : coresIn s.cores) (u : Nat) : EndsWithin (execUpuArrayFault u s) := by
  simp [h, execUpuArrayFault]

@[simp] theorem coresIn_failHub {s : State} (h : coresIn s.cores) (n : Nat) : coresIn (failHub s n).cores := by simp [h, failHub]

@[simp] theorem cutLink_cores (s : State) (d side : Nat) : (cutLink s d side).cores = s.cores := by simp [cutLink]

@[simp] theorem endsWithin_execLinkD2dFault {s : State} (h : coresIn s.cores) (d side : Nat) : EndsWithin (execLinkD2dFault d side s) := by
  simp only [execLinkD2dFault]
  split <;> simp [h]

@[simp] theorem endsWithin_execDerlerWatchdog {s : State} (h : coresIn s.cores) : EndsWithin (execDerlerWatchdog s) := by
  unfold execDerlerWatchdog
  split <;> simp [h]

@[simp] theorem endsWithin_execHubFailure {s : State} (h : coresIn s.cores) (n : Nat) : EndsWithin (execHubFailure n s) := by
  simp [h, execHubFailure]

@[simp] theorem setArea_cores (s : State) (a v : Nat) : (setArea s a v).cores = s.cores := by simp [setArea]

@[simp] theorem rearm_cores (s : State) : (rearm s).cores = s.cores := (rfl)

@[simp] theorem eraseArea_cores (s : State) (a : Nat) : (eraseArea s a).cores = s.cores := by simp [eraseArea]

@[simp] theorem endsWithin_execJournalFlashFail {s : State} (h : coresIn s.cores) (a : Nat) : EndsWithin (execJournalFlashFail a s) := by
  simp [h, execJournalFlashFail]

@[simp] theorem endsWithin_execJournalEraseRetry {s : State} (h : coresIn s.cores) : EndsWithin (execJournalEraseRetry s) := by
  simp [h, execJournalEraseRetry]

@[simp] theorem endsWithin_execJournalAreaErased {s : State} (h : coresIn s.cores) (a : Nat) : EndsWithin (execJournalAreaErased a s) := by
  simp [h, execJournalAreaErased]

@[simp] theorem endsWithin_execPortDown {s : State} (h : coresIn s.cores) (p : Nat) : EndsWithin (execPortDown p s) := by
  simp [h, execPortDown]

@[simp] theorem finishMoves_cores (s : State) (p : Nat) : (finishMoves s p).cores = s.cores := by simp [finishMoves]

@[simp] theorem endsWithin_execPortUp {s : State} (h : coresIn s.cores) (p : Nat) : EndsWithin (execPortUp p s) := by simp [h, execPortUp]

@[simp] theorem reinitPort_cores (s : State) (p : Nat) : (reinitPort s p).cores = s.cores := by simp [reinitPort]

@[simp] theorem reinitUpu_cores (s : State) (u : Nat) : (reinitUpu s u).cores = s.cores := by simp [reinitUpu]

@[simp] theorem setGroup_cores (s : State) (k g : Nat) (x : CalGroup) : (setGroup s k g x).cores = s.cores := (rfl)

@[simp] theorem enterRetrain_cores (s : State) (k : Nat) : (enterRetrain s k).cores = s.cores := by simp [enterRetrain]

@[simp] theorem reinitMem_cores (s : State) (k : Nat) : (reinitMem s k).cores = s.cores := by simp [reinitMem]

-- Freezes (Machine/Freeze)

@[simp] theorem tellFrozen_cores (s : State) : (tellFrozen s).cores = s.cores := by simp [tellFrozen]

@[simp] theorem endFreezeCmd_cores (s : State) : (endFreezeCmd s).cores = s.cores := by simp [endFreezeCmd]

@[simp] theorem endsWithin_execPinFreeze {s : State} (h : coresIn s.cores) : EndsWithin (execPinFreeze s) := by
  simp only [execPinFreeze]
  (repeat' split) <;> exact (endsWithin_next _).2 (by simp [h])

@[simp] theorem coresIn_freezeCmd {s : State} (h : coresIn s.cores) (e : Entry) : coresIn (freezeCmd s e).cores := by simp [h, freezeCmd]

@[simp] theorem endsWithin_execFreezeThaw {s : State} (h : coresIn s.cores) (st : Nat) : EndsWithin (execFreezeThaw st s) := by
  simp [h, execFreezeThaw]

@[simp] theorem endsWithin_execFreezeReset {s : State} (h : coresIn s.cores) (st : Nat) : EndsWithin (execFreezeReset st s) := by
  simp [h, execFreezeReset]

@[simp] theorem endsWithin_execFreezeEnd {s : State} (h : coresIn s.cores) : EndsWithin (execFreezeEnd s) := by simp [h, execFreezeEnd]

-- Power, power-up and resets (Machine/Board)

@[simp] theorem writeJournal_cores (s : State) : (writeJournal s).cores = s.cores := by
  simp only [writeJournal]
  split <;> simp

@[simp] theorem coresIn_dropRails (s : State) : coresIn (dropRails s).cores := by simp [dropRails]

@[simp] theorem coresIn_failPower {s : State} (h : coresIn s.cores) : coresIn (failPower s).cores := by simp [h, failPower]

@[simp] theorem coresIn_startFlush {s : State} (h : coresIn s.cores) : coresIn (startFlush s).cores := by
  simp only [startFlush]
  split <;> simp [h]

@[simp] theorem endsWithin_execPwrFail {s : State} (h : coresIn s.cores) : EndsWithin (execPwrFail s) := by
  unfold execPwrFail
  (repeat' split) <;> simp [h]

@[simp] theorem endsWithin_execColdResetAssert {s : State} (h : coresIn s.cores) : EndsWithin (execColdResetAssert s) := by
  simp [h, execColdResetAssert]

@[simp] theorem endsWithin_execFlushDone {s : State} (h : coresIn s.cores) : EndsWithin (execFlushDone s) := by
  unfold execFlushDone
  split <;> simp [h]

@[simp] theorem endsWithin_execRailRestore {s : State} (h : coresIn s.cores) (cause : Nat) : EndsWithin (execRailRestore cause s) := by
  simp [h, execRailRestore]

@[simp] theorem endsWithin_execThermalTrip {s : State} (h : coresIn s.cores) (d : Nat) : EndsWithin (execThermalTrip d s) := by
  unfold execThermalTrip
  split <;> simp [h]

@[simp] theorem coresIn_failPart {s : State} (h : coresIn s.cores) (part : Nat) : coresIn (failPart s part).cores := by
  unfold failPart
  split <;> simp [h]

@[simp] theorem endsWithin_execRailFault {s : State} (h : coresIn s.cores) (part : Nat) : EndsWithin (execRailFault part s) := by
  have hfail : coresIn (failPower (failPart s part)).cores := by simp [h]
  simp only [execRailFault]
  (repeat' split) <;> simp [h, hfail]

@[simp] theorem bootFail_cores (s : State) (code : Nat) : (bootFail s code).cores = s.cores := by simp [bootFail]

@[simp] theorem readJournal_cores (s : State) : (readJournal s).cores = s.cores := by
  unfold readJournal
  split <;> simp

@[simp] theorem readyMem_cores (s : State) (k : Nat) : (readyMem s k).cores = s.cores := (rfl)

@[simp] theorem trainMems_cores (s : State) : (trainMems s).cores = s.cores := by simp [trainMems]

@[simp] theorem confirmMems_cores (s : State) : (confirmMems s).cores = s.cores := by simp [confirmMems]

@[simp] theorem placeCopies_cores (s : State) : (placeCopies s).cores = s.cores := by simp [placeCopies]

@[simp] theorem openStream0_cores (s : State) : (openStream0 s).cores = s.cores := by simp [openStream0]

@[simp] theorem coresIn_enterReady {s : State} (h : coresIn s.cores) : coresIn (enterReady s).cores := by
  simp only [enterReady]
  (repeat' split) <;> simp [h]

@[simp] theorem beginFill_cores (s : State) : (beginFill s).cores = s.cores := by simp [beginFill]

@[simp] theorem endsWithin_execColdReady {s : State} (h : coresIn s.cores) : EndsWithin (execColdReady s) := by simp [h, execColdReady]

@[simp] theorem endsWithin_execWarmResetAssert {s : State} (h : coresIn s.cores) : EndsWithin (execWarmResetAssert s) := by
  simp only [execWarmResetAssert]
  split
  · simp [h]
  · rw [endsWithin_next]
    split <;> simp [h]

@[simp] theorem coresIn_retakeWarm {s : State} (h : coresIn s.cores) (t : Take) : coresIn (retakeWarm s t).cores := by simp [h, retakeWarm]

@[simp] theorem coresIn_rewriteRoots {s : State} (h : coresIn s.cores) (e : Entry) (c : CommitList) :
    coresIn (rewriteRoots s e c).cores := by
  unfold rewriteRoots
  split
  · refine coresIn_foldl (fun _ _ ht => ?_) _ h
    dsimp only
    split <;> simp [ht]
  · exact h

@[simp] theorem coresIn_repeatCommit {s : State} (h : coresIn s.cores) (e : Entry) : coresIn (repeatCommit s e).cores := by
  unfold repeatCommit
  split <;> simp [h]

@[simp] theorem coresIn_rewriteEnded {s : State} (h : coresIn s.cores) : coresIn (rewriteEnded s).cores := by
  refine coresIn_foldl (fun t e ht => ?_) _ h
  split
  · simp [ht]
  · rw [send_cores]
    split <;> simp [ht]

@[simp] theorem coresIn_rerouteAll {s : State} (h : coresIn s.cores) : coresIn (rerouteAll s).cores := by
  simp only [rerouteAll, writeBank_cores, reboundAll_cores]
  exact coresIn_foldl (fun _ _ ht => by simp [ht]) _ h

@[simp] theorem coresIn_rewake {s : State} (h : coresIn s.cores) : coresIn (rewake s).cores :=
  coresIn_foldl (fun _ _ ht => coresIn_wakeFor ht _) _ h

@[simp] theorem resendAll_cores (s : State) : (resendAll s).cores = s.cores := by simp [resendAll]

-- Writes to CSR space (Machine/CsrWrite)

@[simp] theorem moveRing_cores (s : State) (d : Nat) (v : W64) : (moveRing s d v).cores = s.cores := by simp [moveRing]

@[simp] theorem noteHot_cores (was : Bool) (s : State) : (noteHot was s).cores = s.cores := by simp [noteHot]

@[simp] theorem enablePort_cores (s : State) (p : Nat) (on : Bool) : (enablePort s p on).cores = s.cores := by simp [enablePort]

@[simp] theorem endsWithin_execFrzDailiesWrite {s : State} (h : coresIn s.cores) (v : W64) : EndsWithin (execFrzDailiesWrite v s) := by
  simp [h, execFrzDailiesWrite]

@[simp] theorem endsWithin_execObsRingWrite {s : State} (h : coresIn s.cores) (d : Nat) (v : W64) :
    EndsWithin (execObsRingWrite d v s) := by
  simp [h, execObsRingWrite]

-- The network at the receiver (Machine/Net)

@[simp] theorem noteFrame_cores (s : State) (m : Pkt) : (noteFrame s m).cores = s.cores := by simp [noteFrame]

@[simp] theorem answerCe_cores (s : State) (m : Pkt) : (answerCe s m).cores = s.cores := by simp [answerCe]

@[simp] theorem followPort_cores (s : State) (m : Pkt) : (followPort s m).cores = s.cores := by simp [followPort]

/-- What a received packet does, once its frame is noted. The limits are said of the whole state here: the kernel compares a state with its
cores more eagerly than a state. -/
theorem endsWithin_received {s : State} (h : coresIn s.cores) {m : Pkt} {f : State → State} (hf : ∀ t, coreForm t → coreForm (f t)) :
    EndsWithin (received s m f) := by
  unfold received
  refine endsWithin_onUnit.2 ⟨fun _ => h, fun _ => ?_⟩
  (repeat' split)
  · simp [h]
  · simp [h]
  · have ht : coresIn (followPort (answerCe (noteFrame s m) m) m).cores := by simp [h]
    exact (endsWithin_next _).2 (hf _ ht)

@[simp] theorem coresIn_nakInvalid {s : State} (h : coresIn s.cores) (m : Pkt) : coresIn (nakInvalid s m).cores := by simp [h, nakInvalid]

@[simp] theorem coresIn_nakAccess {s : State} (h : coresIn s.cores) (m : Pkt) : coresIn (nakAccess s m).cores := by simp [h, nakAccess]

@[simp] theorem ackAgain_cores (s : State) (m : Pkt) : (ackAgain s m).cores = s.cores := by simp [ackAgain]

@[simp] theorem passPsn_cores (s : State) (q n : Nat) : (passPsn s q n).cores = s.cores := (rfl)

@[simp] theorem coresIn_tryWrite {s : State} (h : coresIn s.cores) (a : Nat) (d : List Byte) : coresIn (tryWrite s a d).2.cores := by
  unfold tryWrite
  split <;> simp [h, coresIn_of_writeMem h ‹_›]

@[simp] theorem hostWindow_cores (s : State) (q key st off left : Nat) (d : List Byte) :
    (hostWindow s q key st off left d).2.cores = s.cores := by
  simp only [hostWindow]
  split <;> simp

@[simp] theorem coresIn_zoneOpen {s : State} (h : coresIn s.cores) (e : KeyEnt) (z : List Byte) (id : Nat × Nat × Nat) :
    coresIn (zoneOpen s e z id).cores := by simp [h, zoneOpen]

@[simp] theorem takeMsg_cores (s : State) (c : Contrib) : (takeMsg s c).cores = s.cores := by
  unfold takeMsg
  split <;> simp

@[simp] theorem coresIn_sealTally {s : State} (h : coresIn s.cores) (c : Contrib) : coresIn (sealTally s c).cores := by simp [h, sealTally]

@[simp] theorem coresIn_zoneSeal {s : State} (h : coresIn s.cores) (e : KeyEnt) (z : List Byte) : coresIn (zoneSeal s e z).cores := by
  simp only [zoneSeal]
  split <;> simp [h]

@[simp] theorem coresIn_zoneRecord {s : State} (h : coresIn s.cores) (e : KeyEnt) (b : List Byte) : coresIn (zoneRecord s e b).2.cores := by
  simp only [zoneRecord]
  (repeat' split) <;> simp [h]

@[simp] theorem coresIn_zoneControl {s : State} (h : coresIn s.cores) (e : KeyEnt) (b : List Byte) :
    coresIn (zoneControl s e b).2.cores := by
  unfold zoneControl
  split <;> simp [h]

@[simp] theorem coresIn_zoneData {s : State} (h : coresIn s.cores) (e : KeyEnt) (o : Nat) (d : List Byte) :
    coresIn (zoneData s e o d).2.cores := by
  simp only [zoneData]
  (repeat' split) <;> simp [h]

@[simp] theorem coresIn_zoneWrite {s : State} (h : coresIn s.cores) (e : KeyEnt) (q va left : Nat) (d : List Byte) (only : Bool) :
    coresIn (zoneWrite s e q va left d only).2.cores := by
  unfold zoneWrite
  (repeat' split) <;> simp [h]

@[simp] theorem wrote_cores (s : State) (q : Nat) (goesOn : Option (Nat × Nat × Nat)) : (wrote s q goesOn).cores = s.cores := by
  unfold wrote
  split <;> simp

theorem coreForm_of_cores {s t : State} (ht : t.cores = s.cores) (h : coreForm s) : coreForm t := by
  rw [coreForm_iff, ht]
  exact h

theorem coreForm_sendNak {s : State} (h : coreForm s) (q psn code : Nat) : coreForm (sendNak s q psn code) := coresIn_sendNak h q psn code

theorem coreForm_atPsn {s : State} (h : coreForm s) {m : Pkt} {dup f : State → State} (hdup : ∀ t, coreForm t → coreForm (dup t))
    (hf : ∀ t, coreForm t → coreForm (f t)) : coreForm (atPsn s m dup f) := by
  have hset : ∀ q, coreForm (setQp s m.qp q) := fun q => coreForm_of_cores (setQp_cores s m.qp q) h
  simp only [atPsn]
  (repeat' split)
  · exact hf _ (hset _)
  · exact hdup _ h
  · exact h
  · exact coreForm_sendNak (hset _) _ _ _

theorem coreForm_nakInvalid {s : State} (h : coreForm s) (m : Pkt) : coreForm (nakInvalid s m) := coresIn_nakInvalid h m

theorem coreForm_ackAgain {s : State} (h : coreForm s) (m : Pkt) : coreForm (ackAgain s m) := coreForm_of_cores (ackAgain_cores s m) h

@[simp] theorem endsWithin_execRxInvalidRequest {s : State} (h : coresIn s.cores) (m : Pkt) (opcode : Nat) :
    EndsWithin (execRxInvalidRequest m opcode s) := by
  unfold execRxInvalidRequest
  split
  · simp [h]
  · exact endsWithin_received h fun _ ht => coreForm_atPsn ht (fun _ hu => coreForm_ackAgain hu m) fun _ hu => coreForm_nakInvalid hu m

@[simp] theorem coresIn_tryRead {s : State} (h : coresIn s.cores) (a len : Nat) : coresIn (tryRead s a len).2.cores := by
  unfold tryRead
  split <;> simp [h]

@[simp] theorem coresIn_plainRead {s : State} (h : coresIn s.cores) (a len : Nat) : coresIn (plainRead s a len).2.cores := by
  unfold plainRead
  split <;> simp [h]

@[simp] theorem coresIn_zoneRead {s : State} (h : coresIn s.cores) (e : KeyEnt) (va len : Nat) : coresIn (zoneRead s e va len).2.cores := by
  unfold zoneRead
  (repeat' split) <;> simp [h]

@[simp] theorem coresIn_readAccess {s : State} (h : coresIn s.cores) (q key va len : Nat) :
    coresIn (readAccess s q key va len).2.cores := by
  unfold readAccess
  (repeat' split) <;> simp [h]

@[simp] theorem coresIn_inRead {s : State} (h : coresIn s.cores) (m : Pkt) (key va len : Nat) (again : Bool) :
    coresIn (inRead s m key va len again).cores := by
  have hread := coresIn_readAccess h m.qp key va len
  unfold inRead
  split
  · simp [h]
  · split
    · next heq =>
      rw [heq] at hread
      exact coresIn_nakAccess hread m
    · next heq =>
      rw [heq] at hread
      dsimp only
      split <;> simpa using hread

theorem coreForm_inRead {s : State} (h : coreForm s) (m : Pkt) (key va len : Nat) (again : Bool) : coreForm (inRead s m key va len again) :=
  coresIn_inRead h m key va len again

@[simp] theorem endsWithin_execRxRdmaReadRequest {s : State} (h : coresIn s.cores) (m : Pkt) (rkey va len : Nat) :
    EndsWithin (execRxRdmaReadRequest m rkey va len s) :=
  endsWithin_received h fun _ ht => coreForm_atPsn ht (fun _ hu => coreForm_inRead hu m rkey va len true) fun _ hu => by
    split
    · exact coreForm_nakInvalid hu m
    · exact coreForm_inRead hu m rkey va len false

-- The network at the sender (Machine/NetAck)

@[simp] theorem coresIn_ackCompletion {s : State} (h : coresIn s.cores) (st seq : Nat) (b : List Byte) :
    coresIn (ackCompletion s st seq b).cores := by
  unfold ackCompletion
  split <;> simp [h]

@[simp] theorem coresIn_ackWrite {s : State} (h : coresIn s.cores) (c no : Nat) : coresIn (ackWrite s c no).cores := by
  unfold ackWrite
  split <;> simp [h]

@[simp] theorem coresIn_ackSeal {s : State} (h : coresIn s.cores) (q st seq landing : Nat) :
    coresIn (ackSeal s q st seq landing).cores := by
  simp only [ackSeal]
  split
  · exact h
  · rw [flushOutbox_cores]
    (repeat' split)
    · exact h
    · refine coresIn_foldl (fun _ _ ht => ?_) _ ?_
      · simp [ht]
      · simp [h]
    · simp [h]

@[simp] theorem coresIn_ackMsg {s : State} (h : coresIn s.cores) (q : Nat) (m : Msg) : coresIn (ackMsg s q m).cores := by
  unfold ackMsg
  split <;> simp [h]

@[simp] theorem coresIn_retireMsgs {s : State} (h : coresIn s.cores) (q : Nat) (ms : List Msg) : coresIn (retireMsgs s q ms).cores := by
  simp only [retireMsgs]
  split
  · exact h
  · exact coresIn_foldl (fun _ _ ht => coresIn_ackMsg ht _ _) _ (by simp [h])

@[simp] theorem endsWithin_execRxAck {s : State} (h : coresIn s.cores) (m : Pkt) : EndsWithin (execRxAck m s) :=
  endsWithin_received h fun t ht => by
    rw [coreForm_iff] at ht ⊢
    split <;> simp [ht]

@[simp] theorem coresIn_versionRead {s : State} (h : coresIn s.cores) (c id second : Nat) (v : W64) :
    coresIn (versionRead s c id second v).cores := by
  unfold versionRead
  (repeat' split) <;> simp [h]

@[simp] theorem coresIn_deliverRead {s : State} (h : coresIn s.cores) (c id row off : Nat) (d : List Byte) :
    coresIn (deliverRead s c id row off d).cores := by
  unfold deliverRead
  split
  · exact h
  · split
    · simp [h]
    · dsimp only
      split <;> simp [coresIn_of_writeMem h ‹_›]

@[simp] theorem coresIn_takeAnswer {s : State} (h : coresIn s.cores) (q : Nat) (f : Msg) (d : List Byte) :
    coresIn (takeAnswer s q f d).cores := by
  unfold takeAnswer
  split <;> simp [h]

@[simp] theorem endsWithin_execRxReadResponse {s : State} (h : coresIn s.cores) (m : Pkt) (data : List Byte) :
    EndsWithin (execRxReadResponse m data s) := by
  simp only [execRxReadResponse]
  refine endsWithin_received h fun t ht => ?_
  rw [coreForm_iff] at ht ⊢
  (repeat' split) <;> simp [ht]

@[simp] theorem endsWithin_execRxNak {s : State} (h : coresIn s.cores) (m : Pkt) (kind : Nat) : EndsWithin (execRxNak m kind s) := by
  simp only [execRxNak]
  refine endsWithin_received h fun t ht => ?_
  rw [coreForm_iff] at ht ⊢
  (repeat' split) <;> simp [ht]

@[simp] theorem coresIn_ackTimedOut {s : State} (h : coresIn s.cores) (q : Nat) : coresIn (ackTimedOut s q).cores := by
  simp [h, ackTimedOut]

@[simp] theorem endsWithin_execAckTimeout {s : State} (h : coresIn s.cores) (q : Nat) : EndsWithin (execAckTimeout q s) := by
  simp [h, execAckTimeout]

@[simp] theorem endsWithin_execRxCnp {s : State} (h : coresIn s.cores) (m : Pkt) : EndsWithin (execRxCnp m s) := by
  simp only [execRxCnp]
  refine endsWithin_received h fun t ht => ?_
  rw [coreForm_iff] at ht ⊢
  split <;> simp [ht]

@[simp] theorem endsWithin_rateEvent {s : State} (h : coresIn s.cores) (q : Nat) (f : Qp → Qp) : EndsWithin (rateEvent q s f) := by
  simp [h, rateEvent]

@[simp] theorem endsWithin_execAlphaTimer {s : State} (h : coresIn s.cores) (q : Nat) : EndsWithin (execAlphaTimer q s) := by
  simp [h, execAlphaTimer]

@[simp] theorem endsWithin_execRateTimer {s : State} (h : coresIn s.cores) (q : Nat) : EndsWithin (execRateTimer q s) := by
  simp [h, execRateTimer]

@[simp] theorem endsWithin_execRateBytesSent {s : State} (h : coresIn s.cores) (q : Nat) : EndsWithin (execRateBytesSent q s) := by
  simp [h, execRateBytesSent]

@[simp] theorem endsWithin_execRxPfcPause {s : State} (h : coresIn s.cores) (p prio : Nat) : EndsWithin (execRxPfcPause p prio s) := by
  simp [h, execRxPfcPause]

@[simp] theorem endsWithin_execPfcPauseExpiry {s : State} (h : coresIn s.cores) (p : Nat) : EndsWithin (execPfcPauseExpiry p s) := by
  simp [h, execPfcPauseExpiry]

-- The messages of a step (Machine/Votes)

@[simp] theorem endsWithin_execStepCloseTimer {s : State} (h : coresIn s.cores) (run : Nat) : EndsWithin (execStepCloseTimer run s) := by
  unfold execStepCloseTimer
  (repeat' split) <;> simp [h]

@[simp] theorem dropMsg_cores (s : State) (k : Nat) : (dropMsg s k).cores = s.cores := by simp [dropMsg]

@[simp] theorem endsWithin_onMsg {s : State} (h : coresIn s.cores) {k type : Nat} {early : State → Run → List Byte → State}
    {f : State → Run → StepSt → InMsg → State} (he : ∀ r b, coresIn (early s r b).cores)
    (hf : ∀ t r x m, coresIn t.cores → coresIn (f t r x m).cores) : EndsWithin (onMsg s k type early f) := by
  simp only [onMsg]
  (repeat' split) <;> simp [h, he, hf]

@[simp] theorem coresIn_sendVerdict {s : State} (h : coresIn s.cores) (r : Run) (x : StepSt) : coresIn (sendVerdict s r x).cores := by
  simp [h, sendVerdict]

@[simp] theorem coresIn_holdReport {s : State} (h : coresIn s.cores) (r : Run) (x : StepSt) (m : InMsg) :
    coresIn (holdReport s r x m).cores := by simp [h, holdReport]

@[simp] theorem endsWithin_execReport {s : State} (h : coresIn s.cores) (k : Nat) : EndsWithin (execReport k s) :=
  endsWithin_onMsg h (fun _ _ => h) fun _ _ _ _ ht => coresIn_holdReport ht _ _ _

@[simp] theorem coresIn_sendSigns {s : State} (h : coresIn s.cores) (r : Run) (x : StepSt) (d : Nat) :
    coresIn (sendSigns s r x d).cores := by
  simp [h, sendSigns]

@[simp] theorem countSkip_cores (s : State) (v : Nat) : (countSkip s v).cores = s.cores := by simp [countSkip]

@[simp] theorem coresIn_holdVerdict {s : State} (h : coresIn s.cores) (r : Run) (x : StepSt) (m : InMsg) :
    coresIn (holdVerdict s r x m).cores := by
  simp only [holdVerdict]
  (repeat' split)
  · simp [h]
  · exact h
  · exact coresIn_foldl (fun _ _ ht => coresIn_sendSigns ht _ _ _) _ (by simp [h])
  · simp [h]

@[simp] theorem coresIn_earlyVerdict {s : State} (h : coresIn s.cores) (k : Nat) (r : Run) (b : List Byte) :
    coresIn (earlyVerdict k s r b).cores := by
  simp only [earlyVerdict]
  (repeat' split) <;> simp [h]

@[simp] theorem endsWithin_execVerdict {s : State} (h : coresIn s.cores) (k : Nat) : EndsWithin (execVerdict k s) :=
  endsWithin_onMsg h (fun _ _ => coresIn_earlyVerdict h _ _ _) fun _ _ _ _ ht => coresIn_holdVerdict ht _ _ _

@[simp] theorem coresIn_writeSigns {s : State} (h : coresIn s.cores) (r : Run) (x : StepSt) (owner : Nat) (codes : List Byte) :
    coresIn (writeSigns s r x owner codes).cores :=
  coresIn_foldl (fun _ _ ht => by simp [ht]) _ h

@[simp] theorem recordNotices_cores (s : State) (m : InMsg) : (recordNotices s m).cores = s.cores := by simp [recordNotices]

@[simp] theorem coresIn_holdSigns {s : State} (h : coresIn s.cores) (r : Run) (x : StepSt) (m : InMsg) :
    coresIn (holdSigns s r x m).cores := by
  simp only [holdSigns]
  split
  · simp [h]
  · split <;> simp [h]

@[simp] theorem endsWithin_execSigns {s : State} (h : coresIn s.cores) (k : Nat) : EndsWithin (execSigns k s) :=
  endsWithin_onMsg h (fun _ _ => h) fun _ _ _ _ ht => coresIn_holdSigns ht _ _ _

@[simp] theorem partyDetail_cores (s : State) (x : StepSt) (d : Nat) : (partyDetail s x d).2.cores = s.cores := by
  unfold partyDetail
  split <;> simp

@[simp] theorem endsWithin_execVerdictTimeout {s : State} (h : coresIn s.cores) (st : Nat) : EndsWithin (execVerdictTimeout st s) := by
  unfold execVerdictTimeout
  (repeat' split) <;> simp [h]

-- The memory controllers (Machine/MemCtl)

@[simp] theorem coresIn_foundUncorr {s : State} (h : coresIn s.cores) (k a errBit : Nat) : coresIn (foundUncorr s k a errBit).cores := by
  simp only [foundUncorr]
  (repeat' split) <;> simp [h]

@[simp] theorem corrected_cores (s : State) (k : Nat) : (corrected s k).cores = s.cores := (rfl)

@[simp] theorem coresIn_meetEcc {s : State} (h : coresIn s.cores) (k a ecc : Nat) : coresIn (meetEcc s k a ecc).cores := by
  unfold meetEcc
  (repeat' split) <;> simp [h]

@[simp] theorem coresIn_streamAccessFail {s : State} (h : coresIn s.cores) (st : Nat) (r : Access) (a : Nat) :
    coresIn (streamAccessFail s st r a).cores := by
  simp only [streamAccessFail]
  (repeat' split) <;> simp [h]

@[simp] theorem endsWithin_execCtrlAccess {s : State} (h : coresIn s.cores) (write : Bool) (a : Nat) (data : List Byte) (ecc st : Nat) :
    EndsWithin (execCtrlAccess write a data ecc st s) := by
  simp only [execCtrlAccess]
  refine endsWithin_onUnit.2 ⟨fun _ => h, fun _ => ?_⟩
  split
  · simp [h]
  · split
    · split <;> simp [h]
    · next k _ =>
      generalize hu : (if meetsEcc (readyCtl s k) write a data.length = true then _ else _) = u
      have hu : coresIn u.cores := by
        rw [← hu]
        split <;> simp [h]
      have ht : coresIn (if write then writeMem u a data else ((readMem u a data.length).1, u)).2.cores := by
        split <;> simp [hu]
      split <;> simp_all

@[simp] theorem maybeSteal_cores (s : State) (k : Nat) : (maybeSteal s k).cores = s.cores := (rfl)

@[simp] theorem endsWithin_execRefresh {s : State} (h : coresIn s.cores) (k : Nat) : EndsWithin (execRefresh k s) := by
  simp [h, execRefresh]

@[simp] theorem endsWithin_execScrub {s : State} (h : coresIn s.cores) (k a ecc : Nat) : EndsWithin (execScrub k a ecc s) := by
  unfold execScrub
  (repeat' split) <;> simp [h]

@[simp] theorem endsWithin_execLpcFill {s : State} (h : coresIn s.cores) (k : Nat) : EndsWithin (execLpcFill k s) := by
  simp [h, execLpcFill]

@[simp] theorem endsWithin_execTelemetryRead {s : State} (h : coresIn s.cores) (k temp : Nat) :
    EndsWithin (execTelemetryRead k temp s) := by
  simp [h, execTelemetryRead]

@[simp] theorem endsWithin_execSelfRefreshEnter {s : State} (h : coresIn s.cores) (k : Nat) : EndsWithin (execSelfRefreshEnter k s) := by
  simp [h, execSelfRefreshEnter]

@[simp] theorem endsWithin_execSelfRefreshExit {s : State} (h : coresIn s.cores) (k : Nat) : EndsWithin (execSelfRefreshExit k s) := by
  simp [h, execSelfRefreshExit]

-- Calibration (Machine/Cal)

@[simp] theorem worstMargin_cores (s : State) (k : Nat) : (worstMargin s k).2.cores = s.cores := by
  unfold worstMargin
  split <;> simp

@[simp] theorem reportMargin_cores (s : State) (k : Nat) : (reportMargin s k).cores = s.cores := by simp [reportMargin]

@[simp] theorem countStep_cores (s : State) (i : Nat) : (countStep s i).cores = s.cores := (rfl)

@[simp] theorem moveGroup_cores (s : State) (k g : Nat) (write : Bool) (margin : Nat) (tap : Int) :
    (moveGroup s k g write margin tap).cores = s.cores := by
  simp [moveGroup]

@[simp] theorem coresIn_judgeGroup {s : State} (h : coresIn s.cores) (k g : Nat) : coresIn (judgeGroup s k g).cores := by
  simp only [judgeGroup]
  (repeat' split) <;> simp [h]

@[simp] theorem coresIn_calStep {s : State} (h : coresIn s.cores) (k g : Nat) (write : Bool) (margin centre ecc : Nat) :
    coresIn (calStep s k g write margin centre ecc).cores := by
  simp only [calStep]
  (repeat' split) <;> simp [h]

@[simp] theorem endsWithin_execCalStep {s : State} (h : coresIn s.cores) (k y margin centre ecc : Nat) :
    EndsWithin (execCalStep k y margin centre ecc s) := by
  simp [h, execCalStep]

@[simp] theorem endsWithin_execSerdesProbe {s : State} (h : coresIn s.cores) (l margin : Nat) :
    EndsWithin (execSerdesProbe l margin s) := by
  simp [h, execSerdesProbe]

@[simp] theorem endsWithin_execCalSnapshot {s : State} (h : coresIn s.cores) : EndsWithin (execCalSnapshot s) := by
  simp [h, execCalSnapshot]

-- Observability (Machine/Obs)

@[simp] theorem coresIn_putRecord {s : State} (h : coresIn s.cores) (d kind count part kc : Nat) (rest : List Byte) :
    coresIn (putRecord s d kind count part kc rest).cores := by
  simp [h, putRecord]

@[simp] theorem coresIn_addRecord {s : State} (h : coresIn s.cores) (d kind count part kc : Nat) (rest : List Byte) :
    coresIn (addRecord s d kind count part kc rest).cores := by
  simp [h, addRecord]

@[simp] theorem dropSample_cores (s : State) (d : Nat) : (dropSample s d).cores = s.cores := (rfl)

@[simp] theorem stagedNow_cores (s : State) (d : Nat) : (stagedNow s d).2.cores = s.cores := by simp [stagedNow]

@[simp] theorem coresIn_stageRecords {s : State} (h : coresIn s.cores) (d : Nat) (recs : List (Nat × Nat × Nat × List Byte)) :
    coresIn (stageRecords s d recs).cores := by
  simp only [stageRecords]
  split
  · simp [h]
  · exact coresIn_foldl (fun _ _ ht => coresIn_addRecord ht _ _ _ _ _ _) _ (by simp [h])

@[simp] theorem coresIn_sample {s : State} (h : coresIn s.cores) (d : Nat) : coresIn (sample s d).cores := by simp [h, sample]

@[simp] theorem endsWithin_execObsSample {s : State} (h : coresIn s.cores) (d : Nat) : EndsWithin (execObsSample d s) := by
  simp [h, execObsSample]

-- The power manager and SMBus (Machine/Power)

@[simp] theorem endsWithin_execCoreNap {s : State} (h : coresIn s.cores) (c : Nat) : EndsWithin (execCoreNap c s) := by
  simp [h, execCoreNap]

@[simp] theorem endsWithin_execNapEntryDone {s : State} (h : coresIn s.cores) (c : Nat) : EndsWithin (execNapEntryDone c s) := by
  simp [h, execNapEntryDone]

@[simp] theorem endsWithin_execCoreWake {s : State} (h : coresIn s.cores) (c : Nat) : EndsWithin (execCoreWake c s) := by
  simp [h, execCoreWake]

@[simp] theorem modPwr_cores (s : State) (f : Pwr → Pwr) : (modPwr s f).cores = s.cores := (rfl)

@[simp] theorem raiseDie_cores (s : State) (d : Nat) : (raiseDie s d).cores = s.cores := by
  unfold raiseDie
  split <;> simp

@[simp] theorem lowerDie_cores (s : State) (d : Nat) : (lowerDie s d).cores = s.cores := by
  unfold lowerDie
  split <;> simp

@[simp] theorem setUnmet_cores (s : State) (on : Bool) : (setUnmet s on).cores = s.cores := by simp [setUnmet]

@[simp] theorem capLevels_cores (s : State) (watts : Nat) : (capLevels s watts).cores = s.cores := by simp [capLevels]

@[simp] theorem supplyReading_cores (s : State) (input bank : Nat) : (supplyReading s input bank).cores = s.cores := by
  simp [supplyReading]

@[simp] theorem coresIn_addPower {s : State} (h : coresIn s.cores) (b : List Byte) : coresIn (addPower s b).cores := by simp [h, addPower]

@[simp] theorem putTemps_cores (s : State) (temps : List Nat) : (putTemps s temps).cores = s.cores := by simp [putTemps]

@[simp] theorem endsWithin_execPowerReading {s : State} (h : coresIn s.cores) (watts : Nat) (temps : List Nat) (input bank : Nat) :
    EndsWithin (execPowerReading watts temps input bank s) := by
  simp [h, execPowerReading]

@[simp] theorem endsWithin_execSetPtr {s : State} (h : coresIn s.cores) (v : W32) : EndsWithin (execSetPtr v s) := by
  simp [h, execSetPtr]

@[simp] theorem endsWithin_execSmbRead {s : State} (h : coresIn s.cores) : EndsWithin (execSmbRead s) := by
  refine endsWithin_when.2 ⟨fun _ => h, fun _ => ?_⟩
  split <;> simp [h]

@[simp] theorem endsWithin_execClrAlert {s : State} (h : coresIn s.cores) (v : W64) : EndsWithin (execClrAlert v s) := by
  simp [h, execClrAlert]

@[simp] theorem endsWithin_execAlertResponse {s : State} (h : coresIn s.cores) : EndsWithin (execAlertResponse s) := by
  simp [h, execAlertResponse]

@[simp] theorem endsWithin_execSmbusClockLowTimeout {s : State} (h : coresIn s.cores) : EndsWithin (execSmbusClockLowTimeout s) := by
  simp [h, execSmbusClockLowTimeout]

-- Fences, tests and re-initialisation (R463 to R466)

@[simp] theorem setPcore_cores (s : State) (i : Nat) (p : PCore) : (setPcore s i p).cores = s.cores := (rfl)

@[simp] theorem coresIn_blockCore {s : State} (h : coresIn s.cores) (c : Nat) : coresIn (blockCore s c).cores := by simp [h, blockCore]

@[simp] theorem fillPosition_cores (s : State) (d l : Nat) : (fillPosition s d l).cores = s.cores := by
  unfold fillPosition
  split <;> simp

@[simp] theorem coresIn_fenceCore {s : State} (h : coresIn s.cores) (c cls : Nat) : coresIn (fenceCore s c cls).cores := by
  simp only [fenceCore]
  split
  · exact h
  · have hfill : ∀ l, coresIn (fillPosition (blockCore (fenceTake (logFault s cls (c / 26) (c % 26) 2) c l) c) (c / 26) l).cores := fun l => by
      rw [fillPosition_cores]
      exact coresIn_blockCore (by simp [h]) c
    split
    · exact coresIn_refence (hfill _) _ _
    · exact hfill _

@[simp] theorem coresIn_beginTest {s : State} (h : coresIn s.cores) (c : Nat) : coresIn (beginTest s c).cores := by simp [h, beginTest]

@[simp] theorem coresIn_tested {s : State} (h : coresIn s.cores) (c : Nat) (pass : Bool) : coresIn (tested s c pass).cores := by
  simp only [tested]
  (repeat' split) <;> simp [h]

@[simp] theorem coresIn_reinitCore {s : State} (h : coresIn s.cores) (c : Nat) : coresIn (reinitCore s c).cores := by
  simp only [reinitCore]
  split <;> simp [h]

@[simp] theorem coresIn_writeReinit {s : State} (h : coresIn s.cores) (kind index : Nat) : coresIn (writeReinit s kind index).cores := by
  unfold writeReinit
  (repeat' split) <;> simp [h]

theorem coresIn_of_writeCsr {s : State} (hs : coresIn s.cores) {t : State} {a : Nat} {v : W64} (h : writeCsr s a v = some t) :
    coresIn t.cores := by
  unfold writeCsr at h
  split at h <;> cases h <;> simp [hs]

-- What a peer writes (R14, R353)

@[simp] theorem coresIn_plainWrite {s : State} (h : coresIn s.cores) (a left : Nat) (d : List Byte) :
    coresIn (plainWrite s a left d).2.cores := by
  unfold plainWrite
  split
  · split
    · exact h
    · split
      · next ht => exact coresIn_of_writeCsr h ht
      · exact h
  · simp [h]

@[simp] theorem coresIn_writeAccess {s : State} (h : coresIn s.cores) (q key va left : Nat) (d : List Byte) (only : Bool) :
    coresIn (writeAccess s q key va left d only).2.cores := by
  unfold writeAccess
  (repeat' split) <;> simp [h]

/-- What a write of a peer leaves, within the limits. -/
theorem coreForm_inWrite {s : State} (h : coreForm s) (m : Pkt) (opcode rkey va : Nat) (data : List Byte) :
    coreForm (inWrite s m opcode rkey va data) := by
  have hs : coresIn s.cores := h
  unfold inWrite
  extract_lets x first key a left w more t
  have hw : coresIn w.2.cores := coresIn_writeAccess hs _ _ _ _ _ _
  split
  · exact coreForm_nakInvalid h m
  · split
    · exact coresIn_nakAccess hw m
    · exact coreForm_of_cores (by simp [t]) hw

theorem endsWithin_inWrite {s : State} (h : coresIn s.cores) (m : Pkt) (opcode rkey va : Nat) (data : List Byte) :
    EndsWithin (received s m fun s => atPsn s m (ackAgain · m) fun s => inWrite s m opcode rkey va data) :=
  endsWithin_received h fun _ ht => coreForm_atPsn ht (fun _ hu => coreForm_ackAgain hu m) fun _ hu => coreForm_inWrite hu m opcode rkey va data

@[simp] theorem endsWithin_execRxRdmaWrite {s : State} (h : coresIn s.cores) (m : Pkt) (opcode rkey va : Nat) (data : List Byte) :
    EndsWithin (execRxRdmaWrite m opcode rkey va data s) :=
  endsWithin_inWrite h m opcode rkey va data

@[simp] theorem endsWithin_inControl {s : State} (h : coresIn s.cores) (m : Pkt) (kind rkey : Nat) (b : List Byte) :
    EndsWithin (inControl m kind rkey b s) := by
  unfold inControl
  split
  · simp [h]
  · exact endsWithin_inWrite h m _ _ _ _

@[simp] theorem endsWithin_execRxControlOpen {s : State} (h : coresIn s.cores) (m : Pkt) (rkey : Nat) (b : List Byte) :
    EndsWithin (execRxControlOpen m rkey b s) :=
  endsWithin_inControl h m 1 rkey b

@[simp] theorem endsWithin_execRxControlSeal {s : State} (h : coresIn s.cores) (m : Pkt) (rkey : Nat) (b : List Byte) :
    EndsWithin (execRxControlSeal m rkey b s) :=
  endsWithin_inControl h m 2 rkey b

@[simp] theorem endsWithin_execRxControlAbort {s : State} (h : coresIn s.cores) (m : Pkt) (rkey : Nat) (b : List Byte) :
    EndsWithin (execRxControlAbort m rkey b s) :=
  endsWithin_inControl h m 3 rkey b

-- The thaw and the boots (R451, R453, R466, R470, R477)

@[simp] theorem coresIn_fenceBad (bad : List Nat) {s : State} (h : coresIn s.cores) (c : Nat) : coresIn (fenceBad bad s c).cores := by
  simp only [fenceBad]
  split <;> simp [h]

@[simp] theorem coresIn_thaw {s : State} (h : coresIn s.cores) : coresIn (thaw s).cores := by
  have hbad := coresIn_foldl (f := fenceBad s.drl.frzBad) (fun _ c ht => coresIn_fenceBad _ ht c) (badCores s)
    (s := tellFrozen (wakeMemories s)) (by simp [h])
  simp [thaw, hbad]

@[simp] theorem coresIn_tryThaw {s : State} (h : coresIn s.cores) : coresIn (tryThaw s).cores := by
  simp only [tryThaw]
  split <;> simp [h]

/-- What the flash keeps has no core listed. -/
@[simp] theorem keptInFlash_cores (s : State) : (keptInFlash s).cores = [] := (rfl)

@[simp] theorem coresIn_dropDie {s : State} (h : coresIn s.cores) (d : Nat) : coresIn (dropDie s d).cores := by
  have hcores := coresIn_foldl (f := fun s c => setPcore (offCore s c) c { pcoreOf s c with state := .retired, lcore := 255 })
    (fun _ _ ht => by simp [ht]) (dieCores d) h
  unfold dropDie
  extract_lets s1 s2 cut
  have h1 : coresIn s1.cores := hcores
  have h2 : coresIn s2.cores := by simp [s2, h1]
  rw [foldl_cores fun s k => by dsimp only [cut]; split <;> simp]
  exact h2

@[simp] theorem coresIn_testCores {s : State} (h : coresIn s.cores) (bad : List Nat) : coresIn (testCores s bad).cores := by
  simp only [testCores]
  refine coresIn_foldl (fun _ _ ht => ?_) _ ?_
  · split <;> simp [ht]
  · rw [foldl_cores fun _ _ => setPcore_cores _ _ _]
    exact h

@[simp] theorem coresIn_coldStart (s : State) (f : BootFacts) : coresIn (coldStart s f).cores := by
  unfold coldStart
  extract_lets cause warmN freezeN s1 s2
  have h2 : coresIn s2.cores := by simp [s2, s1]
  split
  · simp [h2]
  · extract_lets s3 s4 s5 s6 s7 net s8 s9 s10 s11
    have h3 : coresIn s3.cores := by simp [s3, h2]
    have h4 : coresIn s4.cores := by simp [s4, h3]
    have h5 : coresIn s5.cores := coresIn_foldl (fun _ d ht => coresIn_dropDie ht d) f.deadDies h4
    have h6 : coresIn s6.cores := coresIn_foldl (fun _ k ht => coresIn_failMem ht k) f.deadMems (by simpa using h5)
    have h7 : coresIn s7.cores := coresIn_testCores h6 f.badCores
    clear_value s7
    have h8 : coresIn s8.cores := h7
    clear_value s8
    have h11 : coresIn s11.cores := by simpa [s11, s10, s9] using h8
    (repeat' split) <;> simp [h3, h8, h11]

theorem coresIn_warmLogic {s : State} (h : coresIn s.cores) : coresIn (warmLogic s).cores := by
  unfold warmLogic
  extract_lets
  rw [confirmMems_cores, wakeMemories_cores, modDrl_cores]
  refine coresIn_foldl (fun _ c ht => coresIn_beginTest ht c) _ ?_
  exact tabIn_map (P := fun _ => coreLimits) h fun _ _ _ => coreLimits_of reelsIn_nil barsIn_nil queuesIn_nil

theorem coresIn_warmReady {s : State} (h : coresIn s.cores) : coresIn (warmReady s).cores := by
  unfold warmReady
  split
  · simp [h]
  · extract_lets s1 s2 accepted s3 reason s4 dies s5 fab s6 s7 w s8
    have h3 : coresIn s3.cores := coresIn_foldl (fun _ _ ht => coresIn_retakeWarm ht _) _ (by simp [s2, s1, h])
    have h4 : coresIn s4.cores := by simpa [s4] using h3
    have h5 : coresIn s5.cores := coresIn_foldl (fun _ d ht => coresIn_dropDie ht d) dies h4
    have h6 : coresIn s6.cores := by
      unfold s6
      split
      · exact coresIn_rerouteAll (by simpa using h5)
      · exact h5
    have h8 : coresIn s8.cores := by simp [s8, s7, h6]
    exact coresIn_enterReady (by simpa using h8)

-- The commands of fences, freezes and boots

@[simp] theorem endsWithin_execColdStart {s : State} (h : coresIn s.cores) (f : BootFacts) : EndsWithin (execColdStart f s) := by
  simp [execColdStart, h]

@[simp] theorem endsWithin_execCoreArrayFault {s : State} (h : coresIn s.cores) (c array : Nat) :
    EndsWithin (execCoreArrayFault c array s) := by
  refine endsWithin_event.2 ⟨fun _ => h, fun _ _ => coresIn_fenceCore ?_ c 1⟩
  split <;> simp [h]

@[simp] theorem endsWithin_execCoreClearTimeout {s : State} (h : coresIn s.cores) (c : Nat) : EndsWithin (execCoreClearTimeout c s) := by
  simp [execCoreClearTimeout, h]

@[simp] theorem endsWithin_execCoreTestDone {s : State} (h : coresIn s.cores) (c : Nat) (pass : Bool) :
    EndsWithin (execCoreTestDone c pass s) := by
  simp [execCoreTestDone, h]

@[simp] theorem endsWithin_execReinitCore {s : State} (h : coresIn s.cores) (c : Nat) : EndsWithin (execReinitCore c s) := by
  simp [execReinitCore, h]

@[simp] theorem endsWithin_execReinitPort {s : State} (h : coresIn s.cores) (c : Nat) : EndsWithin (execReinitPort c s) := by
  simp [execReinitPort, h]

@[simp] theorem endsWithin_execReinitUpu {s : State} (h : coresIn s.cores) (c : Nat) : EndsWithin (execReinitUpu c s) := by
  simp [execReinitUpu, h]

@[simp] theorem endsWithin_execReinitHbc {s : State} (h : coresIn s.cores) (c : Nat) : EndsWithin (execReinitHbc c s) := by
  simp [execReinitHbc, h]

@[simp] theorem endsWithin_execReinitLpc {s : State} (h : coresIn s.cores) (c : Nat) : EndsWithin (execReinitLpc c s) := by
  simp [execReinitLpc, h]

@[simp] theorem endsWithin_execFreezePinRelease {s : State} (h : coresIn s.cores) : EndsWithin (execFreezePinRelease s) := by
  simp [execFreezePinRelease, h]

@[simp] theorem endsWithin_execFreezeHoldExpiry {s : State} (h : coresIn s.cores) : EndsWithin (execFreezeHoldExpiry s) := by
  simp [execFreezeHoldExpiry, h]

@[simp] theorem endsWithin_execReadoutEnd {s : State} (h : coresIn s.cores) (bad : List Nat) : EndsWithin (execReadoutEnd bad s) := by
  unfold execReadoutEnd
  (repeat' split) <;> simp [h]

@[simp] theorem endsWithin_execKeeperRailFall {s : State} (h : coresIn s.cores) : EndsWithin (execKeeperRailFall s) := by
  simp [execKeeperRailFall, h]

@[simp] theorem endsWithin_execWarmResetRelease {s : State} (h : coresIn s.cores) : EndsWithin (execWarmResetRelease s) := by
  unfold execWarmResetRelease
  split
  · exact (endsWithin_next _).2 (coresIn_warmLogic h)
  · simp [h]

@[simp] theorem endsWithin_execWarmReady {s : State} (h : coresIn s.cores) : EndsWithin (execWarmReady s) :=
  endsWithin_when.2 ⟨fun _ => h, fun _ => coresIn_warmReady h⟩

@[simp] theorem endsWithin_execCsrWrite {s : State} (h : coresIn s.cores) (a : Nat) (v : W64) : EndsWithin (execCsrWrite a v s) := by
  refine endsWithin_when.2 ⟨fun _ => h, fun _ => ?_⟩
  split
  · next t ht =>
    have ht := coresIn_of_writeCsr h ht
    exact ht
  · exact h

-- Every command

/-- Every command keeps the cores within their limits. -/
theorem endsWithin_exec {s : State} (h : coresIn s.cores) (i : Instr) : EndsWithin (exec i s) := by
  cases i
  all_goals
    rw [exec]
    simp [h]

/-- Settles O3: the command at the front of the queue keeps the limits of every core, and the queue is no part of them. -/
theorem stepKeepsCoreLimits : Obligations.StepKeepsCoreLimits := by
  unfold Obligations.StepKeepsCoreLimits
  intro s t h hstep
  unfold step at hstep
  split at hstep
  · cases hstep
    exact h
  · next i rest _ =>
    have hi : coresIn ({ s with pending := rest } : State).cores := h
    exact endsWithin_exec hi i t hstep
end Sys2Proof.Machine

/-! PROOFS. Work counters and claim ledgers, and the instructions that ask them (R161 to R163, R224 to R227). -/
namespace Sys2Proof.Machine

open Sys2Proof

-- Requests of a core

/-- An instruction that waits for nothing has its effect, and is counted. -/
theorem finlenWait_runs {q : Issue} {i : Instr} {s : State} {run : State → State} (h : runs q i s) :
    finlenWait q i s true run = .next (run (bump s (csqBase q.core + 0x48) 1)) := by
  simp [finlenWait, finlenOp, finlen_runs h]

/-- A request that a core sends joins its requests at the end, with the next issue number, the running reel and its PC. -/
theorem ctrReqs_sendCtr (s : State) (c : Nat) (f : Nat → Nat → Nat → CtrReq) :
    (core (sendCtr s c f) c).ctrReqs = (core s c).ctrReqs ++ [f ((core s c).issued + 1) (core s c).running (runningReel s c).pc] := by
  simp [sendCtr, nextId, runningReel]

/-- The end of an instruction leaves the requests of the cores alone. -/
theorem ctrReqs_stepPc (s : State) (c d : Nat) (i : Instr) : (core (stepPc s c i) d).ctrReqs = (core s d).ctrReqs := by
  by_cases h : d = c <;> simp [stepPc, withReel, h]

/-- The units that a command of a reel's register names are there. -/
theorem reelReg_ok {c reel rd : Nat} (hc : c < 208) (hr : reel < 8) (hd : rd < 32) : (coreOk c && reelOk reel && regOk rd) = true := by
  simp [coreOk, reelOk, regOk, hc, hr, hd]

-- What a work counter serves (R161, R162)

/-- A work counter serves the request that finds no answer in its window. -/
theorem wkcFetchAdd_serves {c reel rd : Nat} {s : State} {r : CtrReq} (hu : (coreOk c && reelOk reel && regOk rd) = true)
    (hfast : fast s = true) (hfenced : (core s c).fenced = false)
    (hr : findReq (core s c) reel rd (fun r => !r.tcmt && (r.answer.isNone || r.resent)) = some r) :
    let a := fetchAdd (wkcOf s r.ctr) ((core s c).take.elim 0 (·.2)) (lcoreNo (core s c)) r.reqId r.arg
    exec (.wkcFetchAdd c reel rd) s = .next (setCore (setWkc s r.ctr a.2) c
      (if r.killed then dropReq (core s c) r.id else modReq (core s c) r.id fun r => { r with answer := some a.1, resent := false })) := by
  have htag : (match (core s c).take with | some t => t.2 | none => 0) = (core s c).take.elim 0 (·.2) := by
    cases (core s c).take <;> rfl
  show execWkcFetchAdd c reel rd s = _
  simp only [execWkcFetchAdd, hu, hr, onUnit_true, hfast, hfenced, ← htag]
  rfl

/-- A resend only marks its request. -/
theorem counterResend_marks {c reel rd : Nat} {s : State} {r : CtrReq} (hu : (coreOk c && reelOk reel && regOk rd) = true)
    (hfast : fast s = true) (hfenced : (core s c).fenced = false)
    (hr : findReq (core s c) reel rd (fun r => !r.copying && !r.killed) = some r) :
    exec (.counterResend c reel rd) s = .next (setCore s c (modReq (core s c) r.id fun r => { r with resent := true })) := by
  show execCounterResend c reel rd s = _
  simp only [execCounterResend, hu, hr, onUnit_true, hfast, hfenced]
  rfl

/-- A FETCH of a bound counter sends one request (R224). -/
theorem fetch_sends {q : Issue} {rd ra rb : Nat} {dev : Bool} {num k : Nat} {s : State} (h : runs q (.fetch q rd ra rb dev num) s)
    (hk : boundCtr s q.core dev num = some k) (h1 : 1 ≤ ((runningReel s q.core).get ra).toNat)
    (h2 : ((runningReel s q.core).get ra).toNat ≤ 65535) :
    ∃ t, exec (.fetch q rd ra rb dev num) s = .next t ∧ (core t q.core).ctrReqs = (core s q.core).ctrReqs ++
      [csqRequest s q.core rd false k (((runningReel s q.core).get rb).toNat % 65536) ((runningReel s q.core).get ra).toNat []] := by
  have hinc : ¬(((runningReel s q.core).get ra).toNat = 0 ∨ 65535 < ((runningReel s q.core).get ra).toNat) := by omega
  rw [show exec (.fetch q rd ra rb dev num) s = execFetch q rd ra rb dev num s from rfl]
  simp only [execFetch, hk, Option.isSome_some, finlenWait_runs h, runningReel_bump, if_neg hinc, Option.getD_some]
  refine ⟨_, rfl, ?_⟩
  simp only [ctrReqs_stepPc, ctrReqs_sendCtr, core_bump, runningReel_bump, csqRequest]

/-- The window of a work counter knows a request that it served. -/
theorem fetchAdd_known {w : Wkc} {tag lcore id inc : Nat} {e : WkcWin}
    (h : w.window.find? (fun e => e.tag = tag ∧ e.lcore = lcore ∧ e.reqId = id) = some e) :
    fetchAdd w tag lcore id inc = (e.value, w) := by
  simp only [fetchAdd, h]

/-- A request that the window does not know is answered with the value before it, and enters the window. -/
theorem fetchAdd_new {w : Wkc} {tag lcore id inc : Nat}
    (h : w.window.find? (fun e => e.tag = tag ∧ e.lcore = lcore ∧ e.reqId = id) = none) :
    fetchAdd w tag lcore id inc = (w.value, { w with
      value := (w.value + inc) % 2 ^ 32,
      window := ({ tag := tag, lcore := lcore, reqId := id, value := w.value } :: w.window).take 256 }) := by
  simp only [fetchAdd, h]

/-- A repeat gives the first's answer and changes nothing. -/
theorem fetchAdd_again (w : Wkc) (tag lcore id inc inc' : Nat) :
    fetchAdd (fetchAdd w tag lcore id inc).2 tag lcore id inc' = fetchAdd w tag lcore id inc := by
  cases hw : w.window.find? fun e => e.tag = tag ∧ e.lcore = lcore ∧ e.reqId = id with
  | some e => rw [fetchAdd_known hw, fetchAdd_known hw]
  | none =>
    rw [fetchAdd_new hw]
    exact fetchAdd_known (w := { w with value := _, window := _ }) (e := { tag := tag, lcore := lcore, reqId := id, value := w.value }) (by simp)

/-- Settles O21: a resend marks its request, a counter serves it once, and the window of 256 gives the first's answer to a repeat. -/
theorem fetchAddOnce : Obligations.FetchAddOnce := by
  unfold Obligations.FetchAddOnce
  refine ⟨fun c reel rd s r hc hreel hrd hfast hfenced hr => wkcFetchAdd_serves (reelReg_ok hc hreel hrd) hfast hfenced hr,
    fun c reel rd s r hc hreel hrd hfast hfenced hr => counterResend_marks (reelReg_ok hc hreel hrd) hfast hfenced hr,
    fun q rd ra rb dev num k s h hk h1 h2 => fetch_sends h hk h1 h2, fun w tag lcore id inc => ⟨fun hnew => ?_, fun inc' => ?_⟩⟩
  · have hw : w.window.find? (fun e => e.tag = tag ∧ e.lcore = lcore ∧ e.reqId = id) = none :=
      List.find?_eq_none.2 fun e he => by simpa using hnew e he
    rw [fetchAdd_new hw]
    refine ⟨rfl, rfl, rfl, ?_⟩
    rw [List.length_take]
    omega
  · exact fetchAdd_again w tag lcore id inc inc'

-- What a claim ledger records (R163)

/-- What a commit writes and counts leaves the memories alone. -/
theorem ledgerCommit_records {c reel rd : Nat} {s : State} {r : CtrReq} (hu : (coreOk c && reelOk reel && regOk rd) = true)
    (hfast : fast s = true) (hfenced : (core s c).fenced = false)
    (hr : findReq (core s c) reel rd (fun r => r.tcmt && r.answer.isNone) = some r) :
    ∃ t, exec (.ledgerCommit c reel rd) s = .next t ∧ wkcOf t r.ctr = (claim (wkcOf s r.ctr) c r.arg).2 ∧
      (∀ k, k ≠ r.ctr → wkcOf t k = wkcOf s k) ∧ sameBytes s t ∧
      core t c = modReq (core s c) r.id fun r' => { r' with answer := some (claim (wkcOf s r.ctr) c r.arg).1, resent := false } := by
  rw [show exec (.ledgerCommit c reel rd) s = execLedgerCommit c reel rd s from rfl]
  simp only [execLedgerCommit, hu, hr, onUnit_true, hfast, hfenced, Bool.not_false, Bool.and_self, when_true]
  refine ⟨_, rfl, ?_⟩
  split
  · exact ⟨by simp, fun k hk => by simp [hk], fun a => devByte_congr (by simp) (by simp) (by simp) a, by simp⟩
  · exact ⟨by simp, fun k hk => by simp [hk], fun a => devByte_congr (by simp) (by simp) (by simp) a, by simp⟩

/-- A result that comes back stands in its register. -/
theorem get_setReg (x : Core) (reel rd id : Nat) (v : W64) (hrd : rd ≠ 0) :
    (reelOf (dropReq (setReg x reel rd v) id) reel).get rd = v := by
  rw [show reelOf (dropReq (setReg x reel rd v) id) reel = reelOf (setReg x reel rd v) reel from rfl, setReg, reelOf_withReel, if_pos rfl,
    Reel.get_set _ _ _ _ hrd, if_pos rfl]

/-- The answer to a commit of a claim that another made is 0x0A in its register (R227). -/
theorem tcmtAnswer_duplicate {c reel rd : Nat} {s : State} {r : CtrReq} (hu : (coreOk c && reelOk reel && regOk rd) = true)
    (hfast : fast s = true) (hfenced : (core s c).fenced = false)
    (hr : findReq (core s c) reel rd (fun r => r.tcmt && r.answer.isSome && !r.copying) = some r) (ha : r.answer = some 0x0A)
    (hk : r.killed = false) :
    exec (.tcmtAnswer c reel rd) s = .next (setCore s c (dropReq (setReg (core s c) reel rd 0x0A) r.id)) := by
  show execTcmtAnswer c reel rd s = _
  simp only [execTcmtAnswer, hu, hr, onUnit_true, hfast, hfenced, hk, ha]
  rfl

/-- The end of a commit's copies writes 0 to its register (R227). -/
theorem tcmtCopyDone_writes {c reel rd : Nat} {s : State} {r : CtrReq} (hu : (coreOk c && reelOk reel && regOk rd) = true)
    (hfast : fast s = true) (hfenced : (core s c).fenced = false)
    (hr : findReq (core s c) reel rd (fun r => r.copying) = some r) (hk : r.killed = false) :
    exec (.tcmtCopyDone c reel rd) s = .next (setCore s c (dropReq (setReg (core s c) reel rd 0) r.id)) := by
  show execTcmtCopyDone c reel rd s = _
  simp only [execTcmtCopyDone, hu, hr, onUnit_true, hfast, hfenced, hk]
  rfl

/-- A core put back leaves the memories alone. -/
theorem sameBytes_setCore (s : State) (c : Nat) (x : Core) : sameBytes s (setCore s c x) :=
  fun a => devByte_congr (by simp) (by simp) (by simp) a

/-- What a TCMT writes is read as before an issue is counted. -/
theorem commitDst_bump (s : State) (a n c : Nat) (g : Nat × Nat × Nat) : commitDst (bump s a n) c g = commitDst s c g := (rfl)

/-- The words of a core are read as before an issue is counted. -/
theorem sramReads_bump (s : State) (a n c off len : Nat) : sramReads (bump s a n) c off len = sramReads s c off len := (rfl)

/-- A TCMT of a bound ledger, whose record is in order, sends one claim (R226). -/
theorem tcmt_sends {q : Issue} {rd ra rb : Nat} {dev : Bool} {num k : Nat} {s : State} (h : runs q (.tcmt q rd ra rb dev num) s)
    (hk : boundCtr s q.core dev num = some k) (hlt : ((runningReel s q.core).get rb).toNat < 2 ^ 24)
    (hal : ((runningReel s q.core).get rb).toNat % 64 = 0)
    (hbad : commitBad (sramReads s q.core ((runningReel s q.core).get rb).toNat 64) = false)
    (hdst : ∀ g ∈ commitRanges (sramReads s q.core ((runningReel s q.core).get rb).toNat 64), commitDst s q.core g = true) :
    ∃ t, exec (.tcmt q rd ra rb dev num) s = .next t ∧ sameBytes s t ∧ (core t q.core).ctrReqs = (core s q.core).ctrReqs ++
      [csqRequest s q.core rd true k 0 (((runningReel s q.core).get ra).toNat % 2 ^ 32)
        (commitRanges (sramReads s q.core ((runningReel s q.core).get rb).toNat 64))] := by
  have hgood : ¬(¬(isCoreAddr ((runningReel s q.core).get rb).toNat = true ∧ ((runningReel s q.core).get rb).toNat % 64 = 0) ∨
      commitBad (sramReads s q.core ((runningReel s q.core).get rb).toNat 64) = true) := by
    rw [show isCoreAddr _ = true from decide_eq_true hlt, hal, hbad]
    decide
  have hfind : (commitRanges (sramReads s q.core ((runningReel s q.core).get rb).toNat 64)).find?
      (fun g => !commitDst (bump s (csqBase q.core + 0x48) 1) q.core g) = none :=
    List.find?_eq_none.2 fun g hg => by simp [commitDst_bump, hdst g hg]
  rw [show exec (.tcmt q rd ra rb dev num) s = execTcmt q rd ra rb dev num s from rfl]
  simp only [execTcmt, hk, Option.isSome_some, finlenWait_runs h, runningReel_bump, sramReads_bump, if_neg hgood, hfind, Option.getD_some]
  refine ⟨_, rfl, fun a => devByte_congr (by simp [stepPc, sendCtr]) (by simp [stepPc, sendCtr]) (by simp [stepPc, sendCtr]) a, ?_⟩
  simp only [ctrReqs_stepPc, ctrReqs_sendCtr, core_bump, runningReel_bump, csqRequest]

/-- A claim outside the range of its ledger is not recorded. -/
theorem claim_outside {w : Wkc} {c k : Nat} (h : ¬(k + 2 ^ 32 - w.init) % 2 ^ 32 < 65536) : claim w c k = (0x0E, w) := by
  rw [claim, if_pos (by omega)]

/-- A claim that the ledger has is a duplicate. -/
theorem claim_duplicate {w : Wkc} {c k : Nat} (h : (k + 2 ^ 32 - w.init) % 2 ^ 32 < 65536) (hk : ∃ e ∈ w.ledger, e.1 = k) :
    claim w c k = (0x0A, w) := by
  rw [claim, if_neg (by omega), if_pos (by simpa using hk)]

/-- The first claim in range is recorded with the core that made it. -/
theorem claim_first {w : Wkc} {c k : Nat} (h : (k + 2 ^ 32 - w.init) % 2 ^ 32 < 65536) (hk : ∀ e ∈ w.ledger, e.1 ≠ k) :
    claim w c k = (0, { w with ledger := w.ledger ++ [(k, c)] }) := by
  rw [claim, if_neg (by omega), if_neg fun hany => ?_]
  obtain ⟨e, he, hek⟩ := List.any_eq_true.1 hany
  exact hk e he (of_decide_eq_true hek)

/-- Settles O22: what a TCMT sends, what its ledger records, and what comes back. -/
theorem claimOnce : Obligations.ClaimOnce := by
  unfold Obligations.ClaimOnce
  refine ⟨fun c reel rd s r hc hreel hrd hfast hfenced hr => ledgerCommit_records (reelReg_ok hc hreel hrd) hfast hfenced hr,
    fun c reel rd s r hc hreel hrd hfast hfenced hr ha hk => ?_, fun c reel rd s r hc hreel hrd hfast hfenced hr hk => ?_,
    fun q rd ra rb dev num k s h hk hlt hal hbad hdst => tcmt_sends h hk hlt hal hbad hdst, fun w c' c'' k => ⟨claim_outside, fun hin hk => ?_⟩⟩
  · exact ⟨_, tcmtAnswer_duplicate (reelReg_ok hc hreel hrd) hfast hfenced hr ha hk, sameBytes_setCore _ _ _, fun h0 => by simp [get_setReg, h0]⟩
  · exact ⟨_, tcmtCopyDone_writes (reelReg_ok hc hreel hrd) hfast hfenced hr hk, sameBytes_setCore _ _ _, fun h0 => by simp [get_setReg, h0]⟩
  · rw [claim_first hin hk]
    exact ⟨rfl, rfl, rfl, claim_duplicate (w := { w with ledger := _ }) hin ⟨(k, c'), by simp, rfl⟩⟩

end Sys2Proof.Machine

/-! PROOFS. ARRIVE and WAIT, and what arrivals and waits do to barrier counters (R131, R132, R223, R236). -/
namespace Sys2Proof.Machine

open Sys2Proof

-- ARRIVE and WAIT (R223)

/-- A core whose CSQ is live has not trapped. -/
theorem trapped_of_runs {q : Issue} {i : Instr} {s : State} (h : runs q i s) : (core s q.core).trapped = false := by
  obtain ⟨⟨-, -, hlive, -⟩, -⟩ := h
  simp only [csqLive, Bool.and_eq_true, Bool.not_eq_true'] at hlive
  exact hlive.1.2

/-- An instruction that has its effect at once is counted. -/
theorem finlenOp_runs {q : Issue} {i : Instr} {s : State} {run : State → State} (h : runs q i s) :
    finlenOp q i s run = .next (run (bump s (csqBase q.core + 0x48) 1)) :=
  finlen_runs h

/-- What a core sends itself arrives at once; what it sends another goes out as a flit. -/
theorem sendArrival_fab (s : State) (a : Arrival) :
    (a.dst = a.src → (sendArrival s none [] a).fab.arrivals = s.fab.arrivals ++ [a] ∧ (sendArrival s none [] a).fab.flits = s.fab.flits) ∧
    (a.dst ≠ a.src → (sendArrival s none [] a).fab.arrivals = s.fab.arrivals ∧
      (sendArrival s none [] a).fab.flits.map (·.arrival) = s.fab.flits.map (·.arrival) ++ [a]) := by
  refine ⟨fun h => ?_, fun h => ?_⟩
  · simp [sendArrival, h]
  · simp [sendArrival, Ne.symm h]

/-- An arrival that is sent changes the fabric alone. -/
theorem sendArrival_fields (s : State) (k : Option Nat) (l : List Nat) (a : Arrival) :
    ∃ f, sendArrival s k l a = { s with fab := f } := by
  unfold sendArrival
  (repeat' split) <;> exact ⟨_, rfl⟩

/-- What a core that sends an arrival and goes on leaves of its state. -/
theorem sent_arrival (s : State) (c d mu ctr n : Nat) (i : Instr) :
    let t := stepPc (sendArrival (setCore s c (nextId (core s c)).2) none [] (csqArrival s c d mu ctr n)) c i
    sameBytes s t ∧ runningReel t c = (runningReel s c).next (wordsOf i) ∧
      (d = c → t.fab.arrivals = s.fab.arrivals ++ [csqArrival s c d mu ctr n] ∧ t.fab.flits = s.fab.flits) ∧
      (d ≠ c → t.fab.arrivals = s.fab.arrivals ∧ t.fab.flits.map (·.arrival) = s.fab.flits.map (·.arrival) ++ [csqArrival s c d mu ctr n]) := by
  obtain ⟨f, hf⟩ := sendArrival_fields (setCore s c (nextId (core s c)).2) none [] (csqArrival s c d mu ctr n)
  obtain ⟨hown, hother⟩ := sendArrival_fab (setCore s c (nextId (core s c)).2) (csqArrival s c d mu ctr n)
  refine ⟨fun a => devByte_congr ?_ ?_ ?_ a, ?_, hown, hother⟩
  · simp [hf, stepPc]
  · simp [hf, stepPc]
  · simp [hf, stepPc]
  · have hr : runningReel (setCore s c (nextId (core s c)).2) c = runningReel s c := by simp [runningReel, nextId, reelOf]
    rw [stepPc, runningReel_modRunning, hf]
    exact congrArg (·.next (wordsOf i)) hr

/-- The core that an ARRIVE names: its own, or with REM the one of that index in its rectangle. -/
def arriveDst (s : State) (c ra : Nat) (rem : Bool) : Option Nat :=
  if rem then if rectOf (core s c) ≤ ((runningReel s c).get ra).toNat then none
    else (core s c).place.bind fun p => coreAtIndex s p.slot ((runningReel s c).get ra).toNat
  else some c

/-- An ARRIVE to a core of the rectangle sends its arrival there and goes on. -/
theorem exec_arrive_of_some {q : Issue} {ra mu ctr n d : Nat} {rem : Bool} {s : State} (h : runs q (.arrive q ra mu ctr n rem) s)
    (hd : arriveDst (bump s (csqBase q.core + 0x48) 1) q.core ra rem = some d) :
    let u := bump s (csqBase q.core + 0x48) 1
    exec (.arrive q ra mu ctr n rem) s = .next (stepPc (sendArrival (setCore u q.core (nextId (core u q.core)).2) none []
      (csqArrival u q.core d mu ctr n)) q.core (.arrive q ra mu ctr n rem)) := by
  show execArrive q ra mu ctr n rem s = _
  simp only [execArrive, finlenOp_runs h]
  generalize bump s (csqBase q.core + 0x48) 1 = u at hd ⊢
  cases rem with
  | false =>
    cases hd
    rfl
  | true =>
    simp only [arriveDst, if_true] at hd
    simp only [not_true, if_false, hd]
    rfl

theorem coreAtIndex_bump (s : State) (a n slot idx : Nat) : coreAtIndex (bump s a n) slot idx = coreAtIndex s slot idx := (rfl)

theorem arriveDst_bump (s : State) (a n c ra : Nat) (rem : Bool) : arriveDst (bump s a n) c ra rem = arriveDst s c ra rem := by
  simp only [arriveDst, core_bump, runningReel_bump, coreAtIndex_bump]

theorem csqArrival_bump (s : State) (a k c d mu ctr n : Nat) : csqArrival (bump s a k) c d mu ctr n = csqArrival s c d mu ctr n := by
  simp only [csqArrival, core_bump, runningReel_bump]

/-- What an ARRIVE does whose core is in the rectangle. -/
theorem arrive_sends {q : Issue} {ra mu ctr n d : Nat} {rem : Bool} {s : State} (h : runs q (.arrive q ra mu ctr n rem) s)
    (hd : arriveDst s q.core ra rem = some d) :
    ∃ t, exec (.arrive q ra mu ctr n rem) s = .next t ∧ sameBytes s t ∧ runningReel t q.core = (runningReel s q.core).next 1 ∧
      (d = q.core → t.fab.arrivals = s.fab.arrivals ++ [csqArrival s q.core d mu ctr n] ∧ t.fab.flits = s.fab.flits) ∧
      (d ≠ q.core → t.fab.arrivals = s.fab.arrivals ∧
        t.fab.flits.map (·.arrival) = s.fab.flits.map (·.arrival) ++ [csqArrival s q.core d mu ctr n]) := by
  have hexec := exec_arrive_of_some h ((arriveDst_bump s (csqBase q.core + 0x48) 1 q.core ra rem).trans hd)
  have hsent := sent_arrival (bump s (csqBase q.core + 0x48) 1) q.core d mu ctr n (.arrive q ra mu ctr n rem)
  simp only [csqArrival_bump, runningReel_bump, bump_fab] at hexec hsent
  obtain ⟨hbytes, hreel, hown, hother⟩ := hsent
  refine ⟨_, hexec, fun a => (hbytes a).trans ?_, hreel, hown, hother⟩
  exact devByte_congr (by simp) (by simp) (by simp) a

/-- An ARRIVE to an index outside the rectangle traps. -/
theorem exec_arrive_of_none {q : Issue} {ra mu ctr n : Nat} {s : State} (h : runs q (.arrive q ra mu ctr n true) s)
    (hd : rectOf (core s q.core) ≤ ((runningReel s q.core).get ra).toNat) :
    exec (.arrive q ra mu ctr n true) s =
      .next (trapHere (bump s (csqBase q.core + 0x48) 1) q.core 0x0C ((runningReel s q.core).get ra).toNat 0) := by
  show execArrive q ra mu ctr n true s = _
  simp only [execArrive, finlenOp_runs h, core_bump, runningReel_bump, hd, if_true, not_true, if_false]

/-- A counter's queue that has a place takes the waiter at its end. -/
theorem joinBar_of_room {x : Core} {mu ctr : Nat} (w : Waiter) (h : (barOf x mu ctr).waiters.length < 32) :
    joinBar x mu ctr w = some (withBar x mu ctr (joined (barOf x mu ctr) w)) :=
  joinBar_eq_some_iff.2 ⟨h, rfl⟩

@[simp] theorem barOf_withReel (x : Core) (r : Nat) (y : Reel) (mu ctr : Nat) : barOf (withReel x r y) mu ctr = barOf x mu ctr := (rfl)

@[simp] theorem reelOf_withBar (x : Core) (mu ctr : Nat) (b : Bar) (r : Nat) : reelOf (withBar x mu ctr b) r = reelOf x r := (rfl)

@[simp] theorem barOf_withBar_same (x : Core) (mu ctr : Nat) (b : Bar) : barOf (withBar x mu ctr b) mu ctr = b := by
  simp [barOf, withBar]

/-- A WAIT whose counter's queue has a place joins it and holds its reel. -/
theorem wait_joins {q : Issue} {mu ctr n : Nat} {s : State} (h : runs q (.wait q mu ctr n) s)
    (hroom : (barOf (core s q.core) mu ctr).waiters.length < 32) :
    ∃ t, exec (.wait q mu ctr n) s = .next t ∧ frameCore s t q.core [csqBase q.core + 0x48] ∧
      barOf (core t q.core) mu ctr = joined (barOf (core s q.core) mu ctr) { who := .reel (core s q.core).running, n := n } ∧
      runningReel t q.core = { (runningReel s q.core).next 1 with hold := .bar mu ctr } := by
  rw [show exec (.wait q mu ctr n) s = execWait q mu ctr n s from rfl]
  simp only [execWait, hroom, decide_true, finlenWait_runs h]
  refine ⟨_, rfl, ⟨?_, fun a => devByte_congr (by simp [stepPc]) (by simp [stepPc]) (by simp [stepPc]) a, fun d hd => ?_, fun a ha => ?_⟩, ?_, ?_⟩
  · apply frame_fields <;> simp [stepPc]
  · simp [stepPc, hd]
  · simp only [List.mem_singleton] at ha
    simp [stepPc, ha]
  · simp [stepPc, joinBar_of_room, hroom, joined]
  · simp [stepPc, joinBar_of_room, hroom, runningReel, wordsOf, Instr.long]

/-- A WAIT at a full queue waits to join, at its own PC. -/
theorem wait_waits {q : Issue} {mu ctr n : Nat} {s : State} (h : runs q (.wait q mu ctr n) s)
    (hfull : 32 ≤ (barOf (core s q.core) mu ctr).waiters.length) : exec (.wait q mu ctr n) s = .next s := by
  have hroom : ¬(barOf (core s q.core) mu ctr).waiters.length < 32 := by omega
  show execWait q mu ctr n s = _
  simp [execWait, hroom, finlenWait, finlenOp_runs h]

/-- Settles O16: where an ARRIVE goes, and how a WAIT joins its counter's queue or waits to join it. -/
theorem barrierInstructions : Obligations.BarrierInstructions := by
  unfold Obligations.BarrierInstructions
  refine ⟨fun q mu ctr n s h => ?_, fun q ra mu ctr n d s h hlt hd => ?_, fun q ra mu ctr n s h hge => ?_,
    fun q mu ctr n s h hroom => wait_joins h hroom, fun q mu ctr n s h hfull => wait_waits h hfull⟩
  · obtain ⟨t, ht, hbytes, hreel, hown, -⟩ := arrive_sends (d := q.core) h rfl
    obtain ⟨harr, hflits⟩ := hown rfl
    exact ⟨t, ht, hbytes, harr, hflits, hreel⟩
  · have hdst : arriveDst s q.core ra true = some d := by rw [arriveDst, if_pos rfl, if_neg (Nat.not_le.2 hlt), hd]
    obtain ⟨t, ht, hbytes, hreel, hown, hother⟩ := arrive_sends h hdst
    exact ⟨t, ht, hbytes, hreel, fun he => by simpa [he] using hown he, hother⟩
  · exact trapsAt_of (trapped_of_runs h) (exec_arrive_of_none h hge)

-- What prefetches leave of a core

/-- Nothing of a core but its guards and its running transfers has changed. -/
def sameButGuards (x y : Core) : Prop := { y with guards := x.guards, xfrs := x.xfrs } = x

theorem sameButGuards.refl (x : Core) : sameButGuards x x := rfl

theorem sameButGuards.trans {x y z : Core} (h : sameButGuards x y) (h' : sameButGuards y z) : sameButGuards x z := by
  unfold sameButGuards at *
  rw [← h, ← h']

/-- Barrier counters are no part of what a prefetch changes. -/
theorem sameButGuards.bars {x y : Core} (h : sameButGuards x y) : y.bars = x.bars := by
  unfold sameButGuards at h
  rw [← h]

theorem sameButGuards.mxe {x y : Core} (h : sameButGuards x y) : y.mxe = x.mxe := by
  unfold sameButGuards at h
  rw [← h]

/-- Changes of cores, one after the other, leave the rest of the state. -/
theorem exists_foldl_modCore (f : Nat → Core → Core) (l : List Nat) (s : State) :
    ∃ t, l.foldl (fun s d => modCore s d (f d)) s = { s with cores := t } := by
  induction l generalizing s with
  | nil => exact ⟨_, rfl⟩
  | cons d l ih =>
    obtain ⟨t, ht⟩ := ih (modCore s d (f d))
    exact ⟨t, ht⟩

/-- Cores whose guards and transfers alone change. -/
theorem sameButGuards_foldl {f : Nat → Core → Core} (hf : ∀ d x, sameButGuards x (f d x)) (l : List Nat) (s : State) (d : Nat) :
    sameButGuards (core s d) (core (l.foldl (fun s d => modCore s d (f d)) s) d) := by
  induction l generalizing s with
  | nil => exact .refl _
  | cons e l ih =>
    refine .trans ?_ (ih _)
    rw [core_modCore]
    split
    · next h => exact h ▸ hf _ _
    · exact .refl _

/-- What is released of a core's prefetches is no more than guards and marks of transfers. -/
theorem sameButGuards_release (c mu ctr d : Nat) (l : List (Nat × Nat × Nat)) (x : Core) : sameButGuards x (release c mu ctr d l x) := rfl

-- A wait takes arrivals away (R131)

/-- What a wait consumes: the counter's remainder, guards and marks of transfers. -/
theorem consume_spec (s : State) (c mu ctr w : Nat) :
    ∃ n, (∃ t, consume s c mu ctr w = { s with cores := t }) ∧ ∀ d, sameButGuards
      (core (modCore s c fun x => withBar x mu ctr { barOf (core s c) mu ctr with rest := n }) d) (core (consume s c mu ctr w) d) := by
  simp only [consume]
  split
  · exact ⟨_, ⟨_, rfl⟩, fun d => .refl _⟩
  · refine ⟨_, ?_, fun d => sameButGuards_foldl (fun d => sameButGuards_release c mu ctr d _) _ _ d⟩
    obtain ⟨t, ht⟩ := exists_foldl_modCore (fun d => release c mu ctr d _) (s.cores.map (·.1)) (modCore s c _)
    exact ⟨t, ht⟩

-- What heads that join leave (R222)

/-- A waiter that joins leaves the counts. -/
theorem count_withBar_joined (x : Core) (m k : Nat) (w : Waiter) (m' k' : Nat) :
    (barOf (withBar x m k (joined (barOf x m k) w)) m' k').count = (barOf x m' k').count := by
  simp only [barOf, withBar, tget_tset]
  split
  · next h => rw [h]; rfl
  · rfl

/-- What heads that join leave beside `HeadsJoined`: the reels, the counts, and which descriptors a wait has released. -/
structure HeadsOnlyJoined (x y : Core) : Prop where
  reels : y.reels = x.reels
  count : ∀ m k, (barOf y m k).count = (barOf x m k).count
  marks : ∀ k, (queueOf y k).map (fun d => (d.id, d.released)) = (queueOf x k).map fun d => (d.id, d.released)

/-- The head of one queue. -/
theorem headsOnlyJoined_joinHead (x : Core) (key : Nat) : HeadsOnlyJoined x (joinHead x key) := by
  unfold joinHead
  split
  · next d rest hq =>
    dsimp only
    split
    · exact ⟨rfl, fun _ _ => rfl, fun _ => rfl⟩
    · split
      · next y hy =>
        obtain ⟨-, rfl⟩ := joinBar_eq_some_iff.1 hy
        refine ⟨rfl, count_withBar_joined x _ _ _, fun k => ?_⟩
        rw [setHead, queueOf_withQueue]
        split
        · next h =>
          subst h
          have hq' : queueOf (withBar x (dStart d.bytes).mu (dStart d.bytes).ctr
            (joined (barOf x (dStart d.bytes).mu (dStart d.bytes).ctr) { who := .desc d.id, n := (dStart d.bytes).n })) k = d :: rest := hq
          rw [hq', hq]
          rfl
        · rfl
      · exact ⟨rfl, fun _ _ => rfl, fun _ => rfl⟩
  · exact ⟨rfl, fun _ _ => rfl, fun _ => rfl⟩

theorem HeadsOnlyJoined.trans {x y z : Core} (h : HeadsOnlyJoined x y) (h' : HeadsOnlyJoined y z) : HeadsOnlyJoined x z :=
  ⟨h'.reels.trans h.reels, fun m k => (h'.count m k).trans (h.count m k), fun k => (h'.marks k).trans (h.marks k)⟩

/-- The heads of all queues. -/
theorem headsOnlyJoined_joinHeads (x : Core) : HeadsOnlyJoined x (joinHeads x) :=
  List.foldlRecOn queueKeys joinHead (motive := HeadsOnlyJoined x) ⟨rfl, fun _ _ => rfl, fun _ => rfl⟩
    fun _ hy key _ => hy.trans (headsOnlyJoined_joinHead _ key)

/-- Every released mark of a queue stays as heads join. -/
theorem HeadsOnlyJoined.released {x y : Core} (h : HeadsOnlyJoined x y) {id key : Nat}
    (hx : ∀ d ∈ queueOf x key, d.id = id → d.released = true) : ∀ d ∈ queueOf y key, d.id = id → d.released = true := by
  intro d hd hid
  have hmem : (d.id, d.released) ∈ (queueOf x key).map fun d => (d.id, d.released) :=
    h.marks key ▸ List.mem_map_of_mem hd
  obtain ⟨e, he, heq⟩ := List.mem_map.1 hmem
  obtain ⟨hide, hrel⟩ := Prod.mk.inj heq
  rw [← hrel]
  exact hx e he (hide.trans hid)

-- What a satisfied waiter changes (R131)

/-- A satisfied waiter leaves the counters. -/
@[simp] theorem satisfied_bars (x : Core) (w : Who) : (satisfied x w).bars = x.bars := by
  cases w <;> rfl

/-- What a satisfied waiter waited for: its reel is held no longer, its descriptor may start, or the check has reported. -/
def isSatisfied (x y : Core) : Who → Prop
  | .reel r => (reelOf y r).hold = .free
  | .desc q => ∀ key, ∀ d ∈ queueOf y key, d.id = q → d.released = true
  | .mxeCheck => y.mxe.pass = x.mxe.pass.map fun p => { p with checkOk := true }

/-- What is found in a table all of whose entries were changed. -/
theorem tget_map {α : Type} (d : α) (f : α → α) (hd : f d = d) (t : Tab α) (k : Nat) : tget d (t.map fun e => (e.1, f e.2)) k = f (tget d t k) := by
  induction t with
  | nil => exact hd.symm
  | cons e t ih =>
    simp only [List.map_cons, tget]
    split
    · rfl
    · exact ih

/-- The descriptor that a wait releases is marked. -/
def markReleased (id : Nat) (d : QDesc) : QDesc := if d.id = id then { d with released := true } else d

theorem isSatisfied_satisfied (x : Core) (w : Who) : isSatisfied x (satisfied x w) w := by
  cases w with
  | reel r => simp [isSatisfied, satisfied]
  | desc q =>
    intro key d hd hid
    have hq : queueOf (satisfied x (.desc q)) key = (queueOf x key).map (markReleased q) :=
      tget_map [] (List.map (markReleased q)) rfl x.queues key
    rw [hq] at hd
    obtain ⟨e, -, rfl⟩ := List.mem_map.1 hd
    unfold markReleased at hid ⊢
    split at hid
    · next h => rw [if_pos h]
    · next h => exact absurd hid h
  | mxeCheck => rfl

/-- Heads that join leave it satisfied. -/
theorem isSatisfied_joinHeads {x y : Core} {w : Who} (h : isSatisfied x y w) : isSatisfied x (joinHeads y) w := by
  have hj := headsOnlyJoined_joinHeads y
  cases w with
  | reel r =>
    unfold isSatisfied reelOf
    rw [hj.reels]
    exact h
  | desc q => exact fun key => hj.released (h key)
  | mxeCheck =>
    have hm : (joinHeads y).mxe = y.mxe := (headsJoined_foldl queueKeys y).mxe
    unfold isSatisfied at *
    rw [hm]
    exact h

-- Waits that are satisfied (R131)

/-- A core that a head waiter's count has been taken from, and the waiter with it. -/
def takenFrom (x : Core) (mu ctr n : Nat) (rest : List Waiter) : Core :=
  withBar x mu ctr { barOf x mu ctr with count := (barOf x mu ctr).count - n, waiters := rest }

/-- A head waiter whose n the count reaches is satisfied, and the heads of queues join. -/
theorem exec_barrierWaitSatisfy_of_le {c mu ctr n : Nat} {w : Who} {rest : List Waiter} {s : State}
    (hu : (coreOk c && muOk mu && ctrOk ctr) = true) (hfast : fast s = true) (hfenced : (core s c).fenced = false)
    (hw : (barOf (core s c) mu ctr).waiters = { who := w, n := n } :: rest) (hn : n ≤ (barOf (core s c) mu ctr).count) :
    exec (.barrierWaitSatisfy c mu ctr) s = .next (modCore (consume (setCore s c (takenFrom (core s c) mu ctr n rest)) c mu ctr n) c
      fun x => joinHeads (satisfied x w)) := by
  show execBarrierWaitSatisfy c mu ctr s = _
  simp only [execBarrierWaitSatisfy, hu, onUnit_true, hw, hfast, hfenced, if_pos hn]
  simp [takenFrom]

/-- A head that lacks more than what deferred prefetches owe it waits on. -/
theorem exec_barrierWaitSatisfy_of_lt {c mu ctr n : Nat} {w : Who} {rest : List Waiter} {s : State}
    (hu : (coreOk c && muOk mu && ctrOk ctr) = true)
    (hw : (barOf (core s c) mu ctr).waiters = { who := w, n := n } :: rest)
    (hn : (barOf (core s c) mu ctr).count + deferredOwed s c mu ctr < n) : exec (.barrierWaitSatisfy c mu ctr) s = .next s := by
  have hle : ¬ n ≤ (barOf (core s c) mu ctr).count := by omega
  have howed : ¬ n ≤ (barOf (core s c) mu ctr).count + deferredOwed s c mu ctr := by omega
  show execBarrierWaitSatisfy c mu ctr s = _
  simp only [execBarrierWaitSatisfy, hu, onUnit_true, hw, if_neg hle, decide_eq_false howed, Bool.false_and, when_false, ite_self]

/-- What a satisfied wait leaves. -/
theorem waitSatisfied_leaves (s : State) (c mu ctr n : Nat) (w : Who) (rest : List Waiter) :
    let t := modCore (consume (setCore s c (takenFrom (core s c) mu ctr n rest)) c mu ctr n) c fun x => joinHeads (satisfied x w)
    sameBytes s t ∧ (∀ d, d ≠ c → sameButGuards (core s d) (core t d)) ∧
      (barOf (core t c) mu ctr).count = (barOf (core s c) mu ctr).count - n ∧ (∃ l, (barOf (core t c) mu ctr).waiters = rest ++ l) ∧
      isSatisfied (core s c) (core t c) w := by
  obtain ⟨k, ⟨cs, hcs⟩, hsame⟩ := consume_spec (setCore s c (takenFrom (core s c) mu ctr n rest)) c mu ctr n
  generalize consume (setCore s c (takenFrom (core s c) mu ctr n rest)) c mu ctr n = v at hcs hsame ⊢
  have hc := hsame c
  simp only [core_modCore, core_setCore, if_true] at hc
  have hbar : barOf (core v c) mu ctr = { count := (barOf (core s c) mu ctr).count - n, waiters := rest, rest := k } := by
    rw [barOf, hc.bars]
    simp [takenFrom, withBar, barOf]
  have hmxe : (core v c).mxe = (core s c).mxe := hc.mxe
  have hjoin := headsOnlyJoined_joinHeads (satisfied (core v c) w)
  have hsat : barOf (satisfied (core v c) w) mu ctr = barOf (core v c) mu ctr := by rw [barOf, satisfied_bars]; rfl
  simp only [core_modCore, if_true]
  refine ⟨fun a => devByte_congr (by simp [hcs]) (by simp [hcs]) (by simp [hcs]) a, fun d hd => ?_, ?_, ?_, ?_⟩
  · have hd' := hsame d
    simpa only [core_modCore, core_setCore, if_neg hd] using hd'
  · rw [hjoin.count, hsat, hbar]
  · obtain ⟨l, hl⟩ := (headsJoined_foldl queueKeys (satisfied (core v c) w)).waiters mu ctr
    rw [hsat, hbar] at hl
    exact ⟨l, hl.symm⟩
  · have h := isSatisfied_joinHeads (isSatisfied_satisfied (core v c) w)
    cases w with
    | reel r => exact h
    | desc q => exact h
    | mxeCheck =>
      unfold isSatisfied at h ⊢
      rw [h, hmxe]

-- Arrivals (R131)

/-- Changing the first that fits keeps a table of guards or transfers apart from all else: an arrival's sender has only those changed. -/
theorem notePrefetch_spec (s : State) (a : Arrival) :
    (∃ t, notePrefetch s a = { s with cores := t }) ∧ (∀ d, sameButGuards (core s d) (core (notePrefetch s a) d)) ∧
      ∀ d, d ≠ a.src → core (notePrefetch s a) d = core s d := by
  unfold notePrefetch
  split
  · exact ⟨⟨_, rfl⟩, fun d => .refl _, fun d _ => rfl⟩
  · refine ⟨⟨_, rfl⟩, fun d => ?_, fun d hd => by simp [hd]⟩
    rw [core_modCore]
    split
    · next h => subst h; rfl
    · exact .refl _

/-- The state without the arrival in flight. -/
def arrived (s : State) (k : Nat) : State := { s with fab := { s.fab with arrivals := s.fab.arrivals.eraseIdx k } }

/-- An arrival comes in once the chip runs fast. -/
theorem exec_barrierArrival {k : Nat} {s : State} {a : Arrival} (hfast : fast s = true) (ha : s.fab.arrivals[k]? = some a) :
    exec (.barrierArrival k) s = .next (applyArrival (arrived s k) a) := by
  show execBarrierArrival k s = _
  simp [execBarrierArrival, ha, hfast, arrived]

/-- An arrival within the counter's limit. -/
theorem arrival_counts {k : Nat} {s : State} {a : Arrival} (hfast : fast s = true) (ha : s.fab.arrivals[k]? = some a) (hctr : a.ctr < 64)
    (hn : (barOf (core s a.dst) a.mu a.ctr).count + a.n ≤ 65535) :
    ∃ t, exec (.barrierArrival k) s = .next t ∧ sameBytes s t ∧ t.fab.arrivals = s.fab.arrivals.eraseIdx k ∧
      (∀ m n, m < 4 → n < 64 → barOf (core t a.dst) m n =
        if m = a.mu ∧ n = a.ctr then { barOf (core s a.dst) a.mu a.ctr with count := (barOf (core s a.dst) a.mu a.ctr).count + a.n }
        else barOf (core s a.dst) m n) ∧
      (∀ d, d ≠ a.dst → d ≠ a.src → core t d = core s d) ∧ (a.src ≠ a.dst → sameButGuards (core s a.src) (core t a.src)) := by
  have happly : applyArrival (arrived s k) a = notePrefetch (setCore (arrived s k) a.dst (withBar (core s a.dst) a.mu a.ctr
      { barOf (core s a.dst) a.mu a.ctr with count := (barOf (core s a.dst) a.mu a.ctr).count + a.n })) a := if_neg (Nat.not_lt.2 hn)
  rw [exec_barrierArrival hfast ha, happly]
  generalize hu : setCore (arrived s k) a.dst _ = u
  obtain ⟨⟨cs, hcs⟩, hguards, hother⟩ := notePrefetch_spec u a
  have hcore : ∀ d, core u d = if d = a.dst then withBar (core s a.dst) a.mu a.ctr
      { barOf (core s a.dst) a.mu a.ctr with count := (barOf (core s a.dst) a.mu a.ctr).count + a.n } else core s d := by
    intro d
    rw [← hu, core_setCore]
    rfl
  refine ⟨_, rfl, fun b => ?_, ?_, fun m n _ hn => ?_, fun d hd hs => ?_, fun hne => ?_⟩
  · rw [hcs, ← hu]
    exact devByte_congr rfl rfl rfl b
  · rw [hcs, ← hu]
    rfl
  · have hbars := (hguards a.dst).bars
    rw [hcore, if_pos rfl] at hbars
    rw [barOf, hbars]
    exact barOf_withBar _ _ _ _ _ _ hctr hn
  · rw [hother d hs, hcore, if_neg hd]
  · have h := hguards a.src
    rwa [hcore, if_neg hne] at h

-- Traps of cores (R236)

theorem trapped_trapCore (s : State) (c cause val detail reel pc : Nat) : (core (trapCore s c cause val detail reel pc) c).trapped = true := by
  unfold trapCore
  split
  · assumption
  · simp

/-- A trap leaves the counters of every core. -/
theorem barOf_trapCore (s : State) (c cause val detail reel pc d mu ctr : Nat) :
    barOf (core (trapCore s c cause val detail reel pc) d) mu ctr = barOf (core s d) mu ctr := by
  unfold trapCore
  split
  · rfl
  · simp only [core_cset, core_modCore]
    split
    · next h => rw [h]; rfl
    · rfl

/-- A trap writes the trap registers of its core alone. -/
theorem cget_trapCore_of_ne (s : State) (c cause val detail reel pc : Nat) {b : Nat} (h₁ : b ≠ csqBase c + 0x10)
    (h₂ : b ≠ csqBase c + 0x18) (h₃ : b ≠ csqBase c + 0x20) : cget (trapCore s c cause val detail reel pc) b = cget s b := by
  unfold trapCore
  split
  · rfl
  · simp [h₁, h₂, h₃]

/-- A trap leaves the device's bytes. -/
theorem sameBytes_trapCore (s : State) (c cause val detail reel pc : Nat) : sameBytes s (trapCore s c cause val detail reel pc) := by
  intro b
  unfold trapCore
  split
  · rfl
  · exact devByte_congr (by simp) (by simp) (by simp) b

/-- The first trap of a core gives its value. -/
theorem trapval_trapCore {s : State} {c : Nat} (h : (core s c).trapped = false) (cause val detail reel pc : Nat) :
    cget (trapCore s c cause val detail reel pc) (csqBase c + 0x20) = BitVec.ofNat 64 val := by
  simp [trapCore, h]

/-- The first trap of a core gives its cause. -/
theorem cause_trapCore {s : State} {c cause : Nat} (h : (core s c).trapped = false) (hc : cause < 256) (val detail reel pc : Nat) :
    wbits (cget (trapCore s c cause val detail reel pc) (csqBase c + 0x10)) 7 0 = cause := by
  simp [trapCore, h, wbits, pack, bits]
  omega

/-- The error register of an MU is no trap register. -/
theorem muErr_ne_trap (d m c k : Nat) (hm : m < 4) (hk : k < 0x8000) : muBase d m + 0x20 ≠ csqBase c + k := by
  unfold muBase csqBase coreBase
  omega

/-- A counter past its limit: the count that stays, and MU_ERR.BAR_OVF. -/
def overflowed (s : State) (a : Arrival) : State :=
  corr (setCore s a.dst (withBar (core s a.dst) a.mu a.ctr { barOf (core s a.dst) a.mu a.ctr with count := 65535 }))
    (muBase a.dst a.mu + 0x20) 2

theorem sameBytes_overflowed (s : State) (k : Nat) (a : Arrival) : sameBytes s (overflowed (arrived s k) a) :=
  fun b => devByte_congr (by simp [overflowed, corr, arrived]) (by simp [overflowed, corr, arrived]) (by simp [overflowed, corr, arrived]) b

@[simp] theorem core_arrived (s : State) (k d : Nat) : core (arrived s k) d = core s d := (rfl)

theorem trapped_overflowed (s : State) (k : Nat) (a : Arrival) (d : Nat) :
    (core (overflowed (arrived s k) a) d).trapped = (core s d).trapped := by
  simp only [overflowed, corr, core_cset, core_setCore, core_arrived]
  split
  · next h => rw [h]; rfl
  · rfl

theorem count_overflowed (s : State) (a : Arrival) : (barOf (core (overflowed s a) a.dst) a.mu a.ctr).count = 65535 := by
  simp [overflowed, corr]

theorem barOvf_overflowed (s : State) (a : Arrival) : (cget (overflowed s a) (muBase a.dst a.mu + 0x20)).getLsbD 1 = true := by
  simp [overflowed, corr]

/-- An arrival past the counter's limit traps the core that sent it. -/
theorem applyArrival_of_lt {s : State} {a : Arrival} (hn : 65535 < (barOf (core s a.dst) a.mu a.ctr).count + a.n) :
    ∃ reel pc, applyArrival s a = trapCore (overflowed s a) a.src 0x0B (indexOf (core s a.dst) * 256 + a.mu * 64 + a.ctr)
      (a.mu * 64 + a.ctr) reel pc := by
  unfold applyArrival
  simp only [if_pos hn]
  cases a.csq with
  | some p => exact ⟨p.1, p.2, rfl⟩
  | none => exact ⟨_, _, rfl⟩

/-- An arrival past the counter's limit. -/
theorem arrival_overflows {k : Nat} {s : State} {a : Arrival} (hfast : fast s = true) (ha : s.fab.arrivals[k]? = some a) (hmu : a.mu < 4)
    (hn : 65535 < (barOf (core s a.dst) a.mu a.ctr).count + a.n) :
    ∃ t, exec (.barrierArrival k) s = .next t ∧ sameBytes s t ∧
      (barOf (core t a.dst) a.mu a.ctr).count = 65535 ∧ (cget t (muBase a.dst a.mu + 0x20)).getLsbD 1 = true ∧
      (core t a.src).trapped = true ∧
      ((core s a.src).trapped = false → wbits (cget t (csqBase a.src + 0x10)) 7 0 = 0x0B ∧
        cget t (csqBase a.src + 0x20) = BitVec.ofNat 64 (indexOf (core s a.dst) * 256 + a.mu * 64 + a.ctr)) := by
  obtain ⟨reel, pc, ht⟩ := applyArrival_of_lt (s := arrived s k) (a := a) (by simpa only [core_arrived] using hn)
  rw [core_arrived] at ht
  rw [exec_barrierArrival hfast ha, ht]
  have hsrc := trapped_overflowed s k a a.src
  have hbytes := sameBytes_overflowed s k a
  have hcount := count_overflowed (arrived s k) a
  have hovf := barOvf_overflowed (arrived s k) a
  generalize overflowed (arrived s k) a = u at hsrc hbytes hcount hovf ⊢
  refine ⟨_, rfl, fun b => (sameBytes_trapCore _ _ _ _ _ _ _ b).trans (hbytes b), ?_, ?_, trapped_trapCore .., fun h => ?_⟩
  · rw [barOf_trapCore, hcount]
  · rw [cget_trapCore_of_ne _ _ _ _ _ _ _ (muErr_ne_trap _ _ _ _ hmu (by decide)) (muErr_ne_trap _ _ _ _ hmu (by decide))
      (muErr_ne_trap _ _ _ _ hmu (by decide)), hovf]
  · exact ⟨cause_trapCore (hsrc.trans h) (by decide) .., trapval_trapCore (hsrc.trans h) ..⟩

/-- Settles O23: what an arrival leaves below and above the counter's limit, and when a head waiter is satisfied. -/
theorem barrierCounters : Obligations.BarrierCounters := by
  unfold Obligations.BarrierCounters
  refine ⟨fun k s a hfast ha _ hctr => ?_, fun k s a hfast ha hmu _ => ?_, fun c mu ctr n w rest s hc hmu hctr hfast hfenced hw => ?_⟩
  · exact arrival_counts hfast ha hctr
  · exact arrival_overflows hfast ha hmu
  have hu : (coreOk c && muOk mu && ctrOk ctr) = true := by simp [coreOk, muOk, ctrOk, hc, hmu, hctr]
  refine ⟨fun hn => ?_, exec_barrierWaitSatisfy_of_lt hu hw⟩
  obtain ⟨hbytes, hother, hcount, hwaiters, hsat⟩ := waitSatisfied_leaves s c mu ctr n w rest
  refine ⟨_, exec_barrierWaitSatisfy_of_le hu hfast hfenced hw hn, hbytes, hother, hcount, hwaiters, ?_⟩
  cases w with
  | reel r => exact hsat
  | desc q => exact hsat
  | mxeCheck => exact hsat

end Sys2Proof.Machine

/-! PROOFS. Transfers and seals: how they start (R156, R158, R159, R268, R358, R364). -/
namespace Sys2Proof.Machine

open Sys2Proof

-- Transfers start (R156, R158, R159, R268)

/-- A ready transfer or SEAL stands at the head of the queue of a core's transfer engine. -/
structure XfrReady (c : Nat) (d : QDesc) (k : Take) (s : State) : Prop where
  unit : coreOk c = true
  live : engineLive s c = true
  head : readyHead (core s c) 4 = some d
  take : takeOfCore s c = some k

/-- The state in which a core has taken a transfer whose wait, if it is deferred, is not over. -/
def xfrTaken (s : State) (c : Nat) (d : QDesc) : State := setCore s c (xfrTake (core s c) (xfrNew d false))

/-- The bytes that a guarded load reads. -/
def guardedBytes (b : List Byte) : Nat × Nat :=
  (xSrc b + (if xCodec b then xAux b * frameSlot else 0), if xCodec b then cdiv (xLen b) 65536 * frameSlot else (xRows b - 1) * xSpitch b + xLen b)

theorem xfrStart_kindFault {c : Nat} {d : QDesc} {k : Take} {s : State} (h : XfrReady c d k s) {e : Nat × Access}
    (hdir : xDir d.bytes ≠ 4) (he : kindFault (core s c) d.bytes = some e) : exec (.xfrStart c) s = .next (accessFail s c e.2 e.1) := by
  show execXfrStart c s = _
  simp [execXfrStart, h.unit, h.live, h.head, h.take, hdir, he]

theorem xfrStart_denied {c : Nat} {d : QDesc} {k : Take} {s : State} (h : XfrReady c d k s) (hkind : kindFault (core s c) d.bytes = none)
    (hdir : xDir d.bytes = 2) (hother : otherLanding k d.bytes = true) : exec (.xfrStart c) s = .next (remoteDenied s c d.bytes) := by
  show execXfrStart c s = _
  simp [execXfrStart, h.unit, h.live, h.head, h.take, hdir, hkind, hother]

theorem xfrStart_timeout {c : Nat} {d : QDesc} {k : Take} {s : State} (h : XfrReady c d k s) (hkind : kindFault (core s c) d.bytes = none)
    (hdir : xDir d.bytes ≠ 4) (hremote : 2 ≤ xDir d.bytes) (hother : xDir d.bytes = 2 → otherLanding k d.bytes = false)
    (hqp : qpLive s (xPeer d.bytes) = false) : exec (.xfrStart c) s = .next (remoteTimeout s c d.bytes) := by
  have hmine : ¬(xDir d.bytes = 2 ∧ otherLanding k d.bytes = true) := fun ⟨h2, ho⟩ => by simp [hother h2] at ho
  show execXfrStart c s = _
  simp [execXfrStart, h.unit, h.live, h.head, h.take, hdir, hkind, if_neg hmine, hremote, hqp]

theorem xfrStart_opens {c : Nat} {d : QDesc} {k : Take} {s : State} (h : XfrReady c d k s) (hkind : kindFault (core s c) d.bytes = none)
    (hdir : xDir d.bytes = 2) (hother : otherLanding k d.bytes = false) (hqp : qpLive s (xPeer d.bytes) = true)
    (hbound : boundTo k (xLanding d.bytes) = none) (hroom : landingRoom s (xPeer d.bytes) = true)
    (hbusy : keyBusy s (xPeer d.bytes) (xKey d.bytes) = false) :
    exec (.xfrStart c) s = .next (xfrPost tableSize (openLanding (xfrTaken s c d) c k d.bytes) c d.id) := by
  show execXfrStart c s = _
  simp [execXfrStart, h.unit, h.live, h.head, h.take, hdir, hkind, hother, hqp, hbound, hroom, hbusy, xfrTaken]

theorem xfrStart_writes {c : Nat} {d : QDesc} {k : Take} {s : State} (h : XfrReady c d k s) (hkind : kindFault (core s c) d.bytes = none)
    (hdir : xDir d.bytes = 2) (hother : otherLanding k d.bytes = false) (hqp : qpLive s (xPeer d.bytes) = true)
    (hbound : boundTo k (xLanding d.bytes) ≠ none) : exec (.xfrStart c) s = .next (xfrPost tableSize (xfrTaken s c d) c d.id) := by
  obtain ⟨l, hl⟩ := Option.ne_none_iff_exists'.1 hbound
  show execXfrStart c s = _
  simp [execXfrStart, h.unit, h.live, h.head, h.take, hdir, hkind, hother, hqp, hl, xfrTaken]

theorem xfrStart_versioned {c : Nat} {d : QDesc} {k : Take} {s : State} (h : XfrReady c d k s) (hkind : kindFault (core s c) d.bytes = none)
    (hdir : xDir d.bytes = 3) (hqp : qpLive s (xPeer d.bytes) = true) (hvers : xVers d.bytes = true) :
    exec (.xfrStart c) s = .next (askVersion (xfrTaken s c d) c 0 d) := by
  show execXfrStart c s = _
  simp [execXfrStart, h.unit, h.live, h.head, h.take, hdir, hkind, hqp, hvers, xfrTaken]

theorem xfrStart_plain {c : Nat} {d : QDesc} {k : Take} {s : State} (h : XfrReady c d k s) (hkind : kindFault (core s c) d.bytes = none)
    (hdir : xDir d.bytes < 2 ∨ (xDir d.bytes = 3 ∧ qpLive s (xPeer d.bytes) = true ∧ xVers d.bytes = false)) (hguard : xGuard d.bytes = false) :
    exec (.xfrStart c) s = .next (xfrPost tableSize (xfrTaken s c d) c d.id) := by
  show execXfrStart c s = _
  rcases hdir with hlocal | ⟨hread, hqp, hvers⟩
  · have h2 : xDir d.bytes ≠ 2 := by omega
    have h3 : xDir d.bytes ≠ 3 := by omega
    have h4 : xDir d.bytes ≠ 4 := by omega
    simp [execXfrStart, h.unit, h.live, h.head, h.take, hkind, h2, h3, h4, Nat.not_le.2 hlocal, hguard, xfrTaken]
  · simp [execXfrStart, h.unit, h.live, h.head, h.take, hkind, hread, hqp, hvers, hguard, xfrTaken]

theorem xfrStart_guarded {c : Nat} {d : QDesc} {k : Take} {s : State} (h : XfrReady c d k s) (hkind : kindFault (core s c) d.bytes = none)
    (hdir : xDir d.bytes < 2) (hguard : xGuard d.bytes = true) :
    let g := guardFor s c (xfrMu d.bytes) d (dAuxb d.bytes) 0 (guardedBytes d.bytes).1 (guardedBytes d.bytes).2
    let y := xfrTake (core s c) (xfrNew d g.isNone)
    exec (.xfrStart c) s = .next (xfrPost tableSize
      (setCore s c { y with guards := y.guards ++ [g.getD (deferredNote s c d (dAuxb d.bytes) 0)] }) c d.id) := by
  have h2 : xDir d.bytes ≠ 2 := by omega
  have h3 : xDir d.bytes ≠ 3 := by omega
  have h4 : xDir d.bytes ≠ 4 := by omega
  show execXfrStart c s = _
  simp [execXfrStart, h.unit, h.live, h.head, h.take, hkind, h2, h3, h4, Nat.not_le.2 hdir, hguard, guardedBytes]

-- Seals (R364)

/-- A SEAL of a landing that names another PEER or KEY. -/
theorem xfrSeal_denied {c : Nat} {d : QDesc} {k : Take} {s : State} (h : XfrReady c d k s) (hdir : xDir d.bytes = 4)
    (hother : otherLanding k d.bytes = true) : exec (.xfrSeal c) s = .next (remoteDenied s c d.bytes) := by
  show execXfrSeal c s = _
  simp [execXfrSeal, h.unit, h.live, h.head, h.take, hdir, hother]

/-- What a SEAL ends its command with when the queue pair of its landing is dead. -/
def sealLost (s : State) (c n peer : Nat) : State := endOfCore s c fun t => { landingLost t n peer with lcore := lcoreNo (core s c) }

theorem xfrSeal_aborted {c : Nat} {d : QDesc} {k : Take} {s : State} {l : Bound} (h : XfrReady c d k s) (hdir : xDir d.bytes = 4)
    (hother : otherLanding k d.bytes = false) (hnone : landingNo s k (xLanding d.bytes) = none)
    (hl : boundTo k (xLanding d.bytes) = some l) (hdone : l.done = false) (hqp : qpLive s l.peer = false) :
    exec (.xfrSeal c) s = .next (sealLost s c l.landing l.peer) := by
  show execXfrSeal c s = _
  simp [execXfrSeal, h.unit, h.live, h.head, h.take, hdir, hother, hnone, hl, hdone, hqp, sealLost]

theorem xfrSeal_none {c : Nat} {d : QDesc} {k : Take} {s : State} (h : XfrReady c d k s) (hdir : xDir d.bytes = 4)
    (hother : otherLanding k d.bytes = false) (hnone : landingNo s k (xLanding d.bytes) = none)
    (hl : ∀ l, boundTo k (xLanding d.bytes) = some l → l.done = true ∨ qpLive s l.peer = true) :
    exec (.xfrSeal c) s = .next (arriveRef (setCore s c (popHead (core s c) 4)) c d.id d.bytes (dDone d.bytes)) := by
  show execXfrSeal c s = _
  cases hb : boundTo k (xLanding d.bytes) with
  | none => simp [execXfrSeal, h.unit, h.live, h.head, h.take, hdir, hother, hnone, hb]
  | some l =>
    rcases hl l hb with hdone | hqp
    · simp [execXfrSeal, h.unit, h.live, h.head, h.take, hdir, hother, hnone, hb, hdone]
    · simp [execXfrSeal, h.unit, h.live, h.head, h.take, hdir, hother, hnone, hb, hqp]

theorem xfrSeal_lost {c : Nat} {d : QDesc} {k : Take} {s : State} {l : Landing} (h : XfrReady c d k s) (hdir : xDir d.bytes = 4)
    (hother : otherLanding k d.bytes = false) (hl : landingNo s k (xLanding d.bytes) = some l) (hqp : qpLive s l.peer = false) :
    exec (.xfrSeal c) s = .next (sealLost s c l.landing l.peer) := by
  show execXfrSeal c s = _
  simp [execXfrSeal, h.unit, h.live, h.head, h.take, hdir, hother, hl, hqp, sealLost]

theorem xfrSeal_again {c : Nat} {d : QDesc} {k : Take} {s : State} {l : Landing} (h : XfrReady c d k s) (hdir : xDir d.bytes = 4)
    (hother : otherLanding k d.bytes = false) (hl : landingNo s k (xLanding d.bytes) = some l) (hqp : qpLive s l.peer = true)
    (hsealing : l.sealing = true) : exec (.xfrSeal c) s = .next s := by
  show execXfrSeal c s = _
  simp [execXfrSeal, h.unit, h.live, h.head, h.take, hdir, hother, hl, hqp, hsealing]

/-- The landing is marked as sealing. -/
def markSealing (s : State) (l : Landing) : State :=
  { s with net := { s.net with landings := updFirst (fun q => q = l) (fun q => { q with sealing := true }) s.net.landings } }

/-- The first element that fits is changed. -/
theorem mem_updFirst_of_mem {α : Type} [DecidableEq α] {x : α} {l : List α} (f : α → α) (h : x ∈ l) : f x ∈ updFirst (fun y => decide (y = x)) f l := by
  induction l with
  | nil => cases h
  | cons y t ih =>
    unfold updFirst
    split
    · next hy => rw [of_decide_eq_true hy]; exact List.mem_cons_self
    · next hy =>
      have hne : x ≠ y := fun he => hy (decide_eq_true he.symm)
      exact List.mem_cons_of_mem _ (ih ((List.mem_cons.1 h).resolve_left hne))

/-- A SEAL of an open landing sends its control record, and the landing is sealing. -/
theorem xfrSeal_sends {c : Nat} {d : QDesc} {k : Take} {s : State} {l : Landing} (h : XfrReady c d k s) (hdir : xDir d.bytes = 4)
    (hother : otherLanding k d.bytes = false) (hl : landingNo s k (xLanding d.bytes) = some l) (hqp : qpLive s l.peer = true)
    (hsealing : l.sealing = false) :
    ∃ t, exec (.xfrSeal c) s = .next (sendControl t l 2) ∧
      ∃ l' ∈ t.net.landings, l'.landing = l.landing ∧ l'.peer = l.peer ∧ l'.key = l.key ∧ l'.sealing = true := by
  have hmem : l ∈ s.net.landings := (List.mem_filter.1 (List.mem_of_find?_eq_some hl)).1
  refine ⟨markSealing (setCore s c (xfrTake (core s c) { xfrNew d false with row := xRows d.bytes })) l, ?_,
    { l with sealing := true }, mem_updFirst_of_mem (fun q : Landing => { q with sealing := true }) hmem, rfl, rfl, rfl, rfl⟩
  show execXfrSeal c s = _
  simp [execXfrSeal, h.unit, h.live, h.head, h.take, hdir, hother, hl, hqp, hsealing, markSealing]

/-- Settles O35: how each direction of a transfer starts, and what a SEAL does. -/
theorem transfersStart : Obligations.TransfersStart := by
  unfold Obligations.TransfersStart
  intro c d k s hc hlive hhead htake
  have h : XfrReady c d k s := ⟨decide_eq_true hc, hlive, hhead, htake⟩
  refine ⟨fun hdir hkind => ⟨xfrStart_denied h hkind, xfrStart_timeout h hkind hdir, xfrStart_opens h hkind, xfrStart_writes h hkind,
    xfrStart_versioned h hkind, xfrStart_plain h hkind, xfrStart_guarded h hkind⟩,
    fun e hdir he => xfrStart_kindFault h hdir he, fun hdir => ⟨xfrSeal_denied h hdir, fun hother hnone => ⟨?_, xfrSeal_none h hdir hother hnone⟩,
    fun l hother hl => ⟨xfrSeal_lost h hdir hother hl, xfrSeal_again h hdir hother hl, xfrSeal_sends h hdir hother hl⟩⟩⟩
  exact fun l hl => xfrSeal_aborted h hdir hother hnone hl

end Sys2Proof.Machine

/-! PROOFS. Transfers: how they end, second readings of version words, and stale prefetches (R157, R159, R244, R358). -/
namespace Sys2Proof.Machine

open Sys2Proof

-- Transfers end (R157, R358)

/-- A transfer whose bytes are in place leaves the running ones and arrives on DONE. -/
theorem xfrComplete_arrives {c k : Nat} {s : State} {r : XfrRun} (hc : coreOk c = true) (hlive : engineLive s c = true)
    (hr : (core s c).xfrs[k]? = some r) (hmoved : r.moved = true) (hvers : xVers r.desc.bytes = false ∨ r.vers2 ≠ none) :
    exec (.xfrComplete c k) s = .next (arriveOut (setCore s c { core s c with xfrs := (core s c).xfrs.eraseIdx k }) c r.desc.id
      r.desc.bytes (dDone r.desc.bytes) (outRanges r.desc)) := by
  have hthere : (!xVers r.desc.bytes || r.vers2.isSome) = true := by
    simpa [Option.isSome_iff_ne_none] using hvers
  show execXfrComplete c k s = _
  simp [execXfrComplete, hc, hr, hlive, hmoved, hthere]

/-- A transfer waits for its version word's second reading, which it has not asked for. -/
structure RereadDue (s : State) (c k : Nat) (r : XfrRun) : Prop where
  unit : coreOk c = true
  live : engineLive s c = true
  runs : (core s c).xfrs[k]? = some r
  versioned : xVers r.desc.bytes = true
  moved : r.moved = true
  consumed : r.consumed = true
  unread : r.vers2 = none
  unasked : ∀ m ∈ (qp s (xPeer r.desc.bytes)).sendq ++ (qp s (xPeer r.desc.bytes)).held, m.kind ≠ .readReq c r.desc.id versRow 1

/-- No message that the queue pair holds is the question. -/
theorem RereadDue.any_eq_false {s : State} {c k : Nat} {r : XfrRun} (h : RereadDue s c k r) :
    (((qp s (xPeer r.desc.bytes)).sendq ++ (qp s (xPeer r.desc.bytes)).held).any fun m => decide (m.kind = .readReq c r.desc.id versRow 1)) = false :=
  List.any_eq_false.2 fun m hm => by simpa using h.unasked m hm

theorem versionReread_asks {s : State} {c k : Nat} {r : XfrRun} (h : RereadDue s c k r) (hqp : qpLive s (xPeer r.desc.bytes) = true) :
    exec (.versionReread c k) s = .next (askVersion s c 1 r.desc) := by
  show execVersionReread c k s = _
  simp only [execVersionReread, h.unit, h.runs, h.live, h.versioned, h.moved, h.consumed, h.unread, h.any_eq_false, hqp]
  simp

theorem versionReread_timeout {s : State} {c k : Nat} {r : XfrRun} (h : RereadDue s c k r) (hqp : qpLive s (xPeer r.desc.bytes) = false) :
    exec (.versionReread c k) s = .next (remoteTimeout s c r.desc.bytes) := by
  show execVersionReread c k s = _
  simp only [execVersionReread, h.unit, h.runs, h.live, h.versioned, h.moved, h.consumed, h.unread, h.any_eq_false, hqp]
  simp

-- Stale prefetches (R159, R244)

/-- A notice to a guard of a core is due. -/
structure StaleDue (s : State) (c mu g : Nat) (e : Guard) : Prop where
  unit : (coreOk c && muOk mu && decide (g < 64)) = true
  live : engineLive s c = true
  entry : ((core s c).guards.filter fun e => e.home = mu ∧ e.len ≠ 0)[g]? = some e
  stale : e.stale = true

/-- The guard's entry is fresh again. -/
def freshened (s : State) (c : Nat) (e : Guard) : State := modCore s c fun x =>
  { x with guards := updFirst (fun q => q.desc.id = e.desc.id ∧ q.read = e.read) (fun q => { q with stale := false }) x.guards }

/-- A prefetch under way starts over: its requests in flight are forgotten. -/
def startedOver (id : Nat) (x : Core) : Core :=
  modXfr { x with reqs := x.reqs.filter fun q => ¬(q.xfr ∧ q.id = id),
                  guards := updFirst (fun q => q.desc.id = id) (fun q => { q with seen := [] }) x.guards } id
    fun r => { r with row := 0, off := 0 }

/-- Data that had come are read again. -/
theorem staleNotice_rereads {s : State} {c mu g : Nat} {e : Guard} {r : XfrRun} {t : State} (h : StaleDue s c mu g e)
    (hr : findXfr (core s c) e.desc.id = some r) (hmoved : r.moved = true) (ht : reread (bump s (muBase c mu + 0x30) 1) c e = .ok t) :
    exec (.staleNotice c mu g) s = .next (prefetchIn (freshened t c e) c e.desc.id e.read e.desc.bytes) := by
  show execStaleNotice c mu g s = _
  simp only [execStaleNotice, h.unit, onUnit_true, h.entry, h.live, h.stale, hr, hmoved, ht]
  simp [freshened]

/-- A prefetch under way starts over. -/
theorem staleNotice_startsOver {s : State} {c mu g : Nat} {e : Guard} {r : XfrRun} (h : StaleDue s c mu g e)
    (hr : findXfr (core s c) e.desc.id = some r) (hmoved : r.moved = false) :
    exec (.staleNotice c mu g) s =
      .next (xfrPost tableSize (modCore (freshened (bump s (muBase c mu + 0x30) 1) c e) c (startedOver e.desc.id)) c e.desc.id) := by
  show execStaleNotice c mu g s = _
  simp only [execStaleNotice, h.unit, onUnit_true, h.entry, h.live, h.stale, hr, hmoved]
  simp only [and_self, not_true, if_false, Bool.false_eq_true, not_false_eq_true, if_true]
  rfl

/-- What a prefetch that starts over leaves of the first transfer of its number. -/
theorem findXfr_startedOver {x : Core} {id : Nat} {r : XfrRun} (h : findXfr x id = some r) :
    findXfr (startedOver id x) id = some { r with row := 0, off := 0 } := by
  have hfind := find?_updFirst (p := fun r : XfrRun => decide (r.desc.id = id)) (f := fun r => { r with row := 0, off := 0 })
    (fun _ => rfl) x.xfrs
  rw [findXfr] at h
  rw [h] at hfind
  exact hfind

@[simp] theorem xfrs_freshened (s : State) (c : Nat) (e : Guard) : (core (freshened s c e) c).xfrs = (core s c).xfrs := by
  simp [freshened]

/-- A stale prefetch under way is counted and starts over. -/
theorem staleNotice_underWay {s : State} {c mu g : Nat} {e : Guard} {r : XfrRun} (h : StaleDue s c mu g e)
    (hr : findXfr (core s c) e.desc.id = some r) (hmoved : r.moved = false) :
    ∃ t, exec (.staleNotice c mu g) s = .next (xfrPost tableSize t c e.desc.id) ∧
      cget t (muBase c mu + 0x30) = BitVec.ofNat 64 (((cget s (muBase c mu + 0x30)).toNat + 1) % 2 ^ 48) ∧
      ∃ r', findXfr (core t c) e.desc.id = some r' ∧ r'.row = 0 ∧ r'.off = 0 := by
  refine ⟨_, staleNotice_startsOver h hr hmoved, by simp [freshened], { r with row := 0, off := 0 }, ?_, rfl, rfl⟩
  have hfresh : findXfr (core (freshened (bump s (muBase c mu + 0x30) 1) c e) c) e.desc.id = some r := by
    rw [findXfr, xfrs_freshened, core_bump]
    exact hr
  rw [core_modCore, if_pos rfl]
  exact findXfr_startedOver hfresh

/-- Settles O36: how transfers end, when a version word is asked for again, and what a stale notice starts over. -/
theorem transfersEnd : Obligations.TransfersEnd := by
  unfold Obligations.TransfersEnd
  intro c s hc hlive
  have hunit : coreOk c = true := decide_eq_true hc
  refine ⟨fun k r => xfrComplete_arrives hunit hlive, fun k r hr hvers hmoved hconsumed hunread hqp hunasked => ?_,
    fun k r hr hvers hmoved hconsumed hunread hqp hunasked => ?_, fun mu g e r hmu hg he hstale hr => ?_⟩
  · exact versionReread_asks ⟨hunit, hlive, hr, hvers, hmoved, hconsumed, hunread, hunasked⟩ hqp
  · exact versionReread_timeout ⟨hunit, hlive, hr, hvers, hmoved, hconsumed, hunread, hunasked⟩ hqp
  · have h : StaleDue s c mu g e := ⟨by simp [hunit, muOk, hmu, hg], hlive, he, hstale⟩
    exact ⟨fun hmoved t ht => ⟨_, staleNotice_rereads h hr hmoved ht, fun a => devByte_congr rfl rfl rfl a⟩, staleNotice_underWay h hr⟩

end Sys2Proof.Machine

/-! PROOFS. The crossing fabric: flits, banks, circuit words, steering units and multicasts (R133 to R154, R270). -/
namespace Sys2Proof.Machine

open Sys2Proof

-- Flits of the packet lane (R133, R136)

/-- The fabric with another list of flits and of arrivals. -/
def withFlits (s : State) (flits : List Flit) (arrivals : List Arrival) : State := { s with fab := { s.fab with flits := flits, arrivals := arrivals } }

theorem packetFlit_arrives {k : Nat} {f : Flit} {s : State} (hfast : fast s = true) (hf : s.fab.flits[k]? = some f) (hat : f.at_ = f.dst) :
    exec (.packetFlit k) s = when_ (hasPacketSlot s (.port f.at_ 4)) s
      (withFlits s (s.fab.flits.eraseIdx k) (s.fab.arrivals ++ [f.arrival])) := by
  show execPacketFlit k s = _
  simp only [execPacketFlit, hf, hfast, not_true, if_false, if_pos hat]
  rfl

theorem packetFlit_hops {k : Nat} {f : Flit} {s : State} {h : Nat × Nat} (hfast : fast s = true) (hf : s.fab.flits[k]? = some f)
    (hat : f.at_ ≠ f.dst) (hh : nextHop s true f.at_ f.dst = some h) :
    exec (.packetFlit k) s = when_ (hasPacketSlot s (.port f.at_ h.1)) s
      (withFlits s (s.fab.flits.set k { f with at_ := h.2 }) s.fab.arrivals) := by
  show execPacketFlit k s = _
  simp only [execPacketFlit, hf, hfast, not_true, if_false, if_neg hat, hh]
  rfl

-- The timetable's banks (R139 to R141)

theorem timetableSwitch_of_settled {s : State} (hfast : fast s = true) (hpending : s.fab.pending = true)
    (h : ∀ t ∈ s.intake.takes, bankSettled s t.slot = true) :
    exec .timetableSwitch s = .next { s with fab := { s.fab with activeB := !s.fab.activeB, pending := false } } := by
  have hall : (s.intake.takes.all fun t => bankSettled s t.slot) = true := List.all_eq_true.2 h
  show execTimetableSwitch s = _
  simp [execTimetableSwitch, hfast, hpending, hall]

theorem timetableSwitch_of_unsettled {s : State} {t : Take} (ht : t ∈ s.intake.takes) (h : bankSettled s t.slot = false) :
    exec .timetableSwitch s = .next s := by
  have hall : (s.intake.takes.all fun t => bankSettled s t.slot) = false := List.all_eq_false.2 ⟨t, ht, by simp [h]⟩
  show execTimetableSwitch s = _
  simp only [execTimetableSwitch, hall, Bool.and_false, when_false]

-- Words of circuits (R139, R143, R154)

/-- A circuit of a placement with a slot of its timetable, whose sending core is live. -/
structure CircuitReady (s : State) (slot circuit reel : Nat) (r : List Byte) (src : Nat) : Prop where
  unit : (slotOk slot && reelOk reel) = true
  route : routeOf (slotOf s slot).img circuit = some r
  source : coreAtIndex s slot (fld r 2 1) = some src
  live : engineLive s src = true
  turn : hasSlot s slot circuit = true

/-- What waits on a circuit. -/
def waitingOn (s : State) (slot circuit : Nat) : List Item := tget [] s.fab.circ (4096 * slot + circuit)

/-- The word that the sending MU would send. -/
def ownItem (s : State) (r : List Byte) (src srcOff reel : Nat) (gen mark : Bool) : Item :=
  { data := sramReads s src (bits (fld r 3 1) 1 0 * muBytes + srcOff / 64 * 64 % muBytes) 64, reel := reel, gen := gen, mark := mark }

/-- The item that goes: the head item that waits on the circuit, or a word of its own. -/
def goingItem (s : State) (slot circuit : Nat) (own : Item) : Item :=
  if frontGoes (waitingOn s slot circuit) then (waitingOn s slot circuit).headD own else own

/-- The state in which the item has left its circuit or its MU. -/
def itemSent (s : State) (slot circuit srcOff : Nat) (own : Item) : State :=
  if frontGoes (waitingOn s slot circuit) then
    { s with fab := { s.fab with circ := tset [] s.fab.circ (4096 * slot + circuit) (waitingOn s slot circuit).tail } }
  else wordWent s (4096 * slot + circuit) (srcOff / 64 % 65536) own.data

section circuit

variable {s : State} {slot circuit srcOff dstOff reel : Nat} {gen mark : Bool} {r : List Byte} {src : Nat}

/-- A word whose tags its MU's reel does not allow waits. -/
theorem circuitWord_waits (h : CircuitReady s slot circuit reel r src) (hfront : frontGoes (waitingOn s slot circuit) = false)
    (htags : tagsOk (core s src) (bits (fld r 3 1) 1 0) reel gen mark = false) :
    exec (.circuitWord slot circuit srcOff dstOff reel gen mark) s = .next s := by
  unfold waitingOn at hfront
  show execCircuitWord slot circuit srcOff dstOff reel gen mark s = _
  simp [execCircuitWord, h.unit, h.route, h.source, hfront, htags]

/-- A waiting item goes first, and a word of the MU's own only with its reel's tags. -/
theorem notBlocked (hgoes : frontGoes (waitingOn s slot circuit) = false → tagsOk (core s src) (bits (fld r 3 1) 1 0) reel gen mark = true) :
    (!frontGoes (waitingOn s slot circuit) && !tagsOk (core s src) (bits (fld r 3 1) 1 0) reel gen mark) = false := by
  cases hf : frontGoes (waitingOn s slot circuit)
  · simp [hgoes hf]
  · rfl

/-- An arrival among the items goes to its counter. -/
theorem circuitWord_arrival (h : CircuitReady s slot circuit reel r src)
    (hgoes : frontGoes (waitingOn s slot circuit) = false → tagsOk (core s src) (bits (fld r 3 1) 1 0) reel gen mark = true) {a : Arrival}
    (ha : (goingItem s slot circuit (ownItem s r src srcOff reel gen mark)).arr = some a) :
    exec (.circuitWord slot circuit srcOff dstOff reel gen mark) s =
      (let t := itemSent s slot circuit srcOff (ownItem s r src srcOff reel gen mark)
       .next { t with fab := { t.fab with arrivals := t.fab.arrivals ++ [a] } }) := by
  have hblock := notBlocked hgoes
  unfold goingItem ownItem waitingOn at ha
  unfold waitingOn at hblock
  show execCircuitWord slot circuit srcOff dstOff reel gen mark s = _
  simp only [execCircuitWord, h.unit, onUnit_true, h.route, h.source, h.live, h.turn, hblock, ha, not_true, false_or, Bool.false_eq_true, if_false]
  rfl

/-- A word goes to its one receiver, or waits while the receiver has no place for it. -/
theorem circuitWord_delivers (h : CircuitReady s slot circuit reel r src)
    (hgoes : frontGoes (waitingOn s slot circuit) = false → tagsOk (core s src) (bits (fld r 3 1) 1 0) reel gen mark = true) {dst mu cd : Nat}
    (ha : (goingItem s slot circuit (ownItem s r src srcOff reel gen mark)).arr = none)
    (hrecv : receiversOf (slotOf s slot).img r = [(dst, mu)]) (hcd : coreAtIndex s slot dst = some cd) :
    exec (.circuitWord slot circuit srcOff dstOff reel gen mark) s =
      match deliverItem (itemSent s slot circuit srcOff (ownItem s r src srcOff reel gen mark)) cd mu circuit dstOff
        (goingItem s slot circuit (ownItem s r src srcOff reel gen mark)) with
      | some t => .next t
      | none => .next s := by
  have hblock := notBlocked hgoes
  unfold goingItem ownItem waitingOn at ha
  unfold waitingOn at hblock
  show execCircuitWord slot circuit srcOff dstOff reel gen mark s = _
  simp only [execCircuitWord, h.unit, onUnit_true, h.route, h.source, h.live, h.turn, hblock, ha, not_true, false_or, Bool.false_eq_true, if_false,
    hrecv, List.foldl_cons, List.foldl_nil, hcd]
  rfl

end circuit

/-- Settles O37: where flits go, when the timetable's banks switch, and what a circuit with a slot carries. -/
theorem fabricMoves : Obligations.FabricMoves := by
  unfold Obligations.FabricMoves
  refine ⟨fun k f s hfast hf => ⟨fun hat hslot => ?_, fun hat hslot => ?_, fun h hat hh => ⟨fun hslot => ?_, fun hslot => ?_⟩⟩,
    fun s hfast hpending => ⟨timetableSwitch_of_settled hfast hpending, fun ⟨t, ht, hb⟩ => timetableSwitch_of_unsettled ht hb⟩,
    fun slot circuit srcOff dstOff reel gen mark r src s hslot hreel hroute hsrc hlive hturn => ?_⟩
  · rw [packetFlit_arrives hfast hf hat, hslot]
    rfl
  · rw [packetFlit_arrives hfast hf hat, hslot]
    rfl
  · rw [packetFlit_hops hfast hf hat hh, hslot]
    rfl
  · rw [packetFlit_hops hfast hf hat hh, hslot]
    rfl
  have h : CircuitReady s slot circuit reel r src := ⟨by simp [slotOk, reelOk, hslot, hreel], hroute, hsrc, hlive, hturn⟩
  refine ⟨circuitWord_waits h, fun hgoes => ⟨fun a => circuitWord_arrival h hgoes, fun dst mu cd ha hrecv hcd => ⟨fun t ht => ?_, fun hnone => ?_⟩⟩⟩
  · refine (circuitWord_delivers h hgoes ha hrecv hcd).trans ?_
    have ht' : deliverItem (itemSent s slot circuit srcOff (ownItem s r src srcOff reel gen mark)) cd mu circuit dstOff
        (goingItem s slot circuit (ownItem s r src srcOff reel gen mark)) = some t := ht
    rw [ht']
  · refine (circuitWord_delivers h hgoes ha hrecv hcd).trans ?_
    have hnone' : deliverItem (itemSent s slot circuit srcOff (ownItem s r src srcOff reel gen mark)) cd mu circuit dstOff
        (goingItem s slot circuit (ownItem s r src srcOff reel gen mark)) = none := hnone
    rw [hnone']

/-- A steering unit of a live core. -/
structure StuLive (c k : Nat) (s : State) : Prop where
  unit : (coreOk c && stuOk k) = true
  live : engineLive s c = true

section stu

variable {c k : Nat} {s : State}

-- Ops (R142, R270)

/-- The first op of a take is in force at once. -/
theorem steerApply_first (h : StuLive c k s) {d : QDesc} (hd : readyHead (core s c) (16 + k) = some d) (hheld : (stuOf (core s c) k).held = false) :
    exec (.steerApply c k) s = .next (arriveRef (setCore s c (withStu (popHead (core s c) (16 + k)) k
      { stuOf (core s c) k with desc := d.bytes, held := true })) c d.id d.bytes (dDone d.bytes)) := by
  show execSteerApply c k s = _
  simp [execSteerApply, h.unit, hd, h.live, hheld]

/-- A later op waits. -/
theorem steerApply_later (h : StuLive c k s) {d : QDesc} (hd : readyHead (core s c) (16 + k) = some d) (hheld : (stuOf (core s c) k).held = true)
    (hnext : (stuOf (core s c) k).next = none) :
    exec (.steerApply c k) s = .next (setCore s c (withStu (popHead (core s c) (16 + k)) k { stuOf (core s c) k with next := some d })) := by
  show execSteerApply c k s = _
  simp [execSteerApply, h.unit, hd, h.live, hheld, hnext]

-- Pairs (R143 to R145)

/-- The output that an op selects for a token. -/
theorem stuOutput_eq (u : Stu) (tok : W32) : stuOutput u tok =
    if sOp u.desc = 0 then sOut u.desc (tok.toNat % 4) else if sOp u.desc = 1 ∨ tok.toNat % 2 = 1 then sOut u.desc 0 else 0xFFFF := by
  unfold stuOutput
  split
  · next h0 => rw [if_pos h0]
  · next h1 => rw [h1]; rfl
  · next h0 h1 => simp only [if_neg h0, iff_false_intro h1, false_or]

/-- What is left of a head token's count once it takes one more item. -/
def tokenLeft (u : Stu) (tok : W32) : Nat := (if u.left = 0 then bits tok.toNat 15 8 + 1 else u.left) - 1

/-- A unit that holds an op, once its head token has taken one item of its input. -/
def pairTaken (u : Stu) (tok : W32) : Stu :=
  { u with held := true, dq := tset [] u.dq (stuInput u tok) (tget [] u.dq (stuInput u tok)).tail, left := tokenLeft u tok,
           cq := if tokenLeft u tok = 0 then u.cq.tail else u.cq, episode := u.episode && decide (stuOutput u tok = 0xFFFF) }

theorem stuPair_emits (h : StuLive c k s) {tok : W32} {q : Item} (hheld : (stuOf (core s c) k).held = true)
    (hpair : stuPair? (stuOf (core s c) k) = some (tok, q)) (hfree : outFree s c (stuOutput (stuOf (core s c) k) tok) = true) :
    exec (.stuPair c k) s = .next (emitItem (setCore s c (withStu (core s c) k (pairTaken (stuOf (core s c) k) tok))) c
      (stuOutput (stuOf (core s c) k) tok) q) := by
  show execStuPair c k s = _
  simp only [execStuPair, h.unit, onUnit_true, hpair, h.live, hheld, hfree, not_true, or_self, if_false]
  rfl

theorem stuPair_waits (h : StuLive c k s) {tok : W32} {q : Item} (hpair : stuPair? (stuOf (core s c) k) = some (tok, q))
    (hfree : outFree s c (stuOutput (stuOf (core s c) k) tok) = false) : exec (.stuPair c k) s = .next s := by
  show execStuPair c k s = _
  simp [execStuPair, h.unit, hpair, hfree]

-- Markers (R146)

/-- A unit that holds an op, once the markers of its inputs have gone: the waiting op is in force. -/
def markersTaken (u : Stu) : Stu :=
  let v := { u with held := true, cq := u.cq.tail, dq := (stuInputs u).foldl (fun q j => tset [] q j (tget [] q j).tail) u.dq, episode := false, left := 0 }
  match u.next with
  | some d => { v with desc := d.bytes, next := none, gen := !u.gen }
  | none => v

theorem markersTaken_cq (u : Stu) : (markersTaken u).cq = u.cq.tail := by
  unfold markersTaken
  split <;> rfl

theorem markersTaken_desc (u : Stu) : (markersTaken u).desc = match u.next with | some d => d.bytes | none => u.desc := by
  unfold markersTaken
  cases u.next <;> rfl

theorem markersTaken_next (u : Stu) : (markersTaken u).next = none := by
  unfold markersTaken
  split
  · rfl
  · assumption

/-- The marker that a unit makes of the markers at its heads. -/
def madeMarker (u : Stu) (g : Bool) : Item :=
  { data := leBytes 4 (u.cq.headD 0).toNat ++ zeros 60, reel := bits (u.cq.headD 0).toNat 29 27, gen := g, mark := true }

/-- The state in which every output has the marker. -/
def markersEmitted (s : State) (c k : Nat) (u : Stu) (g : Bool) : State :=
  (List.range 4).foldl (fun t j => emitItem t c (sOut u.desc j) (madeMarker u g)) (setCore s c (withStu (core s c) k (markersTaken u)))

theorem stuDrainMarker_emits (h : StuLive c k s) {g : Bool} (hheld : (stuOf (core s c) k).held = true)
    (hmark : stuMarkers (stuOf (core s c) k) = some g) (hfree : ∀ j < 4, outFree s c (sOut (stuOf (core s c) k).desc j) = true) :
    exec (.stuDrainMarker c k) s = .next (match (stuOf (core s c) k).next with
      | some d => arriveRef (markersEmitted s c k (stuOf (core s c) k) g) c d.id d.bytes (dDone d.bytes)
      | none => markersEmitted s c k (stuOf (core s c) k) g) := by
  have hall : ((List.range 4).all fun j => outFree s c (sOut (stuOf (core s c) k).desc j)) = true :=
    List.all_eq_true.2 fun j hj => hfree j (List.mem_range.1 hj)
  show execStuDrainMarker c k s = _
  simp only [execStuDrainMarker, h.unit, onUnit_true, hmark, h.live, hheld, hall, not_true, or_self, if_false]
  rfl

-- Stalls (R147)

/-- A head waits for its pair. -/
theorem waits_of {u : Stu} (h : u.cq ≠ [] ∨ ∃ e ∈ u.dq, e.2 ≠ []) : (!u.cq.isEmpty || u.dq.any fun e => !e.2.isEmpty) = true := by
  rcases h with hcq | ⟨e, he, hne⟩
  · simp [hcq]
  · have hany : (u.dq.any fun e => !e.2.isEmpty) = true := List.any_eq_true.2 ⟨e, he, by simpa using hne⟩
    rw [hany, Bool.or_true]

theorem steerStall_reports (h : StuLive c k s) {p : Take} (hp : takeOfCore s c = some p) (hheld : (stuOf (core s c) k).held = true)
    (hwaits : (stuOf (core s c) k).cq ≠ [] ∨ ∃ e ∈ (stuOf (core s c) k).dq, e.2 ≠ []) (hpair : stuPair? (stuOf (core s c) k) = none)
    (hmark : stuMarkers (stuOf (core s c) k) = none) (hepisode : (stuOf (core s c) k).episode = false) :
    exec (.steerStall c k) s = .next (interim (setCore s c (withStu (core s c) k { stuOf (core s c) k with stalled := true, episode := true }))
      p.stream p.seq { status := 0x12, lcore := lcoreNo (core s c), detail := k }) := by
  show execSteerStall c k s = _
  simp only [execSteerStall, h.unit, onUnit_true, hp, h.live, hheld, waits_of hwaits, hpair, hmark, hepisode]
  rfl

theorem steerStall_again (h : StuLive c k s) {p : Take} (hp : takeOfCore s c = some p) (hepisode : (stuOf (core s c) k).episode = true) :
    exec (.steerStall c k) s = .next s := by
  show execSteerStall c k s = _
  simp only [execSteerStall, h.unit, onUnit_true, hp, hepisode, Bool.not_true, Bool.and_false, when_false]

end stu

/-- Settles O38: ops, pairs, markers and stalls of a steering unit. -/
theorem steeringUnits : Obligations.SteeringUnits := by
  unfold Obligations.SteeringUnits
  intro c k s hc hk hlive
  have h : StuLive c k s := ⟨by simp [coreOk, stuOk, hc, hk], hlive⟩
  refine ⟨fun d => steerApply_first h, fun d => steerApply_later h, fun tok q hheld hpair => ?_, fun g hheld hmark hfree => ?_,
    fun p hp hheld hwaits hpair hmark => ⟨steerStall_reports h hp hheld hwaits hpair hmark, steerStall_again h hp⟩⟩
  · simp only [← stuOutput_eq]
    refine ⟨fun hfree => ⟨pairTaken (stuOf (core s c) k) tok, stuPair_emits h hheld hpair hfree, rfl, rfl, rfl, rfl, rfl, ?_, fun j hj => ?_⟩,
      stuPair_waits h hpair⟩
    · simp [pairTaken]
    · simp [pairTaken, hj]
  · exact ⟨markersTaken (stuOf (core s c) k), markersTaken_cq _, markersTaken_desc _, markersTaken_next _,
      stuDrainMarker_emits h hheld hmark hfree⟩

-- Multicasts (R148 to R151)

/-- The receivers of a multicast of a core. -/
def recvsOf (s : State) (c : Nat) (m : Mcast) : List Recv := groupRecvs (imgOf s c) (bits (fld m.desc.bytes 16 1) 5 0)

/-- A new multicast. -/
def newMcast (d : QDesc) : Mcast := { desc := d, tile := 0, held := [], detached := [], done := false }

/-- What is left of multicast m once its receivers are served and its tile is sent: it arrives on DONE when every tile is sent, and ends
when every detached receiver has fetched its tiles. -/
def mcastLeft (t : State) (c : Nat) (rs : List Recv) (m n : Mcast) : State :=
  modCore (if sentAll rs n ∧ ¬ n.done then arriveRef t c n.desc.id m.desc.bytes (dDone m.desc.bytes) else t) c fun x =>
    { x with mcasts := if sentAll rs n ∧ fetchedAll n then [] else [{ n with done := n.done || sentAll rs n }] }

/-- A running multicast serves the receivers that lag, then sends its next tile. -/
theorem mcastTileSend_running {c : Nat} {s u t : State} {m n v : Mcast} {rest : List Mcast} (hc : coreOk c = true) (hlive : engineLive s c = true)
    (hm : (core s c).mcasts = m :: rest) (hserve : serveLagging c (recvsOf s c m) m (setCore s c (core s c)) = .ok (u, n))
    (hsend : sendTile c (recvsOf s c m) n u = .ok (t, v)) : exec (.mcastTileSend c) s = .next (mcastLeft t c (recvsOf s c m) m v) := by
  unfold recvsOf at hserve hsend
  show execMcastTileSend c s = _
  simp only [execMcastTileSend, hc, onUnit_true, hm, hlive, not_true, if_false, hserve, hsend]
  rfl

/-- A multicast that starts does the same. -/
theorem mcastTileSend_starts {c : Nat} {s u t : State} {d : QDesc} {n v : Mcast} (hc : coreOk c = true) (hlive : engineLive s c = true)
    (hm : (core s c).mcasts = []) (hd : readyHead (core s c) 5 = some d)
    (hserve : serveLagging c (recvsOf s c (newMcast d)) (newMcast d) (setCore s c (popHead (core s c) 5)) = .ok (u, n))
    (hsend : sendTile c (recvsOf s c (newMcast d)) n u = .ok (t, v)) :
    exec (.mcastTileSend c) s = .next (mcastLeft t c (recvsOf s c (newMcast d)) (newMcast d) v) := by
  unfold recvsOf newMcast at hserve hsend
  show execMcastTileSend c s = _
  simp only [execMcastTileSend, hc, onUnit_true, hm, hd, Option.map_some, hlive, not_true, if_false, hserve, hsend]
  rfl

/-- Settles O39: a running multicast and one that starts take the same step. -/
theorem multicast : Obligations.Multicast := by
  unfold Obligations.Multicast
  intro c s hc hlive
  have hunit : coreOk c = true := decide_eq_true hc
  exact ⟨fun m rest u n v t => mcastTileSend_running hunit hlive, fun d u n v t => mcastTileSend_starts hunit hlive⟩

end Sys2Proof.Machine

/-! PROOFS. The start of a take (R141, R176, R313, R339, R378, R424). -/
namespace Sys2Proof.Machine

open Sys2Proof

-- Takes start (R141, R176, R313, R339, R378, R424)

/-- The head command of a stream is past its head moment, and its placement may take it. -/
structure TakeDue (s : State) (st : Nat) (e : Entry) : Prop where
  head : headEntry s st = some e
  ready : ready s = true
  hasTake : e.hasTake = true
  pastHead : e.head = true
  running : (stream s st).state ≠ .halted
  free : slotBusy s (slotOfHandle e.handle) = false
  placed : (slotOf s (slotOfHandle e.handle)).state = .placed
  turn : isTurn s e = true
  awake : slotAwake s (slotOfHandle e.handle) = true
  memsAwake : memsAwake s e = true
  settled : bankSettled s (slotOfHandle e.handle) = true

section due

variable {s : State} {st : Nat} {e : Entry}

/-- No reason to wait stands. -/
theorem TakeDue.not_waits (h : TakeDue s st e) : ¬(¬ Machine.ready s ∨ ¬ e.hasTake ∨ ¬ e.head ∨ (stream s st).state = .halted ∨
    slotBusy s (slotOfHandle e.handle) ∨ (slotOf s (slotOfHandle e.handle)).state ≠ .placed ∨ ¬ isTurn s e ∨
    ¬ slotAwake s (slotOfHandle e.handle) ∨ ¬ Machine.memsAwake s e ∨ ¬ bankSettled s (slotOfHandle e.handle)) := by
  simp [h.ready, h.hasTake, h.pastHead, h.running, h.free, h.placed, h.turn, h.awake, h.memsAwake, h.settled]

/-- A take beyond the last one. -/
theorem takeStart_conflict (h : TakeDue s st e) (htake : 65535 ≤ e.take) :
    exec (.takeStart st) s = .next (finish s st e.seq { status := 2, reason := 8 }) := by
  show execTakeStart st s = _
  simp only [execTakeStart, h.head, if_neg h.not_waits, if_pos htake]

/-- A retake whose cut cannot be read. -/
theorem takeStart_dataLoss (h : TakeDue s st e) {a : Nat} (htake : e.take < 65535)
    (hcut : cutLost s (slotOf s (slotOfHandle e.handle)) (slotOfHandle e.handle) e = some a) :
    exec (.takeStart st) s = .next (finish (logLoss s .dataLoss a) st e.seq { status := 7, detail := a % 2 ^ 48 }) := by
  show execTakeStart st s = _
  simp only [execTakeStart, h.head, if_neg h.not_waits, if_neg (Nat.not_le.2 htake), hcut]

/-- A RUN starts its take at once. -/
theorem takeStart_run (h : TakeDue s st e) (htake : e.take < 65535)
    (hcut : cutLost s (slotOf s (slotOfHandle e.handle)) (slotOfHandle e.handle) e = none) (hcls : e.cls = 1) :
    exec (.takeStart st) s = .next (beginTake s e none none) := by
  show execTakeStart st s = _
  simp only [execTakeStart, h.head, if_neg h.not_waits, if_neg (Nat.not_le.2 htake), hcut, if_pos hcls]

/-- A STEP latches its epoch and its roots first. -/
theorem takeStart_step (h : TakeDue s st e) (htake : e.take < 65535)
    (hcut : cutLost s (slotOf s (slotOfHandle e.handle)) (slotOfHandle e.handle) e = none) (hcls : e.cls ≠ 1) {r : Run} {y : List (Nat × List Byte) × StepSt}
    (hrun : stepRun s e = some r) (hchecks : stepChecks (adoptEpoch s (latchEpoch s e.step)) r
      (stepOf (adoptEpoch s (latchEpoch s e.step)) r e (latchEpoch s e.step)) = .ok y) :
    exec (.takeStart st) s = .next (beginTake (adoptEpoch s (latchEpoch s e.step)) e (latchEpoch s e.step) (some y)) := by
  show execTakeStart st s = _
  simp only [execTakeStart, h.head, if_neg h.not_waits, if_neg (Nat.not_le.2 htake), hcut, if_neg hcls, hrun, hchecks]

end due

/-- Settles O47: the three endings of a take's start, and that a STEP's checks come first. -/
theorem takesStart : Obligations.TakesStart := by
  unfold Obligations.TakesStart
  intro st e s hhead slot x hready hhasTake hpast hrunning hfree hplaced hturn hawake hmems hsettled
  have h : TakeDue s st e := ⟨hhead, hready, hhasTake, hpast, hrunning, hfree, hplaced, hturn, hawake, hmems, hsettled⟩
  exact ⟨takeStart_conflict h, fun a => takeStart_dataLoss h,
    fun htake hcut => ⟨takeStart_run h htake hcut, fun hcls r y => takeStart_step h htake hcut hcls⟩⟩

end Sys2Proof.Machine

/-!
PROOFS. Every step keeps the memories in canonical form (O2): for each function of the model whether it leaves SRAM, DRAM and flash
alone (`memForm_f` an equivalence) or writes them through the accessors that keep their form (`memForm_f` an implication); then that the
outcome of each command has the form (`formOut_execX`), and the step itself.
-/

namespace Sys2Proof.Machine

open Sys2Proof

-- The form of a state and of an outcome

/-- The form of a state written out is that of its three memories. -/
@[simp] theorem memForm_mk
    (pending free kc mem sram flash poison csr regions cores fab wkc memctl intake loader net cen upu cal pwr drl sec obs csrEnd) :
    memForm ⟨pending, free, kc, mem, sram, flash, poison, csr, regions, cores, fab, wkc, memctl, intake, loader, net, cen, upu, cal,
        pwr, drl, sec, obs, csrEnd⟩ ↔
      memWf mem ∧ memWf sram ∧ tabWf 255#8 flash :=
  Iff.rfl

/-- The three memories of one state. -/
@[simp] theorem memForm_fold (s : State) : memWf s.mem ∧ memWf s.sram ∧ tabWf 255#8 s.flash ↔ memForm s := Iff.rfl

/-- A choice between two states. -/
@[simp] theorem memForm_ite (p : Prop) [Decidable p] (s t : State) : memForm (if p then s else t) ↔ if p then memForm s else memForm t := by
  split <;> rfl

/-- Steps that each leave the form as it is. -/
@[simp] theorem memForm_foldl_iff {α : Type} {f : State → α → State} (h : ∀ s a, memForm (f s a) ↔ memForm s) (l : List α) (s : State) :
    memForm (l.foldl f s) ↔ memForm s :=
  List.foldlRecOn l f (motive := fun t => memForm t ↔ memForm s) Iff.rfl fun t ht a _ => (h t a).trans ht

/-- An outcome whose next state, if there is one, has its memories in canonical form. -/
def FormOut : Out → Prop
  | .next t => memForm t
  | _ => True

@[simp] theorem formOut_next (t : State) : FormOut (.next t) ↔ memForm t := Iff.rfl

@[simp] theorem formOut_fault (r : Fault) : FormOut (.fault r) := trivial

@[simp] theorem formOut_onUnit (u : Bool) (s : State) (o : Out) : FormOut (onUnit u s o) ↔ if u then FormOut o else memForm s := by
  cases u <;> rfl

@[simp] theorem formOut_when (c : Bool) (s t : State) : FormOut (when_ c s t) ↔ if c then memForm t else memForm s := by
  cases c <;> rfl

@[simp] theorem formOut_event (u c : Bool) (s t : State) : FormOut (event u c s t) ↔ if u && c then memForm t else memForm s := by
  cases u <;> cases c <;> rfl

@[simp] theorem memForm_setCore (s : State) (c : Nat) (x : Core) : memForm (setCore s c x) ↔ memForm s := Iff.rfl

@[simp] theorem memForm_setQp (s : State) (q : Nat) (x : Qp) : memForm (setQp s q x) ↔ memForm s := Iff.rfl

@[simp] theorem memForm_setPort (s : State) (p : Nat) (x : Port) : memForm (setPort s p x) ↔ memForm s := Iff.rfl

@[simp] theorem memForm_setStream (s : State) (n : Nat) (x : Stream) : memForm (setStream s n x) ↔ memForm s := Iff.rfl

@[simp] theorem memForm_setSlot (s : State) (n : Nat) (x : Slot) : memForm (setSlot s n x) ↔ memForm s := Iff.rfl

@[simp] theorem memForm_setWkc (s : State) (n : Nat) (x : Wkc) : memForm (setWkc s n x) ↔ memForm s := Iff.rfl

@[simp] theorem memForm_setCtl (s : State) (k : Nat) (m : MemCtl) : memForm (setCtl s k m) ↔ memForm s := Iff.rfl

@[simp] theorem memForm_setRegion (s : State) (r v : Nat) : memForm (setRegion s r v) ↔ memForm s := Iff.rfl

@[simp] theorem memForm_cset (s : State) (a : Nat) (v : W64) : memForm (cset s a v) ↔ memForm s := Iff.rfl

@[simp] theorem memForm_modCore (s : State) (c : Nat) (f : Core → Core) : memForm (modCore s c f) ↔ memForm s := Iff.rfl

@[simp] theorem memForm_modRunning (s : State) (c : Nat) (f : Reel → Reel) : memForm (modRunning s c f) ↔ memForm s := Iff.rfl

@[simp] theorem memForm_bump (s : State) (a n : Nat) : memForm (bump s a n) ↔ memForm s := Iff.rfl

@[simp] theorem memForm_cput (s : State) (a hi lo v : Nat) : memForm (cput s a hi lo v) ↔ memForm s := Iff.rfl

@[simp] theorem memForm_corr (s : State) (a : Nat) (v : W64) : memForm (corr s a v) ↔ memForm s := Iff.rfl

@[simp] theorem memForm_modDrl (s : State) (f : Drl → Drl) : memForm (modDrl s f) ↔ memForm s := Iff.rfl

@[simp] theorem memForm_modIntake (s : State) (f : Intake → Intake) : memForm (modIntake s f) ↔ memForm s := Iff.rfl

@[simp] theorem memForm_clearPoison (s : State) (a len : Nat) : memForm (clearPoison s a len) ↔ memForm s := Iff.rfl

@[simp] theorem memForm_setPcore (s : State) (c : Nat) (p : PCore) : memForm (setPcore s c p) ↔ memForm s := Iff.rfl

theorem memForm_of_writeMem {s t : State} {a : Nat} {d : List Byte} {r : Access} (h : writeMem s a d = (r, t)) (hs : memForm s) : memForm t := by
  have hw := memForm_writeMem a d hs
  rwa [h] at hw

/-- Steps on a state beside what they gather. -/
theorem memForm_foldl_fst {α β : Type} {f : State × β → α → State × β} (hf : ∀ a x, memForm a.1 → memForm (f a x).1) (l : List α)
    {a : State × β} (h : memForm a.1) : memForm (l.foldl f a).1 :=
  List.foldlRecOn l f (motive := fun b => memForm b.1) h fun b hb x _ => hf b x hb

/-- Steps, each of the list, on a state beside what they gather. -/
theorem memForm_foldl_snd {α β : Type} {l : List α} {f : β × State → α → β × State}
    (h : ∀ x ∈ l, ∀ a, memForm (f a x).2 ↔ memForm a.2) (a : β × State) : memForm (l.foldl f a).2 ↔ memForm a.2 :=
  List.foldlRecOn l f (motive := fun b => memForm b.2 ↔ memForm a.2) Iff.rfl fun b hb x hx => (h x hx b).trans hb

@[simp] theorem formOut_rateEvent (q : Nat) {s : State} (f : Qp → Qp) (h : memForm s) : FormOut (rateEvent q s f) := by simp [h, rateEvent]

-- Memory, registers and the tables of the state (Machine/Ops)

@[simp] theorem memForm_setRegions (s : State) (rs : List Nat) (v : Nat) : memForm (setRegions s rs v) ↔ memForm s := by simp [setRegions]

@[simp] theorem memForm_readyCtl (s : State) (k : Nat) : memForm (readyCtl s k) ↔ memForm s := by simp [readyCtl]

@[simp] theorem memForm_wakeAt (s : State) (a : Nat) : memForm (wakeAt s a) ↔ memForm s := by
  unfold wakeAt
  split <;> simp

@[simp] theorem memForm_cleanRegion (s : State) (r : Nat) : memForm (cleanRegion s r) ↔ memForm s := by simp [cleanRegion]

@[simp] theorem memForm_takeFree (s : State) : memForm (takeFree s).2 ↔ memForm s := by simp [takeFree]

-- Registers (Machine/Csr)

@[simp] theorem memForm_csrStore (s : State) (a : Nat) (v : W64) : memForm (csrStore s a v) ↔ memForm s := by
  unfold csrStore
  split <;> simp

@[simp] theorem memForm_csrWarm (s : State) : memForm (csrWarm s) ↔ memForm s := by simp [csrWarm]

-- Messages, completions, kills and the ends of commands (Machine/Control)

@[simp] theorem memForm_alert (s : State) (b : Nat) : memForm (alert s b) ↔ memForm s := Iff.rfl

@[simp] theorem memForm_logFault (s : State) (cls die unit rung : Nat) : memForm (logFault s cls die unit rung) ↔ memForm s := by
  simp only [logFault, memForm_cset]

@[simp] theorem memForm_countFrames (s : State) (p n : Nat) : memForm (countFrames s p n) ↔ memForm s := by
  simp only [countFrames]
  split <;> simp

@[simp] theorem memForm_sentOn (s : State) (q : Nat) (x y : Qp) : memForm (sentOn s q x y) ↔ memForm s := by simp [sentOn]

@[simp] theorem memForm_send (s : State) (q : Nat) (kind : MsgKind) (key va : Nat) (data : List Byte) :
    memForm (send s q kind key va data) ↔ memForm s := by
  simp [send]

@[simp] theorem memForm_modEntry (s : State) (st seq : Nat) (f : Entry → Entry) : memForm (modEntry s st seq f) ↔ memForm s := by simp [modEntry]

@[simp] theorem memForm_modTake (s : State) (st seq : Nat) (f : Take → Take) : memForm (modTake s st seq f) ↔ memForm s := by simp [modTake]

@[simp] theorem memForm_dropTake (s : State) (st seq : Nat) : memForm (dropTake s st seq) ↔ memForm s := by simp [dropTake]

@[simp] theorem memForm_complete (s : State) (st seq : Nat) (c : CInfo) : memForm (complete s st seq c) ↔ memForm s := by
  unfold complete
  (repeat' split) <;> simp

@[simp] theorem memForm_settle (s : State) (st : Nat) : memForm (settle s st) ↔ memForm s := by
  simp only [settle]
  split <;> simp

@[simp] theorem memForm_haltStream (s : State) (st seq : Nat) : memForm (haltStream s st seq) ↔ memForm s := by
  simp only [haltStream]
  split <;> simp

@[simp] theorem memForm_freeUpdate (s : State) (u : Update) : memForm (freeUpdate s u) ↔ memForm s := by simp [freeUpdate]

@[simp] theorem memForm_abandonUpdates (s : State) (st seq : Nat) : memForm (abandonUpdates s st seq) ↔ memForm s := by simp [abandonUpdates]

@[simp] theorem memForm_dropUpdates (s : State) (st seq : Nat) : memForm (dropUpdates s st seq) ↔ memForm s := by simp [dropUpdates]

@[simp] theorem memForm_leaveLoader (s : State) (e : Entry) : memForm (leaveLoader s e) ↔ memForm s := by simp [leaveLoader]

@[simp] theorem memForm_restCores (s : State) (slot : Nat) : memForm (restCores s slot) ↔ memForm s := by simp [restCores]

@[simp] theorem memForm_reportLoad (s : State) (e : Entry) (report : List Byte) : memForm (reportLoad s e report) ↔ memForm s := by simp [reportLoad]

@[simp] theorem memForm_finishCore (s : State) (st seq : Nat) (c : CInfo) : memForm (finishCore s st seq c) ↔ memForm s := by
  unfold finishCore
  split <;> simp

@[simp] theorem memForm_finish (s : State) (st seq : Nat) (c : CInfo) : memForm (finish s st seq c) ↔ memForm s := by
  unfold finish
  split <;> simp

@[simp] theorem memForm_interim (s : State) (st seq : Nat) (c : CInfo) : memForm (interim s st seq c) ↔ memForm s := by simp [interim]

@[simp] theorem memForm_turnStream (s : State) (st : Nat) (next : StreamState) : memForm (turnStream s st next) ↔ memForm s := by
  simp only [turnStream]
  split <;> simp

@[simp] theorem memForm_waitFor (s : State) (st seq reason : Nat) : memForm (waitFor s st seq reason) ↔ memForm s := by
  unfold waitFor
  split <;> simp

@[simp] theorem memForm_voidBound (s : State) (c : Nat) : memForm (voidBound s c) ↔ memForm s := by
  unfold voidBound
  split <;> simp

@[simp] theorem memForm_sendControl (s : State) (l : Landing) (kind : Nat) : memForm (sendControl s l kind) ↔ memForm s := by simp [sendControl]

@[simp] theorem memForm_modCen (s : State) (f : Cen → Cen) : memForm (modCen s f) ↔ memForm s := Iff.rfl

@[simp] theorem memForm_postOut (s : State) (m : OutMsg) : memForm (postOut s m) ↔ memForm s := by simp [postOut]

@[simp] theorem memForm_flushOut (l : List OutMsg) (s : State) : memForm (flushOut l s) ↔ memForm s := by
  induction l generalizing s with
  | nil => rfl
  | cons m t ih => simp [flushOut, ih]

@[simp] theorem memForm_flushOutbox (s : State) : memForm (flushOutbox s) ↔ memForm s := by simp [flushOutbox]

@[simp] theorem memForm_abortLandings (s : State) (st seq : Nat) : memForm (abortLandings s st seq) ↔ memForm s := by simp [abortLandings]

@[simp] theorem memForm_killTake (s : State) (t : Take) : memForm (killTake s t) ↔ memForm s := by simp [killTake]

@[simp] theorem memForm_killAndEnd (s : State) (st seq : Nat) (c : CInfo) : memForm (killAndEnd s st seq c) ↔ memForm s := by
  unfold killAndEnd
  split <;> simp

@[simp] theorem memForm_killForRetake (s : State) (t : Take) (c : CInfo) (keepCut : Bool) : memForm (killForRetake s t c keepCut) ↔ memForm s := by
  simp [killForRetake]

@[simp] theorem memForm_endOfCore (s : State) (c : Nat) (f : Take → CInfo) : memForm (endOfCore s c f) ↔ memForm s := by
  unfold endOfCore
  split <;> simp

@[simp] theorem memForm_logLoss (s : State) (r : Access) (a : Nat) : memForm (logLoss s r a) ↔ memForm s := by
  unfold logLoss
  split <;> simp

@[simp] theorem memForm_accessFail (s : State) (c : Nat) (r : Access) (addr : Nat) :
    memForm (accessFail s c r addr) ↔ memForm s := by simp [accessFail]

@[simp] theorem memForm_modRun (s : State) (id : Nat) (f : Run → Run) : memForm (modRun s id f) ↔ memForm s := by simp [modRun]

@[simp] theorem memForm_trapCore (s : State) (c cause val detail reel pc : Nat) : memForm (trapCore s c cause val detail reel pc) ↔ memForm s := by
  simp [trapCore]

@[simp] theorem memForm_trapHere (s : State) (c cause val detail : Nat) : memForm (trapHere s c cause val detail) ↔ memForm s := by simp [trapHere]

-- Finlen: arithmetic, branches, loops and words of memory (Machine/Finlen)

/-- An instruction whose effect, executed or not, keeps the form. -/
theorem formOut_finlen {q : Issue} {i : Instr} {s : State} {run skip : State → State} (h : memForm s)
    (hr : ∀ t, memForm t → memForm (run t)) (hs : ∀ t, memForm t → memForm (skip t)) : FormOut (finlen q i s run skip) := by
  have hb : memForm (bump s (csqBase q.core + 0x48) 1) := (memForm_bump ..).2 h
  simp only [finlen]
  split
  · exact h
  · split
    · trivial
    · split
      · exact h
      · split
        · simp [h]
        · split
          · exact h
          · rw [formOut_next, memForm_ite]
            split
            · exact hr _ hb
            · exact hs _ hb

theorem formOut_finlenOp {q : Issue} {i : Instr} {s : State} {run : State → State} (h : memForm s) (hr : ∀ t, memForm t → memForm (run t)) :
    FormOut (finlenOp q i s run) :=
  formOut_finlen h hr fun t ht => by simp [ht]

theorem formOut_finlenReel (q : Issue) (i : Instr) {s : State} (f : Reel → Reel) (h : memForm s) : FormOut (finlenReel q i s f) :=
  formOut_finlenOp h fun t ht => by simp [ht]

@[simp] theorem formOut_execAlu (q : Issue) (fn rd ra rb : Nat) {s : State} (h : memForm s) : FormOut (execAlu q fn rd ra rb s) :=
  formOut_finlenReel _ _ _ h

@[simp] theorem formOut_execAddi (q : Issue) (rd ra : Nat) (imm : BitVec 12) {s : State} (h : memForm s) : FormOut (execAddi q rd ra imm s) :=
  formOut_finlenReel _ _ _ h

@[simp] theorem formOut_execAndi (q : Issue) (rd ra : Nat) (imm : BitVec 12) {s : State} (h : memForm s) : FormOut (execAndi q rd ra imm s) :=
  formOut_finlenReel _ _ _ h

@[simp] theorem formOut_execOri (q : Issue) (rd ra : Nat) (imm : BitVec 12) {s : State} (h : memForm s) : FormOut (execOri q rd ra imm s) :=
  formOut_finlenReel _ _ _ h

@[simp] theorem formOut_execXori (q : Issue) (rd ra : Nat) (imm : BitVec 12) {s : State} (h : memForm s) : FormOut (execXori q rd ra imm s) :=
  formOut_finlenReel _ _ _ h

@[simp] theorem formOut_execSlli (q : Issue) (rd ra : Nat) (imm : BitVec 12) {s : State} (h : memForm s) : FormOut (execSlli q rd ra imm s) :=
  formOut_finlenReel _ _ _ h

@[simp] theorem formOut_execSrli (q : Issue) (rd ra : Nat) (imm : BitVec 12) {s : State} (h : memForm s) : FormOut (execSrli q rd ra imm s) :=
  formOut_finlenReel _ _ _ h

@[simp] theorem formOut_execSrai (q : Issue) (rd ra : Nat) (imm : BitVec 12) {s : State} (h : memForm s) : FormOut (execSrai q rd ra imm s) :=
  formOut_finlenReel _ _ _ h

@[simp] theorem formOut_execXalu (q : Issue) (fn rd ra : Nat) (imm : W32) {s : State} (h : memForm s) : FormOut (execXalu q fn rd ra imm s) :=
  formOut_finlenReel _ _ _ h

@[simp] theorem formOut_execNop (q : Issue) {s : State} (h : memForm s) : FormOut (execNop q s) :=
  formOut_finlenReel _ _ _ h

@[simp] theorem formOut_execCmp (q : Issue) (fn pd ra rb : Nat) {s : State} (h : memForm s) : FormOut (execCmp q fn pd ra rb s) :=
  formOut_finlenReel _ _ _ h

@[simp] theorem formOut_execCmpi (q : Issue) (cond pd ra : Nat) (imm : BitVec 12) {s : State} (h : memForm s) :
    FormOut (execCmpi q cond pd ra imm s) :=
  formOut_finlenReel _ _ _ h

@[simp] theorem formOut_execPlog (q : Issue) (fn pd pa pb : Nat) {s : State} (h : memForm s) : FormOut (execPlog q fn pd pa pb s) :=
  formOut_finlenReel _ _ _ h

@[simp] theorem formOut_execBr (q : Issue) (off : BitVec 19) {s : State} (h : memForm s) : FormOut (execBr q off s) :=
  formOut_finlenOp h fun t ht => by simp [ht]

@[simp] theorem formOut_execCall (q : Issue) (off : BitVec 19) {s : State} (h : memForm s) : FormOut (execCall q off s) :=
  formOut_finlenOp h fun t ht => by simp [ht]

@[simp] theorem formOut_execRet (q : Issue) {s : State} (h : memForm s) : FormOut (execRet q s) :=
  formOut_finlenOp h fun t ht => by split <;> simp [ht]

@[simp] theorem formOut_execLoop (q : Issue) (rd ra body : Nat) {s : State} (h : memForm s) : FormOut (execLoop q rd ra body s) := by
  simp only [execLoop]
  exact formOut_finlen h (fun t ht => by simp [ht]) fun t ht => by simp [ht]

@[simp] theorem formOut_execLbrk (q : Issue) {s : State} (h : memForm s) : FormOut (execLbrk q s) :=
  formOut_finlenOp h fun t ht => by split <;> simp [ht]

@[simp] theorem formOut_execLdw (q : Issue) (rd ra : Nat) (imm : BitVec 12) {s : State} (h : memForm s) : FormOut (execLdw q rd ra imm s) :=
  formOut_finlenOp h fun t ht => by simp [ht]

@[simp] theorem formOut_execStw (q : Issue) (rd ra : Nat) (imm : BitVec 12) {s : State} (h : memForm s) : FormOut (execStw q rd ra imm s) :=
  formOut_finlenOp h fun t ht => by simp [ht, memForm_sramWrites]

@[simp] theorem formOut_execTrap (q : Issue) (code : BitVec 12) {s : State} (h : memForm s) : FormOut (execTrap q code s) :=
  formOut_finlenOp h fun t ht => by simp [ht]

-- Barrier counters and arrivals (Machine/Barrier)

@[simp] theorem memForm_sendArrival (s : State) (circuit : Option Nat) (after : List Nat) (a : Arrival) :
    memForm (sendArrival s circuit after a) ↔ memForm s := by
  unfold sendArrival
  (repeat' split) <;> simp

@[simp] theorem memForm_arriveOut (s : State) (c id : Nat) (b : List Byte) (r : BRef) (rs : List (Nat × Nat)) :
    memForm (arriveOut s c id b r rs) ↔ memForm s := by
  unfold arriveOut
  (repeat' split) <;> simp

@[simp] theorem memForm_arriveRef (s : State) (c id : Nat) (b : List Byte) (r : BRef) :
    memForm (arriveRef s c id b r) ↔ memForm s := by simp [arriveRef]

@[simp] theorem memForm_notePrefetch (s : State) (a : Arrival) : memForm (notePrefetch s a) ↔ memForm s := by simp [notePrefetch]

@[simp] theorem memForm_applyArrival (s : State) (a : Arrival) : memForm (applyArrival s a) ↔ memForm s := by
  unfold applyArrival
  split <;> simp

@[simp] theorem formOut_execBarrierArrival (k : Nat) {s : State} (h : memForm s) : FormOut (execBarrierArrival k s) := by
  unfold execBarrierArrival
  split <;> simp [h]

@[simp] theorem memForm_consume (s : State) (c mu ctr w : Nat) : memForm (consume s c mu ctr w) ↔ memForm s := by simp [consume]

-- Finlen: descriptors, barriers, commits, reels and CSRs (Machine/FinlenSys)

theorem formOut_finlenWait {q : Issue} {i : Instr} {s : State} {ready : Bool} {run : State → State} (h : memForm s)
    (hr : ∀ t, memForm t → memForm (run t)) : FormOut (finlenWait q i s ready run) :=
  formOut_finlenOp h fun t ht => by split <;> simp [h, hr, ht]

@[simp] theorem memForm_stepPc (s : State) (c : Nat) (i : Instr) : memForm (stepPc s c i) ↔ memForm s := Iff.rfl

@[simp] theorem memForm_enqueue (s : State) (c key : Nat) (b : List Byte) : memForm (enqueue s c key b) ↔ memForm s := by simp [enqueue]

@[simp] theorem formOut_execIssue (q : Issue) (ra eng : Nat) (size : Bool) (off : Nat) {s : State} (h : memForm s) :
    FormOut (execIssue q ra eng size off s) :=
  formOut_finlenWait h fun t ht => by (repeat' split) <;> simp [ht]

@[simp] theorem formOut_execArrive (q : Issue) (ra mu ctr n : Nat) (rem : Bool) {s : State} (h : memForm s) :
    FormOut (execArrive q ra mu ctr n rem s) := by
  simp only [execArrive]
  exact formOut_finlenOp h fun t ht => by (repeat' split) <;> simp [ht]

@[simp] theorem formOut_execWait (q : Issue) (mu ctr n : Nat) {s : State} (h : memForm s) : FormOut (execWait q mu ctr n s) :=
  formOut_finlenWait h fun t ht => by simp [ht]

@[simp] theorem formOut_execRstart (q : Issue) (z : Nat) (off : BitVec 19) {s : State} (h : memForm s) : FormOut (execRstart q z off s) :=
  formOut_finlenOp h fun t ht => by simp [ht]

@[simp] theorem memForm_switchReel (s : State) (c : Nat) : memForm (switchReel s c) ↔ memForm s := Iff.rfl

@[simp] theorem formOut_execYieldReel (q : Issue) {s : State} (h : memForm s) : FormOut (execYieldReel q s) :=
  formOut_finlenOp h fun t ht => by simp [ht]

@[simp] theorem formOut_execRexit (q : Issue) {s : State} (h : memForm s) : FormOut (execRexit q s) :=
  formOut_finlenOp h fun t ht => by simp [ht]

@[simp] theorem formOut_execFence (q : Issue) (fn : Nat) {s : State} (h : memForm s) : FormOut (execFence q fn s) :=
  formOut_finlenOp h fun t ht => by simp [ht]

@[simp] theorem memForm_sendCtr (s : State) (c : Nat) (f : Nat → Nat → Nat → CtrReq) : memForm (sendCtr s c f) ↔ memForm s := by simp [sendCtr]

@[simp] theorem formOut_execFetch (q : Issue) (rd ra rb : Nat) (dev : Bool) (num : Nat) {s : State} (h : memForm s) :
    FormOut (execFetch q rd ra rb dev num s) :=
  formOut_finlenWait h fun t ht => by simp [ht]

@[simp] theorem formOut_execFetchAnswer (c reel rd : Nat) {s : State} (h : memForm s) : FormOut (execFetchAnswer c reel rd s) := by
  simp only [execFetchAnswer]
  split <;> simp [h]

@[simp] theorem formOut_execCounterResend (c reel rd : Nat) {s : State} (h : memForm s) : FormOut (execCounterResend c reel rd s) := by
  simp only [execCounterResend]
  split <;> simp [h]

@[simp] theorem formOut_execTcmt (q : Issue) (rd ra rb : Nat) (dev : Bool) (num : Nat) {s : State} (h : memForm s) :
    FormOut (execTcmt q rd ra rb dev num s) := by
  simp only [execTcmt]
  exact formOut_finlenWait h fun t ht => by (repeat' split) <;> simp [ht]

@[simp] theorem memForm_commitCopies {s : State} (c : Nat) (l : List (Nat × Nat × Nat)) (h : memForm s) : memForm (commitCopies s c l) := by
  induction l generalizing s with
  | nil => exact h
  | cons g t ih =>
    rw [commitCopies]
    split <;> simp [ih, memForm_of_writeMem ‹_› h]

@[simp] theorem formOut_execTcmtAnswer (c reel rd : Nat) {s : State} (h : memForm s) : FormOut (execTcmtAnswer c reel rd s) := by
  simp only [execTcmtAnswer]
  (repeat' split) <;> simp [h]

@[simp] theorem formOut_execTcmtCopyDone (c reel rd : Nat) {s : State} (h : memForm s) : FormOut (execTcmtCopyDone c reel rd s) := by
  simp only [execTcmtCopyDone]
  split <;> simp [h]

@[simp] theorem formOut_execCsrr (q : Issue) (rd : Nat) (imm : W32) {s : State} (h : memForm s) : FormOut (execCsrr q rd imm s) :=
  formOut_finlenOp h fun t ht => by split <;> simp [ht]

@[simp] theorem formOut_execCsrw (q : Issue) (ra : Nat) (imm : W32) {s : State} (h : memForm s) : FormOut (execCsrw q ra imm s) :=
  formOut_finlenOp h fun t ht => by simp [ht]

@[simp] theorem formOut_execTrapReport (c : Nat) {s : State} (h : memForm s) : FormOut (execTrapReport c s) := by simp [h, execTrapReport]

-- Work counters (Machine/Wkc)

@[simp] theorem formOut_execWkcFetchAdd (c reel rd : Nat) {s : State} (h : memForm s) : FormOut (execWkcFetchAdd c reel rd s) := by
  simp only [execWkcFetchAdd]
  split <;> simp [h]

@[simp] theorem formOut_execLedgerCommit (c reel rd : Nat) {s : State} (h : memForm s) : FormOut (execLedgerCommit c reel rd s) := by
  simp only [execLedgerCommit]
  split <;> simp [h]

-- The matrix engine (Machine/Mxe)

@[simp] theorem formOut_execMxePassStart (c : Nat) {s : State} (h : memForm s) : FormOut (execMxePassStart c s) := by
  simp only [execMxePassStart]
  (repeat' split) <;> simp [h]

@[simp] theorem formOut_execZpMiss (c : Nat) {s : State} (h : memForm s) : FormOut (execZpMiss c s) := by
  unfold execZpMiss
  split <;> simp [h]

@[simp] theorem memForm_markTags (s : State) (st seq : Nat) (b : List Byte) : memForm (markTags s st seq b) ↔ memForm s := by simp [markTags]

@[simp] theorem memForm_accumRange (s : State) (c : Nat) (b : List Byte) : memForm (accumRange s c b) ↔ memForm s := by simp [accumRange]

@[simp] theorem formOut_execMxeRangeFail (c : Nat) {s : State} (h : memForm s) : FormOut (execMxeRangeFail c s) := by
  simp only [execMxeRangeFail]
  (repeat' split) <;> simp [h]

@[simp] theorem memForm_drainStore {s : State} (c : Nat) (d : MxeDrain) (h : memForm s) : memForm (drainStore s c d) := by
  simp only [drainStore, memForm_modCore]
  exact memForm_foldl (fun t i ht => memForm_sramWrites _ _ _ ht) _ h

@[simp] theorem memForm_drainCarry {s : State} (c : Nat) (d : MxeDrain) (h : memForm s) : memForm (drainCarry s c d) :=
  memForm_sramWrites _ _ _ h

@[simp] theorem memForm_drainEpilogue (s : State) (c : Nat) (d : MxeDrain) (tb : Nat) :
    memForm (drainEpilogue s c d tb) ↔ memForm s := by simp [drainEpilogue]

@[simp] theorem memForm_beginDrain (s : State) (c : Nat) : memForm (beginDrain s c) ↔ memForm s := by
  unfold beginDrain
  (repeat' split) <;> simp

@[simp] theorem formOut_execMxePassEnd (c : Nat) {s : State} (h : memForm s) : FormOut (execMxePassEnd c s) := by
  unfold execMxePassEnd
  (repeat' split) <;> simp [h]

@[simp] theorem formOut_execMxeDrainEnd (c : Nat) {s : State} (h : memForm s) : FormOut (execMxeDrainEnd c s) := by
  simp only [execMxeDrainEnd]
  (repeat' split) <;> simp [h]

-- AG programs (Machine/Ag)

theorem memForm_of_agWrite {s t : State} {c r j : Nat} {d : QDesc} {v : List Byte} (h : agWrite s c d r j v = .ok t) (hs : memForm s) :
    memForm t := by
  unfold agWrite at h
  split at h
  · cases h; exact hs
  · split at h
    · cases h; exact memForm_of_writeMem ‹_› hs
    · nomatch h

@[simp] theorem memForm_agFinish (s : State) (c : Nat) (g : AgRun) : memForm (agFinish s c g) ↔ memForm s := by simp [agFinish]

@[simp] theorem memForm_prefetchIn (s : State) (c id k : Nat) (b : List Byte) : memForm (prefetchIn s c id k b) ↔ memForm s := by
  unfold prefetchIn
  split <;> simp

@[simp] theorem memForm_agDeliver (n : Nat) {s : State} (c id : Nat) (h : memForm s) : memForm (agDeliver n s c id) := by
  induction n generalizing s with
  | zero => exact h
  | succ n ih =>
    rw [agDeliver]
    (repeat' split) <;> simp [h, ih, memForm_sramWrites]

@[simp] theorem memForm_agArrive {s : State} (c id k : Nat) (v : List Byte) (h : memForm s) : memForm (agArrive s c id k v) := by simp [h, agArrive]

@[simp] theorem memForm_served (s : State) (c : Nat) (g : AgRun) (t : Nat) (f : AgRun → AgRun) :
    memForm (served s c g t f) ↔ memForm s := by simp [served]

@[simp] theorem memForm_takeRead {s : State} (c : Nat) (g : AgRun) (t : Nat) (r : Nat × Nat × Nat) (noted : Bool) (h : memForm s) :
    memForm (takeRead s c g t r noted) := by
  simp only [takeRead]
  (repeat' split) <;> simp [h]

@[simp] theorem memForm_agWrote (s : State) (c id : Nat) : memForm (agWrote s c id) ↔ memForm s := by
  unfold agWrote
  split <;> simp

@[simp] theorem memForm_takeWrite {s : State} (c : Nat) (g : AgRun) (t : Nat) (h : memForm s) : memForm (takeWrite s c g t) := by
  unfold takeWrite
  split
  · exact h
  · dsimp only
    split
    · simp [h]
    · next u hu =>
      have hu' : memForm u := foldl_ok (P := memForm) (fun s a t hs ht => memForm_of_agWrite ht hs) h hu
      split <;> simp [hu']

@[simp] theorem memForm_agPost (n : Nat) {s : State} (c mu ag : Nat) (h : memForm s) : memForm (agPost n s c mu ag) := by
  induction n generalizing s with
  | zero => exact h
  | succ n ih =>
    rw [agPost]
    split <;> simp [h, ih]

@[simp] theorem memForm_agPostAll {s : State} (c : Nat) (h : memForm s) : memForm (agPostAll s c) :=
  memForm_foldl (fun _ _ ht => memForm_agPost _ _ _ _ ht) _ h

@[simp] theorem memForm_agPut (s : State) (c : Nat) (g : AgRun) (n : Nat) (v : List Byte) : memForm (agPut s c g n v) ↔ memForm s := by
  unfold agPut
  split <;> simp

@[simp] theorem memForm_agClose {s : State} (c id : Nat) (h : memForm s) : memForm (agClose s c id) := by simp [h, agClose]

@[simp] theorem memForm_agStart {s : State} (c mu : Nat) (d : QDesc) (h : memForm s) : memForm (agStart s c mu d) := by simp [h, agStart]

@[simp] theorem formOut_execAgProgram (c mu : Nat) {s : State} (h : memForm s) : FormOut (execAgProgram c mu s) := by
  simp only [execAgProgram]
  (repeat' split) <;> simp [h]

@[simp] theorem formOut_execReelSwitch (c unit : Nat) {s : State} (h : memForm s) : FormOut (execReelSwitch c unit s) := by
  simp only [execReelSwitch]
  (repeat' split) <;> simp [h]

-- The vector engine (Machine/Vce)

@[simp] theorem memForm_putElem {s : State} (c : Nat) (t : Strm) (lin j raw : Nat) (h : memForm s) : memForm (putElem s c t lin j raw) := by
  simp [putElem, h, memForm_sramWrites]

@[simp] theorem memForm_writeElem {s : State} (c : Nat) (t : Strm) (lin n j raw : Nat) (h : memForm s) : memForm (writeElem s c t lin n j raw) := by
  unfold writeElem
  (repeat' split) <;> simp [h]

@[simp] theorem memForm_writeElems (c : Nat) (t : Strm) (lin n j : Nat) (l : List Nat) {s : State} (h : memForm s) :
    memForm (writeElems c t lin n j l s) := by
  induction l generalizing n j s with
  | nil => exact h
  | cons raw l ih => exact ih _ _ (memForm_writeElem _ _ _ _ _ _ h)

@[simp] theorem memForm_putBlock (c : Nat) (d : QDesc) (t : Strm) (p : BeatPos) (xs : List W32) (l0 : Nat) {s : State} (h : memForm s) :
    memForm (putBlock c d t p xs l0 s).1 := by
  simp only [putBlock]
  split <;> simp [h, memForm_sramWrites]

@[simp] theorem memForm_putVote (c : Nat) (d : QDesc) (t : Strm) (absurd : W32) (n prev : Nat) (first last : Bool) (x : W32) {s : State}
    (h : memForm s) : memForm (putVote c d t absurd n prev first last x s) := by
  simp only [putVote]
  generalize hflag : sramWrites s c _ _ = u
  have hu : memForm u := hflag ▸ memForm_sramWrites _ _ _ h
  simp [hu, memForm_sramWrites]

@[simp] theorem memForm_putVotes (c : Nat) (d : QDesc) (t : Strm) (p : BeatPos) (xs : List W32) {s : State} (h : memForm s) :
    memForm (putVotes c d t p xs s) :=
  memForm_foldl (fun _ _ ht => memForm_putVote _ _ _ _ _ _ _ _ _ ht) _ h

@[simp] theorem memForm_putBeat {s : State} (c : Nat) (d : QDesc) (p : BeatPos) (xs : List W32) (h : memForm s) : memForm (putBeat s c d p xs).1 := by
  simp only [putBeat]
  (repeat' split) <;> simp [h]

@[simp] theorem memForm_zpClear {s : State} (c a : Nat) (b : List Byte) (u v : Nat) (h : memForm s) : memForm (zpClear s c a b u v) := by
  simp [zpClear, h, memForm_sramWrites]

@[simp] theorem memForm_zpInit {s : State} (c : Nat) (b : List Byte) (allow : Bool) (h : memForm s) : memForm (zpInit s c b allow) :=
  memForm_sramWrites _ _ _ h

@[simp] theorem memForm_zeroMap {s : State} (c : Nat) (d : QDesc) (p : BeatPos) (mags : List Nat) (allow : Bool) (h : memForm s) :
    memForm (zeroMap s c d p mags allow) := by
  simp only [zeroMap]
  generalize hinit : (if p.row = 0 ∧ p.j0 = 0 then zpInit s c d.bytes allow else s) = u
  have hu : memForm u := by
    rw [← hinit]
    split <;> simp [h]
  have hclear := memForm_foldl (f := fun s (e : Nat × Nat) =>
    if e.1 = 0 then s else zpClear s c (fld d.bytes 116 4) d.bytes (rowAt d p.row 1 / 16) ((p.j0 + e.2) / 16))
    (fun s e hs => by split <;> simp [hs]) mags.zipIdx hu
  simp [h, hclear, memForm_sramWrites]

@[simp] theorem memForm_redTake (s : State) (c : Nat) (r : RedRun) (d : QDesc) (p : BeatPos) (xs : List W32) :
    memForm (redTake s c r d p xs) ↔ memForm s := by
  simp [redTake]

@[simp] theorem memForm_walkDone (s : State) (c : Nat) (d : QDesc) (rs : List (Nat × Nat)) :
    memForm (walkDone s c d rs) ↔ memForm s := by simp [walkDone]

@[simp] theorem formOut_execVwalkStart (c : Nat) {s : State} (h : memForm s) : FormOut (execVwalkStart c s) := by
  simp only [execVwalkStart]
  (repeat' split) <;> simp [h]

@[simp] theorem memForm_finishProgs (s : State) (c : Nat) (ts : List Strm) (ended : Bool) (upTo : AgRun → Nat) :
    memForm (finishProgs s c ts ended upTo) ↔ memForm s :=
  memForm_foldl_iff (fun s t => by (repeat' split) <;> simp) ts s

@[simp] theorem memForm_feedProg {s : State} (c : Nat) (t : Strm) (ended : Bool) (upTo : Nat) (h : memForm s) :
    memForm (feedProg s c t ended upTo) := by
  unfold feedProg
  (repeat' split) <;> simp [h]

@[simp] theorem memForm_beatOut {s : State} (c : Nat) (w : Walk) (p : BeatPos) (r : BeatState) (h : memForm s) :
    memForm (beatOut s c w p r) := by
  have hput := memForm_putBeat c w.desc p r.x h
  simp only [beatOut]
  split <;> simp [hput]

@[simp] theorem formOut_execVceBeatIssue (c : Nat) {s : State} (h : memForm s) : FormOut (execVceBeatIssue c s) := by
  simp only [execVceBeatIssue]
  split <;> simp [h]

@[simp] theorem formOut_execVwalkEnd (c : Nat) {s : State} (h : memForm s) : FormOut (execVwalkEnd c s) := by
  simp only [execVwalkEnd]
  split <;> simp [h]

@[simp] theorem formOut_execVprogApply (c : Nat) {s : State} (h : memForm s) : FormOut (execVprogApply c s) := by
  simp only [execVprogApply]
  (repeat' split) <;> simp [h]

@[simp] theorem formOut_execVcache (c : Nat) {s : State} (h : memForm s) : FormOut (execVcache c s) := by
  simp only [execVcache]
  (repeat' split) <;> simp [h]

@[simp] theorem formOut_execReelGenSwitch (c unit reel : Nat) {s : State} (h : memForm s) : FormOut (execReelGenSwitch c unit reel s) := by
  simp only [execReelGenSwitch]
  (repeat' split) <;> simp [h]

@[simp] theorem formOut_execDescSkipRun (c eng sub : Nat) {s : State} (h : memForm s) : FormOut (execDescSkipRun c eng sub s) := by
  simp only [execDescSkipRun]
  (repeat' split) <;> simp [h]

-- The reduction engine (Machine/Red)

@[simp] theorem formOut_execRedReduce (c : Nat) {s : State} (h : memForm s) : FormOut (execRedReduce c s) := by
  simp only [execRedReduce]
  (repeat' split) <;> simp [h]

@[simp] theorem formOut_execRedResult (c : Nat) {s : State} (h : memForm s) : FormOut (execRedResult c s) := by
  unfold execRedResult
  (repeat' split) <;> simp [h, memForm_sramWrites]

-- Transfers and prefetches (Machine/Xfr)

@[simp] theorem memForm_remoteTimeout (s : State) (c : Nat) (b : List Byte) : memForm (remoteTimeout s c b) ↔ memForm s := by simp [remoteTimeout]

@[simp] theorem memForm_remoteDenied (s : State) (c : Nat) (b : List Byte) : memForm (remoteDenied s c b) ↔ memForm s := by simp [remoteDenied]

@[simp] theorem memForm_openLanding (s : State) (c : Nat) (t : Take) (b : List Byte) :
    memForm (openLanding s c t b) ↔ memForm s := by simp [openLanding]

@[simp] theorem memForm_xfrPost (n : Nat) (s : State) (c id : Nat) : memForm (xfrPost n s c id) ↔ memForm s := by
  induction n generalizing s with
  | zero => rfl
  | succ n ih =>
    rw [xfrPost]
    split
    · rfl
    · next r _ => cases h : pieceCtl r.desc.bytes r.row r.off <;> simp [h, ih]

@[simp] theorem memForm_postAll {s : State} (h : memForm s) : memForm (postAll s) :=
  memForm_foldl (fun _ _ ht => by split <;> simp [ht]) _ h

@[simp] theorem memForm_pieceDone {s : State} (c : Nat) (q : Req) (h : memForm s) : memForm (pieceDone s c q) := by
  simp only [pieceDone]
  split <;> simp [h]

theorem memForm_of_placePiece {s t : State} {b d : List Byte} {q : Req} {kind : Option Nat} (h : placePiece s b q kind d = .ok t)
    (hs : memForm s) : memForm t := by
  simp only [placePiece] at h
  split at h
  · split at h
    · cases h
      exact memForm_of_writeMem ‹_› hs
    · nomatch h
  · split at h
    · next hw =>
      have hu := memForm_of_writeMem hw hs
      split at h
      · cases h
        exact hu
      · split at h
        · next hv =>
          cases h
          exact memForm_of_writeMem hv hu
        · nomatch h
    · nomatch h

theorem memForm_of_movePiece {s t : State} {c : Nat} {b : List Byte} {q : Req} (h : movePiece s c b q = .ok t) (hs : memForm s) : memForm t := by
  simp only [movePiece] at h
  split at h
  · exact memForm_of_placePiece h hs
  · nomatch h

theorem memForm_of_storeFrame {s t : State} {b : List Byte} {q : Req} (h : storeFrame s b q = .ok t) (hs : memForm s) : memForm t := by
  simp only [storeFrame] at h
  split at h
  · split at h
    · cases h; exact memForm_of_writeMem ‹_› hs
    · nomatch h
  · nomatch h

theorem memForm_of_loadFrame {s t : State} {b : List Byte} {q : Req} (h : loadFrame s b q = .ok t) (hs : memForm s) : memForm t := by
  simp only [loadFrame] at h
  (repeat' split at h) <;> cases h
  exact memForm_of_writeMem ‹_› hs

@[simp] theorem memForm_frameFail (s : State) (c a : Nat) : memForm (frameFail s c a) ↔ memForm s := by simp [frameFail]

@[simp] theorem memForm_xfrReturn {s : State} (c : Nat) (r : XfrRun) (q : Req) (h : memForm s) : memForm (xfrReturn s c r q) := by
  simp only [xfrReturn]
  split
  · split
    · simp [memForm_of_movePiece ‹_› h]
    · simp [h]
  · split
    · simp [h]
    · split
      · split
        · simp [memForm_of_loadFrame ‹_› h]
        · simp [h]
        · simp [h]
      · split
        · simp [memForm_of_storeFrame ‹_› h]
        · simp [h]

@[simp] theorem memForm_agReturn {s : State} (c : Nat) (g : AgRun) (q : Req) (h : memForm s) : memForm (agReturn s c g q) := by
  unfold agReturn
  (repeat' split) <;> simp [h]

@[simp] theorem formOut_execRequestReturn (c k : Nat) {s : State} (h : memForm s) : FormOut (execRequestReturn c k s) := by
  simp only [execRequestReturn]
  (repeat' split) <;> simp [h]

@[simp] theorem memForm_askVersion (s : State) (c n : Nat) (d : QDesc) : memForm (askVersion s c n d) ↔ memForm s := by simp [askVersion]

@[simp] theorem formOut_execXfrStart (c : Nat) {s : State} (h : memForm s) : FormOut (execXfrStart c s) := by
  simp only [execXfrStart]
  (repeat' split) <;> simp [h]

@[simp] theorem formOut_execXfrSeal (c : Nat) {s : State} (h : memForm s) : FormOut (execXfrSeal c s) := by
  simp only [execXfrSeal]
  (repeat' split) <;> simp [h]

@[simp] theorem formOut_execXfrComplete (c k : Nat) {s : State} (h : memForm s) : FormOut (execXfrComplete c k s) := by
  simp only [execXfrComplete]
  split <;> simp [h]

@[simp] theorem formOut_execVersionReread (c k : Nat) {s : State} (h : memForm s) : FormOut (execVersionReread c k s) := by
  simp only [execVersionReread]
  (repeat' split) <;> simp [h]

theorem memForm_of_reread {s t : State} {c : Nat} {e : Guard} (h : reread s c e = .ok t) (hs : memForm s) : memForm t := by
  simp only [reread] at h
  split at h
  · split at h
    · cases h
      exact memForm_sramWrites _ _ _ hs
    · nomatch h
  · split at h
    · refine foldl_ok (P := memForm) (fun u q v hu hv => ?_) hs h
      split at hv
      · exact memForm_of_loadFrame hv hu
      · split at hv
        · cases hv
          exact memForm_of_movePiece ‹_› hu
        · nomatch hv
    · (repeat' split at h) <;> cases h <;> simp [hs, memForm_sramWrites]

@[simp] theorem formOut_execStaleNotice (c mu g : Nat) {s : State} (h : memForm s) : FormOut (execStaleNotice c mu g s) := by
  have hb := (memForm_bump s (muBase c mu + 0x30) 1).2 h
  simp only [execStaleNotice, formOut_onUnit]
  split
  · split
    · exact h
    · split
      · exact h
      · split
        · split
          · simp [h]
          · split
            · simp [memForm_of_reread ‹_› hb]
            · simp [h]
            · simp [h]
        · split
          · simp [memForm_of_reread ‹_› hb]
          · simp [h]
          · simp [h]
  · exact h

@[simp] theorem memForm_releaseOne {s : State} (c id : Nat) (h : memForm s) : memForm (releaseOne s c id) := by
  simp only [releaseOne]
  (repeat' split) <;> simp [h]

@[simp] theorem memForm_releaseDeferred (k : Nat) {s : State} (c mu ctr need : Nat) (h : memForm s) :
    memForm (releaseDeferred k s c mu ctr need) := by
  induction k generalizing s need with
  | zero => exact h
  | succ k ih =>
    rw [releaseDeferred]
    (repeat' split) <;> simp [h, ih]

@[simp] theorem formOut_execBarrierWaitSatisfy (c mu ctr : Nat) {s : State} (h : memForm s) : FormOut (execBarrierWaitSatisfy c mu ctr s) := by
  simp only [execBarrierWaitSatisfy]
  (repeat' split) <;> simp [h]

-- The crossing fabric and multicast (Machine/Fabric)

@[simp] theorem formOut_execPacketFlit (k : Nat) {s : State} (h : memForm s) : FormOut (execPacketFlit k s) := by
  unfold execPacketFlit
  (repeat' split) <;> simp [h]

@[simp] theorem formOut_execTimetableSwitch {s : State} (h : memForm s) : FormOut (execTimetableSwitch s) := by simp [h, execTimetableSwitch]

theorem memForm_of_deliverItem {s t : State} {c mu circuit off : Nat} {q : Item} (h : deliverItem s c mu circuit off q = some t)
    (hs : memForm s) : memForm t := by
  simp only [deliverItem] at h
  split at h
  · split at h
    · cases h
      exact hs
    · nomatch h
  · split at h
    · split at h
      · cases h
        exact hs
      · nomatch h
    · obtain ⟨y, -, rfl⟩ := Option.map_eq_some_iff.1 h
      simp [hs, memForm_sramWrites]

@[simp] theorem memForm_wordWent (s : State) (key w : Nat) (d : List Byte) : memForm (wordWent s key w d) ↔ memForm s := by simp [wordWent]

@[simp] theorem formOut_execCircuitWord (slot circuit srcOff dstOff reel : Nat) (gen mark : Bool) {s : State} (h : memForm s) :
    FormOut (execCircuitWord slot circuit srcOff dstOff reel gen mark s) := by
  simp only [execCircuitWord, formOut_onUnit]
  split
  · split
    · exact h
    · split
      · exact h
      · split
        · exact h
        · split
          · simp [h]
          · split
            · next ht =>
              refine foldl_some (P := memForm) (fun e o ho u hu => ?_) (fun _ hs => ?_) ht
              · split at hu
                · exact memForm_of_deliverItem hu (ho _ rfl)
                · nomatch hu
              · cases hs
                simp [h]
            · exact h
  · exact h

@[simp] theorem formOut_execSteerApply (c k : Nat) {s : State} (h : memForm s) : FormOut (execSteerApply c k s) := by
  simp only [execSteerApply]
  (repeat' split) <;> simp [h]

@[simp] theorem memForm_emitItem (s : State) (c circuit : Nat) (q : Item) : memForm (emitItem s c circuit q) ↔ memForm s := by
  unfold emitItem
  split <;> simp

@[simp] theorem formOut_execStuPair (c k : Nat) {s : State} (h : memForm s) : FormOut (execStuPair c k s) := by
  simp only [execStuPair]
  (repeat' split) <;> simp [h]

@[simp] theorem formOut_execStuDrainMarker (c k : Nat) {s : State} (h : memForm s) : FormOut (execStuDrainMarker c k s) := by
  simp only [execStuDrainMarker, formOut_onUnit]
  (repeat' split) <;> simp [h]

@[simp] theorem formOut_execSteerStall (c k : Nat) {s : State} (h : memForm s) : FormOut (execSteerStall c k s) := by
  unfold execSteerStall
  split <;> simp [h]

@[simp] theorem memForm_landTile {s : State} (c id : Nat) (r : Recv) (t : Nat) (d : List Byte) (h : memForm s) :
    memForm (landTile s c id r t d) := by
  unfold landTile
  split
  · exact h
  · simp [h, memForm_sramWrites, -sramWrites_mem, -sramWrites_flash]

theorem memForm_of_fetchDetached {s : State} {c n : Nat} {m : Mcast} {r : Recv} {t : State × Bool} (h : fetchDetached s c m r n = .ok t)
    (hs : memForm s) : memForm t.1 := by
  simp only [fetchDetached] at h
  (repeat' split at h) <;> cases h <;> simp [hs, memForm_sramWrites]

theorem memForm_of_serveLagging {c : Nat} {rs : List Recv} {m : Mcast} {s : State} {t : State × Mcast} (h : serveLagging c rs m s = .ok t)
    (hs : memForm s) : memForm t.1 := by
  refine foldl_ok (P := fun u => memForm u.1) (fun u e v hu hv => ?_) hs h
  dsimp only at hv
  split at hv
  · cases hv
    exact hu
  · split at hv
    · cases hv
      exact hu
    · split at hv
      · cases hw : fetchDetached u.1 c u.2 e.1 ‹_› with
        | error e => rw [hw] at hv; nomatch hv
        | ok w => rw [hw] at hv; cases hv; exact memForm_of_fetchDetached hw hu
      · split at hv <;> cases hv
        · exact hu
        · simp [hu]

theorem memForm_of_sendTile {c : Nat} {rs : List Recv} {m : Mcast} {s : State} {t : State × Mcast} (h : sendTile c rs m s = .ok t)
    (hs : memForm s) : memForm t.1 := by
  simp only [sendTile] at h
  split at h
  · cases h
    exact hs
  · split at h
    · nomatch h
    · split at h
      · cases h
        refine memForm_foldl_fst (fun a e ha => ?_) _ (by simpa using hs)
        (repeat' split) <;> simp [ha, memForm_sramWrites]
      · nomatch h

@[simp] theorem formOut_execMcastTileSend (c : Nat) {s : State} (h : memForm s) : FormOut (execMcastTileSend c s) := by
  simp only [execMcastTileSend, formOut_onUnit]
  split
  · split
    · exact h
    · split
      · exact h
      · split
        · simp [h]
        · next ht =>
          split at ht
          · next hr => simp [memForm_of_sendTile ht (memForm_of_serveLagging hr ((memForm_setCore ..).2 h))]
          · nomatch ht
  · exact h

-- The collective engines (Machine/Cen)

@[simp] theorem memForm_modStep (s : State) (run n : Nat) (f : StepSt → StepSt) : memForm (modStep s run n f) ↔ memForm s := by simp [modStep]

@[simp] theorem memForm_cenRepeat (s : State) : memForm (cenRepeat s) ↔ memForm s := Iff.rfl

@[simp] theorem memForm_addTally {s : State} (r : Run) (l : Nat) (w : Int) (h : memForm s) : memForm (addTally s r l w) := by
  simp [addTally, h, memForm_ownWrite]

@[simp] theorem memForm_setTouch {s : State} (r : Run) (total : Nat) (on : Bool) (g : Nat) (h : memForm s) : memForm (setTouch s r total on g) :=
  memForm_ownWrite _ _ h

@[simp] theorem memForm_addVotes {s : State} (r : Run) (total : Nat) (weight : Int) (ws : List (Nat × List Byte)) (h : memForm s) :
    memForm (addVotes s r total weight ws) :=
  memForm_foldl (fun _ _ ht => memForm_foldl (fun _ _ hu => memForm_addTally _ _ _ hu) _ ht) _ h

@[simp] theorem memForm_touchWrites {s : State} (r : Run) (full : Bool) (total : Nat) (ws : List (Nat × List Byte)) (h : memForm s) :
    memForm (touchWrites s r full total ws) :=
  memForm_foldl (fun _ _ ht => memForm_foldl (fun _ _ hu => memForm_setTouch _ _ _ _ hu) _ ht) _ h

@[simp] theorem memForm_addWrites {s : State} (r : Run) (x : StepSt) (total weight : Nat) (sgn : Int) (ws : List (Nat × List Byte)) (h : memForm s) :
    memForm (addWrites s r x total weight sgn ws) := by
  simp [h, addWrites]

@[simp] theorem memForm_modContrib (s : State) (c : Contrib) (f : Contrib → Contrib) : memForm (modContrib s c f) ↔ memForm s := by simp [modContrib]

@[simp] theorem memForm_dropContrib (s : State) (c : Contrib) : memForm (dropContrib s c) ↔ memForm s := by simp [dropContrib]

@[simp] theorem memForm_removeVotes {s : State} (r : Run) (x : StepSt) (c : Contrib) (h : memForm s) : memForm (removeVotes s r x c) := by
  simp only [removeVotes]
  split
  · exact h
  · exact memForm_foldl (fun _ _ ht => memForm_setTouch _ _ _ _ ht) _ (memForm_addWrites _ _ _ _ _ _ h)

@[simp] theorem memForm_discard {s : State} (c : Contrib) (h : memForm s) : memForm (discard s c) := by
  unfold discard
  split <;> simp [h]

@[simp] theorem memForm_countContrib {s : State} (r : Run) (x : StepSt) (c : Contrib) (h : memForm s) :
    memForm (countContrib s r x c) := by simp [h, countContrib]

@[simp] theorem memForm_sendStep (s : State) (r : Run) (x : StepSt) (landing dev : Nat) (window : List Byte) :
    memForm (sendStep s r x landing dev window) ↔ memForm s := by
  simp [sendStep]

@[simp] theorem memForm_lateOpen {s : State} (r : Run) (x : StepSt) (h : memForm s) : memForm (lateOpen s r x) :=
  memForm_foldl (fun _ _ ht => by simp [ht]) _ h

@[simp] theorem memForm_closeOwned {s : State} (r : Run) (x : StepSt) (h : memForm s) : memForm (closeOwned s r x) := by
  simp only [closeOwned, memForm_sendStep, memForm_modStep, memForm_modCen]
  exact memForm_memClear _ _ (memForm_lateOpen r x h)

@[simp] theorem memForm_loseStep (s : State) (x : StepSt) (a : Nat) : memForm (loseStep s x a) ↔ memForm s := by
  unfold loseStep
  split <;> simp

@[simp] theorem memForm_closeStep {s : State} (r : Run) (x : StepSt) (h : memForm s) : memForm (closeStep s r x) := by
  unfold closeStep
  split <;> simp [h]

@[simp] theorem memForm_tryClose {s : State} (run n : Nat) (h : memForm s) : memForm (tryClose s run n) := by
  unfold tryClose
  split <;> simp [h]

@[simp] theorem memForm_addCarry {s : State} (r : Run) (x : StepSt) (c : Carry) (h : memForm s) : memForm (addCarry s r x c) := by simp [h, addCarry]

@[simp] theorem memForm_lateContrib {s : State} (r : Run) (x : StepSt) (c : Contrib) (h : memForm s) : memForm (lateContrib s r x c) := by
  simp only [lateContrib]
  (repeat' split) <;> simp [h]

@[simp] theorem memForm_sealContrib {s : State} (c : Contrib) (h : memForm s) : memForm (sealContrib s c) := by
  simp only [sealContrib]
  (repeat' split) <;> simp [h]

@[simp] theorem memForm_abortContrib {s : State} (c : Contrib) (h : memForm s) : memForm (abortContrib s c) := by simp [h, abortContrib]

@[simp] theorem memForm_addContrib {s : State} (c : Contrib) (w : Nat × List Byte) (h : memForm s) : memForm (addContrib s c w) := by
  simp only [addContrib]
  (repeat' split) <;> simp [h]

@[simp] theorem memForm_openStep {s : State} (run n : Nat) (h : memForm s) : memForm (openStep s run n) := by
  unfold openStep
  split
  · dsimp only
    split
    · exact h
    · refine memForm_foldl (fun _ _ ht => by split <;> simp [ht]) _ (memForm_foldl (fun _ _ ht => memForm_addCarry _ _ _ ht) _ ?_)
      simp [h]
  · exact h

@[simp] theorem memForm_countLocal {s : State} (run n addr : Nat) (h : memForm s) : memForm (countLocal s run n addr) := by
  simp only [countLocal]
  (repeat' split) <;> simp [h]

-- The update units (Machine/Upu)

@[simp] theorem memForm_spendFree (s : State) (n : Nat) : memForm (spendFree s n) ↔ memForm s := Iff.rfl

@[simp] theorem memForm_modUpdate (s : State) (run shard n : Nat) (f : Update → Update) :
    memForm (modUpdate s run shard n f) ↔ memForm s := by simp [modUpdate]

theorem memForm_of_takeRegion {s t : State} {u : Update} {k g : Nat} (h : takeRegion s u k = some (g, t)) : memForm t ↔ memForm s := by
  obtain ⟨_, -, he⟩ := Option.map_eq_some_iff.1 h
  cases he
  simp

@[simp] theorem memForm_runUpdate {s : State} (r : Run) (x : StepSt) (u : Update) (h : memForm s) : memForm (runUpdate s r x u) := by
  simp only [runUpdate]
  split
  · simp [h]
  · generalize hgo : List.foldl _ _ _ = a
    have ha : memForm a.1 := by
      rw [← hgo]
      refine memForm_foldl_fst (fun b i hb => ?_) _ h
      split
      · exact hb
      · split
        · exact hb
        · simp [memForm_ownWrite, (memForm_of_takeRegion ‹_›).2 hb]
    split
    · simp [ha]
    · split
      · simp [ha]
      · simp [memForm_ownWrite, (memForm_of_takeRegion ‹_›).2 ha]

@[simp] theorem memForm_layerNorms (s : State) (r : Run) (x : StepSt) (layer : Nat) :
    memForm (layerNorms s r x layer) ↔ memForm s := by simp [layerNorms]

@[simp] theorem memForm_endPoolWait (s : State) (p : Option (Nat × Nat)) : memForm (endPoolWait s p) ↔ memForm s := by
  unfold endPoolWait
  (repeat' split) <;> simp

@[simp] theorem memForm_reserveUpdate (s : State) (u : Update) : memForm (reserveUpdate s u) ↔ memForm s := by
  unfold reserveUpdate
  split <;> simp

@[simp] theorem memForm_startUpdate (s : State) (u : Update) : memForm (startUpdate s u) ↔ memForm s := by simp [startUpdate]

@[simp] theorem memForm_dropSlow (s : State) (u : Update) : memForm (dropSlow s u) ↔ memForm s := by simp [dropSlow]

@[simp] theorem formOut_execSyncUpdate (run shard : Nat) {s : State} (h : memForm s) : FormOut (execSyncUpdate run shard s) := by
  unfold execSyncUpdate
  (repeat' split) <;> simp [h]

@[simp] theorem formOut_execSlowUpdate (run shard : Nat) {s : State} (h : memForm s) : FormOut (execSlowUpdate run shard s) := by
  unfold execSlowUpdate
  (repeat' split) <;> simp [h]

@[simp] theorem formOut_execPoolReservationRetry (run shard : Nat) {s : State} (h : memForm s) : FormOut (execPoolReservationRetry run shard s) := by
  unfold execPoolReservationRetry
  (repeat' split) <;> simp [h]

@[simp] theorem formOut_execUpdateDone (run shard : Nat) {s : State} (h : memForm s) : FormOut (execUpdateDone run shard s) := by
  unfold execUpdateDone
  (repeat' split) <;> simp [h]

@[simp] theorem memForm_releaseOld (s : State) : memForm (releaseOld s) ↔ memForm s := by simp [releaseOld]

@[simp] theorem memForm_publishUpdate {s : State} (r : Run) (u : Update) (h : memForm s) : memForm (publishUpdate s r u) := by
  simp [publishUpdate, h, memForm_ownWrite]

-- What an image writes into its placement (Machine/Place)

@[simp] theorem memForm_writeS {s : State} (c : Nat) (img : List Byte) (idx : Nat) (h : memForm s) : memForm (writeS s c img idx) :=
  memForm_foldl (fun t o ht => by simp [ht, memForm_sramWrites]) _ h

@[simp] theorem memForm_writeRelocs {s : State} (c : Nat) (img : List Byte) (bufs : List Buf) (idx lcore : Nat) (h : memForm s) :
    memForm (writeRelocs s c img bufs idx lcore) :=
  memForm_foldl (fun t o ht => by (repeat' split) <;> simp [ht, memForm_sramWrites]) _ h

@[simp] theorem memForm_initSram {s : State} (c : Nat) (img : List Byte) (bufs : List Buf) (idx lcore : Nat) (h : memForm s) :
    memForm (initSram s c img bufs idx lcore) :=
  memForm_writeRelocs _ _ _ _ _ <| memForm_writeS _ _ _ <| memForm_foldl (fun t r ht => by simp [ht, memForm_sramWrites]) _ h

@[simp] theorem memForm_initWkc (s : State) (x : Slot) : memForm (initWkc s x) ↔ memForm s := by simp [initWkc]

theorem memForm_of_copyRanges {l : List (Nat × Nat × Nat)} {s t : State} (h : copyRanges l s = .ok t) (hs : memForm s) : memForm t := by
  induction l generalizing s with
  | nil =>
    cases h
    exact hs
  | cons g l ih =>
    rw [copyRanges] at h
    split at h
    · split at h
      · exact ih h (memForm_of_writeMem ‹_› hs)
      · nomatch h
    · nomatch h

-- Takes (Machine/Take)

@[simp] theorem formOut_execCut (q : Issue) (k : Nat) {s : State} (h : memForm s) : FormOut (execCut q k s) :=
  formOut_finlenOp h fun t ht => by simp [ht]

@[simp] theorem formOut_execTend (q : Issue) {s : State} (h : memForm s) : FormOut (execTend q s) :=
  formOut_finlenWait h fun t ht => by simp [ht]

@[simp] theorem memForm_sealTake (s : State) (t : Take) : memForm (sealTake s t) ↔ memForm s := by
  unfold sealTake
  split <;> simp

@[simp] theorem memForm_cutCopy {s : State} (t : Take) (e : Entry) (k : Nat) (h : memForm s) : memForm (cutCopy s t e k) := by
  simp only [cutCopy]
  split
  · simp [h]
  · next hu =>
    rw [memForm_sealTake]
    exact memForm_foldl (fun _ _ ht => memForm_writeMem _ _ ht) _ (memForm_of_copyRanges hu h)

@[simp] theorem memForm_reachCut {s : State} (c k : Nat) (h : memForm s) : memForm (reachCut s c k) := by
  simp only [reachCut]
  split
  · split
    · exact h
    · split <;> simp [memForm_of_writeMem ‹_› h]
  · exact h

@[simp] theorem formOut_execCutRecorded (st : Nat) {s : State} (h : memForm s) : FormOut (execCutRecorded st s) := by
  simp only [execCutRecorded]
  (repeat' split) <;> simp [h]

@[simp] theorem memForm_freeCores (s : State) (slot : Nat) : memForm (freeCores s slot) ↔ memForm s := by simp [freeCores]

@[simp] theorem memForm_freeTake {s : State} (t : Take) (h : memForm s) : memForm (freeTake s t) := by simp [h, freeTake]

@[simp] theorem memForm_endFinal {s : State} (t : Take) (f : Nat × Nat × Nat × Nat) (h : memForm s) :
    memForm (endFinal s t f) := by simp [h, endFinal]

@[simp] theorem memForm_endTake_countStep {s : State} (t : Take) (e : Entry) (h : memForm s) : memForm (endTake.countStep t s e) := by
  unfold endTake.countStep
  split <;> simp [h]

@[simp] theorem memForm_endTake {s : State} (t : Take) (h : memForm s) : memForm (endTake s t) := by
  simp only [endTake]
  split <;> simp [h]

@[simp] theorem formOut_execFenceRelease (c reel : Nat) {s : State} (h : memForm s) : FormOut (execFenceRelease c reel s) := by
  simp only [execFenceRelease]
  (repeat' split) <;> simp [h]

@[simp] theorem memForm_adoptEpoch (s : State) (x : Option EpochSt) : memForm (adoptEpoch s x) ↔ memForm s := by simp [adoptEpoch]

@[simp] theorem memForm_startCore {s : State} (x : Slot) (e : Entry) (tk : Nat × Nat) (cut : Option Nat) (ep : Nat) (c : Nat) (h : memForm s) :
    memForm (startCore s x e tk cut ep c) := by
  unfold startCore
  (repeat' split) <;> simp [h]

@[simp] theorem memForm_restoreCut {s : State} (x : Slot) (slot : Nat) (e : Entry) (h : memForm s) : memForm (restoreCut s x slot e) := by
  simp only [restoreCut]
  exact memForm_foldl (fun _ _ ht => by simp [ht]) _ (memForm_foldl (fun _ _ ht => memForm_writeMem _ _ ht) _ h)

@[simp] theorem memForm_beginTake {s : State} (e : Entry) (ep : Option EpochSt) (sx : Option (List (Nat × List Byte) × StepSt)) (h : memForm s) :
    memForm (beginTake s e ep sx) := by
  have start {t : State} (cs : List Nat) (x : Slot) (tk : Nat × Nat) (cut : Option Nat) (n : Nat) (ht : memForm t) :
      memForm (cs.foldl (fun s c => startCore s x e tk cut n c) t) :=
    memForm_foldl (fun _ _ hu => memForm_startCore _ _ _ _ _ _ hu) _ ht
  simp only [beginTake]
  split
  · rw [memForm_ite]
    split
    · exact memForm_restoreCut _ _ _ (start _ _ _ _ _ (by simp [h]))
    · exact start _ _ _ _ _ (by simp [h])
  · apply memForm_openStep
    simp only [memForm_ite, memForm_modRun, memForm_modStep, memForm_modCen, memForm_cenRepeat, ite_self]
    split
    · exact memForm_restoreCut _ _ _ (start _ _ _ _ _ (by simp [h]))
    · exact start _ _ _ _ _ (by simp [h])

@[simp] theorem formOut_execTakeStart (st : Nat) {s : State} (h : memForm s) : FormOut (execTakeStart st s) := by
  simp only [execTakeStart]
  (repeat' split) <;> simp [h]

@[simp] theorem memForm_addHist (s : State) (marks : List Nat) (e : Nat × W32) : memForm (addHist s marks e) ↔ memForm s := by simp [addHist]

@[simp] theorem memForm_writePub (s : State) (e : Entry) (bufs : List Buf) : memForm (writePub s e bufs) ↔ memForm s := by simp [writePub]

@[simp] theorem memForm_commitTake {s : State} (e : Entry) (t : Take) (status : Nat) (ups : List Update) (h : memForm s) :
    memForm (commitTake s e t status ups) := by
  have publish {u : State} (r : Run) (hu : memForm u) : memForm (ups.foldl (fun s v => publishUpdate s r v) u) :=
    memForm_foldl (fun _ _ ht => memForm_publishUpdate _ _ ht) _ hu
  simp only [commitTake, memForm_finish, memForm_writePub]
  apply memForm_freeTake
  rw [memForm_foldl_iff fun _ _ => memForm_addHist ..]
  split <;> split <;> simp [h, publish]

@[simp] theorem formOut_execCommit (st : Nat) {s : State} (h : memForm s) : FormOut (execCommit st s) := by
  unfold execCommit
  (repeat' split) <;> simp [h]

@[simp] theorem formOut_execDeadlinePassed (st : Nat) {s : State} (h : memForm s) : FormOut (execDeadlinePassed st s) := by
  unfold execDeadlinePassed
  split <;> simp [h]

@[simp] theorem formOut_execPlacementClear (slot : Nat) {s : State} (h : memForm s) : FormOut (execPlacementClear slot s) := by
  unfold execPlacementClear
  split <;> simp [h]

@[simp] theorem formOut_execCompletionRewrite (st : Nat) {s : State} (h : memForm s) : FormOut (execCompletionRewrite st s) := by
  simp only [execCompletionRewrite]
  split <;> simp [h]

-- The command intake (Machine/Intake)

@[simp] theorem memForm_windowWrite (s : State) (st off : Nat) (d : List Byte) : memForm (windowWrite s st off d) ↔ memForm s := by simp [windowWrite]

@[simp] theorem memForm_noWait (s : State) (n : Nat) : memForm (noWait s n) ↔ memForm s := by simp [noWait]

@[simp] theorem memForm_resumeNow (s : State) (st seq next : Nat) : memForm (resumeNow s st seq next) ↔ memForm s := by simp [resumeNow]

@[simp] theorem memForm_takeRecord (s : State) (st : Nat) (b : List Byte) : memForm (takeRecord s st b) ↔ memForm s := by simp [takeRecord]

@[simp] theorem memForm_examine (s : State) (st sl : Nat) : memForm (examine s st sl) ↔ memForm s := by simp [examine]

@[simp] theorem formOut_execCommandRecord (st sl : Nat) {s : State} (h : memForm s) :
    FormOut (execCommandRecord st sl s) := by simp [h, execCommandRecord]

@[simp] theorem formOut_execWaitingRecordAccept (st : Nat) {s : State} (h : memForm s) : FormOut (execWaitingRecordAccept st s) := by
  simp [h, execWaitingRecordAccept]

@[simp] theorem memForm_tryCloseStream (s : State) (st : Nat) : memForm (tryCloseStream s st) ↔ memForm s := by
  simp only [tryCloseStream]
  (repeat' split) <;> simp

@[simp] theorem memForm_eraseSpent (s : State) : memForm (eraseSpent s) ↔ memForm s := by simp [eraseSpent]

@[simp] theorem memForm_retire (s : State) (st seq : Nat) : memForm (retire s st seq) ↔ memForm s := by
  unfold retire
  split <;> simp

-- Commands at their turn (Machine/Records)

theorem formOut_atTurn {s : State} {st cls : Nat} {f : Entry → State} (h : memForm s) (hf : ∀ e, memForm (f e)) :
    FormOut (atTurn s st cls f) := by
  unfold atTurn
  split <;> simp [h, hf]

@[simp] theorem memForm_done (s : State) (e : Entry) : memForm (done s e) ↔ memForm s := by simp [done]

@[simp] theorem memForm_conflict (s : State) (e : Entry) (reason : Nat) : memForm (conflict s e reason) ↔ memForm s := by simp [conflict]

@[simp] theorem memForm_wakeSlot (s : State) (slot : Nat) : memForm (wakeSlot s slot) ↔ memForm s := by simp [wakeSlot]

@[simp] theorem memForm_beginExit (s : State) (k : Nat) : memForm (beginExit s k) ↔ memForm s := by simp [beginExit]

@[simp] theorem memForm_wakeFor (s : State) (e : Entry) : memForm (wakeFor s e) ↔ memForm s := by simp [wakeFor]

@[simp] theorem memForm_headMoment (s : State) (e : Entry) : memForm (headMoment s e) ↔ memForm s := by
  simp only [headMoment]
  (repeat' split) <;> simp

@[simp] theorem memForm_headOnce (s : State) (e : Entry) : memForm (headOnce s e) ↔ memForm s := by simp [headOnce]

@[simp] theorem formOut_execRun (st : Nat) {s : State} (h : memForm s) : FormOut (execRun st s) := formOut_atTurn h fun e => by simp [h]

@[simp] theorem formOut_execStepCmd (st : Nat) {s : State} (h : memForm s) : FormOut (execStepCmd st s) := formOut_atTurn h fun e => by simp [h]

@[simp] theorem formOut_execResume (st : Nat) {s : State} (h : memForm s) : FormOut (execResume st s) := formOut_atTurn h fun e => by simp [h]

@[simp] theorem formOut_execMark (st : Nat) {s : State} (h : memForm s) : FormOut (execMark st s) := formOut_atTurn h fun e => by simp [h]

@[simp] theorem memForm_journaledOutcomes (s : State) (st : Nat) : memForm (journaledOutcomes s st) ↔ memForm s := by simp [journaledOutcomes]

@[simp] theorem memForm_rewriteAll (s : State) (st old : Nat) : memForm (rewriteAll s st old) ↔ memForm s := by simp [rewriteAll]

@[simp] theorem memForm_openTarget (s : State) (e : Entry) : memForm (openTarget s e) ↔ memForm s := by simp [openTarget]

@[simp] theorem formOut_execOpenStream (st : Nat) {s : State} (h : memForm s) : FormOut (execOpenStream st s) :=
  formOut_atTurn h fun e => by simp [h]

@[simp] theorem memForm_closeTarget (s : State) (e : Entry) : memForm (closeTarget s e) ↔ memForm s := by simp [closeTarget]

@[simp] theorem formOut_execCloseStream (st : Nat) {s : State} (h : memForm s) : FormOut (execCloseStream st s) :=
  formOut_atTurn h fun e => by simp [h]

-- Circuits and the timetable (Machine/Route)

@[simp] theorem memForm_writeBank (s : State) (t : Table) (len : Nat) : memForm (writeBank s t len) ↔ memForm s := by simp [writeBank]

-- The loader (Machine/Loader)

@[simp] theorem memForm_unbindWkcs (s : State) (n : Nat) : memForm (unbindWkcs s n) ↔ memForm s := by simp [unbindWkcs]

theorem memForm_of_bindIn {s : State} {n lo size : Nat} {t : State × Nat} (h : bindIn s n lo size = some t) : memForm t.1 ↔ memForm s := by
  obtain ⟨_, -, rfl⟩ := Option.map_eq_some_iff.1 h
  exact Iff.rfl

theorem memForm_of_bindWkcs {s : State} {n r : Nat} {img : List Byte} {t : State × List (Nat × Nat × Nat)} (h : bindWkcs s n img r = some t) :
    memForm t.1 ↔ memForm s := by
  have bind {o : Option (State × List (Nat × Nat × Nat))} {lo size w k} (ho : ∀ u, o = some u → (memForm u.1 ↔ memForm s)) (u)
      (hu : (o.bind fun a => (bindIn a.1 n lo size).map fun q => (q.1, a.2 ++ [(w, k, q.2)])) = some u) : memForm u.1 ↔ memForm s := by
    obtain ⟨a, ha, hq⟩ := Option.bind_eq_some_iff.1 hu
    obtain ⟨q, hb, rfl⟩ := Option.map_eq_some_iff.1 hq
    exact (memForm_of_bindIn hb).trans (ho a ha)
  refine foldl_some (P := fun u => memForm u.1 ↔ memForm s) (fun o acc hacc u hu => ?_) (fun _ hs => by cases hs; rfl) h
  dsimp only at hu
  split at hu
  · exact bind hacc u hu
  · exact foldl_some (P := fun u => memForm u.1 ↔ memForm s) (fun _ _ hb => bind hb) hacc hu

@[simp] theorem memForm_placeCore {s : State} (n : Nat) (x : Slot) (idx : Nat) (h : memForm s) : memForm (placeCore s n x idx) := by
  simp only [placeCore]
  split
  · exact h
  · simp [h, memForm_clearSram]

@[simp] theorem memForm_offCore {s : State} (c : Nat) (h : memForm s) : memForm (offCore s c) :=
  memForm_clearSram c ((memForm_setCore ..).2 h)

@[simp] theorem memForm_unplace {s : State} (n : Nat) (h : memForm s) : memForm (unplace s n) :=
  memForm_foldl (fun _ _ ht => memForm_offCore _ ht) _ h

@[simp] theorem memForm_reboundAll (s : State) (t : Table) (len : Nat) : memForm (reboundAll s t len) ↔ memForm s := by simp [reboundAll]

@[simp] theorem memForm_renewBounds (s : State) (n : Nat) (t : Table) (len : Nat) :
    memForm (renewBounds s n t len) ↔ memForm s := by simp [renewBounds]

@[simp] theorem memForm_dropWait (s : State) (w : LoadWait) : memForm (dropWait s w) ↔ memForm s := Iff.rfl

@[simp] theorem memForm_noteForLen (s : State) (w : LoadWait) : memForm (noteForLen s w) ↔ memForm s := Iff.rfl

@[simp] theorem memForm_emptySlot {s : State} (n : Nat) (h : memForm s) : memForm (emptySlot s n) := by simp [h, emptySlot]

@[simp] theorem formOut_execUnload (st : Nat) {s : State} (h : memForm s) : FormOut (execUnload st s) :=
  formOut_atTurn h fun e => by simp [h]

@[simp] theorem memForm_endWaiters (s : State) (n reason : Nat) : memForm (endWaiters s n reason) ↔ memForm s := by simp [endWaiters]

theorem memForm_of_settleImage {s t : State} {n : Nat} {x : Slot} (h : settleImage s n x = .placed t) (hs : memForm s) : memForm t := by
  simp only [settleImage] at h
  split at h
  · nomatch h
  · cases h
    rw [memForm_writeBank]
    exact memForm_foldl (fun _ _ ht => memForm_placeCore _ _ _ ht) _ (by simp [hs])

theorem memForm_of_fitLoad {s t : State} {n : Nat} {img : List Byte} (h : fitLoad s n img = .placed t) (hs : memForm s) : memForm t := by
  simp only [fitLoad] at h
  split at h
  · nomatch h
  · split at h
    · nomatch h
    · split at h
      · nomatch h
      · split at h
        · nomatch h
        · exact memForm_of_settleImage h ((memForm_of_bindWkcs ‹_›).2 hs)

theorem memForm_of_fitMoving {s t : State} {n : Nat} (h : fitMoving s n = .placed t) (hs : memForm s) : memForm t := by
  simp only [fitMoving] at h
  split at h
  · nomatch h
  · split at h
    · nomatch h
    · split at h
      · nomatch h
      · exact memForm_of_settleImage h ((memForm_of_bindWkcs ‹_›).2 ((memForm_unbindWkcs s n).2 hs))

@[simp] theorem memForm_tryMoving {s : State} (n : Nat) (h : memForm s) : memForm (tryMoving s n) := by
  unfold tryMoving
  split
  · simp [memForm_of_fitMoving ‹_› h]
  · exact h
  · simp [h]
  · simp [h]

@[simp] theorem memForm_endLoad (s : State) (e : Entry) (report : List Byte) (c : CInfo) :
    memForm (endLoad s e report c) ↔ memForm s := by simp [endLoad]

@[simp] theorem memForm_failLoad (s : State) (e : Entry) (c : CInfo) : memForm (failLoad s e c) ↔ memForm s := by simp [failLoad]

@[simp] theorem memForm_rejectLoad (s : State) (e : Entry) (f : ImgFail) : memForm (rejectLoad s e f) ↔ memForm s := by simp [rejectLoad]

@[simp] theorem memForm_doneLoad (s : State) (e : Entry) (n : Nat) : memForm (doneLoad s e n) ↔ memForm s := by simp [doneLoad]

@[simp] theorem memForm_waitLoad (s : State) (e : Entry) (n reason : Nat) (img : List Byte) : memForm (waitLoad s e n reason img) ↔ memForm s := by
  simp [waitLoad]

@[simp] theorem memForm_tryLoad {s : State} (e : Entry) (kept : Nat) (img : List Byte) (h : memForm s) : memForm (tryLoad s e kept img) := by
  unfold tryLoad
  split
  · simp [h]
  · split
    · simp [h]
    · simp [h]
    · simp [h]
    · simp [memForm_of_fitLoad ‹_› h]

@[simp] theorem memForm_startLoad {s : State} (e : Entry) (h : memForm s) : memForm (startLoad s e) := by
  simp only [startLoad]
  (repeat' split) <;> simp [h]

@[simp] theorem formOut_execLoad (st : Nat) {s : State} (h : memForm s) : FormOut (execLoad st s) :=
  formOut_atTurn h fun e => by simp [h]

@[simp] theorem memForm_takeTurn (s : State) (w : LoadWait) : memForm (takeTurn s w) ↔ memForm s := Iff.rfl

@[simp] theorem formOut_execLoadRetry (k : Nat) {s : State} (h : memForm s) : FormOut (execLoadRetry k s) := by
  simp only [execLoadRetry]
  (repeat' split) <;> simp [h]

@[simp] theorem memForm_refence {s : State} (n lcore : Nat) (h : memForm s) : memForm (refence s n lcore) := by
  simp only [refence]
  split
  · next u hu =>
    split at hu
    · nomatch hu
    · obtain ⟨t, -, rfl⟩ := Option.map_eq_some_iff.1 hu
      simp [h]
  · simp [h]

-- Queue pairs and zones (Machine/Qp)

@[simp] theorem memForm_putZone {s : State} (e : KeyEnt) (z : List Byte) (h : memForm s) : memForm (putZone s e z) := by
  unfold putZone
  split <;> simp [h, memForm_ownWrite]

@[simp] theorem memForm_abortZone {s : State} (e : KeyEnt) (h : memForm s) : memForm (abortZone s e) := by
  simp only [abortZone]
  split
  · exact h
  · split
    · split
      · exact memForm_foldl (fun _ _ ht => memForm_abortContrib _ ht) _ h
      · exact h
    · (repeat' split) <;> simp [h]

@[simp] theorem memForm_abortZones {s : State} (q : Nat) (h : memForm s) : memForm (abortZones s q) :=
  memForm_foldl (fun _ _ ht => by split <;> simp [ht]) _ h

@[simp] theorem memForm_drainQp (s : State) (q : Nat) : memForm (drainQp s q) ↔ memForm s := by simp [drainQp]

@[simp] theorem memForm_resend (s : State) (q : Nat) : memForm (resend s q) ↔ memForm s := by simp [resend]

@[simp] theorem memForm_goBack (s : State) (q : Nat) : memForm (goBack s q) ↔ memForm s := by simp [goBack]

@[simp] theorem memForm_moveQp (s : State) (q : Nat) : memForm (moveQp s q) ↔ memForm s := by simp [moveQp]

@[simp] theorem memForm_migrateQp (s : State) (q : Nat) : memForm (migrateQp s q) ↔ memForm s := by simp [migrateQp]

@[simp] theorem memForm_portFall (s : State) (p : Nat) : memForm (portFall s p) ↔ memForm s := by simp [portFall]

@[simp] theorem memForm_holdPort (s : State) (p : Nat) : memForm (holdPort s p) ↔ memForm s := by simp [holdPort]

@[simp] theorem memForm_dueReinits (s : State) : memForm (dueReinits s) ↔ memForm s := by simp [dueReinits]

@[simp] theorem memForm_landingFail (s : State) (st seq landing q : Nat) (denied : Bool) :
    memForm (landingFail s st seq landing q denied) ↔ memForm s := by
  unfold landingFail
  split <;> simp

@[simp] theorem memForm_failMsg (s : State) (q : Nat) (denied : Bool) (m : Msg) : memForm (failMsg s q denied m) ↔ memForm s := by
  unfold failMsg
  (repeat' split) <;> simp

@[simp] theorem memForm_downQp {s : State} (q : Nat) (dest : QpState) (denied : Option Nat) (h : memForm s) :
    memForm (downQp s q dest denied) := by simp [h, downQp]

@[simp] theorem memForm_errorQp {s : State} (q : Nat) (denied : Option Nat) (h : memForm s) : memForm (errorQp s q denied) := by simp [h, errorQp]

@[simp] theorem memForm_answer (s : State) (q : Nat) (m : Msg) : memForm (answer s q m) ↔ memForm s := by simp [answer]

@[simp] theorem memForm_sendAck (s : State) (q psn : Nat) : memForm (sendAck s q psn) ↔ memForm s := by simp [sendAck]

@[simp] theorem memForm_sendNak {s : State} (q psn code : Nat) (h : memForm s) : memForm (sendNak s q psn code) := by simp [h, sendNak]

-- POOL and the network operations of MANIFEST (Machine/NetCmd)

theorem formOut_opTurn {s : State} {st cls op : Nat} {f : Entry → State} (h : memForm s) (hf : ∀ e, memForm (f e)) :
    FormOut (opTurn s st cls op f) :=
  formOut_atTurn h fun e => by split <;> simp [h, hf]

theorem memForm_of_allOrNone {α : Type} {f : State → α → Option State} (hf : ∀ s a t, f s a = some t → memForm s → memForm t)
    {l : List α} {s t : State} (h : allOrNone f s l = some t) (hs : memForm s) : memForm t := by
  induction l generalizing s with
  | nil =>
    cases h
    exact hs
  | cons a l ih =>
    obtain ⟨u, hu, ht⟩ := Option.bind_eq_some_iff.1 h
    exact ih ht (hf _ _ _ hu hs)

theorem memForm_doneOr {s : State} {t : Option State} (hs : memForm s) (h : ∀ u, t = some u → memForm u) (e : Entry) (reason : Nat) :
    memForm (doneOr s e reason t) := by
  cases t with
  | none => simp [doneOr, hs]
  | some u => simp [doneOr, h]

theorem memForm_of_giveRegion {s t : State} {g : Nat} (h : giveRegion s g = some t) : memForm t ↔ memForm s := by
  unfold giveRegion at h
  split at h
  · cases h; simp
  · nomatch h

theorem memForm_of_takeBackRegion {s t : State} {g : Nat} (h : takeBackRegion s g = some t) : memForm t ↔ memForm s := by
  unfold takeBackRegion at h
  split at h
  · split at h
    · cases h; simp
    · nomatch h
  · nomatch h

@[simp] theorem formOut_execGive (st : Nat) {s : State} (h : memForm s) : FormOut (execGive st s) :=
  formOut_opTurn h fun _ => memForm_doneOr h (fun _ hu => memForm_of_allOrNone (fun _ _ _ hg => (memForm_of_giveRegion hg).2) hu h) _ _

@[simp] theorem formOut_execTakeBack (st : Nat) {s : State} (h : memForm s) : FormOut (execTakeBack st s) :=
  formOut_opTurn h fun _ => memForm_doneOr h (fun _ hu => memForm_of_allOrNone (fun _ _ _ hg => (memForm_of_takeBackRegion hg).2) hu h) _ _

theorem memForm_of_adoptRun {s t : State} {a : Nat} (h : adoptRun s a = some t) : memForm t ↔ memForm s := by
  simp only [adoptRun] at h
  (repeat' split at h) <;> cases h
  simp

@[simp] theorem formOut_execAdopt (st : Nat) {s : State} (h : memForm s) : FormOut (execAdopt st s) :=
  formOut_opTurn h fun e => by
    split
    · simp [h]
    · simp [h, (memForm_of_adoptRun ‹_›).2 h]

@[simp] theorem memForm_releaseRun (s : State) (r : Run) : memForm (releaseRun s r) ↔ memForm s := by simp [releaseRun]

@[simp] theorem formOut_execRelease (st : Nat) {s : State} (h : memForm s) : FormOut (execRelease st s) :=
  formOut_opTurn h fun e => by split <;> simp [h]

@[simp] theorem memForm_setQpair (s : State) (b : List Byte) : memForm (setQpair s b) ↔ memForm s := by simp [setQpair]

theorem memForm_of_qpsetEntry {s t : State} {b : List Byte} (h : qpsetEntry s b = some t) (hs : memForm s) : memForm t := by
  simp only [qpsetEntry] at h
  (repeat' split at h) <;> cases h <;> simp [hs]

@[simp] theorem memForm_qpsetWhole {s : State} (e : Entry) (h : memForm s) : memForm (qpsetWhole s e) :=
  memForm_doneOr h (fun _ hu => memForm_of_allOrNone (fun _ _ _ => memForm_of_qpsetEntry) hu h) _ _

@[simp] theorem formOut_execQpsetSet (st : Nat) {s : State} (h : memForm s) : FormOut (execQpsetSet st s) :=
  formOut_opTurn h fun e => by simp [h]

@[simp] theorem formOut_execQpsetReset (st : Nat) {s : State} (h : memForm s) : FormOut (execQpsetReset st s) :=
  formOut_opTurn h fun e => by simp [h]

@[simp] theorem memForm_setKey {s : State} (k : Nat) (e : KeyEnt) (h : memForm s) : memForm (setKey s k e) := by simp [h, setKey]

theorem memForm_of_keysetEntry {s t : State} {b : List Byte} (h : keysetEntry s b = some t) (hs : memForm s) : memForm t := by
  simp only [keysetEntry] at h
  (repeat' split at h) <;> cases h <;> simp [hs]

@[simp] theorem memForm_keysetWhole {s : State} (e : Entry) (h : memForm s) : memForm (keysetWhole s e) :=
  memForm_doneOr h (fun _ hu => memForm_of_allOrNone (fun _ _ _ => memForm_of_keysetEntry) hu h) _ _

@[simp] theorem formOut_execKeyset (st : Nat) {s : State} (h : memForm s) : FormOut (execKeyset st s) :=
  formOut_opTurn h fun e => by simp [h]

@[simp] theorem formOut_execKeyRevoke (st : Nat) {s : State} (h : memForm s) : FormOut (execKeyRevoke st s) :=
  formOut_opTurn h fun e => by simp [h]

@[simp] theorem formOut_execEpoch (st : Nat) {s : State} (h : memForm s) : FormOut (execEpoch st s) :=
  formOut_opTurn h fun e => memForm_doneOr h (fun u hu => by split at hu <;> cases hu; exact h) _ _

@[simp] theorem memForm_wipeSak (s : State) (e : Entry) : memForm (wipeSak s e) ↔ memForm s := by simp [wipeSak]

theorem memForm_of_saEntry {s t : State} {b : List Byte} (h : saEntry s b = some t) : memForm t ↔ memForm s := by
  simp only [saEntry] at h
  (repeat' split at h) <;> cases h <;> simp

@[simp] theorem formOut_execSa (st : Nat) {s : State} (h : memForm s) : FormOut (execSa st s) :=
  formOut_opTurn h fun e => by
    split
    · next ht => simp [memForm_of_allOrNone (fun _ _ _ hv => (memForm_of_saEntry hv).2) ht h]
    · simp [h]

-- Firmware, attestation and identity (Machine/Sec)

@[simp] theorem memForm_noteSlot (s : State) (slot : Nat) : memForm (noteSlot s slot) ↔ memForm s := by simp [noteSlot]

@[simp] theorem memForm_onStream0 {s t : State} (hs : memForm s) (ht : memForm t) (e : Entry) : memForm (onStream0 s e t) := by
  simp [onStream0, hs, ht]

@[simp] theorem memForm_imageConflict (s : State) (e : Entry) (n : Nat) : memForm (imageConflict s e n) ↔ memForm s := by simp [imageConflict]

@[simp] theorem memForm_fwWrite {s : State} (e : Entry) (flashOk : Bool) (h : memForm s) : memForm (fwWrite s e flashOk) := by
  have herase (slot : Nat) := memForm_flashErase (fwRecords slot) 0x10000 (memForm_flashErase (fwBase slot) 0x400000 h)
  simp only [fwWrite]
  (repeat' split) <;> simp [h, herase, memForm_flashProg]

@[simp] theorem formOut_execFwWrite (st : Nat) (flashOk : Bool) {s : State} (h : memForm s) : FormOut (execFwWrite st flashOk s) :=
  formOut_opTurn h fun e => by simp [h]

@[simp] theorem memForm_fwActivate {s : State} (e : Entry) (flashOk : Bool) (h : memForm s) : memForm (fwActivate s e flashOk) := by
  simp only [fwActivate]
  (repeat' split) <;> simp [h, memForm_flashProg]

@[simp] theorem formOut_execFwActivate (st : Nat) (flashOk : Bool) {s : State} (h : memForm s) : FormOut (execFwActivate st flashOk s) :=
  formOut_opTurn h fun e => by simp [h]

@[simp] theorem memForm_restLeaves (s : State) : memForm (restLeaves s) ↔ memForm s := by
  unfold restLeaves
  generalize (freeBlock s).getD 4096 = b
  rfl

@[simp] theorem memForm_reserveBlock {s : State} (b : Nat) (h : memForm s) : memForm (reserveBlock s b) :=
  memForm_foldl (fun _ _ ht => by simp [ht, memForm_flashProg]) _ h

@[simp] theorem memForm_attestSign (s : State) (e : Entry) : memForm (attestSign s e) ↔ memForm s := by simp [attestSign]

@[simp] theorem memForm_attest {s : State} (e : Entry) (flashOk : Bool) (h : memForm s) : memForm (attest s e flashOk) := by
  unfold attest
  (repeat' split) <;> simp [h]

@[simp] theorem formOut_execAttest (st : Nat) (flashOk : Bool) {s : State} (h : memForm s) : FormOut (execAttest st flashOk s) :=
  formOut_opTurn h fun e => by simp [h]

@[simp] theorem memForm_idset {s : State} (e : Entry) (flashOk : Bool) (h : memForm s) : memForm (idset s e flashOk) := by
  simp [idset, h, memForm_flashProg, memForm_flashErase]

@[simp] theorem formOut_execIdset (st : Nat) (flashOk : Bool) {s : State} (h : memForm s) : FormOut (execIdset st flashOk s) :=
  formOut_opTurn h fun e => by simp [h]

@[simp] theorem memForm_blowFuses (s : State) (slot : Nat) : memForm (blowFuses s slot) ↔ memForm s := by simp [blowFuses]

@[simp] theorem memForm_noteOther (s : State) (slot : Nat) : memForm (noteOther s slot) ↔ memForm s := by simp [noteOther]

@[simp] theorem memForm_noteDigest (s : State) (slot : Nat) : memForm (noteDigest s slot) ↔ memForm s := by simp [noteDigest]

@[simp] theorem memForm_bootFrom (s : State) (slot : Nat) : memForm (bootFrom s slot) ↔ memForm s := by simp [bootFrom]

-- The dailies, and how freezes, halts and warm resets begin (Machine/Dailies)

@[simp] theorem memForm_freeBytes (s : State) (n : Nat) : memForm (freeBytes s n).2 ↔ memForm s := by simp [freeBytes]

@[simp] theorem memForm_freeLen (s : State) (bound : Nat) : memForm (freeLen s bound).2 ↔ memForm s := by simp [freeLen]

@[simp] theorem memForm_moveDailies (s : State) (v : W64) : memForm (moveDailies s v) ↔ memForm s := by simp [moveDailies]

@[simp] theorem memForm_queueSect (s : State) (c key depth : Nat) : memForm (queueSect s c key depth).2 ↔ memForm s := by simp [queueSect]

theorem memForm_joinSects {l : List (State → List Byte × State)} (hl : ∀ f ∈ l, ∀ s, memForm (f s).2 ↔ memForm s) (s : State) :
    memForm (joinSects l s).2 ↔ memForm s := by
  induction l generalizing s with
  | nil => rfl
  | cons f t ih =>
    have ht := fun s => ih (fun g hg => hl g (.tail _ hg)) s
    simp [joinSects, ht, hl f]

@[simp] theorem memForm_csqSect (s : State) (c : Nat) : memForm (csqSect s c).2 ↔ memForm s := by
  simp only [csqSect]
  rw [memForm_joinSects fun f hf s => ?_]
  · rfl
  · obtain ⟨e, -, rfl⟩ := List.mem_map.1 hf
    exact memForm_queueSect ..

@[simp] theorem memForm_mxeSetSect (c set : Nat) (s : State) : memForm (mxeSetSect c set s).2 ↔ memForm s := by
  unfold mxeSetSect
  split <;> simp

@[simp] theorem memForm_mxeSect (s : State) (c : Nat) : memForm (mxeSect s c).2 ↔ memForm s :=
  memForm_joinSects (by simp) s

@[simp] theorem memForm_redSect (s : State) (c : Nat) : memForm (redSect s c).2 ↔ memForm s :=
  memForm_joinSects (by simp) s

@[simp] theorem memForm_vceSect (s : State) (c : Nat) : memForm (vceSect s c).2 ↔ memForm s :=
  memForm_joinSects (by simp) s

@[simp] theorem memForm_muSect (s : State) (c m : Nat) : memForm (muSect s c m).2 ↔ memForm s := by
  refine memForm_joinSects (fun f hf s => ?_) s
  simp only [List.mem_append, List.mem_cons, List.mem_map, List.not_mem_nil, or_false] at hf
  obtain ((rfl | rfl | rfl | rfl) | ⟨i, -, rfl⟩) | rfl := hf
  case inl.inr => dsimp only; split <;> simp
  all_goals simp

@[simp] theorem memForm_routerSect (s : State) (c : Nat) : memForm (routerSect s c).2 ↔ memForm s := by simp [routerSect]

@[simp] theorem memForm_coreSects (scope c : Nat) (bad : List Nat) (s : State) : memForm (coreSects scope c bad s).2 ↔ memForm s := by
  refine memForm_foldl_snd (fun f hf a => ?_) _
  simp only [List.mem_append, List.mem_cons, List.mem_map, List.not_mem_nil, or_false] at hf
  obtain (((rfl | rfl | rfl | rfl) | ⟨m, -, rfl⟩) | hf) | rfl := hf
  case inl.inr =>
    split at hf
    · obtain ⟨m, -, rfl⟩ := List.mem_map.1 hf
      rfl
    · nomatch hf
  all_goals simp

@[simp] theorem memForm_dieSect (s : State) (d : Nat) : memForm (dieSect s d).2 ↔ memForm s := by simp [dieSect]

@[simp] theorem memForm_hubSect (s : State) (h : Nat) : memForm (hubSect s h).2 ↔ memForm s := by
  unfold hubSect
  split <;> simp

@[simp] theorem memForm_allSects (s : State) (scope : Nat) (bad : List Nat) : memForm (allSects s scope bad).2 ↔ memForm s := by
  simp only [allSects]
  split
  · rfl
  · refine memForm_foldl_snd (fun f hf a => ?_) _
    simp only [List.mem_append, List.mem_flatMap, List.mem_cons, List.mem_map] at hf
    obtain ⟨h, -, rfl⟩ | ⟨d, -, rfl | ⟨p, -, rfl⟩⟩ := hf
    · simp
    · simp
    · dsimp only
      split <;> simp

@[simp] theorem memForm_putHeader {s : State} (status nsect bytes : Nat) (h : memForm s) : memForm (putHeader s status nsect bytes) := by
  simp [putHeader, h, memForm_ownWrite]

@[simp] theorem memForm_openHeader {s : State} (status : Nat) (h : memForm s) : memForm (openHeader s status) := by simp [h, openHeader]

@[simp] theorem memForm_placeSects (base len : Nat) (l : List Sect) {a : State × Nat × List Byte × Nat × Bool} (h : memForm a.1) :
    memForm (placeSects base len l a).1 := by
  induction l generalizing a with
  | nil => exact h
  | cons x t ih =>
    refine ih ?_
    dsimp only
    split <;> simp [h, memForm_ownWrite]

@[simp] theorem memForm_readOut {s : State} (bad : List Nat) (h : memForm s) : memForm (readOut s bad) := by
  have hall := (memForm_allSects s s.drl.frzScope bad).2 h
  have hplace (n : Nat) := memForm_placeSects (areaBase (cget s dailiesReg)) (areaLen (cget s dailiesReg)) (allSects s s.drl.frzScope bad).1
    (a := ((allSects s s.drl.frzScope bad).2, n, [], 0, false)) hall
  simp only [readOut]
  split
  · exact h
  · split <;> simp [hplace, memForm_ownWrite]

@[simp] theorem memForm_sleepMemories (s : State) : memForm (sleepMemories s) ↔ memForm s := by simp [sleepMemories]

@[simp] theorem memForm_wakeMemories (s : State) : memForm (wakeMemories s) ↔ memForm s := by simp [wakeMemories]

@[simp] theorem memForm_wakeArea (s : State) : memForm (wakeArea s) ↔ memForm s := by simp [wakeArea]

@[simp] theorem memForm_sleepArea (s : State) : memForm (sleepArea s) ↔ memForm s := by simp [sleepArea]

@[simp] theorem memForm_wakeNapped (s : State) : memForm (wakeNapped s) ↔ memForm s := by simp [wakeNapped]

@[simp] theorem memForm_napAgain (s : State) : memForm (napAgain s) ↔ memForm s := by simp [napAgain]

@[simp] theorem memForm_stopClocks (s : State) (frz : FrzState) (cause scope : Nat) : memForm (stopClocks s frz cause scope) ↔ memForm s := Iff.rfl

@[simp] theorem memForm_beginFreeze {s : State} (cause scope : Nat) (h : memForm s) : memForm (beginFreeze s cause scope) := by simp [h, beginFreeze]

@[simp] theorem memForm_beginPinFreeze {s : State} (h : memForm s) : memForm (beginPinFreeze s) := by simp [h, beginPinFreeze]

@[simp] theorem memForm_eraseJournals (s : State) : memForm (eraseJournals s) ↔ memForm s := by simp [eraseJournals]

@[simp] theorem memForm_haltDevice {s : State} (h : memForm s) : memForm (haltDevice s) := by simp [h, haltDevice]

@[simp] theorem memForm_beginWarm {s : State} (cause : Nat) (h : memForm s) : memForm (beginWarm s cause) := by simp [h, beginWarm]

@[simp] theorem memForm_ownWarm {s : State} (h : memForm s) : memForm (ownWarm s) := by
  unfold ownWarm
  (repeat' split) <;> simp [h]

-- Faults (Machine/Fault)

@[simp] theorem memForm_fenceTake (s : State) (c lcore : Nat) : memForm (fenceTake s c lcore) ↔ memForm s := by
  unfold fenceTake
  split <;> simp

@[simp] theorem formOut_execFenceFail (c : Nat) {s : State} (h : memForm s) : FormOut (execFenceFail c s) := by simp [h, execFenceFail]

@[simp] theorem memForm_logbookLost {s : State} (h : memForm s) : memForm (logbookLost s) := by simp [h, logbookLost]

@[simp] theorem memForm_loseCopy {s : State} (k : Nat) (h : memForm s) : memForm (loseCopy s k) := by
  simp only [loseCopy]
  (repeat' split) <;> simp [h]

@[simp] theorem memForm_failMem {s : State} (k : Nat) (h : memForm s) : memForm (failMem s k) := by
  unfold failMem
  (repeat' split) <;> simp [h, memForm_dropMem]

@[simp] theorem formOut_execLogbookRebuildDone {s : State} (h : memForm s) : FormOut (execLogbookRebuildDone s) := by
  unfold execLogbookRebuildDone
  split <;> simp [h]

@[simp] theorem memForm_restartUnit (s : State) (u : Nat) : memForm (restartUnit s u) ↔ memForm s := by simp [restartUnit]

@[simp] theorem formOut_execUpuArrayFault (u : Nat) {s : State} (h : memForm s) : FormOut (execUpuArrayFault u s) := by simp [h, execUpuArrayFault]

@[simp] theorem memForm_failHub {s : State} (k : Nat) (h : memForm s) : memForm (failHub s k) := by simp [failHub, h]

@[simp] theorem memForm_cutLink (s : State) (d side : Nat) : memForm (cutLink s d side) ↔ memForm s := by simp [cutLink]

@[simp] theorem formOut_execLinkD2dFault (d side : Nat) {s : State} (h : memForm s) : FormOut (execLinkD2dFault d side s) := by
  simp only [execLinkD2dFault]
  split <;> simp [h]

@[simp] theorem formOut_execDerlerWatchdog {s : State} (h : memForm s) : FormOut (execDerlerWatchdog s) := by
  unfold execDerlerWatchdog
  split <;> simp [h]

@[simp] theorem formOut_execHubFailure (k : Nat) {s : State} (h : memForm s) : FormOut (execHubFailure k s) := by
  simp [execHubFailure, h]

@[simp] theorem memForm_setArea (s : State) (a v : Nat) : memForm (setArea s a v) ↔ memForm s := by simp [setArea]

@[simp] theorem memForm_rearm (s : State) : memForm (rearm s) ↔ memForm s := Iff.rfl

@[simp] theorem memForm_eraseArea (s : State) (a : Nat) : memForm (eraseArea s a) ↔ memForm s := by simp [eraseArea]

@[simp] theorem formOut_execJournalFlashFail (a : Nat) {s : State} (h : memForm s) :
    FormOut (execJournalFlashFail a s) := by simp [h, execJournalFlashFail]

@[simp] theorem formOut_execJournalEraseRetry {s : State} (h : memForm s) : FormOut (execJournalEraseRetry s) := by simp [h, execJournalEraseRetry]

@[simp] theorem formOut_execJournalAreaErased (a : Nat) {s : State} (h : memForm s) :
    FormOut (execJournalAreaErased a s) := by simp [h, execJournalAreaErased]

@[simp] theorem formOut_execPortDown (p : Nat) {s : State} (h : memForm s) : FormOut (execPortDown p s) := by simp [h, execPortDown]

@[simp] theorem memForm_finishMoves (s : State) (p : Nat) : memForm (finishMoves s p) ↔ memForm s := by simp [finishMoves]

@[simp] theorem formOut_execPortUp (p : Nat) {s : State} (h : memForm s) : FormOut (execPortUp p s) := by simp [h, execPortUp]

@[simp] theorem memForm_reinitPort (s : State) (p : Nat) : memForm (reinitPort s p) ↔ memForm s := by simp [reinitPort]

@[simp] theorem memForm_reinitUpu (s : State) (u : Nat) : memForm (reinitUpu s u) ↔ memForm s := by simp [reinitUpu]

@[simp] theorem memForm_setGroup (s : State) (k g : Nat) (x : CalGroup) : memForm (setGroup s k g x) ↔ memForm s := Iff.rfl

@[simp] theorem memForm_enterRetrain (s : State) (k : Nat) : memForm (enterRetrain s k) ↔ memForm s := by simp [enterRetrain]

@[simp] theorem memForm_reinitMem (s : State) (k : Nat) : memForm (reinitMem s k) ↔ memForm s := by simp [reinitMem]

-- Freezes (Machine/Freeze)

@[simp] theorem memForm_tellFrozen (s : State) : memForm (tellFrozen s) ↔ memForm s := by simp [tellFrozen]

@[simp] theorem memForm_endFreezeCmd (s : State) : memForm (endFreezeCmd s) ↔ memForm s := by simp [endFreezeCmd]

@[simp] theorem formOut_execPinFreeze {s : State} (h : memForm s) : FormOut (execPinFreeze s) := by
  simp only [execPinFreeze]
  (repeat' split) <;> simp [h]

@[simp] theorem memForm_freezeCmd {s : State} (e : Entry) (h : memForm s) : memForm (freezeCmd s e) := by simp [h, freezeCmd]

@[simp] theorem formOut_execFreezeThaw (st : Nat) {s : State} (h : memForm s) : FormOut (execFreezeThaw st s) :=
  formOut_opTurn h fun e => by simp [h]

@[simp] theorem formOut_execFreezeReset (st : Nat) {s : State} (h : memForm s) : FormOut (execFreezeReset st s) :=
  formOut_opTurn h fun e => by simp [h]

@[simp] theorem formOut_execFreezeEnd {s : State} (h : memForm s) : FormOut (execFreezeEnd s) := by simp [h, execFreezeEnd]

-- Power, power-up and resets (Machine/Board)

@[simp] theorem memForm_writeJournal (s : State) : memForm (writeJournal s) ↔ memForm s := by
  simp only [writeJournal]
  split <;> simp

@[simp] theorem memForm_failPower {s : State} (h : memForm s) : memForm (failPower s) := by
  simp [failPower, h, memForm_dropRails]

@[simp] theorem memForm_startFlush {s : State} (h : memForm s) : memForm (startFlush s) := by
  simp only [startFlush]
  split <;> simp [h]

@[simp] theorem formOut_execPwrFail {s : State} (h : memForm s) : FormOut (execPwrFail s) := by
  unfold execPwrFail
  (repeat' split) <;> simp [h]

@[simp] theorem formOut_execColdResetAssert {s : State} (h : memForm s) : FormOut (execColdResetAssert s) := by simp [h, execColdResetAssert]

@[simp] theorem formOut_execFlushDone {s : State} (h : memForm s) : FormOut (execFlushDone s) := by
  unfold execFlushDone
  split <;> simp [h]

@[simp] theorem formOut_execRailRestore (cause : Nat) {s : State} (h : memForm s) : FormOut (execRailRestore cause s) := by simp [h, execRailRestore]

@[simp] theorem formOut_execThermalTrip (d : Nat) {s : State} (h : memForm s) : FormOut (execThermalTrip d s) := by
  unfold execThermalTrip
  split <;> simp [h]

@[simp] theorem memForm_failPart {s : State} (part : Nat) (h : memForm s) : memForm (failPart s part) := by
  unfold failPart
  split <;> simp [h]

@[simp] theorem formOut_execRailFault (part : Nat) {s : State} (h : memForm s) : FormOut (execRailFault part s) := by
  have hlow {t : State} (ht : memForm t) : memForm (startFlush (if s.drl.pwrFailN then logFault (failPower t) 0x0E 0xFF 0xFF 4 else failPower t)) := by
    apply memForm_startFlush
    split <;> simp [ht]
  simp only [execRailFault]
  split
  · exact h
  · split
    · exact memForm_failPower h
    · split
      · exact memForm_failPower (memForm_failPart _ h)
      · exact hlow (memForm_failPart _ h)

@[simp] theorem memForm_bootFail (s : State) (code : Nat) : memForm (bootFail s code) ↔ memForm s := by simp [bootFail]

@[simp] theorem memForm_readJournal (s : State) : memForm (readJournal s) ↔ memForm s := by
  unfold readJournal
  split <;> simp

@[simp] theorem memForm_readyMem (s : State) (k : Nat) : memForm (readyMem s k) ↔ memForm s := Iff.rfl

@[simp] theorem memForm_trainMems (s : State) : memForm (trainMems s) ↔ memForm s := by simp [trainMems]

@[simp] theorem memForm_confirmMems (s : State) : memForm (confirmMems s) ↔ memForm s := by simp [confirmMems]

@[simp] theorem memForm_placeCopies (s : State) : memForm (placeCopies s) ↔ memForm s := by simp [placeCopies]

@[simp] theorem memForm_openStream0 (s : State) : memForm (openStream0 s) ↔ memForm s := by simp [openStream0]

@[simp] theorem memForm_enterReady {s : State} (h : memForm s) : memForm (enterReady s) := by
  simp only [enterReady]
  (repeat' split) <;> simp [h]

@[simp] theorem memForm_beginFill (s : State) : memForm (beginFill s) ↔ memForm s := by simp [beginFill]

@[simp] theorem formOut_execColdReady {s : State} (h : memForm s) : FormOut (execColdReady s) := by simp [h, execColdReady]

@[simp] theorem formOut_execWarmResetAssert {s : State} (h : memForm s) : FormOut (execWarmResetAssert s) := by
  simp only [execWarmResetAssert]
  split <;> simp [h]

@[simp] theorem memForm_retakeWarm {s : State} (t : Take) (h : memForm s) : memForm (retakeWarm s t) := by simp [h, retakeWarm]

@[simp] theorem memForm_rewriteRoots {s : State} (e : Entry) (c : CommitList) (h : memForm s) : memForm (rewriteRoots s e c) := by
  unfold rewriteRoots
  split
  · exact memForm_foldl (fun _ _ ht => by simp [ht, memForm_ownWrite]) _ h
  · exact h

@[simp] theorem memForm_repeatCommit {s : State} (e : Entry) (h : memForm s) : memForm (repeatCommit s e) := by
  unfold repeatCommit
  split <;> simp [h]

@[simp] theorem memForm_rewriteEnded {s : State} (h : memForm s) : memForm (rewriteEnded s) :=
  memForm_foldl (fun _ _ ht => by simp [ht]) _ h

@[simp] theorem memForm_rerouteAll {s : State} (h : memForm s) : memForm (rerouteAll s) := by
  simp only [rerouteAll, memForm_writeBank, memForm_reboundAll]
  exact memForm_foldl (fun _ _ ht => by simp [ht]) _ h

@[simp] theorem memForm_rewake (s : State) : memForm (rewake s) ↔ memForm s := by simp [rewake]

@[simp] theorem memForm_resendAll (s : State) : memForm (resendAll s) ↔ memForm s := by simp [resendAll]

-- Writes to CSR space (Machine/CsrWrite)

@[simp] theorem memForm_moveRing (s : State) (d : Nat) (v : W64) : memForm (moveRing s d v) ↔ memForm s := by simp [moveRing]

@[simp] theorem memForm_noteHot (was : Bool) (s : State) : memForm (noteHot was s) ↔ memForm s := by simp [noteHot]

@[simp] theorem memForm_enablePort (s : State) (p : Nat) (on : Bool) : memForm (enablePort s p on) ↔ memForm s := by simp [enablePort]

@[simp] theorem formOut_execFrzDailiesWrite (v : W64) {s : State} (h : memForm s) :
    FormOut (execFrzDailiesWrite v s) := by simp [h, execFrzDailiesWrite]

@[simp] theorem formOut_execObsRingWrite (d : Nat) (v : W64) {s : State} (h : memForm s) :
    FormOut (execObsRingWrite d v s) := by simp [h, execObsRingWrite]

-- The network at the receiver (Machine/Net)

@[simp] theorem memForm_noteFrame (s : State) (m : Pkt) : memForm (noteFrame s m) ↔ memForm s := by simp [noteFrame]

@[simp] theorem memForm_answerCe (s : State) (m : Pkt) : memForm (answerCe s m) ↔ memForm s := by simp [answerCe]

@[simp] theorem memForm_followPort (s : State) (m : Pkt) : memForm (followPort s m) ↔ memForm s := by simp [followPort]

theorem formOut_received {s : State} {m : Pkt} {f : State → State} (h : memForm s) (hf : ∀ t, memForm t → memForm (f t)) :
    FormOut (received s m f) := by
  simp only [received, formOut_onUnit]
  (repeat' split) <;> simp [h, hf]

theorem memForm_atPsn {s : State} {m : Pkt} {dup f : State → State} (h : memForm s) (hdup : ∀ t, memForm t → memForm (dup t))
    (hf : ∀ t, memForm t → memForm (f t)) : memForm (atPsn s m dup f) := by
  simp only [atPsn]
  split
  · exact hf _ ((memForm_setQp ..).2 h)
  · (repeat' split) <;> simp [h, hdup]

@[simp] theorem memForm_nakInvalid {s : State} (m : Pkt) (h : memForm s) : memForm (nakInvalid s m) := by simp [h, nakInvalid]

@[simp] theorem memForm_nakAccess {s : State} (m : Pkt) (h : memForm s) : memForm (nakAccess s m) := by simp [h, nakAccess]

@[simp] theorem memForm_ackAgain (s : State) (m : Pkt) : memForm (ackAgain s m) ↔ memForm s := by simp [ackAgain]

@[simp] theorem memForm_passPsn (s : State) (q n : Nat) : memForm (passPsn s q n) ↔ memForm s := Iff.rfl

@[simp] theorem memForm_tryWrite {s : State} (a : Nat) (d : List Byte) (h : memForm s) : memForm (tryWrite s a d).2 := by
  unfold tryWrite
  split <;> simp [h, memForm_of_writeMem ‹_› h]

@[simp] theorem memForm_hostWindow {s : State} (q key st off left : Nat) (d : List Byte) (h : memForm s) :
    memForm (hostWindow s q key st off left d).2 := by
  simp only [hostWindow]
  split <;> simp [h]

@[simp] theorem memForm_zoneOpen {s : State} (e : KeyEnt) (z : List Byte) (id : Nat × Nat × Nat) (h : memForm s) :
    memForm (zoneOpen s e z id) := by simp [h, zoneOpen]

@[simp] theorem memForm_takeMsg (s : State) (c : Contrib) : memForm (takeMsg s c) ↔ memForm s := by
  unfold takeMsg
  split <;> simp

@[simp] theorem memForm_sealTally {s : State} (c : Contrib) (h : memForm s) : memForm (sealTally s c) := by simp [h, sealTally]

@[simp] theorem memForm_zoneSeal {s : State} (e : KeyEnt) (z : List Byte) (h : memForm s) : memForm (zoneSeal s e z) := by
  simp only [zoneSeal]
  split <;> simp [h]

@[simp] theorem memForm_zoneRecord {s : State} (e : KeyEnt) (b : List Byte) (h : memForm s) : memForm (zoneRecord s e b).2 := by
  simp only [zoneRecord]
  (repeat' split) <;> simp [h]

@[simp] theorem memForm_zoneControl {s : State} (e : KeyEnt) (b : List Byte) (h : memForm s) : memForm (zoneControl s e b).2 := by
  unfold zoneControl
  split <;> simp [h]

@[simp] theorem memForm_zoneData {s : State} (e : KeyEnt) (o : Nat) (d : List Byte) (h : memForm s) : memForm (zoneData s e o d).2 := by
  simp only [zoneData]
  (repeat' split) <;> simp [h]

@[simp] theorem memForm_zoneWrite {s : State} (e : KeyEnt) (q va left : Nat) (d : List Byte) (only : Bool) (h : memForm s) :
    memForm (zoneWrite s e q va left d only).2 := by
  unfold zoneWrite
  (repeat' split) <;> simp [h]

@[simp] theorem memForm_wrote (s : State) (q : Nat) (goesOn : Option (Nat × Nat × Nat)) : memForm (wrote s q goesOn) ↔ memForm s := by
  unfold wrote
  split <;> simp

@[simp] theorem formOut_execRxInvalidRequest (m : Pkt) (opcode : Nat) {s : State} (h : memForm s) : FormOut (execRxInvalidRequest m opcode s) := by
  unfold execRxInvalidRequest
  split
  · exact h
  · exact formOut_received h fun _ ht => memForm_atPsn ht (fun _ hu => by simp [hu]) fun _ hu => by simp [hu]

@[simp] theorem memForm_tryRead (s : State) (a len : Nat) : memForm (tryRead s a len).2 ↔ memForm s := by
  unfold tryRead
  split <;> simp

@[simp] theorem memForm_plainRead (s : State) (a len : Nat) : memForm (plainRead s a len).2 ↔ memForm s := by
  unfold plainRead
  split <;> simp

@[simp] theorem memForm_zoneRead (s : State) (e : KeyEnt) (va len : Nat) : memForm (zoneRead s e va len).2 ↔ memForm s := by
  unfold zoneRead
  (repeat' split) <;> simp

@[simp] theorem memForm_readAccess (s : State) (q key va len : Nat) : memForm (readAccess s q key va len).2 ↔ memForm s := by
  unfold readAccess
  (repeat' split) <;> simp

@[simp] theorem memForm_inRead {s : State} (m : Pkt) (key va len : Nat) (again : Bool) (h : memForm s) : memForm (inRead s m key va len again) := by
  have hread := (memForm_readAccess s m.qp key va len).2 h
  unfold inRead
  split
  · simp [h]
  · split
    all_goals
      next hacc =>
        rw [hacc] at hread
        simp [hread]

@[simp] theorem formOut_execRxRdmaReadRequest (m : Pkt) (rkey va len : Nat) {s : State} (h : memForm s) :
    FormOut (execRxRdmaReadRequest m rkey va len s) :=
  formOut_received h fun _ ht => memForm_atPsn ht (fun _ hu => by simp [hu]) fun _ hu => by split <;> simp [hu]

-- The network at the sender (Machine/NetAck)

@[simp] theorem memForm_ackCompletion (s : State) (st seq : Nat) (b : List Byte) : memForm (ackCompletion s st seq b) ↔ memForm s := by
  unfold ackCompletion
  split <;> simp

@[simp] theorem memForm_ackWrite {s : State} (c no : Nat) (h : memForm s) : memForm (ackWrite s c no) := by
  unfold ackWrite
  split <;> simp [h]

@[simp] theorem memForm_ackSeal (s : State) (q st seq landing : Nat) : memForm (ackSeal s q st seq landing) ↔ memForm s := by
  simp only [ackSeal]
  (repeat' split) <;> simp

@[simp] theorem memForm_ackMsg {s : State} (q : Nat) (m : Msg) (h : memForm s) : memForm (ackMsg s q m) := by
  unfold ackMsg
  split <;> simp [h]

@[simp] theorem memForm_retireMsgs {s : State} (q : Nat) (ms : List Msg) (h : memForm s) : memForm (retireMsgs s q ms) := by
  simp only [retireMsgs]
  split
  · exact h
  · exact memForm_foldl (fun _ _ ht => memForm_ackMsg _ _ ht) _ (by simp [h])

@[simp] theorem formOut_execRxAck (m : Pkt) {s : State} (h : memForm s) : FormOut (execRxAck m s) :=
  formOut_received h fun t ht => by split <;> simp [ht]

@[simp] theorem memForm_versionRead (s : State) (c id second : Nat) (v : W64) : memForm (versionRead s c id second v) ↔ memForm s := by
  unfold versionRead
  (repeat' split) <;> simp

@[simp] theorem memForm_deliverRead {s : State} (c id row off : Nat) (d : List Byte) (h : memForm s) : memForm (deliverRead s c id row off d) := by
  unfold deliverRead
  split
  · exact h
  · split
    · simp [h]
    · dsimp only
      split <;> simp [memForm_of_writeMem ‹_› h]

@[simp] theorem memForm_takeAnswer {s : State} (q : Nat) (f : Msg) (d : List Byte) (h : memForm s) : memForm (takeAnswer s q f d) := by
  unfold takeAnswer
  split <;> simp [h]

@[simp] theorem formOut_execRxReadResponse (m : Pkt) (data : List Byte) {s : State} (h : memForm s) : FormOut (execRxReadResponse m data s) := by
  simp only [execRxReadResponse]
  exact formOut_received h fun t ht => by (repeat' split) <;> simp [ht]

@[simp] theorem formOut_execRxNak (m : Pkt) (kind : Nat) {s : State} (h : memForm s) : FormOut (execRxNak m kind s) := by
  simp only [execRxNak]
  exact formOut_received h fun t ht => by (repeat' split) <;> simp [ht]

@[simp] theorem memForm_ackTimedOut {s : State} (q : Nat) (h : memForm s) : memForm (ackTimedOut s q) := by simp [h, ackTimedOut]

@[simp] theorem formOut_execAckTimeout (q : Nat) {s : State} (h : memForm s) : FormOut (execAckTimeout q s) := by simp [h, execAckTimeout]

@[simp] theorem formOut_execRxCnp (m : Pkt) {s : State} (h : memForm s) : FormOut (execRxCnp m s) :=
  formOut_received h fun t ht => by simp [ht]

@[simp] theorem formOut_execAlphaTimer (q : Nat) {s : State} (h : memForm s) : FormOut (execAlphaTimer q s) := by simp [h, execAlphaTimer]

@[simp] theorem formOut_execRateTimer (q : Nat) {s : State} (h : memForm s) : FormOut (execRateTimer q s) := by simp [h, execRateTimer]

@[simp] theorem formOut_execRateBytesSent (q : Nat) {s : State} (h : memForm s) : FormOut (execRateBytesSent q s) := by simp [h, execRateBytesSent]

@[simp] theorem formOut_execRxPfcPause (p prio : Nat) {s : State} (h : memForm s) : FormOut (execRxPfcPause p prio s) := by simp [h, execRxPfcPause]

@[simp] theorem formOut_execPfcPauseExpiry (p : Nat) {s : State} (h : memForm s) : FormOut (execPfcPauseExpiry p s) := by simp [h, execPfcPauseExpiry]

-- The messages of a step (Machine/Votes)

@[simp] theorem formOut_execStepCloseTimer (run : Nat) {s : State} (h : memForm s) : FormOut (execStepCloseTimer run s) := by
  unfold execStepCloseTimer
  (repeat' split) <;> simp [h]

@[simp] theorem memForm_dropMsg (s : State) (k : Nat) : memForm (dropMsg s k) ↔ memForm s := by simp [dropMsg]

theorem formOut_onMsg {s : State} {k type : Nat} {early : State → Run → List Byte → State} {f : State → Run → StepSt → InMsg → State}
    (h : memForm s) (he : ∀ t r b, memForm t → memForm (early t r b)) (hf : ∀ t r x m, memForm t → memForm (f t r x m)) :
    FormOut (onMsg s k type early f) := by
  simp only [onMsg]
  (repeat' split) <;> simp [h, he, hf]

@[simp] theorem memForm_sendVerdict (s : State) (r : Run) (x : StepSt) : memForm (sendVerdict s r x) ↔ memForm s := by simp [sendVerdict]

@[simp] theorem memForm_holdReport (s : State) (r : Run) (x : StepSt) (m : InMsg) : memForm (holdReport s r x m) ↔ memForm s := by simp [holdReport]

@[simp] theorem formOut_execReport (k : Nat) {s : State} (h : memForm s) : FormOut (execReport k s) :=
  formOut_onMsg h (fun _ _ _ ht => ht) fun _ _ _ _ ht => by simp [ht]

@[simp] theorem memForm_sendSigns (s : State) (r : Run) (x : StepSt) (d : Nat) : memForm (sendSigns s r x d) ↔ memForm s := by simp [sendSigns]

@[simp] theorem memForm_countSkip (s : State) (v : Nat) : memForm (countSkip s v) ↔ memForm s := by simp [countSkip]

@[simp] theorem memForm_holdVerdict (s : State) (r : Run) (x : StepSt) (m : InMsg) :
    memForm (holdVerdict s r x m) ↔ memForm s := by simp [holdVerdict]

@[simp] theorem memForm_earlyVerdict (k : Nat) (s : State) (r : Run) (h : List Byte) : memForm (earlyVerdict k s r h) ↔ memForm s := by
  simp only [earlyVerdict]
  (repeat' split) <;> simp

@[simp] theorem formOut_execVerdict (k : Nat) {s : State} (h : memForm s) : FormOut (execVerdict k s) :=
  formOut_onMsg h (fun _ _ _ ht => by simp [ht]) fun _ _ _ _ ht => by simp [ht]

@[simp] theorem memForm_writeSigns {s : State} (r : Run) (x : StepSt) (owner : Nat) (codes : List Byte) (h : memForm s) :
    memForm (writeSigns s r x owner codes) :=
  memForm_foldl (fun _ _ ht => memForm_ownWrite _ _ ht) _ h

@[simp] theorem memForm_recordNotices (s : State) (m : InMsg) : memForm (recordNotices s m) ↔ memForm s := by simp [recordNotices]

@[simp] theorem memForm_holdSigns {s : State} (r : Run) (x : StepSt) (m : InMsg) (h : memForm s) :
    memForm (holdSigns s r x m) := by simp [h, holdSigns]

@[simp] theorem formOut_execSigns (k : Nat) {s : State} (h : memForm s) : FormOut (execSigns k s) :=
  formOut_onMsg h (fun _ _ _ ht => ht) fun _ _ _ _ ht => by simp [ht]

@[simp] theorem memForm_partyDetail (s : State) (x : StepSt) (d : Nat) : memForm (partyDetail s x d).2 ↔ memForm s := by
  unfold partyDetail
  split <;> simp

@[simp] theorem formOut_execVerdictTimeout (st : Nat) {s : State} (h : memForm s) : FormOut (execVerdictTimeout st s) := by
  unfold execVerdictTimeout
  (repeat' split) <;> simp [h]

-- The memory controllers (Machine/MemCtl)

@[simp] theorem memForm_foundUncorr {s : State} (k a errBit : Nat) (h : memForm s) : memForm (foundUncorr s k a errBit) := by
  simp only [foundUncorr]
  (repeat' split) <;> simp [h]

@[simp] theorem memForm_corrected (s : State) (k : Nat) : memForm (corrected s k) ↔ memForm s := Iff.rfl

@[simp] theorem memForm_meetEcc {s : State} (k a ecc : Nat) (h : memForm s) : memForm (meetEcc s k a ecc) := by
  unfold meetEcc
  (repeat' split) <;> simp [h]

@[simp] theorem memForm_streamAccessFail (s : State) (st : Nat) (r : Access) (a : Nat) : memForm (streamAccessFail s st r a) ↔ memForm s := by
  simp only [streamAccessFail]
  (repeat' split) <;> simp

@[simp] theorem formOut_execCtrlAccess (write : Bool) (a : Nat) (data : List Byte) (ecc st : Nat) {s : State} (h : memForm s) :
    FormOut (execCtrlAccess write a data ecc st s) := by
  simp only [execCtrlAccess, formOut_onUnit]
  split
  · split
    · exact h
    · split
      · split <;> simp [h]
      · next k _ =>
        generalize hmet : (if meetsEcc (readyCtl s k) write a data.length = true then _ else _) = u
        have hu : memForm u := by
          rw [← hmet]
          split <;> simp [h]
        have hacc : memForm (if write then writeMem u a data else ((readMem u a data.length).1, u)).2 := by
          split
          · exact memForm_writeMem a data hu
          · exact hu
        split <;> simp_all
  · exact h

@[simp] theorem memForm_maybeSteal (s : State) (k : Nat) : memForm (maybeSteal s k) ↔ memForm s := Iff.rfl

@[simp] theorem formOut_execRefresh (k : Nat) {s : State} (h : memForm s) : FormOut (execRefresh k s) := by simp [h, execRefresh]

@[simp] theorem formOut_execScrub (k a ecc : Nat) {s : State} (h : memForm s) : FormOut (execScrub k a ecc s) := by
  unfold execScrub
  (repeat' split) <;> simp [h]

@[simp] theorem formOut_execLpcFill (k : Nat) {s : State} (h : memForm s) : FormOut (execLpcFill k s) := by simp [h, execLpcFill]

@[simp] theorem formOut_execTelemetryRead (k temp : Nat) {s : State} (h : memForm s) :
    FormOut (execTelemetryRead k temp s) := by simp [h, execTelemetryRead]

@[simp] theorem formOut_execSelfRefreshEnter (k : Nat) {s : State} (h : memForm s) :
    FormOut (execSelfRefreshEnter k s) := by simp [h, execSelfRefreshEnter]

@[simp] theorem formOut_execSelfRefreshExit (k : Nat) {s : State} (h : memForm s) :
    FormOut (execSelfRefreshExit k s) := by simp [h, execSelfRefreshExit]

-- Calibration (Machine/Cal)

@[simp] theorem memForm_worstMargin (s : State) (k : Nat) : memForm (worstMargin s k).2 ↔ memForm s := by
  unfold worstMargin
  split <;> simp

@[simp] theorem memForm_reportMargin (s : State) (k : Nat) : memForm (reportMargin s k) ↔ memForm s := by simp [reportMargin]

@[simp] theorem memForm_countStep (s : State) (i : Nat) : memForm (countStep s i) ↔ memForm s := Iff.rfl

@[simp] theorem memForm_moveGroup (s : State) (k g : Nat) (write : Bool) (margin : Nat) (tap : Int) :
    memForm (moveGroup s k g write margin tap) ↔ memForm s := by
  simp [moveGroup]

@[simp] theorem memForm_judgeGroup {s : State} (k g : Nat) (h : memForm s) : memForm (judgeGroup s k g) := by
  simp only [judgeGroup]
  (repeat' split) <;> simp [h]

@[simp] theorem memForm_calStep {s : State} (k g : Nat) (write : Bool) (margin centre ecc : Nat) (h : memForm s) :
    memForm (calStep s k g write margin centre ecc) := by
  simp only [calStep]
  (repeat' split) <;> simp [h]

@[simp] theorem formOut_execCalStep (k y margin centre ecc : Nat) {s : State} (h : memForm s) : FormOut (execCalStep k y margin centre ecc s) := by
  simp [h, execCalStep]

@[simp] theorem formOut_execSerdesProbe (l margin : Nat) {s : State} (h : memForm s) :
    FormOut (execSerdesProbe l margin s) := by simp [h, execSerdesProbe]

@[simp] theorem formOut_execCalSnapshot {s : State} (h : memForm s) : FormOut (execCalSnapshot s) := by simp [h, execCalSnapshot]

-- Observability (Machine/Obs)

@[simp] theorem memForm_putRecord {s : State} (d kind count part kc : Nat) (rest : List Byte) (h : memForm s) :
    memForm (putRecord s d kind count part kc rest) := by
  simp [putRecord, h, memForm_ownWrite]

@[simp] theorem memForm_addRecord {s : State} (d kind count part kc : Nat) (rest : List Byte) (h : memForm s) :
    memForm (addRecord s d kind count part kc rest) := by
  simp [h, addRecord]

@[simp] theorem memForm_dropSample (s : State) (d : Nat) : memForm (dropSample s d) ↔ memForm s := Iff.rfl

@[simp] theorem memForm_stagedNow (s : State) (d : Nat) : memForm (stagedNow s d).2 ↔ memForm s := by simp [stagedNow]

@[simp] theorem memForm_stageRecords {s : State} (d : Nat) (recs : List (Nat × Nat × Nat × List Byte)) (h : memForm s) :
    memForm (stageRecords s d recs) := by
  simp only [stageRecords]
  split
  · simp [h]
  · exact memForm_foldl (fun _ _ ht => memForm_addRecord _ _ _ _ _ _ ht) _ (by simp [h])

@[simp] theorem memForm_sample {s : State} (d : Nat) (h : memForm s) : memForm (sample s d) := by simp [h, sample]

@[simp] theorem formOut_execObsSample (d : Nat) {s : State} (h : memForm s) : FormOut (execObsSample d s) := by simp [h, execObsSample]

-- The power manager and SMBus (Machine/Power)

@[simp] theorem formOut_execCoreNap (c : Nat) {s : State} (h : memForm s) : FormOut (execCoreNap c s) := by simp [h, execCoreNap]

@[simp] theorem formOut_execNapEntryDone (c : Nat) {s : State} (h : memForm s) : FormOut (execNapEntryDone c s) := by simp [h, execNapEntryDone]

@[simp] theorem formOut_execCoreWake (c : Nat) {s : State} (h : memForm s) : FormOut (execCoreWake c s) := by
  simp [execCoreWake, h, memForm_clearSram]

@[simp] theorem memForm_modPwr (s : State) (f : Pwr → Pwr) : memForm (modPwr s f) ↔ memForm s := Iff.rfl

@[simp] theorem memForm_raiseDie (s : State) (d : Nat) : memForm (raiseDie s d) ↔ memForm s := by
  unfold raiseDie
  split <;> simp

@[simp] theorem memForm_lowerDie (s : State) (d : Nat) : memForm (lowerDie s d) ↔ memForm s := by
  unfold lowerDie
  split <;> simp

@[simp] theorem memForm_setUnmet (s : State) (on : Bool) : memForm (setUnmet s on) ↔ memForm s := by simp [setUnmet]

@[simp] theorem memForm_capLevels (s : State) (watts : Nat) : memForm (capLevels s watts) ↔ memForm s := by simp [capLevels]

@[simp] theorem memForm_supplyReading (s : State) (input bank : Nat) : memForm (supplyReading s input bank) ↔ memForm s := by
  simp [supplyReading]

@[simp] theorem memForm_addPower {s : State} (b : List Byte) (h : memForm s) : memForm (addPower s b) := by simp [h, addPower]

@[simp] theorem memForm_putTemps (s : State) (temps : List Nat) : memForm (putTemps s temps) ↔ memForm s := by simp [putTemps]

@[simp] theorem formOut_execPowerReading (watts : Nat) (temps : List Nat) (input bank : Nat) {s : State} (h : memForm s) :
    FormOut (execPowerReading watts temps input bank s) := by
  simp [h, execPowerReading]

@[simp] theorem formOut_execSetPtr (v : W32) {s : State} (h : memForm s) : FormOut (execSetPtr v s) := by simp [execSetPtr, h]

@[simp] theorem formOut_execSmbRead {s : State} (h : memForm s) : FormOut (execSmbRead s) := by
  simp only [execSmbRead, formOut_when]
  (repeat' split) <;> simp [h]

@[simp] theorem formOut_execClrAlert (v : W64) {s : State} (h : memForm s) : FormOut (execClrAlert v s) := by simp [h, execClrAlert]

@[simp] theorem formOut_execAlertResponse {s : State} (h : memForm s) : FormOut (execAlertResponse s) := by simp [execAlertResponse, h]

@[simp] theorem formOut_execSmbusClockLowTimeout {s : State} (h : memForm s) :
    FormOut (execSmbusClockLowTimeout s) := by simp [h, execSmbusClockLowTimeout]

-- Fences, tests and re-initialisation (R463 to R466)

@[simp] theorem memForm_fillPosition (s : State) (d l : Nat) : memForm (fillPosition s d l) ↔ memForm s := by
  unfold fillPosition
  split <;> simp

@[simp] theorem memForm_blockCore {s : State} (c : Nat) (h : memForm s) : memForm (blockCore s c) := by simp [blockCore, h]

@[simp] theorem memForm_fenceCore {s : State} (c cls : Nat) (h : memForm s) : memForm (fenceCore s c cls) := by
  simp only [fenceCore]
  (repeat' split) <;> simp [h]

@[simp] theorem memForm_tested (s : State) (c : Nat) (pass : Bool) : memForm (tested s c pass) ↔ memForm s := by
  simp only [tested]
  (repeat' split) <;> simp

@[simp] theorem memForm_reinitCore (s : State) (c : Nat) : memForm (reinitCore s c) ↔ memForm s := by simp [reinitCore, beginTest]

@[simp] theorem memForm_writeReinit (s : State) (kind index : Nat) : memForm (writeReinit s kind index) ↔ memForm s := by
  unfold writeReinit
  split <;> simp

theorem memForm_of_writeCsr {s t : State} {a : Nat} {v : W64} (h : writeCsr s a v = some t) : memForm t ↔ memForm s := by
  unfold writeCsr at h
  split at h <;> cases h <;> simp

-- What a peer writes (R14, R353)

@[simp] theorem memForm_plainWrite {s : State} (a left : Nat) (d : List Byte) (h : memForm s) : memForm (plainWrite s a left d).2 := by
  unfold plainWrite
  split
  · split
    · exact h
    · split
      · next ht => exact (memForm_of_writeCsr ht).2 h
      · exact h
  · simp [h]

@[simp] theorem memForm_writeAccess {s : State} (q key va left : Nat) (d : List Byte) (only : Bool) (h : memForm s) :
    memForm (writeAccess s q key va left d only).2 := by
  unfold writeAccess
  (repeat' split) <;> simp [h]

@[simp] theorem memForm_inWrite {s : State} (m : Pkt) (opcode rkey va : Nat) (data : List Byte) (h : memForm s) :
    memForm (inWrite s m opcode rkey va data) := by
  simp [inWrite, h]

-- The thaw and the boots (R451, R453, R466, R470, R477)

@[simp] theorem memForm_fenceBad (bad : List Nat) {s : State} (c : Nat) (h : memForm s) : memForm (fenceBad bad s c) := by
  simp [fenceBad, h]

@[simp] theorem memForm_thaw {s : State} (h : memForm s) : memForm (thaw s) := by
  simp only [thaw, memForm_endFreezeCmd, memForm_bump, memForm_modDrl, memForm_napAgain]
  exact memForm_foldl (fun _ _ ht => memForm_fenceBad _ _ ht) _ (by simp [h])

@[simp] theorem memForm_tryThaw {s : State} (h : memForm s) : memForm (tryThaw s) := by simp [tryThaw, h]

@[simp] theorem memForm_dropDie {s : State} (d : Nat) (h : memForm s) : memForm (dropDie s d) := by
  have hcores : memForm ((dieCores d).foldl (fun s c => setPcore (offCore s c) c { pcoreOf s c with state := .retired, lcore := 255 }) s) :=
    memForm_foldl (fun _ _ ht => by simp [ht]) _ h
  simp only [dropDie]
  rw [memForm_foldl_iff fun _ _ => by split <;> simp]
  simp [hcores]

@[simp] theorem memForm_testCores (s : State) (bad : List Nat) : memForm (testCores s bad) ↔ memForm s := by
  unfold testCores
  generalize List.range 208 = l
  simp

theorem memForm_dropDies {s : State} (l : List Nat) (h : memForm s) : memForm (l.foldl dropDie s) :=
  memForm_foldl (fun _ _ ht => memForm_dropDie _ ht) _ h

theorem memForm_failMems {s : State} (l : List Nat) (h : memForm s) : memForm (l.foldl failMem s) :=
  memForm_foldl (fun _ _ ht => memForm_failMem _ ht) _ h

@[simp] theorem memForm_coldStart {s : State} (f : BootFacts) (h : memForm s) : memForm (coldStart s f) := by
  have hkept := memForm_keptInFlash h
  unfold coldStart
  extract_lets cause warmN freezeN s1 s2
  have h2 : memForm s2 := by simp [s2, s1, hkept]
  split
  · simp [h2]
  · extract_lets s3 s4 s5 s6 s7 net s8 s9 s10 s11
    have h3 : memForm s3 := by simp [s3, h2]
    have h5 : memForm s5 := memForm_dropDies _ (by simp [s4, h3])
    have h7 : memForm s7 := (memForm_testCores _ _).2 (memForm_failMems _ ((memForm_modIntake _ _).2 h5))
    clear_value s7
    have h8 : memForm s8 := h7
    have h11 : memForm s11 := by simp only [s11, s10, s9, memForm_restLeaves, memForm_readJournal, memForm_placeCopies, h8]
    (repeat' split) <;> simp [h3, h8, h11]

@[simp] theorem memForm_warmReady {s : State} (h : memForm s) : memForm (warmReady s) := by
  unfold warmReady
  split
  · simp [h]
  · extract_lets s1 s2 accepted s3 reason s4 dies s5 fab s6 s7 w s8
    have h2 : memForm s2 := by simp only [s2, s1]; split <;> simp [h]
    have h3 : memForm s3 := memForm_foldl (fun _ _ ht => memForm_retakeWarm _ ht) _ h2
    have h4 : memForm s4 := memForm_foldl (fun _ _ ht => by simp [ht]) _ h3
    have h5 : memForm s5 := memForm_dropDies _ h4
    have h6 : memForm s6 := by simp only [s6]; split <;> simp [h5]
    simp [s8, s7, memForm_rewriteEnded, h6]

-- The commands of fences, freezes and boots

@[simp] theorem formOut_execColdStart (f : BootFacts) {s : State} (h : memForm s) : FormOut (execColdStart f s) := by
  simp [execColdStart, h]

-- Commands that change the map

@[simp] theorem formOut_execCoreArrayFault (c array : Nat) {s : State} (h : memForm s) : FormOut (execCoreArrayFault c array s) := by
  simp only [execCoreArrayFault, formOut_event]
  (repeat' split) <;> simp [h]

@[simp] theorem formOut_execCoreClearTimeout (c : Nat) {s : State} (h : memForm s) : FormOut (execCoreClearTimeout c s) := by
  simp [execCoreClearTimeout, h]

@[simp] theorem formOut_execCoreTestDone (c : Nat) (pass : Bool) {s : State} (h : memForm s) : FormOut (execCoreTestDone c pass s) := by
  simp [execCoreTestDone, h]

@[simp] theorem formOut_execReinitCore (c : Nat) {s : State} (h : memForm s) : FormOut (execReinitCore c s) := by
  simp [execReinitCore, h]

@[simp] theorem formOut_execReinitPort (c : Nat) {s : State} (h : memForm s) : FormOut (execReinitPort c s) := by
  simp [execReinitPort, h]

@[simp] theorem formOut_execReinitUpu (c : Nat) {s : State} (h : memForm s) : FormOut (execReinitUpu c s) := by
  simp [execReinitUpu, h]

@[simp] theorem formOut_execReinitHbc (c : Nat) {s : State} (h : memForm s) : FormOut (execReinitHbc c s) := by
  simp [execReinitHbc, h]

@[simp] theorem formOut_execReinitLpc (c : Nat) {s : State} (h : memForm s) : FormOut (execReinitLpc c s) := by
  simp [execReinitLpc, h]

@[simp] theorem formOut_execFreezePinRelease {s : State} (h : memForm s) : FormOut (execFreezePinRelease s) := by
  simp [execFreezePinRelease, h]

@[simp] theorem formOut_execFreezeHoldExpiry {s : State} (h : memForm s) : FormOut (execFreezeHoldExpiry s) := by
  simp [execFreezeHoldExpiry, h]

@[simp] theorem formOut_execReadoutEnd (bad : List Nat) {s : State} (h : memForm s) : FormOut (execReadoutEnd bad s) := by
  simp only [execReadoutEnd, formOut_onUnit]
  (repeat' split) <;> simp [h]

@[simp] theorem formOut_execKeeperRailFall {s : State} (h : memForm s) : FormOut (execKeeperRailFall s) := by
  simp [execKeeperRailFall, h, memForm_keptInFlash]

@[simp] theorem formOut_execWarmResetRelease {s : State} (h : memForm s) : FormOut (execWarmResetRelease s) := by
  unfold execWarmResetRelease
  split <;> simp [h, memForm_warmLogic]

@[simp] theorem formOut_execWarmReady {s : State} (h : memForm s) : FormOut (execWarmReady s) := by simp [execWarmReady, h]

@[simp] theorem formOut_execCsrWrite (a : Nat) (v : W64) {s : State} (h : memForm s) : FormOut (execCsrWrite a v s) := by
  simp only [execCsrWrite, formOut_when]
  (repeat' split)
  · next ht => exact (memForm_of_writeCsr ht).2 h
  · exact h
  · exact h

@[simp] theorem formOut_inControl (m : Pkt) (kind rkey : Nat) (b : List Byte) {s : State} (h : memForm s) : FormOut (inControl m kind rkey b s) := by
  unfold inControl
  split
  · exact h
  · exact formOut_received h fun _ ht => memForm_atPsn ht (fun _ hu => by simp [hu]) fun _ hu => by simp [hu]

@[simp] theorem formOut_execRxRdmaWrite (m : Pkt) (opcode rkey va : Nat) (data : List Byte) {s : State} (h : memForm s) :
    FormOut (execRxRdmaWrite m opcode rkey va data s) :=
  formOut_received h fun _ ht => memForm_atPsn ht (fun _ hu => by simp [hu]) fun _ hu => by simp [hu]

@[simp] theorem formOut_execRxControlOpen (m : Pkt) (rkey : Nat) (b : List Byte) {s : State} (h : memForm s) :
    FormOut (execRxControlOpen m rkey b s) :=
  formOut_inControl m 1 rkey b h

@[simp] theorem formOut_execRxControlSeal (m : Pkt) (rkey : Nat) (b : List Byte) {s : State} (h : memForm s) :
    FormOut (execRxControlSeal m rkey b s) :=
  formOut_inControl m 2 rkey b h

@[simp] theorem formOut_execRxControlAbort (m : Pkt) (rkey : Nat) (b : List Byte) {s : State} (h : memForm s) :
    FormOut (execRxControlAbort m rkey b s) :=
  formOut_inControl m 3 rkey b h

-- Every command

/-- Every command keeps the form: `exec` hands it to its own function, whose lemma stands above. -/
theorem formOut_exec (i : Instr) {s : State} (h : memForm s) : FormOut (exec i s) := by
  cases i
  all_goals
    rw [exec]
    simp [h]

/-- Settles O2: the command at the front of the queue keeps the form, and the queue is no part of it. -/
theorem stepKeepsMemoryForm : Obligations.StepKeepsMemoryForm := by
  unfold Obligations.StepKeepsMemoryForm
  intro s t h hstep
  unfold step at hstep
  split at hstep
  · cases hstep
    exact h
  · next i rest _ =>
    have hout : FormOut (exec i { s with pending := rest }) := formOut_exec i h
    rwa [hstep] at hout

end Sys2Proof.Machine

/-!
PROOFS. The reset state (O5); memory controllers: what an access finds, does and leaves, and their background work (O40); the operations
of POOL and MANIFEST at their turn (O45); trap reports, deadlines, clearing, completions, rooms and recorded cuts of takes (O49).
-/

namespace Sys2Proof.Machine

open Sys2Proof

-- The reset state

/-- A reset state lists no core, so none is past a limit. -/
theorem coreForm_reset : coreForm State.reset := by
  simp [coreForm, State.reset]

/-- A reset state lists no byte of a memory. -/
theorem memForm_reset : memForm State.reset := by
  simp [memForm, memWf, tabWf, State.reset]

/-- Settles O5: the reset state lists no core and no byte, and Derler's map is the manufactured one; an unlisted byte reads as its
memory's default. -/
theorem resetInvariants : Obligations.ResetInvariants :=
  ⟨coreForm_reset, coreMap_reset, memForm_reset, fun _ => ⟨rfl, rfl, rfl⟩⟩

-- The state of a memory (R177, R426, R427)

/-- A region that is filled first leaves the state of its memory. -/
theorem state_fillRegion (s : State) (a k : Nat) : (ctl (fillRegion s a) k).state = (ctl s k).state := by
  unfold fillRegion
  split
  · split
    · rw [ctl_setCtl]
      split
      · next h => rw [h]
      · rfl
    · rfl
  · rfl

theorem state_fillFirst (s : State) (a n k : Nat) : (ctl (fillFirst s a n) k).state = (ctl s k).state :=
  List.foldlRecOn (regionsOf a n) _ (motive := fun t => (ctl t k).state = (ctl s k).state) rfl
    fun t ht r _ => (state_fillRegion t (r * 0x10000) k).trans ht

@[simp] theorem ctl_devPut (s : State) (a : Nat) (b : Byte) (k : Nat) : ctl (devPut s a b) k = ctl s k := by
  unfold devPut
  split <;> rfl

@[simp] theorem ctl_devWrites (d : List Byte) (s : State) (a k : Nat) : ctl (devWrites s a d) k = ctl s k := by
  induction d generalizing s a with
  | nil => rfl
  | cons b t ih => rw [devWrites, ih, ctl_devPut]

@[simp] theorem ctl_takeBack (s : State) (g : Nat × Guard) (k : Nat) : ctl (takeBack s g) k = ctl s k := by
  unfold takeBack
  dsimp only
  split_ifs <;> rfl

@[simp] theorem ctl_notifyStale (s : State) (a n k : Nat) : ctl (notifyStale s a n) k = ctl s k := by
  unfold notifyStale
  split
  · rfl
  · exact List.foldlRecOn (staleHits s a n) takeBack (motive := fun t => ctl t k = ctl s k) rfl
      fun t ht g _ => (ctl_takeBack t g k).trans ht

/-- A write leaves the state of every memory. -/
theorem state_ownWrite (s : State) (a : Nat) (d : List Byte) (k : Nat) : (ctl (ownWrite s a d) k).state = (ctl s k).state := by
  rw [ownWrite, ctl_notifyStale, ctl_devWrites, ctl_clearPoison, state_fillFirst]

/-- A memory that is ready for an access is in use of the device, not in self-refresh. -/
theorem readyCtl_awake (s : State) (k : Nat) : (ctl (readyCtl s k) k).state ≠ .selfRefresh := by
  unfold readyCtl
  split
  · simp
  · assumption

theorem sameBytes_readyCtl (s : State) (k : Nat) : sameBytes s (readyCtl s k) := by
  unfold readyCtl
  split
  · exact fun a => devByte_congr (by simp) (by simp) (by simp) a
  · exact fun _ => rfl

/-- The exit from self-refresh. -/
theorem readyCtl_of_selfRefresh {s : State} {k : Nat} (h : (ctl s k).state = .selfRefresh) :
    readyCtl s k = setCtl s k { ctl s k with state := .ready, exiting := false } := if_pos h

-- A memory that has failed stays failed (R177)

theorem failed_readyCtl {s : State} {k : Nat} (h : (ctl s k).state = .failed) (j : Nat) : (ctl (readyCtl s j) k).state = .failed := by
  unfold readyCtl
  split
  · next hj =>
    have hne : k ≠ j := by rintro rfl; simp [h] at hj
    simp [hne, h]
  · exact h

/-- A memory as it goes to sleep: in self-refresh where it was Ready. -/
def MemCtl.asleep (m : MemCtl) : MemCtl := if m.state = .ready then { m with state := .selfRefresh } else m

theorem ctl_sleepMemories (s : State) (k : Nat) : ctl (sleepMemories s) k = (ctl s k).asleep := by
  rw [ctl, ctl, ← tget_map {} MemCtl.asleep rfl]
  rfl

theorem failed_sleepMemories {s : State} {k : Nat} (h : (ctl s k).state = .failed) : (ctl (sleepMemories s) k).state = .failed := by
  simp [ctl_sleepMemories, MemCtl.asleep, h]

theorem failed_wakeArea {s : State} {k : Nat} (h : (ctl s k).state = .failed) : (ctl (wakeArea s) k).state = .failed :=
  List.foldlRecOn (areaCtls s) readyCtl (motive := fun t => (ctl t k).state = .failed) h fun _ ht j _ => failed_readyCtl ht j

@[simp] theorem ctl_wakeNapped (s : State) (k : Nat) : ctl (wakeNapped s) k = ctl s k :=
  List.foldlRecOn _ _ (motive := fun t => ctl t k = ctl s k) rfl fun _ ht _ _ => ht

theorem state_openHeader (s : State) (status k : Nat) : (ctl (openHeader s status) k).state = (ctl s k).state := by
  simp only [openHeader, putHeader]
  split
  · rw [state_ownWrite]
    rfl
  · rfl

theorem failed_haltDevice {s : State} {k : Nat} (h : (ctl s k).state = .failed) : (ctl (haltDevice s) k).state = .failed := by
  refine (state_openHeader _ 0 k).trans ?_
  rw [ctl_wakeNapped]
  exact failed_wakeArea (failed_sleepMemories h)

theorem failed_logbookLost {s : State} {k : Nat} (h : (ctl s k).state = .failed) : (ctl (logbookLost s) k).state = .failed :=
  failed_haltDevice h

theorem failed_loseCopy {s : State} {k : Nat} (h : (ctl s k).state = .failed) (p : Nat) : (ctl (loseCopy s p) k).state = .failed := by
  simp only [loseCopy]
  split
  · exact h
  · split
    · split
      · exact failed_logbookLost h
      · split <;> exact h
    · split
      · split
        · exact failed_logbookLost h
        · split <;> exact h
      · exact h

/-- A memory that fails has failed. -/
theorem failed_failMem (s : State) (k : Nat) : (ctl (failMem s k) k).state = .failed := by
  unfold failMem
  split
  · assumption
  · have hdrop (t : State) : (ctl (dropMem t k) k).state = .failed :=
      congrArg MemCtl.state ((ctl_setCtl t k k { ctl t k with state := .failed, filling := false }).trans (if_pos rfl))
    dsimp only
    split
    · exact hdrop _
    · exact failed_loseCopy (hdrop _) _

-- What an access meets in its word (R175, R176)

@[simp] theorem meetEcc_zero (s : State) (k a : Nat) : meetEcc s k a 0 = s := rfl

@[simp] theorem meetEcc_one (s : State) (k a : Nat) : meetEcc s k a 1 = bump s (memBase k + 0x18) 1 := rfl

/-- An uncorrectable word poisoned, counted, and noted against its pseudo-channel. -/
def uncorrNoted (s : State) (k a errBit : Nat) : State :=
  let w := a / 32 * 32
  let t := corr (bump { s with poison := if w ∈ s.poison then s.poison else w :: s.poison } (memBase k + 0x20) 1) (memBase k + 0x10)
    (BitVec.ofNat 64 errBit)
  setCtl t k { ctl t k with uncorr := (pseudoChannel a, s.kc) :: (ctl s k).uncorr.filter fun e => s.kc ≤ e.2 + secondKc }

/-- A word found uncorrectable is noted, and may be the one too many that fails its memory. -/
theorem foundUncorr_eq_or (s : State) (k a errBit : Nat) :
    foundUncorr s k a errBit = failMem (uncorrNoted s k a errBit) k ∨ foundUncorr s k a errBit = uncorrNoted s k a errBit :=
  ite_eq_or_eq ..

theorem sameBytes_uncorrNoted (s : State) (k a errBit : Nat) : sameBytes s (uncorrNoted s k a errBit) :=
  fun b => devByte_congr (by simp [uncorrNoted]) (by simp [uncorrNoted]) (by simp [uncorrNoted]) b

theorem state_uncorrNoted (s : State) (k a errBit : Nat) : (ctl (uncorrNoted s k a errBit) k).state = (ctl s k).state := by
  rw [uncorrNoted, ctl_setCtl, if_pos rfl]
  rfl

theorem mem_poison_uncorrNoted (s : State) (k a errBit : Nat) : a / 32 * 32 ∈ (uncorrNoted s k a errBit).poison := by
  show a / 32 * 32 ∈ if a / 32 * 32 ∈ s.poison then s.poison else a / 32 * 32 :: s.poison
  split
  · assumption
  · exact List.mem_cons_self

/-- A word's ECC leaves the bytes and the memory's state, or the memory has failed. -/
theorem meetEcc_cases (s : State) (k a ecc : Nat) :
    (sameBytes s (meetEcc s k a ecc) ∧ (ctl (meetEcc s k a ecc) k).state = (ctl s k).state) ∨ (ctl (meetEcc s k a ecc) k).state = .failed := by
  unfold meetEcc
  split
  · exact .inl ⟨fun b => devByte_congr (by simp [corrected]) (by simp [corrected]) (by simp [corrected]) b, by simp [corrected]⟩
  · split
    · exact .inl ⟨fun _ => rfl, rfl⟩
    · obtain h | h := foundUncorr_eq_or s k a 1
      · exact .inr (h ▸ failed_failMem _ k)
      · exact .inl (h ▸ ⟨sameBytes_uncorrNoted s k a 1, state_uncorrNoted s k a 1⟩)
  · exact .inl ⟨fun _ => rfl, rfl⟩

/-- An uncorrectable word is poisoned, unless its memory fails. -/
theorem meetEcc_two (s : State) (k a : Nat) : a / 32 * 32 ∈ (meetEcc s k a 2).poison ∨ (ctl (meetEcc s k a 2) k).state = .failed := by
  simp only [meetEcc]
  split
  · next h => exact .inl h
  · obtain h | h := foundUncorr_eq_or s k a 1
    · exact .inr (h ▸ failed_failMem _ k)
    · exact .inl (h ▸ mem_poison_uncorrNoted s k a 1)

-- An access of a command (R169, R173, R177, R188)

/-- A write that passes its test finds its memory in use. -/
theorem not_failed_of_writeTest {s : State} {a n k : Nat} (hk : ctlOf a = some k) (h : writeTest s a n = .done) :
    (ctl s k).state ≠ .failed := by
  intro hfailed
  have hin : inFailed s a n = true := by simp [inFailed, hk, hfailed]
  unfold writeTest at h
  unfold ctlOf at hk
  split at h
  · nomatch h
  · split at h <;> simp_all

/-- The state that an access finds: its word's ECC met, where it reads the word (R175). -/
def eccMet (s : State) (write : Bool) (a n k ecc : Nat) : State := if meetsEcc s write a n then meetEcc s k a ecc else s

theorem eccMet_whole (s : State) {a n : Nat} (h : wholeWords a n = true) (k ecc : Nat) : eccMet s true a n k ecc = s := by
  simp [eccMet, meetsEcc, h]

theorem eccMet_refused_read {s : State} {a n : Nat} (h : readTest s a n ≠ .done) (k ecc : Nat) : eccMet s false a n k ecc = s := by
  simp [eccMet, meetsEcc, h]

theorem eccMet_refused_write {s : State} {a n : Nat} (h : writeTest s a n ≠ .done) (k ecc : Nat) : eccMet s true a n k ecc = s := by
  simp [eccMet, meetsEcc, h]

theorem eccMet_read {s : State} {a n : Nat} (h : readTest s a n = .done) (k ecc : Nat) :
    eccMet s false a n k ecc = if unfilled s a then s else meetEcc s k a ecc := by
  cases hu : unfilled s a <;> simp [eccMet, meetsEcc, h, hu]

theorem eccMet_part {s : State} {a n : Nat} (h : writeTest s a n = .done) (hpart : wholeWords a n = false) (k ecc : Nat) :
    eccMet s true a n k ecc = if unfilled s a then s else meetEcc s k a ecc := by
  cases hu : unfilled s a <;> simp [eccMet, meetsEcc, h, hpart, hu]

theorem eccMet_cases (s : State) (write : Bool) (a n k ecc : Nat) :
    (sameBytes s (eccMet s write a n k ecc) ∧ (ctl (eccMet s write a n k ecc) k).state = (ctl s k).state) ∨
      (ctl (eccMet s write a n k ecc) k).state = .failed := by
  unfold eccMet
  split
  · exact meetEcc_cases s k a ecc
  · exact .inl ⟨fun _ => rfl, rfl⟩

/-- What an access leaves: the state it came to, or the end of the command where it failed. -/
def accessEnds (st a : Nat) (p : Access × State) : State := if p.1 = .done then p.2 else streamAccessFail p.2 st p.1 a

theorem fst_readMem (s : State) (a n : Nat) : (readMem s a n).1 = readTest s a n := by
  unfold readMem
  split
  · next h => exact h.symm
  · rfl

theorem writeMem_of_done {s : State} {a : Nat} {d : List Byte} (h : writeTest s a d.length = .done) : writeMem s a d = (.done, ownWrite s a d) := by
  simp only [writeMem, h]

theorem writeMem_of_ne {s : State} {a : Nat} {d : List Byte} (h : writeTest s a d.length ≠ .done) :
    writeMem s a d = (writeTest s a d.length, s) := by
  unfold writeMem
  split
  · next hd => exact absurd hd h
  · rfl

section
variable {s : State} {a k ecc st : Nat} {data : List Byte} (hst : st < 256) (hrun : memRun s = true) (hdata : data ≠ [])
  (hgran : a / 64 = (a + data.length - 1) / 64)
include hst hrun hdata hgran

theorem ctrlAccess_unmapped (hk : ctlOf a = none) (hmap : rangeMapped s a data.length = false) (write : Bool) :
    exec (.ctrlAccess write a data ecc st) s = .next (streamAccessFail s st .unmapped a) := by
  show execCtrlAccess write a data ecc st s = _
  simp [execCtrlAccess, streamOk, hst, hrun, hdata, ← hgran, hk, hmap]

theorem ctrlAccess_eq (hk : ctlOf a = some k) {write : Bool} {t : State} (ht : eccMet (readyCtl s k) write a data.length k ecc = t) :
    exec (.ctrlAccess write a data ecc st) s =
      .next (accessEnds st a (if write then writeMem t a data else (readTest t a data.length, t))) := by
  subst ht
  show execCtrlAccess write a data ecc st s = _
  simp only [execCtrlAccess, streamOk, hst, decide_true, onUnit_true, hrun, not_true, List.length_eq_zero_iff, hdata, ← hgran, ne_eq,
    or_self, if_false, hk, eccMet, fst_readMem]
  generalize (if write = true then _ else _) = p
  obtain ⟨r, t⟩ := p
  cases r <;> rfl

/-- A write whose test passes once its word's ECC is met is performed, and its memory is then in use (R188, R427). -/
theorem ctrlWrite_puts (hk : ctlOf a = some k) (htest : writeTest (eccMet (readyCtl s k) true a data.length k ecc) a data.length = .done) :
    ∃ t, exec (.ctrlAccess true a data ecc st) s = .next t ∧ devReads t a data.length = data ∧ (ctl t k).state ≠ .selfRefresh ∧
      ∀ b, b < a ∨ a + data.length ≤ b → devByte t b = devByte s b := by
  have hwrite := writeMem_of_done htest
  obtain ⟨hbytes, hstate⟩ := (eccMet_cases (readyCtl s k) true a data.length k ecc).resolve_right (not_failed_of_writeTest hk htest)
  obtain ⟨hreads, hframe⟩ := writeMem_reads hwrite
  refine ⟨_, ?_, hreads, ?_, fun b hb => (hframe b hb).trans ((hbytes b).trans (sameBytes_readyCtl s k b))⟩
  · rw [ctrlAccess_eq hst hrun hdata hgran hk rfl, if_pos rfl, hwrite]
    rfl
  · rw [state_ownWrite, hstate]
    exact readyCtl_awake s k

/-- A read whose test passes once its word's ECC is met changes nothing else. -/
theorem ctrlRead_done (hk : ctlOf a = some k) (htest : readTest (eccMet (readyCtl s k) false a data.length k ecc) a data.length = .done) :
    exec (.ctrlAccess false a data ecc st) s = .next (eccMet (readyCtl s k) false a data.length k ecc) := by
  rw [ctrlAccess_eq hst hrun hdata hgran hk rfl]
  simp [accessEnds, htest]

/-- A read that its test refuses ends the command (R169, R177, R188). -/
theorem ctrlRead_refused (hk : ctlOf a = some k) (htest : readTest (readyCtl s k) a data.length ≠ .done) :
    exec (.ctrlAccess false a data ecc st) s =
      .next (streamAccessFail (readyCtl s k) st (readTest (readyCtl s k) a data.length) a) := by
  rw [ctrlAccess_eq hst hrun hdata hgran hk (eccMet_refused_read htest k ecc)]
  simp [accessEnds, htest]

/-- A write that its test refuses ends the command (R169, R177, R188). -/
theorem ctrlWrite_refused (hk : ctlOf a = some k) (htest : writeTest (readyCtl s k) a data.length ≠ .done) :
    exec (.ctrlAccess true a data ecc st) s =
      .next (streamAccessFail (readyCtl s k) st (writeTest (readyCtl s k) a data.length) a) := by
  rw [ctrlAccess_eq hst hrun hdata hgran hk (eccMet_refused_write htest k ecc), if_pos rfl, writeMem_of_ne htest]
  simp [accessEnds, htest]

end

-- Background work (R180, R198, R199, R426, R427)

@[simp] theorem ctl_maybeSteal (s : State) (k j : Nat) : ctl (maybeSteal s k) j = ctl s j := (rfl)

@[simp] theorem maybeSteal_poison (s : State) (k : Nat) : (maybeSteal s k).poison = s.poison := (rfl)

theorem sameBytes_maybeSteal (s : State) (k : Nat) : sameBytes s (maybeSteal s k) := fun b => devByte_congr rfl rfl rfl b

/-- A record put for a memory beside a steal that is left open leaves the bytes. -/
theorem sameBytes_setCtl_maybeSteal (s : State) (k : Nat) (m : MemCtl) : sameBytes s (maybeSteal (setCtl s k m) k) :=
  fun b => (sameBytes_maybeSteal (setCtl s k m) k b).trans (devByte_congr (by simp) (by simp) (by simp) b)

section
variable {s : State} {k : Nat} (hk : k < 80) (hback : backgroundOk s k = true)
include hk hback

theorem refresh_eq : exec (.refresh k) s = .next (maybeSteal (setCtl s k { ctl s k with refreshes := (ctl s k).refreshes + 1 }) k) := by
  show execRefresh k s = _
  simp only [execRefresh, ctlOk, hk, decide_true, hback, event_true]

theorem telemetryRead_eq (temp : Nat) : exec (.telemetryRead k temp) s = .next (maybeSteal (setCtl s k { ctl s k with temp := temp }) k) := by
  show execTelemetryRead k temp s = _
  simp only [execTelemetryRead, ctlOk, hk, decide_true, hback, event_true]

section
variable {a : Nat} (ha : ctlOf a = some k) (hon : (cget s (memBase k)).getLsbD 0 = true)
include ha hon

/-- A scrub that finds no uncorrectable word leaves the bytes and the poison. -/
theorem scrub_finds_none {ecc : Nat} (hecc : ecc ≠ 2) : ∃ t, exec (.scrub k a ecc) s = .next t ∧ sameBytes s t ∧ t.poison = s.poison := by
  refine ⟨if ecc = 1 then corrected (bump (maybeSteal s k) (memBase k + 0x28) 1) k else bump (maybeSteal s k) (memBase k + 0x28) 1, ?_, ?_⟩
  · show execScrub k a ecc s = _
    simp only [execScrub, ctlOk, hk, decide_true, hback, ha, hon, Bool.and_true, event_true]
    split
    · rfl
    · contradiction
    · next h _ => rw [if_neg h]
  · split <;> exact ⟨fun b => devByte_congr rfl rfl rfl b, rfl⟩

/-- A scrub finds an uncorrectable word anew, beside any access (R176, R199). -/
theorem scrub_finds_uncorr (hnew : a / 32 * 32 ∉ s.poison) :
    exec (.scrub k a 2) s = .next (foundUncorr (bump (maybeSteal s k) (memBase k + 0x28) 1) k a 2) := by
  show execScrub k a 2 s = _
  simp only [execScrub, ctlOk, hk, decide_true, hback, ha, hon, Bool.and_true, event_true, hnew, if_false]

end

/-- A memory that nothing needs enters self-refresh (R426). -/
theorem selfRefreshEnter_eq (hfast : fast s = true) (hon : (cget s 0x140000).getLsbD 1 = true) (hheld : heldByTake s k = false)
    (hawake : keepsAwake s k = false) :
    exec (.selfRefreshEnter k) s = .next (setCtl s k { ctl s k with state := .selfRefresh, exiting := false }) := by
  show execSelfRefreshEnter k s = _
  simp only [execSelfRefreshEnter, ctlOk, hk, decide_true, hback, hfast, hon, hheld, hawake, Bool.not_false, Bool.and_true, event_true]

end

/-- A memory leaves self-refresh where an exit has begun or a take holds it (R424, R427). -/
theorem selfRefreshExit_eq {s : State} {k : Nat} (hk : k < 80) (hfast : fast s = true) (hsleep : (ctl s k).state = .selfRefresh)
    (hneed : (ctl s k).exiting = true ∨ heldByTake s k = true) :
    exec (.selfRefreshExit k) s = .next (setCtl s k { ctl s k with state := .ready, exiting := false }) := by
  have hdue : ((ctl s k).exiting || heldByTake s k) = true := Bool.or_eq_true_iff.2 hneed
  show execSelfRefreshExit k s = _
  simp only [execSelfRefreshExit, ctlOk, hk, decide_true, hfast, hdue, Bool.and_true, event_true, readyCtl_of_selfRefresh hsleep]

-- The fill (R180)

/-- Regions skipped are regions gone past. -/
theorem le_skipFilled (out : List Nat) (f n : Nat) : n ≤ skipFilled out f n := by
  induction f generalizing n with
  | zero => exact le_rfl
  | succ f ih =>
    rw [skipFilled]
    split
    · exact (Nat.le_succ n).trans (ih (n + 1))
    · exact le_rfl

/-- The region that the fill of a package comes to. -/
def nextFill (m : MemCtl) : Nat := skipFilled m.filledOut m.filledOut.length m.filled

/-- The region that it goes on with. -/
def afterFill (m : MemCtl) : Nat := skipFilled m.filledOut m.filledOut.length (nextFill m + 1)

/-- The fill's record once the region is filled. -/
def filledNext (m : MemCtl) : MemCtl :=
  { m with filled := min (afterFill m) pkgRegions, filledOut := m.filledOut.filter fun r => afterFill m ≤ r,
           filling := decide (afterFill m < pkgRegions) }

theorem filled_lt_afterFill (m : MemCtl) : m.filled < afterFill m :=
  (Nat.lt_succ_of_le (le_skipFilled ..)).trans_le (le_skipFilled m.filledOut m.filledOut.length (nextFill m + 1))

theorem lt_filled_filledNext {m : MemCtl} (h : m.filled < pkgRegions) : m.filled < (filledNext m).filled :=
  lt_min (filled_lt_afterFill m) h

theorem filling_filledNext (m : MemCtl) : (filledNext m).filling = false ↔ pkgRegions ≤ (filledNext m).filled := by
  simp [filledNext]

theorem lpcFill_eq {s : State} {k : Nat} (hk : k < 80) (hpkg : 16 ≤ k) (hback : backgroundOk s k = true) (hfill : (ctl s k).filling = true) :
    exec (.lpcFill (k - 16)) s =
      .next (maybeSteal (setCtl (cleanRegion s (ctlBase k / 0x10000 + nextFill (ctl s k))) k (filledNext (ctl s k))) k) := by
  have hk' : 16 + (k - 16) = k := by omega
  have hlt : k - 16 < 64 := by omega
  show execLpcFill (k - 16) s = _
  simp only [execLpcFill, pkgOk, hlt, decide_true, hk', hback, hfill, Bool.and_true, event_true]
  rfl

theorem sameBytes_cleanRegion (s : State) (r : Nat) : sameBytes s (cleanRegion s r) := fun b => devByte_congr rfl rfl rfl b

/-- Settles O40: an access by the state that its word's ECC leaves, background work by the records it puts, and the exit from self-refresh. -/
theorem memoryControllers : Obligations.MemoryControllers := by
  refine ⟨fun a data ecc st k s hst hk hrun hdata hgran => ?_,
    fun write a data ecc st s hst hk hrun hdata hgran hmap => ctrlAccess_unmapped hst hrun hdata hgran hk hmap write,
    fun k s hk => ⟨fun hback => ?_, selfRefreshExit_eq hk⟩⟩
  · refine ⟨fun htest hwhole => ctrlWrite_puts hst hrun hdata hgran hk ?_, fun htest hpart hseen => ctrlWrite_puts hst hrun hdata hgran hk ?_,
      fun htest hseen => ?_, ?_, ?_, meetEcc_zero s k a, meetEcc_one s k a, meetEcc_two s k a⟩
    · rwa [eccMet_whole _ hwhole]
    · rwa [eccMet_part htest hpart]
    · rw [← eccMet_read htest] at hseen ⊢
      exact ctrlRead_done hst hrun hdata hgran hk hseen
    · rintro r hr rfl
      exact ctrlRead_refused hst hrun hdata hgran hk hr
    · rintro r hr rfl
      exact ctrlWrite_refused hst hrun hdata hgran hk hr
  · refine ⟨⟨_, refresh_eq hk hback, sameBytes_setCtl_maybeSteal s k _, rfl, by simp⟩,
      fun a ecc ha hon hecc => scrub_finds_none hk hback ha hon hecc, fun a ha hon hnew => scrub_finds_uncorr hk hback ha hon hnew,
      fun temp => ⟨_, telemetryRead_eq hk hback temp, sameBytes_setCtl_maybeSteal s k _, rfl, by simp⟩,
      fun hpkg hfill => ⟨_, lpcFill_eq hk hpkg hback hfill, ?_, ?_, ?_⟩, selfRefreshEnter_eq hk hback⟩
    · exact fun b => (sameBytes_setCtl_maybeSteal _ _ _ b).trans (sameBytes_cleanRegion s _ b)
    · exact fun w hw => List.mem_of_mem_filter hw
    · rw [ctl_maybeSteal, ctl_setCtl, if_pos rfl]
      exact ⟨lt_filled_filledNext, filling_filledNext _⟩

-- An operation at its turn (R309, R370, R374)

/-- At its turn the head command of its stream does what its operation asks. -/
theorem opTurn_of_turn {s : State} {st cls op : Nat} {e : Entry} (f : Entry → State) (hst : st < 256) (ht : turnOf s st cls = some e)
    (hop : fld e.body 64 1 = op) : opTurn s st cls op f = .next (f e) := by
  simp [opTurn, atTurn, streamOk, hst, ht, hop]

@[simp] theorem doneOr_some (s t : State) (e : Entry) (reason : Nat) : doneOr s e reason (some t) = done t e := rfl

-- The pool's operations (R374, R375)

section
variable {s t : State} {st : Nat} {e : Entry}

theorem execGive_done (hst : st < 256) (ht : turnOf s st 9 = some e) (hop : fld e.body 64 1 = 1)
    (h : allOrNone giveRegion s (poolRegions e.body) = some t) : exec (.give st) s = .next (done t e) := by
  rw [exec, execGive, opTurn_of_turn _ hst ht hop, h, doneOr_some]

theorem execTakeBack_done (hst : st < 256) (ht : turnOf s st 9 = some e) (hop : fld e.body 64 1 = 2)
    (h : allOrNone takeBackRegion s (poolRegions e.body) = some t) : exec (.takeBack st) s = .next (done t e) := by
  rw [exec, execTakeBack, opTurn_of_turn _ hst ht hop, h, doneOr_some]

theorem execAdopt_done (hst : st < 256) (ht : turnOf s st 9 = some e) (hop : fld e.body 64 1 = 3)
    (h : adoptRun s (fld e.body 72 8) = some t) (hroom : s.cen.runs.length < 16) : exec (.adopt st) s = .next (done t e) := by
  simp [exec, execAdopt, opTurn_of_turn _ hst ht hop, h, hroom]

theorem execRelease_done {r : Run} (hst : st < 256) (ht : turnOf s st 9 = some e)
    (hop : fld e.body 64 1 = 4) (hr : (s.cen.runs.find? fun r => r.runtab = fld e.body 72 8) = some r) (hfree : runBusy s r = false) :
    exec (.release st) s = .next (done (releaseRun s r) e) := by
  simp [exec, execRelease, opTurn_of_turn _ hst ht hop, hr, hfree]

-- The network's operations (R368, R370, R371)

theorem qpsetWhole_done (h : allOrNone qpsetEntry s (manEntries e.body 64) = some t) :
    qpsetWhole s e = done t e := by
  rw [qpsetWhole, h, doneOr_some]

theorem execQpsetSet_done (hst : st < 256) (ht : turnOf s st 10 = some e) (hop : fld e.body 64 1 = 1)
    (h : allOrNone qpsetEntry s (manEntries e.body 64) = some t) (hset : fld e.body 158 1 = 0) :
    exec (.qpsetSet st) s = .next (done t e) := by
  rw [exec, execQpsetSet, opTurn_of_turn _ hst ht hop, if_pos hset, qpsetWhole_done h]

theorem execQpsetReset_done (hst : st < 256) (ht : turnOf s st 10 = some e)
    (hop : fld e.body 64 1 = 1) (h : allOrNone qpsetEntry s (manEntries e.body 64) = some t) (hreset : fld e.body 158 1 = 1) :
    exec (.qpsetReset st) s = .next (done t e) := by
  rw [exec, execQpsetReset, opTurn_of_turn _ hst ht hop, if_pos hreset, qpsetWhole_done h]

theorem keysetWhole_done (h : allOrNone keysetEntry s (manEntries e.body 32) = some t) :
    keysetWhole s e = done t e := by
  rw [keysetWhole, h, doneOr_some]

theorem execKeyset_done (hst : st < 256) (ht : turnOf s st 10 = some e) (hop : fld e.body 64 1 = 2)
    (h : allOrNone keysetEntry s (manEntries e.body 32) = some t) (hins : bit (fld e.body 133 1) 7 = false) :
    exec (.keyset st) s = .next (done t e) := by
  rw [exec, execKeyset, opTurn_of_turn _ hst ht hop, hins, keysetWhole_done h]
  rfl

theorem execKeyRevoke_done (hst : st < 256) (ht : turnOf s st 10 = some e)
    (hop : fld e.body 64 1 = 2) (h : allOrNone keysetEntry s (manEntries e.body 32) = some t) (hrev : bit (fld e.body 133 1) 7 = true) :
    exec (.keyRevoke st) s = .next (done t e) := by
  rw [exec, execKeyRevoke, opTurn_of_turn _ hst ht hop, if_pos hrev, keysetWhole_done h]

theorem execEpoch_done {x : EpochSt} (hst : st < 256) (ht : turnOf s st 10 = some e)
    (hop : fld e.body 64 1 = 3)
    (hx : { num := fld e.body 128 4, self := fld e.body 132 4, fromStep := fld e.body 136 8, members := bitmapMembers e.body } = x)
    (hok : epochOk s x = true) : exec (.epoch st) s = .next (done { s with net := { s.net with staged := some x } } e) := by
  subst hx
  rw [exec, execEpoch, opTurn_of_turn _ hst ht hop]
  dsimp only
  rw [if_pos hok, doneOr_some]

theorem execSa_done (hst : st < 256) (ht : turnOf s st 10 = some e) (hop : fld e.body 64 1 = 4)
    (h : allOrNone saEntry s (manEntries e.body 96) = some t) : exec (.sa st) s = .next (done (wipeSak t e) e) := by
  rw [exec, execSa, opTurn_of_turn _ hst ht hop, h]

end

-- What a range's regions become (R189)

/-- A region that is given was Open and is Pool; the others are as they were. -/
theorem regionState_giveRegion {s t : State} {g : Nat} (h : giveRegion s g = some t) :
    regionState s g = 0 ∧ ∀ q, regionState t q = if q = g then 1 else regionState s q := by
  unfold giveRegion at h
  split at h
  · next hlive =>
    cases h
    unfold openLive at hlive
    split at hlive
    · exact ⟨(of_decide_eq_true hlive).1, fun q => regionState_setRegion s g q 1⟩
    · nomatch hlive
  · nomatch h

/-- A region that is taken back was Pool and is Open; the others are as they were. -/
theorem regionState_takeBackRegion {s t : State} {g : Nat} (h : takeBackRegion s g = some t) :
    regionState s g = 1 ∧ ∀ q, regionState t q = if q = g then 0 else regionState s q := by
  unfold takeBackRegion at h
  split at h
  · split at h
    · next hpool =>
      cases h
      exact ⟨hpool.1, fun q => regionState_setRegion s g q 0⟩
    · nomatch h
  · nomatch h

/-- Settles O45: at its turn each operation ends with DONE on what its entries leave, and a region changes hands as it is given or taken
back. -/
theorem streamOperations : Obligations.StreamOperations := by
  refine ⟨fun st op cls e s t hst ht hop => ⟨?_, ?_, ?_, ?_, ?_, ?_, ?_, ?_⟩,
    fun s t g => ⟨regionState_giveRegion, regionState_takeBackRegion⟩⟩
  · rintro rfl rfl h
    exact execGive_done hst ht hop h
  · rintro rfl rfl h
    exact execTakeBack_done hst ht hop h
  · rintro rfl rfl h hroom
    exact execAdopt_done hst ht hop h hroom
  · rintro rfl rfl r hr hfree
    exact execRelease_done hst ht hop hr hfree
  · rintro rfl rfl h
    exact ⟨execQpsetSet_done hst ht hop h, execQpsetReset_done hst ht hop h⟩
  · rintro rfl rfl h
    exact ⟨execKeyset_done hst ht hop h, execKeyRevoke_done hst ht hop h⟩
  · rintro rfl rfl x hok
    exact execEpoch_done hst ht hop rfl hok
  · rintro rfl rfl h
    exact execSa_done hst ht hop h

-- Trap reports and clearing (R235, R237, R334)

/-- The completion that a core's trap registers give (R235, R319). -/
def trapInfo (s : State) (c : Nat) : CInfo :=
  let w := cget s (csqBase c + 0x10)
  { status := 2, reason := 1, lcore := lcoreNo (core s c), pc := wbits (cget s (csqBase c + 0x18)) 14 0,
    detail := wbits w 7 0 + wbits w 31 16 * 65536, value := (cget s (csqBase c + 0x20)).toNat }

/-- A trap is reported as its core's end when the core has trapped and is neither fenced nor clear of its take. -/
theorem trapReport_eq {c : Nat} {s : State} (hc : c < 208) (hfast : fast s = true) : exec (.trapReport c) s =
    .next (if (core s c).trapped = true ∧ (core s c).fenced = false ∧ (core s c).share ≠ .none ∧ (core s c).share ≠ .clearing then
      endOfCore s c fun _ => trapInfo s c else s) := by
  show execTrapReport c s = _
  simp only [execTrapReport, coreOk, hc, decide_true, onUnit_true, hfast, when_, trapInfo]
  split <;> simp_all

theorem trapReport_ends {c : Nat} {s : State} (hc : c < 208) (hfast : fast s = true) (htrap : (core s c).trapped = true)
    (hfenced : (core s c).fenced = false) (hshare : (core s c).share = .running ∨ (core s c).share = .ended) :
    exec (.trapReport c) s = .next (endOfCore s c fun _ => trapInfo s c) := by
  have hon : (core s c).share ≠ .none ∧ (core s c).share ≠ .clearing := by
    obtain h | h := hshare <;> simp [h]
  rw [trapReport_eq hc hfast, if_pos ⟨htrap, hfenced, hon⟩]

theorem trapReport_stays {c : Nat} {s : State} (hc : c < 208) (hfast : fast s = true)
    (h : (core s c).fenced = true ∨ (core s c).share = .clearing) : exec (.trapReport c) s = .next s := by
  rw [trapReport_eq hc hfast, if_neg]
  rintro ⟨-, hfenced, -, hshare⟩
  exact h.elim (fun hf => by simp [hf] at hfenced) hshare

/-- A core of a killed take that does not report clear is fenced (R334). -/
theorem coreClearTimeout_fences {c : Nat} {s : State} (hc : c < 208) (hfast : fast s = true) (hshare : (core s c).share = .clearing) :
    exec (.coreClearTimeout c) s = .next (fenceCore s c 2) := by
  show execCoreClearTimeout c s = _
  simp [execCoreClearTimeout, coreOk, hc, hfast, hshare]

/-- A killed take leaves its slot (R334). -/
theorem placementClear_frees {slot : Nat} {t : Take} {s : State} (hslot : slot < 256)
    (ht : (s.intake.takes.find? fun t => t.slot = slot ∧ t.killed) = some t) (hready : ready s = true) :
    exec (.placementClear slot) s = .next (freeTake s t) := by
  show execPlacementClear slot s = _
  simp only [execPlacementClear, slotOk, hslot, decide_true, onUnit_true, ht, hready, when_true]

-- Deadlines, completions and rooms (R192, R304, R337)

/-- A deadline passes while the command's take, if it has one, has not ended (R337). -/
theorem deadlinePassed_kills {st : Nat} {e : Entry} {s : State} (he : headEntry s st = some e) (hready : ready s = true)
    (htake : e.hasTake = true) (hhead : e.head = true) (hdue : e.deadline ≠ 0)
    (hlive : ∀ t, takeOfCmd s st e.seq = some t → t.ended = false) : exec (.deadlinePassed st) s =
      .next (killAndEnd (bump s 0x200048 1) st e.seq { status := 2, reason := 0x41 }) := by
  show execDeadlinePassed st s = _
  simp only [execDeadlinePassed, he, hready, htake, hhead]
  cases ht : takeOfCmd s st e.seq with
  | none => simp [hdue]
  | some t => simp [hdue, hlive t ht]

/-- The oldest command whose completion is not yet acknowledged has it written again (R304). -/
theorem completionRewrite_sends {st : Nat} {e : Entry} {s : State} (hst : st < 256) (hready : ready s = true)
    (he : ((liveOf s st).find? fun e => ((qp s (stream s st).qp).sendq ++ (qp s (stream s st).qp).held).any fun m =>
      m.kind = .completion st e.seq) = some e) :
    exec (.completionRewrite st) s =
      .next (send s (stream s st).qp (.completion st e.seq) (stream s st).ckey (fld e.body 16 8) e.comp) := by
  show execCompletionRewrite st s = _
  simp only [execCompletionRewrite, streamOk, hst, decide_true, onUnit_true, he, hready, when_true]

/-- A waiting update's room is tested again (R192). -/
theorem poolReservationRetry_tests {run shard : Nat} {r : Run} {u : Update} {s : State} (hr : s.cen.runs[run]? = some r)
    (hu : activeUpdate s r shard .waiting = some u) (hready : ready s = true) :
    exec (.poolReservationRetry run shard) s = .next (reserveUpdate s u) := by
  show execPoolReservationRetry run shard s = _
  simp only [execPoolReservationRetry, hr, hu, hready, when_true]

-- Recorded cuts (R344)

/-- A core goes on from its cut: its CUT register names the cut, and its reel 0 is held no more. -/
def goOn (k : Nat) (s : State) (c : Nat) : State :=
  modCore (cput s (csqBase c + 0x40) 15 8 k) c fun x => withReel x 0 { reelOf x 0 with hold := .free }

/-- What an entry records of a cut: its number, the half that holds it and the take's tag. -/
def Entry.withCut (t : Take) (k : Nat) (e : Entry) : Entry := { e with cut := k, cutHalf := nextHalf e, cutTag := t.tag }

theorem cutRecorded_eq {st k c : Nat} {cs : List Nat} {e : Entry} {t : Take} {s : State} (he : headEntry s st = some e)
    (ht : takeOfCmd s st e.seq = some t) (hcs : coresOf s t.slot = c :: cs) (hk : cutOf s c = some k) (hready : ready s = true)
    (hlive : t.killed = false) (hall : allAtCut s t.slot k = true) (hsealed : landingsOf s st e.seq = []) :
    exec (.cutRecorded st) s = .next ((c :: cs).foldl (goOn k) (modEntry s st e.seq (Entry.withCut t k))) := by
  show execCutRecorded st s = _
  simp only [execCutRecorded, he, ht, hcs, List.head?_cons, Option.bind_some, hk, hready, hlive, hall, hsealed]
  rfl

theorem core_goOn (k : Nat) (s : State) (c d : Nat) : core (goOn k s c) d =
    if d = c then withReel (core s c) 0 { reelOf (core s c) 0 with hold := .free } else core s d := by
  simp [goOn]

theorem sameBytes_goOn (k : Nat) (s : State) (c : Nat) : sameBytes s (goOn k s c) :=
  fun a => devByte_congr (by simp [goOn]) (by simp [goOn]) (by simp [goOn]) a

theorem sameBytes_goOns (k : Nat) (cs : List Nat) (s : State) : sameBytes s (cs.foldl (goOn k) s) :=
  List.foldlRecOn cs (goOn k) (motive := sameBytes s) (fun _ => rfl) fun t ht c _ a => (sameBytes_goOn k t c a).trans (ht a)

theorem findEntry_goOn (k : Nat) (s : State) (c st seq : Nat) : findEntry (goOn k s c) st seq = findEntry s st seq := by
  simp [goOn]

theorem findEntry_goOns (k : Nat) (cs : List Nat) (s : State) (st seq : Nat) :
    findEntry (cs.foldl (goOn k) s) st seq = findEntry s st seq :=
  List.foldlRecOn cs (goOn k) (motive := fun t => findEntry t st seq = findEntry s st seq) rfl fun t ht c _ => (findEntry_goOn k t c st seq).trans ht

/-- A core that is free stays so, and each core that goes on is. -/
theorem free_goOns (k : Nat) (cs : List Nat) (s : State) (d : Nat) (h : d ∈ cs ∨ (reelOf (core s d) 0).hold = .free) :
    (reelOf (core (cs.foldl (goOn k) s) d) 0).hold = .free := by
  induction cs generalizing s with
  | nil => exact h.resolve_left List.not_mem_nil
  | cons c cs ih =>
    apply ih
    rw [core_goOn]
    by_cases hd : d = c
    · simp [hd]
    · simpa [hd] using h

/-- The entry of a command that has a cut recorded. -/
theorem findEntry_withCut {s : State} {st seq : Nat} {q : Entry} (h : findEntry s st seq = some q) (t : Take) (k : Nat) :
    findEntry (modEntry s st seq (Entry.withCut t k)) st seq = some (q.withCut t k) := by
  rw [findEntry_modEntry (f := Entry.withCut t k) fun _ => ⟨rfl, rfl⟩, h, Option.map_some]

/-- Settles O49: each event of a take does what its conditions allow; a recorded cut keeps the bytes, as its entry and the holds of reels are
no bytes of the device. -/
theorem takeEvents : Obligations.TakeEvents := by
  refine ⟨fun c s hc hfast => ⟨trapReport_ends hc hfast, trapReport_stays hc hfast⟩,
    ⟨fun st e s => deadlinePassed_kills, fun slot t s => placementClear_frees, fun c s => coreClearTimeout_fences,
      fun st e s => completionRewrite_sends, fun run shard r u s => poolReservationRetry_tests⟩,
    fun st k c cs e t s he ht hcs hk hready hlive hall hsealed => ?_⟩
  refine ⟨_, cutRecorded_eq he ht hcs hk hready hlive hall hsealed, sameBytes_goOns k _ _, fun d hd => free_goOns k _ _ d (.inl hd),
    fun q hq => ?_⟩
  exact (findEntry_goOns ..).trans (findEntry_withCut hq t k)

end Sys2Proof.Machine

/-! PROOFS. Finlen: the results of its ALU (R211). -/
namespace Sys2Proof.Machine
open Sys2Proof

/-- The high half of a signed product fits a word. -/
theorem mulHigh_bounds (a b : W64) :
    -2 ^ 63 ≤ Int.fdiv (a.toInt * b.toInt) (2 ^ 64) ∧ Int.fdiv (a.toInt * b.toInt) (2 ^ 64) < 2 ^ 63 := by
  have hle : a.toInt * b.toInt ≤ 2 ^ (64 * 2 - 2) := BitVec.toInt_mul_toInt_le
  have hge : -(2 ^ (64 * 2 - 2)) ≤ a.toInt * b.toInt := BitVec.le_toInt_mul_toInt
  rw [Int.fdiv_eq_ediv_of_nonneg _ (by decide)]
  omega

/-- A product's low half and its signed high half make it whole. -/
theorem mul_add_mulHigh (a b : W64) : ((aluOp 0x08 a b).toNat : Int) + 2 ^ 64 * (aluOp 0x09 a b).toInt = a.toInt * b.toInt := by
  obtain ⟨hge, hlt⟩ := mulHigh_bounds a b
  have hlow : ((a * b).toNat : Int) = (a.toInt * b.toInt) % 2 ^ 64 := by
    have h := congrArg BitVec.toNat (BitVec.ofInt_mul (n := 64) a.toInt b.toInt)
    simp only [BitVec.ofInt_toInt, BitVec.toNat_ofInt] at h
    omega
  rw [show aluOp 0x08 a b = a * b from rfl, show aluOp 0x09 a b = BitVec.ofInt 64 (Int.fdiv (a.toInt * b.toInt) (2 ^ 64)) from rfl, hlow,
    BitVec.toInt_ofInt_eq_self (by decide) hge hlt, Int.fdiv_eq_ediv_of_nonneg _ (by decide)]
  omega

/-- A product's low half and its unsigned high half make it whole. -/
theorem mul_add_mulHighU (a b : W64) : (aluOp 0x08 a b).toNat + 2 ^ 64 * (aluOp 0x0A a b).toNat = a.toNat * b.toNat := by
  have hlt : a.toNat * b.toNat < 2 ^ 64 * 2 ^ 64 := Nat.mul_lt_mul'' a.isLt b.isLt
  rw [show aluOp 0x08 a b = a * b from rfl, show aluOp 0x0A a b = BitVec.ofNat 64 (a.toNat * b.toNat / 2 ^ 64) from rfl, BitVec.toNat_mul,
    BitVec.toNat_ofNat]
  omega

/-- The right shift of a signed word divides it by a power of 2, rounding down. -/
theorem toInt_sra (a b : W64) : (aluOp 0x07 a b).toInt = Int.fdiv a.toInt (2 ^ (b.toNat % 64)) := by
  rw [show aluOp 0x07 a b = a.sshiftRight (b.toNat % 64) from rfl, BitVec.toInt_sshiftRight, Int.shiftRight_eq_div_pow,
    Int.fdiv_eq_ediv_of_nonneg _ (by positivity)]
  norm_cast

/-- Counting by a running sum is counting by a filter. -/
theorem foldl_b2n_eq (p : Nat → Bool) (l : List Nat) (n : Nat) : l.foldl (fun n i => n + b2n (p i)) n = n + (l.filter p).length := by
  induction l generalizing n with
  | nil => rfl
  | cons i l ih =>
    rw [List.foldl_cons, ih, List.filter_cons]
    cases p i
    · rfl
    · simp only [b2n, if_true, List.length_cons]
      omega

/-- The number of 1 bits of a word. -/
theorem popc_eq (a : W64) : popc a = ((List.range 64).filter fun i => a.getLsbD i).length :=
  (foldl_b2n_eq a.getLsbD (List.range 64) 0).trans (Nat.zero_add _)

theorem popc_le (a : W64) : popc a ≤ 64 := by
  rw [popc_eq]
  exact (List.length_filter_le _ _).trans_eq List.length_range

theorem toNat_popc (a b : W64) : (aluOp 0x12 a b).toNat = popc a := by
  rw [show aluOp 0x12 a b = BitVec.ofNat 64 (popc a) from rfl, BitVec.toNat_ofNat, Nat.mod_eq_of_lt (Nat.lt_of_le_of_lt (popc_le a) (by decide))]

/-- The leading zeros of a word say between which powers of 2 it lies. -/
theorem clz_spec {a : W64} (h : a ≠ 0) : 2 ^ (63 - clz a) ≤ a.toNat ∧ a.toNat < 2 ^ (64 - clz a) := by
  have h0 : a.toNat ≠ 0 := fun hz => h (BitVec.eq_of_toNat_eq hz)
  have hlog : Nat.log2 a.toNat < 64 := (Nat.log2_lt h0).2 a.isLt
  rw [clz, if_neg h, show 63 - (63 - Nat.log2 a.toNat) = Nat.log2 a.toNat by omega,
    show 64 - (63 - Nat.log2 a.toNat) = Nat.log2 a.toNat + 1 by omega]
  exact ⟨Nat.log2_self_le h0, Nat.lt_log2_self⟩

theorem clz_le (a : W64) : clz a ≤ 64 := by
  rw [clz]
  split <;> omega

theorem toNat_clz (a b : W64) : (aluOp 0x11 a b).toNat = clz a := by
  rw [show aluOp 0x11 a b = BitVec.ofNat 64 (clz a) from rfl, BitVec.toNat_ofNat, Nat.mod_eq_of_lt (Nat.lt_of_le_of_lt (clz_le a) (by decide))]

/-- Minimum and maximum of signed words. -/
theorem toInt_minMax (a b : W64) : (aluOp 0x0B a b).toInt = min a.toInt b.toInt ∧ (aluOp 0x0C a b).toInt = max a.toInt b.toInt := by
  simp only [aluOp, BitVec.slt_iff_toInt_lt]
  split <;> omega

/-- Minimum and maximum of unsigned words. -/
theorem toNat_minMax (a b : W64) : (aluOp 0x0D a b).toNat = min a.toNat b.toNat ∧ (aluOp 0x0E a b).toNat = max a.toNat b.toNat := by
  simp only [aluOp, BitVec.ult_iff_lt, BitVec.lt_def]
  split <;> omega

/-- Quotient and remainder by a divisor that is not zero. -/
theorem div_add_rem {a b : W64} (h : b ≠ 0) :
    a.toNat = b.toNat * (aluOp 0x0F a b).toNat + (aluOp 0x10 a b).toNat ∧ (aluOp 0x10 a b).toNat < b.toNat := by
  have h0 : 0 < b.toNat := Nat.pos_of_ne_zero fun hz => h (BitVec.eq_of_toNat_eq hz)
  have hdiv : a.toNat / b.toNat < 2 ^ 64 := Nat.lt_of_le_of_lt (Nat.div_le_self ..) a.isLt
  have hmod : a.toNat % b.toNat < b.toNat := Nat.mod_lt _ h0
  simp only [aluOp, if_neg h, BitVec.toNat_ofNat, Nat.mod_eq_of_lt hdiv, Nat.mod_eq_of_lt (hmod.trans b.isLt)]
  exact ⟨(Nat.div_add_mod ..).symm, hmod⟩

/-- Settles O9, function by function. -/
theorem aluResults : Obligations.AluResults := by
  unfold Obligations.AluResults
  intro a b
  refine ⟨BitVec.toNat_add a b, ?_, fun i _ => ⟨BitVec.getLsbD_and, BitVec.getLsbD_or, BitVec.getLsbD_xor⟩, ?_, ?_, toInt_sra a b,
    (toNat_popc a b).trans (popc_eq a), mul_add_mulHighU a b, mul_add_mulHigh a b, (toInt_minMax a b).1, (toInt_minMax a b).2, (toNat_minMax a b).1,
    (toNat_minMax a b).2, div_add_rem, ?_, fun h => ?_, ?_⟩
  · rw [show aluOp 0x01 a b = a - b from rfl, BitVec.toNat_sub, Nat.add_comm]
  · rw [show aluOp 0x05 a b = a <<< (b.toNat % 64) from rfl, BitVec.toNat_shiftLeft, Nat.shiftLeft_eq]
  · rw [show aluOp 0x06 a b = a >>> (b.toNat % 64) from rfl, BitVec.toNat_ushiftRight, Nat.shiftRight_eq_div_pow]
  · rintro rfl
    exact ⟨rfl, rfl⟩
  · rw [toNat_clz]
    exact clz_spec h
  · rintro rfl
    rfl

end Sys2Proof.Machine

/-! PROOFS. Finlen instructions that act on their own reel: arithmetic, predicates, branches, loops, words of memory, and instructions that
do not execute (R205, R208, R210 to R218). -/
namespace Sys2Proof.Machine

open Sys2Proof

-- What an issue does to its reel

/-- What an instruction that does not execute does to its reel: a LOOP skips its body, every other goes on (R208, R216). -/
def skipReel (i : Instr) (r : Reel) : Reel :=
  match i with
  | .loop _ _ _ body => { r with pc := r.pc + 2 + body }
  | _ => r.next (wordsOf i)

/-- Every Finlen instruction is one issue, whose reel goes on when it does not execute. -/
theorem exec_eq_finlen {i : Instr} {q : Issue} (h : i.issueOf = some q) (s : State) :
    ∃ run, exec i s = finlen q i s run fun t => modRunning t q.core (skipReel i) := by
  cases i <;> cases h <;> simp only [exec, execAlu, execAddi, execAndi, execOri, execXori, execSlli, execSrli, execSrai, execCmp, execCmpi, execPlog,
    execBr, execCall, execRet, execLoop, execLbrk, execIssue, execArrive, execWait, execLdw, execStw, execRstart, execYieldReel, execRexit, execCut,
    execTend, execFence, execTrap, execNop, execXalu, execFetch, execTcmt, execCsrr, execCsrw, finlenReel, finlenWait, finlenOp] <;> exact ⟨_, rfl⟩

/-- An instruction whose effect is on its reel alone leaves the rest as it was. -/
theorem reelEffect {i : Instr} {s : State} {c : Nat} {f : Reel → Reel}
    (h : exec i s = .next (modRunning (bump s (csqBase c + 0x48) 1) c f)) :
    ∃ t, exec i s = .next t ∧ frameReel s t c ∧ runningReel t c = f (runningReel s c) :=
  ⟨_, h, frame_modRunning s c f, by rw [runningReel_modRunning, runningReel_bump]⟩

/-- Settles O11: an instruction that does not execute is counted, and `skipReel` is all that it does. -/
theorem finlenNotExecuted : Obligations.FinlenNotExecuted := by
  unfold Obligations.FinlenNotExecuted
  refine ⟨fun q i s hq h hno => ?_, fun r q => rfl, fun r q hpr hpn => by simp [Reel.executes, Reel.pred, hpr, hpn]⟩
  obtain ⟨run, hexec⟩ := exec_eq_finlen hq s
  obtain ⟨t, ht, hframe, hreel⟩ := reelEffect (hexec.trans (finlen_skips h hno))
  refine ⟨t, ht, hframe, fun hloop => hreel.trans ?_, fun rd ra body hi => ?_⟩
  · unfold skipReel
    split
    · next q' rd ra body =>
      cases hq
      exact absurd rfl (hloop q rd ra body)
    · rfl
  · subst hi
    exact hreel

-- Arithmetic, compares and predicates (R205, R210 to R214)

/-- The conditions of CMP and CMPI as orders of numbers (R214). -/
theorem condOp_spec (a b : W64) :
    condOp 0 a b = decide (a = b) ∧ condOp 1 a b = decide (a ≠ b) ∧ condOp 2 a b = decide (a.toInt < b.toInt) ∧
      condOp 3 a b = decide (b.toInt ≤ a.toInt) ∧ condOp 4 a b = decide (a.toNat < b.toNat) ∧ condOp 5 a b = decide (b.toNat ≤ a.toNat) := by
  refine ⟨rfl, rfl, rfl, ?_, rfl, ?_⟩
  · simp only [condOp, BitVec.slt, ← Int.not_lt, decide_not]
  · simp only [condOp, BitVec.ult, ← Nat.not_lt, decide_not]

/-- Settles O8: the meaning of each is an effect on its reel. -/
theorem finlenArithmetic : Obligations.FinlenArithmetic := by
  unfold Obligations.FinlenArithmetic
  refine ⟨⟨fun q fn rd ra rb => reelOp_of fun s => rfl, fun q rd ra imm => reelOp_of fun s => rfl, fun q rd ra imm => reelOp_of fun s => rfl,
    fun q rd ra imm => reelOp_of fun s => rfl, fun q rd ra imm => reelOp_of fun s => rfl, fun q rd ra imm => reelOp_of fun s => rfl,
    fun q rd ra imm => reelOp_of fun s => rfl, fun q rd ra imm => reelOp_of fun s => rfl, fun q fn rd ra imm => reelOp_of fun s => rfl,
    fun q => reelOp_of fun s => rfl⟩, fun q fn pd ra rb => reelOp_of fun s => rfl, fun q cond pd ra imm => reelOp_of fun s => rfl,
    fun q fn pd pa pb => reelOp_of fun s => rfl, condOp_spec⟩

-- Branches and loops (R215, R216)

@[simp] theorem modIntake_intake (s : State) (f : Intake → Intake) : (modIntake s f).intake = f s.intake := rfl

theorem imgOf_bump (s : State) (a n c : Nat) : imgOf (bump s a n) c = imgOf s c := (rfl)

/-- What voids a bound does not depend on the count of issues. -/
theorem voidBound_ite_bump_intake (p : Prop) [Decidable p] (s : State) (a n c : Nat) :
    (if p then voidBound (bump s a n) c else bump s a n).intake = (if p then voidBound s c else s).intake := by
  rw [voidBound, voidBound, show takeOfCore (bump s a n) c = takeOfCore s c from rfl]
  split
  · cases takeOfCore s c <;> rfl
  · rfl

/-- The reel of a LOOP that enters its body. -/
def enterLoop (rd n body : Nat) (r : Reel) : Reel :=
  { r.set rd 0 with
    pc := r.pc + 1
    loops := { count := n, iter := 0, first := r.pc + 1, last := r.pc + 1 + body, idx := rd } :: r.loops }

/-- A LOOP with a count in range enters its body; a count beyond its LOOPMAX value voids the bound, which the intake records (R289). -/
theorem exec_loop_enters {q : Issue} {rd ra body n : Nat} {s : State} (h : runs q (.loop q rd ra body) s)
    (hn : ((runningReel s q.core).get ra).toNat = n) (h0 : 0 < n) (hlt : n < 2 ^ 32) (hroom : (runningReel s q.core).loops.length < 4) :
    exec (.loop q rd ra body) s = .next (modRunning (modIntake (bump s (csqBase q.core + 0x48) 1) fun _ =>
      (if loopMax (imgOf s q.core) (runningReel s q.core).pc < n then voidBound s q.core else s).intake) q.core (enterLoop rd n body)) := by
  rw [show exec (.loop q rd ra body) s = execLoop q rd ra body s from rfl, execLoop, finlen_runs h]
  simp only [runningReel_bump, imgOf_bump, hn]
  rw [if_neg (Nat.not_le.2 hlt), if_neg (Nat.ne_of_gt h0), if_neg (Nat.not_le.2 hroom), voidBound_ite_eq_modIntake, voidBound_ite_bump_intake]
  rfl

/-- What a LOOP that enters its body leaves of the state. -/
theorem loop_enters {q : Issue} {rd ra body n : Nat} {s : State} (h : runs q (.loop q rd ra body) s)
    (hn : ((runningReel s q.core).get ra).toNat = n) (h0 : 0 < n) (hlt : n < 2 ^ 32) (hroom : (runningReel s q.core).loops.length < 4) :
    ∃ t, exec (.loop q rd ra body) s = .next t ∧ sameBytes s t ∧
      t.intake = (if loopMax (imgOf s q.core) (runningReel s q.core).pc < n then voidBound s q.core else s).intake ∧
      (∀ d, d ≠ q.core → core t d = core s d) ∧ { core t q.core with reels := (core s q.core).reels } = core s q.core ∧
      (∀ n, n ≠ (core s q.core).running → reelOf (core t q.core) n = reelOf (core s q.core) n) ∧
      runningReel t q.core = enterLoop rd n body (runningReel s q.core) := by
  refine ⟨_, exec_loop_enters h hn h0 hlt hroom, ?_⟩
  exact ⟨fun a => devByte_congr (by simp) (by simp) (by simp) a, by simp, fun d hd => by simp [hd], by simp [withReel],
    fun m hm => by simp [hm], by simp⟩

theorem loop_skips {q : Issue} {rd ra body : Nat} {s : State} (h : runs q (.loop q rd ra body) s)
    (h0 : ((runningReel s q.core).get ra).toNat = 0) : exec (.loop q rd ra body) s =
      .next (modRunning (bump s (csqBase q.core + 0x48) 1) q.core fun r => { r with pc := r.pc + 2 + body }) := by
  rw [show exec (.loop q rd ra body) s = execLoop q rd ra body s from rfl, execLoop, finlen_runs h]
  simp only [runningReel_bump, h0]
  rfl

theorem exec_br {q : Issue} {off : BitVec 19} {s : State} (h : runs q (.br q off) s) : exec (.br q off) s =
    .next (modRunning (bump s (csqBase q.core + 0x48) 1) q.core fun r => { r with pc := target r.pc off }) := by
  rw [show exec (.br q off) s = execBr q off s from rfl, execBr, finlenOp_runs h]

theorem exec_call {q : Issue} {off : BitVec 19} {s : State} (h : runs q (.call q off) s) (hroom : (runningReel s q.core).rets.length < 8) :
    exec (.call q off) s = .next (modRunning (bump s (csqBase q.core + 0x48) 1) q.core fun r =>
      { r with pc := target r.pc off, rets := (r.pc + 1) :: r.rets }) := by
  rw [show exec (.call q off) s = execCall q off s from rfl, execCall, finlenOp_runs h]
  simp only [runningReel_bump, if_neg (Nat.not_le.2 hroom)]

theorem exec_ret {q : Issue} {a : Nat} {l : List Nat} {s : State} (h : runs q (.ret q) s) (hr : (runningReel s q.core).rets = a :: l) :
    exec (.ret q) s = .next (modRunning (bump s (csqBase q.core + 0x48) 1) q.core fun r => { r with pc := a, rets := l }) := by
  rw [show exec (.ret q) s = execRet q s from rfl, execRet, finlenOp_runs h]
  simp only [runningReel_bump, hr]

theorem exec_lbrk {q : Issue} {l : LoopEnt} {rest : List LoopEnt} {s : State} (h : runs q (.lbrk q) s)
    (hl : (runningReel s q.core).loops = l :: rest) : exec (.lbrk q) s =
      .next (modRunning (bump s (csqBase q.core + 0x48) 1) q.core fun r => { r with pc := l.last + 1, loops := rest }) := by
  rw [show exec (.lbrk q) s = execLbrk q s from rfl, execLbrk, finlenOp_runs h]
  simp only [runningReel_bump, hl]

/-- A branch target is the sum modulo the code store's 32,768 words. -/
theorem target_eq (pc : Nat) (off : BitVec 19) : (target pc off : Int) = (pc + off.toInt) % 32768 :=
  Int.toNat_of_nonneg (Int.emod_nonneg _ (by decide))

/-- An instruction that is not the last of its innermost loop goes on. -/
theorem next_inside {r : Reel} {l : LoopEnt} {rest : List LoopEnt} {words : Nat} (hr : r.loops = l :: rest)
    (hlast : l.last ≠ r.pc + words - 1) : r.next words = { r with pc := r.pc + words } := by
  simp only [Reel.next, hr, if_neg hlast]

/-- The last instruction of a loop with an iteration left starts that iteration. -/
theorem next_again {r : Reel} {l : LoopEnt} {rest : List LoopEnt} {words : Nat} (hr : r.loops = l :: rest)
    (hlast : l.last = r.pc + words - 1) (hleft : l.iter + 1 < l.count) : r.next words =
      { r.set l.idx (BitVec.ofNat 64 (l.iter + 1)) with pc := l.first, loops := { l with iter := l.iter + 1 } :: rest } := by
  simp only [Reel.next, hr, if_pos hlast, if_pos hleft]

/-- The last instruction of a loop without an iteration left ends it. -/
theorem next_ends {r : Reel} {l : LoopEnt} {rest : List LoopEnt} {words : Nat} (hr : r.loops = l :: rest)
    (hlast : l.last = r.pc + words - 1) (hdone : l.count ≤ l.iter + 1) : r.next words = { r with pc := r.pc + words, loops := rest } := by
  simp only [Reel.next, hr, if_pos hlast, if_neg (Nat.not_lt.2 hdone)]

/-- A write of one register leaves the others. -/
theorem get_set_of_ne (r : Reel) {n m : Nat} (v : W64) (h : m ≠ n) : (r.set n v).get m = r.get m := by
  by_cases h0 : n = 0
  · rw [h0, Reel.set_zero]
  · rw [Reel.get_set _ _ _ _ h0, if_neg h]

/-- Settles O12, by what each instruction and the end of a loop's body do to the reel. -/
theorem finlenBranchesAndLoops : Obligations.FinlenBranchesAndLoops := by
  unfold Obligations.FinlenBranchesAndLoops
  refine ⟨⟨fun q off s h => reelEffect (exec_br h), fun q off s h hroom => reelEffect (exec_call h hroom),
      fun q a l s h hr => reelEffect (exec_ret h hr), target_eq⟩,
    ⟨fun q rd ra body s h => ⟨fun h0 => reelEffect (loop_skips h h0), loop_enters h rfl⟩, fun q l rest s h hl => reelEffect (exec_lbrk h hl)⟩,
    fun r l rest words hr => ⟨next_inside hr, fun hlast hleft => ?_, next_ends hr⟩⟩
  rw [next_again hr hlast hleft]
  exact ⟨rfl, rfl, fun h0 => (Reel.get_set r _ _ _ h0).trans (if_pos rfl), fun m hm => get_set_of_ne r _ hm⟩

end Sys2Proof.Machine

/-! PROOFS. LDW and STW, and the registers that read as constants (R205, R218). -/
namespace Sys2Proof.Machine

open Sys2Proof

-- LDW and STW (R218)

/-- Which addresses of words are legal. -/
theorem wordAddr_legal {r : Reel} {ra : Nat} {imm : BitVec 12} : (wordAddr r ra imm).2 = true ↔
    (r.get ra).toNat < 2 ^ 24 ∧ (wordAddr r ra imm).1.toNat < 2 ^ 24 ∧ (wordAddr r ra imm).1.toNat % 8 = 0 := by
  simp only [wordAddr, isCoreAddr, Bool.and_eq_true, decide_eq_true_eq, and_assoc]
  rfl

/-- A legal word lies in the core's SRAM with its 8 bytes. -/
theorem wordAddr_room {r : Reel} {ra : Nat} {imm : BitVec 12} (h : (wordAddr r ra imm).2 = true) :
    (wordAddr r ra imm).1.toNat + 8 ≤ 0x1000000 := by
  obtain ⟨-, hlt, hal⟩ := wordAddr_legal.1 h
  omega

theorem sramReads_inside (s : State) (c : Nat) {off n : Nat} (h : off + n ≤ 0x1000000) :
    sramReads s c off n = memReads s.sram (sramKey c off) n := by
  have hmin : min n (0x1000000 - off) = n := by omega
  simp [sramReads, hmin, zeros]

theorem leBytes_length (n v : Nat) : (leBytes n v).length = n := by
  induction n generalizing v with
  | zero => rfl
  | succ n ih => rw [leBytes, List.length_cons, ih]

theorem exec_ldw {q : Issue} {rd ra : Nat} {imm : BitVec 12} {s : State} (h : runs q (.ldw q rd ra imm) s)
    (ha : (wordAddr (runningReel s q.core) ra imm).2 = true) : exec (.ldw q rd ra imm) s =
      .next (modRunning (bump s (csqBase q.core + 0x48) 1) q.core fun r => (r.set rd (BitVec.ofNat 64
        (leNat (memReads s.sram (sramKey q.core (wordAddr (runningReel s q.core) ra imm).1.toNat) 8)))).next 1) := by
  rw [show exec (.ldw q rd ra imm) s = execLdw q rd ra imm s from rfl, execLdw, finlenOp_runs h]
  simp only [runningReel_bump, ha, not_true, if_false, sramReads_inside _ _ (wordAddr_room ha), bump_sram]

/-- An issue is counted before or after bytes are stored. -/
theorem sramWrites_bump (s : State) (a n p off : Nat) (d : List Byte) : sramWrites (bump s a n) p off d = bump (sramWrites s p off d) a n := (rfl)

theorem exec_stw {q : Issue} {rd ra : Nat} {imm : BitVec 12} {s : State} (h : runs q (.stw q rd ra imm) s)
    (ha : (wordAddr (runningReel s q.core) ra imm).2 = true) : exec (.stw q rd ra imm) s =
      .next (modRunning (bump (sramWrites s q.core (wordAddr (runningReel s q.core) ra imm).1.toNat
        (leBytes 8 ((runningReel s q.core).get rd).toNat)) (csqBase q.core + 0x48) 1) q.core (·.next 1)) := by
  rw [show exec (.stw q rd ra imm) s = execStw q rd ra imm s from rfl, execStw, finlenOp_runs h]
  simp only [runningReel_bump, ha, not_true, if_false, sramWrites_bump]

/-- Bytes stored inside a core's SRAM, read back anywhere. -/
theorem memRead_sramWrites_inside (s : State) (c : Nat) {off : Nat} {d : List Byte} (h : off + d.length ≤ 0x1000000) (a : Nat) :
    memRead (sramWrites s c off d).sram a =
      if sramKey c off ≤ a ∧ a < sramKey c off + d.length then d.getD (a - sramKey c off) 0 else memRead s.sram a := by
  rw [sramWrites, List.take_of_length_le (by omega)]
  exact memRead_memWrites ..

/-- Stored bytes change SRAM alone. -/
theorem sramWrites_eq (s : State) (p off : Nat) (d : List Byte) : { s with sram := (sramWrites s p off d).sram } = sramWrites s p off d := (rfl)

/-- Settles O13: LDW acts on its reel alone; STW acts so too once its 8 bytes are stored. -/
theorem finlenWordsOfMemory : Obligations.FinlenWordsOfMemory := by
  unfold Obligations.FinlenWordsOfMemory
  refine ⟨fun q rd ra imm s h ha => reelEffect (exec_ldw h ha), fun q rd ra imm s h ha => ⟨_, exec_stw h ha, ?_, ?_, fun a => ?_⟩,
    fun r ra imm => ⟨rfl, wordAddr_legal⟩⟩
  · rw [modRunning_sram, bump_sram, sramWrites_eq]
    exact frame_modRunning ..
  · rw [runningReel_modRunning, runningReel_bump, runningReel_sramWrites]
  · rw [modRunning_sram, bump_sram, memRead_sramWrites_inside s q.core (by rw [leBytes_length]; exact wordAddr_room ha), leBytes_length]

-- s0 and p0 (R205)

/-- Reading a predicate after a write. -/
theorem pred_setPred (r : Reel) {n m : Nat} (b : Bool) (h0 : n ≠ 0) (hm : m < 8) :
    (r.setPred n b).pred m = if m = n then b else r.pred m := by
  unfold Reel.setPred Reel.pred
  rw [if_neg h0]
  by_cases hmn : m = n
  · subst hmn
    cases b <;> simp [h0, hm]
  · have hbit : (1#8 <<< n).getLsbD m = false := by
      simp only [BitVec.getLsbD_shiftLeft, BitVec.getLsbD_one]
      grind
    rw [if_neg hmn]
    cases b
    · simp only [Bool.false_eq_true, if_false, BitVec.getLsbD_and, BitVec.getLsbD_not, hbit, hm, decide_true, Bool.not_false, Bool.and_true]
    · simp only [if_true, BitVec.getLsbD_or, hbit, Bool.or_false]

/-- The answer of a FETCH is written to its register (R224). -/
theorem fetchAnswer_writes {c reel rd : Nat} {s : State} {r : CtrReq} {v : Nat} (hu : (coreOk c && reelOk reel && regOk rd) = true)
    (hfast : fast s = true) (hfenced : (core s c).fenced = false)
    (hr : findReq (core s c) reel rd (fun r => !r.tcmt && r.answer.isSome && !r.killed) = some r) (hv : r.answer = some v) :
    exec (.fetchAnswer c reel rd) s = .next (setCore s c (dropReq (setReg (core s c) reel rd (BitVec.ofNat 64 v)) r.id)) := by
  show execFetchAnswer c reel rd s = _
  simp only [execFetchAnswer, hu, hr, onUnit_true, hfast, hfenced, hv]
  rfl

/-- Settles O10: writes to s0 and p0 are discarded, and the instructions that make them have their other effects. -/
theorem hardwiredRegisters : Obligations.HardwiredRegisters := by
  unfold Obligations.HardwiredRegisters
  intro r v b
  refine ⟨rfl, rfl, rfl, rfl, fun n m h0 => Reel.get_set r n m v h0, fun n m h0 _ hm => pred_setPred r b h0 hm, fun q x y imm w => ?_⟩
  obtain ⟨⟨halu, haddi, handi, hori, hxori, hslli, hsrli, hsrai, hxalu, -⟩, hcmp, hcmpi, hplog, -⟩ := finlenArithmetic
  refine ⟨fun fn => halu q fn 0 x y, haddi q 0 x imm, handi q 0 x imm, hori q 0 x imm, hxori q 0 x imm, hslli q 0 x imm, hsrli q 0 x imm,
    hsrai q 0 x imm, fun fn => hxalu q fn 0 x w, fun fn => hcmp q fn 0 x y, fun cond => hcmpi q cond 0 x imm, fun fn => hplog q fn 0 x y,
    fun s h ha => reelEffect (exec_ldw h ha), fun val s h hval => csrInstructions.1 q 0 w val s h hval, fun s h h0 hlt hroom => ?_,
    fun c reel n s e hc hreel hfast hfenced hr hn => fetchAnswer_writes (reelReg_ok hc hreel (by decide)) hfast hfenced hr hn⟩
  obtain ⟨t, ht, -, -, -, -, -, hreel⟩ := loop_enters h rfl h0 hlt hroom
  refine ⟨t, ht, ?_⟩
  rw [hreel]
  exact ⟨rfl, rfl, rfl⟩

end Sys2Proof.Machine

/-! PROOFS. The Finlen encoding: what the decoder and the encoder do to the fields of a word (R206, R207, R210 to R232, R518). -/
namespace Sys2Proof

/-- The issue that a first word carries on a core: its predicate fields (R207, R208). -/
def issueAt (c : Nat) (w : W32) : Issue := { core := c, pn := wf w 3 3 = 1, pr := wf w 2 0 }

/-- The sum of fields at their places. -/
def fieldSum (fs : List (Nat × Nat)) : Nat := (fs.map fun f => f.1 * 2 ^ f.2).sum

theorem fieldSum_nil : fieldSum [] = 0 := rfl

theorem fieldSum_cons (v lo : Nat) (fs : List (Nat × Nat)) : fieldSum ((v, lo) :: fs) = v * 2 ^ lo + fieldSum fs := by
  rw [fieldSum, List.map_cons, List.sum_cons]
  rfl

theorem mkWord_eq_ofNat (op : Nat) (q : Issue) (fs : List (Nat × Nat)) :
    mkWord op q fs = BitVec.ofNat 32 (op * 2 ^ 26 + fieldSum fs + predBits q) := by
  rw [mkWord, fieldSum, List.sum_eq_foldl, List.foldl_map]

/-- A bit of a word as the encoder writes it back. -/
theorem ite_wf_bit (w : W32) (k v : Nat) : (if decide (wf w k k = 1) then v else 0) = wf w k k * v := by
  have h : wf w k k < 2 := by
    rw [wf, Nat.add_sub_cancel_left]
    exact Nat.mod_lt _ (by decide)
  interval_cases wf w k k <;> simp

theorem predBits_issueAt (c : Nat) (w : W32) : predBits (issueAt c w) = w.toNat % 16 := by
  rw [show predBits (issueAt c w) = (if decide (wf w 3 3 = 1) then 8 else 0) + wf w 2 0 from rfl, ite_wf_bit]
  simp only [wf]
  omega

/-- A word is the encoding of its opcode and predicate with fields that make up its bits 25:4. -/
theorem mkWord_eq {c op : Nat} {w : W32} {fs : List (Nat × Nat)} (hop : fOp w = op) (hfs : fieldSum fs = wf w 25 4 * 16) :
    mkWord op (issueAt c w) fs = w := by
  apply BitVec.eq_of_toNat_eq
  rw [mkWord_eq_ofNat, predBits_issueAt, ← hop, hfs, BitVec.toNat_ofNat]
  simp only [fOp, wf]
  omega

theorem toNat_fImm (w : W32) : (fImm w).toNat = wf w 15 4 := by
  rw [fImm, BitVec.toNat_ofNat, wf]
  omega

theorem toNat_fOff (w : W32) : (fOff w).toNat = wf w 22 4 := by
  rw [fOff, BitVec.toNat_ofNat, wf]
  omega

/-- Two words are the encoding of an instruction, the second where it takes one. -/
def isEncoding (w w2 : W32) (i : Instr) : Prop := finlenEncode i = some (w, if i.long then w2 else 0) ∧ i.long = isLong w

theorem isEncoding_short {c op : Nat} {w w2 : W32} {i : Instr} {fs : List (Nat × Nat)} (hop : fOp w = op) (hlt : op < 0x38)
    (hi : finlenEncode i = some (mkWord op (issueAt c w) fs, 0)) (hlong : i.long = false) (hfs : fieldSum fs = wf w 25 4 * 16) :
    isEncoding w w2 i := by
  refine ⟨?_, ?_⟩
  · rw [hi, mkWord_eq hop hfs, hlong]
    rfl
  · rw [hlong, isLong, hop, decide_eq_false (Nat.not_le.2 hlt)]

theorem isEncoding_long {c op : Nat} {w w2 v : W32} {i : Instr} {fs : List (Nat × Nat)} (hop : fOp w = op) (hlt : 0x38 ≤ op)
    (hi : finlenEncode i = some (mkWord op (issueAt c w) fs, v)) (hlong : i.long = true) (hfs : fieldSum fs = wf w 25 4 * 16) (hv : v = w2) :
    isEncoding w w2 i := by
  refine ⟨?_, ?_⟩
  · rw [hi, mkWord_eq hop hfs, hlong, hv]
    rfl
  · rw [hlong, isLong, hop, decide_eq_true hlt]

theorem counterWord_eq {w : W32} (h : wf w 31 10 = 0) :
    BitVec.ofNat 32 ((if decide (wf w 9 9 = 1) then 512 else 0) + wf w 8 0) = w := by
  apply BitVec.eq_of_toNat_eq
  rw [ite_wf_bit, BitVec.toNat_ofNat]
  simp only [wf] at *
  omega

theorem encode_of_raw {c : Nat} {w w2 : W32} {i : Instr} (h : finlenRaw c w w2 = some i) : isEncoding w w2 i := by
  simp only [finlenRaw] at h
  split at h
  case h_1 hop | h_2 hop | h_3 hop | h_4 hop | h_5 hop | h_6 hop | h_7 hop | h_8 hop | h_20 hop | h_22 hop | h_23 hop | h_25 hop | h_26 hop | h_27 hop =>
    cases h
    refine isEncoding_short (c := c) hop (by decide) rfl rfl ?_
    simp only [fieldsS, fieldsI, fieldSum_cons, fieldSum_nil, fRd, fRa, fRb, fFn, fZ, toNat_fImm, toNat_fOff, ite_wf_bit]
    simp only [wf]
    omega
  case h_9 hop | h_10 hop | h_11 hop | h_12 hop | h_13 hop | h_14 hop | h_15 hop | h_16 hop | h_17 hop | h_18 hop | h_19 hop | h_21 hop | h_24 hop |
    h_28 hop | h_29 hop | h_30 hop | h_31 hop | h_32 hop | h_33 hop | h_34 hop =>
    obtain ⟨hz, ⟨⟩⟩ := Option.ite_none_right_eq_some.1 h
    refine isEncoding_short (c := c) hop (by decide) rfl rfl ?_
    simp only [fieldsS, fieldsI, fieldSum_cons, fieldSum_nil, fRd, fRa, fRb, fFn, fZ, toNat_fImm, toNat_fOff, wf] at hz ⊢
    omega
  case h_35 hop | h_38 hop | h_39 hop =>
    obtain ⟨hz, ⟨⟩⟩ := Option.ite_none_right_eq_some.1 h
    refine isEncoding_long (c := c) hop (by decide) rfl rfl ?_ rfl
    simp only [fieldsS, fieldSum_cons, fieldSum_nil, fRd, fRa, fRb, fFn, wf] at hz ⊢
    omega
  case h_36 hop | h_37 hop =>
    obtain ⟨⟨hz, hw2⟩, ⟨⟩⟩ := Option.ite_none_right_eq_some.1 h
    refine isEncoding_long (c := c) hop (by decide) rfl rfl ?_ (counterWord_eq hw2)
    simp only [fieldsS, fieldSum_cons, fieldSum_nil, fRd, fRa, fRb, fFn, wf] at hz ⊢
    omega
  case h_40 => cases h

-- Instruction to words and back

theorem predBits_lt {q : Issue} (hq : q.pr < 8) : predBits q < 16 := by
  rw [predBits]
  split <;> omega

theorem predBits_div {q : Issue} (hq : q.pr < 8) : predBits q / 8 = if q.pn then 1 else 0 := by
  rw [predBits]
  split <;> omega

theorem predBits_mod {q : Issue} (hq : q.pr < 8) : predBits q % 8 = q.pr := by
  rw [predBits]
  split <;> omega

/-- Fields that fit bits 25:4. -/
def fits (fs : List (Nat × Nat)) : Prop := fieldSum fs < 2 ^ 26 ∧ fieldSum fs % 16 = 0

/-- An encoded word decodes as every word with its opcode, its predicate and its bits 25:4. -/
theorem raw_mkWord {op : Nat} {q : Issue} {fs : List (Nat × Nat)} {v : W32} {o : Option Instr} (hop : op < 64) (hq : q.pr < 8) (hfs : fits fs)
    (h : ∀ w, fOp w = op → decide (wf w 3 3 = 1) = q.pn → wf w 2 0 = q.pr → wf w 25 4 * 16 = fieldSum fs → finlenRaw q.core w v = o) :
    finlenRaw q.core (mkWord op q fs) v = o := by
  obtain ⟨hlt, hdvd⟩ := hfs
  have hp := predBits_lt hq
  have hn : (mkWord op q fs).toNat = op * 2 ^ 26 + fieldSum fs + predBits q := by
    rw [mkWord_eq_ofNat, BitVec.toNat_ofNat, Nat.mod_eq_of_lt (by omega)]
  apply h
  · simp only [fOp, wf]
    omega
  · have hpn : wf (mkWord op q fs) 3 3 = predBits q / 8 := by
      simp only [wf]
      omega
    rw [hpn, predBits_div hq]
    cases q.pn <;> rfl
  · rw [← predBits_mod hq, wf]
    omega
  · simp only [wf]
    omega

theorem fits_S {rd ra rb fn : Nat} (hrd : rd < 32) (hra : ra < 32) (hrb : rb < 32) (hfn : fn < 128) : fits (fieldsS rd ra rb fn) := by
  simp only [fits, fieldsS, fieldSum_cons, fieldSum_nil]
  omega

theorem fits_I {rd ra imm : Nat} (hrd : rd < 32) (hra : ra < 32) (himm : imm < 4096) : fits (fieldsI rd ra imm) := by
  simp only [fits, fieldsI, fieldSum_cons, fieldSum_nil]
  omega

theorem fits_nil : fits [] := ⟨by decide, rfl⟩

theorem fits_single {v lo : Nat} (hlo : 4 ≤ lo) (hv : v * 2 ^ lo < 2 ^ 26) : fits [(v, lo)] := by
  rw [fits, fieldSum_cons, fieldSum_nil]
  exact ⟨hv, Nat.mod_eq_zero_of_dvd (Dvd.dvd.mul_left (pow_dvd_pow 2 hlo) v)⟩

/-- The fields of the S format, read back. -/
theorem read_S {w : W32} {rd ra rb fn : Nat} (hm : wf w 25 4 * 16 = fieldSum (fieldsS rd ra rb fn)) (hra : ra < 32)
    (hrb : rb < 32) (hfn : fn < 128) : fRd w = rd ∧ fRa w = ra ∧ fRb w = rb ∧ fFn w = fn := by
  simp only [fieldsS, fieldSum_cons, fieldSum_nil, fRd, fRa, fRb, fFn, wf] at hm ⊢
  omega

/-- The fields of the I format, read back. -/
theorem read_I {w : W32} {rd ra imm : Nat} (hm : wf w 25 4 * 16 = fieldSum (fieldsI rd ra imm)) (hra : ra < 32)
    (himm : imm < 4096) : fRd w = rd ∧ fRa w = ra ∧ wf w 15 4 = imm := by
  simp only [fieldsI, fieldSum_cons, fieldSum_nil, fRd, fRa, wf] at hm ⊢
  omega

/-- A predicate in the field of rd. -/
theorem small_rd {w : W32} {pd : Nat} (h : fRd w = pd) (hlt : pd < 8) : wf w 25 24 = 0 ∧ wf w 23 21 = pd := by
  simp only [fRd, wf] at h ⊢
  omega

/-- A predicate in the field of ra. -/
theorem small_ra {w : W32} {pa : Nat} (h : fRa w = pa) (hlt : pa < 8) : wf w 20 19 = 0 ∧ wf w 18 16 = pa := by
  simp only [fRa, wf] at h ⊢
  omega

/-- A predicate in the field of rb. -/
theorem small_rb {w : W32} {pb : Nat} (h : fRb w = pb) (hlt : pb < 8) : wf w 15 14 = 0 ∧ wf w 13 11 = pb := by
  simp only [fRb, wf] at h ⊢
  omega

theorem fImm_eq {w : W32} {imm : BitVec 12} (h : wf w 15 4 = imm.toNat) : fImm w = imm :=
  BitVec.eq_of_toNat_eq ((toNat_fImm w).trans h)

theorem fOff_eq {w : W32} {off : BitVec 19} (h : wf w 22 4 = off.toNat) : fOff w = off :=
  BitVec.eq_of_toNat_eq ((toNat_fOff w).trans h)

/-- A flag as the encoder writes it. -/
theorem bit_cases (b : Bool) : ∃ k, (if b then 1 else 0 : Nat) = k ∧ k < 2 := ⟨_, rfl, by split <;> decide⟩

/-- A flag as the decoder reads it. -/
theorem bit_read {k : Nat} {b : Bool} (h : k = if b then 1 else 0) : decide (k = 1) = b := by
  subst h
  cases b <;> rfl

/-- The second word of an instruction that names a counter. -/
theorem counterWord_read {dev : Bool} {num : Nat} (h : num < 512) :
    let w := BitVec.ofNat 32 ((if dev then 512 else 0) + num)
    wf w 31 10 = 0 ∧ decide (wf w 9 9 = 1) = dev ∧ wf w 8 0 = num := by
  intro w
  have hn : w.toNat = (if dev then 512 else 0) + num := by
    rw [BitVec.toNat_ofNat, Nat.mod_eq_of_lt (by split <;> omega)]
  have hbit : wf w 9 9 = if dev then 1 else 0 := by
    simp only [wf, hn]
    split <;> omega
  refine ⟨?_, bit_read hbit, ?_⟩
  · simp only [wf, hn]
    split <;> omega
  · simp only [wf, hn]
    split <;> omega

/-- The words of a well-formed instruction, the first word's fields read as the decoder reads them, give it back. -/
theorem raw_of_encode {i : Instr} {q : Issue} {w w2 v : W32} (hwf : i.wf = true) (hq : i.issueOf = some q)
    (henc : finlenEncode i = some (w, w2)) (hv : i.long = true → v = w2) : finlenRaw q.core w v = some i := by
  cases i <;> cases hq <;> cases henc <;>
    simp only [Instr.wf, Issue.ok, predOk, regOk, muOk, ctrOk, fenceOk, Bool.and_eq_true, Bool.or_eq_true, decide_eq_true_eq] at hwf
  case addi rd ra imm | andi rd ra imm | ori rd ra imm | xori rd ra imm | slli rd ra imm | srli rd ra imm | srai rd ra imm |
    ldw rd ra imm | stw rd ra imm =>
    refine raw_mkWord (by decide) (by omega) (fits_I (by omega) (by omega) imm.isLt) fun w hop hpn hpr hm => ?_
    obtain ⟨hrd, hra, himm⟩ := read_I hm (by omega) imm.isLt
    simp only [finlenRaw, hop, hpn, hpr, hrd, hra, fImm_eq himm]
  case alu fn rd ra rb =>
    refine raw_mkWord (by decide) (by omega) (fits_S (by omega) (by omega) (by omega) (by omega)) fun w hop hpn hpr hm => ?_
    obtain ⟨hrd, hra, hrb, hfn⟩ := read_S hm (by omega) (by omega) (by omega)
    simp only [finlenRaw, hop, hpn, hpr, hrd, hra, hrb, hfn]
  case cmp fn pd ra rb =>
    refine raw_mkWord (by decide) (by omega) (fits_S (by omega) (by omega) (by omega) (by omega)) fun w hop hpn hpr hm => ?_
    obtain ⟨hpd, hra, hrb, hfn⟩ := read_S hm (by omega) (by omega) (by omega)
    obtain ⟨hz, hpd⟩ := small_rd hpd (by omega)
    simp only [finlenRaw, hop, hpn, hpr, hz, hpd, hra, hrb, hfn, if_true]
  case cmpi cond pd ra imm =>
    refine raw_mkWord (by omega) (by omega) (fits_I (by omega) (by omega) imm.isLt) fun w hop hpn hpr hm => ?_
    obtain ⟨hpd, hra, himm⟩ := read_I hm (by omega) imm.isLt
    obtain ⟨hz, hpd⟩ := small_rd hpd (by omega)
    have hcond : cond ≤ 5 := by omega
    interval_cases cond <;> simp only [finlenRaw, hop, hpn, hpr, hz, hpd, hra, fImm_eq himm, if_true]
  case plog fn pd pa pb =>
    refine raw_mkWord (by decide) (by omega) (fits_S (by omega) (by omega) (by omega) (by omega)) fun w hop hpn hpr hm => ?_
    obtain ⟨hpd, hpa, hpb, hfn⟩ := read_S hm (by omega) (by omega) (by omega)
    obtain ⟨hz, hpd⟩ := small_rd hpd (by omega)
    obtain ⟨hza, hpa⟩ := small_ra hpa (by omega)
    obtain ⟨hzb, hpb⟩ := small_rb hpb (by omega)
    simp only [finlenRaw, hop, hpn, hpr, hz, hza, hzb, hpd, hpa, hpb, hfn, and_self, if_true]
  case loop rd ra body =>
    refine raw_mkWord (by decide) (by omega) (fits_I (by omega) (by omega) (by omega)) fun w hop hpn hpr hm => ?_
    obtain ⟨hrd, hra, hbody⟩ := read_I hm (by omega) (by omega)
    simp only [finlenRaw, hop, hpn, hpr, hrd, hra, hbody]
  case ret | lbrk | yieldReel | rexit | tend | nop =>
    refine raw_mkWord (by decide) (by omega) fits_nil fun w hop hpn hpr hm => ?_
    have hz : wf w 25 4 = 0 := by rw [fieldSum_nil] at hm; omega
    simp only [finlenRaw, hop, hpn, hpr, hz, if_true]
  case br off | call off =>
    refine raw_mkWord (by decide) (by omega) (fits_single (by decide) (by omega)) fun w hop hpn hpr hm => ?_
    obtain ⟨hz, hoff⟩ : fZ w = 0 ∧ wf w 22 4 = off.toNat := by
      simp only [fieldSum_cons, fieldSum_nil, fZ, wf] at hm ⊢
      omega
    simp only [finlenRaw, hop, hpn, hpr, hz, fOff_eq hoff, if_true]
  case rstart z off =>
    refine raw_mkWord (by decide) (by omega) (by simp only [fits, fieldSum_cons, fieldSum_nil]; omega) fun w hop hpn hpr hm => ?_
    obtain ⟨hz, hoff⟩ : fZ w = z ∧ wf w 22 4 = off.toNat := by
      simp only [fieldSum_cons, fieldSum_nil, fZ, wf] at hm ⊢
      omega
    simp only [finlenRaw, hop, hpn, hpr, hz, fOff_eq hoff]
  case cut k =>
    refine raw_mkWord (by decide) (by omega) (fits_single (by decide) (by omega)) fun w hop hpn hpr hm => ?_
    obtain ⟨hrd, hra, hk⟩ : fRd w = 0 ∧ fRa w = 0 ∧ wf w 15 4 = k := by
      simp only [fieldSum_cons, fieldSum_nil, fRd, fRa, wf] at hm ⊢
      omega
    simp only [finlenRaw, hop, hpn, hpr, hrd, hra, hk, and_self, if_true]
  case trap code =>
    refine raw_mkWord (by decide) (by omega) (fits_single (by decide) (by omega)) fun w hop hpn hpr hm => ?_
    obtain ⟨hrd, hra, hcode⟩ : fRd w = 0 ∧ fRa w = 0 ∧ wf w 15 4 = code.toNat := by
      simp only [fieldSum_cons, fieldSum_nil, fRd, fRa, wf] at hm ⊢
      omega
    simp only [finlenRaw, hop, hpn, hpr, hrd, hra, fImm_eq hcode, and_self, if_true]
  case fence fn =>
    refine raw_mkWord (by decide) (by omega) (fits_single (by decide) (by omega)) fun w hop hpn hpr hm => ?_
    obtain ⟨hrd, hra, hrb, hfn⟩ : fRd w = 0 ∧ fRa w = 0 ∧ fRb w = 0 ∧ fFn w = fn := by
      simp only [fieldSum_cons, fieldSum_nil, fRd, fRa, fRb, fFn, wf] at hm ⊢
      omega
    simp only [finlenRaw, hop, hpn, hpr, hrd, hra, hrb, hfn, and_self, if_true]
  case issue ra eng size off =>
    obtain ⟨k, hk, hlt⟩ := bit_cases size
    rw [hk]
    refine raw_mkWord (by decide) (by omega) (by simp only [fits, fieldSum_cons, fieldSum_nil]; omega) fun w hop hpn hpr hm => ?_
    obtain ⟨hra, heng, hsize, hoff⟩ : fRd w = ra ∧ wf w 20 17 = eng ∧ wf w 16 16 = k ∧ wf w 15 4 = off := by
      simp only [fieldSum_cons, fieldSum_nil, fRd, wf] at hm ⊢
      omega
    simp only [finlenRaw, hop, hpn, hpr, hra, heng, bit_read (hsize.trans hk.symm), hoff]
  case arrive ra mu ctr n rem =>
    obtain ⟨k, hk, hlt⟩ := bit_cases rem
    rw [hk]
    refine raw_mkWord (by decide) (by omega) (by simp only [fits, fieldSum_cons, fieldSum_nil]; omega) fun w hop hpn hpr hm => ?_
    obtain ⟨hra, hmu, hctr, hn, hrem⟩ : fRd w = ra ∧ wf w 20 19 = mu ∧ wf w 18 13 = ctr ∧ wf w 12 5 = n ∧ wf w 4 4 = k := by
      simp only [fieldSum_cons, fieldSum_nil, fRd, wf] at hm ⊢
      omega
    simp only [finlenRaw, hop, hpn, hpr, hra, hmu, hctr, hn, bit_read (hrem.trans hk.symm)]
  case wait mu ctr n =>
    refine raw_mkWord (by decide) (by omega) (by simp only [fits, fieldSum_cons, fieldSum_nil]; omega) fun w hop hpn hpr hm => ?_
    obtain ⟨hrd, hz, hmu, hctr, hn⟩ : fRd w = 0 ∧ wf w 4 4 = 0 ∧ wf w 20 19 = mu ∧ wf w 18 13 = ctr ∧ wf w 12 5 = n := by
      simp only [fieldSum_cons, fieldSum_nil, fRd, wf] at hm ⊢
      omega
    simp only [finlenRaw, hop, hpn, hpr, hrd, hz, hmu, hctr, hn, and_self, if_true]
  case xalu fn rd ra =>
    refine raw_mkWord (by decide) (by omega) (fits_S (by omega) (by omega) (by omega) (by omega)) fun w hop hpn hpr hm => ?_
    obtain ⟨hrd, hra, hrb, hfn⟩ := read_S hm (by omega) (by omega) (by omega)
    simp only [finlenRaw, hop, hpn, hpr, hrd, hra, hrb, hfn, if_true, hv rfl]
  case fetch rd ra rb dev num | tcmt rd ra rb dev num =>
    refine raw_mkWord (by decide) (by omega) (fits_S (by omega) (by omega) (by omega) (by omega)) fun w hop hpn hpr hm => ?_
    obtain ⟨hrd, hra, hrb, hfn⟩ := read_S hm (by omega) (by omega) (by omega)
    obtain ⟨hz, hdev, hnum⟩ := counterWord_read (dev := dev) (num := num) (by omega)
    simp only [finlenRaw, hop, hpn, hpr, hrd, hra, hrb, hfn, hv rfl, hz, hdev, hnum, and_self, if_true]
  case csrr r | csrw r =>
    refine raw_mkWord (by decide) (by omega) (fits_S (by omega) (by omega) (by omega) (by omega)) fun w hop hpn hpr hm => ?_
    obtain ⟨hrd, hra, hrb, hfn⟩ := read_S hm (by omega) (by omega) (by omega)
    simp only [finlenRaw, hop, hpn, hpr, hrd, hra, hrb, hfn, hv rfl, and_self, if_true]

/-- A command with Finlen words is an instruction of a core. -/
theorem issueOf_of_encode {i : Instr} {p : W32 × W32} (h : finlenEncode i = some p) : ∃ q, i.issueOf = some q := by
  cases i <;> cases h <;> exact ⟨_, rfl⟩

/-- Settles O6. -/
theorem finlenDecodeOfEncode : Obligations.FinlenDecodeOfEncode := by
  unfold Obligations.FinlenDecodeOfEncode
  intro i w w2 hwf henc
  obtain ⟨q, hq⟩ := issueOf_of_encode henc
  have hdec : ∀ v, (i.long = true → v = w2) → finlenDecode q.core w v = some i := fun v hv => by
    rw [finlenDecode, raw_of_encode hwf hq henc hv, Option.filter_some, if_pos hwf]
  exact ⟨q.core, hdec w2 fun _ => rfl, fun hshort v => hdec v fun hlong => by simp [hshort] at hlong⟩

/-- Settles O7. -/
theorem finlenEncodeOfDecode : Obligations.FinlenEncodeOfDecode := by
  unfold Obligations.FinlenEncodeOfDecode
  intro c w w2 i h
  obtain ⟨hraw, hwf⟩ := Option.filter_eq_some_iff.1 h
  obtain ⟨henc, hlong⟩ := encode_of_raw hraw
  exact ⟨henc, hlong, hwf⟩

end Sys2Proof

/-! PROOFS. Where Finlen instructions trap, and what ISSUE queues (R215, R216, R218, R220, R229, R231, R235, R236). -/
namespace Sys2Proof.Machine

open Sys2Proof

-- Traps of an instruction

/-- A core whose CSQ is live has not trapped. -/
theorem trapped_of_live {s : State} {c : Nat} (h : csqLive s c = true) : (core s c).trapped = false := by
  simp only [csqLive, Bool.and_eq_true, Bool.not_eq_true'] at h
  exact h.1.2

/-- What a trap before the issue writes touches only the cores and the registers. -/
theorem unissued_trap_fields (s : State) (c a1 a2 a3 : Nat) (v1 v2 v3 : W64) (f : Core → Core) :
    { cset (cset (cset (modCore s c f) a1 v1) a2 v2) a3 v3 with cores := s.cores, csr := s.csr } = s := by
  apply frame_fields <;> simp

/-- A trap of a core that has not trapped and issues nothing (R231, R235): its record, and its frame. -/
theorem trapsAt_of_unissued {q : Issue} {i : Instr} {s : State} {cause val detail : Nat} (ht : (core s q.core).trapped = false)
    (h : exec i s = .next (trapHere s q.core cause val detail)) : trapsAt q i s cause val detail := by
  refine ⟨_, h, ?_, ⟨?_, fun a => ?_, fun d hd => ?_, fun a ha => ?_⟩, ?_, ?_, ?_⟩
  · simp [trapHere, trapCore, ht]
  · simp only [trapHere, trapCore, ht, Bool.false_eq_true, if_false]
    exact unissued_trap_fields ..
  · simp only [trapHere, trapCore, ht, Bool.false_eq_true, if_false]
    exact devByte_congr (by simp) (by simp) (by simp) a
  · simp [trapHere, trapCore, ht, hd]
  · simp only [List.mem_cons, List.not_mem_nil, or_false, not_or] at ha
    simp [trapHere, trapCore, ht, ha]
  · simp [trapHere, trapCore, ht, pack]
  · simp [trapHere, trapCore, ht, runningReel]
  · simp [trapHere, trapCore, ht]

/-- A reel whose PC has left the loaded code traps, whatever it would issue (R231). -/
theorem exec_of_range {q : Issue} {i : Instr} {s : State} (hi : i.issueOf = some q) (hq : q.ok) (hwf : i.wf = true)
    (hlive : csqLive s q.core = true) (hstarted : (runningReel s q.core).started = true) (hfree : (runningReel s q.core).hold = .free)
    (hpc : (core s q.core).code.length ≤ (runningReel s q.core).pc) :
    exec i s = .next (trapHere s q.core 0x14 (runningReel s q.core).pc 0) := by
  obtain ⟨run, hexec⟩ := exec_eq_finlen hi s
  simp [hexec, finlen, hq, hwf, hlive, hstarted, hfree, hpc]

theorem trap_traps {q : Issue} {code : BitVec 12} {s : State} (h : runs q (.trap q code) s) :
    trapsAt q (.trap q code) s 0x01 0 code.toNat := by
  refine trapsAt_of (trapped_of_runs h) ?_
  rw [show exec (.trap q code) s = execTrap q code s from rfl, execTrap, finlenOp_runs h]

theorem loop_traps_count {q : Issue} {rd ra body n : Nat} {s : State} (h : runs q (.loop q rd ra body) s)
    (hn : ((runningReel s q.core).get ra).toNat = n) (hle : 2 ^ 32 ≤ n) : trapsAt q (.loop q rd ra body) s 0x03 n 0 := by
  refine trapsAt_of (trapped_of_runs h) ?_
  rw [show exec (.loop q rd ra body) s = execLoop q rd ra body s from rfl, execLoop, finlen_runs h]
  simp only [runningReel_bump, hn]
  rw [if_pos hle]

theorem loop_traps_depth {q : Issue} {rd ra body n : Nat} {s : State} (h : runs q (.loop q rd ra body) s)
    (hn : ((runningReel s q.core).get ra).toNat = n) (h0 : 0 < n) (hlt : n < 2 ^ 32) (hfull : 4 ≤ (runningReel s q.core).loops.length) :
    trapsAt q (.loop q rd ra body) s 0x02 n 0 := by
  refine trapsAt_of (trapped_of_runs h) ?_
  rw [show exec (.loop q rd ra body) s = execLoop q rd ra body s from rfl, execLoop, finlen_runs h]
  simp only [runningReel_bump, hn]
  rw [if_neg (Nat.not_le.2 hlt), if_neg (Nat.ne_of_gt h0), if_pos hfull]

theorem lbrk_traps {q : Issue} {s : State} (h : runs q (.lbrk q) s) (hl : (runningReel s q.core).loops = []) :
    trapsAt q (.lbrk q) s 0x04 0 0 := by
  refine trapsAt_of (trapped_of_runs h) ?_
  rw [show exec (.lbrk q) s = execLbrk q s from rfl, execLbrk, finlenOp_runs h]
  simp only [runningReel_bump, hl]

theorem call_traps {q : Issue} {off : BitVec 19} {s : State} (h : runs q (.call q off) s) (hfull : 8 ≤ (runningReel s q.core).rets.length) :
    trapsAt q (.call q off) s 0x05 (target (runningReel s q.core).pc off) 0 := by
  refine trapsAt_of (trapped_of_runs h) ?_
  rw [show exec (.call q off) s = execCall q off s from rfl, execCall, finlenOp_runs h]
  simp only [runningReel_bump, if_pos hfull]

theorem ret_traps {q : Issue} {s : State} (h : runs q (.ret q) s) (hr : (runningReel s q.core).rets = []) :
    trapsAt q (.ret q) s 0x06 0 0 := by
  refine trapsAt_of (trapped_of_runs h) ?_
  rw [show exec (.ret q) s = execRet q s from rfl, execRet, finlenOp_runs h]
  simp only [runningReel_bump, hr]

theorem ldw_traps {q : Issue} {rd ra : Nat} {imm : BitVec 12} {s : State} (h : runs q (.ldw q rd ra imm) s)
    (ha : (wordAddr (runningReel s q.core) ra imm).2 = false) :
    trapsAt q (.ldw q rd ra imm) s 0x0A (wordAddr (runningReel s q.core) ra imm).1.toNat 0 := by
  refine trapsAt_of (trapped_of_runs h) ?_
  rw [show exec (.ldw q rd ra imm) s = execLdw q rd ra imm s from rfl, execLdw, finlenOp_runs h]
  simp only [runningReel_bump, ha, Bool.false_eq_true, not_false_eq_true, if_true]

theorem stw_traps {q : Issue} {rd ra : Nat} {imm : BitVec 12} {s : State} (h : runs q (.stw q rd ra imm) s)
    (ha : (wordAddr (runningReel s q.core) ra imm).2 = false) :
    trapsAt q (.stw q rd ra imm) s 0x0A (wordAddr (runningReel s q.core) ra imm).1.toNat 0 := by
  refine trapsAt_of (trapped_of_runs h) ?_
  rw [show exec (.stw q rd ra imm) s = execStw q rd ra imm s from rfl, execStw, finlenOp_runs h]
  simp only [runningReel_bump, ha, Bool.false_eq_true, not_false_eq_true, if_true]

theorem rstart_traps {q : Issue} {z : Nat} {off : BitVec 19} {s : State} (h : runs q (.rstart q z off) s)
    (hz : (reelOf (core s q.core) z).started = true) : trapsAt q (.rstart q z off) s 0x13 z 0 := by
  refine trapsAt_of (trapped_of_runs h) ?_
  rw [show exec (.rstart q z off) s = execRstart q z off s from rfl, execRstart, finlenOp_runs h]
  simp only [core_bump, hz, if_true]

theorem rexit_traps {q : Issue} {s : State} (h : runs q (.rexit q) s) (h0 : (core s q.core).running = 0) :
    trapsAt q (.rexit q) s 0x13 0 0 := by
  refine trapsAt_of (trapped_of_runs h) ?_
  rw [show exec (.rexit q) s = execRexit q s from rfl, execRexit, finlenOp_runs h]
  simp only [core_bump, h0, if_true]

-- ISSUE (R220)

/-- Bytes of a descriptor. -/
def descLen (size : Bool) : Nat := if size then 128 else 64

/-- An address that ISSUE accepts: a core address, aligned at 64 B, whose descriptor lies in one MU. -/
def issueGood (a : Nat) (size : Bool) : Prop := a < 2 ^ 24 ∧ a % 64 = 0 ∧ inMu a (descLen size) = true

theorem issueGood_iff (a : Nat) (size : Bool) :
    (isCoreAddr a = true ∧ a % 64 = 0 ∧ inMu a (if size then 128 else 64) = true) ↔ issueGood a size := by
  rw [isCoreAddr, decide_eq_true_eq]
  rfl

theorem issue_traps_address {q : Issue} {ra eng off a : Nat} {size : Bool} {s : State} (h : runs q (.issue q ra eng size off) s)
    (ha : issueAddr (runningReel s q.core) ra off = a) (hbad : ¬ issueGood a size) : trapsAt q (.issue q ra eng size off) s 0x07 a 0 := by
  refine trapsAt_of (trapped_of_runs h) ?_
  rw [show exec (.issue q ra eng size off) s = execIssue q ra eng size off s from rfl, execIssue]
  simp only [ha, issueGood_iff, hbad, not_false_eq_true, true_or, decide_true, finlenWait_runs h, if_true]

/-- An ISSUE to a queue that is full waits (R220). -/
theorem issue_waits {q : Issue} {ra eng off a : Nat} {size : Bool} {s : State} (h : runs q (.issue q ra eng size off) s)
    (ha : issueAddr (runningReel s q.core) ra off = a) (hgood : issueGood a size)
    (hfull : queueDepth eng ≤ (queueOf (core s q.core) (issueQueue s q.core eng a size)).length) :
    exec (.issue q ra eng size off) s = .next s := by
  rw [show exec (.issue q ra eng size off) s = execIssue q ra eng size off s from rfl, execIssue]
  simp only [ha, issueGood_iff, hgood, not_true, false_or, Nat.not_lt.2 hfull, decide_false, finlenWait, finlenOp_runs h, Bool.false_eq_true,
    if_false]

theorem cfgOf_bump (s : State) (a n c k : Nat) : cfgOf (bump s a n) c k = cfgOf s c k := (rfl)

/-- The field of a descriptor that ISSUE finds reserved, if there is one (R220). -/
def issueBad (s : State) (c a : Nat) (b : List Byte) : Option Nat :=
  descBad (indexOf (core s c)) (rectOf (core s c)) (a / muBytes) ((cfgOf s c (vceBase c)).getLsbD 0) b

section issue

variable {q : Issue} {ra eng off a key : Nat} {size : Bool} {b : List Byte} {s : State} (h : runs q (.issue q ra eng size off) s)
  (ha : issueAddr (runningReel s q.core) ra off = a) (hb : sramReads s q.core a (if size then 128 else 64) = b) (hkey : issueQueue s q.core eng a size = key)
  (hgood : issueGood a size) (hroom : (queueOf (core s q.core) key).length < queueDepth eng)

include h ha hb hkey hgood hroom

/-- What ISSUE does at a good address whose queue has room: it traps on the descriptor's type or on a field, or queues it (R220). -/
theorem exec_issue_of_room :
    let u := bump s (csqBase q.core + 0x48) 1
    exec (.issue q ra eng size off) s = .next (if dEng b = eng ∧ dSize b = size ∧ typeOk b = true then
      (issueBad s q.core a b).elim (stepPc (enqueue u q.core key b) q.core (.issue q ra eng size off))
        (trapHere u q.core 0x09 · 0)
      else trapHere u q.core 0x08 (fld b 0 8) 0) := by
  rw [show exec (.issue q ra eng size off) s = execIssue q ra eng size off s from rfl, execIssue]
  simp only [ha, hb, hkey, issueGood_iff, hgood, not_true, false_or, hroom, decide_true, finlenWait_runs h, if_false, cfgOf_bump]
  by_cases ht : dEng b = eng ∧ dSize b = size ∧ typeOk b = true
  · obtain ⟨he, hs, ht⟩ := ht
    simp only [he, hs, ht, ne_eq, not_true, false_or, and_self, if_false, if_true]
    rw [issueBad]
    split
    · next o ho => rw [ho, Option.elim_some]
    · next ho => rw [ho, Option.elim_none]
  · rw [if_neg ht, if_pos (by simpa only [not_and_or] using ht)]

theorem issue_traps_type (ht : ¬(dEng b = eng ∧ dSize b = size ∧ typeOk b = true)) :
    trapsAt q (.issue q ra eng size off) s 0x08 (fld b 0 8) 0 :=
  trapsAt_of (trapped_of_runs h) ((exec_issue_of_room h ha hb hkey hgood hroom).trans (by rw [if_neg ht]))

theorem issue_traps_field {o : Nat} (ht : dEng b = eng ∧ dSize b = size ∧ typeOk b = true) (ho : issueBad s q.core a b = some o) :
    trapsAt q (.issue q ra eng size off) s 0x09 o 0 :=
  trapsAt_of (trapped_of_runs h) ((exec_issue_of_room h ha hb hkey hgood hroom).trans (by rw [if_pos ht, ho, Option.elim_some]))

theorem exec_issue_queues (ht : dEng b = eng ∧ dSize b = size ∧ typeOk b = true) (ho : issueBad s q.core a b = none) :
    exec (.issue q ra eng size off) s =
      .next (stepPc (enqueue (bump s (csqBase q.core + 0x48) 1) q.core key b) q.core (.issue q ra eng size off)) :=
  (exec_issue_of_room h ha hb hkey hgood hroom).trans (by rw [if_pos ht, ho, Option.elim_none])

end issue

/-- Settles O14, trap by trap. -/
theorem finlenTraps : Obligations.FinlenTraps := by
  unfold Obligations.FinlenTraps
  refine ⟨⟨fun q code s h => trap_traps h, fun q rd ra body s h => ⟨loop_traps_count h rfl, loop_traps_depth h rfl⟩,
    fun q s h => lbrk_traps h, fun q off s h => call_traps h, fun q s h => ret_traps h, fun q rd ra imm s h => ldw_traps h,
    fun q rd ra imm s h => stw_traps h, fun q z off s h => rstart_traps h, fun q s h => rexit_traps h,
    fun q i s hi hq hwf hlive hstarted hfree hpc =>
      trapsAt_of_unissued (trapped_of_live hlive) (exec_of_range hi hq hwf hlive hstarted hfree hpc)⟩, fun q ra eng size off s h => ?_⟩
  exact ⟨fun hbad => issue_traps_address h rfl hbad, fun hgood hroom => ⟨fun ht => issue_traps_type h rfl rfl rfl hgood hroom ht,
    fun heng hsize htype o ho => issue_traps_field h rfl rfl rfl hgood hroom ⟨heng, hsize, htype⟩ ho⟩,
    fun hgood hfull => issue_waits h rfl hgood hfull⟩

-- What an ISSUE queues (R220)

/-- The end of an instruction leaves the queues and the issue numbers of the cores alone. -/
theorem stepPc_queues (s : State) (c d : Nat) (i : Instr) :
    (core (stepPc s c i) d).issued = (core s d).issued ∧ ∀ k, queueOf (core (stepPc s c i) d) k = queueOf (core s d) k := by
  by_cases h : d = c
  · simp [stepPc, withReel, queueOf, h]
  · simp [stepPc, h]

/-- A waiter that joins a barrier counter leaves the queues and the issue number alone. -/
theorem joinBar_queues {x y : Core} {mu ctr : Nat} {w : Waiter} (h : joinBar x mu ctr w = some y) :
    y.issued = x.issued ∧ y.queues = x.queues := by
  obtain ⟨-, rfl⟩ := joinBar_eq_some_iff.1 h
  exact ⟨rfl, rfl⟩

/-- A descriptor at a queue's head that joins its START counter is only marked so. -/
theorem joinHead_queues {α : Type} {f : QDesc → α} (hf : ∀ d, f { d with joined := true } = f d) (x : Core) (key : Nat) :
    (joinHead x key).issued = x.issued ∧ ∀ k, (queueOf (joinHead x key) k).map f = (queueOf x k).map f := by
  unfold joinHead
  split
  · next d l hq =>
    dsimp only
    split
    · exact ⟨rfl, fun _ => rfl⟩
    · split
      · next y hy =>
        obtain ⟨hissued, hqueues⟩ := joinBar_queues hy
        refine ⟨hissued, fun k => ?_⟩
        have hy : queueOf y = queueOf x := funext fun k => by rw [queueOf, queueOf, hqueues]
        rw [setHead, queueOf_withQueue, hy]
        split
        · next hk => rw [hk, hq, List.tail_cons, List.map_cons, List.map_cons, hf]
        · rfl
      · exact ⟨rfl, fun _ => rfl⟩
  · exact ⟨rfl, fun _ => rfl⟩

/-- Heads that join their START counters are only marked so. -/
theorem joinHeads_queues {α : Type} {f : QDesc → α} (hf : ∀ d, f { d with joined := true } = f d) (x : Core) :
    (joinHeads x).issued = x.issued ∧ ∀ k, (queueOf (joinHeads x) k).map f = (queueOf x k).map f :=
  List.foldlRecOn queueKeys joinHead (motive := fun y => y.issued = x.issued ∧ ∀ k, (queueOf y k).map f = (queueOf x k).map f)
    ⟨rfl, fun _ => rfl⟩ fun y ⟨hissued, hqueue⟩ key _ =>
      ⟨(joinHead_queues hf y key).1.trans hissued, fun k => ((joinHead_queues hf y key).2 k).trans (hqueue k)⟩

/-- An actual length is not what an issue counts. -/
theorem cget_alAddr_bump (s : State) (c n : Nat) : cget (bump s (csqBase c + 0x48) 1) (alAddr c n) = cget s (alAddr c n) := by
  rw [cget_bump, if_neg]
  rw [alAddr]
  omega

/-- The queue's copy of a descriptor, as ISSUE makes it. -/
def issuedDesc (s : State) (c : Nat) (b : List Byte) : QDesc :=
  let ext := effExtents (fun n => (cget s (alAddr c n)).toNat) b
  { id := (core s c).issued + 1, bytes := b, ext := ext, skip := isSkip b ext, joined := false, released := false }

theorem core_enqueue (s : State) (c key : Nat) (b : List Byte) : core (enqueue s c key b) c =
    joinHeads (withQueue (nextId (core s c)).2 key (queueOf (core s c) key ++ [issuedDesc s c b])) := by
  rw [enqueue, core_modCore, if_pos rfl]
  rfl

/-- A descriptor that is queued takes the next issue number and the end of its queue. -/
theorem enqueue_queues {α : Type} {f : QDesc → α} (hf : ∀ d, f { d with joined := true } = f d) (s : State) (c key : Nat) (b : List Byte) :
    (core (enqueue s c key b) c).issued = (core s c).issued + 1 ∧
      (queueOf (core (enqueue s c key b) c) key).map f = (queueOf (core s c) key).map f ++ [f (issuedDesc s c b)] ∧
      ∀ k, k ≠ key → (queueOf (core (enqueue s c key b) c) k).map f = (queueOf (core s c) k).map f := by
  rw [core_enqueue]
  obtain ⟨hissued, hqueue⟩ := joinHeads_queues hf
    (withQueue (nextId (core s c)).2 key (queueOf (core s c) key ++ [issuedDesc s c b]))
  refine ⟨hissued, ?_, fun k hk => ?_⟩
  · rw [hqueue, queueOf_withQueue, if_pos rfl, List.map_append, List.map_singleton]
  · rw [hqueue, queueOf_withQueue, if_neg hk]
    rfl

/-- What an ISSUE that queues its descriptor leaves of the rest. -/
theorem frame_enqueue (s : State) (c key : Nat) (b : List Byte) (i : Instr) :
    frameCore s (stepPc (enqueue (bump s (csqBase c + 0x48) 1) c key b) c i) c [csqBase c + 0x48] := by
  refine ⟨?_, fun a => devByte_congr (by simp [stepPc, enqueue]) (by simp [stepPc, enqueue]) (by simp [stepPc, enqueue]) a, fun d hd => ?_,
    fun a ha => ?_⟩
  · apply frame_fields <;> simp [stepPc, enqueue]
  · simp [stepPc, enqueue, hd]
  · simp only [List.mem_singleton] at ha
    simp [stepPc, enqueue, ha]

theorem issuedDesc_bump (s : State) (c : Nat) (b : List Byte) : issuedDesc (bump s (csqBase c + 0x48) 1) c b = issuedDesc s c b := by
  simp only [issuedDesc, cget_alAddr_bump, core_bump]

/-- What an ISSUE that queues its descriptor does to the queues of its core. -/
theorem issued_queues {α : Type} {f : QDesc → α} (hf : ∀ d, f { d with joined := true } = f d) (s : State) (c key : Nat) (b : List Byte)
    (i : Instr) :
    let x := core (stepPc (enqueue (bump s (csqBase c + 0x48) 1) c key b) c i) c
    x.issued = (core s c).issued + 1 ∧ (queueOf x key).map f = (queueOf (core s c) key).map f ++ [f (issuedDesc s c b)] ∧
      ∀ k, k ≠ key → (queueOf x k).map f = (queueOf (core s c) k).map f := by
  have h := enqueue_queues hf (bump s (csqBase c + 0x48) 1) c key b
  simp only [core_bump, issuedDesc_bump] at h
  simp only [stepPc_queues]
  exact h

/-- An ISSUE that finds nothing wrong queues the copy of its descriptor. -/
theorem issue_queues {q : Issue} {ra eng off a key : Nat} {size : Bool} {b : List Byte} {s : State} (h : runs q (.issue q ra eng size off) s)
    (ha : issueAddr (runningReel s q.core) ra off = a) (hb : sramReads s q.core a (if size then 128 else 64) = b)
    (hkey : issueQueue s q.core eng a size = key) (hgood : issueGood a size)
    (hroom : (queueOf (core s q.core) key).length < queueDepth eng) (ht : dEng b = eng ∧ dSize b = size ∧ typeOk b = true)
    (ho : issueBad s q.core a b = none) :
    ∃ t, exec (.issue q ra eng size off) s = .next t ∧ frameCore s t q.core [csqBase q.core + 0x48] ∧
      (core t q.core).issued = (core s q.core).issued + 1 ∧
      (queueOf (core t q.core) key).map (fun d => (d.id, d.bytes, d.ext, d.skip)) =
        (queueOf (core s q.core) key).map (fun d => (d.id, d.bytes, d.ext, d.skip)) ++
          [((core s q.core).issued + 1, b, effExtents (fun n => (cget s (alAddr q.core n)).toNat) b,
            isSkip b (effExtents (fun n => (cget s (alAddr q.core n)).toNat) b))] ∧
      ∀ k, k ≠ key → (queueOf (core t q.core) k).map (·.bytes) = (queueOf (core s q.core) k).map (·.bytes) := by
  refine ⟨_, exec_issue_queues h ha hb hkey hgood hroom ht ho, frame_enqueue .., ?_⟩
  obtain ⟨hissued, hqueue, -⟩ :=
    issued_queues (f := fun d => (d.id, d.bytes, d.ext, d.skip)) (fun _ => rfl) s q.core key b (.issue q ra eng size off)
  obtain ⟨-, -, hothers⟩ := issued_queues (f := QDesc.bytes) (fun _ => rfl) s q.core key b (.issue q ra eng size off)
  exact ⟨hissued, hqueue, hothers⟩

/-- Settles O15: an ISSUE that meets its conditions queues its descriptor. -/
theorem issueQueuesDescriptor : Obligations.IssueQueuesDescriptor := by
  unfold Obligations.IssueQueuesDescriptor
  intro q ra eng size off s h c a len b key hlt hal hmu hroom heng hsize htype hbad
  exact issue_queues h rfl rfl rfl ⟨hlt, hal, hmu⟩ hroom ⟨heng, hsize, htype⟩ hbad

end Sys2Proof.Machine

/-! PROOFS. Reels (R229, R238). -/
namespace Sys2Proof.Machine

open Sys2Proof

theorem exec_rstart {q : Issue} {z : Nat} {off : BitVec 19} {s : State} (h : runs q (.rstart q z off) s)
    (hz : (reelOf (core s q.core) z).started = false) : exec (.rstart q z off) s =
      .next (stepPc (modCore (bump s (csqBase q.core + 0x48) 1) q.core fun x =>
        withReel x z (startedReel (runningReel s q.core) (target (runningReel s q.core).pc off))) q.core (.rstart q z off)) := by
  rw [show exec (.rstart q z off) s = execRstart q z off s from rfl, execRstart, finlenOp_runs h]
  simp only [core_bump, runningReel_bump, hz, Bool.false_eq_true, if_false]
  rfl

/-- A reel that is not started is not the one that runs. -/
theorem ne_running_of_runs {q : Issue} {i : Instr} {s : State} {z : Nat} (h : runs q i s) (hz : (reelOf (core s q.core) z).started = false) :
    z ≠ (core s q.core).running := by
  rintro rfl
  obtain ⟨⟨-, -, -, hstarted, -⟩, -⟩ := h
  rw [runningReel, hz] at hstarted
  cases hstarted

/-- RSTART changes the reel that it starts and the PC of its own. -/
theorem rstart_starts {q : Issue} {z : Nat} {off : BitVec 19} {s : State} (h : runs q (.rstart q z off) s)
    (hz : (reelOf (core s q.core) z).started = false) :
    ∃ t, exec (.rstart q z off) s = .next t ∧ frameCore s t q.core [csqBase q.core + 0x48] ∧
      reelOf (core t q.core) z = startedReel (runningReel s q.core) (target (runningReel s q.core).pc off) ∧
      runningReel t q.core = (runningReel s q.core).next 1 := by
  have hne := ne_running_of_runs h hz
  refine ⟨_, exec_rstart h hz, ⟨?_, fun a => devByte_congr (by simp [stepPc]) (by simp [stepPc]) (by simp [stepPc]) a, fun d hd => ?_,
    fun a ha => ?_⟩, ?_, ?_⟩
  · apply frame_fields <;> simp [stepPc]
  · simp [stepPc, hd]
  · simp only [List.mem_singleton] at ha
    simp [stepPc, ha]
  · simp [stepPc, withReel_running, hne]
  · simp [stepPc, runningReel, withReel_running, Ne.symm hne, wordsOf, Instr.long]

/-- YIELD is counted and goes on, and then the next reel with input has the issue. -/
theorem yield_switches {q : Issue} {s : State} (h : runs q (.yieldReel q) s) :
    ∃ u, exec (.yieldReel q) s = .next (setCore u q.core { core u q.core with
        running := (nextReel u q.core).getD (core s q.core).running }) ∧
      frameReel s u q.core ∧ runningReel u q.core = (runningReel s q.core).next 1 := by
  refine ⟨stepPc (bump s (csqBase q.core + 0x48) 1) q.core (.yieldReel q), ?_, frame_modRunning .., ?_⟩
  · rw [show exec (.yieldReel q) s = execYieldReel q s from rfl, execYieldReel, finlenOp_runs h, switchReel]
    simp [stepPc, withReel_running]
  · rw [stepPc, runningReel_modRunning, runningReel_bump]
    rfl

/-- The requests of a reel that ends, of which nothing reaches it any more (R229). -/
def killReqs (r : Nat) (l : List CtrReq) : List CtrReq := l.map fun x => if x.reel = r then { x with killed := true } else x

/-- A core whose running reel has ended. -/
def exited (x : Core) : Core := withReel { x with ctrReqs := killReqs x.running x.ctrReqs } x.running {}

theorem exec_rexit {q : Issue} {s : State} (h : runs q (.rexit q) s) (h0 : (core s q.core).running ≠ 0) :
    exec (.rexit q) s = .next (switchReel (modCore (bump s (csqBase q.core + 0x48) 1) q.core exited) q.core) := by
  rw [show exec (.rexit q) s = execRexit q s from rfl, execRexit, finlenOp_runs h]
  simp only [core_bump, if_neg h0]
  rfl

/-- REXIT ends its reel and kills its requests. -/
theorem rexit_ends {q : Issue} {s : State} (h : runs q (.rexit q) s) (h0 : (core s q.core).running ≠ 0) :
    ∃ t, exec (.rexit q) s = .next t ∧ frameCore s t q.core [csqBase q.core + 0x48] ∧
      reelOf (core t q.core) (core s q.core).running = {} ∧
      (core t q.core).ctrReqs = killReqs (core s q.core).running (core s q.core).ctrReqs := by
  refine ⟨_, exec_rexit h h0, ⟨?_, fun a => devByte_congr (by simp [switchReel]) (by simp [switchReel]) (by simp [switchReel]) a,
    fun d hd => ?_, fun a ha => ?_⟩, ?_, ?_⟩
  · apply frame_fields <;> simp [switchReel]
  · simp [switchReel, hd]
  · simp only [List.mem_singleton] at ha
    simp [switchReel, ha]
  · simp [switchReel, exited, reelOf, withReel]
  · simp [switchReel, exited, withReel]

/-- Settles O17, instruction by instruction. -/
theorem reelInstructions : Obligations.ReelInstructions := by
  unfold Obligations.ReelInstructions
  exact ⟨fun q z off s h hz => rstart_starts h hz, fun q s h => yield_switches h, fun q s h h0 => rexit_ends h h0⟩

end Sys2Proof.Machine

/-! PROOFS. Fences, cuts and the end of a take (R228, R230, R231). -/
namespace Sys2Proof.Machine

open Sys2Proof

/-- The cut that a core recorded last stands in another register than its count of issues. -/
theorem cutLast_bump (s : State) (c n : Nat) : cutLast (bump s (csqBase c + 0x48) n) c = cutLast s c := by
  rw [cutLast, cget_bump, if_neg (by omega), ← cutLast]

theorem mateAtCut_bump (s : State) (a n c : Nat) (p : Nat → Bool) : mateAtCut (bump s a n) c p = mateAtCut s c p := (rfl)

/-- An instruction that goes on and is held until what was sent before it is complete, the issue counted. -/
def heldAt (s : State) (c : Nat) (i : Instr) (h : Hold) : State :=
  modRunning (stepPc (bump s (csqBase c + 0x48) 1) c i) c fun r => { r with hold := h }

/-- A held instruction changes its own reel, which stands past it. -/
theorem frame_heldAt (s : State) (c : Nat) (i : Instr) (h : Hold) : frameReel s (heldAt s c i h) c ∧
    runningReel (heldAt s c i h) c = { (runningReel s c).next (wordsOf i) with hold := h } := by
  refine ⟨⟨⟨?_, fun a => devByte_congr (by simp [heldAt, stepPc]) (by simp [heldAt, stepPc]) (by simp [heldAt, stepPc]) a,
    fun d hd => ?_, fun a ha => ?_⟩, ?_, fun r hr => ?_, ?_⟩, ?_⟩
  · apply frame_fields <;> simp [heldAt, stepPc]
  · simp [heldAt, stepPc, hd]
  · simp only [List.mem_singleton] at ha
    simp [heldAt, stepPc, ha]
  · simp [heldAt, stepPc, withReel]
  · simp [heldAt, stepPc, withReel_running, hr]
  · simp [heldAt, stepPc]
  · simp [heldAt, stepPc]

-- FENCE, CUT and TEND as they issue

theorem exec_fence {q : Issue} {fn : Nat} {s : State} (h : runs q (.fence q fn) s) :
    exec (.fence q fn) s = .next (heldAt s q.core (.fence q fn) (.fence fn ((core s q.core).issued + 1))) := by
  rw [show exec (.fence q fn) s = execFence q fn s from rfl, execFence, finlenOp_runs h]
  simp only [(stepPc_queues ..).1, core_bump]
  rfl

theorem exec_cut {q : Issue} {k : Nat} {s : State} (h : runs q (.cut q k) s) : exec (.cut q k) s = .next (
    if (core s q.core).running ≠ 0 ∨ (runningReel s q.core).loops ≠ [] ∨ (runningReel s q.core).rets ≠ [] ∨ othersStarted (core s q.core) then
      trapHere (bump s (csqBase q.core + 0x48) 1) q.core 0x12 k 0
    else if k ≤ cutLast s q.core ∨ mateAtCut s q.core (· ≠ k) then trapHere (bump s (csqBase q.core + 0x48) 1) q.core 0x11 k 0
    else heldAt s q.core (.cut q k) (.cut k ((core s q.core).issued + 1))) := by
  rw [show exec (.cut q k) s = execCut q k s from rfl, execCut, finlenOp_runs h]
  simp only [(stepPc_queues ..).1, core_bump, runningReel_bump, cutLast_bump, mateAtCut_bump]
  rfl

/-- Beside reels that are started, a TEND of reel 0 waits. -/
theorem tend_waits {q : Issue} {s : State} (h : runs q (.tend q) s) (h0 : (core s q.core).running = 0)
    (ho : othersStarted (core s q.core) = true) : exec (.tend q) s = .next s := by
  rw [show exec (.tend q) s = execTend q s from rfl, execTend, finlenWait, finlenOp_runs h]
  simp [h0, ho]

theorem exec_tend {q : Issue} {s : State} (h : runs q (.tend q) s)
    (hready : (decide ((core s q.core).running ≠ 0) || !othersStarted (core s q.core)) = true) : exec (.tend q) s = .next (
    if (core s q.core).running ≠ 0 then trapHere (bump s (csqBase q.core + 0x48) 1) q.core 0x13 (core s q.core).running 0
    else if mateAtCut s q.core fun _ => true then trapHere (bump s (csqBase q.core + 0x48) 1) q.core 0x11 0 0
    else heldAt s q.core (.tend q) (.tend ((core s q.core).issued + 1))) := by
  rw [show exec (.tend q) s = execTend q s from rfl, execTend, hready, finlenWait_runs h]
  simp only [(stepPc_queues ..).1, core_bump, mateAtCut_bump]
  rfl

theorem fence_holds {q : Issue} {fn : Nat} {s : State} (h : runs q (.fence q fn) s) :
    ∃ t, exec (.fence q fn) s = .next t ∧ frameReel s t q.core ∧
      runningReel t q.core = { (runningReel s q.core).next 1 with hold := .fence fn ((core s q.core).issued + 1) } :=
  ⟨_, exec_fence h, frame_heldAt ..⟩

/-- A CUT with a stack that is not empty, in another reel than 0 or beside other reels traps. -/
theorem cut_trapsContext {q : Issue} {k : Nat} {s : State} (h : runs q (.cut q k) s)
    (hctx : ¬((core s q.core).running = 0 ∧ (runningReel s q.core).loops = [] ∧ (runningReel s q.core).rets = [] ∧
      othersStarted (core s q.core) = false)) : trapsAt q (.cut q k) s 0x12 k 0 := by
  refine trapsAt_of (trapped_of_runs h) ?_
  rw [exec_cut h, if_pos]
  rwa [← Bool.not_eq_true, not_and_or, not_and_or, not_and_or, not_not] at hctx

/-- A CUT of a number not above the last one, or that another core's cut contradicts, traps. -/
theorem cut_trapsOrder {q : Issue} {k : Nat} {s : State} (h : runs q (.cut q k) s) (h0 : (core s q.core).running = 0)
    (hl : (runningReel s q.core).loops = []) (hr : (runningReel s q.core).rets = []) (ho : othersStarted (core s q.core) = false)
    (hk : k ≤ cutLast s q.core ∨ mateAtCut s q.core (· ≠ k) = true) : trapsAt q (.cut q k) s 0x11 k 0 := by
  refine trapsAt_of (trapped_of_runs h) ?_
  rw [exec_cut h, if_neg (by simp [h0, hl, hr, ho]), if_pos hk]

theorem cut_holds {q : Issue} {k : Nat} {s : State} (h : runs q (.cut q k) s) (h0 : (core s q.core).running = 0)
    (hl : (runningReel s q.core).loops = []) (hr : (runningReel s q.core).rets = []) (ho : othersStarted (core s q.core) = false)
    (hk : cutLast s q.core < k) (hm : mateAtCut s q.core (· ≠ k) = false) : ∃ t, exec (.cut q k) s = .next t ∧ frameReel s t q.core ∧
      runningReel t q.core = { (runningReel s q.core).next 1 with hold := .cut k ((core s q.core).issued + 1) } := by
  have hgood : ¬(k ≤ cutLast s q.core ∨ mateAtCut s q.core (· ≠ k) = true) := by
    rw [hm]
    simp [hk]
  refine ⟨heldAt s q.core (.cut q k) (.cut k ((core s q.core).issued + 1)), ?_, frame_heldAt ..⟩
  rw [exec_cut h, if_neg (by simp [h0, hl, hr, ho]), if_neg hgood]

theorem tend_trapsReel {q : Issue} {s : State} (h : runs q (.tend q) s) (h0 : (core s q.core).running ≠ 0) :
    trapsAt q (.tend q) s 0x13 (core s q.core).running 0 := by
  refine trapsAt_of (trapped_of_runs h) ?_
  rw [exec_tend h (by simp [h0]), if_pos h0]

theorem tend_trapsOrder {q : Issue} {s : State} (h : runs q (.tend q) s) (h0 : (core s q.core).running = 0)
    (ho : othersStarted (core s q.core) = false) (hm : mateAtCut s q.core (fun _ => true) = true) :
    trapsAt q (.tend q) s 0x11 0 0 := by
  refine trapsAt_of (trapped_of_runs h) ?_
  rw [exec_tend h (by simp [ho]), if_neg (not_not.2 h0), if_pos hm]

theorem tend_holds {q : Issue} {s : State} (h : runs q (.tend q) s) (h0 : (core s q.core).running = 0)
    (ho : othersStarted (core s q.core) = false) (hm : mateAtCut s q.core (fun _ => true) = false) :
    ∃ t, exec (.tend q) s = .next t ∧ frameReel s t q.core ∧
      runningReel t q.core = { (runningReel s q.core).next 1 with hold := .tend ((core s q.core).issued + 1) } := by
  refine ⟨heldAt s q.core (.tend q) (.tend ((core s q.core).issued + 1)), ?_, frame_heldAt ..⟩
  rw [exec_tend h (by simp [ho]), if_neg (not_not.2 h0), if_neg (by simp [hm])]

-- The release of a held reel

/-- A core whose share has ended keeps its take. -/
theorem takeOfCore_endShare (s : State) (c d : Nat) : takeOfCore (setCore s c { core s c with share := .ended }) d = takeOfCore s d := by
  by_cases h : d = c <;> simp [takeOfCore, h]

/-- A core whose share has ended keeps its place. -/
theorem coresOf_endShare (s : State) (c slot : Nat) : coresOf (setCore s c { core s c with share := .ended }) slot = coresOf s slot := by
  refine List.filter_congr fun d _ => ?_
  by_cases h : d = c <;> simp [h]

/-- All the shares of a placement have ended with a core's own if the others' have. -/
theorem allEnded_iff (s : State) (c : Nat) (l : List Nat) :
    (l.all fun d => decide ((core (setCore s c { core s c with share := .ended }) d).share = .ended)) = true ↔
      ∀ d ∈ l, d ≠ c → (core s d).share = .ended := by
  rw [List.all_eq_true]
  refine forall₂_congr fun d _ => ?_
  by_cases h : d = c <;> simp [h]

section release

variable {c reel : Nat} {s : State} (hc : c < 208) (hr : reel < 8) (hlive : engineLive s c = true)
  (htrap : (core s c).trapped = false) (hshare : (core s c).share = .running)

include hlive htrap hshare in
/-- A core whose engines run for its share of a take releases what it holds. -/
theorem releases : ¬(¬ engineLive s c = true ∨ (core s c).trapped = true ∨ (core s c).share ≠ .running) := by
  simp [hlive, htrap, hshare]

include hc hr hlive htrap hshare

theorem exec_fenceRelease_fence {m l : Nat} (hhold : (reelOf (core s c) reel).hold = .fence m l) : exec (.fenceRelease c reel) s =
    when_ (fenceDone s c m l) s (setCore s c (withReel (core s c) reel { reelOf (core s c) reel with hold := .free })) := by
  rw [show exec (.fenceRelease c reel) s = execFenceRelease c reel s from rfl, execFenceRelease]
  simp only [coreOk, reelOk, hc, hr, decide_true, Bool.and_true, onUnit_true, if_neg (releases hlive htrap hshare), hhold]

theorem exec_fenceRelease_cut {k l : Nat} (hhold : (reelOf (core s c) reel).hold = .cut k l) : exec (.fenceRelease c reel) s =
    when_ (decide (cutLast s c ≠ k) && fenceDone s c 7 l) s (reachCut s c k) := by
  rw [show exec (.fenceRelease c reel) s = execFenceRelease c reel s from rfl, execFenceRelease]
  simp only [coreOk, reelOk, hc, hr, decide_true, Bool.and_true, onUnit_true, if_neg (releases hlive htrap hshare), hhold]

/-- The end of a core's share ends the take when it was the last (R231). -/
theorem exec_fenceRelease_tend {l : Nat} {t : Take} (hhold : (reelOf (core s c) reel).hold = .tend l) (ht : takeOfCore s c = some t) :
    exec (.fenceRelease c reel) s = when_ (fenceDone s c 7 l) s (
      if (coresOf s t.slot).all fun d => (core (setCore s c { core s c with share := .ended }) d).share = .ended
        then endTake (setCore s c { core s c with share := .ended }) t else setCore s c { core s c with share := .ended }) := by
  rw [show exec (.fenceRelease c reel) s = execFenceRelease c reel s from rfl, execFenceRelease]
  simp only [coreOk, reelOk, hc, hr, decide_true, Bool.and_true, onUnit_true, if_neg (releases hlive htrap hshare), hhold, takeOfCore_endShare, ht, coresOf_endShare]

end release

/-- Settles O18: each instruction as it issues, then each release. -/
theorem fenceCutTend : Obligations.FenceCutTend := by
  unfold Obligations.FenceCutTend
  refine ⟨⟨fun q fn s h => fence_holds h, fun q k s h => ⟨cut_trapsContext h, fun h0 hl hr ho => ⟨cut_trapsOrder h h0 hl hr ho,
    cut_holds h h0 hl hr ho⟩⟩, fun q s h => ⟨tend_trapsReel h, tend_waits h, fun h0 ho => ⟨tend_trapsOrder h h0 ho, tend_holds h h0 ho⟩⟩⟩,
    fun c reel s hc hr hlive htrap hshare => ⟨fun m l hhold hdone => ?_, fun m l hhold hdone => ?_, fun k l hhold hk hdone => ?_,
      fun l t hhold hdone ht => ⟨fun hsome => ?_, fun hall => ?_⟩⟩⟩
  · rw [exec_fenceRelease_fence hc hr hlive htrap hshare hhold, hdone, when_true]
  · rw [exec_fenceRelease_fence hc hr hlive htrap hshare hhold, hdone, when_false]
  · rw [exec_fenceRelease_cut hc hr hlive htrap hshare hhold, hdone, decide_eq_true hk, Bool.and_self, when_true]
  · rw [exec_fenceRelease_tend hc hr hlive htrap hshare hhold ht, hdone, when_true, if_neg]
    rw [allEnded_iff]
    obtain ⟨d, hd, hdc, hne⟩ := hsome
    exact fun hall => hne (hall d hd hdc)
  · rw [exec_fenceRelease_tend hc hr hlive htrap hshare hhold ht, hdone, when_true, if_pos ((allEnded_iff ..).2 hall)]

end Sys2Proof.Machine

/-! PROOFS. Work counters and commits: what a core sends, and what comes back (R224 to R226, R229, R236). -/
namespace Sys2Proof.Machine

open Sys2Proof

/-- A counter request by what its instruction says, to be completed with its issue number, its reel and its PC. -/
def request (rd : Nat) (tcmt : Bool) (ctr reqId arg : Nat) (ranges : List (Nat × Nat × Nat)) (id reel pc : Nat) : CtrReq :=
  { id := id, reel := reel, pc := pc, rd := rd, tcmt := tcmt, ctr := ctr, reqId := reqId, arg := arg, ranges := ranges,
    resent := false, answer := none, copying := false, copied := false, killed := false }

/-- A core whose running reel has sent a request and gone on, the issue counted. -/
def requested (s : State) (c : Nat) (i : Instr) (f : Nat → Nat → Nat → CtrReq) : State :=
  stepPc (sendCtr (bump s (csqBase c + 0x48) 1) c f) c i

theorem runningReel_sendCtr (s : State) (c : Nat) (f : Nat → Nat → Nat → CtrReq) : runningReel (sendCtr s c f) c = runningReel s c := by
  simp [runningReel, sendCtr, nextId, reelOf]

/-- A request changes its core and the count of issues; its reel stands past it. -/
theorem frame_requested (s : State) (c : Nat) (i : Instr) (f : Nat → Nat → Nat → CtrReq) :
    frameCore s (requested s c i f) c [csqBase c + 0x48] ∧
      runningReel (requested s c i f) c = (runningReel s c).next (wordsOf i) := by
  refine ⟨⟨?_, fun a => devByte_congr (by simp [requested, stepPc, sendCtr]) (by simp [requested, stepPc, sendCtr])
    (by simp [requested, stepPc, sendCtr]) a, fun d hd => ?_, fun a ha => ?_⟩, ?_⟩
  · apply frame_fields <;> simp [requested, stepPc, sendCtr]
  · simp [requested, stepPc, sendCtr, hd]
  · simp only [List.mem_singleton] at ha
    simp [requested, stepPc, sendCtr, ha]
  · rw [requested, stepPc, runningReel_modRunning, runningReel_sendCtr, runningReel_bump]

/-- A request joins those of its core. -/
theorem ctrReqs_requested (s : State) (c : Nat) (i : Instr) (rd : Nat) (tcmt : Bool) (ctr reqId arg : Nat)
    (ranges : List (Nat × Nat × Nat)) : (core (requested s c i (request rd tcmt ctr reqId arg ranges)) c).ctrReqs =
      (core s c).ctrReqs ++ [csqRequest s c rd tcmt ctr reqId arg ranges] := by
  simp only [requested, ctrReqs_stepPc, ctrReqs_sendCtr, core_bump, runningReel_bump, request, csqRequest]

-- FETCH (R224)

theorem exec_fetch {q : Issue} {rd ra rb : Nat} {dev : Bool} {num k : Nat} {s : State} (h : runs q (.fetch q rd ra rb dev num) s)
    (hk : boundCtr s q.core dev num = some k) : exec (.fetch q rd ra rb dev num) s = .next (
      if ((runningReel s q.core).get ra).toNat = 0 ∨ 65535 < ((runningReel s q.core).get ra).toNat then
        trapHere (bump s (csqBase q.core + 0x48) 1) q.core 0x0D ((runningReel s q.core).get ra).toNat 0
      else requested s q.core (.fetch q rd ra rb dev num) (request rd false k (((runningReel s q.core).get rb).toNat % 65536)
        ((runningReel s q.core).get ra).toNat [])) := by
  rw [show exec (.fetch q rd ra rb dev num) s = execFetch q rd ra rb dev num s from rfl]
  simp only [execFetch, hk, Option.isSome_some, finlenWait_runs h, runningReel_bump, Option.getD_some]
  rfl

theorem fetch_traps {q : Issue} {rd ra rb : Nat} {dev : Bool} {num k : Nat} {s : State} (h : runs q (.fetch q rd ra rb dev num) s)
    (hk : boundCtr s q.core dev num = some k)
    (hinc : ((runningReel s q.core).get ra).toNat = 0 ∨ 65535 < ((runningReel s q.core).get ra).toNat) :
    trapsAt q (.fetch q rd ra rb dev num) s 0x0D ((runningReel s q.core).get ra).toNat 0 := by
  refine trapsAt_of (trapped_of_runs h) ?_
  rw [exec_fetch h hk, if_pos hinc]

theorem fetch_requests {q : Issue} {rd ra rb : Nat} {dev : Bool} {num k : Nat} {s : State} (h : runs q (.fetch q rd ra rb dev num) s)
    (hk : boundCtr s q.core dev num = some k) (h1 : 1 ≤ ((runningReel s q.core).get ra).toNat)
    (h2 : ((runningReel s q.core).get ra).toNat ≤ 65535) :
    ∃ t, exec (.fetch q rd ra rb dev num) s = .next t ∧ frameCore s t q.core [csqBase q.core + 0x48] ∧
      runningReel t q.core = (runningReel s q.core).next 2 ∧ (core t q.core).ctrReqs = (core s q.core).ctrReqs ++
        [csqRequest s q.core rd false k (((runningReel s q.core).get rb).toNat % 65536) ((runningReel s q.core).get ra).toNat []] := by
  obtain ⟨hframe, hreel⟩ := frame_requested s q.core (.fetch q rd ra rb dev num)
    (request rd false k (((runningReel s q.core).get rb).toNat % 65536) ((runningReel s q.core).get ra).toNat [])
  refine ⟨_, ?_, hframe, hreel, ctrReqs_requested ..⟩
  rw [exec_fetch h hk, if_neg (by omega)]

-- TCMT (R226)

/-- The address of the commit record that a TCMT names. -/
def recordAt (s : State) (c rb : Nat) : Nat := ((runningReel s c).get rb).toNat

/-- The bytes of the commit record that a TCMT names. -/
def recordOf (s : State) (c rb : Nat) : List Byte := sramReads s c (recordAt s c rb) 64

theorem exec_tcmt {q : Issue} {rd ra rb : Nat} {dev : Bool} {num k : Nat} {s : State} (h : runs q (.tcmt q rd ra rb dev num) s)
    (hk : boundCtr s q.core dev num = some k) : exec (.tcmt q rd ra rb dev num) s = .next (
      if ¬(isCoreAddr (recordAt s q.core rb) ∧ recordAt s q.core rb % 64 = 0) ∨ commitBad (recordOf s q.core rb) then
        trapHere (bump s (csqBase q.core + 0x48) 1) q.core 0x0F (recordAt s q.core rb) 0
      else match (commitRanges (recordOf s q.core rb)).find? fun g => !commitDst s q.core g with
        | some g => trapHere (bump s (csqBase q.core + 0x48) 1) q.core 0x10 g.2.2 0
        | none => requested s q.core (.tcmt q rd ra rb dev num) (request rd true k 0
            (((runningReel s q.core).get ra).toNat % 2 ^ 32) (commitRanges (recordOf s q.core rb)))) := by
  rw [show exec (.tcmt q rd ra rb dev num) s = execTcmt q rd ra rb dev num s from rfl]
  simp only [execTcmt, hk, Option.isSome_some, finlenWait_runs h, runningReel_bump, sramReads_bump, commitDst_bump, Option.getD_some]
  rfl

/-- A record that lies at a core address aligned at 64 B and is in order passes the first check of a TCMT. -/
theorem record_good {s : State} {c rb : Nat} (hlt : recordAt s c rb < 2 ^ 24) (hal : recordAt s c rb % 64 = 0)
    (hbad : commitBad (recordOf s c rb) = false) :
    ¬(¬(isCoreAddr (recordAt s c rb) ∧ recordAt s c rb % 64 = 0) ∨ commitBad (recordOf s c rb) = true) := by
  simp [isCoreAddr, show recordAt s c rb < 16777216 from hlt, hal, hbad]

theorem tcmt_trapsRecord {q : Issue} {rd ra rb : Nat} {dev : Bool} {num k : Nat} {s : State} (h : runs q (.tcmt q rd ra rb dev num) s)
    (hk : boundCtr s q.core dev num = some k) (hbad : ¬(recordAt s q.core rb < 2 ^ 24 ∧ recordAt s q.core rb % 64 = 0 ∧
      commitBad (recordOf s q.core rb) = false)) : trapsAt q (.tcmt q rd ra rb dev num) s 0x0F (recordAt s q.core rb) 0 := by
  refine trapsAt_of (trapped_of_runs h) ?_
  rw [exec_tcmt h hk, if_pos]
  rwa [← and_assoc, not_and_or, Bool.not_eq_false, ← decide_eq_true_iff (p := recordAt s q.core rb < 2 ^ 24)] at hbad

theorem tcmt_trapsDestination {q : Issue} {rd ra rb : Nat} {dev : Bool} {num k : Nat} {s : State} {g : Nat × Nat × Nat}
    (h : runs q (.tcmt q rd ra rb dev num) s) (hk : boundCtr s q.core dev num = some k) (hlt : recordAt s q.core rb < 2 ^ 24)
    (hal : recordAt s q.core rb % 64 = 0) (hbad : commitBad (recordOf s q.core rb) = false)
    (hg : (commitRanges (recordOf s q.core rb)).find? (fun g => !commitDst s q.core g) = some g) :
    trapsAt q (.tcmt q rd ra rb dev num) s 0x10 g.2.2 0 := by
  refine trapsAt_of (trapped_of_runs h) ?_
  rw [exec_tcmt h hk, if_neg (record_good hlt hal hbad), hg]

theorem tcmt_requests {q : Issue} {rd ra rb : Nat} {dev : Bool} {num k : Nat} {s : State} (h : runs q (.tcmt q rd ra rb dev num) s)
    (hk : boundCtr s q.core dev num = some k) (hlt : recordAt s q.core rb < 2 ^ 24) (hal : recordAt s q.core rb % 64 = 0)
    (hbad : commitBad (recordOf s q.core rb) = false) (hdst : ∀ g ∈ commitRanges (recordOf s q.core rb), commitDst s q.core g = true) :
    ∃ t, exec (.tcmt q rd ra rb dev num) s = .next t ∧ frameCore s t q.core [csqBase q.core + 0x48] ∧
      runningReel t q.core = (runningReel s q.core).next 2 ∧ (core t q.core).ctrReqs = (core s q.core).ctrReqs ++
        [csqRequest s q.core rd true k 0 (((runningReel s q.core).get ra).toNat % 2 ^ 32) (commitRanges (recordOf s q.core rb))] := by
  have hfind : (commitRanges (recordOf s q.core rb)).find? (fun g => !commitDst s q.core g) = none :=
    List.find?_eq_none.2 fun g hg => by simp [hdst g hg]
  obtain ⟨hframe, hreel⟩ := frame_requested s q.core (.tcmt q rd ra rb dev num)
    (request rd true k 0 (((runningReel s q.core).get ra).toNat % 2 ^ 32) (commitRanges (recordOf s q.core rb)))
  refine ⟨_, ?_, hframe, hreel, ctrReqs_requested ..⟩
  rw [exec_tcmt h hk, if_neg (record_good hlt hal hbad), hfind]

-- What comes back (R225, R226, R229)

/-- What the answer of a claim does, by its value and by whether its reel has ended. -/
theorem exec_tcmtAnswer {c reel rd : Nat} {s : State} {r : CtrReq} (hu : (coreOk c && reelOk reel && regOk rd) = true)
    (hfast : fast s = true) (hfenced : (core s c).fenced = false)
    (hr : findReq (core s c) reel rd (fun r => r.tcmt && r.answer.isSome && !r.copying) = some r) :
    exec (.tcmtAnswer c reel rd) s = .next (
      if r.killed ∧ r.answer ≠ some 0 then setCore s c (dropReq (core s c) r.id)
      else if r.answer = some 0x0A then setCore s c (dropReq (setReg (core s c) reel rd 0x0A) r.id)
      else if r.answer = some 0x0E then trapCore (setCore s c (dropReq (core s c) r.id)) c 0x0E r.arg 0 reel r.pc
      else commitCopies (setCore s c (modReq (core s c) r.id fun r => { r with copying := true })) c r.ranges) := by
  rw [show exec (.tcmtAnswer c reel rd) s = execTcmtAnswer c reel rd s from rfl]
  simp only [execTcmtAnswer, hu, hr, onUnit_true, hfast, hfenced, not_true_eq_false, Bool.false_eq_true, or_self, if_false]
  split
  · rfl
  · split
    · rfl
    · split <;> rfl

/-- A claim out of the range of its ledger traps where its TCMT stood. -/
theorem tcmtAnswer_traps {c reel rd : Nat} {s : State} {r : CtrReq} (hu : (coreOk c && reelOk reel && regOk rd) = true)
    (hfast : fast s = true) (hfenced : (core s c).fenced = false)
    (hr : findReq (core s c) reel rd (fun r => r.tcmt && r.answer.isSome && !r.copying) = some r) (hk : r.killed = false)
    (ha : r.answer = some 0x0E) : exec (.tcmtAnswer c reel rd) s =
      .next (trapCore (setCore s c (dropReq (core s c) r.id)) c 0x0E r.arg 0 reel r.pc) := by
  rw [exec_tcmtAnswer hu hfast hfenced hr, if_neg (by simp [hk]), if_neg (by simp [ha]), if_pos ha]

/-- An answer other than DONE to a reel that has ended is dropped. -/
theorem tcmtAnswer_drops {c reel rd : Nat} {s : State} {r : CtrReq} (hu : (coreOk c && reelOk reel && regOk rd) = true)
    (hfast : fast s = true) (hfenced : (core s c).fenced = false)
    (hr : findReq (core s c) reel rd (fun r => r.tcmt && r.answer.isSome && !r.copying) = some r) (hk : r.killed = true)
    (ha : r.answer ≠ some 0) : exec (.tcmtAnswer c reel rd) s = .next (setCore s c (dropReq (core s c) r.id)) := by
  rw [exec_tcmtAnswer hu hfast hfenced hr, if_pos ⟨hk, ha⟩]

/-- A DONE starts the copies, also of a reel that has ended. -/
theorem tcmtAnswer_copies {c reel rd : Nat} {s : State} {r : CtrReq} (hu : (coreOk c && reelOk reel && regOk rd) = true)
    (hfast : fast s = true) (hfenced : (core s c).fenced = false)
    (hr : findReq (core s c) reel rd (fun r => r.tcmt && r.answer.isSome && !r.copying) = some r) (ha : r.answer = some 0) :
    exec (.tcmtAnswer c reel rd) s =
      .next (commitCopies (setCore s c (modReq (core s c) r.id fun r => { r with copying := true })) c r.ranges) := by
  rw [exec_tcmtAnswer hu hfast hfenced hr, if_neg (by simp [ha]), if_neg (by simp [ha]), if_neg (by simp [ha])]

/-- The end of the copies of a reel that has ended is dropped. -/
theorem tcmtCopyDone_drops {c reel rd : Nat} {s : State} {r : CtrReq} (hu : (coreOk c && reelOk reel && regOk rd) = true)
    (hfast : fast s = true) (hfenced : (core s c).fenced = false)
    (hr : findReq (core s c) reel rd (fun r => r.copying) = some r) (hk : r.killed = true) :
    exec (.tcmtCopyDone c reel rd) s = .next (setCore s c (dropReq (core s c) r.id)) := by
  show execTcmtCopyDone c reel rd s = _
  simp only [execTcmtCopyDone, hu, hr, onUnit_true, hfast, hfenced, hk]
  rfl

/-- Settles O19: what is sent, then what comes back. -/
theorem counterInstructions : Obligations.CounterInstructions := by
  unfold Obligations.CounterInstructions
  refine ⟨⟨fun q rd ra rb dev num k s h hk => ⟨fetch_traps h hk, fetch_requests h hk⟩, fun q rd ra rb dev num k s h hk =>
    ⟨tcmt_trapsRecord h hk, fun hlt hal hbad => ⟨fun g hg => tcmt_trapsDestination h hk hlt hal hbad hg,
      tcmt_requests h hk hlt hal hbad⟩⟩⟩, fun c reel rd s hc hreel hrd hfast hfenced => ?_⟩
  have hu := reelReg_ok hc hreel hrd
  exact ⟨fun r v hr hv => fetchAnswer_writes hu hfast hfenced hr hv, fun r hr => counterResend_marks hu hfast hfenced hr,
    fun r hr => ⟨fun hk ha => tcmtAnswer_duplicate hu hfast hfenced hr ha hk, tcmtAnswer_traps hu hfast hfenced hr,
      tcmtAnswer_drops hu hfast hfenced hr, tcmtAnswer_copies hu hfast hfenced hr⟩,
    fun r hr => ⟨tcmtCopyDone_writes hu hfast hfenced hr, tcmtCopyDone_drops hu hfast hfenced hr⟩⟩

end Sys2Proof.Machine

/-! PROOFS. Skip entries: each keeps its place in its engine's queue and arrives there (R247). -/
namespace Sys2Proof.Machine

open Sys2Proof

-- The queue that a skip entry leaves

/-- A released head stands in its queue. -/
theorem exists_queueOf_eq_cons {x : Core} {key : Nat} {d : QDesc} (h : readyHead x key = some d) : ∃ rest, queueOf x key = d :: rest := by
  unfold readyHead at h
  split at h
  · next e rest hq =>
    split at h
    · exact ⟨rest, Option.some.inj h ▸ hq⟩
    · cases h
  · cases h

/-- Taking off a released head shortens its queue by one. -/
theorem length_popHead_of_readyHead {x : Core} {key : Nat} {d : QDesc} (h : readyHead x key = some d) :
    (queueOf (popHead x key) key).length + 1 = (queueOf x key).length := by
  obtain ⟨rest, hq⟩ := exists_queueOf_eq_cons h
  have hlen := congrArg List.length (map_bytes_popHead x key)
  rw [hq] at hlen ⊢
  simpa using hlen

-- What each kind of skip entry leaves of its core

/-- The core once a skipped tile is off its queue: one that is an EPILOGUE tile leaves a skip entry in the epilogue queue. -/
def skipTile (x : Core) (b : List Byte) : Core :=
  if mDrain b = 0 then modVce (popHead x 0) fun v => { v with epi := v.epi ++ [none] } else popHead x 0

/-- The epilogue queue behind a skipped tile. -/
theorem skipTile_epi (x : Core) (b : List Byte) : (skipTile x b).vce.epi = x.vce.epi ++ if mDrain b = 0 then [none] else [] := by
  unfold skipTile
  split
  · simp [modVce]
  · simp

/-- The core once a skip entry of an engine behind the VCE is off its queue: a program with ENDGEN marks its reel's generation. -/
def skipEntry (x : Core) (eng sub : Nat) (b : List Byte) : Core :=
  let y := popHead x (queueOfEng eng sub)
  let k := agReelKey sub (agSel b) (dReel b)
  if eng = 3 ∧ dEndGen b then { y with agReels := tput k { tget {} y.agReels k with marked := true } y.agReels } else y

/-- Marking a generation changes no queue. -/
theorem queueOf_skipEntry (x : Core) (eng sub : Nat) (b : List Byte) (k : Nat) :
    queueOf (skipEntry x eng sub b) k = queueOf (popHead x (queueOfEng eng sub)) k := by
  unfold skipEntry
  generalize popHead x (queueOfEng eng sub) = y
  dsimp only
  split
  · rfl
  · rfl

/-- An epilogue entry that is taken leaves the walks. -/
@[simp] theorem takeEpi_walks (x : Core) (keep : Bool) : (takeEpi x keep).vce.walks = x.vce.walks := by
  unfold takeEpi
  split
  · split
    · rfl
    · simp [modVce]
  · rfl

/-- A reduction that is paired leaves the vector engine. -/
@[simp] theorem redPair_vce (x : Core) (walk : List Byte) (closed : Bool) : (redPair x walk closed).vce = x.vce := rfl

/-- A walk that takes its place leaves the walks before it. -/
theorem takeWalk_walks (x : Core) (b : List Byte) (keep closed : Bool) : (takeWalk x b keep closed).vce.walks = x.vce.walks := by
  have hepi : (if takesEpi x b then takeEpi (popHead x 1) keep else popHead x 1).vce.walks = x.vce.walks := by
    split <;> simp
  unfold takeWalk
  dsimp only
  split
  · rw [redPair_vce, hepi]
  · exact hepi

-- The command, engine by engine

/-- Everything a skipped tile at the head of the queue can do: it waits for the pass and the drains before it. -/
theorem exec_descSkipRun_mxe {c : Nat} {d : QDesc} {s : State} (hc : c < 208) (hlive : engineLive s c = true)
    (hd : readyHead (core s c) 0 = some d) (hskip : d.skip = true) : exec (.descSkipRun c 0 0) s =
      when_ ((core s c).mxe.pass.isNone && (core s c).mxe.drains.isEmpty) s
        (arriveRef (arriveRef (setCore s c (skipTile (core s c) d.bytes)) c d.id d.bytes (dDone d.bytes)) c d.id d.bytes
          (bref d.bytes 116)) := by
  rw [show exec (.descSkipRun c 0 0) s = execDescSkipRun c 0 0 s from rfl]
  simp [execDescSkipRun, queueOfEng, coreOk, hc, hd, hlive, hskip, skipTile]

/-- A skipped walk whose reel is free, with its epilogue entry and the reduction that it taps waiting, takes both and ends at once. -/
theorem exec_descSkipRun_vce {c : Nat} {d : QDesc} {s : State} (hc : c < 208) (hlive : engineLive s c = true)
    (hd : readyHead (core s c) 1 = some d) (hskip : d.skip = true) (hepi : takesEpi (core s c) d.bytes = true → (core s c).vce.epi ≠ [])
    (htap : tapOf d.bytes = true → redOpen (core s c) = true) (hshadow : (vceReel (core s c) (dReel d.bytes)).shadow = none)
    (hwalks : ∀ w ∈ (core s c).vce.walks, dReel w.desc.bytes ≠ dReel d.bytes) : exec (.descSkipRun c 1 0) s =
      .next (walkDone (beginDrain (setCore s c (takeWalk (core s c) d.bytes false true)) c) c d []) := by
  have hgo : ((!takesEpi (core s c) d.bytes || !(core s c).vce.epi.isEmpty) && (!tapOf d.bytes || redOpen (core s c)) &&
      (vceReel (core s c) (dReel d.bytes)).shadow.isNone &&
      (core s c).vce.walks.all fun w => decide (dReel w.desc.bytes ≠ dReel d.bytes)) = true := by
    simpa [← Bool.not_eq_true, ← imp_iff_not_or] using ⟨⟨⟨hepi, htap⟩, hshadow⟩, hwalks⟩
  rw [show exec (.descSkipRun c 1 0) s = execDescSkipRun c 1 0 s from rfl, execDescSkipRun,
    show (coreOk c && 1 ≤ 6 && (if 1 = 3 ∨ 1 = 6 then 0 < 4 else 0 = 0)) = true by simp [coreOk, hc], onUnit_true,
    show queueOfEng 1 0 = 1 from rfl, hd]
  dsimp only
  rw [if_neg (by simp [hlive, hskip]), if_neg one_ne_zero, if_pos rfl]
  exact if_pos hgo

/-- A skip entry of an engine behind the VCE that has nothing earlier under way leaves its queue and arrives on DONE. -/
theorem exec_descSkipRun_other {c eng sub : Nat} {d : QDesc} {s : State} (hc : c < 208) (hlive : engineLive s c = true) (h2 : 2 ≤ eng)
    (h6 : eng ≤ 6) (hsub : if eng = 3 ∨ eng = 6 then sub < 4 else sub = 0) (hd : readyHead (core s c) (queueOfEng eng sub) = some d)
    (hskip : d.skip = true) (hred : eng = 2 → (core s c).red.run = none)
    (hag : eng = 3 → threadsFree (core s c) sub d.bytes = true ∧
      (tget {} (core s c).agReels (agReelKey sub (agSel d.bytes) (dReel d.bytes))).shadow = none) : exec (.descSkipRun c eng sub) s =
      .next (arriveRef (setCore s c (skipEntry (core s c) eng sub d.bytes)) c d.id d.bytes (dDone d.bytes)) := by
  have hgo : ((eng ≠ 2 || (core s c).red.run.isNone) && (eng ≠ 3 || (threadsFree (core s c) sub d.bytes &&
      (tget {} (core s c).agReels (agReelKey sub (agSel d.bytes) (dReel d.bytes))).shadow.isNone))) = true := by
    simpa [← imp_iff_not_or] using ⟨hred, hag⟩
  rw [show exec (.descSkipRun c eng sub) s = execDescSkipRun c eng sub s from rfl, execDescSkipRun,
    show (coreOk c && eng ≤ 6 && (if eng = 3 ∨ eng = 6 then sub < 4 else sub = 0)) = true by simp [coreOk, hc, h6, hsub],
    onUnit_true, hd]
  dsimp only
  rw [if_neg (by simp [hlive, hskip]), if_neg (by omega), if_neg (by omega)]
  exact if_pos hgo

/-- Settles O32: the engines behind the VCE together, then tiles, then walks; in each only the core of the entry is put back before
it arrives. -/
theorem skippedDescriptors : Obligations.SkippedDescriptors := by
  unfold Obligations.SkippedDescriptors
  refine ⟨fun c sub eng d s hc hlive heng hsub hd hskip hred hag => ?_,
    fun c d s hc hlive hd hskip => ⟨fun hpass hdrains => ?_, fun hbusy => ?_⟩,
    fun c d s hc hlive hd hskip hepi hshadow hwalks htap => ?_⟩
  · obtain ⟨h2, h6⟩ := (by decide : ∀ e ∈ [2, 3, 4, 5, 6], 2 ≤ e ∧ e ≤ 6) eng heng
    refine ⟨_, exec_descSkipRun_other hc hlive h2 h6 hsub hd hskip hred hag, sameBytes_setCore _ _ _, ?_⟩
    rw [core_setCore, if_pos rfl, queueOf_skipEntry, length_popHead_of_readyHead hd]
  · have hexec := exec_descSkipRun_mxe hc hlive hd hskip
    rw [hpass, hdrains, Option.isNone_none, List.isEmpty_nil, Bool.and_self, when_true] at hexec
    refine ⟨_, hexec, sameBytes_setCore _ _ _, ?_⟩
    rw [core_setCore, if_pos rfl, skipTile_epi]
  · have hstop : ((core s c).mxe.pass.isNone && (core s c).mxe.drains.isEmpty) = false := by
      simpa [Option.isSome_iff_ne_none, imp_iff_not_or] using hbusy
    rw [exec_descSkipRun_mxe hc hlive hd hskip, hstop, when_false]
  · refine ⟨_, exec_descSkipRun_vce hc hlive hd hskip (fun _ => hepi) htap hshadow hwalks, sameBytes_setCore _ _ _, ?_⟩
    rw [core_setCore, if_pos rfl, takeWalk_walks]

end Sys2Proof.Machine

/-! PROOFS. Command records: how a slot is examined and what taking its record does (R293, R298 to R302, R311). -/
namespace Sys2Proof.Machine

open Sys2Proof

-- A slot is examined (R293, R298)

/-- A record in slot `sl` of stream `st`'s window is one for that stream and that slot, under the stream's key, while it is open (R298). -/
def forStream (x : Stream) (st sl : Nat) (b : List Byte) : Prop :=
  fld b 0 1 = 1 ∧ fld b 1 1 = st ∧ fld b 8 6 % 256 = sl ∧ x.state ≠ .closed ∧ x.state ≠ .closing ∧ fld b 24 4 = x.skey

section examine

variable {s : State} {st sl : Nat}

/-- A slot that a message has touched. -/
theorem exec_commandRecord (hst : st < 256) (hsl : sl < 256) (hready : ready s = true) (htouched : slotNo st sl ∈ s.intake.touched) :
    exec (.commandRecord st sl) s =
      .next (examine (modIntake s fun x => { x with touched := x.touched.filter (· ≠ slotNo st sl) }) st sl) := by
  show execCommandRecord st sl s = _
  simp [execCommandRecord, streamOk, slotOk, hst, hsl, hready, htouched]

/-- A record that waits in the slot of NEXT. -/
theorem exec_waitingRecordAccept (hst : st < 256) (hready : ready s = true) (hwaits : slotNo st sl ∈ s.intake.waitingRec)
    (hsl : sl = (stream s st).next % 256) : exec (.waitingRecordAccept st) s = .next (examine s st sl) := by
  show execWaitingRecordAccept st s = _
  subst hsl
  simp [execWaitingRecordAccept, streamOk, hst, hready, hwaits]

/-- What is no record stays as it is. -/
theorem examine_noRecord (hrec : isRecord (windowSlot s st sl) = false) : examine s st sl = noWait s (slotNo st sl) := by
  simp [examine, hrec]

/-- The intake's five tests of the fields fail exactly when a record is foreign. -/
theorem not_forStream_iff (x : Stream) (st sl : Nat) (b : List Byte) : (fld b 0 1 ≠ 1 ∨ fld b 1 1 ≠ st ∨ fld b 8 6 % 256 ≠ sl ∨
    x.state = .closed ∨ x.state = .closing ∨ fld b 24 4 ≠ x.skey) ↔ ¬ forStream x st sl b := by
  unfold forStream
  tauto

/-- A record for another stream, slot or key is counted. -/
theorem examine_foreign (hrec : isRecord (windowSlot s st sl) = true) (hmine : ¬ forStream (stream s st) st sl (windowSlot s st sl)) :
    examine s st sl = bump (noWait s (slotNo st sl)) 0x200018 1 :=
  (if_neg (not_not.2 hrec)).trans (if_pos ((not_forStream_iff ..).2 hmine))

/-- The tests of a record for this stream are those of its sequence number against NEXT, and of room. -/
theorem examine_own (hrec : isRecord (windowSlot s st sl) = true) (hmine : forStream (stream s st) st sl (windowSlot s st sl)) :
    examine s st sl =
      let n := slotNo st sl
      let b := windowSlot s st sl
      let next := (stream s st).next
      if fld b 8 6 < next then bump (noWait s n) 0x200010 1
      else if next + 255 < fld b 8 6 then bump (noWait s n) 0x200018 1
      else if fld b 8 6 ≠ next then modIntake s fun y => { y with waitingRec := (y.waitingRec ++ [n]).eraseDups }
      else if ¬ hasRoom s st b then
        modIntake (if n ∈ s.intake.roomWait then s else bump s 0x200030 1) fun y =>
          { y with waitingRec := (y.waitingRec ++ [n]).eraseDups, roomWait := (y.roomWait ++ [n]).eraseDups }
      else takeRecord (noWait s n) st b :=
  (if_neg (not_not.2 hrec)).trans (if_neg fun h => (not_forStream_iff ..).1 h hmine)

variable (hrec : isRecord (windowSlot s st sl) = true) (hmine : forStream (stream s st) st sl (windowSlot s st sl))
include hrec hmine

/-- A record behind NEXT is counted. -/
theorem examine_behind (h : fld (windowSlot s st sl) 8 6 < (stream s st).next) :
    examine s st sl = bump (noWait s (slotNo st sl)) 0x200010 1 :=
  (examine_own hrec hmine).trans (if_pos h)

/-- A record more than a window ahead of NEXT is counted. -/
theorem examine_farAhead (h : (stream s st).next + 255 < fld (windowSlot s st sl) 8 6) :
    examine s st sl = bump (noWait s (slotNo st sl)) 0x200018 1 :=
  (examine_own hrec hmine).trans ((if_neg (by omega)).trans (if_pos h))

/-- A record ahead of NEXT waits. -/
theorem examine_ahead (hlo : (stream s st).next < fld (windowSlot s st sl) 8 6)
    (hhi : fld (windowSlot s st sl) 8 6 ≤ (stream s st).next + 255) :
    slotNo st sl ∈ (examine s st sl).intake.waitingRec ∧ (examine s st sl).intake.log = s.intake.log := by
  rw [examine_own hrec hmine]
  dsimp only
  rw [if_neg (by omega), if_neg (by omega), if_pos (by omega)]
  exact ⟨by simp [modIntake], rfl⟩

/-- The record at NEXT is taken when there is room for it. -/
theorem examine_taken (h : fld (windowSlot s st sl) 8 6 = (stream s st).next) (hroom : hasRoom s st (windowSlot s st sl) = true) :
    examine s st sl = takeRecord (noWait s (slotNo st sl)) st (windowSlot s st sl) := by
  rw [examine_own hrec hmine]
  dsimp only
  rw [if_neg (by omega), if_neg (by omega), if_neg (not_not.2 h), if_neg (not_not.2 hroom)]

/-- The record at NEXT waits while there is no room for it. -/
theorem examine_noRoom (h : fld (windowSlot s st sl) 8 6 = (stream s st).next) (hroom : hasRoom s st (windowSlot s st sl) = false) :
    slotNo st sl ∈ (examine s st sl).intake.roomWait ∧ (examine s st sl).intake.log = s.intake.log := by
  rw [examine_own hrec hmine]
  dsimp only
  rw [if_neg (by omega), if_neg (by omega), if_neg (not_not.2 h), if_pos (by simp [hroom])]
  exact ⟨by simp [modIntake], by split <;> rfl⟩

end examine

-- A record is taken (R299, R300, R302, R311)

/-- The entry that the logbook makes of a record. -/
def takenEntry (s : State) (st : Nat) (b : List Byte) : Entry :=
  { newEntry s st b .accepted with bodyAt := storePlace s (fld b 3 1 - 1) }

/-- A record is entered in the logbook, and NEXT moves past it. -/
def entered (s : State) (st : Nat) (b : List Byte) : State :=
  setStream (modIntake s fun x => { x with log := x.log ++ [takenEntry s st b], orders := x.orders + 1 }) st
    { stream s st with next := fld b 8 6 + 1 }

section take

variable {s : State} {st : Nat} {b : List Byte}

/-- A record is entered and then rejected, or accepted; a RESUME on a Halted stream acts. -/
theorem takeRecord_eq (s : State) (st : Nat) (b : List Byte) : takeRecord s st b =
    if ¬ legal st b then finish (bump (entered s st b) 0x200020 1) st (fld b 8 6) { status := 3 }
    else
      let v := interim (if (takenEntry s st b).hasTake then modIntake (entered s st b) fun x => { x with reserved := x.reserved + 130 }
        else entered s st b) st (fld b 8 6) { status := 1 }
      if decide ((stream s st).state = .halted) ∧ (takenEntry s st b).cls = 5 then resumeNow v st (fld b 8 6) (fld b 64 6)
      else settle v st := rfl

/-- RUN and STEP have takes. -/
theorem takenEntry_hasTake (s : State) (st : Nat) (b : List Byte) :
    (takenEntry s st b).hasTake = true ↔ fld b 2 1 = 1 ∨ fld b 2 1 = 2 := by
  show (decide (fld b 2 1 = 1) || decide (fld b 2 1 = 2)) = true ↔ _
  simp

/-- An illegal record is rejected (R299). -/
theorem takeRecord_illegal (h : legal st b = false) :
    takeRecord s st b = finish (bump (entered s st b) 0x200020 1) st (fld b 8 6) { status := 3 } :=
  (takeRecord_eq s st b).trans (if_pos (by simp [h]))

/-- A legal record is ACCEPTED, a RUN or STEP with room for its commit list (R300, R302). -/
theorem takeRecord_accepted (h : legal st b = true) (hcls : fld b 2 1 ≠ 5 ∨ (stream s st).state ≠ .halted) :
    takeRecord s st b = settle (interim (if fld b 2 1 = 1 ∨ fld b 2 1 = 2 then
      modIntake (entered s st b) fun x => { x with reserved := x.reserved + 130 } else entered s st b) st (fld b 8 6) { status := 1 }) st := by
  have hno : ¬(decide ((stream s st).state = .halted) = true ∧ (takenEntry s st b).cls = 5) := by
    rw [decide_eq_true_eq]
    exact fun hboth => hcls.elim (· hboth.2) (· hboth.1)
  rw [takeRecord_eq, if_neg (not_not.2 h)]
  simp only [if_neg hno, takenEntry_hasTake]

/-- A RESUME on a Halted stream acts at once (R311). -/
theorem takeRecord_resume (h : legal st b = true) (hcls : fld b 2 1 = 5) (hhalted : (stream s st).state = .halted) :
    takeRecord s st b = resumeNow (interim (entered s st b) st (fld b 8 6) { status := 1 }) st (fld b 8 6) (fld b 64 6) := by
  have hyes : decide ((stream s st).state = .halted) = true ∧ (takenEntry s st b).cls = 5 := ⟨decide_eq_true hhalted, hcls⟩
  have htake : ¬ (takenEntry s st b).hasTake = true := by
    rw [takenEntry_hasTake]
    omega
  rw [takeRecord_eq, if_neg (not_not.2 h)]
  simp only [if_pos hyes, if_neg htake]

end take

/-- Settles O43: the tests of R298 in order, then the three ways in which a record is taken. -/
theorem commandRecords : Obligations.CommandRecords := by
  unfold Obligations.CommandRecords
  refine ⟨?_, ?_, ?_⟩
  · intro st sl s hst hsl hready n
    exact ⟨exec_commandRecord hst hsl hready, exec_waitingRecordAccept hst hready⟩
  · intro st sl s n b x seq mine
    exact ⟨examine_noRecord, examine_foreign, examine_behind, examine_farAhead, examine_ahead, examine_taken, examine_noRoom⟩
  · intro st b s e u
    exact ⟨takeRecord_illegal, takeRecord_accepted, takeRecord_resume⟩

end Sys2Proof.Machine

/-! PROOFS. What commands do at their turn (R278, R281, R283, R284, R311, R312, R337, R424). -/
namespace Sys2Proof.Machine

open Sys2Proof

section turn

variable {s : State} {st cls : Nat} {e : Entry}

/-- A command whose turn it is acts. -/
theorem atTurn_of_turnOf (hst : st < 256) (h : turnOf s st cls = some e) (f : Entry → State) : atTurn s st cls f = .next (f e) := by
  simp [atTurn, streamOk, hst, h]

/-- Waking a placement changes cores alone. -/
theorem wakeSlot_loader (s : State) (slot : Nat) : (wakeSlot s slot).loader = s.loader :=
  List.foldlRecOn (motive := fun t : State => t.loader = s.loader) (coresOf s slot) _ rfl fun _ ht _ _ => ht

/-- A memory's exit from self-refresh leaves the loader. -/
theorem beginExit_loader (s : State) (k : Nat) : (beginExit s k).loader = s.loader := by
  unfold beginExit
  split <;> rfl

/-- What a head moment wakes leaves the loader. -/
theorem wakeFor_loader (s : State) (e : Entry) : (wakeFor s e).loader = s.loader :=
  List.foldlRecOn (motive := fun t : State => t.loader = s.loader) (needsCtls s e) _ (wakeSlot_loader s _)
    fun t ht k _ => (beginExit_loader t k).trans ht

/-- A head moment whose handle is free, with nothing that waits for it, wakes and passes (R337, R424). -/
theorem headMoment_free (hbar : headBar s e = none) (hmoving : (slotOf s (slotOfHandle e.handle)).state ≠ .moving)
    (hbusy : slotBusy s (slotOfHandle e.handle) = false) (hothers : waitersOf s (slotOfHandle e.handle) = []) :
    headMoment s e = modIntake (wakeFor (modEntry s e.stream e.seq fun q =>
      { q with head := true, headKc := s.kc, headNo := s.intake.orders + 1 }) e) fun x => { x with orders := s.intake.orders + 1 } := by
  have hnone : s.intake.takes.find? (fun t => t.slot = slotOfHandle e.handle) = none := by
    simpa [slotBusy] using hbusy
  have hslot (f : Entry → Entry) : slotOf (wakeFor (modEntry s e.stream e.seq f) e) (slotOfHandle e.handle) = slotOf s (slotOfHandle e.handle) := by
    rw [slotOf, wakeFor_loader]
    rfl
  unfold headMoment
  simp only [hbar, hnone, hothers]
  rw [if_neg]
  · rfl
  · exact fun h => hmoving ((congrArg Slot.state (hslot _)).symm.trans h)

/-- RUN and STEP have their head moment once (R337). -/
theorem exec_headMoment (hst : st < 256) (hcls : cls = 1 ∨ cls = 2) (h : turnOf s st cls = some e) (hhead : e.head = false) :
    exec (if cls = 1 then .run st else .stepCmd st) s = .next (headMoment s e) := by
  rcases hcls with rfl | rfl
  · exact (atTurn_of_turnOf hst h _).trans (by simp [headOnce, hhead])
  · exact (atTurn_of_turnOf hst h _).trans (by simp [headOnce, hhead])

/-- LOAD, when it is the next for the loader (R278). -/
theorem exec_load (hst : st < 256) (h : turnOf s st 3 = some e) (hwaits : waitsAtLoader s e = false) (hnext : nextLoad s e = true) :
    exec (.load st) s = .next (startLoad s e) :=
  (atTurn_of_turnOf hst h _).trans (by simp [hwaits, hnext])

/-- UNLOAD of a slot that is loaded and free (R281). -/
theorem exec_unload (hst : st < 256) (h : turnOf s st 4 = some e) (hok : handleOk s e.handle = true)
    (hbusy : slotBusy s (slotOfHandle e.handle) = false) (hothers : waitersOf s (slotOfHandle e.handle) = []) :
    exec (.unload st) s = .next (done (emptySlot s (slotOfHandle e.handle)) e) :=
  (atTurn_of_turnOf hst h _).trans (by simp [hok, hbusy, hothers])

/-- OPEN without REBIND opens a Closed target (R312, R326). -/
theorem exec_open (hst : st < 256) (h : turnOf s st 7 = some e) (hclosed : (stream s (fld e.body 64 1)).state = .closed)
    (hrebind : bit (fld e.body 65 1) 0 = false) : exec (.openStream st) s = .next (done (journaledOutcomes (setStream s (fld e.body 64 1)
      { state := .idle, next := (stream s (fld e.body 64 1)).journal.getD (fld e.body 80 6), qp := fld e.body 68 4 - 0x100000,
        skey := fld e.body 72 4, ckey := fld e.body 76 4 }) (fld e.body 64 1)) e) :=
  (atTurn_of_turnOf hst h _).trans (by simp [openTarget, hclosed, hrebind])

/-- OPEN with REBIND gives an open target its queue pair and keys (R312). -/
theorem exec_rebind (hst : st < 256) (h : turnOf s st 7 = some e) (hclosed : (stream s (fld e.body 64 1)).state ≠ .closed)
    (hrebind : bit (fld e.body 65 1) 0 = true) : exec (.openStream st) s = .next (done (rewriteAll (setStream s (fld e.body 64 1)
      { stream s (fld e.body 64 1) with qp := fld e.body 68 4 - 0x100000, skey := fld e.body 72 4, ckey := fld e.body 76 4 })
      (fld e.body 64 1) (stream s (fld e.body 64 1)).qp) e) :=
  (atTurn_of_turnOf hst h _).trans (by simp [openTarget, hclosed, hrebind])

/-- CLOSE of an open target that is not Halted (R312). -/
theorem exec_close (hst : st < 256) (h : turnOf s st 8 = some e) (hclosed : (stream s (fld e.body 64 1)).state ≠ .closed)
    (hclosing : (stream s (fld e.body 64 1)).state ≠ .closing) (hhalted : (stream s (fld e.body 64 1)).state ≠ .halted) :
    exec (.closeStream st) s = .next (tryCloseStream (setStream (modEntry s e.stream e.seq fun q => { q with state := .running })
      (fld e.body 64 1) { stream s (fld e.body 64 1) with state := .closing }) (fld e.body 64 1)) :=
  (atTurn_of_turnOf hst h _).trans (by simp [closeTarget, hclosed, hclosing, hhalted])

end turn

section retry

variable {s : State} {k : Nat} {w : LoadWait}

/-- What is first of what is due, or, with nothing due and no take, first of what waits for a length, has its turn (R283, R287). -/
theorem retryDue_of_first (h : s.loader.due.head? = some w ∨
    (s.loader.due = [] ∧ s.intake.takes = [] ∧ (s.loader.waiting.find? (· ∈ s.loader.forLen)) = some w)) : retryDue s w = true := by
  rcases h with h | ⟨hdue, htakes, hfirst⟩
  · simp [retryDue, h]
  · simp [retryDue, hdue, htakes, hfirst]

/-- A Moving slot is tried again at its turn (R284). -/
theorem exec_loadRetry_moving {n : Nat} (hk : s.loader.waiting[k]? = some (.moving n)) (hready : ready s = true)
    (hdue : retryDue s (.moving n) = true) : exec (.loadRetry k) s = .next (tryMoving (takeTurn s (.moving n)) n) := by
  show execLoadRetry k s = _
  simp [execLoadRetry, hk, hready, hdue]

/-- A LOAD that waits is tried again at its turn (R283). -/
theorem exec_loadRetry_load {ld seq n : Nat} {img : List Byte} {q : Entry} (hk : s.loader.waiting[k]? = some (.load ld seq n img))
    (hready : ready s = true) (hdue : retryDue s (.load ld seq n img) = true)
    (hq : findEntry (takeTurn s (.load ld seq n img)) ld seq = some q) :
    exec (.loadRetry k) s = .next (tryLoad (takeTurn s (.load ld seq n img)) q n img) := by
  show execLoadRetry k s = _
  simp [execLoadRetry, hk, hready, hdue, hq]

end retry

/-- Settles O44: each command by what it does at its turn, then what waits at the loader. -/
theorem commandTurns : Obligations.CommandTurns := by
  unfold Obligations.CommandTurns
  intro st e s hst
  refine ⟨?_, exec_load hst, exec_unload hst, fun h => atTurn_of_turnOf hst h _, fun h => atTurn_of_turnOf hst h _,
    fun h => ⟨exec_open hst h, exec_rebind hst h⟩, exec_close hst, ?_⟩
  · intro cls hcls h hhead hbar slot hmoving hbusy hothers
    rw [exec_headMoment hst hcls h hhead, headMoment_free hbar hmoving hbusy hothers]
  · intro k w hk hready hfirst u
    have hdue := retryDue_of_first hfirst
    refine ⟨?_, ?_⟩
    · rintro n rfl
      exact exec_loadRetry_moving hk hready hdue
    · rintro ld seq n img q rfl hq
      exact exec_loadRetry_load hk hready hdue hq

end Sys2Proof.Machine

/-! PROOFS. The commit of a take (R317 to R319, R394). -/
namespace Sys2Proof.Machine

open Sys2Proof

/-- The head command of a stream has a take that has ended, with every landing sealed. -/
structure TakeEnded (s : State) (st : Nat) (e : Entry) (t : Take) : Prop where
  head : headEntry s st = some e
  take : takeOfCmd s st e.seq = some t
  ready : ready s = true
  ended : t.ended = true
  live : t.killed = false
  landed : landingsOf s st e.seq = []

section ended

variable {s : State} {st : Nat} {e : Entry} {t : Take}

/-- Nothing holds the commit back. -/
theorem TakeEnded.not_held (h : TakeEnded s st e t) :
    ¬(¬ Machine.ready s ∨ ¬ t.ended ∨ t.killed ∨ ¬ (landingsOf s st e.seq).isEmpty) := by
  simp [h.ready, h.ended, h.live, h.landed]

/-- A take with a Final status ends its command with it (R317 step 2, R319). -/
theorem commit_final (h : TakeEnded s st e t) (f : Nat × Nat × Nat × Nat) (hf : t.final = some f) :
    exec (.commit st) s = .next (endFinal s t f) := by
  show execCommit st s = _
  simp only [execCommit, h.head, h.take, if_neg h.not_held, hf]

/-- A RUN commits at once (R317). -/
theorem commit_run (h : TakeEnded s st e t) (hf : t.final = none) (hcls : e.cls = 1) : exec (.commit st) s = .next (commitTake s e t 0 []) := by
  show execCommit st s = _
  simp only [execCommit, h.head, h.take, if_neg h.not_held, hf, if_pos hcls]

variable {r : Run} {x : StepSt}

/-- A STEP whose verdict is SKIP commits with status 9 and publishes nothing (R394). -/
theorem commit_skip (h : TakeEnded s st e t) (hf : t.final = none) (hcls : e.cls ≠ 1) (hrun : runById s t.run = some r)
    (hstep : stepSt s t.run e.step = some x) (hverdict : x.verdict = 2) : exec (.commit st) s = .next (commitTake s e t 9 []) := by
  show execCommit st s = _
  simp only [execCommit, h.head, h.take, if_neg h.not_held, hf, if_neg hcls, hrun, hstep, if_pos hverdict]

/-- A STEP whose verdict is UPDATE commits with the updates that it publishes, once it has every SIGNS (R394). -/
theorem commit_update (h : TakeEnded s st e t) (hf : t.final = none) (hcls : e.cls ≠ 1) (hrun : runById s t.run = some r)
    (hstep : stepSt s t.run e.step = some x) (ups : List Update) (hverdict : x.verdict ≠ 2) (hlost : runLost s r = none)
    (hsigns : hasSigns r x = true) (hups : toPublish s r e.step = some ups) : exec (.commit st) s = .next (commitTake s e t 0 ups) := by
  show execCommit st s = _
  simp only [execCommit, h.head, h.take, if_neg h.not_held, hf, if_neg hcls, hrun, hstep, if_neg hverdict, hlost, hsigns, not_true_eq_false,
    if_false, hups]

end ended

/-- Settles O48: a Final status that is pending, then a RUN, then a STEP by its verdict. -/
theorem takesCommit : Obligations.TakesCommit := by
  unfold Obligations.TakesCommit
  intro st e t s hhead htake hready hended hlive hlanded
  have h : TakeEnded s st e t := ⟨hhead, htake, hready, hended, hlive, hlanded⟩
  exact ⟨commit_final h, commit_run h, fun hf hcls r x hrun hstep => ⟨commit_skip h hf hcls hrun hstep, commit_update h hf hcls hrun hstep⟩⟩

end Sys2Proof.Machine

/-! PROOFS. A power failure while a read-out runs (R436, R438, R483): the header that marks the read-out ABANDONED. -/
namespace Sys2Proof.Machine

open Sys2Proof

-- Bytes of DRAM, and the logbook's and Derler's own writes

/-- An address of a controller is kept in DRAM, under itself. -/
theorem locate_of_ctlOf {s : State} {a k : Nat} (h : ctlOf a = some k) : locate s a = some (false, a) := by
  unfold ctlOf at h
  unfold locate
  split at h
  · next hdec => rw [hdec]
  · next hdec => rw [hdec]
  · cases h

/-- A byte of a controller's memory depends on DRAM alone. -/
theorem devByte_of_ctlOf {s : State} {a k : Nat} (h : ctlOf a = some k) : devByte s a = memRead s.mem a :=
  devByte_of_locate (locate_of_ctlOf h)

/-- A byte after one of the device's own writes: inside, the byte written; outside, what was there. -/
theorem devByte_ownWrite {s : State} {a : Nat} {d : List Byte} (hloc : ∀ i, i < d.length → (locate s (a + i)).isSome = true) (x : Nat) :
    devByte (ownWrite s a d) x = if a ≤ x ∧ x < a + d.length then d.getD (x - a) 0 else devByte s x := by
  have hloc' : ∀ i, i < d.length → (locate (clearPoison (fillFirst s a d.length) a d.length) (a + i)).isSome = true := fun i hi => by
    rw [locate_congr (s := s) (by simp)]
    exact hloc i hi
  rw [ownWrite, devByte_notifyStale, devByte_devWrites x d _ a hloc', devByte_congr (s := fillFirst s a d.length) (by simp) (by simp) (by simp),
    devByte_fillFirst]

-- The header of the dailies (R480)

/-- A block keeps its first byte and gains four bytes of CRC-32C. -/
theorem withCrc_shape {b : List Byte} {off : Nat} {x : Byte} (hb : ∃ t, b = x :: t) (hlen : b.length = off) :
    (withCrc b off).getD 0 0 = x ∧ (withCrc b off).length = off + 4 := by
  obtain ⟨t, hb⟩ := hb
  have hslice : slice b 0 off = b := by simp [slice, zeros, ← hlen]
  have hrest : b.drop (off + 4) = [] := List.drop_eq_nil_of_le (by omega)
  have hcrc (v : Nat) : (leBytes 4 v).length = 4 := rfl
  rw [withCrc, hslice, hrest, List.append_nil, List.length_append, hcrc, hlen, hb]
  exact ⟨rfl, rfl⟩

/-- The header begins with the low byte of its magic number and is 64 B long. -/
theorem dailiesHeader_shape (s : State) (status nsect bytes : Nat) :
    (dailiesHeader s status nsect bytes).getD 0 0 = 0x31 ∧ (dailiesHeader s status nsect bytes).length = 64 := by
  have hmagic : leBytes 4 0x4B554431 = [0x31, 0x44, 0x55, 0x4B] := by decide
  unfold dailiesHeader
  rw [hmagic]
  generalize hb : _ ++ zeros 11 = b
  have hlen : b.length = 60 := by
    rw [← hb]
    rfl
  exact withCrc_shape ⟨_, hb.symm⟩ hlen

/-- Whether Derler can write at an address depends on the memories and the failed hub. -/
theorem packageThere_congr {s t : State} (hctl : t.memctl = s.memctl) (hdrl : t.drl = s.drl) (a : Nat) : packageThere t a = packageThere s a := by
  have hmem (k : Nat) : ctl t k = ctl s k := by rw [ctl, ctl, hctl]
  unfold packageThere
  split
  · next k _ => rw [hmem k, hdrl]
  · rfl

/-- Whether Derler can write its area depends on the area's register, the memories and the failed hub. -/
theorem areaThere_congr {s t : State} (hreg : cget t dailiesReg = cget s dailiesReg) (hctl : t.memctl = s.memctl) (hdrl : t.drl = s.drl) :
    areaThere t = areaThere s := by
  rw [areaThere, areaThere, hreg, packageThere_congr hctl hdrl, packageThere_congr hctl hdrl]

/-- Where Derler can write its area, the first byte of a header is at the area's base. -/
theorem devByte_putHeader_base {s : State} (status nsect bytes : Nat) (hthere : areaThere s = true)
    (hdram : ∀ i, i < 64 → (locate s (areaBase (cget s dailiesReg) + i)).isSome = true) :
    devByte (putHeader s status nsect bytes) (areaBase (cget s dailiesReg)) = 0x31 := by
  obtain ⟨hfirst, hlen⟩ := dailiesHeader_shape s status nsect bytes
  rw [putHeader, if_pos hthere, devByte_ownWrite (by rwa [hlen]), if_pos (by omega), Nat.sub_self, hfirst]

/-- A free value that is taken leaves the registers. -/
theorem cget_takeFree (s : State) (a : Nat) : cget (takeFree s).2 a = cget s a := rfl

/-- A free value that is taken leaves Derler's area where it was. -/
theorem areaThere_takeFree (s : State) : areaThere (takeFree s).2 = areaThere s :=
  areaThere_congr (cget_takeFree s dailiesReg) rfl (takeFree_drl s)

/-- So it is when the read-out has not ended. -/
theorem devByte_openHeader_base {s : State} (status : Nat) (hthere : areaThere s = true)
    (hdram : ∀ i, i < 64 → (locate s (areaBase (cget s dailiesReg) + i)).isSome = true) :
    devByte (openHeader s status) (areaBase (cget s dailiesReg)) = 0x31 := by
  have hreg : cget (takeFree (takeFree s).2).2 dailiesReg = cget s dailiesReg :=
    (cget_takeFree _ _).trans (cget_takeFree _ _)
  rw [← areaThere_takeFree, ← areaThere_takeFree] at hthere
  rw [openHeader, ← hreg]
  refine devByte_putHeader_base _ _ _ hthere fun i hi => ?_
  rw [hreg, locate_congr (s := s) (by simp)]
  exact hdram i hi

-- The flush that begins (R436, R438, R483)

/-- A memory's exit from self-refresh changes no byte. -/
theorem readyCtl_mem (s : State) (k : Nat) : (readyCtl s k).mem = s.mem := by
  unfold readyCtl
  split <;> rfl

/-- A flush that begins while a read-out runs writes the read-out's header, ABANDONED, and nothing else into DRAM (R483). -/
theorem startFlush_mem_of_reading {s : State} (hrails : s.drl.rails = true) (hhalted : s.drl.halted = false) (hphase : s.drl.phase = .ready)
    (hfrz : s.drl.frz = .reading) : (startFlush s).mem = (openHeader s 8).mem := by
  have hfold (t : State) : (bankCtls.foldl readyCtl t).mem = t.mem :=
    List.foldlRecOn (motive := fun u => u.mem = t.mem) bankCtls readyCtl rfl fun u hu k _ => (readyCtl_mem u k).trans hu
  have heq : startFlush s = modDrl (bankCtls.foldl readyCtl (cput (openHeader s 8) 0x100000 55 48 0)) fun d =>
      { d with phase := .flushing, started := false, frz := .frozen } := by
    simp [startFlush, hrails, hhalted, hphase, hfrz]
  rw [heq, modDrl_mem, hfold, cput, cset_mem]

/-- READY, with a read-out under way in an area as the device leaves the factory: package 63, which the bank does not feed. -/
def readingOut : State :=
  { State.reset with drl := { State.reset.drl with phase := .ready, started := true, frz := .reading } }

/-- The device as the power stage has taken the rails away, the flush still to begin. -/
def railsDropped : State := logFault (failPower readingOut) 0x0E 0xFF 0xFF 4

/-- Base of the dailies area as the device leaves the factory. -/
def factoryArea : Nat := 0xFFE00000000

theorem exec_pwrFail_readingOut : exec .pwrFail readingOut = .next (startFlush railsDropped) := by
  have hhigh : readingOut.drl.pwrFailN = true := rfl
  have hrun : ¬(readingOut.drl.halted ∨ (¬ readingOut.drl.rails ∧ readingOut.drl.phase ≠ .flushed)) := by decide
  show execPwrFail readingOut = _
  rw [execPwrFail, if_neg (not_not.2 hhigh), if_neg hrun, railsDropped]

theorem railsDropped_drl : railsDropped.drl = { readingOut.drl with pwrFailN := false } := by
  rw [railsDropped, logFault_drl]
  rfl

theorem areaBase_railsDropped : areaBase (cget railsDropped dailiesReg) = factoryArea := by decide +kernel

theorem areaThere_railsDropped : areaThere railsDropped = true := by decide +kernel

/-- The first 64 B of the area lie in package 63, behind controller 79. -/
theorem ctlOf_factoryArea {i : Nat} (hi : i < 64) : ctlOf (factoryArea + i) = some 79 := by
  have h : ∀ i < 64, ctlOf (factoryArea + i) = some 79 := by decide +kernel
  exact h i hi

/-- Refutes O55: with a read-out under way, the flush that PWR_FAIL_N begins writes the read-out's header, ABANDONED, into package 63, whose
rail has just dropped; the byte at its base is then 0x31, the first of the header's magic number, and not 0. -/
theorem not_flushAndRails : ¬ Obligations.FlushAndRails := by
  unfold Obligations.FlushAndRails
  rintro ⟨-, -, -, hdrop, -⟩
  obtain ⟨t, hexec, -, hlost⟩ := hdrop readingOut rfl rfl
  obtain rfl : startFlush railsDropped = t := Host.Outcome.next.inj (exec_pwrFail_readingOut.symm.trans hexec)
  have hzero := hlost 79 (by decide) (by decide) factoryArea (ctlOf_factoryArea (i := 0) (by decide))
  have hmem : (startFlush railsDropped).mem = (openHeader railsDropped 8).mem :=
    startFlush_mem_of_reading (by rw [railsDropped_drl]; rfl) (by rw [railsDropped_drl]; rfl) (by rw [railsDropped_drl]; rfl)
      (by rw [railsDropped_drl]; rfl)
  have hbase : devByte (openHeader railsDropped 8) factoryArea = 0x31 := by
    rw [← areaBase_railsDropped]
    refine devByte_openHeader_base 8 areaThere_railsDropped fun i hi => ?_
    rw [areaBase_railsDropped, locate_of_ctlOf (ctlOf_factoryArea hi)]
    rfl
  have hdram : ctlOf factoryArea = some 79 := ctlOf_factoryArea (i := 0) (by decide)
  rw [devByte_of_ctlOf hdram, hmem, ← devByte_of_ctlOf hdram, hbase] at hzero
  exact absurd hzero (by decide)

end Sys2Proof.Machine

/-! PROOFS. Cold start, READY and warm resets (R321, R449 to R453, R466). -/
namespace Sys2Proof.Machine

open Sys2Proof

-- The boot ends in a phase (R449, R452)

/-- BOOT_FAIL is a phase. -/
theorem bootFail_phase (s : State) (code : Nat) : (bootFail s code).drl.phase = .bootFail := rfl

/-- A cold start ends in the LOGBOOK phase, unless one of its tests ends it in BOOT_FAIL (R449, R452). -/
theorem coldStart_phase (s : State) (f : BootFacts) : (coldStart s f).drl.phase = .logbook ∨ (coldStart s f).drl.phase = .bootFail := by
  have hboot (t : State) : (rearm (modDrl t fun d => { d with phase := .logbook })).drl.phase = .logbook := by simp
  unfold coldStart
  extract_lets cause warmN freezeN s1 s2
  split
  · exact .inr (bootFail_phase _ _)
  · extract_lets s3 s4 s5 s6 s7 net s8 s9 s10 s11
    split
    · exact .inr (bootFail_phase s3 2)
    · split
      · exact .inr (bootFail_phase s3 3)
      · split
        · exact .inr (bootFail_phase s8 4)
        · split
          · exact .inr (bootFail_phase s11 5)
          · split
            · exact .inr (bootFail_phase s11 6)
            · exact .inl (hboot s11)

/-- The units that a cold start names exist. -/
theorem exec_coldStart {f : BootFacts} {s : State} (hdies : ∀ d ∈ f.deadDies, d < 8) (hmems : ∀ k ∈ f.deadMems, k < 80)
    (hcores : ∀ c ∈ f.badCores, c < 208) (hrails : s.drl.rails = true) (hstarted : s.drl.started = false) (hphase : s.drl.phase = .rom) :
    exec (.coldStart f) s = .next (coldStart s f) := by
  have hunits : (f.deadDies.all (· < 8) && f.deadMems.all ctlOk && f.badCores.all coreOk) = true := by
    simp only [Bool.and_eq_true, List.all_eq_true, ctlOk, coreOk, decide_eq_true_eq]
    exact ⟨⟨hdies, hmems⟩, hcores⟩
  show execColdStart f s = _
  simp [execColdStart, hunits, hrails, hstarted, hphase]

-- Completions leave the streams (R303, R304)

/-- A message that is posted leaves the intake. -/
theorem send_intake (s : State) (q : Nat) (kind : MsgKind) (key va : Nat) (data : List Byte) :
    (send s q kind key va data).intake = s.intake := by
  unfold send sentOn countFrames
  dsimp only
  split <;> rfl

/-- A completion leaves the streams. -/
theorem stream_complete (s : State) (st seq : Nat) (c : CInfo) (n : Nat) : stream (complete s st seq c) n = stream s n := by
  unfold complete
  split
  · rfl
  · dsimp only
    rw [stream, send_intake]
    split_ifs <;> rfl

/-- The completions of journaled commands leave the streams. -/
theorem stream_journaledOutcomes (s : State) (st n : Nat) : stream (journaledOutcomes s st) n = stream s n :=
  List.foldlRecOn (motive := fun t => stream t n = stream s n) (inOrder s st) _ rfl fun t ht e _ => by
    split
    · exact (stream_complete ..).trans ht
    · exact ht

/-- Stream 0 is open, on the host's queue pair (R450). -/
theorem stream0_openStream0 (s : State) : (stream (openStream0 s) 0).state = .idle ∧ (stream (openStream0 s) 0).qp = 4096 := by
  simp only [openStream0, stream_journaledOutcomes, stream_setStream, if_true, and_self]

-- READY (R450, R457)

/-- With its pins high and no cause that waits, the device that comes to READY stays there, and its streams are as they were (R457). -/
theorem enterReady_pinsHigh {s : State} (hwarm : s.drl.warmResetN = true) (hdue : s.drl.warmDue = false) (hfreeze : s.drl.freezeN = true) :
    (enterReady s).drl.phase = .ready ∧ (enterReady s).drl.frz = .running ∧ ∀ n, stream (enterReady s) n = stream s n := by
  have heq : enterReady s = alert (cput (modDrl s fun d => { d with phase := .ready, frz := .running, frzCmd := 0, frzPin := false, frzHold := false })
      0x100000 31 0 (s.kc % 2 ^ 32)) 0 := by
    simp [enterReady, hwarm, hdue, hfreeze]
  rw [heq]
  exact ⟨by simp, by simp, fun n => rfl⟩

/-- ARMED brings READY, and stream 0 opens (R449, R450). -/
theorem exec_coldReady {s : State} (hrails : s.drl.rails = true) (hstarted : s.drl.started = true) (hphase : s.drl.phase = .logbook)
    (harmed : (cget s 0x208000).getLsbD 1 = true) :
    exec .coldReady s = .next (enterReady (openStream0 (modIntake (beginFill s) fun x => { x with ran := true }))) := by
  show execColdReady s = _
  simp only [execColdReady, hrails, hstarted, hphase, harmed, decide_true, Bool.and_self, when_true]

-- A warm reset begins (R453)

/-- What Derler notes as a warm reset begins. -/
theorem beginWarm_drl (s : State) (cause : Nat) : (beginWarm s cause).drl.phase = .warm ∧ (beginWarm s cause).drl.started = false ∧
    (beginWarm s cause).drl.warmCause = cause ∧ (beginWarm s cause).drl.warmResetN = s.drl.warmResetN := by
  refine ⟨rfl, rfl, rfl, ?_⟩
  simp [beginWarm]

/-- WARM_RESET_N falls at READY. -/
theorem exec_warmResetAssert {s : State} (hpin : s.drl.warmResetN = true) (hrails : s.drl.rails = true) (hphase : s.drl.phase = .ready)
    (hhalted : s.drl.halted = false) :
    exec .warmResetAssert s = .next (beginWarm (modDrl s fun d => { d with warmResetN := false }) 2) := by
  show execWarmResetAssert s = _
  simp [execWarmResetAssert, hpin, hrails, hphase, hhalted]

-- The logic leaves reset (R453, R466)

/-- A core's test begins with Derler's table and that core alone; what the core shares with a take stands. -/
theorem beginTest_frame (s : State) (c : Nat) : (beginTest s c).sram = s.sram ∧ (beginTest s c).mem = s.mem ∧ (beginTest s c).fab = s.fab ∧
    ∀ d, (core (beginTest s c) d).share = (core s d).share := by
  refine ⟨rfl, rfl, rfl, fun d => ?_⟩
  simp only [beginTest, core_modCore]
  split
  · next h => subst h; rfl
  · rfl

/-- The tests of several cores begin. -/
theorem beginTests_frame (l : List Nat) (s : State) : (l.foldl beginTest s).sram = s.sram ∧ (l.foldl beginTest s).mem = s.mem ∧
    (l.foldl beginTest s).fab = s.fab ∧ ∀ d, (core (l.foldl beginTest s) d).share = (core s d).share := by
  induction l generalizing s with
  | nil => exact ⟨rfl, rfl, rfl, fun _ => rfl⟩
  | cons c t ih =>
    obtain ⟨hsram, hmem, hfab, hshare⟩ := ih (beginTest s c)
    obtain ⟨hsram', hmem', hfab', hshare'⟩ := beginTest_frame s c
    exact ⟨hsram.trans hsram', hmem.trans hmem', hfab.trans hfab', fun d => (hshare d).trans (hshare' d)⟩

/-- A core that is Fenced as a test begins was Fenced before, and is not the one under test. -/
theorem fenced_of_beginTest {s : State} {c d : Nat} (h : (pcoreOf (beginTest s c) d).state = .fenced) :
    d ≠ c ∧ (pcoreOf s d).state = .fenced := by
  have h' : (pcoreOf (setPcore s c { pcoreOf s c with state := .testing }) d).state = .fenced := h
  by_cases hd : d = c
  · subst hd
    by_cases hlt : d < s.drl.pcores.length
    · rw [pcoreOf_setPcore hlt] at h'
      cases h'
    · rw [setPcore_of_le (by omega), pcoreOf, List.getD_eq_default _ _ (by omega)] at h'
      cases h'
  · exact ⟨hd, by rwa [pcoreOf_setPcore_ne hd] at h'⟩

/-- A core that is Fenced once several tests have begun was Fenced before, and is none of those under test. -/
theorem fenced_of_beginTests {l : List Nat} {s : State} {d : Nat} (h : (pcoreOf (l.foldl beginTest s) d).state = .fenced) :
    d ∉ l ∧ (pcoreOf s d).state = .fenced := by
  induction l generalizing s with
  | nil => exact ⟨by simp, h⟩
  | cons c t ih =>
    obtain ⟨ht, hs⟩ := ih h
    obtain ⟨hc, hs⟩ := fenced_of_beginTest hs
    exact ⟨by simp [hc, ht], hs⟩

/-- No core is Fenced once every Fenced one is under test (R466). -/
theorem not_fenced_after_tests (s : State) {c : Nat} (hc : c < 208) :
    (pcoreOf (((List.range 208).filter fun c => decide ((pcoreOf s c).state = .fenced)).foldl beginTest s) c).state ≠ .fenced := by
  intro h
  obtain ⟨hnot, hs⟩ := fenced_of_beginTests h
  exact hnot (List.mem_filter.2 ⟨List.mem_range.2 hc, by simpa using hs⟩)

/-- The logic of the fast domain as it leaves reset, before the Fenced cores are tested. -/
def warmCleared (s : State) : State :=
  { csrWarm s with
    sram := [], cores := s.cores.map fun e => (e.1, warmCore e.2),
    fab := { s.fab with arrivals := [], flits := [], circ := [], sent := [] },
    wkc := s.wkc.map fun e => (e.1, ({ init := e.2.init, bound := e.2.bound } : Wkc)),
    pwr := {}, obs := { s.obs with pendLost := [], staged := [] },
    net := { s.net with ports := s.net.ports.map fun e => (e.1, { e.2 with paused := false }) } }

/-- The logic leaves reset, then every Fenced core's test begins, then the memories wake and are confirmed (R453, R466). -/
theorem warmLogic_eq (s : State) : warmLogic s = confirmMems (wakeMemories (modDrl
    (((List.range 208).filter fun c => decide ((pcoreOf (warmCleared s) c).state = .fenced)).foldl beginTest (warmCleared s))
    fun d => { d with started := true })) := rfl

/-- No core takes part in a take after the reset. -/
theorem share_warmCleared (s : State) (c : Nat) : (core (warmCleared s) c).share = .none := by
  have h : core (warmCleared s) c = warmCore (core s c) := tget_map ({} : Core) warmCore rfl s.cores c
  rw [h]
  rfl

/-- What a warm reset's logic leaves: SRAM, what travelled and every share are gone, DRAM stands, and no core is Fenced (R453, R466). -/
theorem warmLogic_leaves (s : State) : (warmLogic s).drl.started = true ∧ (warmLogic s).sram = [] ∧ (warmLogic s).mem = s.mem ∧
    (warmLogic s).fab.flits = [] ∧ (warmLogic s).fab.arrivals = [] ∧ (∀ c, (core (warmLogic s) c).share = .none) ∧
    ∀ c, c < 208 → (pcoreOf (warmLogic s) c).state ≠ .fenced := by
  obtain ⟨hsram, hmem, hfab, hshare⟩ := beginTests_frame
    ((List.range 208).filter fun c => decide ((pcoreOf (warmCleared s) c).state = .fenced)) (warmCleared s)
  rw [warmLogic_eq]
  exact ⟨rfl, hsram, hmem, congrArg Fabric.flits hfab, congrArg Fabric.arrivals hfab, fun c => (hshare c).trans (share_warmCleared s c),
    fun c hc => not_fenced_after_tests (warmCleared s) hc⟩

/-- WARM_RESET_N rises, and the logic leaves reset. -/
theorem exec_warmResetRelease {s : State} (hphase : s.drl.phase = .warm) (hstarted : s.drl.started = false) (hhalted : s.drl.halted = false) :
    exec .warmResetRelease s = .next (warmLogic (modDrl s fun d => { d with warmResetN := d.warmResetN || decide (d.warmCause = 2) })) := by
  show execWarmResetRelease s = _
  simp [execWarmResetRelease, hphase, hstarted, hhalted]

/-- A warm reset is finished once no core is under test (R453, R466). -/
theorem exec_warmReady {s : State} (hphase : s.drl.phase = .warm) (hstarted : s.drl.started = true) (hhalted : s.drl.halted = false)
    (htested : ∀ p ∈ s.drl.pcores, p.state ≠ .testing) : exec .warmReady s = .next (warmReady s) := by
  have hall : (s.drl.pcores.all fun p => decide (p.state ≠ .testing)) = true := by simpa using htested
  show execWarmReady s = _
  simp only [execWarmReady, hphase, hstarted, hhalted, hall, decide_true, Bool.not_false, Bool.and_self, when_true]

/-- Settles O56: each start and reset by what its command does, in the order in which they come. -/
theorem startsAndResets : Obligations.StartsAndResets := by
  unfold Obligations.StartsAndResets
  refine ⟨fun f s hdies hmems hcores hrails hstarted hphase =>
      ⟨exec_coldStart hdies hmems hcores hrails hstarted hphase, coldStart_phase s f⟩,
    fun s hrails hstarted hphase harmed hwarm hdue hfreeze => ?_, fun s hpin hrails hphase hhalted => ?_,
    fun s hphase hstarted hhalted => ⟨_, exec_warmResetRelease hphase hstarted hhalted, warmLogic_leaves _⟩,
    fun s => exec_warmReady⟩
  · obtain ⟨hidle, hqp⟩ := stream0_openStream0 (modIntake (beginFill s) fun x => { x with ran := true })
    generalize hboot : openStream0 (modIntake (beginFill s) fun x => { x with ran := true }) = u at hidle hqp
    have hdrl : u.drl = s.drl := by
      rw [← hboot, openStream0_drl, modIntake_drl, beginFill_drl]
    obtain ⟨hready, hrun, hstream⟩ := enterReady_pinsHigh (s := u) (by rw [hdrl, hwarm]) (by rw [hdrl, hdue]) (by rw [hdrl, hfreeze])
    refine ⟨enterReady u, hboot ▸ exec_coldReady hrails hstarted hphase harmed, hready, hrun, ?_, (congrArg Stream.qp (hstream 0)).trans hqp⟩
    rw [hstream, hidle]
    decide
  · obtain ⟨hwarm, hstart, hcause, hlow⟩ := beginWarm_drl (modDrl s fun d => { d with warmResetN := false }) 2
    exact ⟨_, exec_warmResetAssert hpin hrails hphase hhalted, hwarm, hstart, hcause, hlow⟩

end Sys2Proof.Machine

/-! PROOFS. The network at the receiver: the tests of a packet, its place in the sequence, and what a request does (R351 to R353, R356,
R360 to R363). -/
namespace Sys2Proof.Machine

open Sys2Proof

/-- A packet comes in at a port that is there and Up, while the fast clocks run. -/
structure Arrives (s : State) (m : Pkt) : Prop where
  unit : m.port < 20
  fast : fast s = true
  portUp : (port s m.port).state = .up

/-- It passes the tests of R356, for a queue pair of the device. -/
structure Passes (s : State) (m : Pkt) : Prop extends Arrives s m where
  known : m.qp < 4352
  passes : pktPasses s m = true

/-- The state that a packet's own effect meets: its frame is noted, a CNP has gone back if one is due, and its queue pair is on its port. -/
def metBy (s : State) (m : Pkt) : State := followPort (answerCe (noteFrame s m) m) m

section received

variable {s : State} {m : Pkt} {f : State → State}

/-- A packet that fails a test, or names a queue pair that the device does not have, is dropped and counted (R356). -/
theorem received_dropped (h : Arrives s m) (hfails : pktPasses s m = false ∨ 4352 ≤ m.qp) :
    received s m f = .next (bump (noteFrame s m) (netBase + 0x200) 1) := by
  have hdrop : ¬(qpOk m.qp ∧ pktPasses s m) := by
    rintro ⟨hq, hpass⟩
    rcases hfails with hfail | hbig
    · exact Bool.false_ne_true (hfail.symm.trans hpass)
    · exact absurd hbig (Nat.not_le.2 (of_decide_eq_true hq))
  simp only [received, portOk, h.unit, h.fast, h.portUp, decide_true, onUnit_true, not_true_eq_false, ne_eq, or_self, if_false, if_pos hdrop]

/-- A packet that passes the tests takes its effect (R356). -/
theorem received_passed (h : Passes s m) : received s m f = .next (f (metBy s m)) := by
  simp [received, portOk, qpOk, h.unit, h.fast, h.portUp, h.known, h.passes, metBy]

end received

section sequence

variable {s : State} {m : Pkt} {dup f : State → State}

/-- The expected packet takes its effect, and a NAK may go out again (R356 step 4). -/
theorem atPsn_expected (h : psnFrom (qp s m.qp).rcvPsn m.psn = 0) :
    atPsn s m dup f = f (setQp s m.qp { qp s m.qp with nakOut := false }) := if_pos h

/-- A packet behind the expected one is a duplicate. -/
theorem atPsn_behind (h : psnFrom (qp s m.qp).rcvPsn m.psn ≠ 0) (hbehind : 2 ^ 23 ≤ psnFrom (qp s m.qp).rcvPsn m.psn) :
    atPsn s m dup f = dup s := by
  simp only [atPsn, if_neg h, if_pos hbehind]

/-- A packet ahead of the expected one gets no second NAK. -/
theorem atPsn_ahead_naked (h : psnFrom (qp s m.qp).rcvPsn m.psn ≠ 0) (hahead : psnFrom (qp s m.qp).rcvPsn m.psn < 2 ^ 23)
    (hnak : (qp s m.qp).nakOut = true) : atPsn s m dup f = s := by
  simp only [atPsn, if_neg h, if_neg (Nat.not_le.2 hahead), if_pos hnak]

/-- The first packet ahead of the expected one gets NAK Sequence Error. -/
theorem atPsn_ahead (h : psnFrom (qp s m.qp).rcvPsn m.psn ≠ 0) (hahead : psnFrom (qp s m.qp).rcvPsn m.psn < 2 ^ 23)
    (hnak : (qp s m.qp).nakOut = false) :
    atPsn s m dup f = sendNak (setQp s m.qp { qp s m.qp with nakOut := true }) m.qp (qp s m.qp).rcvPsn 0 := by
  simp only [atPsn, if_neg h, if_neg (Nat.not_le.2 hahead), hnak, Bool.false_eq_true, if_false]

end sequence

section write

-- The key, the address and the bytes to come are those of the packet itself in a message's first, else those that the queue pair keeps (R351).
variable {s w : State} {m : Pkt} {op key va k a left : Nat} {data : List Byte}
  (hk : (if op = 0x06 ∨ op = 0x0A then key else (qp s m.qp).rxKey) = k) (ha : (if op = 0x06 ∨ op = 0x0A then va else (qp s m.qp).rxVa) = a)
  (hleft : (if op = 0x06 ∨ op = 0x0A then m.dma else (qp s m.qp).rxLeft) = left)

include hleft

/-- A write packet that does not fit its message gets NAK Invalid Request (R351, R352). -/
theorem inWrite_unfit (hfits : writeFits (qp s m.qp) op data.length left = false) : inWrite s m op key va data = nakInvalid s m := by
  simp [inWrite, hleft, hfits]

include hk ha

/-- One whose access is refused gets NAK Remote Access Error (R356 step 6). -/
theorem inWrite_refused (hfits : writeFits (qp s m.qp) op data.length left = true)
    (hw : writeAccess s m.qp k a left data (decide (op = 0x0A)) = (false, w)) : inWrite s m op key va data = nakAccess w m := by
  simp [inWrite, hk, ha, hleft, hfits, hw]

/-- One whose access is done takes its PSN and is acknowledged (R351, R353). -/
theorem inWrite_done (hfits : writeFits (qp s m.qp) op data.length left = true)
    (hw : writeAccess s m.qp k a left data (decide (op = 0x0A)) = (true, w)) : inWrite s m op key va data = sendAck (passPsn (wrote w m.qp
      (if op = 0x06 ∨ op = 0x07 then some (k, a + data.length, left - data.length) else none)) m.qp 1) m.qp m.psn := by
  simp [inWrite, hk, ha, hleft, hfits, hw]

end write

section read

variable {s t : State} {m : Pkt} {key va len : Nat}

/-- A read whose access is refused gets NAK Remote Access Error (R356 step 6). -/
theorem inRead_refused (again : Bool) (hlen : len ≤ 2 ^ 31) (hread : readAccess s m.qp key va len = (none, t)) :
    inRead s m key va len again = nakAccess t m := by
  simp only [inRead, if_neg (Nat.not_lt.2 hlen), hread]

/-- A read at its PSN takes a PSN for each packet of its answer (R351, log 16). -/
theorem inRead_answered {b : List Byte} (hlen : len ≤ 2 ^ 31) (hread : readAccess s m.qp key va len = (some b, t)) :
    inRead s m key va len false = answer (passPsn t m.qp (max 1 (cdiv len (qpMtu (qp t m.qp))))) m.qp
      { kind := .readResp, psn := m.psn, key := 0, va := va, data := b } := by
  simp only [inRead, if_neg (Nat.not_lt.2 hlen), hread, Bool.false_eq_true, if_false]

end read

section requests

variable {s : State} {m : Pkt}

/-- A packet at its PSN. -/
structure InOrder (s : State) (m : Pkt) : Prop extends Passes s m where
  next : psnFrom (qp (metBy s m) m.qp).rcvPsn m.psn = 0

/-- The state in which a request at its PSN acts: a NAK may go out again. -/
def expecting (s : State) (m : Pkt) : State := setQp (metBy s m) m.qp { qp (metBy s m) m.qp with nakOut := false }

/-- The queue pair of a request at its PSN. -/
theorem qp_expecting (s : State) (m : Pkt) : qp (expecting s m) m.qp = { qp (metBy s m) m.qp with nakOut := false } := by
  rw [expecting, qp_setQp, if_pos rfl]

/-- A request at its PSN takes its effect (R356). -/
theorem received_inOrder (h : InOrder s m) {dup f : State → State} :
    received s m (fun s => atPsn s m dup f) = .next (f (expecting s m)) := by
  rw [received_passed h.toPasses, atPsn_expected h.next, expecting]

theorem exec_rxRdmaWrite (m : Pkt) (op key va : Nat) (data : List Byte) (s : State) : exec (.rxRdmaWrite m op key va data) s =
    received s m fun s => atPsn s m (ackAgain · m) fun s => inWrite s m op key va data := (rfl)

theorem exec_rxRdmaReadRequest (m : Pkt) (key va len : Nat) (s : State) : exec (.rxRdmaReadRequest m key va len) s =
    received s m fun s => atPsn s m (inRead · m key va len true) fun s =>
      if (qp s m.qp).rxKey ≠ 0 then nakInvalid s m else inRead s m key va len false := (rfl)

/-- A control record at its PSN is one write of the control slot (R362). -/
theorem inControl_inOrder (h : InOrder s m) {kind key : Nat} {b : List Byte} (hkind : fld b 0 1 = kind) :
    inControl m kind key b s = .next (inWrite (expecting s m) m 0x0A key 64 b) := by
  rw [inControl, if_neg (not_not.2 hkind), received_inOrder h]

/-- A control record that fits its packet, at its PSN: the write of it is performed and acknowledged (R362, R363). -/
theorem inControl_done (h : InOrder s m) {kind key : Nat} {b : List Byte} {w : State} (hkind : fld b 0 1 = kind)
    (hkey : (qp (metBy s m) m.qp).rxKey = 0) (hmtu : b.length ≤ qpMtu (qp (metBy s m) m.qp)) (hdma : m.dma = b.length)
    (hw : writeAccess (expecting s m) m.qp key 64 m.dma b true = (true, w)) :
    inControl m kind key b s = .next (sendAck (passPsn (wrote w m.qp none) m.qp 1) m.qp m.psn) := by
  have hfits : writeFits (qp (expecting s m) m.qp) 0x0A b.length m.dma = true := by
    rw [qp_expecting]
    exact decide_eq_true ⟨hkey, hmtu, hdma.symm⟩
  rw [inControl_inOrder h hkind, inWrite_done (if_pos (.inr rfl)) (if_pos (.inr rfl)) (if_pos (.inr rfl)) hfits hw]
  rfl

/-- RX_RDMA_READ_REQUEST at its PSN, outside every write message. -/
theorem exec_rxRdmaReadRequest_inOrder (h : InOrder s m) (hkey : (qp (metBy s m) m.qp).rxKey = 0) (key va len : Nat) :
    exec (.rxRdmaReadRequest m key va len) s = .next (inRead (expecting s m) m key va len false) := by
  rw [exec_rxRdmaReadRequest, received_inOrder h, if_neg (by rw [qp_expecting]; exact not_not.2 hkey)]

/-- An opcode that R351 does not list gets NAK Invalid Request at its PSN (R352). -/
theorem exec_rxInvalidRequest_inOrder (h : InOrder s m) {op : Nat} (hop : opcodeKnown op = false) :
    exec (.rxInvalidRequest m op) s = .next (nakInvalid (expecting s m) m) := by
  show execRxInvalidRequest m op s = _
  rw [execRxInvalidRequest, if_neg (Bool.eq_false_iff.1 hop), received_inOrder h]

end requests

/-- Settles O50: by the tests that a packet passes, then its place in the sequence, then what it asks. -/
theorem inboundRequests : Obligations.InboundRequests := by
  unfold Obligations.InboundRequests
  intro m s hunit hfast hup f u x v d
  have harr : Arrives s m := ⟨hunit, hfast, hup⟩
  refine ⟨fun hfails op key va data len => ⟨?_, ?_⟩, fun hpass hq => ?_⟩
  · rw [exec_rxRdmaWrite, received_dropped harr hfails]
  · rw [exec_rxRdmaReadRequest, received_dropped harr hfails]
  have h : Passes s m := ⟨harr, hq, hpass⟩
  have hin (hd : d = 0) : InOrder s m := ⟨h, hd⟩
  have hwrite (op key va data) : exec (.rxRdmaWrite m op key va data) s =
      .next (atPsn u m (ackAgain · m) fun s => inWrite s m op key va data) := by
    rw [exec_rxRdmaWrite, received_passed h, metBy]
  refine ⟨fun op key va data hd hbehind => ?_, fun op key va data hd hahead hnak => ?_, fun op key va data hd hahead hnak => ?_,
    fun hd op key va data => ?_, fun hd kind key rec w hkind hkey hmtu hdma hw => ?_,
    fun hd key va len t hkey hlen => ⟨fun hread => ?_, fun b hread => ?_⟩, fun hd op => exec_rxInvalidRequest_inOrder (hin hd)⟩
  · rw [hwrite, atPsn_behind hd hbehind, ackAgain]
  · rw [hwrite, atPsn_ahead_naked hd hahead hnak]
  · rw [hwrite, atPsn_ahead hd hahead hnak]
  · intro first more k a left
    have hx : qp v m.qp = { x with nakOut := false } := qp_expecting s m
    have hk : (if first then key else (qp v m.qp).rxKey) = k := by rw [hx]
    have ha : (if first then va else (qp v m.qp).rxVa) = a := by rw [hx]
    have hleft : (if first then m.dma else (qp v m.qp).rxLeft) = left := by rw [hx]
    have hfits : writeFits (qp v m.qp) op data.length left = writeFits x op data.length left := by rw [hx]; rfl
    rw [hwrite, atPsn_expected hd]
    exact ⟨fun hunfit => congrArg _ (inWrite_unfit hleft (hfits.trans hunfit)), fun w hfit =>
      ⟨fun hw => congrArg _ (inWrite_refused hk ha hleft (hfits.trans hfit) hw),
        fun hw => congrArg _ (inWrite_done hk ha hleft (hfits.trans hfit) hw)⟩⟩
  · have hdone {n : Nat} (hn : kind = n) := inControl_done (hin hd) (hkind.trans hn) hkey hmtu hdma hw
    exact ⟨hdone, hdone, hdone⟩
  · rw [exec_rxRdmaReadRequest_inOrder (hin hd) hkey, inRead_refused (s := expecting s m) false hlen hread]
  · rw [exec_rxRdmaReadRequest_inOrder (hin hd) hkey, inRead_answered (s := expecting s m) hlen hread]

end Sys2Proof.Machine

/-! PROOFS. The network at the sender: what answers and congestion notices do (R351, R358, R366). -/
namespace Sys2Proof.Machine

open Sys2Proof

section answers

variable {s : State} {m : Pkt} {d : Nat}

/-- The state in which everything before an answer's PSN has been acknowledged. -/
def ackedTo (s : State) (m : Pkt) (d : Nat) : State := retireMsgs (metBy s m) m.qp (ackedBefore (qp (metBy s m) m.qp) d)

/-- An ACK retires everything up to its PSN (R351). -/
theorem exec_rxAck_sent (h : Passes s m) (hd : sentAt (qp (metBy s m) m.qp) m.psn = some d) : exec (.rxAck m) s = .next (ackedTo s m (d + 1)) := by
  show execRxAck m s = _
  simp only [execRxAck, received_passed h, hd, ackedTo]

/-- A NAK Sequence Error retires everything before its PSN and goes back to it (R351, log 26). -/
theorem exec_rxNak_sequence (h : Passes s m) (hd : sentAt (qp (metBy s m) m.qp) m.psn = some d) :
    exec (.rxNak m 0) s = .next (goBack (ackedTo s m d) m.qp) := by
  show execRxNak m 0 s = _
  simp only [execRxNak, received_passed h, hd, ackedTo]

/-- A NAK Invalid Request or Remote Access Error retires everything before its PSN and puts the queue pair into Error (R358). -/
theorem exec_rxNak_refusal (h : Passes s m) (hd : sentAt (qp (metBy s m) m.qp) m.psn = some d) {kind : Nat} (hkind : kind = 1 ∨ kind = 2) :
    exec (.rxNak m kind) s = .next (errorQp (ackedTo s m d) m.qp (some (nakMet (qp (ackedTo s m d) m.qp) m.psn))) := by
  show execRxNak m kind s = _
  rcases hkind with rfl | rfl <;> simp only [execRxNak, received_passed h, hd, ackedTo]

/-- A read answer retires everything before its request, and is taken when it is the next expected (R351, log 16). -/
theorem exec_rxReadResponse_next (h : Passes s m) (hd : sentAt (qp (metBy s m) m.qp) m.psn = some d) {f : Msg} {l : List Msg}
    {data : List Byte} (hq : (qp (ackedTo s m d) m.qp).sendq = f :: l) (hread : isRead f = true)
    (hpsn : m.psn = (f.psn + (qp (ackedTo s m d) m.qp).rxData.length / qpMtu (qp (ackedTo s m d) m.qp)) % 2 ^ 24) :
    exec (.rxReadResponse m data) s = .next (takeAnswer (ackedTo s m d) m.qp f data) := by
  have hnext := And.intro hread hpsn
  simp only [ackedTo] at hq hnext
  show execRxReadResponse m data s = _
  simp only [execRxReadResponse, received_passed h, hd, hq, if_pos hnext, ackedTo]

/-- An answer to nothing that was sent changes nothing more. -/
theorem exec_answer_unsent (h : Passes s m) (hd : sentAt (qp (metBy s m) m.qp) m.psn = none) (kind : Nat) (data : List Byte) :
    exec (.rxAck m) s = .next (metBy s m) ∧ exec (.rxNak m kind) s = .next (metBy s m) ∧
      exec (.rxReadResponse m data) s = .next (metBy s m) := by
  refine ⟨?_, ?_, ?_⟩
  · show execRxAck m s = _
    simp only [execRxAck, received_passed h, hd]
  · show execRxNak m kind s = _
    simp only [execRxNak, received_passed h, hd]
  · show execRxReadResponse m data s = _
    simp only [execRxReadResponse, received_passed h, hd]

/-- Counting a CNP leaves RATE_EN. -/
theorem rateOn_bump_cnp (t : State) (n : Nat) : rateOn (bump t (netBase + 0x218) n) = rateOn t := by
  rw [rateOn, cget_bump, if_neg (by decide), rateOn]

/-- A CNP is counted and, with RATE_EN, cuts the rate (R366). -/
theorem exec_rxCnp (h : Passes s m) : exec (.rxCnp m) s = .next
    (let t := bump (metBy s m) (netBase + 0x218) 1
     if rateOn (metBy s m) then setQp t m.qp (cnpCut t (qp (metBy s m) m.qp)) else t) := by
  show execRxCnp m s = _
  simp only [execRxCnp, received_passed h, rateOn_bump_cnp, qp_bump]

end answers

/-- Settles O51: an answer by the place of its PSN among what was sent, then a CNP by RATE_EN. -/
theorem inboundAnswers : Obligations.InboundAnswers := by
  unfold Obligations.InboundAnswers
  intro m s hunit hq hfast hup hpass u x
  have h : Passes s m := ⟨⟨hunit, hfast, hup⟩, hq, hpass⟩
  refine ⟨fun d hd => ⟨exec_rxAck_sent h hd, exec_rxNak_sequence h hd, exec_rxNak_refusal h hd (.inl rfl), exec_rxNak_refusal h hd (.inr rfl),
    fun f l data => exec_rxReadResponse_next h hd⟩, exec_answer_unsent h, fun hoff => ?_, fun hon => ?_⟩
  · exact (exec_rxCnp h).trans (congrArg _ (if_neg (Bool.eq_false_iff.1 hoff)))
  · exact (exec_rxCnp h).trans (congrArg _ (if_pos hon))

end Sys2Proof.Machine

/-! PROOFS. Queue pairs that move to their other port, and the re-initialisations that wait for moves (R357, R463, R483). -/
namespace Sys2Proof.Machine

open Sys2Proof

-- Which queue pair an operation of the network changes, and what keeps its ports (R357)

@[simp] theorem qp_countFrames (s : State) (p n r : Nat) : qp (countFrames s p n) r = qp s r := by
  simp only [countFrames]
  split <;> rfl

theorem qp_sentOn (s : State) (q : Nat) (x y : Qp) (r : Nat) : qp (sentOn s q x y) r = if r = q then y else qp s r := by
  simp [sentOn]

/-- The ports that a queue pair sends from and may move to. -/
def route (x : Qp) : Nat × Nat := (x.port, x.other)

theorem route_putAnswers (l : List Msg) (x : Qp) : route (l.foldl putAnswer x) = route x :=
  List.foldlRecOn (motive := fun y => route y = route x) l putAnswer rfl fun _ hy _ _ => hy

theorem route_qpDrain (n : Nat) (x : Qp) : route (qpDrain n x) = route x := by
  induction n generalizing x with
  | zero => rfl
  | succ n ih =>
    rw [qpDrain]
    split
    · rfl
    · split
      · exact ih _
      · rfl

/-- A queue pair that sends what it held keeps its ports. -/
theorem route_drainQp (s : State) (q : Nat) : route (qp (drainQp s q) q) = route (qp s q) := by
  simp only [drainQp]
  split
  · rfl
  · rw [qp_sentOn, if_pos rfl, route_qpDrain, route_putAnswers]
    rfl

/-- So does one that sends again. -/
theorem route_resend (s : State) (q : Nat) : route (qp (resend s q) q) = route (qp s q) := by
  simp only [resend]
  split <;> simp [route]

/-- A queue pair that moves exchanges its ports (R357). -/
theorem route_moveQp (s : State) (q : Nat) : route (qp (moveQp s q) q) = ((qp s q).other, (qp s q).port) := by
  rw [moveQp, route_drainQp, route_resend, qp_bump, qp_setQp, if_pos rfl, route]

theorem qp_drainQp_of_ne {q r : Nat} (h : r ≠ q) (s : State) : qp (drainQp s q) r = qp s r := by
  simp only [drainQp]
  split
  · rfl
  · rw [qp_sentOn, if_neg h, qp_countFrames]

theorem qp_resend_of_ne {q r : Nat} (h : r ≠ q) (s : State) : qp (resend s q) r = qp s r := by
  simp only [resend]
  split <;> simp [h]

theorem qp_moveQp_of_ne {q r : Nat} (h : r ≠ q) (s : State) : qp (moveQp s q) r = qp s r := by
  rw [moveQp, qp_drainQp_of_ne h, qp_resend_of_ne h, qp_bump, qp_setQp, if_neg h]

theorem qp_migrateQp_of_ne {q r : Nat} (h : r ≠ q) (s : State) : qp (migrateQp s q) r = qp s r := by
  simp only [migrateQp]
  split
  · rfl
  · split
    · exact qp_moveQp_of_ne h s
    · rw [qp_setQp, if_neg h]

/-- The fall of a port leaves the queue pairs of other ports. -/
theorem qp_portFall_of_ne {s : State} {p q : Nat} (h : (qp s q).port ≠ p) : qp (portFall s p) q = qp s q := by
  refine List.foldlRecOn (motive := fun t => qp t q = qp s q) _ _ rfl fun t ht r _ => ?_
  split
  · case isTrue hr =>
    have hne : q ≠ r := fun heq => h (by rw [← ht, heq, hr])
    rw [qp_migrateQp_of_ne hne, ht]
  · exact ht

/-- No re-initialisation waits at a port, in any entry of it that the table lists. -/
def noneWaits (s : State) (p : Nat) : Prop := tabIn (fun k x => k = p → x.reinit = false) s.net.ports

/-- Re-initialisations that waited at other ports leave a queue pair. -/
theorem qp_dueReinits {s : State} {q : Nat} (h : noneWaits s (qp s q).port) : qp (dueReinits s) q = qp s q := by
  refine List.foldlRecOn (motive := fun t => qp t q = qp s q) _ _ rfl fun t ht e he => ?_
  obtain ⟨hmem, hwaits⟩ := List.mem_filter.1 he
  have hne : (qp s q).port ≠ e.1 := fun heq => Bool.false_ne_true ((h e hmem heq.symm).symm.trans hwaits)
  split
  · exact ht
  · split
    · rw [holdPort, qp_setPort, qp_portFall_of_ne (by rwa [qp_setPort, ht]), qp_setPort, ht]
    · rw [qp_setPort, ht]

theorem noneWaits_countFrames {s : State} {p : Nat} (h : noneWaits s p) (k n : Nat) : noneWaits (countFrames s k n) p := by
  simp only [countFrames]
  split
  · exact h
  · exact tabIn_tset h (tabIn_tget h (fun _ _ => rfl) k)

theorem noneWaits_sentOn {s : State} {p : Nat} (h : noneWaits s p) (q : Nat) (x y : Qp) : noneWaits (sentOn s q x y) p :=
  noneWaits_countFrames (s := setQp s q y) h _ _

theorem noneWaits_drainQp {s : State} {p : Nat} (h : noneWaits s p) (q : Nat) : noneWaits (drainQp s q) p := by
  simp only [drainQp]
  split
  · exact h
  · exact noneWaits_sentOn (noneWaits_countFrames h _ _) q _ _

theorem noneWaits_resend {s : State} {p : Nat} (h : noneWaits s p) (q : Nat) : noneWaits (resend s q) p := by
  simp only [resend]
  split
  · exact h
  · exact noneWaits_countFrames (s := setQp s q _) h _ _

theorem noneWaits_moveQp {s : State} {p : Nat} (h : noneWaits s p) (q : Nat) : noneWaits (moveQp s q) p :=
  noneWaits_drainQp (noneWaits_resend (s := bump (setQp s q _) (netBase + 0x210) 1) h q) q

/-- A table whose keys rise strictly is read as it is listed. -/
theorem tget_of_mem {α : Type} {d : α} {t : Tab α} (hform : t.Pairwise fun a b => a.1 < b.1) {e : Nat × α} (he : e ∈ t) :
    tget d t e.1 = e.2 := by
  induction t with
  | nil => cases he
  | cons a t ih =>
    obtain ⟨hfirst, hrest⟩ := List.pairwise_cons.1 hform
    rcases List.mem_cons.1 he with rfl | he
    · exact if_pos rfl
    · exact (if_neg (hfirst e he).ne').trans (ih hrest he)

/-- In a table in canonical form, no re-initialisation waits at a port that reads so. -/
theorem noneWaits_of_tabWf {s : State} {p : Nat} (hform : tabWf {} s.net.ports) (h : (port s p).reinit = false) : noneWaits s p := by
  rintro e he rfl
  exact (congrArg Port.reinit (tget_of_mem hform.1 he)).symm.trans h

/-- With the table of ports in canonical form, a queue pair that is out of retries moves to its other port, and keeps it (R357): what O52 says of
it, in the states that the model's own writes of the table leave. -/
theorem exec_ackTimeout_moves {s : State} {q : Nat} (hform : tabWf {} s.net.ports) (hq : q < 4352) (hfast : fast s = true)
    (hlive : qpLive s q = true) (hsent : (qp s q).sendq ≠ []) (htries : qpRetry (qp s q) ≤ (qp s q).tries) (hother : (qp s q).other < 20)
    (hup : (port s (qp s q).other).state = .up) (hwaits : (port s (qp s q).other).reinit = false) (hpaths : (qp s q).pathsTried = 0) :
    ∃ t, exec (.ackTimeout q) s = .next t ∧ (qp t q).port = (qp s q).other ∧ (qp t q).other = (qp s q).port ∧ (qp t q).pathsTried = 1 := by
  have hcond : (fast s && qpLive s q && !(qp s q).sendq.isEmpty) = true := by simp [hfast, hlive, hsent]
  have hmove : ackTimedOut s q = setQp (dueReinits (moveQp s q)) q { qp (dueReinits (moveQp s q)) q with pathsTried := 1 } := by
    simp only [ackTimedOut, if_neg (Nat.not_lt.2 htries), if_pos (And.intro hother (And.intro hup hpaths))]
  have hroute := route_moveQp s q
  have hport : (qp (moveQp s q) q).port = (qp s q).other := congrArg Prod.fst hroute
  have hkept : qp (dueReinits (moveQp s q)) q = qp (moveQp s q) q :=
    qp_dueReinits (hport ▸ noneWaits_moveQp (noneWaits_of_tabWf hform hwaits) q)
  refine ⟨_, event_of (decide_eq_true hq) hcond .., ?_⟩
  rw [hmove, qp_setQp, if_pos rfl, hkept]
  exact ⟨hport, congrArg Prod.snd hroute, rfl⟩

-- A table of ports that is not in canonical form

/-- Queue pair 5 is out of retries on port 4, with the other port, 8, Up. The table of ports lists port 8 twice: a read finds the first entry,
where no re-initialisation waits, and `dueReinits` also meets the second, where one does. -/
def portTwice : State :=
  { State.reset with
    drl := { State.reset.drl with phase := .ready, started := true }
    net := { qps := [(5, { state := .ready, port := 4, other := 8,
                           sendq := [{ kind := .hostWrite, psn := 0, key := 0, va := 0, data := [] }] })],
             ports := [(4, { state := .up }), (8, { state := .up }), (8, { reinit := true })] } }

/-- The queue pair moves to port 8, and the re-initialisation of the second entry moves it back. -/
theorem port_ackTimedOut_portTwice : (qp (ackTimedOut portTwice 5) 5).port = 4 := by decide +kernel

/-- Refutes O52: its premise on waiting re-initialisations reads the first entry of a port, and its states need not list a port once. With port
8 listed twice, the queue pair that moves to port 8 is moved back to port 4. In canonical form it stays (`exec_ackTimeout_moves`). -/
theorem not_networkTimers : ¬ Obligations.NetworkTimers := by
  unfold Obligations.NetworkTimers
  rintro ⟨hqp, -⟩
  obtain ⟨htimeout, -⟩ := hqp 5 portTwice (by decide) (by decide +kernel) (by decide +kernel)
  obtain ⟨-, hmoves, -⟩ := htimeout (by decide +kernel)
  obtain ⟨t, hexec, hport, -⟩ := hmoves (by decide +kernel) (by decide +kernel) rfl rfl rfl
  have hstep : exec (.ackTimeout 5) portTwice = .next (ackTimedOut portTwice 5) := event_of rfl (by decide +kernel) ..
  obtain rfl : ackTimedOut portTwice 5 = t := Host.Outcome.next.inj (hstep.symm.trans hexec)
  rw [port_ackTimedOut_portTwice] at hport
  exact absurd hport (by decide +kernel)

end Sys2Proof.Machine

/-! PROOFS. Fields of registers: what a read of bits returns after bits are written (R2, R4). -/
namespace Sys2Proof.Machine

open Sys2Proof

/-- A bit of a word after bits `hi:lo` are replaced. -/
theorem getLsbD_wput (w : W64) {i : Nat} (hi lo v : Nat) (hi64 : i < 64) :
    (wput w hi lo v).getLsbD i = if lo ≤ i ∧ i ≤ hi then v.testBit (i - lo) else w.getLsbD i := by
  have hrange : (decide (lo ≤ i) && decide (i - lo < hi + 1 - lo)) = decide (lo ≤ i ∧ i ≤ hi) := by
    rw [← Bool.decide_and, decide_eq_decide]
    omega
  have hmask : (BitVec.ofNat 64 ((2 ^ (hi + 1 - lo) - 1) * 2 ^ lo)).getLsbD i = decide (lo ≤ i ∧ i ≤ hi) := by
    rw [BitVec.getLsbD_ofNat, Nat.testBit_mul_two_pow, Nat.testBit_two_pow_sub_one, hrange, decide_eq_true hi64, Bool.true_and]
  have hval : (BitVec.ofNat 64 (v % 2 ^ (hi + 1 - lo) * 2 ^ lo)).getLsbD i = (decide (lo ≤ i ∧ i ≤ hi) && v.testBit (i - lo)) := by
    rw [BitVec.getLsbD_ofNat, Nat.testBit_mul_two_pow, Nat.testBit_mod_two_pow, decide_eq_true hi64, Bool.true_and, ← Bool.and_assoc, hrange]
  simp only [wput, BitVec.getLsbD_or, BitVec.getLsbD_and, BitVec.getLsbD_not, hmask, hval, hi64, decide_true, Bool.true_and]
  by_cases h : lo ≤ i ∧ i ≤ hi <;> simp [h]

/-- A bit of a field of a word. -/
theorem testBit_wbits (w : W64) (hi lo j : Nat) :
    (wbits w hi lo).testBit j = (decide (j < hi + 1 - lo) && w.getLsbD (lo + j)) := by
  rw [wbits, bits, Nat.testBit_mod_two_pow, Nat.testBit_div_two_pow, Nat.add_comm j lo]
  rfl

/-- A field reads as it was written, in as many bits as it has. -/
theorem wbits_wput (w : W64) {hi : Nat} (lo v : Nat) (hhi : hi < 64) : wbits (wput w hi lo v) hi lo = v % 2 ^ (hi + 1 - lo) := by
  refine Nat.eq_of_testBit_eq fun j => ?_
  rw [testBit_wbits, Nat.testBit_mod_two_pow]
  by_cases hj : j < hi + 1 - lo
  · rw [getLsbD_wput w hi lo v (by omega), if_pos (by omega), Nat.add_sub_cancel_left]
  · simp [hj]

/-- Another field reads as before. -/
theorem wbits_wput_of_disjoint (w : W64) {hi lo hi' lo' : Nat} (v : Nat) (hhi' : hi' < 64) (h : hi < lo' ∨ hi' < lo) :
    wbits (wput w hi lo v) hi' lo' = wbits w hi' lo' := by
  refine Nat.eq_of_testBit_eq fun j => ?_
  rw [testBit_wbits, testBit_wbits]
  by_cases hj : j < hi' + 1 - lo'
  · rw [getLsbD_wput w hi lo v (by omega), if_neg (by omega)]
  · simp [hj]

end Sys2Proof.Machine

/-! PROOFS. The front of the queue (log 1), and the steps of a run: messages, the close timer, the timeout (R381, R388, R390 to R394), and how
updates of shards start and finish (R400, R401). -/
namespace Sys2Proof.Machine

open Sys2Proof

/-- Settles O1, by the two cases of the queue. -/
theorem frontCommandRuns : Obligations.FrontCommandRuns := by
  unfold Obligations.FrontCommandRuns
  refine ⟨fun c q s => rfl, fun s h => ?_⟩
  rw [step, h]

/-- The meaning of REPORT. -/
theorem exec_report (k : Nat) (s : State) : exec (.report k) s = onMsg s k 2 (fun s _ _ => s) holdReport := rfl

/-- The meaning of VERDICT. -/
theorem exec_verdict (k : Nat) (s : State) : exec (.verdict k) s = onMsg s k 3 (earlyVerdict k) holdVerdict := rfl

/-- The meaning of SIGNS. -/
theorem exec_signs (k : Nat) (s : State) : exec (.signs k) s = onMsg s k 4 (fun s _ _ => s) holdSigns := rfl

section message

variable {s : State} {k type : Nat} {m : InMsg} {early : State → Run → List Byte → State} {f : State → Run → StepSt → InMsg → State}
  (hmsg : s.cen.inbox[k]? = some m) (hready : ready s = true)
include hmsg hready

/-- A message that is none, or names no adopted run, is discarded and counted (R381). -/
theorem onMsg_broken (h : brokenMsg s m = true) : onMsg s k type early f = .next (cenRepeat (dropMsg s k)) := by
  simp only [onMsg, hmsg, hready, h, not_true_eq_false, if_false, if_true]

variable {r : Run} {x : StepSt} (hwhole : brokenMsg s m = false) (hrun : runById s (hRun (m.window.take 64)) = some r)
  (hstep : stepSt s (hRun (m.window.take 64)) (hStep (m.window.take 64)) = some x) (hopened : x.isOpen = true ∨ x.closed = true)
  (htype : hType (m.window.take 64) = type)
include hwhole hrun hstep hopened htype

/-- What a whole message of its own type comes to, once its step has opened here: its epoch decides (R381). -/
theorem onMsg_opened : onMsg s k type early f =
    .next (if hEpoch (m.window.take 64) ≠ x.epoch then cenRepeat (dropMsg s k) else f (dropMsg s k) r x m) := by
  have hnot : ¬(¬ x.isOpen ∧ ¬ x.closed) := by rcases hopened with h | h <;> simp [h]
  simp only [onMsg, hmsg, hready, hwhole, htype, hrun, hstep, if_neg hnot, not_true_eq_false, Bool.false_eq_true, ne_eq, if_false]
  split <;> rfl

/-- A message of its step's epoch is acted on. -/
theorem onMsg_acts (hepoch : hEpoch (m.window.take 64) = x.epoch) : onMsg s k type early f = .next (f (dropMsg s k) r x m) := by
  rw [onMsg_opened hmsg hready hwhole hrun hstep hopened htype, if_neg (not_not.2 hepoch)]

/-- One of another epoch is discarded and counted. -/
theorem onMsg_foreign (hepoch : hEpoch (m.window.take 64) ≠ x.epoch) : onMsg s k type early f = .next (cenRepeat (dropMsg s k)) := by
  rw [onMsg_opened hmsg hready hwhole hrun hstep hopened htype, if_pos hepoch]

end message

/-- The close timer closes the open step of its run that its owner's own take has ended (R388). -/
theorem exec_stepCloseTimer {run : Nat} {r : Run} {x : StepSt} {s : State} (hrun : s.cen.runs[run]? = some r) (hready : ready s = true)
    (hstep : (s.cen.steps.find? fun x => x.run = r.id ∧ x.isOpen ∧ x.self ∈ x.counted ∧ x.closeUs ≠ 0) = some x) :
    exec (.stepCloseTimer run) s = .next (closeStep s r x) := by
  show execStepCloseTimer run s = _
  simp only [execStepCloseTimer, hrun, hstep, hready, when_true]

/-- A command whose take has ended, and that another device keeps waiting, ends with TIMEOUT_REMOTE (R394). -/
theorem exec_verdictTimeout {st d : Nat} {e : Entry} {t : Take} {r : Run} {x : StepSt} {s : State} (hst : st < 256) (hready : ready s = true)
    (hhead : headEntry s st = some e) (htake : takeOfCmd s st e.seq = some t) (hended : t.ended = true) (hlives : t.killed = false)
    (hrun : stepRun s e = some r) (hstep : stepSt s r.id e.step = some x) (hmissing : missingParty r x = some d) (hother : d ≠ x.self) :
    exec (.verdictTimeout st) s =
      .next (endFinal (modStep s x.run x.step fun y => { y with timedOut := true }) t (0x0C, 0xFF, x.entryOf d, 0)) := by
  have hfilter : (takeOfCmd s st e.seq).filter (fun t => t.ended && !t.killed) = some t := by
    simp [htake, hended, hlives]
  show execVerdictTimeout st s = _
  simp only [execVerdictTimeout, streamOk, hst, decide_true, onUnit_true, hhead, hfilter, hrun, hstep, hmissing, partyDetail, if_pos hother,
    hready, when_true]

/-- Settles O53: each message by the tests that it meets, then the two timers. -/
theorem stepMessages : Obligations.StepMessages := by
  unfold Obligations.StepMessages
  refine ⟨fun k m s hmsg hready => ⟨fun hbroken => ⟨?_, ?_, ?_⟩, fun r x hwhole hrun hstep hopened => ⟨fun hepoch => ⟨?_, ?_, ?_⟩, ?_⟩⟩,
    fun run r x s hrun hready hstep => exec_stepCloseTimer hrun hready hstep,
    fun st d e t r x s hst hready hhead htake hended hlives hrun hstep hmissing hother =>
      exec_verdictTimeout hst hready hhead htake hended hlives hrun hstep hmissing hother⟩
  · rw [exec_report, onMsg_broken hmsg hready hbroken]
  · rw [exec_verdict, onMsg_broken hmsg hready hbroken]
  · rw [exec_signs, onMsg_broken hmsg hready hbroken]
  · exact fun htype => by rw [exec_report, onMsg_acts hmsg hready hwhole hrun hstep hopened htype hepoch]
  · exact fun htype => by rw [exec_verdict, onMsg_acts hmsg hready hwhole hrun hstep hopened htype hepoch]
  · exact fun htype => by rw [exec_signs, onMsg_acts hmsg hready hwhole hrun hstep hopened htype hepoch]
  · exact fun hepoch htype => by rw [exec_report, onMsg_foreign hmsg hready hwhole hrun hstep hopened htype hepoch]

section shards

variable {s : State} {run shard : Nat} {r : Run} (hrun : s.cen.runs[run]? = some r) (hready : ready s = true)
include hrun hready

/-- A synchronous update starts from the root that its take latched (R400). -/
theorem exec_syncUpdate {t : Take} {e : Entry} {x : StepSt} {b : List Byte}
    (htake : (s.intake.takes.find? fun t => t.run = r.id ∧ t.ended ∧ ¬ t.killed ∧ t.roots.any (fun e => e.1 = shard)) = some t)
    (hentry : findEntry s t.stream t.seq = some e) (hstep : stepSt s r.id e.step = some x)
    (hroot : (t.roots.find? fun e => e.1 = shard) = some (shard, b)) (hsigns : hasSigns r x = true) (hlag : rtLag b = 0)
    (hnone : updateOf s r.id shard x.step = none) :
    exec (.syncUpdate run shard) s =
      .next (startUpdate s { run := r.id, shard := shard, step := x.step, stream := t.stream, seq := t.seq, state := .waiting,
                             base := b, root := [], fresh := [], reserve := [] }) := by
  show execSyncUpdate run shard s = _
  simp only [execSyncUpdate, hrun, htake, hentry, Option.bind_some, hstep, hroot, hready, hsigns, hlag, hnone, decide_true, Option.isNone_none,
    Bool.and_self, when_true]

/-- A slow update starts from the newest root, once every update of its shard before it is pending and its layer has its norms (R396, R400). -/
theorem exec_slowUpdate {x : StepSt} (hnext : nextSlow s r shard = some x) (hsigns : hasSigns r x = true) (hshard : shard < r.nshards)
    (hlag : 1 ≤ rtLag (newestRoot s r shard)) (hpending : ∀ u ∈ s.upu.updates, u.run = r.id → u.shard = shard → u.state = .pending)
    (hlayer : layerDone s r shard = true) :
    exec (.slowUpdate run shard) s =
      .next (startUpdate s { run := r.id, shard := shard, step := x.step, stream := 256, seq := 0, state := .waiting,
                             base := newestRoot s r shard, root := [], fresh := [], reserve := [] }) := by
  have hidle : (s.upu.updates.any fun u => u.run = r.id ∧ u.shard = shard ∧ u.state ≠ .pending ∧ u.state ≠ .dropped) = false := by
    simp only [List.any_eq_false, decide_eq_true_eq]
    rintro u hu ⟨hr, hs, hstate, -⟩
    exact hstate (hpending u hu hr hs)
  show execSlowUpdate run shard s = _
  simp only [execSlowUpdate, hrun, hnext, hready, hsigns, hshard, hlag, hidle, hlayer, and_self, decide_true, Bool.not_false, Bool.and_self,
    when_true]

/-- A running update that has lost nothing writes its slices and holds a pending root (R401). -/
theorem exec_updateDone {u : Update} {x : StepSt} (hactive : activeUpdate s r shard .running = some u)
    (hstep : stepSt s r.id u.step = some x) (hkept : updateLost s u.base = none) :
    exec (.updateDone run shard) s =
      let t := layerNorms (runUpdate s r x u) r x (rtLayer u.base)
      let t := if rtLag u.base = 0 then t else modRun t r.id fun r => { r with done := tset 0 r.done shard u.step }
      .next (if bit (fld x.sect 24 1) 2 then spendFree t (rtParams u.base) else t) := by
  show execUpdateDone run shard s = _
  simp only [execUpdateDone, hrun, hactive, hstep, hready, not_true_eq_false, if_false, hkept]

end shards

/-- Settles O54: a synchronous start, a slow one, and the end of a running update. -/
theorem shardUpdates : Obligations.ShardUpdates := by
  unfold Obligations.ShardUpdates
  exact fun run shard r s hrun hready =>
    ⟨fun t e x b htake hentry hstep hroot hsigns hlag hnone => exec_syncUpdate hrun hready htake hentry hstep hroot hsigns hlag hnone,
     fun x hnext hsigns hshard hlag hpending hlayer => exec_slowUpdate hrun hready hnext hsigns hshard hlag hpending hlayer,
     fun u x hactive hstep hkept => exec_updateDone hrun hready hactive hstep hkept⟩

end Sys2Proof.Machine

/-! PROOFS. Calibration (R405 to R409, R412): what a step does to the eyes of its group, a probe to its lane, and what a snapshot keeps. -/
namespace Sys2Proof.Machine

open Sys2Proof

/-- An event without a unit of its own, under its condition, takes effect. -/
theorem when_of {c : Bool} (h : c = true) (s t : State) : when_ c s t = .next t := by rw [h, when_true]

/-- The registers of the memory controllers lie above those of the calibration engine. -/
theorem memBase_ge (k : Nat) : 0x1000000 ≤ memBase k := by
  unfold memBase dieBase hubBase
  split <;> omega

theorem cget_maybeSteal (s : State) {k a : Nat} (h : a ≠ memBase k + 0x30) : cget (maybeSteal s k) a = cget s a := by
  rw [maybeSteal, cget_bump, if_neg h, cget_takeFree]

-- The groups of a memory

@[simp] theorem groupOf_setGroup (s : State) (k g : Nat) (x : CalGroup) : groupOf (setGroup s k g x) k g = x := by
  simp [groupOf, setGroup]

@[simp] theorem groupOf_reportMargin (s : State) (k j g : Nat) : groupOf (reportMargin s k) j g = groupOf s j g := by
  simp only [reportMargin, worstMargin]
  split <;> rfl

@[simp] theorem ctl_reportMargin (s : State) (k j : Nat) : ctl (reportMargin s k) j = ctl s j := by
  simp only [reportMargin, worstMargin]
  split <;> rfl

/-- The groups are kept by what keeps the calibration engine's part of the state. -/
theorem groupOf_congr {s t : State} (h : t.cal = s.cal) (k g : Nat) : groupOf t k g = groupOf s k g := by rw [groupOf, h, groupOf]

@[simp] theorem groupOf_enterRetrain (s : State) (k j g : Nat) : groupOf (enterRetrain s k) j g = groupOf s j g := by
  have hlog : (logFault s 6 (dieOfCtl k) (if k < 16 then k else k - 16) 2).cal = s.cal := by simp only [logFault, cset_cal]
  exact groupOf_congr (by rw [enterRetrain, bump_cal, cput_cal, hlog]) j g

/-- An eye of a group: its write eye or its read eye. -/
def CalGroup.eye (x : CalGroup) (write : Bool) : Eye := if write then x.write else x.read

/-- A step on an eye records its margin, moves its setting, and leaves the group's other eye (R406, R407). -/
theorem eye_moveGroup (s : State) (k g : Nat) (write : Bool) (margin : Nat) (tap : Int) :
    (groupOf (moveGroup s k g write margin tap) k g).eye write = ((groupOf s k g).eye write).step margin tap ∧
    (groupOf (moveGroup s k g write margin tap) k g).eye (!write) = (groupOf s k g).eye (!write) := by
  have hgroup : groupOf (moveGroup s k g write margin tap) k g = if write then
      { groupOf s k g with write := (groupOf s k g).write.step margin tap } else
      { groupOf s k g with read := (groupOf s k g).read.step margin tap } := by
    simp only [moveGroup]
    split <;> exact groupOf_setGroup ..
  cases write <;> simp [hgroup, CalGroup.eye]

/-- What a margin brings about leaves both eyes of its group, in a memory that has not failed (R408). -/
theorem eye_judgeGroup {s : State} {k g : Nat} (h : (ctl (judgeGroup s k g) k).state ≠ .failed) (write : Bool) :
    (groupOf (judgeGroup s k g) k g).eye write = (groupOf s k g).eye write := by
  have heye (n : Option Nat) : ({ groupOf s k g with retrain := n } : CalGroup).eye write = (groupOf s k g).eye write := rfl
  unfold judgeGroup at h ⊢
  extract_lets at h ⊢
  split at h
  · split_ifs
    · rw [groupOf_enterRetrain, groupOf_setGroup, heye]
    · rfl
  · split_ifs at h ⊢
    · exact absurd (failed_failMem s k) h
    · rw [groupOf_setGroup, heye]
    · rw [groupOf_setGroup, heye]
    · exact (congrArg (CalGroup.eye · write) (groupOf_setGroup ..)).trans (heye _)

-- A calibration step (R406 to R408)

/-- The state in which a step is taken: it is counted, and may have stolen a cycle (R201, R406). -/
def stepCounted (s : State) (k : Nat) : State := maybeSteal (bump (countStep s k) 0x800010 1) k

/-- The state after a step that is taken has measured and moved its eye, and its margin has been judged (R407, R408). -/
def stepJudged (s : State) (k g : Nat) (write : Bool) (margin centre : Nat) : State :=
  judgeGroup (moveGroup (stepCounted s k) k g write margin (tapMove s centre)) k g

/-- Counting a step leaves the configuration. -/
theorem calCfg_stepCounted (s : State) (k hi lo : Nat) : calCfg (stepCounted s k) hi lo = calCfg s hi lo := by
  have hsteal : (0x800000 : Nat) ≠ memBase k + 0x30 := by have := memBase_ge k; omega
  have hif : (0x800000 : Nat) ≠ calIfAddr k := by unfold calIfAddr; omega
  rw [calCfg, stepCounted, cget_maybeSteal _ hsteal, cget_bump, if_neg (by decide), countStep, cget_cput, if_neg hif, calCfg]

theorem tapMove_stepCounted (s : State) (k centre : Nat) : tapMove (stepCounted s k) centre = tapMove s centre := by
  simp only [tapMove, calCfg_stepCounted]

theorem groupOf_stepCounted (s : State) (k j g : Nat) : groupOf (stepCounted s k) j g = groupOf s j g := (rfl)

section step

variable {s : State} {k g margin centre ecc : Nat} {write : Bool}

/-- An uncorrectable read-back while the interface retrains fails the memory. -/
theorem failed_calStep (htrain : channelRetrains s k g = true) (hecc : ecc = 2) :
    (ctl (calStep s k g write margin centre ecc) k).state = .failed := by
  simp only [calStep, htrain, hecc, and_self, if_true]
  exact failed_failMem _ k

/-- A step that is taken moves its eye, and its margin is judged and reported. -/
theorem calStep_taken (hkept : ¬(channelRetrains s k g = true ∧ ecc = 2)) (hmoves : channelRetrains s k g = true ∨ calCfg s 0 0 = 1) :
    calStep s k g write margin centre ecc = if (ctl (stepJudged s k g write margin centre) k).state = .failed
      then stepJudged s k g write margin centre else reportMargin (stepJudged s k g write margin centre) k := by
  rw [stepJudged, ← tapMove_stepCounted s k centre]
  simp only [calStep, if_neg hkept, if_pos hmoves, stepCounted]
  rfl

/-- With no step to take, a read margin is measured all the same. -/
theorem calStep_foreground (hstays : ¬(channelRetrains s k g = true ∨ calCfg s 0 0 = 1)) :
    calStep s k g false margin centre ecc = reportMargin (judgeGroup (moveGroup s k g false margin 0) k g) k := by
  have hkept : ¬(channelRetrains s k g = true ∧ ecc = 2) := fun h => hstays (.inl h.1)
  simp only [calStep, if_neg hkept, if_neg hstays, Bool.false_eq_true, if_false]

/-- With no step to take, nothing happens to a write eye. -/
theorem calStep_untracked (hstays : ¬(channelRetrains s k g = true ∨ calCfg s 0 0 = 1)) : calStep s k g true margin centre ecc = s := by
  have hkept : ¬(channelRetrains s k g = true ∧ ecc = 2) := fun h => hstays (.inl h.1)
  simp only [calStep, if_neg hkept, if_neg hstays, if_true]

/-- In a memory that stays in use, a step measures its eye, moves it by its tap where steps are taken, and leaves the group's other eye. -/
theorem eye_calStep (huse : (ctl (calStep s k g write margin centre ecc) k).state ≠ .failed)
    (h : (channelRetrains s k g = true ∨ calCfg s 0 0 = 1) ∨ write = false) :
    (groupOf (calStep s k g write margin centre ecc) k g).eye write =
      ((groupOf s k g).eye write).step margin (if channelRetrains s k g = true ∨ calCfg s 0 0 = 1 then tapMove s centre else 0) ∧
    (groupOf (calStep s k g write margin centre ecc) k g).eye (!write) = (groupOf s k g).eye (!write) := by
  by_cases hmoves : channelRetrains s k g = true ∨ calCfg s 0 0 = 1
  · have hkept : ¬(channelRetrains s k g = true ∧ ecc = 2) := fun ⟨htrain, hecc⟩ => huse (failed_calStep htrain hecc)
    rw [calStep_taken hkept hmoves] at huse ⊢
    have hjudged : (ctl (stepJudged s k g write margin centre) k).state ≠ .failed := by
      intro hfail
      rw [if_pos hfail] at huse
      exact huse hfail
    rw [if_neg hjudged, if_pos hmoves, groupOf_reportMargin, stepJudged, eye_judgeGroup hjudged, eye_judgeGroup hjudged]
    exact eye_moveGroup (stepCounted s k) k g write margin _
  · obtain rfl : write = false := h.resolve_left hmoves
    rw [calStep_foreground hmoves, ctl_reportMargin] at huse
    rw [calStep_foreground hmoves, if_neg hmoves, groupOf_reportMargin, eye_judgeGroup huse, eye_judgeGroup huse]
    exact eye_moveGroup s k g false margin 0

/-- CAL_STEP of an eye that its group has, in a memory in use (R405, R408). -/
theorem exec_calStep (hk : k < 80) (hg : g < groupCount k) (hback : backgroundOk s k = true) (heye : write = true ∨ commandGroup k g = false)
    (hturn : channelRetrains s k g = false ∨ (groupOf s k g).retrain.isSome = true) :
    exec (.calStep k (2 * g + if write then 1 else 0) margin centre ecc) s = .next (calStep s k g write margin centre ecc) := by
  have hgroup : (2 * g + if write then 1 else 0) / 2 = g := by split <;> omega
  have hwrite : decide ((2 * g + if write then 1 else 0) % 2 = 1) = write := by cases write <;> simp
  show execCalStep k (2 * g + if write then 1 else 0) margin centre ecc s = _
  simp only [execCalStep, hgroup, hwrite]
  refine event_of ?_ ?_ ..
  · rcases heye with h | h <;> simp [ctlOk, hk, hg, h]
  · rcases hturn with h | h <;> simp [hback, h]

end step

/-- A tap goes one toward the centre (R407). -/
theorem natAbs_sub_sign (c : Int) : (c - c.sign).natAbs = c.natAbs - 1 := by
  rcases lt_trichotomy c 0 with h | rfl | h
  · rw [Int.sign_eq_neg_one_of_neg h]
    omega
  · rfl
  · rw [Int.sign_eq_one_of_pos h]
    omega

-- Probes and snapshots (R409, R412)

/-- What a probe writes: the run of low margins, and the lane's register. -/
def probeShown (s : State) (l margin low : Nat) : State :=
  let t := { s with cal := { s.cal with laneLow := tset 0 s.cal.laneLow l low } }
  let a := calIfAddr (80 + l)
  cput (cput (cput (countStep t (80 + l)) a 47 40 margin) a 39 32 margin) a 63 62 (if 3 ≤ low then 2 else 1)

/-- The state that a probe leaves: the third low one in a row is counted. -/
def probed (s : State) (l margin low : Nat) : State :=
  if low = 3 then bump (probeShown s l margin low) 0x800018 1 else probeShown s l margin low

theorem exec_serdesProbe {l margin : Nat} {s : State} (hl : l < 136) (hfast : fast s = true) (hon : calCfg s 1 1 = 1)
    (hup : (port s (lanePort l)).state = .up) :
    exec (.serdesProbe l margin) s = .next (probed s l margin (if margin < calFloor s then tget 0 s.cal.laneLow l + 1 else 0)) := by
  show execSerdesProbe l margin s = _
  simp only [execSerdesProbe, hl, hfast, hon, hup, and_self, decide_true, Bool.and_self, event_true, probed, probeShown]

theorem sameBytes_probed (s : State) (l margin low : Nat) : sameBytes s (probed s l margin low) := by
  have hshown : sameBytes s (probeShown s l margin low) := fun a =>
    devByte_congr (by simp [probeShown, countStep]) (by simp [probeShown, countStep]) (by simp [probeShown, countStep]) a
  unfold probed
  split
  · exact fun a => (devByte_congr (bump_mem ..) (bump_sram ..) (bump_drl ..) a).trans (hshown a)
  · exact hshown

theorem laneLow_probed (s : State) (l margin low : Nat) : tget 0 (probed s l margin low).cal.laneLow l = low := by
  have hshown : tget 0 (probeShown s l margin low).cal.laneLow l = low := (tget_tset ..).trans (if_pos rfl)
  unfold probed
  split <;> exact hshown

/-- The lane's register shows a probe's margin, and whether the lane retrains. -/
theorem cget_probed (s : State) {l margin : Nat} (low : Nat) (h : margin < 256) :
    wbits (cget (probed s l margin low) (calIfAddr (80 + l))) 47 40 = margin ∧
    wbits (cget (probed s l margin low) (calIfAddr (80 + l))) 39 32 = margin ∧
    wbits (cget (probed s l margin low) (calIfAddr (80 + l))) 63 62 = if 3 ≤ low then 2 else 1 := by
  have hreg : cget (probed s l margin low) (calIfAddr (80 + l)) = cget (probeShown s l margin low) (calIfAddr (80 + l)) := by
    unfold probed
    split
    · rw [cget_bump, if_neg (by unfold calIfAddr; omega)]
    · rfl
  have hmod : margin % 2 ^ 8 = margin := Nat.mod_eq_of_lt h
  rw [hreg]
  simp only [probeShown, cget_cput, if_true]
  refine ⟨?_, ?_, ?_⟩
  · rw [wbits_wput_of_disjoint _ _ (by decide) (by decide), wbits_wput_of_disjoint _ _ (by decide) (by decide),
      wbits_wput _ _ _ (by decide), hmod]
  · rw [wbits_wput_of_disjoint _ _ (by decide) (by decide), wbits_wput _ _ _ (by decide), hmod]
  · rw [wbits_wput _ _ _ (by decide)]
    split <;> rfl

/-- Settles O41: steps by `eye_calStep`, the tap by the sign of the centre, probes by the register they write, and snapshots. -/
theorem calibration : Obligations.Calibration := by
  unfold Obligations.Calibration
  refine ⟨fun k g margin centre ecc write s hk hg hback heye hturn => ⟨exec_calStep hk hg hback heye hturn,
      fun huse h => eye_calStep huse h, ?_⟩, fun s centre => ⟨fun h => ?_, fun h => ?_⟩,
    fun l margin s hl hfast hon hup hmargin => ⟨_, exec_serdesProbe hl hfast hon hup, ?_⟩,
    fun s hfast hon hchanged hdue => ⟨_, when_of ?_ .., ?_⟩⟩
  · rintro hstays rfl
    exact calStep_untracked hstays
  · exact if_neg (Nat.not_le.2 h)
  · rw [show tapMove s centre = (signed 6 centre).sign from if_pos h]
    exact natAbs_sub_sign _
  · obtain ⟨hmargin1, hmargin2, hstate⟩ := cget_probed s (l := l) _ hmargin
    exact ⟨sameBytes_probed _ _ _ _, hmargin1, hmargin2, hstate, laneLow_probed ..⟩
  · simp [hfast, hon, hchanged, hdue]
  · exact ⟨fun a => devByte_congr rfl rfl rfl a, rfl, rfl, rfl, rfl, rfl, rfl⟩

end Sys2Proof.Machine

/-! PROOFS. Power and SMBus (R422, R423, R429, R430, R437, R444 to R447) and samples (R510 to R513): what a power reading leaves of the registers
that it has written. -/
namespace Sys2Proof.Machine

open Sys2Proof

-- The registers and the clock beside a write to memory

/-- The registers and PWR_KC are as before. -/
def sameRegs (s t : State) : Prop := t.csr = s.csr ∧ t.kc = s.kc

theorem sameRegs.trans {s t u : State} (h : sameRegs s t) (h' : sameRegs t u) : sameRegs s u := ⟨h'.1.trans h.1, h'.2.trans h.2⟩

theorem sameRegs_foldl {α : Type} {f : State → α → State} (hf : ∀ s a, sameRegs s (f s a)) (l : List α) (s : State) :
    sameRegs s (l.foldl f s) :=
  List.foldlRecOn l f (motive := sameRegs s) ⟨rfl, rfl⟩ fun t ht a _ => ht.trans (hf t a)

theorem sameRegs_devPut (s : State) (a : Nat) (b : Byte) : sameRegs s (devPut s a b) := by
  unfold devPut
  split <;> exact ⟨rfl, rfl⟩

theorem sameRegs_devWrites (d : List Byte) (s : State) (a : Nat) : sameRegs s (devWrites s a d) := by
  induction d generalizing s a with
  | nil => exact ⟨rfl, rfl⟩
  | cons b t ih => exact (sameRegs_devPut s a b).trans (ih _ _)

theorem sameRegs_fillRegion (s : State) (a : Nat) : sameRegs s (fillRegion s a) := by
  unfold fillRegion
  split
  · split <;> exact ⟨rfl, rfl⟩
  · exact ⟨rfl, rfl⟩

theorem sameRegs_takeBack (s : State) (h : Nat × Guard) : sameRegs s (takeBack s h) := by
  unfold takeBack
  dsimp only
  split_ifs <;> exact ⟨rfl, rfl⟩

theorem sameRegs_notifyStale (s : State) (a len : Nat) : sameRegs s (notifyStale s a len) := by
  unfold notifyStale
  split
  · exact ⟨rfl, rfl⟩
  · exact sameRegs_foldl sameRegs_takeBack (staleHits s a len) s

/-- A write of the device's own leaves every register, and the clock. -/
theorem sameRegs_ownWrite (s : State) (a : Nat) (d : List Byte) : sameRegs s (ownWrite s a d) :=
  have hfill : sameRegs s (fillFirst s a d.length) := sameRegs_foldl (fun t r => sameRegs_fillRegion t (r * 0x10000)) _ s
  (hfill.trans (sameRegs_devWrites d (clearPoison _ _ _) a)).trans (sameRegs_notifyStale _ _ _)

-- What a reading has written stays (R430, R437)

/-- PWR_KC, PWR_INPUT and DRL_SUPPLY are as before. -/
def readingKept (s t : State) : Prop :=
  t.kc = s.kc ∧ cget t 0x140020 = cget s 0x140020 ∧ cget t 0x100020 = cget s 0x100020

theorem readingKept.refl (s : State) : readingKept s s := ⟨rfl, rfl, rfl⟩

theorem readingKept.trans {s t u : State} (h : readingKept s t) (h' : readingKept t u) : readingKept s u :=
  ⟨h'.1.trans h.1, h'.2.1.trans h.2.1, h'.2.2.trans h.2.2⟩

theorem readingKept_of_sameRegs {s t : State} (h : sameRegs s t) : readingKept s t :=
  ⟨h.2, by rw [cget, cget, h.1], by rw [cget, cget, h.1]⟩

/-- A write of any other register keeps them. -/
theorem readingKept_cset (s : State) {a : Nat} (v : W64) (hpower : a ≠ 0x140020) (hsupply : a ≠ 0x100020) : readingKept s (cset s a v) :=
  ⟨rfl, by rw [cget_cset, if_neg hpower.symm], by rw [cget_cset, if_neg hsupply.symm]⟩

theorem readingKept_modDrl (s : State) (f : Drl → Drl) : readingKept s (modDrl s f) := readingKept_of_sameRegs ⟨rfl, rfl⟩

theorem readingKept_modPwr (s : State) (f : Pwr → Pwr) : readingKept s (modPwr s f) := readingKept_of_sameRegs ⟨rfl, rfl⟩

theorem readingKept_obs (s : State) (o : Obs) : readingKept s { s with obs := o } := readingKept_of_sameRegs ⟨rfl, rfl⟩

theorem readingKept_bump (s : State) {a : Nat} (n : Nat) (hpower : a ≠ 0x140020) (hsupply : a ≠ 0x100020) : readingKept s (bump s a n) :=
  readingKept_cset s _ hpower hsupply

theorem readingKept_ite {p : Prop} [Decidable p] {s t u : State} (ht : readingKept s t) (hu : readingKept s u) :
    readingKept s (if p then t else u) := by
  split
  · exact ht
  · exact hu

theorem readingKept_foldl {α : Type} {f : State → α → State} (hf : ∀ s a, readingKept s (f s a)) (l : List α) (s : State) :
    readingKept s (l.foldl f s) :=
  List.foldlRecOn l f (motive := readingKept s) (.refl s) fun t ht a _ => ht.trans (hf t a)

theorem readingKept_alert (s : State) (b : Nat) : readingKept s (alert s b) := readingKept_cset s _ (by decide) (by decide)

theorem readingKept_noteHot (was : Bool) (s : State) : readingKept s (noteHot was s) :=
  readingKept_ite (readingKept_alert s 1) (.refl s)

theorem readingKept_putTemps (s : State) (temps : List Nat) : readingKept s (putTemps s temps) :=
  readingKept_foldl (fun t _ => readingKept_cset t _ (by omega) (by omega)) _ s

theorem readingKept_raiseDie (s : State) (d : Nat) : readingKept s (raiseDie s d) := by
  unfold raiseDie
  split
  · exact (readingKept_modPwr s _).trans (readingKept_bump _ 1 (by decide) (by decide))
  · exact .refl s

theorem readingKept_lowerDie (s : State) (d : Nat) : readingKept s (lowerDie s d) := by
  unfold lowerDie
  split
  · exact readingKept_modPwr s _
  · exact .refl s

theorem readingKept_setUnmet (s : State) (on : Bool) : readingKept s (setUnmet s on) :=
  have hput : readingKept s (cput s 0x140010 6 6 (b2n on)) := readingKept_cset s _ (by decide) (by decide)
  readingKept_ite (hput.trans (readingKept_alert _ 2)) hput

/-- What a reading does to the levels keeps what it has written. -/
theorem readingKept_capLevels (s : State) (watts : Nat) : readingKept s (capLevels s watts) := by
  unfold capLevels
  extract_lets full s1 s2 calm n m s3 s4
  have h1 : readingKept s s1 := readingKept_ite (readingKept_foldl readingKept_raiseDie _ s) (.refl s)
  have h2 : readingKept s s2 := h1.trans (readingKept_foldl readingKept_raiseDie _ s1)
  have h3 : readingKept s s3 := h2.trans (readingKept_modPwr s2 _)
  have h4 : readingKept s s4 := readingKept_ite (h3.trans (readingKept_foldl readingKept_lowerDie _ s3)) h3
  exact readingKept_ite (h4.trans (readingKept_setUnmet s4 true)) (readingKept_ite (h4.trans (readingKept_setUnmet s4 false)) h4)

/-- DRL_SUPPLY with a reading's voltages. -/
def supplyPut (s : State) (input bank : Nat) : State :=
  cput (cput (cput s 0x100020 15 0 input) 0x100020 31 16 bank) 0x100020 32 32 (b2n (decide (input ≤ bank + 10 ∧ bank ≤ input + 10)))

theorem readingKept_rearm (s : State) : readingKept s (rearm s) := readingKept_cset s _ (by decide) (by decide)

/-- After the supply's word is put, the rest of its reading keeps it. -/
theorem readingKept_supplyReading (s : State) (input bank : Nat) : readingKept (supplyPut s input bank) (supplyReading s input bank) := by
  unfold supplyReading
  extract_lets ok s1 s2 s3 out n s4
  show readingKept s1 _
  have h2 : readingKept s1 s2 := readingKept_modDrl s1 _
  have h3 : readingKept s1 s3 := readingKept_ite (h2.trans (readingKept_rearm s2)) h2
  have h4 : readingKept s1 s4 := h3.trans (readingKept_modPwr s3 _)
  exact readingKept_ite (h4.trans (readingKept_alert s4 6)) h4

/-- The fields of DRL_SUPPLY that a reading puts. -/
theorem wbits_supplyPut (s : State) (input bank : Nat) : wbits (cget (supplyPut s input bank) 0x100020) 15 0 = input % 65536 ∧
    wbits (cget (supplyPut s input bank) 0x100020) 31 16 = bank % 65536 := by
  simp only [supplyPut, cget_cput, if_true]
  constructor
  · rw [wbits_wput_of_disjoint _ _ (by decide) (by decide), wbits_wput_of_disjoint _ _ (by decide) (by decide), wbits_wput _ _ _ (by decide)]
    rfl
  · rw [wbits_wput_of_disjoint _ _ (by decide) (by decide), wbits_wput _ _ _ (by decide)]
    rfl

theorem supplyPut_kc (s : State) (input bank : Nat) : (supplyPut s input bank).kc = s.kc := (rfl)

theorem cget_supplyPut_of_ne (s : State) (input bank : Nat) {a : Nat} (h : a ≠ 0x100020) : cget (supplyPut s input bank) a = cget s a := by
  simp only [supplyPut, cget_cput, if_neg h]

-- Rings (R511 to R513)

theorem readingKept_dropSample (s : State) (d : Nat) : readingKept s (dropSample s d) := by
  unfold dropSample
  exact (readingKept_obs s _).trans (readingKept_bump _ 1 (by unfold obsLostReg; omega) (by unfold obsLostReg; omega))

theorem readingKept_putRecord (s : State) (d kind count part kc : Nat) (rest : List Byte) :
    readingKept s (putRecord s d kind count part kc rest) := by
  unfold putRecord
  extract_lets w seq pos b s1 s2
  have h1 : readingKept s s1 := readingKept_of_sameRegs (sameRegs_ownWrite s _ b)
  have h2 : readingKept s1 s2 := readingKept_cset s1 _ (by unfold obsHeadReg; omega) (by unfold obsHeadReg; omega)
  exact (h1.trans h2).trans (readingKept_obs s2 _)

theorem readingKept_addRecord (s : State) (d kind count part kc : Nat) (rest : List Byte) :
    readingKept s (addRecord s d kind count part kc rest) := by
  unfold addRecord
  extract_lets lost o s1
  have h1 : readingKept s s1 := readingKept_ite (.refl s) ((readingKept_obs s _).trans (readingKept_putRecord ..))
  exact h1.trans (readingKept_putRecord ..)

theorem readingKept_stageRecords (s : State) (d : Nat) (recs : List (Nat × Nat × Nat × List Byte)) :
    readingKept s (stageRecords s d recs) := by
  unfold stageRecords
  extract_lets q n s1
  have h1 : readingKept s s1 := readingKept_of_sameRegs ⟨rfl, rfl⟩
  refine readingKept_ite ?_ ?_
  · exact (h1.trans (readingKept_obs s1 _)).trans (readingKept_dropSample _ d)
  · exact (h1.trans (readingKept_obs s1 _)).trans (readingKept_foldl (fun t r => readingKept_addRecord t ..) recs _)

theorem readingKept_addPower (s : State) (b : List Byte) : readingKept s (addPower s b) :=
  readingKept_ite (.refl s) (readingKept_ite (readingKept_dropSample s 8) (readingKept_stageRecords s 8 _))

-- A reading (R430, R437)

/-- The state once a reading's power and temperatures stand in the registers. -/
def powerPut (s : State) (watts : Nat) (temps : List Nat) : State :=
  putTemps (cput { s with kc := (s.kc + 250) % 2 ^ 64 } 0x140020 15 0 watts) temps

/-- The state once the levels have followed it. -/
def levelsSet (s : State) (watts : Nat) (temps : List Nat) : State :=
  capLevels (noteHot (hot { s with kc := (s.kc + 250) % 2 ^ 64 }) (powerPut s watts temps)) watts

/-- What a reading has written, once the levels have followed it: PWR_KC moved on, and the power read (R430; log 3). -/
theorem levelsSet_shows (s : State) (watts : Nat) (temps : List Nat) : (levelsSet s watts temps).kc = (s.kc + 250) % 2 ^ 64 ∧
    wbits (cget (levelsSet s watts temps) 0x140020) 15 0 = watts % 65536 := by
  obtain ⟨hkc, hwatts, -⟩ := (readingKept_putTemps (cput { s with kc := (s.kc + 250) % 2 ^ 64 } 0x140020 15 0 watts) temps).trans
    ((readingKept_noteHot (hot { s with kc := (s.kc + 250) % 2 ^ 64 }) _).trans (readingKept_capLevels _ watts))
  refine ⟨hkc, ?_⟩
  rw [levelsSet, powerPut, hwatts, cget_cput, if_pos rfl, wbits_wput _ _ _ (by decide)]
  rfl

theorem exec_powerReading {watts input bank : Nat} {temps : List Nat} {s : State} (hlen : temps.length = 10) (hrails : s.drl.rails = true) :
    exec (.powerReading watts temps input bank) s = .next (addPower (supplyReading (levelsSet s watts temps) input bank)
      (powerRecord (supplyReading (levelsSet s watts temps) input bank) watts input bank)) := by
  show execPowerReading watts temps input bank s = _
  simp only [execPowerReading, hlen, hrails, decide_true, onUnit_true, when_true, levelsSet, powerPut]

/-- A power reading moves PWR_KC on by 250 and stands in the registers (R430, R437; log 3). -/
theorem powerReading_shows {watts input bank : Nat} {temps : List Nat} {s : State} (hlen : temps.length = 10) (hrails : s.drl.rails = true) :
    ∃ t, exec (.powerReading watts temps input bank) s = .next t ∧ t.kc = (s.kc + 250) % 2 ^ 64 ∧
      wbits (cget t 0x140020) 15 0 = watts % 65536 ∧ wbits (cget t 0x100020) 15 0 = input % 65536 ∧
      wbits (cget t 0x100020) 31 16 = bank % 65536 := by
  obtain ⟨hkc, hwatts⟩ := levelsSet_shows s watts temps
  obtain ⟨hinput, hbank⟩ := wbits_supplyPut (levelsSet s watts temps) input bank
  obtain ⟨hkc', hwatts', hsupply⟩ := (readingKept_supplyReading (levelsSet s watts temps) input bank).trans
    (readingKept_addPower _ (powerRecord (supplyReading (levelsSet s watts temps) input bank) watts input bank))
  refine ⟨_, exec_powerReading hlen hrails, ?_, ?_, ?_, ?_⟩
  · rw [hkc', supplyPut_kc, hkc]
  · rw [hwatts', cget_supplyPut_of_ne _ _ _ (by decide), hwatts]
  · rw [hsupply, hinput]
  · rw [hsupply, hbank]

-- Core power (R422, R423)

section core

variable {c : Nat} {s : State} (hc : c < 208) (hfast : fast s = true)
include hc hfast

theorem exec_coreNap (hidle : (core s c).power = .idle) (hplace : (core s c).place.isSome = true) (hwaking : (core s c).waking = false)
    (hnapping : (core s c).napping = false) (hon : (cget s 0x140000).getLsbD 0 = true) :
    exec (.coreNap c) s = .next (setCore s c { core s c with napping := true }) :=
  event_of (decide_eq_true hc) (by simp [hfast, hidle, hplace, hwaking, hnapping, hon]) ..

theorem exec_napEntryDone (hnapping : (core s c).napping = true) :
    exec (.napEntryDone c) s = .next (setCore s c { core s c with napping := false, power := .nap }) :=
  event_of (decide_eq_true hc) (by simp [hfast, hnapping]) ..

/-- A wake completes: the core is in Run where a take wants it, and a core from Off has its SRAM cleared (R125, R422, R423; log 59). -/
theorem exec_coreWake (hwaking : (core s c).waking = true) (hnapping : (core s c).napping = false) (hfenced : (core s c).fenced = false) :
    exec (.coreWake c) s = .next (bump (setCore (if (core s c).power = .off then clearSram s c else s) c
      { core s c with waking := false, power := if (core s c).place.any fun p => slotWanted s p.slot then .run else .idle }) 0x140030 1) :=
  event_of (decide_eq_true hc) (by simp [hfast, hwaking, hnapping, hfenced]) ..

end core

-- SMBus (R444 to R447)

section smbus

variable {s : State} (h : keeperUp s = true)
include h

theorem exec_setPtr {v : W32} (haligned : v.toNat % 8 = 0) (hsmall : v.toNat < 2 ^ 28) :
    exec (.setPtr v) s = .next (modDrl s fun d => { d with smbPtr := v.toNat }) :=
  when_of (by simp only [h, haligned, hsmall, and_self, decide_true, Bool.and_self]) ..

/-- READ of a register that it may read (R444). -/
theorem exec_smbRead_of_some {v : W64} (hallowed : smbAllowed s s.drl.smbPtr = true) (hread : csrRead s s.drl.smbPtr = some v) :
    exec .smbRead s = .next (modDrl s fun d => { d with smbOut := leBytes 8 v.toNat, smbPec := pec (blockRead 0x02 (leBytes 8 v.toNat)),
                                                         smbPtr := (s.drl.smbPtr + 8) % 2 ^ 28 }) := by
  show execSmbRead s = _
  simp only [execSmbRead, h, hallowed, if_true, hread, when_true]

/-- READ of what it may not read gives a block count of 0, and the pointer stays (R446; log 66). -/
theorem exec_smbRead_barred (hbarred : smbAllowed s s.drl.smbPtr = false) :
    exec .smbRead s = .next (modDrl s fun d => { d with smbOut := [], smbPec := pec (blockRead 0x02 []) }) := by
  show execSmbRead s = _
  simp only [execSmbRead, h, hbarred, Bool.false_eq_true, if_false, when_true]

theorem exec_clrAlert (v : W64) : exec (.clrAlert v) s = .next (cset s 0x100010 (cget s 0x100010 &&& ~~~v)) := when_of h ..

theorem exec_alertResponse : exec .alertResponse s =
    .next (modDrl s fun d => { d with smbOut := if cget s 0x100010 &&& cget s 0x100018 ≠ 0 then [0x58] else [] }) := by
  refine (when_of h ..).trans ?_
  simp only [alertLow, decide_eq_true_eq]

end smbus

-- Samples (R510 to R513)

section sample

variable {d : Nat} {s : State} (hd : d < 10) (hfast : fast s = true) (hon : (cget s (obsCfgReg d)).getLsbD 0 = true)

/-- With no enabled point, or no ring, there is no sample. -/
theorem sample_none (h : points s d = [] ∨ areaLen (cget s (obsRingReg d)) = 0) : sample s d = s := if_pos h

variable (hpoints : points s d ≠ []) (hring : areaLen (cget s (obsRingReg d)) ≠ 0)

include hpoints hring in
/-- A sample to a ring in a failed memory is dropped. -/
theorem sample_dropped (hlost : ringLost s d = true) : sample s d = dropSample s d := by
  simp only [sample, hpoints, hring, or_self, if_false, hlost, if_true]

include hpoints hring in
/-- Any other enters the staging buffer, six values to a record. -/
theorem sample_staged (hthere : ringLost s d = false) : sample s d = stageRecords (takeFree s).2 d
    ((inSixes (sampleAll s d (points s d))).map fun e => (1, e.2.length, e.1, e.2.flatten)) := by
  simp only [sample, hpoints, hring, or_self, if_false, hthere, Bool.false_eq_true]

include hd hfast hon in
theorem exec_obsSample : exec (.obsSample d) s = .next (sample s d) :=
  event_of (decide_eq_true hd) (by rw [hfast, hon, Bool.and_self]) ..

end sample

/-- Settles O42: cores, the reading by what is left of the words it writes, SMBus, then samples. -/
theorem powerAndSmbus : Obligations.PowerAndSmbus := by
  unfold Obligations.PowerAndSmbus
  refine ⟨⟨fun c s hc hfast => ⟨exec_coreNap hc hfast, exec_napEntryDone hc hfast, fun hwaking hnapping hfenced => ?_⟩,
      fun watts temps input bank s hlen hrails => powerReading_shows hlen hrails⟩,
    fun s h => ⟨fun v => exec_setPtr h, fun v => exec_smbRead_of_some h, exec_smbRead_barred h,
      fun v => ⟨_, exec_clrAlert h v, ?_, rfl⟩, exec_alertResponse h, rfl⟩, fun d s hd hfast hon => ⟨fun hnone => ?_, fun hp hr hlost => ?_,
      fun hp hr hthere => ?_⟩⟩
  · refine ⟨_, exec_coreWake hc hfast hwaking hnapping hfenced, by simp, fun hon a => ?_, fun hoff o ho => ?_⟩
    · rw [if_neg hon]
      exact devByte_congr rfl rfl rfl a
    · rw [if_pos hoff]
      refine (memRead_memClear ..).trans (if_pos ?_)
      unfold sramKey
      omega
  · rw [cget_cset, if_pos rfl]
  · rw [exec_obsSample hd hfast hon, sample_none hnone]
  · rw [exec_obsSample hd hfast hon, sample_dropped hp hr hlost]
  · rw [exec_obsSample hd hfast hon, sample_staged hp hr hthere]

end Sys2Proof.Machine

/-! PROOFS. Firmware, attestation and identity operations (R491 to R501): each by its checks, and what the end of a command leaves of the leaf
ledger. -/
namespace Sys2Proof.Machine

open Sys2Proof

-- Completions and messages leave the security state

@[simp] theorem ite_sec (p : Prop) [Decidable p] (s t : State) : (if p then s else t).sec = if p then s.sec else t.sec := apply_ite ..

@[simp] theorem foldl_sec {α : Type} {f : State → α → State} (h : ∀ s a, (f s a).sec = s.sec) (l : List α) (s : State) :
    (l.foldl f s).sec = s.sec :=
  List.foldlRecOn l f (motive := fun t => t.sec = s.sec) rfl fun t ht a _ => (h t a).trans ht

@[simp] theorem sec_send (s : State) (q : Nat) (kind : MsgKind) (key va : Nat) (data : List Byte) : (send s q kind key va data).sec = s.sec := by
  unfold send sentOn countFrames
  dsimp only
  split <;> rfl

@[simp] theorem sec_complete (s : State) (st seq : Nat) (c : CInfo) : (complete s st seq c).sec = s.sec := by
  unfold complete
  split
  · rfl
  · dsimp only
    rw [sec_send]
    split_ifs <;> rfl

@[simp] theorem sec_settle (s : State) (st : Nat) : (settle s st).sec = s.sec := by
  simp only [settle]
  split <;> simp

@[simp] theorem sec_haltStream (s : State) (st seq : Nat) : (haltStream s st seq).sec = s.sec := by
  simp only [haltStream]
  split <;> rfl

@[simp] theorem sec_dropUpdates (s : State) (st seq : Nat) : (dropUpdates s st seq).sec = s.sec := by
  have hfree (t : State) (u : Update) : (freeUpdate t u).sec = t.sec := by simp [freeUpdate, setRegions]
  simp [dropUpdates, hfree]

@[simp] theorem sec_restCores (s : State) (slot : Nat) : (restCores s slot).sec = s.sec := by simp [restCores, modCore]

@[simp] theorem sec_reportLoad (s : State) (e : Entry) (report : List Byte) : (reportLoad s e report).sec = s.sec := by
  simp [reportLoad, leaveLoader]

@[simp] theorem sec_finishCore (s : State) (st seq : Nat) (c : CInfo) : (finishCore s st seq c).sec = s.sec := by
  have hentry (f : Entry → Entry) : (modEntry s st seq f).sec = s.sec := rfl
  unfold finishCore
  split
  · rfl
  · simp [hentry]

/-- The end of a command leaves the security state. -/
@[simp] theorem sec_finish (s : State) (st seq : Nat) (c : CInfo) : (finish s st seq c).sec = s.sec := by
  unfold finish
  split <;> simp

-- The operations

theorem onStream0_of_zero {e : Entry} (h : e.stream = 0) (s t : State) : onStream0 s e t = t := if_neg (not_not.2 h)

/-- FW_WRITE of an image that can be read whole: it passes its checks and enters the slot that does not run, or names the check that it fails
(R491, R492). -/
theorem fwWrite_of_read {s : State} {e : Entry} {img : List Byte}
    (hopen : openRange s (fld e.body 136 8 % 2 ^ 48) (fld e.body 144 4) = true)
    (hread : readMem s (fld e.body 136 8 % 2 ^ 48) (fld e.body 144 4) = (.done, img)) (hlen : fwLen img = fld e.body 144 4)
    (hslot : fld e.body 128 1 ≠ s.sec.slot) :
    fwWrite s e true = if fwCheck s img = 0 then
      done (noteSlot (flashProg (flashErase (flashErase s (fwBase (fld e.body 128 1)) 0x400000) (fwRecords (fld e.body 128 1)) 0x10000)
        (fwBase (fld e.body 128 1)) img) (fld e.body 128 1)) e
    else imageConflict s e (fwCheck s img) := by
  simp only [fwWrite, hopen, hread, hlen, hslot, not_true_eq_false, ne_eq, if_false, if_true, ite_not]

/-- FW_ACTIVATE of a slot with a free record: its image passes its checks and a record with the next generation is programmed, or it ends with
FW_SLOT (R489, R493). -/
theorem fwActivate_of_free {s : State} {e : Entry} {i : Nat} (hfree : freeRecord s (fld e.body 128 1) = some i) :
    fwActivate s e true = if fwCheck s (fwImage s (fld e.body 128 1)) = 0 then
      done (noteSlot (flashProg (noteSlot s (fld e.body 128 1)) (fwRecords (fld e.body 128 1) + 64 * i)
        (withCrc (leBytes 4 ((max (slotGen s 0 % 2 ^ 31) (slotGen s 1 % 2 ^ 31) + 1) % 2 ^ 31 + 2 ^ 31 * b2n (bit (fld e.body 129 1) 0)) ++
          leBytes 1 (fld e.body 128 1) ++ zeros 55) 60)) (fld e.body 128 1)) e
    else conflict (noteSlot s (fld e.body 128 1)) e 0x62 := by
  simp only [fwActivate, hfree, not_true_eq_false, ne_eq, if_false, ite_not]

/-- Reading a byte of module flash after a range has been erased. -/
theorem flashRead_flashErase (s : State) (a len b : Nat) :
    flashRead (flashErase s a len) b = if a ≤ b ∧ b < a + len then 0xFF else flashRead s b := by
  refine (tget_filter (0xFF : Byte) (fun k => decide ¬(a ≤ k ∧ k < a + len)) b s.flash).trans ?_
  by_cases h : a ≤ b ∧ b < a + len <;> simp [h, flashRead]

/-- The ledger lies behind the block of the identity record (R448, R497, R501). -/
theorem ledgerHeader_flashErase_identBase (s : State) : ledgerHeader (flashErase s identBase 0x10000) = ledgerHeader s := by
  unfold ledgerHeader flashReads
  refine List.map_congr_left fun i _ => ?_
  rw [flashRead_flashErase, if_neg (by unfold identBase ledgerBase; omega)]

/-- IDSET whose flash takes it writes its record over the old one (R501). -/
theorem idset_programmed (s : State) (e : Entry) : idset s e true = done (flashProg (flashErase s identBase 0x10000) identBase
    (identRecord (flashErase s identBase 0x10000) (slice e.body 128 92))) e := by
  rw [identRecord, ledgerHeader_flashErase_identBase, ← identRecord, idset, if_pos rfl]

/-- A leaf that is not its block's last is used once: the next is the one after it (R496, R497). -/
theorem leaf_attestSign {s : State} (e : Entry) (h : s.sec.leaf + 1 < s.sec.blockEnd) : (attestSign s e).sec.leaf = s.sec.leaf + 1 := by
  simp only [attestSign, done, if_pos h, sec_finish, ite_sec, foldl_sec, sec_send, implies_true, ite_self]

@[simp] theorem wakeNapped_drl (s : State) :
    (wakeNapped s).drl = { s.drl with frzNaps := (List.range 208).filter fun c => decide ((core s c).power = .nap) } := by
  simp [wakeNapped, modCore]

theorem stopClocks_drl (s : State) (frz : FrzState) (cause scope : Nat) : (stopClocks s frz cause scope).drl =
    { s.drl with frz := frz, frzCause := cause, frzScope := scope, frzRead := false, frzBad := [], frzStopKc := s.kc } := (rfl)

/-- What Derler keeps of a freeze that begins: its cause and scope, when it began, and the cores that it wakes (R472 to R474). -/
theorem beginFreeze_drl (s : State) (cause scope : Nat) : ∃ naps, (beginFreeze s cause scope).drl =
    { s.drl with frz := .reading, frzCause := cause, frzScope := scope, frzRead := false, frzBad := [], frzStopKc := s.kc, frzNaps := naps } :=
  ⟨_, (openHeader_drl _ 0).trans ((wakeNapped_drl _).trans (by rw [wakeArea_drl, sleepMemories_drl, stopClocks_drl]))⟩

section security

variable {st : Nat} {e : Entry} {s : State} (hst : st < 256)
include hst

/-- ATTEST signs with the next leaf of the block in use (R495, R496). -/
theorem exec_attest (h : turnOf s st 10 = some e) (hop : fld e.body 64 1 = 7) (hleaf : s.sec.leaf < s.sec.blockEnd) (ok : Bool) :
    exec (.attest st ok) s = .next (attestSign s e) :=
  (opTurn_of_turn _ hst h hop).trans (congrArg _ (if_pos hleaf))

/-- FREEZE commits and begins its freeze (R473; log 2). -/
theorem exec_freeze {action : Nat} (h : turnOf s st 11 = some e) (hop : fld e.body 64 1 = action) (haction : action = 1 ∨ action = 2) :
    exec (if action = 1 then .freezeThaw st else .freezeReset st) s = .next (freezeCmd s e) := by
  rcases haction with rfl | rfl
  · exact opTurn_of_turn _ hst h hop
  · exact opTurn_of_turn _ hst h hop

variable (h0 : e.stream = 0)
include h0

theorem exec_fwWrite (h : turnOf s st 10 = some e) (hop : fld e.body 64 1 = 5) (ok : Bool) :
    exec (.fwWrite st ok) s = .next (fwWrite s e ok) :=
  (opTurn_of_turn _ hst h hop).trans (congrArg _ (onStream0_of_zero h0 ..))

theorem exec_fwActivate (h : turnOf s st 10 = some e) (hop : fld e.body 64 1 = 6) (ok : Bool) :
    exec (.fwActivate st ok) s = .next (fwActivate s e ok) :=
  (opTurn_of_turn _ hst h hop).trans (congrArg _ (onStream0_of_zero h0 ..))

theorem exec_idset (h : turnOf s st 10 = some e) (hop : fld e.body 64 1 = 8) (ok : Bool) : exec (.idset st ok) s = .next (idset s e ok) :=
  (opTurn_of_turn _ hst h hop).trans (congrArg _ (onStream0_of_zero h0 ..))

end security

/-- Settles O46: each operation at its turn, then what its checks decide. -/
theorem securityOperations : Obligations.SecurityOperations := by
  unfold Obligations.SecurityOperations
  refine fun st e s hst h0 => ⟨fun h hop img hopen hread hlen hslot => ?_, fun h hop i hfree => ?_,
    fun ok h hop hleaf => ⟨exec_attest hst h hop hleaf ok, leaf_attestSign e⟩,
    fun h hop => (exec_idset hst h0 h hop true).trans (congrArg _ (idset_programmed s e)),
    fun action h hop haction => ⟨exec_freeze hst h hop haction, ?_⟩⟩
  · exact (exec_fwWrite hst h0 h hop true).trans (congrArg _ (fwWrite_of_read hopen hread hlen hslot))
  · exact (exec_fwActivate hst h0 h hop true).trans (congrArg _ (fwActivate_of_free hfree))
  · obtain ⟨naps, hdrl⟩ := beginFreeze_drl (modDrl (modEntry s e.stream e.seq fun e => { e with state := .committed, status := 0 })
      fun d => { d with frzCmd := fld e.body 64 1, frzHold := decide (fld e.body 64 1 = 1), frzPin := false }) 2 (fld e.body 65 1)
    simp only [freezeCmd, hdrl]
    exact ⟨trivial, hop, trivial⟩

end Sys2Proof.Machine

/-! PROOFS. Freezes (R472 to R477, R483): how the pin begins and holds one, which memories sleep in it, and how it ends. -/
namespace Sys2Proof.Machine

open Sys2Proof

-- The memories of a freeze (R428, R474)

theorem asleep_state (m : MemCtl) : m.asleep.state ≠ .ready := by
  unfold MemCtl.asleep
  split
  · exact MemState.noConfusion
  · assumption

/-- The packages of the dailies area are a matter of its register alone. -/
theorem areaCtls_congr {s t : State} (h : cget t dailiesReg = cget s dailiesReg) : areaCtls t = areaCtls s := by
  simp only [areaCtls, h]

theorem areaCtls_sleepMemories (s : State) : areaCtls (sleepMemories s) = areaCtls s := areaCtls_congr rfl

/-- The registers that stopping the clocks writes: the alert, the count of freezes, and the windows' count. -/
def stopRegs (s : State) : State :=
  let t := bump (alert s 7) 0xC000010 1
  cput t 0x100028 47 32 ((wbits (cget t 0x100028) 47 32 + 1) % 65536)

theorem stopClocks_csr (s : State) (frz : FrzState) (cause scope : Nat) : (stopClocks s frz cause scope).csr = (stopRegs (takeFree s).2).csr :=
  (rfl)

/-- Stopping the clocks leaves every other register. -/
theorem cget_stopClocks (s : State) (frz : FrzState) (cause scope : Nat) {a : Nat} (halert : a ≠ 0x100010) (hcount : a ≠ 0xC000010)
    (hwindow : a ≠ 0x100028) : cget (stopClocks s frz cause scope) a = cget s a := by
  rw [cget, stopClocks_csr, ← cget]
  simp only [stopRegs, alert, cget_cput, if_neg hwindow, cget_bump, if_neg hcount, cget_corr, if_neg halert, cget_takeFree]

theorem areaCtls_stopClocks (s : State) (frz : FrzState) (cause scope : Nat) : areaCtls (stopClocks s frz cause scope) = areaCtls s :=
  areaCtls_congr (cget_stopClocks s frz cause scope (by decide) (by decide) (by decide))

theorem ctl_readyCtl_of_ne {j k : Nat} (h : k ≠ j) (s : State) : ctl (readyCtl s j) k = ctl s k := by
  unfold readyCtl
  split
  · rw [ctl_setCtl, if_neg h]
  · rfl

/-- Waking the dailies area leaves the memories outside it. -/
theorem ctl_wakeArea {s : State} {k : Nat} (h : k ∉ areaCtls s) : ctl (wakeArea s) k = ctl s k :=
  List.foldlRecOn (areaCtls s) readyCtl (motive := fun t => ctl t k = ctl s k) rfl
    fun t ht _ hj => (ctl_readyCtl_of_ne (ne_of_mem_of_not_mem hj h).symm t).trans ht

/-- In a freeze that begins, no memory outside the dailies area is Ready. -/
theorem state_beginFreeze {s : State} {k : Nat} (cause scope : Nat) (h : k ∉ areaCtls s) : (ctl (beginFreeze s cause scope) k).state ≠ .ready := by
  have harea : k ∉ areaCtls (sleepMemories (stopClocks s .reading cause scope)) := by
    rwa [areaCtls_sleepMemories, areaCtls_stopClocks]
  rw [beginFreeze, state_openHeader, ctl_wakeNapped, ctl_wakeArea harea, ctl_sleepMemories]
  exact asleep_state _

-- The thaw (R476, R477)

/-- A freeze that something holds goes on. -/
theorem tryThaw_held {s : State}
    (h : s.drl.frz ≠ .frozen ∨ s.drl.frzRead = false ∨ s.drl.frzPin = true ∨ s.drl.frzHold = true ∨ s.drl.frzCmd = 2) : tryThaw s = s := by
  refine if_neg ?_
  rintro ⟨hfrozen, -, -, hread, hpin, hhold, hcmd⟩
  rcases h with h | h | h | h | h
  · exact h hfrozen
  · exact Bool.false_ne_true (h.symm.trans hread)
  · exact hpin h
  · exact hhold h
  · exact hcmd h

section atReady

variable {s : State} (hrails : s.drl.rails = true) (hphase : s.drl.phase = .ready) (hhalted : s.drl.halted = false)

include hphase hhalted in
/-- One that nothing holds any more thaws. -/
theorem tryThaw_free (hfrozen : s.drl.frz = .frozen) (hread : s.drl.frzRead = true) (hpin : s.drl.frzPin = false) (hhold : s.drl.frzHold = false)
    (hcmd : s.drl.frzCmd ≠ 2) : tryThaw s = thaw s := by
  simp [tryThaw, hfrozen, hphase, hhalted, hread, hpin, hhold, hcmd]

include hphase hhalted in
/-- A warm reset of the device's own begins at READY (R467). -/
theorem ownWarm_ready : ownWarm s = beginWarm s 3 := by
  simp only [ownWarm, hhalted, hphase, Bool.false_eq_true, if_false]

include hrails hphase hhalted in
/-- The pin begins a freeze where none is (R472). -/
theorem exec_pinFreeze_begins (hup : s.drl.freezeN = true) (hon : pinEnabled s = true) (hruns : s.drl.frz = .running) :
    exec .pinFreeze s = .next (beginPinFreeze (modDrl s fun d => { d with freezeN := false })) := by
  show execPinFreeze s = _
  simp [execPinFreeze, hup, hrails, hphase, hhalted, hon, hruns]

include hrails hphase hhalted in
/-- The pin holds a freeze that is in progress. -/
theorem exec_pinFreeze_holds (hup : s.drl.freezeN = true) (hon : pinEnabled s = true) (hfrz : s.drl.frz ≠ .running) :
    exec .pinFreeze s = .next (modDrl s fun d => { d with freezeN := false, frzPin := true }) := by
  show execPinFreeze s = _
  simp [execPinFreeze, hup, hrails, hphase, hhalted, hon, hfrz, modDrl]

include hphase hhalted in
theorem exec_freezeHoldExpiry (hhold : s.drl.frzHold = true) :
    exec .freezeHoldExpiry s = .next (tryThaw (modDrl s fun d => { d with frzHold := false })) :=
  when_of (by simp [hhold, hphase, hhalted]) ..

include hphase hhalted in
/-- The read-out ends (R474, R476). -/
theorem exec_readoutEnd {bad : List Nat} (hreading : s.drl.frz = .reading) (hbad : ∀ m ∈ bad, m < 832) : exec (.readoutEnd bad) s =
    .next (tryThaw (modDrl (sleepArea (readOut s bad)) fun d => { d with frz := .frozen, frzRead := true, frzBad := bad })) := by
  have hunits : bad.all (· < 832) = true := by simpa using hbad
  show execReadoutEnd bad s = _
  simp [execReadoutEnd, hunits, hphase, hreading, hhalted]

include hphase hhalted in
/-- A frozen device that waits for its pin, or that a FREEZE_RESET froze, resets (R476, R483). -/
theorem exec_freezeEnd (hfrozen : s.drl.frz = .frozen) (hread : s.drl.frzRead = true) (hcause : s.drl.frzPin = true ∨ s.drl.frzCmd = 2) :
    exec .freezeEnd s = .next (ownWarm s) :=
  when_of (by rcases hcause with h | h <;> simp [hfrozen, hphase, hhalted, hread, h]) ..

end atReady

/-- The pin rises: whether it rises too late decides whether it still holds the freeze (R476). -/
theorem exec_freezePinRelease {s : State} (hlow : s.drl.freezeN = false) : exec .freezePinRelease s =
    .next (tryThaw (modDrl s fun d => { d with freezeN := true, freezeSpent := false, frzPin := pinLate s })) :=
  when_of (by rw [hlow, Bool.not_false]) ..

/-- Settles O57: each cause by its event, then when a freeze thaws. -/
theorem freezes : Obligations.Freezes := by
  unfold Obligations.Freezes
  refine fun s hrails hphase hhalted => ⟨fun hup hon hruns => ⟨_, exec_pinFreeze_begins hrails hphase hhalted hup hon hruns, ?_⟩,
    exec_pinFreeze_holds hrails hphase hhalted, fun hlow hintime => ?_, fun hlow hpin hlate => ?_, exec_freezeHoldExpiry hphase hhalted,
    fun bad => exec_readoutEnd hphase hhalted, fun hfrozen hread hcause => ⟨exec_freezeEnd hphase hhalted hfrozen hread hcause, ?_⟩,
    tryThaw_free hphase hhalted, tryThaw_held⟩
  · obtain ⟨naps, hdrl⟩ := beginFreeze_drl (modDrl s fun d => { d with freezeN := false, frzPin := true, frzCmd := 0, frzHold := false }) 1
      (wbits (cget s 0xC000000) 2 1)
    have hbegin : beginPinFreeze (modDrl s fun d => { d with freezeN := false }) =
      beginFreeze (modDrl s fun d => { d with freezeN := false, frzPin := true, frzCmd := 0, frzHold := false }) 1
        (wbits (cget s 0xC000000) 2 1) := rfl
    rw [hbegin, hdrl]
    exact ⟨rfl, rfl, rfl, rfl, fun k hk => state_beginFreeze _ _ hk⟩
  · have htime : pinLate s = false := by
      rcases hintime with h | h
      · rw [pinLate, h, Bool.false_and]
      · rw [pinLate, decide_eq_false (Nat.not_lt.2 h), Bool.and_false]
    rw [exec_freezePinRelease hlow, htime]
  · have hstays : pinLate s = true := by rw [pinLate, hpin, decide_eq_true hlate, Bool.true_and]
    rw [exec_freezePinRelease hlow, hstays, tryThaw_held (.inr (.inr (.inl rfl)))]
  · rw [ownWarm_ready hphase hhalted]
    obtain ⟨hwarm, -, hcause, -⟩ := beginWarm_drl s 3
    exact ⟨hwarm, hcause⟩

end Sys2Proof.Machine

/-! PROOFS. What the device does about each fault (R463 to R471, R323): each fault's event under its condition, and the areas of the journal. -/
namespace Sys2Proof.Machine

open Sys2Proof

-- Cores (R464 to R467)

section core

variable {c : Nat} {s : State} (hc : c < 208)
include hc

/-- An array's error stands in its register, and its core is fenced (R83, R121, R124, R464). -/
theorem exec_coreArrayFault (hfast : fast s = true) (hmapped : (pcoreOf s c).state = .mapped) (array : Nat) :
    exec (.coreArrayFault c array) s = .next (fenceCore (match arrayReg c array with
      | some e => corr s e.1 (BitVec.ofNat 64 e.2)
      | none => s) c 1) :=
  event_of (decide_eq_true hc) (by rw [hfast, decide_eq_true hmapped, Bool.and_self]) ..

theorem exec_fenceFail (hfast : fast s = true) (hmapped : (pcoreOf s c).state = .mapped) :
    exec (.fenceFail c) s = .next (ownWarm (logFault s 3 (c / 26) (c % 26) 3)) :=
  event_of (decide_eq_true hc) (by rw [hfast, decide_eq_true hmapped, Bool.and_self]) ..

theorem exec_coreTestDone (hrails : s.drl.rails = true) (hhalted : s.drl.halted = false) (htesting : (pcoreOf s c).state = .testing) (pass : Bool) :
    exec (.coreTestDone c pass) s = .next (tested s c pass) :=
  event_of (decide_eq_true hc) (by simp only [hrails, hhalted, htesting, decide_true, Bool.not_false, Bool.and_self]) ..

end core

-- Links, Derler, hubs (R467 to R470)

section link

variable {d side : Nat} {s : State} (hd : d < 8) (hlink : (dieAcross d side).isSome = true) (hfast : fast s = true)
  (hlive : (d, side) ∉ s.fab.deadLinks)
include hd hlink hfast hlive

/-- A link fails: what follows is decided by which hub, if any, has lost its last link (R467, R469, R470). -/
theorem exec_linkD2dFault : exec (.linkD2dFault d side) s = .next (
    let t := cutLink (logFault s 0x0A d 0xFF 3) d side
    match [0, 1].find? fun h => hubCut t h with
    | some h => failHub t h
    | none => ownWarm { t with fab := { t.fab with reroute := true } }) :=
  event_of (by rw [hlink, decide_eq_true hd, Bool.and_self]) (by rw [hfast, decide_eq_true hlive, Bool.and_self]) ..

/-- With both hubs still linked, the device resets itself and routes around the link. -/
theorem exec_linkD2dFault_reroutes (h0 : hubCut (cutLink (logFault s 0x0A d 0xFF 3) d side) 0 = false)
    (h1 : hubCut (cutLink (logFault s 0x0A d 0xFF 3) d side) 1 = false) : exec (.linkD2dFault d side) s =
    .next (ownWarm { cutLink (logFault s 0x0A d 0xFF 3) d side with
      fab := { (cutLink (logFault s 0x0A d 0xFF 3) d side).fab with reroute := true } }) := by
  rw [exec_linkD2dFault hd hlink hfast hlive]
  simp only [List.find?_cons, h0, h1, List.find?_nil]

/-- A hub that has lost its last link has failed. -/
theorem exec_linkD2dFault_cuts (h0 : hubCut (cutLink (logFault s 0x0A d 0xFF 3) d side) 0 = true) : exec (.linkD2dFault d side) s =
    .next (failHub (cutLink (logFault s 0x0A d 0xFF 3) d side) 0) := by
  rw [exec_linkD2dFault hd hlink hfast hlive]
  simp only [List.find?_cons, h0]

end link

section atReady

variable {s : State} (hrails : s.drl.rails = true) (hphase : s.drl.phase = .ready) (hhalted : s.drl.halted = false)
include hrails hphase hhalted

/-- The first watchdog hands over to the standby in a warm reset (R468). -/
theorem exec_derlerWatchdog_first (hfirst : s.drl.standby = false) : exec .derlerWatchdog s =
    .next (ownWarm { logFault s 0x0B 8 0xFF 3 with drl := { (logFault s 0x0B 8 0xFF 3).drl with standby := true } }) := by
  refine (when_of (by simp [hrails, hphase, hhalted]) ..).trans ?_
  simp only [hfirst, Bool.false_eq_true, if_false]

/-- The standby's own watchdog halts the device (R468). -/
theorem exec_derlerWatchdog_last (hlast : s.drl.standby = true) : exec .derlerWatchdog s = .next (haltDevice (logFault s 0x0B 9 0xFF 3)) := by
  refine (when_of (by simp [hrails, hphase, hhalted]) ..).trans ?_
  simp only [hlast, if_true]

theorem exec_hubFailure {h : Nat} (hh : h < 2) : exec (.hubFailure h) s = .next (failHub s h) :=
  event_of (decide_eq_true hh) (by simp [hrails, hphase, hhalted]) ..

end atReady

-- Journal areas (R325, R471)

@[simp] theorem area_setArea (s : State) (a b v : Nat) : area (setArea s a v) b = if b = a then v else area s b := tget_tset ..

@[simp] theorem area_rearm (s : State) (a : Nat) : area (rearm s) a = area s a := (rfl)

/-- Derler tries the erase of an area again where it had failed (R471). -/
def retryArea (s : State) (a : Nat) : State := if area s a = 3 then setArea s a 2 else s

theorem area_retryArea (s : State) (a b : Nat) : area (retryArea s a) b = if b = a ∧ area s b = 3 then 2 else area s b := by
  unfold retryArea
  by_cases hb : b = a
  · subst hb
    split <;> simp [*]
  · split <;> simp [hb]

/-- Both areas' erases are tried again. -/
theorem area_retryAreas (s : State) {a : Nat} (ha : a < 2) :
    area ([0, 1].foldl retryArea s) a = if area s a = 3 then 2 else area s a := by
  show area (retryArea (retryArea s 0) 1) a = _
  simp only [area_retryArea]
  interval_cases a <;> simp

theorem exec_journalEraseRetry {s : State} (hrails : s.drl.rails = true) (hphase : s.drl.phase = .ready) (hhalted : s.drl.halted = false)
    (hnone : areaReady s = false) : exec .journalEraseRetry s = .next ([0, 1].foldl retryArea s) :=
  when_of (by simp [hrails, hphase, hhalted, hnone]) ..

/-- An erase fails: its area does, and the other may be erased (R325, R471). -/
theorem exec_journalFlashFail {a : Nat} {s : State} (ha : a < 2) (hrails : s.drl.rails = true) (hphase : s.drl.phase ≠ .flushing)
    (harea : area s a = 2) :
    exec (.journalFlashFail a) s = .next (rearm (eraseArea (setArea (logFault s 0x0F 0xFF 0xFF 4) a 3) (1 - a))) := by
  refine (event_of (decide_eq_true ha) (by simp [hrails, harea]) ..).trans ?_
  rw [if_neg hphase]

/-- An erase ends: its area is ready. -/
theorem exec_journalAreaErased {a : Nat} {s : State} (ha : a < 2) (hrails : s.drl.rails = true) (hhalted : s.drl.halted = false)
    (hflushing : s.drl.phase ≠ .flushing) (hflushed : s.drl.phase ≠ .flushed) (harea : area s a = 2) :
    ∃ t, exec (.journalAreaErased a) s = .next t ∧ area t a = 0 := by
  refine ⟨_, event_of (decide_eq_true ha) (by simp [hrails, hhalted, hflushing, hflushed, harea]) .., ?_⟩
  exact (area_setArea s a a 0).trans (if_pos rfl)

/-- The rebuild of the logbook ends: the copy it filled is in use (R323). -/
theorem exec_logbookRebuildDone {k : Nat} {s : State} (hk : s.intake.rebuild = some k) (hfast : fast s = true) : exec .logbookRebuildDone s =
    .next (bump (modIntake s fun x => { x with rebuild := none, copyAok := x.copyAok || decide (x.copyA = k),
                                               copyBok := x.copyBok || decide (x.copyB = k) }) 0x208018 1) := by
  have hrun : memRun s = true := by rw [memRun, hfast, Bool.true_or]
  show execLogbookRebuildDone s = _
  simp only [execLogbookRebuildDone, hk, hrun, when_true]

/-- Settles O58, fault by fault. -/
theorem faultResponses : Obligations.FaultResponses := by
  unfold Obligations.FaultResponses
  refine ⟨fun c array s hc => ⟨fun hfast hmapped => ⟨exec_coreArrayFault hc hfast hmapped array, exec_fenceFail hc hfast hmapped⟩,
      exec_coreTestDone hc⟩,
    fun u s hu hfast => event_of (decide_eq_true hu) hfast ..,
    fun d side s hd hlink hfast hlive => ⟨exec_linkD2dFault_reroutes hd hlink hfast hlive, exec_linkD2dFault_cuts hd hlink hfast hlive⟩,
    fun s hrails hphase hhalted => ⟨exec_derlerWatchdog_first hrails hphase hhalted, exec_derlerWatchdog_last hrails hphase hhalted,
      fun h hh => ⟨exec_hubFailure hrails hphase hhalted hh, rfl⟩,
      fun hnone => ⟨_, exec_journalEraseRetry hrails hphase hhalted hnone, fun a ha => area_retryAreas s ha⟩⟩,
    fun a s ha hrails hflushing hflushed harea => ⟨exec_journalFlashFail ha hrails hflushing harea,
      fun hhalted => exec_journalAreaErased ha hrails hhalted hflushing hflushed harea⟩,
    fun k s hk hfast => ⟨_, exec_logbookRebuildDone hk hfast, rfl, fun ha => ?_, fun hb => ?_⟩⟩
  · exact (Bool.or_eq_true ..).mpr (.inr (decide_eq_true ha))
  · exact (Bool.or_eq_true ..).mpr (.inr (decide_eq_true hb))

end Sys2Proof.Machine
